-- ==== Sys2Proof/Word.lean ====
section
/-! DEFINITION. The machine's words: 32-bit words and bytes of test memory (spec/00_scope.md 0.6, R202). -/

namespace Sys2Proof

/-- A word of test memory or of the host bus: 32 bits (00_scope.md 0.6, R190). -/
abbrev Word := BitVec 32

/-- A byte of test memory, and a character of a printed line. -/
abbrev Byte := BitVec 8

end Sys2Proof
end

