-- ==== Sys2Proof/Syntax.lean ====
section
/-! DEFINITION. The commands of the part: one constructor for each row of spec/opcode_table.json, with the row's operands. -/

namespace Sys2Proof

/-- The bus a point is switched to (R1, R2): one of the four analog buses, or NONE. -/
inductive Bus where
  | none | a | b | c | d
  deriving DecidableEq, Repr

/-- The commands and events of spec/opcode_table.json, in the table's order. -/
inductive Instr where
  /-- HARDWARE_RESET (R189): power-on or the RESET pin. -/
  | hardwareReset
  /-- SOFT_RESET (R186): a write of SOFT_RESET to the RUN register. -/
  | softReset
  /-- START (R175). -/
  | start
  /-- HALT (R183). -/
  | halt
  /-- RESUME (R184). -/
  | resume
  /-- ABORT (R185). -/
  | abort
  /-- POLL (R199): a read of ATTN_POLL. -/
  | poll
  /-- CLOSE_TOP (R200). -/
  | closeTop
  /-- CLOSE_SOURCE (R200): the source `s`. -/
  | closeSource (s : BitVec 3)
  /-- CLOSE_TOP_ROTATE (R200). -/
  | closeTopRotate
  /-- SET_BOTTOM (R200): the source `s`. -/
  | setBottom (s : BitVec 3)
  /-- AUTOCLOSE on (R200). -/
  | autocloseOn
  /-- AUTOCLOSE off (R200). -/
  | autocloseOff
  /-- AUTOROTATE on (R200). -/
  | autorotateOn
  /-- AUTOROTATE off (R200). -/
  | autorotateOff
  /-- SELECTIVE on (R200). -/
  | selectiveOn
  /-- SELECTIVE off (R200). -/
  | selectiveOff
  /-- A write of MASK (R200, R207): the word written; b0 is the new mask set. -/
  | maskWrite (value : Word)
  /-- A register write that no other row names (R191, R200): the register and the word written. -/
  | ignoredRegisterWrite (reg : BitVec 2) (value : Word)
  /-- A memory-window write (R190, R192): the word address and the value. -/
  | hostWrite (addr : BitVec 20) (value : Word)
  /-- A memory-window read (R190, R192): the word address. -/
  | hostRead (addr : BitVec 20)
  /-- One grant of the memory arbiter (R194). -/
  | arbiterGrant
  /-- The reader reads, checks and takes the order at the header it has reached (R178). -/
  | takeOrder
  /-- A card's echo arrives: the bus of each of the card's 128 points, in index order (R12). -/
  | cardEcho (pattern : List Bus)
  /-- The 1 ms echo window ends without an echo (R12). -/
  | echoWindowExpiry
  /-- The release timer expires (R9). -/
  | releaseTimerExpiry
  /-- The settle timer expires (R10). -/
  | settleTimerExpiry
  /-- The off timer expires (R16). -/
  | offTimerExpiry
  /-- The unpark settle timer expires (R18). -/
  | unparkSettleExpiry
  /-- The converter yields one signed sample of each channel (R25). -/
  | converterSample (diff hvv hvi : BitVec 16)
  /-- The ramp timer expires (R108). -/
  | rampTimerExpiry
  /-- The dwell timer reaches the window point (R127). -/
  | dwellTimerExpiry
  /-- The locate dwell has 10 ms to run (R134). -/
  | locateDwellExpiry
  /-- The trip comparator fires (R110). -/
  | trip
  /-- The arc comparator gives a pulse (R111). -/
  | arcPulse
  /-- The discharge timer expires (R113). -/
  | dischargeTimerExpiry
  /-- The interlock input opens (R115). -/
  | interlockOpening
  /-- The interlock input closes (R116). -/
  | interlockClosing
  /-- The formatter builds its next line (R157). -/
  | formatLine
  /-- A character frame of the printer port ends (R166). -/
  | characterFrameEnd
  /-- The printer-ready input is asserted (R166). -/
  | printerReadyAsserted
  /-- The printer-ready input is released (R166). -/
  | printerReadyReleased
  /-- The paper-out input is asserted (R167). -/
  | paperOutAsserted
  /-- The paper-out input is released (R167). -/
  | paperOutReleased
  /-- The transmission of a card link frame ends (R12, R21). -/
  | cardFrameEnd
  deriving DecidableEq, Repr

end Sys2Proof
end

