-- ==== Sys2Proof/WellFormed.lean ====
section
/-! DEFINITION. Which commands are well formed: an echo names 128 buses, and an ignored register write is one that no other
row names (R12, R191, R200, R207). -/

namespace Sys2Proof

/-- A word written to a register that has no command: IDENT, a RUN code outside 1..5, an ATTN_CMD code outside 1..10 (R191,
R200, R207). A write of MASK always has its own row. -/
def ignoredWrite (reg : BitVec 2) (value : Word) : Bool :=
  let c := value.toNat % 256
  if reg = 0 then true
  else if reg = 1 then c = 0 || decide (5 < c)
  else if reg = 2 then c = 0 || decide (10 < c)
  else false

/-- A command is well formed. -/
def Instr.wellFormed (i : Instr) : Bool :=
  match i with
  | .cardEcho pattern => decide (pattern.length = 128)
  | .ignoredRegisterWrite reg value => ignoredWrite reg value
  | _ => true

end Sys2Proof
end

