-- ==== Sys2Proof/Decode.lean ====
section
/-! DEFINITION. Words that spell commands: the opcode table gives no row any bits; a register write spells a command by the
fields of R207. -/

namespace Sys2Proof

/-- The command that a word spells by the opcode table's bits: no row has any. -/
def decodeTableWord (_nbits _w : Nat) : Option Instr := none

/-- The command that a write of a register gives (R191, R207): register 1 is RUN, 2 ATTN_CMD, 3 MASK. -/
def registerCommand (reg : BitVec 2) (value : Word) : Instr :=
  let c := value.toNat % 256
  let x := value.extractLsb' 8 3
  if reg = 1 then
    match c with
    | 1 => .start
    | 2 => .halt
    | 3 => .resume
    | 4 => .abort
    | 5 => .softReset
    | _ => .ignoredRegisterWrite reg value
  else if reg = 2 then
    match c with
    | 1 => .closeTop
    | 2 => .closeSource x
    | 3 => .closeTopRotate
    | 4 => .setBottom x
    | 5 => .autocloseOn
    | 6 => .autocloseOff
    | 7 => .autorotateOn
    | 8 => .autorotateOff
    | 9 => .selectiveOn
    | 10 => .selectiveOff
    | _ => .ignoredRegisterWrite reg value
  else if reg = 3 then .maskWrite value
  else .ignoredRegisterWrite reg value

end Sys2Proof
end

