-- ==== Sys2Proof/Config.lean ====
section
/-! DEFINITION. What the part fixes (its constants) and what the spec leaves open (free values, `opaque`, with no body). -/

namespace Sys2Proof.Config

/-- Part code and revision of the IDENT register (R191, R207). -/
def partCode : Nat := 0x3260
def revision : Nat := 0x12

/-- Bytes of the memory window: 2^20 word addresses (R190). -/
def windowBytes : Nat := 4194304

/-- The fitted RAM of the board the model starts on, DESIGN CHOICE (log 2): the largest the part takes. -/
def fittedBytes : Nat := 4194304

/-- Host write queue entries (R192). -/
def hostQueueSize : Nat := 8

/-- Words of the longest arbiter burst (R194). -/
def burstWords : Nat := 4

/-- Print queue lines (R165). -/
def printQueueLines : Nat := 4

/-- Off timer in 0.1 ms: 50 ms (R16). Unpark settle timer: 20 ms (R18). -/
def offTime : Nat := 500
def unparkSettleTime : Nat := 200

/-- The safe level, 30 V, as an HVV code (R104). -/
def safeCode : Int := 600

/-- The largest insulation resistance in megohms (R41). -/
def maxMegohms : Nat := 9999999

/-- The largest continuity limit in milliohms (R30). -/
def maxMilliohms : Nat := 2000000

/-- FREE VALUE (log 3): the RAM word that an offset past the end of the fitted RAM reaches, if it reaches one.
The memory wiring is the product datasheet's (R190). -/
opaque wiringTarget : Nat → Option Nat

/-- FREE VALUE (log 3): what a read past the end of the fitted RAM gives where it reaches no RAM (R190). -/
opaque openBusWord : Nat → Word

/-- FREE VALUE (log 13): a result field that its order has not formed, or the completion code of a pause, neither of
which the spec states; the first argument is a counter of State, the second the field's number. -/
opaque freeWord : Nat → Nat → Word

/-- FREE VALUE (log 35): the marker text of an INSL entry whose GT and LT flags the host has both set (R162 gives one for
each alone); it is printed with no character outside 0x20..0x7E (R159). The argument is a counter of State. -/
opaque freeMarker : Nat → List Byte

/-- FREE VALUE (log 36): whether the HVV sample taken next after the discharge timer's expiry fell together with it, the tie
of R112; the commands carry no times. The argument is a counter of State. -/
opaque freeTie : Nat → Bool

end Sys2Proof.Config
end

