-- ==== Sys2Proof/Machine/State.lean ====
section
/-! DEFINITION. The state of the part: every register, table, queue, timer and pin the spec names, the running order's
thread of work, and the queue of waiting commands. INVENTORY.md lists each with its rule and reset value. -/

namespace Sys2Proof.Machine

/-- A sparse table: (key, value) pairs, keys strictly rising, no entry equal to the table's default. -/
abbrev Tab (α : Type) := List (Nat × α)

/-- Test memory: (byte offset, byte) pairs in the canonical form `Memory.wf` (Machine/Ops.lean). -/
abbrev Memory := List Host.Cell

/-- No command ends in a fault: the part reports errors in its own state (completion codes, last error, attention). -/
inductive Fault where
  deriving DecidableEq, Repr

/-- What a step may refuse. -/
inductive Refusal where
  /-- A command not modelled yet, by its mnemonic; no arm of `exec` raises it. Safe: the run stops. -/
  | notModelled (mnemonic : String)
  deriving DecidableEq, Repr

/-! ## Codes and names -/

/-- Completion and refusal codes (R205). -/
inductive Code where
  | done | doneDefects | aborted | matrixFault | matrixParked | selfcheckFail | zeroRange | sourceFault
  | dischargeFault | hvLockout | learnCapacity | spoolFull | netlistSize | badParameter | samePoint
  | pointUnfitted | netlistBounds | netEmpty | netTooLarge | pointDuplicate | limitOrder | noGroupMap
  | portOff | badLayout | unknownKind | orderBounds
  deriving DecidableEq, Repr

/-- The ten order kinds (R177). -/
inductive Kind where
  | configure | mark | park | unpark | zero | measure | sweep | learn | insulate | print
  deriving DecidableEq, Repr

/-- The statuses the part writes (R177). -/
inductive OStatus where
  | taken | paused | done | doneDefects | failed | refused
  deriving DecidableEq, Repr

/-- Reader states (chapter 10). -/
inductive RState where
  | stopped | running | waiting | halted
  deriving DecidableEq, Repr

/-- Last error codes (R204). -/
inductive LastError where
  | none | badControlBlock | orderFailed | badLink | interlockOpen
  deriving DecidableEq, Repr

/-- Defect table start field (R152, R204). -/
inductive TableStart where
  | none | initialized | rebuilt | rebuildFailed
  deriving DecidableEq, Repr

/-- Ranges of the stimulus source and of the leakage channel, or none (R27, R28, R202). -/
inductive Rng where
  | none | h | m | l | l1 | l2 | l3
  deriving DecidableEq, Repr

/-- Defect kinds (R143). -/
inductive DKind where
  | opn | hres | misw | shrt | xtra | insl | brkd | arc
  deriving DecidableEq, Repr

/-- The marker of an insulation resistance (R41). -/
inductive Mark where
  | none | lt | gt
  deriving DecidableEq, Repr

/-! ## The order reader (chapter 10) -/

/-- The order context (R178): the snapshot of the held order. `kind` is `none` for an order the reader itself refused
as UNKNOWN_KIND. `freeBase` picks the free values of the fields its result section has not formed (log 13). -/
structure Order where
  off : Nat
  kind : Option Kind
  hdr : Word
  tag : Word
  params : List Word
  notify : Bool
  stopOnDefect : Bool
  clearDefects : Bool
  status : OStatus
  byReader : Bool
  unzeroed : Bool
  clamped : Bool
  freeBase : Nat
  deriving DecidableEq, Repr

/-- The watched word (R180): a zero link word, the chain head word, or a header word, by byte offset. -/
inductive Watch where
  | link (off : Nat)
  | chainHead
  | header (off : Nat)
  deriving DecidableEq, Repr

/-- The resume point of a halted reader (R184). -/
inductive Resume where
  | order
  | word (w : Watch)
  | reading (off : Nat)
  deriving DecidableEq, Repr

/-- The bindings of START (R173, R176); an offset of 0 is none. -/
structure Bind where
  memBytes : Nat
  labelOff : Nat
  compOff : Nat
  spoolOff : Nat
  spoolCap : Nat
  defOff : Nat
  defCap : Nat
  deriving DecidableEq, Repr

/-- The self-check summary of the status area (R21, R204). -/
structure Summary where
  present : Word
  fault : Word
  flags : Nat
  outcome : Nat
  deriving DecidableEq, Repr

structure Reader where
  state : RState
  haltPending : Bool
  /-- ABORT, or a discharge fault of an owner other than the insulation engine, awaiting the safe point (R185, R113). -/
  ending : Option Code
  resume : Option Resume
  watch : Option Watch
  /-- A write to the watched chain head accepted between START's read and WAITING (R193). -/
  earlyNotice : Bool
  order : Option Order
  lastError : LastError
  bind : Option Bind
  startCheck : Nat
  tableStart : TableStart
  refCode : Nat
  refOff : Nat
  curOff : Nat
  lastOff : Nat
  spoolLines : Nat
  sum : Summary
  /-- The whole status area image has been written since START (R174). -/
  imageLive : Bool
  deriving DecidableEq, Repr

/-- A field window of the print layout (R158). -/
structure Window where
  shown : Bool
  line : Nat
  first : Nat
  last : Nat
  right : Bool
  deriving DecidableEq, Repr

/-- The print section of the configuration (R158); windows in the order KIND, LABEL_A, LABEL_B, VALUE, COUNT, TAG. -/
structure Layout where
  width : Nat
  rate : Nat
  portOn : Bool
  title : List Byte
  windows : List Window
  deriving DecidableEq, Repr

/-- The configuration (R187): times in 0.1 ms, limits in milliohms, discharge timeout in ms, trip threshold in 0.1 mA. -/
structure Settings where
  release : Nat
  settle : Nat
  gH : Nat
  gM : Nat
  gL : Nat
  pLim : Nat
  oLim : Nat
  tLim : Nat
  n : Nat
  dischTimeout : Nat
  trip : Nat
  print : Layout
  deriving DecidableEq, Repr

/-! ## The matrix controller and the card link (chapter 1) -/

inductive MState where
  | parked | unparking | ready | setting | held | parking
  deriving DecidableEq, Repr

inductive CardState where
  | absent | present | faulted
  deriving DecidableEq, Repr

/-- A card table entry (R3). -/
structure Card where
  state : CardState
  fails : Nat
  deriving DecidableEq, Repr

/-- What the matrix is doing; `rest` is the cards still to be sent a frame after the one in exchange. -/
inductive MPhase where
  | idle
  | heldOpening | heldClosing | heldRecovery
  | opening (rest : List Nat) | releaseWait
  | closing (rest : List Nat) | settleWait
  | recovery (rest : List Nat) | recoveryWait
  | parking (rest : List Nat) | parkWait
  | unparkSettle | enumerating | checking (rest : List Nat) | pairing (k : Nat) | recording
  | failing (rest : List Nat) | failWait
  deriving DecidableEq, Repr

inductive LinkState where
  | idle | sending | window
  deriving DecidableEq, Repr

/-- The frame exchange of the card link (R12). -/
structure Link where
  state : LinkState
  card : Nat
  pattern : List Bus
  attempt : Nat
  deriving DecidableEq, Repr

structure Matrix where
  state : MState
  cur : Tab Bus
  tgt : Tab Bus
  cards : Tab Card
  parkPending : Bool
  phase : MPhase
  /-- The setup in flight has a requester that waits for its answer (R5, R24). -/
  requester : Bool
  reqTarget : Tab Bus
  /-- A request made in SETTING or HELD, waiting for the setup in flight (R5). -/
  waitReq : Option (Tab Bus)
  offT : Option Nat
  releaseT : Option Nat
  settleT : Option Nat
  unparkT : Option Nat
  link : Link
  drive : Bool
  parkFault : Word
  parkRaised : Bool
  pairFlags : Nat
  /-- An ABORT or a soft reset stops the unpark at the end of the exchange or probe in progress (R22). -/
  stopUnpark : Bool
  deriving DecidableEq, Repr

/-! ## The measurement unit (chapter 2) -/

inductive MUState where
  | idle | collecting | window | zeroing
  deriving DecidableEq, Repr

/-- Where the stimulus and the DIFF inputs go (R1, R20, R42). -/
inductive Route where
  | buses | pair (k : Nat) | zeroPath
  deriving DecidableEq, Repr

/-- The six zero codes (R29). -/
structure ZeroCodes where
  h : Int
  m : Int
  l : Int
  l1 : Int
  l2 : Int
  l3 : Int
  deriving DecidableEq, Repr

inductive JobKind where
  | twoPoint (auto : Bool) (ca cb : Nat)
  | probe (t : Nat)
  | pair (k : Nat)
  | window
  | rampCheck
  | zero (i : Nat)
  deriving DecidableEq, Repr

/-- A measurement in progress (R32): samples wanted and got, sums, saturation, and the gains read at its beginning. -/
structure Job where
  kind : JobKind
  rng : Rng
  n : Nat
  got : Nat
  sum : Int
  sumV : Int
  sumI : Int
  sat : Bool
  allSat : Bool
  gain : Nat × Nat × Nat
  deriving DecidableEq, Repr

/-- The last answer of the measurement unit (R32, R40). `r` is `none` for OPEN or a saturated probe. -/
structure Answer where
  r : Option Nat
  rng : Rng
  sum : Int
  sat : Bool
  connected : Bool
  sumV : Int
  sumI : Int
  n : Nat
  deriving DecidableEq, Repr

structure MeasUnit where
  state : MUState
  stim : Rng
  leak : Rng
  route : Route
  zero : ZeroCodes
  zeroValid : Bool
  job : Option Job
  ans : Answer
  deriving DecidableEq, Repr

/-! ## Net tables (chapter 3) -/

/-- A net table entry (R55). -/
structure Net where
  start : Nat
  count : Nat
  limits : Option (Nat × Nat)
  rng : Rng
  hv : Option Nat
  noInsulate : Bool
  name : Option Nat
  deriving DecidableEq, Repr

inductive MemberSt where
  | untested | good | opn | miswired | stray
  deriving DecidableEq, Repr

/-- A point table entry but for its fitted flag (R56); 0 is NONE for a net. -/
structure Pt where
  net : Nat
  st : MemberSt
  att : Nat
  deriving DecidableEq, Repr

/-- The net tables (chapter 3). The member array's length is the loaded member count. The fitted flags are only ever
written for whole cards, from the card table (R49, R62), so they are held one bit a card. A group map entry that is not
listed names its own net. -/
structure Nets where
  tablesValid : Bool
  mapValid : Bool
  count : Nat
  table : Tab Net
  members : List Nat
  points : Tab Pt
  fitted : Word
  comp : Tab Nat
  roots : Tab Nat
  deriving DecidableEq, Repr

/-! ## Split search unit, sweep engine (chapters 4 and 5) -/

/-- The value a probe answers with (R82, R135). -/
structure PVal where
  r : Nat
  mark : Mark
  rng : Rng
  deriving DecidableEq, Repr

inductive SearchSt where
  | idle | searching | suspended
  deriving DecidableEq, Repr

inductive MaskRule where
  | net | point | group
  deriving DecidableEq, Repr

/-- A search stack entry (R82). -/
structure SEntry where
  first : Nat
  count : Nat
  val : PVal
  deriving DecidableEq, Repr

/-- What a search is for: its requester's stage. -/
inductive SearchFor where
  | whereis | isolate | learn | locate
  deriving DecidableEq, Repr

structure Search where
  state : SearchSt
  buf : List (Nat × Bool)
  stack : List SEntry
  /-- The popped range whose halves are being judged, and the lower half's answer once it is judged (R84). -/
  cur : Option SEntry
  low : Option PVal
  locCount : Nat
  limit : Nat
  rule : MaskRule
  side : List Nat
  user : SearchFor
  /-- The answer to the unit's last probe: its value when connected. -/
  ans : Option PVal
  deriving DecidableEq, Repr

/-- Sweep engine states (R67). -/
inductive SwState where
  | idle | validate | member | whereis | isolate | close | paused
  deriving DecidableEq, Repr

/-- The sweep context (R67, R91). `stage` is the stage number; counters for OPEN, HRES, MISW, SHRT, XTRA in order. -/
structure Sweep where
  state : SwState
  netlistOff : Nat
  pLim : Option Nat
  oLim : Option Nat
  cfgP : Nat
  cfgO : Nat
  t : Nat
  rng : Rng
  n : Nat
  shorts : Nat
  netEnd : Nat
  stage : Nat
  cursor : Nat
  member : Nat
  refMark : Bool
  openVal : Tab (Option Nat × Rng)
  tallyNets : Nat
  tallyFirst : Nat
  tallyVal : Nat
  tallyPoints : Nat
  firstFinding : Nat
  refNet : Nat
  refPoint : Option Nat
  tested : Nat
  new : List Nat
  merged : List Nat
  dropped : Nat
  truncated : Nat
  probes : Nat
  deriving DecidableEq, Repr

/-- The learn context (R94, R101). -/
structure Learn where
  outOff : Nat
  cap : Nat
  t : Nat
  n : Nat
  keep : Bool
  cursor : Nat
  nets : Nat
  used : Nat
  kept : List Nat
  surplus : Nat
  assigned : Nat
  singles : Nat
  oversize : Nat
  unresolved : Nat
  probes : Nat
  deriving DecidableEq, Repr

/-! ## HV controller (chapter 6) -/

inductive HvState where
  | off | ramp | dwell | discharge | lockout
  deriving DecidableEq, Repr

/-- A discharge request or drop and its answer (R112, R113, R117). -/
inductive Ask where
  | none | waiting | off | fault
  deriving DecidableEq, Repr

/-- The HV controller. `setpoint` is in 0.1 mV: rate (V/s) times the samples of 0.1 ms since RAMP began (R107). -/
structure Hv where
  state : HvState
  volts : Nat
  rate : Nat
  trip : Nat
  arcLimit : Nat
  setpoint : Nat
  rampN : Nat
  rampT : Option Nat
  check : Bool
  armed : Bool
  arcs : Nat
  dischT : Option Nat
  below : Nat
  lockout : Bool
  openRec : Bool
  pauseMark : Bool
  ask : Ask
  lastHvv : Int
  deriving DecidableEq, Repr

/-! ## Insulation engine (chapter 7) -/

inductive InsState where
  | idle | init | setup | check | ramp | dwell | window | evaluate | locate | discharge | paused
  deriving DecidableEq, Repr

inductive PauseReason where
  | none | halt | interlock
  deriving DecidableEq, Repr

/-- The locate phase (R123, R134). -/
inductive LocPhase where
  | none | setup | ramp | dwell | window | discharge
  deriving DecidableEq, Repr

/-- The insulation context (R123, R141). The resume point is held by the thread (`Dev.saved`). -/
structure Insul where
  state : InsState
  step : Nat
  volts : Nat
  rmin : Nat
  rate : Nat
  dwell : Nat
  window : Nat
  arcLimit : Nat
  trip : Nat
  locate : Bool
  locLimit : Nat
  locDwell : Nat
  floating : List Nat
  cursor : Nat
  gVolts : Nat
  cSide : List Nat
  dSide : List Nat
  wRng : Rng
  windowed : Bool
  ev : Option PVal
  verdict : Option Bool
  toLocate : Bool
  locPhase : LocPhase
  subset : List Nat
  locCount : Nat
  reason : PauseReason
  firstFinding : Nat
  tested : Nat
  skipped : Nat
  passed : Nat
  failed : Nat
  new : Nat
  merged : Nat
  dropped : Nat
  probes : Nat
  truncated : Nat
  maxArc : Nat
  dwellT : Option Nat
  deriving DecidableEq, Repr

/-! ## Defect table manager (chapter 8) -/

/-- A defect key (R144): kind, net A, and the second identifier (a net, a point, or 0). -/
structure Key where
  kind : DKind
  a : Nat
  b : Nat
  deriving DecidableEq, Repr

/-- A key index record (R144). -/
structure KeyRec where
  key : Key
  live : Bool
  deriving DecidableEq, Repr

/-- A finding as the engines hand it over (R69, R132); net 0 is NONE. -/
structure Finding where
  kind : DKind
  netA : Nat
  netB : Nat
  point : Option Nat
  value : Option Nat
  rng : Rng
  stray : Bool
  truncated : Bool
  lt : Bool
  aux : Nat
  tag : Word
  deriving DecidableEq, Repr

inductive FindAns where
  | appended | merged | dropped
  deriving DecidableEq, Repr

inductive MgrState where
  | idle | recording | clearing | rebuilding
  deriving DecidableEq, Repr

inductive Binding where
  | none | bound | rebuild
  deriving DecidableEq, Repr

/-- What a rebuild has read back so far (R153): the header's four counts and the records loaded. -/
structure Readback where
  used : Nat
  live : Nat
  absorbed : Nat
  dropped : Nat
  index : List KeyRec
  deriving DecidableEq, Repr

structure Manager where
  state : MgrState
  binding : Binding
  off : Nat
  cap : Nat
  used : Nat
  live : Nat
  absorbed : Nat
  dropped : Nat
  index : List KeyRec
  back : Readback
  /-- Work of before a soft reset is finishing its memory writes (R148). -/
  orphan : Bool
  deriving DecidableEq, Repr

/-! ## Print formatter and printer port (chapter 9) -/

inductive FmtState where
  | idle | formatting | waiting | paused
  deriving DecidableEq, Repr

inductive FmtPart where
  | title | entries | footer | over
  deriving DecidableEq, Repr

/-- The format context (R157, R171). -/
structure Fmt where
  state : FmtState
  toSpool : Bool
  title : Bool
  footer : Bool
  withAbsorbed : Bool
  first : Nat
  stop : Nat
  cursor : Nat
  line : Nat
  part : FmtPart
  lines : Nat
  printed : Nat
  skipped : Nat
  buf : List Byte
  layout : Layout
  entry : List Word
  textA : List Byte
  textB : List Byte
  deriving DecidableEq, Repr

inductive TxState where
  | idle | sending | hold
  deriving DecidableEq, Repr

/-- The printer port (R165, R166). `pos` counts the head line's characters already sent; in SENDING the character at
`pos` is on the output. `discard` is how many lines, the first of the queue, leave at the end of that character because a soft reset has
discarded them (R172): the one a character of which was being sent (log 24). -/
structure Tx where
  queue : List (List Byte)
  state : TxState
  pos : Nat
  rate : Nat
  discard : Nat
  deriving DecidableEq, Repr

/-! ## Attention unit (chapter 11) -/

/-- The attention unit: request, service and mask sets (bit s for source s), lowest source b, modes, and the line. -/
structure Attn where
  req : Byte
  svc : Byte
  msk : Byte
  lowest : BitVec 3
  autoclose : Bool
  autorotate : Bool
  selective : Bool
  line : Bool
  deriving DecidableEq, Repr

/-- The levels of the input pins. -/
structure Pins where
  interlockOpen : Bool
  paperOut : Bool
  printerReady : Bool
  deriving DecidableEq, Repr

/-! ## The running order's thread -/

/-- Progress of PARK, UNPARK, ZERO, MEASURE and CONFIGURE: their result fields, `none` while not formed. -/
structure Progress where
  already : Bool
  parkMask : Option Word
  present : Option Word
  fault : Option Word
  flags : Option Word
  check : Option Word
  compare : Option Word
  zres : List (Option (Option Int))
  zfirst : Option Rng
  ptA : Nat
  ptB : Nat
  ca : Nat
  cb : Nat
  mrng : Rng
  mn : Nat
  mres : Option Answer
  applied : Nat
  failing : Nat
  deriving DecidableEq, Repr

/-- The steps an order's owner still has to do. Each is carried out by `runTask` (Machine/Engine.lean). -/
inductive Task where
  /- memory accesses: the thread waits until the arbiter has granted them -/
  | write (off : Nat) (ws : List Word)
  | read (off n : Nat)
  /- START (R176) -/
  | bindTable | rebuildHead | rebuildEntry (i : Nat) | rebuildCheck (i : Nat) | bindEnd (o : TableStart)
  | image | startEnd (head : Nat)
  /- the end, pause and link of an order (R181, R182) -/
  | endOrder (st : OStatus) (c : Code) | ownerIdle | finish | linkGot | reread (w : Watch) | rereadGot (w : Watch) | woken (w : Watch)
  | pause | paused | safe
  /- the defect table manager (chapter 8) -/
  | finding (f : Finding) | mergeGot (f : Finding) (i : Nat) | appended (f : Finding)
  | raiseDefect (f : Finding) | absorbOpen (f : Finding) | absorbDone (i : Nat) | absorbShort (f : Finding) | absorbGot (f : Finding) (i : Nat)
  | findingEnd (f : Finding) (a : FindAns) | clear | cleared
  /- services -/
  | setup (t : Tab Bus) | twoPoint (rng : Rng) (auto : Bool) (n ca cb : Nat) | probe (n t : Nat)
  /- PARK, UNPARK (chapter 1) -/
  | parkStart | parkWaited | unparkStart | recordRead | recordCheck | recordEnd | recordStop
  /- ZERO, MEASURE (chapter 2) -/
  | zeroStart | zeroRun | zeroCollect (i : Nat) | zeroGot (i : Nat) | zeroOff | zeroSafe | zeroEnd
  | measA | measB | measGotB | measGot | measEnd
  /- validation (chapter 3) -/
  | valBegin | valHead | valNet (n off : Nat) | valRecord (n off : Nat) | valParts (n off : Nat) (hdr : Word)
  | valMembers (n at' left next : Nat) | valMemberGot (n at' left next : Nat) | valDone
  | compBlock (i : Nat) | compGot (i : Nat)
  /- SWEEP (chapter 4) -/
  | netBegin (n : Nat) | member (i : Nat) | memberGot (i : Nat) | whereis (i : Nat) | whereisGot (i : Nat)
  | whereisEnd (i : Nat) | isolate | isolateGot | netDone | sweepClose
  | join (net q : Nat)
  /- the split search unit -/
  | searchStep | lowHalf | lowGot | highHalf | highGot | location (i : Nat) (v : PVal) (trunc last : Bool)
  | located (i : Nat) (last : Bool)
  | probeGot
  /- LEARN (chapter 5) -/
  | learnFrom (p : Nat) | learnGot (p : Nat) | learnFormed (p : Nat) | learnAlone (p : Nat)
  | learnNet (single : Bool) | learnHeader (single : Bool) | learnLoad (single : Bool) | learnClose | learnDone
  /- INSULATE (chapter 7) -/
  | insInit | groupNext (r : Nat) | groupSetup | rampReq | dwellBegin | windowReq (r : Rng) | windowGot
  | evaluate | evalSafe | waitOff (record : Bool) | stepEnd | groupDone | locateStart | locateEnd | locProbe (pts : List Nat)
  | endAfterOff (c : Code)
  /- PRINT (chapter 9) -/
  | fmtNext | fmtBegin | fmtEntry | fmtLabelA | fmtGotA | fmtLabelB | fmtGotB | fmtBuild | fmtPlace | fmtSpooled
  deriving DecidableEq, Repr

/-- What the thread waits for; `run` when it waits for nothing. -/
inductive Wait where
  | run
  | mem | take | setup | meas
  | zeroOff | parkGate | parkRun | forParked | unparkGate | unparking
  | rampHeld | ramp | dwell | hvOff
  | format | room
  deriving DecidableEq, Repr

/-- An access of the engine side as issued to the arbiter (R194): 1 to 4 consecutive words, a write when `data` is
given. `mine`: the thread waits for it; `last`: the last burst of its run. -/
structure Burst where
  off : Nat
  n : Nat
  data : Option (List Word)
  mine : Bool
  last : Bool
  deriving DecidableEq, Repr

/-- The blocks of the part but for the host port and the memory. -/
structure Dev where
  reader : Reader
  cfg : Settings
  statusImg : List Word
  mx : Matrix
  mu : MeasUnit
  nets : Nets
  search : Search
  sweep : Sweep
  learn : Learn
  hv : Hv
  ins : Insul
  mgr : Manager
  fmt : Fmt
  tx : Tx
  attn : Attn
  pins : Pins
  prog : Progress
  engineQ : List Burst
  tasks : List Task
  wait : Wait
  rbuf : List Word
  saved : List Task
  free : Nat
  deriving DecidableEq, Repr

/-- The host port's two requesters at the arbiter (R194). -/
inductive Side where
  | host | engine
  deriving DecidableEq, Repr

/-- A host access that READY holds off (R190, R192, R195). -/
inductive HostAccess where
  | write (off : Nat) (value : Word)
  | read (off : Nat)
  | softReset
  deriving DecidableEq, Repr

/-- The machine: memory, host port, blocks, and the commands that wait. -/
structure State where
  mem : Memory
  ramBytes : Nat
  hostQ : List (Nat × Word)
  hostWait : Option HostAccess
  hostData : Option Word
  lastGrant : Side
  dev : Dev
  pending : List Instr
  deriving DecidableEq, Repr

/-! ## Reset values -/

/-- The default layout (R158). -/
def Layout.default : Layout where
  width := 48
  rate := 3
  portOn := true
  title := []
  windows :=
    [⟨true, 0, 0, 3, false⟩, ⟨true, 0, 5, 16, false⟩, ⟨true, 0, 18, 29, false⟩,
     ⟨true, 0, 31, 36, true⟩, ⟨true, 0, 38, 42, true⟩, ⟨false, 0, 44, 47, false⟩]

/-- The configuration's defaults (R11, R30, R112, R158). -/
def Settings.default : Settings where
  release := 20
  settle := 30
  gH := 32768
  gM := 32768
  gL := 32768
  pLim := 2000
  oLim := 100000
  tLim := 1000000
  n := 16
  dischTimeout := 2000
  trip := 50
  print := .default

/-- The reader after a hardware reset (R189); log 25 for the fields the spec gives no value. -/
def Reader.reset : Reader where
  state := .stopped
  haltPending := false
  ending := none
  resume := none
  watch := none
  earlyNotice := false
  order := none
  lastError := .none
  bind := none
  startCheck := 0
  tableStart := .none
  refCode := 0
  refOff := 0
  curOff := 0
  lastOff := 0
  spoolLines := 0
  sum := ⟨0, 0, 0, 0⟩
  imageLive := false

/-- No frame exchange (R23). -/
def Link.idle : Link := ⟨.idle, 0, [], 0⟩

/-- The matrix after a hardware reset (R23). -/
def Matrix.reset : Matrix where
  state := .parked
  cur := []
  tgt := []
  cards := []
  parkPending := false
  phase := .idle
  requester := false
  reqTarget := []
  waitReq := none
  offT := some Config.offTime
  releaseT := none
  settleT := none
  unparkT := none
  link := .idle
  drive := false
  parkFault := 0
  parkRaised := false
  pairFlags := 0
  stopUnpark := false

/-- The measurement unit after a hardware reset (R46). -/
def MeasUnit.reset : MeasUnit where
  state := .idle
  stim := .none
  leak := .l3
  route := .buses
  zero := ⟨0, 0, 0, 0, 0, 0⟩
  zeroValid := false
  job := none
  ans := ⟨none, .none, 0, false, false, 0, 0, 0⟩

/-- The net tables after either reset (R63). -/
def Nets.reset : Nets where
  tablesValid := false
  mapValid := false
  count := 0
  table := []
  members := []
  points := []
  fitted := 0
  comp := []
  roots := []

/-- The split search unit after either reset (R90). -/
def Search.reset : Search where
  state := .idle
  buf := []
  stack := []
  cur := none
  low := none
  locCount := 0
  limit := 0
  rule := .net
  side := []
  user := .whereis
  ans := none

/-- A sweep engine with no context (R90). -/
def Sweep.reset : Sweep where
  state := .idle
  netlistOff := 0
  pLim := none
  oLim := none
  cfgP := 0
  cfgO := 0
  t := 0
  rng := .none
  n := 0
  shorts := 0
  netEnd := 0
  stage := 0
  cursor := 0
  member := 0
  refMark := false
  openVal := []
  tallyNets := 0
  tallyFirst := 0
  tallyVal := 0
  tallyPoints := 0
  firstFinding := 0
  refNet := 0
  refPoint := none
  tested := 0
  new := [0, 0, 0, 0, 0]
  merged := [0, 0, 0, 0, 0]
  dropped := 0
  truncated := 0
  probes := 0

/-- No learn context (R103). -/
def Learn.reset : Learn where
  outOff := 0
  cap := 0
  t := 0
  n := 0
  keep := false
  cursor := 0
  nets := 0
  used := 0
  kept := []
  surplus := 0
  assigned := 0
  singles := 0
  oversize := 0
  unresolved := 0
  probes := 0

/-- The HV controller after a hardware reset with the interlock input at the level `isOpen` (R118). -/
def Hv.reset (isOpen : Bool) : Hv where
  state := .discharge
  volts := 0
  rate := 0
  trip := 0
  arcLimit := 0
  setpoint := 0
  rampN := 0
  rampT := none
  check := false
  armed := false
  arcs := 0
  dischT := some 2000
  below := 0
  lockout := false
  openRec := isOpen
  pauseMark := false
  ask := .none
  lastHvv := 0

/-- No insulation context (R140). -/
def Insul.reset : Insul where
  state := .idle
  step := 0
  volts := 0
  rmin := 0
  rate := 0
  dwell := 0
  window := 0
  arcLimit := 0
  trip := 0
  locate := false
  locLimit := 0
  locDwell := 0
  floating := []
  cursor := 0
  gVolts := 0
  cSide := []
  dSide := []
  wRng := .none
  windowed := false
  ev := none
  verdict := none
  toLocate := false
  locPhase := .none
  subset := []
  locCount := 0
  reason := .none
  firstFinding := 0
  tested := 0
  skipped := 0
  passed := 0
  failed := 0
  new := 0
  merged := 0
  dropped := 0
  probes := 0
  truncated := 0
  maxArc := 0
  dwellT := none

/-- Nothing read back: no rebuild is in progress (R153, R154). -/
def Readback.none : Readback where
  used := 0
  live := 0
  absorbed := 0
  dropped := 0
  index := []

/-- The defect table manager after a hardware reset (R154). -/
def Manager.reset : Manager where
  state := .idle
  binding := .none
  off := 0
  cap := 0
  used := 0
  live := 0
  absorbed := 0
  dropped := 0
  index := []
  back := .none
  orphan := false

/-- The print formatter after either reset (R172). -/
def Fmt.reset : Fmt where
  state := .idle
  toSpool := false
  title := false
  footer := false
  withAbsorbed := false
  first := 0
  stop := 0
  cursor := 0
  line := 0
  part := .over
  lines := 0
  printed := 0
  skipped := 0
  buf := []
  layout := .default
  entry := []
  textA := []
  textB := []

/-- The printer port after a hardware reset (R172). -/
def Tx.reset : Tx where
  queue := []
  state := .idle
  pos := 0
  rate := 3
  discard := 0

/-- The attention unit after a hardware reset (R201). -/
def Attn.reset : Attn where
  req := 0
  svc := 0
  msk := 255
  lowest := 7
  autoclose := false
  autorotate := false
  selective := false
  line := false

/-- No progress. -/
def Progress.reset : Progress where
  already := false
  parkMask := none
  present := none
  fault := none
  flags := none
  check := none
  compare := none
  zres := [none, none, none, none, none, none]
  zfirst := none
  ptA := 0
  ptB := 0
  ca := 0
  cb := 0
  mrng := .none
  mn := 0
  mres := none
  applied := 0
  failing := 0

/-- The blocks after a hardware reset with the input levels `p` (R23, R46, R63, R90, R103, R118, R140, R154, R172,
R189, R201). -/
def Dev.reset (p : Pins) : Dev where
  reader := .reset
  cfg := .default
  statusImg := List.replicate 11 0
  mx := .reset
  mu := .reset
  nets := .reset
  search := .reset
  sweep := .reset
  learn := .reset
  hv := .reset p.interlockOpen
  ins := .reset
  mgr := .reset
  fmt := .reset
  tx := .reset
  attn := .reset
  pins := p
  prog := .reset
  engineQ := []
  tasks := []
  wait := .run
  rbuf := []
  saved := []
  free := 0

/-- The machine right after power-on: the hardware reset values, memory with nothing listed, and for the levels and
registers the spec gives no value at power-on those of logs 2, 14, 15 and 25. -/
def State.reset : State where
  mem := []
  ramBytes := Config.fittedBytes
  hostQ := []
  hostWait := none
  hostData := none
  lastGrant := .engine
  dev := .reset ⟨false, false, false⟩
  pending := []

end Sys2Proof.Machine
end

