-- ==== Sys2Proof/Machine/Ops.lean ====
section
/-! DEFINITION. Operations over sparse tables, test memory, words and their fields, the host write queue, the engine
side's accesses, and the running order's thread. -/

namespace Sys2Proof.Machine

/-! ## Sparse tables -/

/-- The value at `n`; `d` where the table lists none. -/
def Tab.get {α : Type} (d : α) : Tab α → Nat → α
  | [], _ => d
  | (k, v) :: t, n => if n < k then d else if n = k then v else Tab.get d t n

/-- Write `v` at `n`, keeping the table canonical: writing the default removes the entry. -/
def Tab.set {α : Type} [DecidableEq α] (d : α) : Tab α → Nat → α → Tab α
  | [], n, v => if v = d then [] else [(n, v)]
  | (k, w) :: t, n, v =>
    if n < k then (if v = d then (k, w) :: t else (n, v) :: (k, w) :: t)
    else if n = k then (if v = d then t else (n, v) :: t)
    else (k, w) :: Tab.set d t n v

/-- The canonical form: keys rising from above `low`, no entry equal to the default. -/
def Tab.canonFrom {α : Type} [DecidableEq α] (d : α) : Nat → Tab α → Bool
  | _, [] => true
  | low, (k, v) :: t => decide (low ≤ k) && decide (v ≠ d) && Tab.canonFrom d (k + 1) t

/-- Write the same value at each key of a list. -/
def Tab.setAll {α : Type} [DecidableEq α] (d : α) (v : α) : Tab α → List Nat → Tab α
  | t, [] => t
  | t, n :: ns => Tab.setAll d v (Tab.set d t n v) ns

/-! ## Test memory -/

/-- What a byte of test memory that nothing has written reads as. DESIGN CHOICE (log 1). -/
def Memory.unlisted : Byte := 0

/-- The canonical form of memory: offsets rising, no byte equal to an unlisted one. -/
def Memory.wf (m : Memory) : Bool := Tab.canonFrom Memory.unlisted 0 m

/-- The byte at an offset. -/
def Memory.byte (m : Memory) (off : Nat) : Byte := Tab.get Memory.unlisted m off

/-- Write one byte. -/
def Memory.setByte (m : Memory) (off : Nat) (b : Byte) : Memory := Tab.set Memory.unlisted m off b

/-- The word at an offset: least significant byte at the lowest offset (R202). -/
def Memory.word (m : Memory) (off : Nat) : Word :=
  m.byte (off + 3) ++ m.byte (off + 2) ++ m.byte (off + 1) ++ m.byte off

/-- Write a word: least significant byte at the lowest offset (R202). -/
def Memory.setWord (m : Memory) (off : Nat) (w : Word) : Memory :=
  (((m.setByte off (w.extractLsb' 0 8)).setByte (off + 1) (w.extractLsb' 8 8)).setByte (off + 2)
    (w.extractLsb' 16 8)).setByte (off + 3) (w.extractLsb' 24 8)

/-- Write consecutive words in ascending order. -/
def Memory.setWords (m : Memory) (off : Nat) : List Word → Memory
  | [] => m
  | w :: ws => Memory.setWords (m.setWord off w) (off + 4) ws

/-- Where an access at `off` lands in a RAM of `ram` bytes: in the RAM itself, or past its end where the wiring leads
(R190, log 3). -/
def ramTarget (ram off : Nat) : Option Nat :=
  if off < ram then some off
  else match Config.wiringTarget off with
    | some t => if t < ram then some (t - t % 4) else none
    | none => none

/-- The word the RAM gives at `off` (R190). -/
def ramRead (ram : Nat) (m : Memory) (off : Nat) : Word :=
  match ramTarget ram off with
  | some t => m.word t
  | none => Config.openBusWord off

/-- Write a word to the RAM (R190). -/
def ramWrite (ram : Nat) (m : Memory) (off : Nat) (w : Word) : Memory :=
  match ramTarget ram off with
  | some t => m.setWord t w
  | none => m

/-- Write consecutive words to the RAM. -/
def ramWrites (ram : Nat) (m : Memory) (off : Nat) : List Word → Memory
  | [] => m
  | w :: ws => ramWrites ram (ramWrite ram m off w) (off + 4) ws

/-! ## Fields of a word (R202) -/

def lo (w : Word) : Nat := w.toNat % 65536
def hi (w : Word) : Nat := w.toNat / 65536
def b0 (w : Word) : Nat := w.toNat % 256
def b1 (w : Word) : Nat := w.toNat / 256 % 256
def b2 (w : Word) : Nat := w.toNat / 65536 % 256
def b3 (w : Word) : Nat := w.toNat / 16777216
def bitAt (w : Word) (i : Nat) : Bool := w.toNat.testBit i

/-- A word from its two halves. -/
def loHi (l h : Nat) : Word := BitVec.ofNat 32 (l % 65536 + 65536 * (h % 65536))

/-- A word from its four bytes. -/
def bytes4 (x0 x1 x2 x3 : Nat) : Word :=
  BitVec.ofNat 32 (x0 % 256 + 256 * (x1 % 256) + 65536 * (x2 % 256) + 16777216 * (x3 % 256))

def wordOf (n : Nat) : Word := BitVec.ofNat 32 n

/-- A flag at bit `i`, as a number to add. -/
def flagAt (b : Bool) (i : Nat) : Nat := if b then 2 ^ i else 0

/-- A 16-bit count of a result section stays at 65535 (R203). -/
def sat16 (n : Nat) : Nat := min n 65535

/-- A quantity clamped to a range, and whether that changed it (00_scope.md 0.4). -/
def clampTo (low high n : Nat) : Nat := if n < low then low else if high < n then high else n

def clamps (low high n : Nat) : Bool := decide (n < low) || decide (high < n)

/-- The bytes of a word, lowest offset first. -/
def wordBytes (w : Word) : List Byte :=
  [w.extractLsb' 0 8, w.extractLsb' 8 8, w.extractLsb' 16 8, w.extractLsb' 24 8]

/-- Bytes packed into words, four to a word, the last word filled with 0. -/
def packBytes : List Byte → List Word
  | [] => []
  | [x] => [bytes4 x.toNat 0 0 0]
  | [x, y] => [bytes4 x.toNat y.toNat 0 0]
  | [x, y, z] => [bytes4 x.toNat y.toNat z.toNat 0]
  | x :: y :: z :: w :: t => bytes4 x.toNat y.toNat z.toNat w.toNat :: packBytes t

/-- 16-bit values packed two to a word, the earlier in lo, a padding half of 0 (R99, R206). -/
def packHalves : List Nat → List Word
  | [] => []
  | [x] => [loHi x 0]
  | x :: y :: t => loHi x y :: packHalves t

/-! ## Points and cards (R1) -/

/-- The card of a point: 128 points a card (R1). -/
def cardOf (p : Nat) : Nat := p / 128

/-- The points of a card, ascending. -/
def cardPoints (c : Nat) : List Nat := (List.range 128).map (128 * c + ·)

/-- A mask with bit `c` set. -/
def cardBit (c : Nat) : Word := BitVec.ofNat 32 (2 ^ c)

/-! ## The host write queue (R192) -/

/-- The newest queued value for an offset. -/
def newest : List (Nat × Word) → Nat → Option Word
  | [], _ => none
  | (o, v) :: q, off =>
    match newest q off with
    | some w => some w
    | none => if o = off then some v else none

/-- The words of a run that are all forwarded from the queue, if they all are (R192). -/
def forwarded (q : List (Nat × Word)) : Nat → Nat → Option (List Word)
  | _, 0 => some []
  | off, n + 1 =>
    match newest q off, forwarded q (off + 4) n with
    | some w, some ws => some (w :: ws)
    | _, _ => none

/-! ## The engine side's accesses (R194) -/

/-- A run of writes in bursts of 4 words and a last burst of the words left over (R194). -/
def writeBursts (mine : Bool) : Nat → Nat → List Word → List Burst
  | 0, _, _ => []
  | f + 1, off, ws =>
    if ws.length ≤ Config.burstWords then [⟨off, ws.length, some ws, mine, true⟩]
    else ⟨off, 4, some (ws.take 4), mine, false⟩ :: writeBursts mine f (off + 16) (ws.drop 4)

/-- A run of reads in bursts of 4 words and a last burst of the words left over (R194). -/
def readBursts : Nat → Nat → Nat → List Burst
  | 0, _, _ => []
  | f + 1, off, n =>
    if n ≤ Config.burstWords then [⟨off, n, none, true, true⟩]
    else ⟨off, 4, none, true, false⟩ :: readBursts f (off + 16) (n - 4)

/-- The leading bursts of a read run whose words are all queued are answered from the queue with no grant (R192): their
words, the bursts left, and whether the run has ended. -/
def answerQueued (q : List (Nat × Word)) : List Burst → List Word × List Burst × Bool
  | [] => ([], [], false)
  | b :: bs =>
    match b.data, forwarded q b.off b.n with
    | none, some ws =>
      if b.last then (ws, bs, true)
      else
        let r := answerQueued q bs
        (ws ++ r.1, r.2.1, r.2.2)
    | _, _ => ([], b :: bs, false)

/-- The newest issued write to a word that the arbiter has not yet granted. -/
def issuedWrite : List Burst → Nat → Option Word
  | [], _ => none
  | b :: bs, off =>
    match issuedWrite bs off with
    | some w => some w
    | none =>
      match b.data with
      | some ws => if b.off ≤ off then ws[(off - b.off) / 4]? else none
      | none => none

/-- Issue writes for which no block waits: the status area, the TAKEN status, a release mark (log 10). -/
def Dev.post (off : Nat) (ws : List Word) (d : Dev) : Dev :=
  { d with engineQ := d.engineQ ++ writeBursts false ws.length off ws }

/-- Issue a run of writes and wait for it. -/
def Dev.issueWrite (off : Nat) (ws : List Word) (d : Dev) : Dev :=
  { d with engineQ := d.engineQ ++ writeBursts true ws.length off ws, wait := .mem }

/-- Issue a run of reads: what the host write queue `q` answers at once is taken, the rest is waited for (R192, log 11). -/
def Dev.issueRead (q : List (Nat × Word)) (off n : Nat) (d : Dev) : Dev :=
  let r := answerQueued q (readBursts n off n)
  { d with rbuf := d.rbuf ++ r.1, engineQ := d.engineQ ++ r.2.1, wait := if r.2.2 then d.wait else .mem }

/-- Steps to do next, before those already there. -/
def Dev.push (ts : List Task) (d : Dev) : Dev := { d with tasks := ts ++ d.tasks }

/-- Go on with these steps instead of those there. -/
def Dev.goto (ts : List Task) (d : Dev) : Dev := { d with tasks := ts, wait := .run }

/-- Go on with the steps there. -/
def Dev.proceed (d : Dev) : Dev := { d with wait := .run }

/-- The words read since the last time they were taken. -/
def Dev.word (d : Dev) (i : Nat) : Word := d.rbuf.getD i 0

def Dev.clearBuf (d : Dev) : Dev := { d with rbuf := [] }

/-- Change the reader, the order, and so on. -/
def Dev.onReader (f : Reader → Reader) (d : Dev) : Dev := { d with reader := f d.reader }
def Dev.onOrder (f : Order → Order) (d : Dev) : Dev :=
  { d with reader := { d.reader with order := d.reader.order.map f } }
def Dev.onMx (f : Matrix → Matrix) (d : Dev) : Dev := { d with mx := f d.mx }
def Dev.onMu (f : MeasUnit → MeasUnit) (d : Dev) : Dev := { d with mu := f d.mu }
def Dev.onNets (f : Nets → Nets) (d : Dev) : Dev := { d with nets := f d.nets }
def Dev.onSearch (f : Search → Search) (d : Dev) : Dev := { d with search := f d.search }
def Dev.onSweep (f : Sweep → Sweep) (d : Dev) : Dev := { d with sweep := f d.sweep }
def Dev.onLearn (f : Learn → Learn) (d : Dev) : Dev := { d with learn := f d.learn }
def Dev.onHv (f : Hv → Hv) (d : Dev) : Dev := { d with hv := f d.hv }
def Dev.onIns (f : Insul → Insul) (d : Dev) : Dev := { d with ins := f d.ins }
def Dev.onMgr (f : Manager → Manager) (d : Dev) : Dev := { d with mgr := f d.mgr }
def Dev.onFmt (f : Fmt → Fmt) (d : Dev) : Dev := { d with fmt := f d.fmt }
def Dev.onTx (f : Tx → Tx) (d : Dev) : Dev := { d with tx := f d.tx }
def Dev.onAttn (f : Attn → Attn) (d : Dev) : Dev := { d with attn := f d.attn }
def Dev.onProg (f : Progress → Progress) (d : Dev) : Dev := { d with prog := f d.prog }

/-- The kind of the held order. -/
def Dev.kind (d : Dev) : Option Kind := d.reader.order.bind (·.kind)

/-- An order is held and not final (R183): its status, as the part last decided it, is TAKEN. -/
def Dev.inFlight (d : Dev) : Bool :=
  match d.reader.order with
  | some o => decide (o.status = .taken)
  | none => false

/-- The end of test memory bound at START (R173). -/
def Dev.memEnd (d : Dev) : Nat :=
  match d.reader.bind with
  | some b => b.memBytes
  | none => 0

def Dev.setClamped (c : Bool) (d : Dev) : Dev := d.onOrder fun o => { o with clamped := o.clamped || c }

/-- A measurement made while zero-valid is clear sets the order's unzeroed flag (R29). -/
def Dev.noteUnzeroed (d : Dev) : Dev :=
  if d.mu.zeroValid then d else d.onOrder fun o => { o with unzeroed := true }

end Sys2Proof.Machine
end

