-- ==== Sys2Proof/Machine/Flags.lean ====
section
/-! DEFINITION. Every flag and condition the part computes: eligibility and the attention line (R196 to R198), the level
conditions, the HV outputs, the matrix checks, and the words of the status area (R174, R204). -/

namespace Sys2Proof.Machine

/-! ## Conditions and outputs -/

/-- The discharged report: given exactly in OFF (R105). -/
def Dev.discharged (d : Dev) : Bool := decide (d.hv.state = .off)

/-- The HV source enable: RAMP and DWELL (R104). -/
def Hv.sourceOn (h : Hv) : Bool := decide (h.state = .ramp) || decide (h.state = .dwell)

/-- The discharge switch is closed exactly while the source is disabled (R104). -/
def Hv.switchClosed (h : Hv) : Bool := !h.sourceOn

/-- The matrix is READY with no park pending: what every check that asks whether it is parked asks (R4). -/
def Matrix.usable (m : Matrix) : Bool := decide (m.state = .ready) && !m.parkPending

/-- The SAFETY condition (R116). -/
def Dev.safetyCond (d : Dev) : Bool := d.hv.lockout || (d.hv.openRec && d.hv.pauseMark)

/-- The PRINTER condition (R167). -/
def Dev.printerCond (d : Dev) : Bool := d.pins.paperOut

/-- The IDLE condition (R180): WAITING at a zero link or a zero chain head. -/
def Dev.idleCond (d : Dev) : Bool :=
  decide (d.reader.state = .waiting) &&
    (match d.reader.watch with
     | some (.link _) => true
     | some .chainHead => true
     | some (.header _) => false
     | none => false)

/-- Lines a PRINT may count in the queue: the fill of R165 (log 24). -/
def Tx.fill (t : Tx) : Nat := t.queue.length - t.discard

/-! ## The attention unit -/

/-- Bit `s` of a source set. -/
def srcBit (s : BitVec 3) : Byte := (1 : Byte) <<< s.toNat

def hasSrc (set : Byte) (s : BitVec 3) : Bool := set.getLsbD s.toNat

/-- The rank of a source: 0 is the highest, 7 the lowest source `b` (R198). -/
def Attn.rank (a : Attn) (s : BitVec 3) : Nat := (s - a.lowest - 1).toNat

/-- The sources from the highest to the lowest (R198). -/
def Attn.order (a : Attn) : List (BitVec 3) :=
  [a.lowest + 1, a.lowest + 2, a.lowest + 3, a.lowest + 4, a.lowest + 5, a.lowest + 6, a.lowest + 7, a.lowest]

/-- The highest-priority source of a set. -/
def Attn.highest (a : Attn) (set : Byte) : Option (BitVec 3) := a.order.find? (hasSrc set ·)

/-- The highest-priority eligible request under the mode in force (R198). -/
def Attn.eligible (a : Attn) : Option (BitVec 3) :=
  if a.selective then a.highest (a.req &&& ~~~a.msk &&& ~~~a.svc)
  else
    match a.highest (a.req &&& ~~~a.msk) with
    | none => none
    | some h =>
      match a.highest a.svc with
      | none => some h
      | some t => if a.rank h < a.rank t then some h else none

/-- The attention line is asserted exactly when an eligible request exists (R198). -/
def Attn.judge (a : Attn) : Attn := { a with line := a.eligible.isSome }

/-- A level source's request follows its condition while it is not in service (R197). -/
def Attn.follow (a : Attn) (s : BitVec 3) (cond : Bool) : Attn :=
  if hasSrc a.svc s then a
  else { a with req := if cond then a.req ||| srcBit s else a.req &&& ~~~srcBit s }

/-- The level sources follow their conditions and the line is judged again (R197, R198). -/
def Dev.syncAttn (d : Dev) : Dev :=
  { d with attn := (((d.attn.follow 0 d.safetyCond).follow 5 d.printerCond).follow 7 d.idleCond).judge }

/-- An event enters the request set, in service or masked or not (R197). -/
def Dev.raise (s : BitVec 3) (d : Dev) : Dev := d.onAttn fun a => { a with req := a.req ||| srcBit s }

def srcMatrix : BitVec 3 := 1
def srcChain : BitVec 3 := 2
def srcOrder : BitVec 3 := 3
def srcDefect : BitVec 3 := 4
def srcDrained : BitVec 3 := 6

/-! ## The status area (R174, R204) -/

def RState.code : RState → Nat
  | .stopped => 0
  | .running => 1
  | .waiting => 2
  | .halted => 3

def LastError.code : LastError → Nat
  | .none => 0
  | .badControlBlock => 1
  | .orderFailed => 2
  | .badLink => 3
  | .interlockOpen => 4

def TableStart.code : TableStart → Nat
  | .none => 0
  | .initialized => 1
  | .rebuilt => 2
  | .rebuildFailed => 3

def MState.code : MState → Nat
  | .parked => 0
  | .unparking => 1
  | .ready => 2
  | .setting => 3
  | .held => 4
  | .parking => 5

/-- The used and LIVE counts the status area shows: 0 while no table is bound (R142). -/
def Manager.shownUsed (m : Manager) : Nat := if m.binding = .bound then m.used else 0
def Manager.shownLive (m : Manager) : Nat := if m.binding = .bound then m.live else 0

/-- The eleven words of the status area, as the blocks stand (R204). -/
def Dev.statusWords (d : Dev) : List Word :=
  [bytes4 d.reader.state.code d.reader.lastError.code d.reader.startCheck d.reader.tableStart.code,
   wordOf d.reader.refCode,
   wordOf d.reader.refOff,
   wordOf d.reader.curOff,
   wordOf d.reader.lastOff,
   loHi d.mgr.shownUsed d.mgr.shownLive,
   wordOf d.reader.spoolLines,
   bytes4 d.tx.fill (if d.hv.openRec then 1 else 0) (if d.hv.lockout then 1 else 0) d.mx.state.code,
   d.reader.sum.present,
   d.reader.sum.fault,
   bytes4 d.reader.sum.flags d.reader.sum.outcome (if d.mu.zeroValid then 1 else 0) 0]

/-- The status area's offset (R204). -/
def statusBase : Nat := 0x20

/-- Issue a write for each word that changed, ascending: one burst for each word, also where neighbours change at one event;
DESIGN CHOICE (log 46). -/
def postChanged (off : Nat) : List Word → List Word → Dev → Dev
  | w :: ws, o :: os, d => postChanged (off + 4) ws os (if w = o then d else d.post off [w])
  | _, _, d => d

/-- The reader writes words of the status area: not while it is STOPPED, nor before START has written the whole image
(R174). -/
def Dev.statusLive (d : Dev) : Bool := d.reader.imageLive && decide (d.reader.state ≠ .stopped)

/-- The status area image follows the blocks, and each word that changed is written (R174). A word that an event leaves as it
was is not written, but where a rule names the write (`writeStatus`); DESIGN CHOICE (log 47). Two fields of one word that change
at one event are written by one write of that word; DESIGN CHOICE (log 59). -/
def Dev.syncStatus (d : Dev) : Dev :=
  let ws := d.statusWords
  let d1 := if d.statusLive then postChanged statusBase ws d.statusImg d else d
  { d1 with statusImg := ws }

/-- The places of the used and LIVE counts and of the spool lines written among the status words (R204). -/
def countsAt : Nat := 5
def spoolAt : Nat := 6

/-- Word i of the status area is written as it stands, changed or not: the counts at a clear (R150, R151), the spool lines at
the take of a PRINT to SPOOL (R170). The image follows, so that the word is written once. -/
def Dev.writeStatus (i : Nat) (d : Dev) : Dev :=
  let w := d.statusWords.getD i 0
  let d1 := if d.statusLive then d.post (statusBase + 4 * i) [w] else d
  { d1 with statusImg := d.statusImg.set i w }

/-- After every step of work: the level requests, the attention line and the status area follow. -/
def Dev.sync (d : Dev) : Dev := d.syncAttn.syncStatus

end Sys2Proof.Machine
end

