-- ==== Sys2Proof/Machine/Operands.lean ====
section
/-! DEFINITION. The forms of the commands' and orders' data: register fields (R207), order headers, parameter and result
sections (R205), codes (R202 to R205), and the sections of CONFIGURE (R187). -/

namespace Sys2Proof.Machine

/-! ## Registers (R191, R207) -/

/-- A read of IDENT. -/
def identRead : Word := loHi Config.partCode Config.revision

/-- A read of RUN: reader state and last error. -/
def Dev.runRead (d : Dev) : Word := bytes4 d.reader.state.code d.reader.lastError.code 0 0

/-- A read of ATTN_VIEW. -/
def Dev.viewRead (d : Dev) : Word :=
  bytes4 d.attn.req.toNat d.attn.svc.toNat d.attn.msk.toNat
    (d.attn.lowest.toNat + flagAt d.attn.autoclose 3 + flagAt d.attn.autorotate 4 + flagAt d.attn.selective 5)

/-- What a poll returns: bit 31 pending, bits 0..2 the source (R199, R207). -/
def pollWord : Option (BitVec 3) → Word
  | some s => wordOf (2147483648 + s.toNat)
  | none => 0

/-! ## Codes -/

def Code.toNat : Code → Nat
  | .done => 0x00
  | .doneDefects => 0x01
  | .aborted => 0x10
  | .matrixFault => 0x11
  | .matrixParked => 0x12
  | .selfcheckFail => 0x13
  | .zeroRange => 0x14
  | .sourceFault => 0x15
  | .dischargeFault => 0x16
  | .hvLockout => 0x17
  | .learnCapacity => 0x18
  | .spoolFull => 0x19
  | .netlistSize => 0x1A
  | .badParameter => 0x20
  | .samePoint => 0x21
  | .pointUnfitted => 0x22
  | .netlistBounds => 0x23
  | .netEmpty => 0x24
  | .netTooLarge => 0x25
  | .pointDuplicate => 0x26
  | .limitOrder => 0x27
  | .noGroupMap => 0x28
  | .portOff => 0x29
  | .badLayout => 0x2A
  | .unknownKind => 0x30
  | .orderBounds => 0x31

/-- Range codes (R202). -/
def Rng.code : Rng → Nat
  | .none => 0
  | .h => 1
  | .m => 2
  | .l => 3
  | .l1 => 4
  | .l2 => 5
  | .l3 => 6

/-- The stimulus range of a code, or none (R202). -/
def stimRange : Nat → Option Rng
  | 0 => some .none
  | 1 => some .h
  | 2 => some .m
  | 3 => some .l
  | _ => none

/-- A sample count code: 0 is DEFAULT (R202). -/
def countOk (n : Nat) : Bool := n = 0 || n = 1 || n = 4 || n = 16 || n = 64

def DKind.code : DKind → Nat
  | .opn => 1
  | .hres => 2
  | .misw => 3
  | .shrt => 4
  | .xtra => 5
  | .insl => 6
  | .brkd => 7
  | .arc => 8

def dkindOf : Nat → Option DKind
  | 1 => some .opn
  | 2 => some .hres
  | 3 => some .misw
  | 4 => some .shrt
  | 5 => some .xtra
  | 6 => some .insl
  | 7 => some .brkd
  | 8 => some .arc
  | _ => none

/-- NONE and OPEN as a value (R202). -/
def noneWord : Word := 0xFFFFFFFF

/-- The point field: 0xFFFF for NONE (R202). -/
def pointField : Option Nat → Nat
  | some p => p
  | none => 65535

def valueField : Option Nat → Word
  | some v => wordOf v
  | none => noneWord

/-! ## Order header (R205) -/

def kindOf : Nat → Option Kind
  | 1 => some .configure
  | 2 => some .mark
  | 3 => some .park
  | 4 => some .unpark
  | 5 => some .zero
  | 6 => some .measure
  | 7 => some .sweep
  | 8 => some .learn
  | 9 => some .insulate
  | 10 => some .print
  | _ => none

def OStatus.code : OStatus → Nat
  | .taken => 2
  | .paused => 3
  | .done => 4
  | .doneDefects => 5
  | .failed => 6
  | .refused => 7

/-- The status field is POSTED (R205). -/
def isPosted (w : Word) : Bool := decide (b2 w % 16 = 1)

/-- The header word the reader writes from its snapshot: kind and flags as taken, its own status and release mark
(R177, R205). -/
def Order.header (o : Order) (st : OStatus) (release : Bool) : Word :=
  wordOf (b0 o.hdr + flagAt o.notify 8 + flagAt o.stopOnDefect 9 + flagAt o.clearDefects 10 + 65536 * st.code
    + flagAt release 24)

/-- Words of the fixed part of the parameter section (R205). -/
def Kind.fixedWords : Kind → Nat
  | .configure => 1
  | .mark => 0
  | .park => 0
  | .unpark => 0
  | .zero => 0
  | .measure => 2
  | .sweep => 2
  | .learn => 3
  | .insulate => 5
  | .print => 2

def opt (b : Bool) (n : Nat) : Nat := if b then n else 0

/-- Words of the whole parameter section, from its fixed part `ps` (R205). -/
def Kind.paramWords (k : Kind) (ps : List Word) : Nat :=
  let w := fun i => ps.getD i 0
  match k with
  | .configure => 1 + opt (bitAt (w 0) 0) 1 + opt (bitAt (w 0) 1) 5 + opt (bitAt (w 0) 2) 1 + opt (bitAt (w 0) 3) 15
  | .mark => 0
  | .park => 0
  | .unpark => 0
  | .zero => 0
  | .measure => 2 + opt (bitAt (w 1) 0) 1
  | .sweep => 2 + opt (bitAt (w 1) 0) 3 + opt (bitAt (w 1) 1) 1 + opt (bitAt (w 1) 2) 1
  | .learn => 3 + opt (bitAt (w 2) 0) 1
  | .insulate => 5 + opt (bitAt (w 4) 17) 1 + opt (bitAt (w 4) 18) 1
  | .print => 2

/-- Words of the result section (R205). -/
def Kind.resultWords : Kind → Nat
  | .configure => 2
  | .mark => 1
  | .park => 3
  | .unpark => 7
  | .zero => 8
  | .measure => 4
  | .sweep => 11
  | .learn => 7
  | .insulate => 7
  | .print => 3

/-- The offset of an order's result section: after the last parameter word (R205). -/
def Order.resultOff (o : Order) : Nat := o.off + 12 + 4 * o.params.length

def Order.param (o : Order) (i : Nat) : Word := o.params.getD i 0

/-! ## CONFIGURE (R187, R205) -/

/-- Where a CONFIGURE's sections lie among its parameter words; `none` when absent. -/
structure Sections where
  timing : Option Nat
  measure : Option Nat
  hv : Option Nat
  print : Option Nat
  deriving DecidableEq, Repr

def sectionsOf (flags : Word) : Sections :=
  let t := bitAt flags 0
  let m := bitAt flags 1
  let h := bitAt flags 2
  let p := bitAt flags 3
  { timing := if t then some 1 else none
    measure := if m then some (1 + opt t 1) else none
    hv := if h then some (1 + opt t 1 + opt m 5) else none
    print := if p then some (1 + opt t 1 + opt m 5 + opt h 1) else none }

/-- The TIMING section: release and settle time, 0.5..20.0 ms (R11). -/
def setTiming (w : Word) (c : Settings) : Settings :=
  { c with release := clampTo 5 200 (lo w), settle := clampTo 5 200 (hi w) }

def timingClamps (w : Word) : Bool := clamps 5 200 (lo w) || clamps 5 200 (hi w)

/-- The MEASURE section (R30): its five words. -/
def setMeasure (w : Nat → Word) (c : Settings) : Settings :=
  { c with
    gH := clampTo 16384 49151 (lo (w 0))
    gM := clampTo 16384 49151 (hi (w 0))
    gL := clampTo 16384 49151 (lo (w 1))
    n := hi (w 1)
    pLim := clampTo 1 Config.maxMilliohms (w 2).toNat
    oLim := clampTo 2 Config.maxMilliohms (w 3).toNat
    tLim := clampTo 1 Config.maxMilliohms (w 4).toNat }

def measureClamps (w : Nat → Word) : Bool :=
  clamps 16384 49151 (lo (w 0)) || clamps 16384 49151 (hi (w 0)) || clamps 16384 49151 (lo (w 1)) ||
  clamps 1 Config.maxMilliohms (w 2).toNat || clamps 2 Config.maxMilliohms (w 3).toNat ||
  clamps 1 Config.maxMilliohms (w 4).toNat

/-- The HV section: discharge timeout 100..10000 ms, default trip threshold 1.0..10.0 mA (R112). -/
def setHv (w : Word) (c : Settings) : Settings :=
  { c with dischTimeout := clampTo 100 10000 (lo w), trip := clampTo 10 100 (hi w) }

def hvClamps (w : Word) : Bool := clamps 100 10000 (lo w) || clamps 10 100 (hi w)

/-- The bytes before the first NUL. -/
def untilNul : List Byte → List Byte
  | [] => []
  | x :: t => if x = 0 then [] else x :: untilNul t

/-- A window word (R205). -/
def windowOf (w : Word) : Window := ⟨bitAt w 24, b2 w, b0 w, b1 w, bitAt w 25⟩

/-- The PRINT section: its fifteen words (R158, R205). -/
def setPrint (w : Nat → Word) (c : Settings) : Settings :=
  { c with print :=
    { width := clampTo 24 64 (b0 (w 0))
      rate := b1 (w 0)
      portOn := bitAt (w 0) 16
      title := untilNul ((List.range 8).flatMap fun i => wordBytes (w (1 + i)))
      windows := (List.range 6).map fun i => windowOf (w (9 + i)) } }

def printClamps (w : Nat → Word) : Bool := clamps 24 64 (b0 (w 0))

/-- A shown window must lie on line 0 or 1, end at or after its start and below the line width (R158). -/
def Window.bad (width : Nat) (x : Window) : Bool :=
  x.shown && (decide (1 < x.line) || decide (x.last < x.first) || decide (width ≤ x.last))

/-- The settings a CONFIGURE would apply (R187). -/
def configured (ps : Nat → Word) (c : Settings) : Settings :=
  let s := sectionsOf (ps 0)
  let at' := fun (i : Option Nat) (f : (Nat → Word) → Settings → Settings) (x : Settings) =>
    match i with
    | some k => f (fun j => ps (k + j)) x
    | none => x
  at' s.print setPrint (at' s.hv (fun w => setHv (w 0)) (at' s.measure setMeasure (at' s.timing (fun w => setTiming (w 0)) c)))

/-- Whether any present value is clamped (R187). -/
def configClamps (ps : Nat → Word) : Bool :=
  let s := sectionsOf (ps 0)
  let at' := fun (i : Option Nat) (f : (Nat → Word) → Bool) =>
    match i with
    | some k => f fun j => ps (k + j)
    | none => false
  at' s.timing (fun w => timingClamps (w 0)) || at' s.measure measureClamps || at' s.hv (fun w => hvClamps (w 0)) ||
    at' s.print printClamps

/-- The first check that fails, with its section's number (R187); `c` is the settings `configured` gives. -/
def configFault (ps : Nat → Word) (c : Settings) : Option (Code × Nat) :=
  let s := sectionsOf (ps 0)
  if s.measure.isSome && decide (c.oLim ≤ c.pLim) then some (.limitOrder, 2)
  else if s.measure.isSome && !(countOk c.n && decide (c.n ≠ 0)) then some (.badParameter, 2)
  else if s.print.isSome && decide (7 < c.print.rate) then some (.badParameter, 4)
  else if s.print.isSome && c.print.windows.any (Window.bad c.print.width) then some (.badLayout, 4)
  else none

end Sys2Proof.Machine
end

