-- ==== Sys2Proof/Machine/Measure.lean ====
section
/-! DEFINITION. The measurement unit (chapter 2): the continuity and insulation arithmetic, the collections and windows,
and the steps of ZERO and MEASURE. -/

namespace Sys2Proof.Machine

/-! ## Arithmetic -/

/-- A DIFF sample is saturated at either end code (R26). -/
def diffSaturated (x : Int) : Bool := decide (x = 32767) || decide (x = -32768)

/-- An HVI sample is saturated at the upper end code only (R26). -/
def hviSaturated (x : Int) : Bool := decide (x = 32767)

/-- Range constants in sixteenths of a milliohm per code (R27). -/
def Rng.k : Rng → Nat
  | .h => 10
  | .m => 100
  | .l => 1000
  | .none => 0
  | .l1 => 0
  | .l2 => 0
  | .l3 => 0

/-- Leakage code steps in pA (R28). -/
def Rng.lsb : Rng → Nat
  | .l1 => 50
  | .l2 => 500
  | .l3 => 5000
  | .none => 0
  | .h => 0
  | .m => 0
  | .l => 0

/-- The stored zero code of a range (R29). -/
def ZeroCodes.at (z : ZeroCodes) : Rng → Int
  | .h => z.h
  | .m => z.m
  | .l => z.l
  | .l1 => z.l1
  | .l2 => z.l2
  | .l3 => z.l3
  | .none => 0

/-- The gain of a stimulus range (R30). -/
def gainAt (g : Nat × Nat × Nat) : Rng → Nat
  | .h => g.1
  | .m => g.2.1
  | .l => g.2.2
  | .none => 0
  | .l1 => 0
  | .l2 => 0
  | .l3 => 0

/-- The raw resistance in milliohms (R34): 0 for D not positive, else X / Q rounded half up, with X = D * K * G and
Q = 524288 * N. -/
def rawResistance (d : Int) (k g n : Nat) : Nat :=
  if d ≤ 0 then 0 else (d.toNat * k * g + 524288 * n / 2) / (524288 * n)

/-- The compensated resistance (R35): 0 where the difference is negative. -/
def compensated (raw ca cb : Nat) : Nat := raw - ca - cb

/-- The three classes of a member check (R38); `none` is OPEN by saturation. -/
inductive MemberClass where
  | pass | highRes | opn
  deriving DecidableEq, Repr

def classify (p o : Nat) : Option Nat → MemberClass
  | none => .opn
  | some r => if o < r then .opn else if p < r then .highRes else .pass

/-- A window average, truncated toward zero (R40). -/
def windowAverage (sum : Int) (n : Nat) : Int := sum.tdiv n

/-- The insulation resistance of a window (R41) from its sums, its sample count, its saturation flag, its range and that
range's zero code. -/
def insulationResistance (sumV sumI : Int) (n : Nat) (sat : Bool) (rng : Rng) (zero : Int) : PVal :=
  let mv := (windowAverage sumV n * 50).toNat
  if sat && decide (rng = .l3) then ⟨mv * 1000 / 163835000, .lt, rng⟩
  else
    let pa := (windowAverage sumI n - zero) * rng.lsb
    if pa ≤ 0 then ⟨Config.maxMegohms, .gt, rng⟩
    else
      let r := mv * 1000 / pa.toNat
      if Config.maxMegohms < r then ⟨Config.maxMegohms, .gt, rng⟩ else ⟨r, .none, rng⟩

/-- An insulation result passes when it is not less than R_min and does not carry "<" (R41). -/
def PVal.passes (v : PVal) (rmin : Nat) : Bool := decide (rmin ≤ v.r) && decide (v.mark ≠ .lt)

/-- A sum of 64 samples divided by 64, rounded half away from zero (R42). -/
def zeroCodeOf (sum : Int) : Int :=
  if 0 ≤ sum then (((sum.toNat + 32) / 64 : Nat) : Int) else -((((-sum).toNat + 32) / 64 : Nat) : Int)

/-! ## Collections and windows -/

/-- The state of the unit while it takes a job's samples (R32). -/
def JobKind.state : JobKind → MUState
  | .twoPoint _ _ _ => .collecting
  | .probe _ => .collecting
  | .pair _ => .collecting
  | .window => .window
  | .rampCheck => .window
  | .zero _ => .zeroing

/-- The job sums DIFF samples. -/
def JobKind.usesDiff : JobKind → Bool
  | .twoPoint _ _ _ => true
  | .probe _ => true
  | .pair _ => true
  | .window => false
  | .rampCheck => false
  | .zero i => decide (i < 3)

/-- Where a job routes the stimulus and the DIFF inputs (R1, R20, R42). -/
def JobKind.route : JobKind → Route
  | .pair k => .pair k
  | .zero i => if i < 3 then .zeroPath else .buses
  | .twoPoint _ _ _ => .buses
  | .probe _ => .buses
  | .window => .buses
  | .rampCheck => .buses

/-- A job begins: the gains are read (R30), the source is turned on at its range or the leakage range is selected (R27,
R28, R40). -/
def Dev.startJob (kind : JobKind) (rng : Rng) (n : Nat) (d : Dev) : Dev :=
  d.onMu fun u =>
    { u with
      state := kind.state
      stim := if kind.usesDiff then rng else .none
      leak := if kind.usesDiff then u.leak else rng
      route := kind.route
      job := some ⟨kind, rng, n, 0, 0, 0, 0, false, true, (d.cfg.gH, d.cfg.gM, d.cfg.gL)⟩ }

/-- The thread's own measurement: it waits for the answer (R32). -/
def Dev.measure (kind : JobKind) (rng : Rng) (n : Nat) (d : Dev) : Dev :=
  { d.startJob kind rng n with wait := .meas }

/-- The measurement in progress ends without an answer (R32, R108): the source is off, the unit IDLE. -/
def MeasUnit.cancel (u : MeasUnit) : MeasUnit :=
  { u with state := .idle, stim := .none, route := .buses, job := none }

/-- A window for the insulation engine or the ramp check ends without an answer. -/
def MeasUnit.cancelWindow (u : MeasUnit) : MeasUnit :=
  match u.job with
  | some j => if j.kind = .window ∨ j.kind = .rampCheck then u.cancel else u
  | none => u

/-- One sample of the converter joins a job. -/
def Job.add (j : Job) (diff hvv hvi : Int) : Job :=
  let x := if j.kind.usesDiff then diff else hvi
  let s := if j.kind.usesDiff then diffSaturated diff else hviSaturated hvi
  { j with
    got := j.got + 1
    sum := j.sum + x
    sumV := j.sumV + hvv
    sumI := j.sumI + hvi
    sat := j.sat || s
    allSat := j.allSat && s }

/-- The next lower current of an autoranged measurement whose collection was over-range (R36). -/
def Job.nextRange (j : Job) : Option Rng :=
  match j.kind with
  | .twoPoint true _ _ => if j.sat then (match j.rng with | .h => some .m | .m => some .l | _ => none) else none
  | _ => none

/-- The answer of a job whose samples are complete (R33 to R40). -/
def Job.answer (j : Job) (z : ZeroCodes) : Answer :=
  let dd := j.sum - j.n * z.at j.rng
  let raw := rawResistance dd j.rng.k (gainAt j.gain j.rng) j.n
  match j.kind with
  | .twoPoint _ ca cb =>
    if j.sat then ⟨none, j.rng, 0, true, false, 0, 0, j.n⟩
    else ⟨some (compensated raw ca cb), j.rng, j.sum, false, true, 0, 0, j.n⟩
  | .probe t =>
    if j.sat then ⟨none, j.rng, 0, true, false, 0, 0, j.n⟩
    else ⟨some raw, j.rng, j.sum, false, decide (raw ≤ t), 0, 0, j.n⟩
  | .pair _ => ⟨none, j.rng, 0, j.sat, !j.allSat, 0, 0, j.n⟩
  | .window => ⟨none, j.rng, 0, j.sat, false, j.sumV, j.sumI, j.n⟩
  | .rampCheck => ⟨none, j.rng, 0, j.sat, false, j.sumV, j.sumI, j.n⟩
  | .zero _ => ⟨none, j.rng, j.sum, j.sat, false, 0, 0, j.n⟩

/-- The unit takes one sample (R25): the job grows, an over-range collection repeats at the next range, or the job ends
with its answer, the source off; a ZERO stays in ZEROING between its collections (R42). The second component is the kind
of a job that has ended. -/
def MeasUnit.sample (u : MeasUnit) (diff hvv hvi : Int) : MeasUnit × Option JobKind :=
  match u.job with
  | none => (u, none)
  | some j0 =>
    let j := j0.add diff hvv hvi
    if j.got < j.n then ({ u with job := some j }, none)
    else
      match j.nextRange with
      | some r =>
        ({ u with stim := r,
                  job := some { j with rng := r, got := 0, sum := 0, sumV := 0, sumI := 0, sat := false, allSat := true } },
         none)
      | none =>
        ({ u with state := if j.kind.state = .zeroing then .zeroing else .idle, stim := .none, route := .buses,
                  job := none, ans := j.answer u.zero },
         some j.kind)

/-! ## ZERO (R42, R43) -/

/-- The range of the i-th collection of a ZERO. -/
def zeroRange : Nat → Rng
  | 0 => .h
  | 1 => .m
  | 2 => .l
  | 3 => .l1
  | 4 => .l2
  | _ => .l3

/-- ZERO acts by the matrix state (R42); in a state that leads to PARKED it waits (log 17). -/
def Dev.zeroStart (d : Dev) : Dev :=
  if d.mx.usable then d.push [.setup [], .zeroRun]
  else if d.mx.state = .parked then d.push [.zeroRun]
  else { d.push [.zeroSafe, .zeroStart] with wait := .forParked }

/-- The six collections, with the wait for discharged before the leakage ranges (R42). -/
def Dev.zeroRun (d : Dev) : Dev :=
  d.goto [.zeroSafe, .zeroCollect 0, .zeroGot 0, .zeroSafe, .zeroCollect 1, .zeroGot 1, .zeroSafe, .zeroCollect 2,
    .zeroGot 2, .zeroSafe, .zeroOff, .zeroSafe, .zeroCollect 3, .zeroGot 3, .zeroSafe, .zeroCollect 4, .zeroGot 4,
    .zeroSafe, .zeroCollect 5, .zeroGot 5, .zeroSafe, .zeroEnd]

def Dev.zeroCollect (i : Nat) (d : Dev) : Dev := d.measure (.zero i) (zeroRange i) 64

/-- A result word of ZERO: lo code, bit 16 out of range (R205). A code that was not formed is free (log 13). The bit is
set for a saturated collection alone, not for a formed code past 1000 in magnitude; DESIGN CHOICE (log 44). -/
def zeroWord (base i : Nat) : Option (Option Int) → Word
  | some (some c) => loHi ((BitVec.ofInt 16 c).toNat) 0
  | some none => loHi (lo (Config.freeWord base i)) 1
  | none => loHi (lo (Config.freeWord base i)) (hi (Config.freeWord base i) % 2)

/-- A collection has ended: its code is written into the result section (R42), with no wait before the next collection;
DESIGN CHOICE (log 43). -/
def Dev.zeroGot (i : Nat) (d : Dev) : Dev :=
  let r : Option Int := if d.mu.ans.sat then none else some (zeroCodeOf d.mu.ans.sum)
  let d1 := d.onProg fun p => { p with zres := p.zres.set i (some r) }
  match d.reader.order with
  | some o => d1.post (o.resultOff + 4 + 4 * i) [zeroWord o.freeBase (i + 1) (some r)]
  | none => d1

/-- ZERO waits until the HV controller reports discharged (R42). -/
def Dev.zeroOff (d : Dev) : Dev := if d.discharged then d else { d with wait := .zeroOff }

/-- A code is stored only within -1000..1000 (R29, R43). -/
def zeroOk : Option (Option Int) → Bool
  | some (some c) => decide (-1000 ≤ c) && decide (c ≤ 1000)
  | some none => false
  | none => false

/-- The index of the first collection that failed. -/
def firstBad (i : Nat) : List (Option (Option Int)) → Option Nat
  | [] => none
  | z :: zs => if zeroOk z then firstBad (i + 1) zs else some i

def zeroCodeAt (zs : List (Option (Option Int))) (i : Nat) : Int :=
  match zs.getD i none with
  | some (some c) => c
  | some none => 0
  | none => 0

/-- ZERO decides (R43): all six codes stored and zero-valid set, or ZERO_RANGE with nothing stored. -/
def Dev.zeroEnd (d : Dev) : Dev :=
  let zs := d.prog.zres
  match firstBad 0 zs with
  | none =>
    ((d.onMu fun u => { u.cancel with
        zero := ⟨zeroCodeAt zs 0, zeroCodeAt zs 1, zeroCodeAt zs 2, zeroCodeAt zs 3, zeroCodeAt zs 4, zeroCodeAt zs 5⟩
        zeroValid := true }).onProg fun p => { p with zfirst := some .none }).push [.endOrder .done .done]
  | some i =>
    ((d.onMu MeasUnit.cancel).onProg fun p => { p with zfirst := some (zeroRange i) }).push
      [.endOrder .failed .zeroRange]

/-! ## MEASURE (R44, R45) -/

/-- The word of the compensation table that holds point p's value (R206). -/
def compWordOff (table p : Nat) : Nat := table + 4 * (p / 2)

def compOf (w : Word) (p : Nat) : Nat := if p % 2 = 0 then lo w else hi w

/-- MEASURE's compensation values: 0 for both without a table (R31, R45). Point a's word is read, then point b's, each in a
burst of its own, also where it is the same word or the next one; DESIGN CHOICE (log 60). -/
def Dev.measA (d : Dev) : Dev :=
  match d.reader.bind with
  | some b =>
    if b.compOff = 0 then d.push [.measB]
    else d.clearBuf.push [.read (compWordOff b.compOff d.prog.ptA) 1, .read (compWordOff b.compOff d.prog.ptB) 1, .measGotB]
  | none => d.push [.measB]

/-- The two values, each clamped to 9999 (R31). The end of the table's read is a safe point (log 38). -/
def Dev.measGotB (d : Dev) : Dev :=
  let a := compOf (d.word 0) d.prog.ptA
  let b := compOf (d.word 1) d.prog.ptB
  ((d.onProg fun p => { p with ca := min a 9999, cb := min b 9999 }).setClamped
    (decide (9999 < a) || decide (9999 < b))).clearBuf.push [.safe, .measB]

/-- The setup A = a, B = b, then the measurement with the quantities of R37. -/
def Dev.measB (d : Dev) : Dev :=
  let p := d.prog
  d.push [.setup (Tab.set .none (Tab.set .none [] p.ptA .a) p.ptB .b),
    .twoPoint (if p.mrng = .none then .h else p.mrng) (decide (p.mrng = .none)) p.mn p.ca p.cb, .measGot, .safe, .measEnd]

/-- The answer is kept in the order context (R45). -/
def Dev.measGot (d : Dev) : Dev := d.onProg fun p => { p with mres := some d.mu.ans }

def Dev.measEnd (d : Dev) : Dev := d.push [.endOrder .done .done]

end Sys2Proof.Machine
end

