-- ==== Sys2Proof/Machine/Matrix.lean ====
section
/-! DEFINITION. The matrix controller and the card link (chapter 1): the card table, bus setups and their gate, frame
exchanges, card faults and the recovery setup, parking, unparking and the self-check, and the matrix's soft reset. -/

namespace Sys2Proof.Machine

/-! ## The card table and the image -/

def Card.absent : Card := ⟨.absent, 0⟩

def Matrix.card (m : Matrix) (c : Nat) : Card := Tab.get Card.absent m.cards c

/-- Card c is fitted (R3). -/
def Matrix.present (m : Matrix) (c : Nat) : Bool := decide ((m.card c).state = .present)

def Matrix.faulted (m : Matrix) (c : Nat) : Bool := decide ((m.card c).state = .faulted)

def cardNumbers : List Nat := List.range 32

/-- The PRESENT cards, ascending. -/
def Matrix.presentCards (m : Matrix) : List Nat := cardNumbers.filter m.present

/-- The bus a point is on, and the bus it is to be on (R2). -/
def Matrix.bus (m : Matrix) (p : Nat) : Bus := Tab.get .none m.cur p
def Matrix.target (m : Matrix) (p : Nat) : Bus := Tab.get .none m.tgt p

/-- A card mask (R21). -/
def maskOf (f : Nat → Bool) : Word := cardNumbers.foldl (fun w c => if f c then w ||| cardBit c else w) 0

/-- Write a card table entry. A card that leaves PRESENT clears the map-valid flag (R60). -/
def Dev.setCard (c : Nat) (k : Card) (d : Dev) : Dev :=
  { d with
    mx := { d.mx with cards := Tab.set Card.absent d.mx.cards c k }
    nets := { d.nets with mapValid := d.nets.mapValid && !(d.mx.present c && decide (k.state ≠ .present)) } }

/-- Every card ABSENT (R16, R22, R60). -/
def Dev.clearCards (d : Dev) : Dev :=
  { d with
    mx := { d.mx with cards := [] }
    nets := { d.nets with mapValid := d.nets.mapValid && d.mx.presentCards.isEmpty } }

/-- The entries of a card's points become NONE. -/
def dropCard (c : Nat) (t : Tab Bus) : Tab Bus := t.filter fun e => decide (cardOf e.1 ≠ c)

/-- The entries of a card's points are taken from `src` (R10). -/
def spliceCard (c : Nat) (src t : Tab Bus) : Tab Bus :=
  (t.filter fun e => decide (cardOf e.1 < c)) ++ (src.filter fun e => decide (cardOf e.1 = c)) ++
    (t.filter fun e => decide (c < cardOf e.1))

/-- Points of the opening set: not NONE and not at the target (R7). -/
def Matrix.opening (m : Matrix) : List Nat :=
  (m.cur.filter fun e => decide (m.target e.1 ≠ e.2)).map (·.1)

/-- Points of the closing set: target not NONE and not reached (R7). -/
def Matrix.closing (m : Matrix) : List Nat :=
  (m.tgt.filter fun e => decide (m.bus e.1 ≠ e.2)).map (·.1)

/-- The cards that hold points of a set, ascending. -/
def cardsOf (ps : List Nat) : List Nat := cardNumbers.filter fun c => ps.any fun p => decide (cardOf p = c)

/-- The opening frame of a card (R9). -/
def Matrix.openFrame (m : Matrix) (c : Nat) : List Bus :=
  (cardPoints c).map fun p => if m.bus p ≠ m.target p then .none else m.bus p

/-- The closing frame of a card (R10). -/
def Matrix.closeFrame (m : Matrix) (c : Nat) : List Bus := (cardPoints c).map m.target

def allOpen : List Bus := List.replicate 128 .none

/-- HALT, ABORT or a discharge fault waits for the owner's safe point (R183, R185, R113). -/
def Dev.stopWanted (d : Dev) : Bool := d.reader.haltPending || d.reader.ending.isSome

/-- The running order ends FAILED with a code. -/
def Dev.failOrder (c : Code) (d : Dev) : Dev := d.goto [.endOrder .failed c]

/-! ## Frames (R12) -/

/-- A frame exchange begins: the card's echo-failure count is 0 and the frame is sent (R3, R12). -/
def Dev.exchange (c : Nat) (pattern : List Bus) (d : Dev) : Dev :=
  (d.setCard c { d.mx.card c with fails := 0 }).onMx fun m => { m with link := ⟨.sending, c, pattern, 1⟩ }

def Dev.startRelease (ph : MPhase) (d : Dev) : Dev :=
  d.onMx fun m => { m with phase := ph, releaseT := some d.cfg.release, link := .idle }

/-- The next frames of each activity, or the wait that follows the last one. -/
def Dev.sendOpening (cs : List Nat) (d : Dev) : Dev :=
  match cs with
  | [] => d.startRelease .releaseWait
  | c :: rest => (d.onMx fun m => { m with phase := .opening rest }).exchange c (d.mx.openFrame c)

def Dev.sendClosing (cs : List Nat) (d : Dev) : Dev :=
  match cs with
  | [] => d.onMx fun m => { m with phase := .settleWait, settleT := some d.cfg.settle, link := .idle }
  | c :: rest => (d.onMx fun m => { m with phase := .closing rest }).exchange c (d.mx.closeFrame c)

def Dev.sendRecovery (cs : List Nat) (d : Dev) : Dev :=
  match cs with
  | [] => d.startRelease .recoveryWait
  | c :: rest => (d.onMx fun m => { m with phase := .recovery rest }).exchange c allOpen

def Dev.sendParking (cs : List Nat) (d : Dev) : Dev :=
  match cs with
  | [] => d.startRelease .parkWait
  | c :: rest => (d.onMx fun m => { m with phase := .parking rest }).exchange c allOpen

/-- The frames of a failed self-check have no echo check (R21). -/
def Dev.sendFailing (cs : List Nat) (d : Dev) : Dev :=
  match cs with
  | [] => d.startRelease .failWait
  | c :: rest => d.onMx fun m => { m with phase := .failing rest, link := ⟨.sending, c, allOpen, 1⟩ }

/-- Bus-pair probe k (R20): range L, the configured default N. -/
def Dev.startPair (k : Nat) (d : Dev) : Dev :=
  (d.onMx fun m => { m with phase := .pairing k, link := .idle }).startJob (.pair k) .l d.cfg.n

def Dev.sendChecking (cs : List Nat) (d : Dev) : Dev :=
  match cs with
  | [] => d.startPair 0
  | c :: rest => (d.onMx fun m => { m with phase := .checking rest }).exchange c allOpen

/-- Enumeration of card c, or the self-check after card 31 (R19, R20). -/
def Dev.sendEnumeration (c : Nat) (d : Dev) : Dev :=
  if c < 32 then (d.onMx fun m => { m with phase := .enumerating }).exchange c allOpen
  else d.sendChecking d.mx.presentCards

/-! ## Parking (R15, R16) -/

/-- PARKING begins (R16). -/
def Dev.beginParking (d : Dev) : Dev :=
  let d1 := d.onMx fun m => { m with parkPending := false, state := .parking, parkFault := 0, parkRaised := false }
  { d1.sendParking d.mx.presentCards with wait := if d.wait = .parkGate then .parkRun else d.wait }

/-- A pending park begins when the matrix is READY and discharged is reported (R4, R15, R24). -/
def Dev.tryPark (d : Dev) : Dev :=
  if d.mx.parkPending && decide (d.mx.state = .ready) && d.discharged then d.beginParking else d

/-- The matrix is PARKED with the drive supply off and the off timer at 50 ms. -/
def Matrix.toParked (m : Matrix) : Matrix :=
  { m with
    state := .parked, phase := .idle, cur := [], tgt := [], link := .idle, drive := false,
    offT := some Config.offTime, releaseT := none, unparkT := none, stopUnpark := false }

/-- An order that waits for the end of a park left by a soft reset goes on (R15, R17, log 17). -/
def Dev.wakeParked (d : Dev) : Dev := if d.wait = .forParked then d.proceed else d

/-- The park ends (R16): the PARK order that began it ends, with an ABORT's or a discharge fault's code if one came. -/
def Dev.parkEnd (d : Dev) : Dev :=
  let d1 := d.clearCards.onMx Matrix.toParked
  if d.wait = .parkRun then
    (d1.onProg fun p => { p with parkMask := some d.mx.parkFault }).goto
      [match d.reader.ending with
       | some c => .endOrder .failed c
       | none => .endOrder .done .done]
  else d1.wakeParked

/-! ## Bus setups (R5 to R10) -/

/-- The setup in flight is that of a group's SETUP step (R124). -/
def Dev.groupSettingUp (d : Dev) : Bool := decide (d.kind = some .insulate) && decide (d.ins.state = .setup)

/-- A requester that has been told to stop does so when its setup is ready. A group's SETUP has then become CHECK (R124) and
resumes there (R137); any other requester asks for the setup again when it resumes (R45, R88, R102, R137). -/
def Dev.stopAfterSetup (t : Tab Bus) (d : Dev) : Dev :=
  if d.groupSettingUp then (d.onIns fun s => { s with state := .check, step := 2 }).goto (.safe :: d.tasks)
  else d.goto (.safe :: .setup t :: d.tasks)

/-- The setup in flight ends: the image is the target, READY, the requester gets its answer (R9, R10, R14). -/
def Dev.setupReport (ok : Bool) (t : Tab Bus) (d : Dev) : Dev :=
  if decide (d.wait = .setup) then
    if ok then (if d.stopWanted then d.stopAfterSetup t else d.proceed)
    else d.failOrder .matrixFault
  else d

/-- The closing phase begins at its gate (R8, R10); with an empty closing set it has been skipped before. -/
def Dev.beginClosing (d : Dev) : Dev :=
  if d.discharged then (d.onMx fun m => { m with state := .setting }).sendClosing (cardsOf d.mx.closing)
  else d.onMx fun m => { m with state := .held, phase := .heldClosing }

/-- The opening phase begins at its gate (R8, R9), or is skipped with an empty opening set. -/
def Dev.beginOpening (d : Dev) : Dev :=
  if d.mx.opening.isEmpty then d.beginClosing
  else if d.discharged then (d.onMx fun m => { m with state := .setting }).sendOpening (cardsOf d.mx.opening)
  else d.onMx fun m => { m with state := .held, phase := .heldOpening }

/-- The recovery setup at its gate (R14). -/
def Dev.beginRecovery (d : Dev) : Dev :=
  let d1 := d.onMx fun m => { m with tgt := [] }
  if d.discharged then (d1.onMx fun m => { m with state := .setting }).sendRecovery d.mx.presentCards
  else d1.onMx fun m => { m with state := .held, phase := .heldRecovery, link := .idle }

/-- A request names a point on a card that is not PRESENT (R6). -/
def Matrix.refuses (m : Matrix) (t : Tab Bus) : Bool := t.any fun e => !m.present (cardOf e.1)

/-- A request taken in READY (R6, R7). With a HALT already pending a setup that meets no discharged report still enters HELD
and waits: R8 has only a HALT that arrives in HELD drop it; DESIGN CHOICE (log 38). -/
def Dev.takeSetup (t : Tab Bus) (d : Dev) : Dev :=
  if d.mx.refuses t then d.failOrder .matrixFault
  else
    let d1 := d.onMx fun m => { m with tgt := t }
    if d1.mx.opening.isEmpty && d1.mx.closing.isEmpty then d1.proceed
    else { (d1.onMx fun m => { m with requester := true, reqTarget := t }).beginOpening with wait := .setup }

/-- A setup request in each matrix state (R5). -/
def Dev.requestSetup (t : Tab Bus) (d : Dev) : Dev :=
  match d.mx.state with
  | .ready => if d.mx.parkPending then d.failOrder .matrixParked else d.takeSetup t
  | .setting => { d.onMx fun m => { m with waitReq := some t } with wait := .setup }
  | .held => { d.onMx fun m => { m with waitReq := some t } with wait := .setup }
  | .parked => d.failOrder .matrixParked
  | .unparking => d.failOrder .matrixParked
  | .parking => d.failOrder .matrixParked

/-- The end of a setup or of a recovery setup: READY, the answer, then a pending park and a request that waited. Where one of
these may leave READY at once, READY is reported to the order reader, which writes it, before (R4, R174). -/
def Dev.setupEnd (ok : Bool) (d : Dev) : Dev :=
  let d1 := d.onMx fun m =>
    { m with state := .ready, phase := .idle, tgt := m.cur, requester := false, waitReq := none, link := .idle }
  let d2 := if d.mx.requester then d1.setupReport ok d.mx.reqTarget else d1
  let d3 := if d.mx.parkPending || d.mx.waitReq.isSome then d2.syncStatus.tryPark else d2
  match d.mx.waitReq with
  | some t => d3.requestSetup t
  | none => d3

/-- A HELD setup is dropped (R8, R24). -/
def Dev.dropSetup (d : Dev) : Dev :=
  d.onMx fun m => { m with state := .ready, phase := .idle, tgt := m.cur, requester := false }

/-! ## Unparking (R17 to R22) -/

/-- The drive supply comes on when both conditions of R18 hold. -/
def Dev.tryDriveOn (d : Dev) : Dev :=
  if d.wait = .unparkGate ∧ d.mx.state = .parked ∧ d.mx.offT = none ∧ d.hv.state = .off then
    { d.onMx fun m =>
        { m with drive := true, state := .unparking, phase := .unparkSettle,
                 unparkT := some Config.unparkSettleTime, pairFlags := 0, stopUnpark := false }
      with wait := .unparking }
  else d

/-- The unpark stops (R22): drive off, cards ABSENT, PARKED; an ABORT or a discharge fault ends the order. -/
def Dev.unparkStop (d : Dev) : Dev :=
  let d1 := d.clearCards.onMx Matrix.toParked
  if d.wait = .unparking then
    match d.reader.ending with
    | some c => d1.failOrder c
    | none => d1
  else d1.wakeParked

/-- The self-check's two steps have ended: the record's fields are formed and the matrix writes them (R21), each in a burst of one
word that it waits for before the next; DESIGN CHOICE (log 63). -/
def Dev.beginRecord (d : Dev) : Dev :=
  let present := maskOf d.mx.present
  let fault := maskOf d.mx.faulted
  let check := present + fault + wordOf d.mx.pairFlags
  let d1 := (d.onMx fun m => { m with phase := .recording }).onProg fun p =>
    { p with present := some present, fault := some fault, flags := some (wordOf d.mx.pairFlags), check := some check }
  match d.reader.order with
  | some o =>
    let r := o.resultOff
    d1.goto [.write (r + 8) [present], .write (r + 12) [fault], .write (r + 16) [wordOf d.mx.pairFlags],
      .write (r + 20) [check], .recordRead]
  | none => d1

/-- A bus-pair probe has ended (R20): the pair conducts unless every sample was saturated. -/
def Dev.pairEnd (k : Nat) (conducts : Bool) (d : Dev) : Dev :=
  let d1 := d.onMx fun m => { m with pairFlags := m.pairFlags + flagAt conducts k }
  if d.mx.stopUnpark then d1.unparkStop else if k < 3 then d1.startPair (k + 1) else d1.beginRecord

/-- The read-back of the four fields, through the arbiter (R21). -/
def Dev.recordRead (d : Dev) : Dev :=
  match d.reader.order with
  | some o => d.clearBuf.push [.read (o.resultOff + 8) 4, .recordCheck]
  | none => d

/-- The compare bit, written last (R21). -/
def Dev.recordCheck (d : Dev) : Dev :=
  let same := decide (d.word 0 + d.word 1 + d.word 2 = d.word 3)
  let d1 := (d.onProg fun p => { p with compare := some (wordOf (flagAt same 0)) }).clearBuf
  match d.reader.order with
  | some o => d1.push [.write (o.resultOff + 24) [wordOf (flagAt same 0)], .recordEnd]
  | none => d1

/-- The UNPARK's outcome (R21): pass, or SELFCHECK_FAIL with the frames that follow it (log 16). READY and the summary's words
reach the status area before the order's section and final status are written; DESIGN CHOICE (log 68). -/
def Dev.recordEnd (d : Dev) : Dev :=
  let p := d.prog
  let pass := decide (p.fault = some 0) && decide (p.flags = some 0) && decide (p.compare = some 1)
  let d1 := d.onReader fun r =>
    { r with sum := ⟨p.present.getD 0, p.fault.getD 0, (p.flags.getD 0).toNat, if pass then 1 else 2⟩ }
  if pass then (d1.onMx fun m => { m with state := .ready, phase := .idle }).push [.endOrder .done .done]
  else ((d1.raise srcMatrix).push [.endOrder .failed .selfcheckFail]).sendFailing d.mx.presentCards

/-! ## The end of an exchange -/

/-- The card becomes FAULTED and its points NONE (R13, R14, R20). -/
def Dev.faultCard (c : Nat) (d : Dev) : Dev :=
  (d.setCard c ⟨.faulted, 2⟩).onMx fun m => { m with cur := dropCard c m.cur, tgt := dropCard c m.tgt }

/-- Go on with the unpark unless R22 stops it here. -/
def Dev.unlessStopped (f : Dev → Dev) (d : Dev) : Dev := if d.mx.stopUnpark then d.unparkStop else f d

/-- A correct echo (R9, R10, R14, R16, R19, R20). In PARKING, which is no setup, the target follows the current bus (R2). -/
def Dev.echoCorrect (d : Dev) : Dev :=
  let c := d.mx.link.card
  match d.mx.phase with
  | .opening rest =>
    (d.onMx fun m =>
      { m with cur := m.cur.filter fun e => !(decide (cardOf e.1 = c) && decide (m.target e.1 ≠ e.2)) }).sendOpening rest
  | .closing rest => (d.onMx fun m => { m with cur := spliceCard c m.tgt m.cur }).sendClosing rest
  | .recovery rest => (d.onMx fun m => { m with cur := dropCard c m.cur }).sendRecovery rest
  | .parking rest => (d.onMx fun m => { m with cur := dropCard c m.cur, tgt := dropCard c m.tgt }).sendParking rest
  | .enumerating =>
    (d.setCard c { d.mx.card c with state := .present }).unlessStopped (Dev.sendEnumeration (c + 1))
  | .checking rest => d.unlessStopped (Dev.sendChecking rest)
  | _ => d

/-- Both attempts have failed (R13, R14, R16, R19, R20). -/
def Dev.exchangeFailed (d : Dev) : Dev :=
  let c := d.mx.link.card
  match d.mx.phase with
  | .opening _ => ((d.faultCard c).raise srcMatrix).beginRecovery
  | .closing _ => ((d.faultCard c).raise srcMatrix).beginRecovery
  | .recovery rest => (d.faultCard c).sendRecovery rest
  | .parking rest =>
    let d1 := if d.mx.parkRaised then d else d.raise srcMatrix
    (d1.onMx fun m => { m with parkFault := m.parkFault ||| cardBit c, parkRaised := true }).sendParking rest
  | .enumerating =>
    let k := d.mx.card c
    (d.setCard c { k with state := if k.fails = 0 then .absent else .faulted }).unlessStopped (Dev.sendEnumeration (c + 1))
  | .checking rest => (d.faultCard c).unlessStopped (Dev.sendChecking rest)
  | _ => d

/-- An attempt brought no correct echo (R12, R19): the count rises unless a missing echo of enumeration, and the frame is
sent once more after the first attempt. -/
def Dev.attemptFailed (missing : Bool) (d : Dev) : Dev :=
  let l := d.mx.link
  let k := d.mx.card l.card
  let counts := !(missing && decide (d.mx.phase = .enumerating))
  let d1 := d.setCard l.card { k with fails := if counts then k.fails + 1 else k.fails }
  if l.attempt < 2 then d1.onMx fun m => { m with link := { l with state := .sending, attempt := 2 } }
  else d1.exchangeFailed

/-- A card's echo (R12). -/
def Dev.echo (pattern : List Bus) (d : Dev) : Dev :=
  if d.mx.link.state = .window then
    (if pattern = d.mx.link.pattern then d.echoCorrect else d.attemptFailed false)
  else d

/-- The echo window ends without an echo (R12). -/
def Dev.echoMissing (d : Dev) : Dev := if d.mx.link.state = .window then d.attemptFailed true else d

/-- The transmission of a frame ends (R12): the echo window opens, or the next frame of a failed self-check follows. -/
def Dev.frameEnd (d : Dev) : Dev :=
  if d.mx.link.state = .sending then
    match d.mx.phase with
    | .failing rest => d.unlessStopped (Dev.sendFailing rest)
    | _ => d.onMx fun m => { m with link := { m.link with state := .window } }
  else d

/-! ## Timers -/

/-- The release timer expires (R9, R14, R16, R21). -/
def Dev.releaseExpired (d : Dev) : Dev :=
  let d1 := d.onMx fun m => { m with releaseT := none }
  match d.mx.phase with
  | .releaseWait => if d.mx.closing.isEmpty then d1.setupEnd true else d1.beginClosing
  | .recoveryWait => (d1.onMx fun m => { m with cur := [] }).setupEnd false
  | .parkWait => d1.parkEnd
  | .failWait => (d1.onMx Matrix.toParked).wakeParked
  | _ => d1

/-- The settle timer expires (R10). -/
def Dev.settleExpired (d : Dev) : Dev :=
  let d1 := d.onMx fun m => { m with settleT := none }
  match d.mx.phase with
  | .settleWait => d1.setupEnd true
  | _ => d1

/-- The off timer expires (R16, R18). -/
def Dev.offExpired (d : Dev) : Dev := (d.onMx fun m => { m with offT := none }).tryDriveOn

/-- The unpark settle timer expires: enumeration begins (R18, R19). -/
def Dev.unparkSettled (d : Dev) : Dev := (d.onMx fun m => { m with unparkT := none }).sendEnumeration 0

/-! ## Reports and commands to the matrix -/

/-- The discharged report returns (R8, R15, R18). -/
def Dev.matrixDischarged (d : Dev) : Dev :=
  match d.mx.phase with
  | .heldOpening => d.beginOpening
  | .heldClosing => d.beginClosing
  | .heldRecovery => d.beginRecovery
  | _ => d.tryPark.tryDriveOn

/-- An order asks for a park by the matrix state (R15). -/
def Dev.parkStart (d : Dev) : Dev :=
  match d.mx.state with
  | .parked => (d.onProg fun p => { p with already := true }).push [.endOrder .done .done]
  | .ready =>
    if d.mx.parkPending then { d.push [.parkWaited] with wait := .forParked }
    else { d.onMx fun m => { m with parkPending := true } with wait := .parkGate }.tryPark
  | _ => { d.push [.parkWaited] with wait := .forParked }

/-- PARKED has been reached by a park that was there before: DONE with the note ALREADY (R15), or the end that an ABORT or
a discharge fault gives, with the result section as it stood (R185). -/
def Dev.parkWaited (d : Dev) : Dev :=
  match d.reader.ending with
  | some c => d.push [.endOrder .failed c]
  | none => (d.onProg fun p => { p with already := true }).push [.endOrder .done .done]

/-- UNPARK by the matrix state (R17, R18). -/
def Dev.unparkStart (d : Dev) : Dev :=
  match d.mx.state with
  | .parked => { d with wait := .unparkGate }.tryDriveOn
  | .ready =>
    if d.mx.parkPending then { d.push [.unparkStart] with wait := .forParked }
    else (d.onProg fun p => { p with already := true }).push [.endOrder .done .done]
  | _ => { d.push [.unparkStart] with wait := .forParked }

/-- The access of the self-check record that was in progress at a soft reset has completed: the unpark stops (R22). -/
def Dev.recordStop (d : Dev) : Dev := d.clearBuf.unparkStop

/-- A soft reset at the matrix (R22, R24); with a park already pending it changes nothing further. The thread and its
measurement have been dropped before, but for the access of a self-check record in progress, after which the unpark stops. -/
def Dev.matrixSoftReset (d : Dev) : Dev :=
  if d.mx.parkPending then d
  else
  match d.mx.state with
  | .parked => d
  | .ready => (d.onMx fun m => { m with parkPending := true }).tryPark
  | .setting => d.onMx fun m => { m with parkPending := true, requester := false, waitReq := none }
  | .held =>
    if d.mx.phase = .heldRecovery then d.onMx fun m => { m with parkPending := true, requester := false, waitReq := none }
    else (d.dropSetup.onMx fun m => { m with parkPending := true, waitReq := none }).tryPark
  | .unparking =>
    match d.mx.phase with
    | .enumerating => d.onMx fun m => { m with stopUnpark := true }
    | .checking _ => d.onMx fun m => { m with stopUnpark := true }
    | .failing _ => d.onMx fun m => { m with stopUnpark := true }
    | .recording => if d.wait = .mem then d.onMx fun m => { m with stopUnpark := true } else d.unparkStop
    | _ => d.unparkStop
  | .parking => d

end Sys2Proof.Machine
end

