-- ==== Sys2Proof/Machine/Hv.lean ====
section
/-! DEFINITION. The HV controller (chapter 6): ramp requests, the ramp and its timer, discharge and drop, trip and arc, the
interlock record. What the insulation engine does at a report is in Machine/Insulate.lean. -/

namespace Sys2Proof.Machine

/-- The ramp timer's duration in ms (R108): 2000 * V / rate rounded up, plus 100. -/
def rampTimeout (volts rate : Nat) : Nat := (2000 * volts + rate - 1) / rate + 100

/-- A sample ends the ramp at 98% of V (R107). -/
def rampEnds (code : Int) (volts : Nat) : Bool := decide ((98 * volts : Int) ≤ 5 * code)

/-- The commanded setpoint in 0.1 mV, `n` samples of 0.1 ms after RAMP began (R107, log 7). -/
def rampSetpoint (volts rate n : Nat) : Nat := min (rate * n) (volts * 10000)

/-- The volts at trip (R110): whole volts of the most recent HVV sample. -/
def voltsAtTrip (code : Int) : Nat := code.toNat * 50 / 1000

/-- The answer to a ramp request (R106). -/
inductive RampAnswer where
  | taken | held | lockout | interlock | parked
  deriving DecidableEq, Repr

/-- The checks of a ramp request, in order (R106). In RAMP and DWELL the engine makes none. -/
def Dev.rampAnswer (d : Dev) : RampAnswer :=
  if d.hv.lockout then .lockout
  else if d.hv.openRec then .interlock
  else if !d.mx.usable then .parked
  else if d.hv.state = .off then .taken
  else .held

/-- A ramp request is taken (R107, R108). -/
def Hv.takeRamp (volts rate trip arcLimit : Nat) (h : Hv) : Hv :=
  { h with
    state := .ramp, volts := volts, rate := rate, trip := trip, arcLimit := arcLimit, setpoint := 0, rampN := 0
    rampT := some (rampTimeout volts rate), check := false, armed := true, arcs := 0 }

/-- DISCHARGE is entered (R104, R112): source off, switch closed, comparator disarmed, timer started, count restarted; a
window for the step ends without an answer. -/
def Dev.enterDischarge (d : Dev) : Dev :=
  { d with
    hv := { d.hv with
      state := .discharge, setpoint := 0, rampT := none, check := false, armed := false
      dischT := some d.cfg.dischTimeout, below := 0 }
    mu := d.mu.cancelWindow }

/-- The step's source is removed if it is on (R109, R117). -/
def Dev.dropSource (d : Dev) : Dev := if d.hv.sourceOn then d.enterDischarge else d

/-- A discharge request, or a drop for HALT or ABORT, and its answer (R109, R112, R117). -/
def Dev.askDischarge (d : Dev) : Dev :=
  let d1 := d.dropSource
  d1.onHv fun h =>
    { h with
      ask := match h.state with
        | .off => .off
        | .lockout => .fault
        | .discharge => .waiting
        | .ramp => .waiting
        | .dwell => .waiting }

/-- What the controller reports at a sample. -/
inductive HvReport where
  | none | rampEnded | offReached | recharged
  deriving DecidableEq, Repr

/-- An HVV sample below the safe level in DISCHARGE or LOCKOUT, or not (R105). -/
def Hv.drain (code : Int) (h : Hv) : Hv × HvReport :=
  if code < Config.safeCode then
    (if h.below = 0 then ({ h with below := 1 }, .none)
     else ({ h with state := .off, dischT := none, below := 0, ask := if h.ask = .waiting then .off else h.ask },
       .offReached))
  else ({ h with below := 0 }, .none)

/-- An HVV sample (R105, R107). A recharge is reported to the caller, which moves the state. -/
def Hv.sample (code : Int) (h0 : Hv) : Hv × HvReport :=
  let h := { h0 with lastHvv := code }
  match h.state with
  | .off => if code < Config.safeCode then (h, .none) else (h, .recharged)
  | .ramp =>
    let h1 := { h with rampN := h.rampN + 1, setpoint := rampSetpoint h.volts h.rate (h.rampN + 1) }
    if !h.check && rampEnds code h.volts then
      ({ h1 with state := .dwell, setpoint := h.volts * 10000, rampT := none }, .rampEnded)
    else (h1, .none)
  | .dwell => (h, .none)
  | .discharge => h.drain code
  | .lockout => h.drain code

/-- OFF is left by a recharge sample: DISCHARGE, or LOCKOUT with the latch set (R105, R114). -/
def Dev.recharge (d : Dev) : Dev :=
  if d.hv.lockout then d.onHv fun h => { h with state := .lockout, below := 0 } else d.enterDischarge

/-- The discharge timer expires in DISCHARGE (R113): the latch sets, LOCKOUT is entered, a request waiting is answered. The
two-sample count restarts (R105), but where the second sample falls together with the expiry (`tie`) that sample still counts
as the second (R112, log 36). -/
def Hv.lockOut (tie : Bool) (h : Hv) : Hv :=
  { h with
    state := .lockout, lockout := true, dischT := none, ask := if h.ask = .waiting then .fault else h.ask
    below := if h.below = 0 ∨ tie = false then 0 else h.below }

/-- A pulse of the arc comparator is counted (R111). -/
def Hv.countArc (h : Hv) : Hv := { h with arcs := min 255 (h.arcs + 1) }

/-- A soft reset at the controller (R119). -/
def Dev.hvSoftReset (d : Dev) : Dev := d.dropSource.onHv fun h => { h with pauseMark := false, armed := false, ask := .none }

end Sys2Proof.Machine
end

