-- ==== Sys2Proof/Machine/Nets.lean ====
section
/-! DEFINITION. The net tables (chapter 3): lookups, union and attach, the group listing, validation of a netlist, and the
loading of the compensation array. -/

namespace Sys2Proof.Machine

/-! ## Lookups (R55, R56) -/

def Net.none : Net := ⟨0, 0, Option.none, Rng.none, Option.none, false, Option.none⟩

def Pt.free : Pt := ⟨0, .untested, 0⟩

def Nets.net (t : Nets) (n : Nat) : Net := Tab.get Net.none t.table n

def Nets.pt (t : Nets) (p : Nat) : Pt := Tab.get Pt.free t.points p

/-- A point's fitted flag: its card was PRESENT when validation or LEARN began (R56). -/
def Nets.isFitted (t : Nets) (p : Nat) : Bool := decide (p < 4096) && bitAt t.fitted (cardOf p)

/-- The fitted points, ascending. -/
def Nets.fittedPoints (t : Nets) : List Nat := (cardNumbers.filter (bitAt t.fitted)).flatMap cardPoints

/-- The member points of a net, in member order. -/
def Nets.membersOf (t : Nets) (n : Nat) : List Nat := (t.members.drop (t.net n).start).take (t.net n).count

/-- The reference point p0 of a net (R56). -/
def Nets.ref (t : Nets) (n : Nat) : Nat := (t.membersOf n).headD 0

/-- The compensation value of a point, in milliohms. -/
def Nets.compAt (t : Nets) (p : Nat) : Nat := Tab.get 0 t.comp p

/-- The root of a net's group (R58). -/
def Nets.root (t : Nets) (n : Nat) : Nat := Tab.get n t.roots n

def Nets.setPt (p : Nat) (x : Pt) (t : Nets) : Nets := { t with points := Tab.set Pt.free t.points p x }

/-- Write a member state (R56). -/
def Nets.setSt (p : Nat) (st : MemberSt) (t : Nets) : Nets := t.setPt p { t.pt p with st := st }

/-- Members in state GOOD (R56). -/
def Nets.goodCount (t : Nets) : Nat := (t.points.filter fun e => decide (e.2.st = .good)).length

/-! ## The group map (R58 to R61) -/

/-- The union of two nets (R58): every entry with the higher root takes the lower one. -/
def Nets.union (n m : Nat) (t : Nets) : Nets :=
  let r := min (t.root n) (t.root m)
  let s := max (t.root n) (t.root m)
  if r = s then t
  else { t with roots := Tab.set 0 (t.roots.map fun e => if e.2 = s then (e.1, r) else e) s r }

/-- The attach of an unassigned point q to net n (R59). -/
def Nets.attach (q n : Nat) (t : Nets) : Nets :=
  let x := t.pt q
  if x.att = 0 then t.setPt q { x with att := n }
  else if t.root x.att = t.root n then t
  else t.union n x.att

/-- The connection of net n with point q: a union with its net, or an attach (R58, R59). -/
def Nets.connect (n q : Nat) (t : Nets) : Nets :=
  let x := t.pt q
  if x.net = 0 then t.attach q n else t.union n x.net

/-- The nets in use. -/
def Nets.netNumbers (t : Nets) : List Nat := (List.range t.count).map (· + 1)

/-- The nets of the group of root r, ascending (R61). -/
def Nets.groupNets (t : Nets) (r : Nat) : List Nat := t.netNumbers.filter fun n => decide (t.root n = r)

/-- The points of the group of root r (R61): members net by net, then the attached points, ascending. -/
def Nets.groupPoints (t : Nets) (r : Nat) : List Nat :=
  (t.groupNets r).flatMap t.membersOf ++
    (t.points.filter fun e => decide (e.2.net = 0) && decide (e.2.att ≠ 0) && decide (t.root e.2.att = r)).map (·.1)

/-- The roots of the groups, lowest first (R61). -/
def Nets.groupRoots (t : Nets) : List Nat := t.netNumbers.filter fun n => decide (t.root n = n)

/-! ## Validation (R49 to R54) -/

/-- What validation and LEARN clear when they begin (R49, R62); the fitted flags come from the card table. -/
def Nets.begin (fitted : Word) (t : Nets) : Nets :=
  { t with tablesValid := false, mapValid := false, points := [], fitted := fitted, members := [] }

/-- The SWEEP ends REFUSED with the net index and the point (R49). -/
def Dev.refuseNetlist (c : Code) (net : Nat) (point : Option Nat) (d : Dev) : Dev :=
  (d.onSweep fun s => { s with refNet := net, refPoint := point }).clearBuf.goto [.endOrder .refused c]

/-- Validation begins (R49), with the first check of R50. -/
def Dev.valBegin (d : Dev) : Dev :=
  let off := d.sweep.netlistOff
  let d1 := d.onNets fun t => { t.begin (maskOf d.mx.present) with roots := [] }
  if off % 4 ≠ 0 ∨ d.memEnd ≤ off then d1.refuseNetlist .netlistBounds 0 none
  else d1.clearBuf.push [.read off 1, .valHead]

/-- The netlist header (R47, R50). -/
def Dev.valHead (d : Dev) : Dev :=
  let w := d.word 0
  let off := d.sweep.netlistOff
  if lo w = 0 ∨ 2048 < lo w then d.refuseNetlist .netlistSize 0 none
  else if d.memEnd < off + 4 * hi w then d.refuseNetlist .netlistBounds 0 none
  else
    ((d.onNets fun t => { t with count := lo w }).onSweep fun s => { s with netEnd := off + 4 * hi w }).clearBuf.push
      [.valNet 1 (off + 4)]

/-- Record n at `off`, or the compensation array after the last one (R51, R53). -/
def Dev.valNet (n off : Nat) (d : Dev) : Dev :=
  if d.nets.count < n then d.push [.compBlock 0]
  else if d.sweep.netEnd ≤ off then d.refuseNetlist .netlistBounds n none
  else d.clearBuf.push [.read off 1, .valRecord n off]

/-- The option flags of a record header (R48, R206). -/
def hasName (h : Word) : Bool := bitAt h 16
def hasLimits (h : Word) : Bool := bitAt h 17
def hasRange (h : Word) : Bool := bitAt h 18
def hasHv (h : Word) : Bool := bitAt h 19
def hasNoInsulate (h : Word) : Bool := bitAt h 20

/-- Words before a record's members (R48). -/
def memberWord (h : Word) : Nat := 1 + opt (hasName h) 4 + opt (hasLimits h) 2 + opt (hasRange h) 1 + opt (hasHv h) 1

/-- The record's length in words (R48). -/
def recordWords (h : Word) : Nat := memberWord h + (lo h + 1) / 2

/-- A record's header word: steps 2 and 3 of R51, then its parts are read in ascending order. Every part is read, the HV word
too, before steps 4 and 5 judge the range and the limits; DESIGN CHOICE (log 52). -/
def Dev.valRecord (n off : Nat) (d : Dev) : Dev :=
  let h := d.word 0
  if lo h = 0 then d.refuseNetlist .netEmpty n none
  else if 256 < lo h then d.refuseNetlist .netTooLarge n none
  else if d.sweep.netEnd < off + 4 * recordWords h then d.refuseNetlist .netlistBounds n none
  else
    let lim := off + 4 + 4 * opt (hasName h) 4
    let rng := lim + 4 * opt (hasLimits h) 2
    let hv := rng + 4 * opt (hasRange h) 1
    d.clearBuf.push
      ((if hasLimits h then [.read lim 1, .read (lim + 4) 1] else []) ++ (if hasRange h then [.read rng 1] else []) ++
        (if hasHv h then [.read hv 1] else []) ++ [.valParts n off h])

/-- A net record's range word (R206). -/
def netRange (w : Word) : Option Rng :=
  if w = 1 then some .h else if w = 2 then some .m else if w = 3 then some .l else none

/-- Steps 4 to 6 of R51, and the net table entry. -/
def Dev.valParts (n off : Nat) (h : Word) (d : Dev) : Dev :=
  let iR := opt (hasLimits h) 2
  let iV := iR + opt (hasRange h) 1
  let p := clampTo 1 Config.maxMilliohms (d.word 0).toNat
  let o := clampTo 2 Config.maxMilliohms (d.word 1).toNat
  let limClamps := hasLimits h &&
    (clamps 1 Config.maxMilliohms (d.word 0).toNat || clamps 2 Config.maxMilliohms (d.word 1).toNat)
  let v := clampTo 50 1500 (d.word iV).toNat
  let hvClamps := hasHv h && clamps 50 1500 (d.word iV).toNat
  if hasRange h && (netRange (d.word iR)).isNone then d.refuseNetlist .badParameter n none
  else if hasLimits h && decide (o ≤ p) then (d.setClamped limClamps).refuseNetlist .limitOrder n none
  else
    let e : Net :=
      { start := d.nets.members.length
        count := lo h
        limits := if hasLimits h then some (p, o) else none
        rng := if hasRange h then (netRange (d.word iR)).getD .none else .none
        hv := if hasHv h then some v else none
        noInsulate := hasNoInsulate h
        name := if hasName h then some (off + 4) else none }
    (((d.onNets fun t => { t with table := Tab.set Net.none t.table n e }).setClamped (limClamps || hvClamps)).clearBuf).push
      [.valMembers n (off + 4 * memberWord h) (lo h) (off + 4 * recordWords h)]

/-- The members still to be read of record n, from `at'`; the next record is at `next`. -/
def Dev.valMembers (n at' left next : Nat) (d : Dev) : Dev :=
  if left = 0 then d.push [.valNet (n + 1) next]
  else d.clearBuf.push [.read at' 1, .valMemberGot n at' left next]

/-- The check of one member (R52). -/
def Nets.memberFault (t : Nets) (p : Nat) : Option Code :=
  if !t.isFitted p then some .pointUnfitted
  else if (t.pt p).net ≠ 0 then some .pointDuplicate
  else none

/-- One member is loaded (R52). -/
def Nets.load (n p : Nat) (t : Nets) : Nets :=
  { t.setPt p ⟨n, .untested, (t.pt p).att⟩ with members := t.members ++ [p] }

/-- The one or two members of a member word (R48, R52). -/
def Dev.valMemberGot (n at' left next : Nat) (d : Dev) : Dev :=
  let p := lo (d.word 0)
  let q := hi (d.word 0)
  match d.nets.memberFault p with
  | some c => d.refuseNetlist c n (some p)
  | none =>
    let d1 := (d.onNets (Nets.load n p))
    if left = 1 then d1.clearBuf.push [.valNet (n + 1) next]
    else
      match d1.nets.memberFault q with
      | some c => d1.refuseNetlist c n (some q)
      | none => (d1.onNets (Nets.load n q)).clearBuf.push [.valMembers n (at' + 4) (left - 2) next]

/-! ## The compensation array (R53) -/

/-- What follows the load of the compensation array. -/
def Dev.compEnd (d : Dev) : Task := if d.kind = some .learn then .learnDone else .valDone

/-- Eight points' values, four words, of the compensation table; none without a table (R53, log 27). -/
def Dev.compBlock (i : Nat) (d : Dev) : Dev :=
  match d.reader.bind with
  | some b =>
    if b.compOff = 0 then (d.onNets fun t => { t with comp := [] }).push [d.compEnd]
    else d.clearBuf.push [.read (b.compOff + 16 * i) 4, .compGot i]
  | none => (d.onNets fun t => { t with comp := [] }).push [d.compEnd]

/-- Store values for the points from p on, each clamped to 9999. -/
def storeComp (p : Nat) (vs : List Nat) (t : Tab Nat) : Tab Nat :=
  match vs with
  | [] => t
  | v :: rest => storeComp (p + 1) rest (Tab.set 0 t p (min v 9999))

def Dev.compGot (i : Nat) (d : Dev) : Dev :=
  let vs := d.rbuf.flatMap fun w => [lo w, hi w]
  let d1 := ((d.onNets fun t => { t with comp := storeComp (8 * i) vs t.comp }).setClamped (vs.any fun v => decide (9999 < v))).clearBuf
  if i < 511 then d1.push [.compBlock (i + 1)] else d1.push [d.compEnd]

end Sys2Proof.Machine
end

