-- ==== Sys2Proof/Machine/Defects.lean ====
section
/-! DEFINITION. The defect table manager (chapter 8): keys, recording a finding, absorption, clearing, and the binding at
START. -/

namespace Sys2Proof.Machine

/-! ## Keys (R144) -/

/-- The key of a kind with its nets and point (R144). -/
def keyOf (k : DKind) (netA netB : Nat) (point : Option Nat) : Key :=
  match k with
  | .opn => ⟨.opn, netA, pointField point⟩
  | .hres => ⟨.hres, netA, pointField point⟩
  | .misw => ⟨.misw, netA, pointField point⟩
  | .xtra => ⟨.xtra, netA, pointField point⟩
  | .shrt => ⟨.shrt, netA, netB⟩
  | .insl => ⟨.insl, netA, netB⟩
  | .brkd => ⟨.brkd, netA, 0⟩
  | .arc => ⟨.arc, netA, 0⟩

def Finding.key (f : Finding) : Key := keyOf f.kind f.netA f.netB f.point

/-- The index of the LIVE record with a key (R144); ABSORBED records never match. -/
def lookupFrom (k : Key) : Nat → List KeyRec → Option Nat
  | _, [] => none
  | i, r :: rs => if r.live ∧ r.key = k then some i else lookupFrom k (i + 1) rs

def Manager.lookup (m : Manager) (k : Key) : Option Nat := lookupFrom k 0 m.index

/-! ## Entries and header (R142, R143, R206) -/

/-- The offset of an entry. -/
def Manager.entryOff (m : Manager) (i : Nat) : Nat := m.off + 16 + 32 * i

/-- The four header words. -/
def Manager.header (m : Manager) : List Word := [wordOf m.used, wordOf m.live, wordOf m.absorbed, wordOf m.dropped]

/-- Entry word 1: flags, range code, occurrence count. -/
def entryFlags (stray truncated gt lt : Bool) (range count : Nat) : Word :=
  bytes4 (flagAt stray 0 + flagAt truncated 1 + flagAt gt 2 + flagAt lt 3) range (count % 256) (count / 256)

/-- Entry word 0: kind and state (1 LIVE, 2 ABSORBED). -/
def entryState (k : DKind) (live : Bool) : Word := bytes4 k.code (if live then 1 else 2) 0 0

/-- The eight words of a new entry (R146, R206). -/
def Finding.words (f : Finding) : List Word :=
  [entryState f.kind true, entryFlags f.stray f.truncated false f.lt f.rng.code 1, loHi f.netA f.netB,
   loHi (pointField f.point) 0, valueField f.value, wordOf f.aux, f.tag, 0]

/-! ## Changes of the counts and of the key index -/

/-- An append (R146): into a table with room, of a key that no LIVE record has, as the finding was found when it arrived
(R145). -/
def Manager.append (k : Key) (m : Manager) : Manager :=
  if m.used < m.cap ∧ m.lookup k = none then
    { m with index := m.index ++ [⟨k, true⟩], used := m.used + 1, live := m.live + 1 }
  else m

/-- A drop (R147). -/
def Manager.drop (m : Manager) : Manager := { m with dropped := if m.dropped < 65535 then m.dropped + 1 else m.dropped }

/-- A record's state becomes ABSORBED. -/
def absorbAt : Nat → List KeyRec → List KeyRec
  | _, [] => []
  | 0, r :: rs => { r with live := false } :: rs
  | i + 1, r :: rs => r :: absorbAt i rs

/-- An absorption (R149), of a LIVE record. -/
def Manager.absorb (i : Nat) (m : Manager) : Manager :=
  if (m.index[i]?.any (·.live)) = true then
    { m with index := absorbAt i m.index, live := m.live - 1, absorbed := m.absorbed + 1 }
  else m

/-- The table emptied (R150). -/
def Manager.empty (m : Manager) : Manager := { m with used := 0, live := 0, absorbed := 0, dropped := 0, index := [] }

/-! ## Recording a finding (R145 to R148) -/

def Dev.tag (d : Dev) : Word :=
  match d.reader.order with
  | some o => o.tag
  | none => 0

/-- A finding arrives (R145 to R147). -/
def Dev.finding (f : Finding) (d : Dev) : Dev :=
  let m := d.mgr
  if m.binding ≠ .bound then d.push [.findingEnd f .dropped]
  else
    let d1 := d.onMgr fun x => { x with state := .recording }
    match m.lookup f.key with
    | some i => d1.clearBuf.push [.read (m.entryOff i + 4) 1, .read (m.entryOff i + 16) 3, .mergeGot f i]
    | none =>
      if m.used < m.cap then d1.push [.write (m.entryOff m.used) f.words, .appended f]
      else (d1.onMgr Manager.drop).push [.write m.off m.drop.header, .findingEnd f .dropped]

/-- The finding's value is worse than the entry's (R145). -/
def worse (k : DKind) (new old : Nat) (newLt oldLt : Bool) : Bool :=
  match k with
  | .insl => if newLt && !oldLt then true else if !newLt && oldLt then false else decide (new < old)
  | .opn => decide (old < new)
  | .hres => decide (old < new)
  | .misw => decide (old < new)
  | .shrt => decide (old < new)
  | .xtra => decide (old < new)
  | .brkd => decide (old < new)
  | .arc => decide (old < new)

/-- The auxiliary after a merge (R145). -/
def mergedAux (f : Finding) (old : Word) : Word :=
  match f.kind with
  | .opn => if old.toNat < f.aux then wordOf f.aux else old
  | .misw => wordOf f.aux
  | .hres => old
  | .shrt => old
  | .xtra => old
  | .insl => old
  | .brkd => old
  | .arc => old

/-- Words 1, 4, 5 and 6 of an entry after a merge (R145), from words 1, 4 and 5 as read. -/
def mergedWords (f : Finding) (w1 w4 w5 : Word) : Word × List Word :=
  let w := worse f.kind (valueField f.value).toNat w4.toNat f.lt (bitAt w1 3)
  let takes := w && decide (f.kind = .insl)
  (entryFlags (bitAt w1 0 || f.stray) (bitAt w1 1 || f.truncated) (if takes then false else bitAt w1 2)
      (if takes then f.lt else bitAt w1 3) (if w then f.rng.code else b1 w1) (min 65535 (hi w1 + 1)),
   [if w then valueField f.value else w4, mergedAux f w5, f.tag])

/-- Absorption follows an appended or merged MISW (R149). -/
def Finding.absorbs (f : Finding) : List Task := if f.kind = .misw then [.absorbOpen f] else []

def Dev.mergeGot (f : Finding) (i : Nat) (d : Dev) : Dev :=
  let m := mergedWords f (d.word 0) (d.word 1) (d.word 2)
  d.clearBuf.push
    ([.write (d.mgr.entryOff i + 4) [m.1], .write (d.mgr.entryOff i + 16) m.2] ++ f.absorbs ++ [.findingEnd f .merged])

/-- The entry's words are written: the header follows (R146). -/
def Dev.appended (f : Finding) (d : Dev) : Dev :=
  d.push ([.write d.mgr.off (d.mgr.append f.key).header, .raiseDefect f] ++ f.absorbs ++ [.findingEnd f .appended])

/-- The append is complete (R146, R151); after a soft reset no attention is raised (R148). -/
def Dev.raiseDefect (f : Finding) (d : Dev) : Dev :=
  let d1 := d.onMgr (Manager.append f.key)
  if d.mgr.orphan then d1 else d1.raise srcDefect

/-- The steps of one absorption (R149). -/
def Dev.absorbTasks (i : Nat) (k : DKind) (d : Dev) : List Task :=
  [.write (d.mgr.entryOff i) [entryState k false], .write d.mgr.off (d.mgr.absorb i).header, .absorbDone i]

/-- The LIVE entry (OPEN, n, p) is absorbed (R149). -/
def Dev.absorbOpen (f : Finding) (d : Dev) : Dev :=
  match d.mgr.lookup (keyOf .opn f.netA 0 f.point) with
  | some i => d.push (d.absorbTasks i .opn ++ [.absorbShort f])
  | none => d.push [.absorbShort f]

/-- The LIVE entry (SHRT, min, max) is absorbed if its point, read from memory, is p (R149). -/
def Dev.absorbShort (f : Finding) (d : Dev) : Dev :=
  match d.mgr.lookup (keyOf .shrt (min f.netA f.aux) (max f.netA f.aux) none) with
  | some i => d.clearBuf.push [.read (d.mgr.entryOff i + 12) 1, .absorbGot f i]
  | none => d

def Dev.absorbGot (f : Finding) (i : Nat) (d : Dev) : Dev :=
  if lo (d.word 0) = pointField f.point then d.clearBuf.push (d.absorbTasks i .shrt) else d.clearBuf

/-- Add 1 at a position of a list of counters. -/
def bump : Nat → List Nat → List Nat
  | _, [] => []
  | 0, x :: xs => (x + 1) :: xs
  | i + 1, x :: xs => x :: bump i xs

/-- The place of a kind among the sweep's five (R91). -/
def DKind.sweepIndex : DKind → Nat
  | .opn => 0
  | .hres => 1
  | .misw => 2
  | .shrt => 3
  | .xtra => 4
  | .insl => 5
  | .brkd => 5
  | .arc => 5

/-- The sweep counts an answer (R69, R91). -/
def Sweep.count (k : DKind) (a : FindAns) (s : Sweep) : Sweep :=
  match a with
  | .appended => { s with new := bump k.sweepIndex s.new }
  | .merged => { s with merged := bump k.sweepIndex s.merged }
  | .dropped => { s with dropped := s.dropped + 1 }

/-- The insulation engine counts an answer (R132, R141). -/
def Insul.count (a : FindAns) (s : Insul) : Insul :=
  match a with
  | .appended => { s with new := s.new + 1 }
  | .merged => { s with merged := s.merged + 1 }
  | .dropped => { s with dropped := s.dropped + 1 }

/-- The manager after a soft reset (R154). -/
def Manager.softReset (m : Manager) : Manager :=
  { Manager.reset with binding := if m.binding = .bound ∨ m.state = .rebuilding then .rebuild else .none }

/-- The finding is answered (R148); work that outlasted a soft reset ends the manager's reset instead. -/
def Dev.findingEnd (f : Finding) (a : FindAns) (d : Dev) : Dev :=
  if d.mgr.orphan then d.onMgr Manager.softReset
  else
    let d1 := d.onMgr fun m => { m with state := .idle }
    if d.kind = some .insulate then d1.onIns (Insul.count a) else d1.onSweep (Sweep.count f.kind a)

/-! ## Clearing (R150) -/

/-- CLEAR_DEFECTS: the header of an empty table is written; as for an append, the counts follow when it is. -/
def Dev.clear (d : Dev) : Dev :=
  if d.mgr.binding ≠ .bound then d
  else ((d.onMgr fun m => { m with state := .clearing }).push [.cleared]).issueWrite d.mgr.off d.mgr.empty.header

/-- The header is written: the table is empty, the manager is IDLE again, and the order reader writes both counts as 0, also
where they were 0 (R151). Work that outlasted a soft reset ends the manager's reset instead. -/
def Dev.cleared (d : Dev) : Dev :=
  if d.mgr.orphan then d.onMgr Manager.softReset
  else (d.onMgr fun m => { m.empty with state := .idle }).writeStatus countsAt

/-! ## Binding at START (R152, R153) -/

/-- Initialize the table (R152); `o` is what the reader reports. Of the four states of R148 the manager stays in the one it
has, IDLE where it initializes at once and REBUILDING after a rebuild that failed; DESIGN CHOICE (log 61). -/
def Dev.initTable (o : TableStart) (d : Dev) : Dev :=
  (d.onMgr fun m => { m.empty with back := .none }).push [.write d.mgr.off d.mgr.empty.header, .bindEnd o]

def Dev.bindTable (d : Dev) : Dev :=
  match d.reader.bind with
  | none => d
  | some b =>
    if b.defOff = 0 then (d.onMgr fun _ => Manager.reset).push [.bindEnd .none]
    else
      let d1 := d.onMgr fun m => { m.empty with off := b.defOff, cap := b.defCap, back := .none }
      if d.mgr.binding = .none then d1.initTable .initialized
      else (d1.onMgr fun m => { m with state := .rebuilding }).clearBuf.push [.read b.defOff 4, .rebuildHead]

/-- The header read back (R153); its counts are held aside until all checks have passed. The dropped count is the whole word, also above 65535; DESIGN CHOICE (log 57). -/
def Dev.rebuildHead (d : Dev) : Dev :=
  let u := (d.word 0).toNat
  let l := (d.word 1).toNat
  let a := (d.word 2).toNat
  if d.mgr.cap < u ∨ l + a ≠ u then d.clearBuf.initTable .rebuildFailed
  else
    (d.onMgr fun m => { m with back := ⟨u, l, a, (d.word 3).toNat, []⟩ }).clearBuf.push [.rebuildEntry 0]

def liveRecords (rs : List KeyRec) : Nat := (rs.filter (·.live)).length

/-- The records loaded are as many as the header's entries used, and of them LIVE as many as its LIVE count (R153). -/
def Readback.agrees (b : Readback) : Bool :=
  decide (b.index.length = b.used) && decide (liveRecords b.index = b.live)

/-- The table read back is taken as it stands (R153). -/
def Manager.install (m : Manager) : Manager :=
  { m with
    used := m.back.used, live := m.back.live, absorbed := m.back.absorbed, dropped := m.back.dropped
    index := m.back.index, back := .none }

/-- The next entry is read, or the records are counted and the table read back is taken (R153). -/
def Dev.rebuildEntry (i : Nat) (d : Dev) : Dev :=
  if i < d.mgr.back.used then
    d.clearBuf.push [.read (d.mgr.entryOff i) 1, .read (d.mgr.entryOff i + 8) 2, .rebuildCheck i]
  else if d.mgr.back.agrees then (d.onMgr Manager.install).push [.bindEnd .rebuilt]
  else d.initTable .rebuildFailed

/-- The key of an entry read back (R153), formed as R144 gives: of a SHRT the lower net comes first, however it is stored. -/
def storedKey (k : DKind) (netA netB p : Nat) : Key :=
  match k with
  | .shrt => keyOf .shrt (min netA netB) (max netA netB) none
  | k => keyOf k netA netB (some p)

/-- A record read back joins those loaded so far. -/
def Manager.loadRecord (r : KeyRec) (m : Manager) : Manager := { m with back := { m.back with index := m.back.index ++ [r] } }

/-- One entry's record (R153). -/
def Dev.rebuildCheck (i : Nat) (d : Dev) : Dev :=
  match dkindOf (b0 (d.word 0)) with
  | none => d.clearBuf.initTable .rebuildFailed
  | some k =>
    let key := storedKey k (lo (d.word 1)) (hi (d.word 1)) (lo (d.word 2))
    if b1 (d.word 0) = 1 then
      (if (lookupFrom key 0 d.mgr.back.index).isSome then d.clearBuf.initTable .rebuildFailed
       else (d.onMgr (Manager.loadRecord ⟨key, true⟩)).clearBuf.push [.rebuildEntry (i + 1)])
    else if b1 (d.word 0) = 2 then
      (d.onMgr (Manager.loadRecord ⟨key, false⟩)).clearBuf.push [.rebuildEntry (i + 1)]
    else d.clearBuf.initTable .rebuildFailed

/-- Binding has ended (R152). -/
def Dev.bindEnd (o : TableStart) (d : Dev) : Dev :=
  (d.onMgr fun m => { m with state := .idle, binding := if o = .none then .none else .bound }).onReader
    fun r => { r with tableStart := o }

end Sys2Proof.Machine
end

