-- ==== Sys2Proof/Machine/Search.lean ====
section
/-! DEFINITION. The split search unit (R81 to R86), the setups and probes of the sweep engine, and what WHEREIS, ISOLATE
and LEARN do at a location. -/

namespace Sys2Proof.Machine

/-- The setup with the points `as` on bus x and the ascending points `bs` on bus y (R5). -/
def targets (as bs : List Nat) (x y : Bus) : Tab Bus := as.foldl (fun t p => Tab.set .none t p x) (bs.map fun p => (p, y))

/-! ## Measurements of the thread -/

/-- A two-point measurement (R33 to R38) marks the order when zero-valid is clear (R29). -/
def Dev.twoPoint (rng : Rng) (auto : Bool) (n ca cb : Nat) (d : Dev) : Dev :=
  d.noteUnzeroed.measure (.twoPoint auto ca cb) rng n

/-- A probe at range L (R39). -/
def Dev.probe (n t : Nat) (d : Dev) : Dev := d.noteUnzeroed.measure (.probe t) .l n

/-- The value of a probe's answer, if it was connected. -/
def Answer.val (a : Answer) : Option PVal :=
  if a.connected then some ⟨a.r.getD 0, .none, .l⟩ else none

/-! ## The unit (R81 to R86) -/

/-- The candidates are loaded with no mask marks (R81). -/
def Search.load (ps : List Nat) (s : Search) : Search := { s with buf := ps.map fun p => (p, false), locCount := 0 }

/-- A search starts when the first probe has answered connected (R83). -/
def Search.start (user : SearchFor) (side : List Nat) (rule : MaskRule) (limit : Nat) (v : PVal) (s : Search) : Search :=
  { s with state := .searching, stack := [⟨0, s.buf.length, v⟩], cur := none, low := none, locCount := 0, limit := limit
           rule := rule, side := side, user := user }

/-- A clear (R86): the buffer keeps its contents. -/
def Search.clear (s : Search) : Search := { s with state := .idle, stack := [], cur := none, low := none, locCount := 0 }

/-- The unmasked points of a range of indices (R81). -/
def Search.unmasked (s : Search) (first count : Nat) : List Nat :=
  (((s.buf.drop first).take count).filter fun e => !e.2).map (·.1)

/-- The point and the mask mark at an index. -/
def Search.pointAt (s : Search) (i : Nat) : Nat := (s.buf.getD i (0, true)).1
def Search.maskedAt (s : Search) (i : Nat) : Bool := (s.buf.getD i (0, true)).2

/-- The lower half of a range takes the odd one (R84). -/
def lowerCount (c : Nat) : Nat := (c + 1) / 2

/-- The net that places a point in a group: its own net, or for an unassigned point its attached net; 0 for none (R61). -/
def Nets.groupNet (t : Nets) (p : Nat) : Nat := if (t.pt p).net = 0 then (t.pt p).att else (t.pt p).net

/-- Does a location at q mask the candidate x (R83)? A q that is unassigned but attached to a net masks itself alone, as the
table of R83 has it; DESIGN CHOICE against R136 (log 45). -/
def masks (rule : MaskRule) (t : Nets) (q x : Nat) : Bool :=
  if x = q then true
  else
    match rule with
    | .point => false
    | .net => decide ((t.pt q).net ≠ 0) && decide ((t.pt x).net = (t.pt q).net)
    | .group =>
      decide ((t.pt q).net ≠ 0) && decide (t.groupNet x ≠ 0) && decide (t.root (t.groupNet x) = t.root (t.pt q).net)

/-- The mask marks a location sets (R85). -/
def Search.maskAt (t : Nets) (i : Nat) (s : Search) : Search :=
  { s with buf := s.buf.map fun e => (e.1, e.2 || masks s.rule t (s.pointAt i) e.1) }

/-- The probes the requester makes for a half (R84). -/
def Dev.halfProbe (pts : List Nat) (d : Dev) : List Task :=
  match d.search.user with
  | .whereis => [.setup (targets d.search.side pts .a .b), .probe d.sweep.n d.sweep.t, .probeGot]
  | .isolate => [.setup (targets d.search.side pts .a .b), .probe d.sweep.n d.sweep.t, .probeGot]
  | .learn => [.setup (targets d.search.side pts .a .b), .probe d.learn.n d.learn.t, .probeGot]
  | .locate => [.locProbe pts]

/-- A probe has been measured: the requester's probe count grows (R72, R84, R95). -/
def Dev.countProbe (d : Dev) : Dev :=
  if d.kind = some .learn then d.onLearn fun l => { l with probes := l.probes + 1 }
  else d.onSweep fun s => { s with probes := s.probes + 1 }

/-- The answer of a half's probe goes to the unit. -/
def Dev.probeGot (d : Dev) : Dev := d.countProbe.onSearch fun s => { s with ans := d.mu.ans.val }

/-- A half is probed, or counts as not connected when all of it is masked (R84). -/
def Dev.judgeHalf (pts : List Nat) (next : Task) (d : Dev) : Dev :=
  if pts.isEmpty then (d.onSearch fun s => { s with ans := none }).push [next] else d.push (d.halfProbe pts ++ [next])

/-- The lower half of the popped range is judged (R84); without one there is nothing to do. -/
def Dev.lowHalf (d : Dev) : Dev :=
  match d.search.cur with
  | some e => d.judgeHalf (d.search.unmasked e.first (lowerCount e.count)) .lowGot
  | none => d

/-- The lower half's answer is kept while the upper half is judged. -/
def Dev.lowGot (d : Dev) : Dev := (d.onSearch fun s => { s with low := s.ans }).push [.safe, .highHalf]

/-- The upper half of the popped range is judged. -/
def Dev.highHalf (d : Dev) : Dev :=
  match d.search.cur with
  | some e => d.judgeHalf (d.search.unmasked (e.first + lowerCount e.count) (e.count - lowerCount e.count)) .highGot
  | none => d

/-- The entry of a half that was connected. -/
def halfEntry (first count : Nat) : Option PVal → List SEntry
  | some v => [⟨first, count, v⟩]
  | none => []

/-- The step has ended (R84, R85): with the stack empty the search ends at once, or its next step follows a safe point. -/
def Dev.searchNext (d : Dev) : Dev :=
  if d.search.stack.isEmpty then d.onSearch fun s => { s with state := .idle } else d.push [.safe, .searchStep]

/-- Both halves of the popped range are judged: the upper is pushed if connected, then the lower (R84). -/
def Search.pushHalves (s : Search) : Search :=
  match s.cur with
  | some e =>
    let l := lowerCount e.count
    { s with
      stack := halfEntry e.first l s.low ++ halfEntry (e.first + l) (e.count - l) s.ans ++ s.stack
      cur := none
      low := none }
  | none => s

def Dev.highGot (d : Dev) : Dev := (d.onSearch Search.pushHalves).searchNext

/-- A step of the search (R84); with the stack empty the search has ended and the unit is IDLE (R85). -/
def Dev.searchStep (d : Dev) : Dev :=
  match d.search.stack with
  | [] => d.onSearch fun s => { s with state := .idle }
  | e :: rest =>
    let d1 := d.onSearch fun s => { s with stack := rest }
    if 1 < e.count then (d1.onSearch fun s => { s with cur := some e }).push [.lowHalf]
    else if d.search.maskedAt e.first then d1.push [.searchStep]
    else
      let k := d.search.locCount + 1
      let last := decide (d.search.limit ≠ 0) && decide (d.search.limit ≤ k)
      (d1.onSearch fun s => { s with locCount := k }).push [.location e.first e.val (last && !rest.isEmpty) last]

/-- The mask marks are set; the search ends at its last location, or takes its next step (R85). -/
def Dev.located (i : Nat) (last : Bool) (d : Dev) : Dev :=
  let d1 := d.onSearch (Search.maskAt d.nets i)
  if last then d1.onSearch fun s => { s with state := .idle, stack := [] } else d1.searchNext

/-! ## Locations of WHEREIS, ISOLATE and LEARN -/

/-- A finding of the sweep: it carries the order's tag and sets the first-finding net (R69). -/
def Dev.sweepFinding (f : Finding) (d : Dev) : Dev :=
  (d.onSweep fun s => { s with firstFinding := if s.firstFinding = 0 then s.cursor else s.firstFinding }).push [.finding { f with tag := d.tag }]

/-- A location of WHEREIS (R73). -/
def Dev.whereisLocation (q : Nat) (v : PVal) (d : Dev) : Dev :=
  let m := (d.nets.pt q).net
  let d1 := d.onNets (Nets.connect d.sweep.cursor q)
  d1.onSweep fun s =>
    if m = 0 then { s with tallyPoints := s.tallyPoints + 1 }
    else
      { s with
        tallyFirst := if s.tallyNets = 0 then m else s.tallyFirst
        tallyVal := if s.tallyNets = 0 then v.r else s.tallyVal
        tallyNets := s.tallyNets + 1 }

/-- The finding of a location of ISOLATE (R76, R77). -/
def isolateFinding (n m q : Nat) (v : PVal) (trunc : Bool) : Finding :=
  if m = 0 then ⟨.xtra, n, 0, some q, some v.r, .l, false, trunc, false, 0, 0⟩
  else ⟨.shrt, min n m, max n m, some q, some v.r, .l, false, trunc, false, 0, 0⟩

/-- A location of ISOLATE: the finding, then the union or attach (R76). -/
def Dev.isolateLocation (q : Nat) (v : PVal) (trunc : Bool) (d : Dev) : Dev :=
  let n := d.sweep.cursor
  ((d.onSweep fun s => { s with truncated := s.truncated + (if trunc then 1 else 0) }).push [.join n q]).sweepFinding
    (isolateFinding n (d.nets.pt q).net q v trunc)

def Dev.join (n q : Nat) (d : Dev) : Dev := d.onNets (Nets.connect n q)

/-- A location of LEARN (R96). -/
def Dev.learnLocation (q : Nat) (d : Dev) : Dev :=
  d.onLearn fun l => if l.kept.length < 256 then { l with kept := l.kept ++ [q] } else { l with surplus := l.surplus + 1 }

end Sys2Proof.Machine
end

