-- ==== Sys2Proof/Machine/Sweep.lean ====
section
/-! DEFINITION. The sweep engine: SWEEP (chapter 4) and LEARN (chapter 5), their checks at the take and their stages. -/

namespace Sys2Proof.Machine

/-! ## Taking a SWEEP (R64 to R66) -/

/-- A SWEEP's parameters, from the snapshot. -/
structure SweepParams where
  netlist : Nat
  limits : Option (Word × Word × Word)
  range : Option Word
  shorts : Option Word
  deriving DecidableEq, Repr

def sweepParams (o : Order) : SweepParams :=
  let f := o.param 1
  let i := 2 + opt (bitAt f 0) 3
  let j := i + opt (bitAt f 1) 1
  { netlist := (o.param 0).toNat
    limits := if bitAt f 0 then some (o.param 2, o.param 3, o.param 4) else none
    range := if bitAt f 1 then some (o.param i) else none
    shorts := if bitAt f 2 then some (o.param j) else none }

/-- The range part's codes are ones the order may give (R65). -/
def rangePartOk (w : Option Word) : Bool :=
  match w with
  | some x => (stimRange (b0 x)).isSome && countOk (b1 x)
  | none => true

/-- A sweep context for the effective parameters (R64, R66). -/
def sweepContext (p : SweepParams) (c : Settings) : Sweep :=
  { Sweep.reset with
    state := .validate
    netlistOff := p.netlist
    pLim := p.limits.map fun l => clampTo 1 Config.maxMilliohms l.1.toNat
    oLim := p.limits.map fun l => clampTo 2 Config.maxMilliohms l.2.1.toNat
    cfgP := c.pLim
    cfgO := c.oLim
    t := match p.limits with
      | some l => clampTo 1 Config.maxMilliohms l.2.2.toNat
      | none => c.tLim
    rng := match p.range with
      | some x => (stimRange (b0 x)).getD .none
      | none => .none
    n := match p.range with
      | some x => if b1 x = 0 then c.n else b1 x
      | none => c.n
    shorts := match p.shorts with
      | some x => clampTo 1 16 x.toNat
      | none => 8 }

def sweepLimitClamps (p : SweepParams) : Bool :=
  match p.limits with
  | some l =>
    clamps 1 Config.maxMilliohms l.1.toNat || clamps 2 Config.maxMilliohms l.2.1.toNat ||
      clamps 1 Config.maxMilliohms l.2.2.toNat
  | none => false

def sweepShortsClamps (p : SweepParams) : Bool :=
  match p.shorts with
  | some x => clamps 1 16 x.toNat
  | none => false

/-- The clamped O of a SWEEP's limits is not greater than its P. -/
def Sweep.limitsBad (s : Sweep) : Bool :=
  match s.pLim, s.oLim with
  | some p, some o => decide (o ≤ p)
  | _, _ => false

/-- A SWEEP is taken: the checks of R65, then the start of R66. One halted in the clearing pauses before its validation (R87),
which then reads the netlist as it stands after the RESUME; DESIGN CHOICE (log 64). -/
def Dev.startSweep (o : Order) (d : Dev) : Dev :=
  let p := sweepParams o
  let s := sweepContext p d.cfg
  let refuse := fun (c : Code) (x : Dev) => (x.onSweep fun _ => Sweep.reset).push [.endOrder .refused c]
  if !rangePartOk p.range then refuse .badParameter d
  else
    let d1 := d.setClamped (sweepLimitClamps p)
    if s.limitsBad then refuse .limitOrder d1
    else
      let d2 := d1.setClamped (sweepShortsClamps p)
      if !d.mx.usable then refuse .matrixParked d2
      else (d2.onSweep fun _ => s).push ((if o.clearDefects then [.clear, .safe] else []) ++ [.valBegin])

/-- Validation has passed (R53, R66): the first net begins, at a safe point (R54). -/
def Dev.valDone (d : Dev) : Dev := (d.onNets fun t => { t with tablesValid := true }).push [.safe, .netBegin 1]

/-! ## MEMBER (R70, R71) -/

def Dev.netBegin (n : Nat) (d : Dev) : Dev :=
  (d.onSweep fun s =>
    { s with cursor := n, state := .member, stage := 1, member := 1, refMark := false, openVal := [] }).push [.member 1]

/-- The members of the net in progress. -/
def Dev.curMembers (d : Dev) : List Nat := d.nets.membersOf d.sweep.cursor

/-- The state of p0 after the last member check (R71). -/
def refState (refMark : Bool) (count : Nat) : MemberSt := if refMark ∨ count ≤ 1 then .good else .opn

/-- The start range of a member check (R37). -/
def memberRange (netRng sweepRng : Rng) : Rng :=
  if netRng ≠ .none then netRng else if sweepRng ≠ .none then sweepRng else .h

/-- P and O of a member check (R37). -/
def memberLimits (t : Net) (s : Sweep) : Nat × Nat :=
  match t.limits with
  | some l => l
  | none => (s.pLim.getD s.cfgP, s.oLim.getD s.cfgO)

/-- The i-th member is checked, or the stage ends (R70, R71). A stop that came in the last check is seen before p0's state and
the stage change; DESIGN CHOICE (log 39). -/
def Dev.member (i : Nat) (d : Dev) : Dev :=
  let n := d.sweep.cursor
  let ms := d.curMembers
  let p0 := d.nets.ref n
  match ms[i]? with
  | some p =>
    (d.onSweep fun s => { s with member := i }).push
      [.setup (targets [p0] [p] .a .b),
       .twoPoint (memberRange (d.nets.net n).rng d.sweep.rng) true d.sweep.n (d.nets.compAt p0) (d.nets.compAt p),
       .memberGot i, .safe, .member (i + 1)]
  | none =>
    ((d.onNets (Nets.setSt p0 (refState d.sweep.refMark ms.length))).onSweep fun s =>
      { s with state := .whereis, stage := 2, member := 1 }).push [.whereis 1]

/-- A member check has answered (R38, R70). -/
def Dev.memberGot (i : Nat) (d : Dev) : Dev :=
  let n := d.sweep.cursor
  let p := d.curMembers.getD i 0
  let a := d.mu.ans
  let l := memberLimits (d.nets.net n) d.sweep
  match classify l.1 l.2 a.r with
  | .pass => (d.onNets (Nets.setSt p .good)).onSweep fun s => { s with refMark := true }
  | .highRes =>
    ((d.onNets (Nets.setSt p .good)).onSweep fun s => { s with refMark := true }).sweepFinding
      ⟨.hres, n, 0, some p, a.r, a.rng, false, false, false, 0, 0⟩
  | .opn =>
    (d.onNets (Nets.setSt p .opn)).onSweep fun s => { s with openVal := Tab.set (none, .none) s.openVal p (a.r, a.rng) }

/-! ## WHEREIS (R72 to R74) -/

/-- The OPEN finding of a member, with its member check's value and range (R72, R74). -/
def Dev.openFinding (p : Nat) (stray : Bool) (aux : Nat) (d : Dev) : Finding :=
  let v := Tab.get (none, .none) d.sweep.openVal p
  ⟨.opn, d.sweep.cursor, 0, some p, v.1, v.2, stray, false, false, aux, 0⟩

/-- WHEREIS of the i-th member if it is OPEN, or the end of the stage (R72, R74). A stop that came in the last probe of the
last one is seen before the stage changes; DESIGN CHOICE (log 39). -/
def Dev.whereis (i : Nat) (d : Dev) : Dev :=
  let n := d.sweep.cursor
  match d.curMembers[i]? with
  | none => (d.onSweep fun s => { s with state := .isolate, stage := 3 }).push [.isolate]
  | some p =>
    let d1 := d.onSweep fun s => { s with member := i }
    if (d.nets.pt p).st ≠ .opn then d1.push [.whereis (i + 1)]
    else
      let cands := d.nets.fittedPoints.filter fun q => decide ((d.nets.pt q).net ≠ n)
      let d2 := (d1.onSearch (Search.load cands)).onSweep fun s =>
        { s with tallyNets := 0, tallyFirst := 0, tallyVal := 0, tallyPoints := 0 }
      if cands.isEmpty then (d2.push [.safe, .whereis (i + 1)]).sweepFinding (d.openFinding p false 0)
      else
        d2.push [.setup (targets [p] cands .a .b), .probe d.sweep.n d.sweep.t, .whereisGot i, .safe, .whereis (i + 1)]

/-- The first probe of WHEREIS has answered (R72). -/
def Dev.whereisGot (i : Nat) (d : Dev) : Dev :=
  let p := d.curMembers.getD i 0
  match d.mu.ans.val with
  | some v =>
    (d.countProbe.onSearch (Search.start .whereis [p] .net 0 v)).push [.safe, .searchStep, .whereisEnd i]
  | none => d.countProbe.sweepFinding (d.openFinding p false 0)

/-- The search for a member has ended (R74). -/
def Dev.whereisEnd (i : Nat) (d : Dev) : Dev :=
  let s := d.sweep
  let p := d.curMembers.getD i 0
  if s.tallyNets = 1 ∧ s.tallyPoints = 0 then
    (d.onNets (Nets.setSt p .miswired)).sweepFinding
      ⟨.misw, s.cursor, 0, some p, some s.tallyVal, .l, false, false, false, s.tallyFirst, 0⟩
  else (d.onNets (Nets.setSt p .stray)).sweepFinding (d.openFinding p true (s.tallyNets + s.tallyPoints))

/-! ## ISOLATE and the end (R75 to R80) -/

/-- The net's GOOD members against the candidates, or nothing to probe (R75). A stop that came in the net's last probe is
seen before the net counts as tested; DESIGN CHOICE (log 39). -/
def Dev.isolate (d : Dev) : Dev :=
  let n := d.sweep.cursor
  let good := d.curMembers.filter fun p => decide ((d.nets.pt p).st = .good)
  let cands := d.nets.fittedPoints.filter fun q =>
    let x := d.nets.pt q
    decide (n < x.net) || (decide (x.net = 0) && decide (x.att = 0))
  if good.isEmpty || cands.isEmpty then d.push [.netDone]
  else
    (d.onSearch (Search.load cands)).push
      [.setup (targets good cands .a .b), .probe d.sweep.n d.sweep.t, .isolateGot, .safe, .netDone]

def Dev.isolateGot (d : Dev) : Dev :=
  let good := d.curMembers.filter fun p => decide ((d.nets.pt p).st = .good)
  match d.mu.ans.val with
  | some v =>
    (d.countProbe.onSearch (Search.start .isolate good .net d.sweep.shorts v)).push [.safe, .searchStep]
  | none => d.countProbe

/-- The order's STOP_ON_DEFECT flag. -/
def Dev.stopOnDefect (d : Dev) : Bool :=
  match d.reader.order with
  | some o => o.stopOnDefect
  | none => false

/-- A net is complete (R78, R79). -/
def Dev.netDone (d : Dev) : Dev :=
  let n := d.sweep.cursor
  let d1 := d.onSweep fun s => { s with tested := s.tested + 1 }
  if d.nets.count ≤ n then d1.push [.sweepClose]
  else if d.stopOnDefect && decide (d.sweep.firstFinding ≠ 0) then d1.push [.endOrder .doneDefects .doneDefects]
  else d1.push [.netBegin (n + 1)]

/-- CLOSE (R80): the map-valid flag, and the order's outcome. -/
def Dev.sweepClose (d : Dev) : Dev :=
  ((d.onNets fun t => { t with mapValid := true }).onSweep fun s => { s with state := .close, stage := 4 }).push
    [if d.sweep.firstFinding = 0 then .endOrder .done .done else .endOrder .doneDefects .doneDefects]

/-! ## LEARN (chapter 5) -/

/-- A learned netlist's header word (R47, R94). -/
def learnHeaderWord (nets words : Nat) : Word := loHi nets words

/-- A LEARN is taken: the checks of R93, then the start of R94. A pause right after the starting steps, before the first point
is taken, still shows phase 0; DESIGN CHOICE (log 40). -/
def Dev.startLearn (o : Order) (d : Dev) : Dev :=
  let out := (o.param 0).toNat
  let cap := (o.param 1).toNat
  let f := o.param 2
  let t := (o.param 3).toNat
  let refuse := fun (c : Code) (x : Dev) =>
    ((x.onLearn fun _ => Learn.reset).onSweep fun _ => Sweep.reset).push [.endOrder .refused c]
  if out % 4 ≠ 0 ∨ cap = 0 ∨ d.memEnd < out + 4 * cap then refuse .badParameter d
  else
    let d1 := d.setClamped (bitAt f 0 && clamps 1 Config.maxMilliohms t)
    if !d.mx.usable then refuse .matrixParked d1
    else
      { d1 with
        learn := { Learn.reset with
          outOff := out, cap := cap, t := if bitAt f 0 then clampTo 1 Config.maxMilliohms t else d.cfg.tLim
          n := d.cfg.n, keep := bitAt f 1, used := 1 }
        sweep := { Sweep.reset with state := .validate }
        nets := { d.nets.begin (maskOf d.mx.present) with count := 0 } }.push
        [.write out [learnHeaderWord 0 1], .safe, .learnFrom 0]

/-- The next point from p that is taken, or CLOSE (R95). The cursor stays at p until the next one is taken, which a pause
between the two shows; DESIGN CHOICE (log 40). -/
def Dev.learnFrom (p : Nat) (d : Dev) : Dev :=
  let isFree := fun q => decide ((d.nets.pt q).net = 0)
  match d.nets.fittedPoints.find? fun q => decide (p ≤ q) && isFree q with
  | none => d.push [.learnClose]
  | some q =>
    let cands := d.nets.fittedPoints.filter fun x => decide (q < x) && isFree x
    let d1 := ((d.onSweep fun s => { s with state := .isolate, stage := 3 }).onLearn fun l =>
      { l with cursor := q, kept := [q], surplus := 0 }).onSearch (Search.load cands)
    if cands.isEmpty then d1.push [.learnAlone q, .safe, .learnFrom (q + 1)]
    else
      d1.push [.setup (targets [q] cands .a .b), .probe d.learn.n d.learn.t, .learnGot q, .safe, .learnFrom (q + 1)]

def Dev.learnGot (p : Nat) (d : Dev) : Dev :=
  match d.mu.ans.val with
  | some v => (d.countProbe.onSearch (Search.start .learn [p] .point 0 v)).push [.safe, .searchStep, .learnFormed p]
  | none => d.countProbe.push [.learnAlone p]

/-- The search has ended: a net, or a point that no half resolved (R96, R97). -/
def Dev.learnFormed (p : Nat) (d : Dev) : Dev :=
  if 1 < d.learn.kept.length then d.push [.learnNet false]
  else (d.onLearn fun l => { l with unresolved := l.unresolved + 1 }).push [.learnAlone p]

/-- A point found alone (R98). -/
def Dev.learnAlone (p : Nat) (d : Dev) : Dev :=
  let d1 := d.onLearn fun l => { l with kept := [p], surplus := 0 }
  if d.learn.keep then d1.push [.learnNet true] else d1.onLearn fun l => { l with singles := l.singles + 1 }

/-- A learned record's length in words (R99). -/
def learnWords (k : Nat) : Nat := 1 + (k + 1) / 2

/-- A net is formed: its number, its fit, its record (R97, R99). -/
def Dev.learnNet (single : Bool) (d : Dev) : Dev :=
  let l := d.learn
  if 2048 ≤ l.nets then d.failOrder .netlistSize
  else if l.cap < l.used + learnWords l.kept.length then d.failOrder .learnCapacity
  else
    d.push [.write (l.outOff + 4 * l.used) (wordOf l.kept.length :: packHalves l.kept), .learnHeader single]

/-- The record is written: the header follows (R99). -/
def Dev.learnHeader (single : Bool) (d : Dev) : Dev :=
  let l := d.learn
  let u := l.used + learnWords l.kept.length
  (d.onLearn fun x => { x with used := u }).push [.write l.outOff [learnHeaderWord (l.nets + 1) u], .learnLoad single]

/-- The net is loaded into the net tables (R62, R97). -/
def Nets.loadNet (kept : List Nat) (t : Nets) : Nets :=
  let n := t.count + 1
  let e : Net := { Net.none with start := t.members.length, count := kept.length }
  kept.foldl (fun u p => u.load n p) { t with count := n, table := Tab.set Net.none t.table n e }

def Dev.learnLoad (single : Bool) (d : Dev) : Dev :=
  (d.onNets (Nets.loadNet d.learn.kept)).onLearn fun l =>
    { l with
      nets := l.nets + 1
      assigned := l.assigned + l.kept.length
      oversize := l.oversize + (if l.surplus = 0 then 0 else 1)
      singles := l.singles + (if single then 1 else 0) }

/-- The cursor has passed the last point (R100). The reading of the compensation table has no safe point in it: a stop that
comes there meets the end of the order; DESIGN CHOICE (log 40). -/
def Dev.learnClose (d : Dev) : Dev := (d.onSweep fun s => { s with state := .close, stage := 4 }).push [.compBlock 0]

def Dev.learnDone (d : Dev) : Dev :=
  (d.onNets fun t => { t with roots := [], tablesValid := true, mapValid := true }).push [.endOrder .done .done]

end Sys2Proof.Machine
end

