-- ==== Sys2Proof/Machine/Insulate.lean ====
section
/-! DEFINITION. The insulation engine (chapter 7): the take of INSULATE, groups, the energized step of a group and of a
locate probe, findings, and what it does at each report of the HV controller. -/

namespace Sys2Proof.Machine

/-! ## Taking an INSULATE (R120, R121) -/

/-- The clamped parameters of an INSULATE (R120). -/
def insulContext (o : Order) (c : Settings) : Insul :=
  let f := o.param 4
  let tripPart := bitAt f 17
  let locPart := bitAt f 18
  let locWord := o.param (5 + opt tripPart 1)
  { Insul.reset with
    state := .init
    volts := clampTo 50 1500 (o.param 0).toNat
    rmin := clampTo 1 Config.maxMegohms (o.param 1).toNat
    rate := 100 * clampTo 1 50 (lo (o.param 2))
    arcLimit := clampTo 1 255 (hi (o.param 2))
    dwell := clampTo 10 60000 (o.param 3).toNat
    window := clampTo 1 1000 (lo f)
    locate := bitAt f 16
    trip := if tripPart then clampTo 10 100 (o.param 5).toNat else c.trip
    locLimit := if locPart then clampTo 1 8 (lo locWord) else 4
    locDwell := if locPart then clampTo 10 1000 (hi locWord) else 100 }

/-- Some parameter is clamped (R120). -/
def insulClamps (o : Order) : Bool :=
  let f := o.param 4
  let tripPart := bitAt f 17
  let locWord := o.param (5 + opt tripPart 1)
  clamps 50 1500 (o.param 0).toNat || clamps 1 Config.maxMegohms (o.param 1).toNat || clamps 1 50 (lo (o.param 2)) ||
  clamps 1 255 (hi (o.param 2)) || clamps 10 60000 (o.param 3).toNat || clamps 1 1000 (lo f) ||
  (tripPart && clamps 10 100 (o.param 5).toNat) ||
  (bitAt f 18 && (clamps 1 8 (lo locWord) || clamps 10 1000 (hi locWord)))

/-- The first check of R121 that fails. -/
def Dev.insulFault (d : Dev) : Option Code :=
  if !d.nets.mapValid then some .noGroupMap
  else if d.hv.lockout then some .hvLockout
  else if !d.mx.usable then some .matrixParked
  else none

def Dev.startInsulate (o : Order) (d : Dev) : Dev :=
  let d1 := d.setClamped (insulClamps o)
  match d.insulFault with
  | some c => (d1.onIns fun _ => Insul.reset).push [.endOrder .refused c]
  | none =>
    (d1.onIns fun _ => insulContext o d.cfg).push ((if o.clearDefects then [.clear] else []) ++ [.safe, .insInit])

/-! ## Groups (R122) -/

/-- A group is skipped when one of its nets has its no-insulate field set. -/
def Nets.skips (t : Nets) (r : Nat) : Bool := (t.groupNets r).any fun n => (t.net n).noInsulate

/-- The floating set. -/
def Nets.floating (t : Nets) : List Nat := (t.groupRoots.filter t.skips).flatMap t.groupPoints

/-- The group voltage: the smaller of V and the overrides. -/
def Nets.groupVolts (t : Nets) (r v : Nat) : Nat :=
  (t.groupNets r).foldl (fun a n => match (t.net n).hv with | some h => min a h | none => a) v

/-- The D side: every fitted point neither in the group nor floating, ascending. -/
def Nets.dSide (t : Nets) (cSide floating : List Nat) : List Nat :=
  t.fittedPoints.filter fun p => !cSide.contains p && !floating.contains p

def Dev.insInit (d : Dev) : Dev := (d.onIns fun s => { s with floating := d.nets.floating }).push [.groupNext 1]

/-- The next group in root order from r, or the end of the order (R122, R131). -/
def Dev.groupNext (r : Nat) (d : Dev) : Dev :=
  match d.nets.groupRoots.find? fun n => decide (r ≤ n) with
  | none =>
    (d.onIns fun s => { s with step := 9 }).push
      [if d.ins.firstFinding = 0 then .endOrder .done .done else .endOrder .doneDefects .doneDefects]
  | some g =>
    if d.nets.skips g then
      (d.onIns fun s => { s with cursor := g, skipped := s.skipped + 1 }).push [.groupNext (g + 1)]
    else
      let c := d.nets.groupPoints g
      (d.onIns fun s =>
        { s with cursor := g, gVolts := d.nets.groupVolts g s.volts, cSide := c, dSide := d.nets.dSide c s.floating }).push
        [.groupSetup]

/-! ## The energized step (R124 to R130, R134) -/

/-- The step in progress is a locate probe's. -/
def Insul.locating (s : Insul) : Bool := decide (s.locPhase ≠ .none)

/-- The engine enters a step of a group, or a phase of a locate probe (R123, R134). The step in progress stays LOCATE for a
probe, at a pause on INTERLOCK too; DESIGN CHOICE (log 54). -/
def Insul.enter (st : InsState) (n : Nat) (ph : LocPhase) (s : Insul) : Insul :=
  if s.locating then { s with locPhase := ph } else { s with state := st, step := n }

/-- The steps of an energized step: setup, check, ramp, dwell, window, discharge. -/
def energizedStep (t : Tab Bus) (first : Rng) : List Task :=
  [.setup t, .rampReq, .dwellBegin, .windowReq first, .windowGot, .waitOff true, .stepEnd]

/-- SETUP of a group (R124). -/
def Dev.groupSetup (d : Dev) : Dev :=
  (d.onIns fun s =>
    { s with state := .setup, step := 1, locPhase := .none, wRng := .none, windowed := false, ev := none
             verdict := none, toLocate := false }).push
    (energizedStep (targets d.ins.cSide d.ins.dSide .c .d) .l1)

/-- A locate probe against a subset (R134); its first window is at the range the evaluation ended in. -/
def Dev.locProbe (pts : List Nat) (d : Dev) : Dev :=
  (d.onIns fun s => { s with locPhase := .setup, subset := pts, windowed := false }).push
    (energizedStep (targets d.ins.cSide pts .c .d) (match d.ins.ev with | some v => v.rng | none => .l1))

/-- The steps from the wait for OFF on. -/
def fromWaitOff : List Task → List Task
  | [] => []
  | .waitOff r :: ts => .waitOff r :: ts
  | _ :: ts => fromWaitOff ts

/-- The steps after the energized step in progress. -/
def afterStepEnd : List Task → List Task
  | [] => []
  | .stepEnd :: ts => ts
  | _ :: ts => afterStepEnd ts

/-- The energized phase is abandoned: the source is dropped, and when OFF is reached the order stops; it restarts at the
group's setup or the probe's setup (R137, R115). A locate probe so abandoned does not count when OFF is reached; DESIGN CHOICE
(log 50). -/
def Dev.abandonStep (d : Dev) : Dev :=
  let restart : List Task := if d.ins.locating then [.locProbe d.ins.subset] else [.groupSetup]
  ((d.askDischarge).onIns fun s => { s with dwellT := none }).goto
    ([.waitOff false, .safe] ++ restart ++ afterStepEnd d.tasks)

/-- CHECK: the ramp request and its answers (R106, R125); an ABORT takes effect at a refusal (R137, R139). A refusal with
INTERLOCK pauses with that reason and the pause mark also where a HALT is pending; DESIGN CHOICE (log 56). -/
def Dev.rampReq (d : Dev) : Dev :=
  let d1 := d.onIns (Insul.enter .check 2 .ramp)
  match d.rampAnswer with
  | .taken =>
    let d2 := { (d1.onHv (Hv.takeRamp d.ins.gVolts d.ins.rate d.ins.trip d.ins.arcLimit)).onIns
      (Insul.enter .ramp 3 .ramp) with wait := .ramp }
    if d.stopWanted then d2.abandonStep else d2
  | .held => { d1.push [.rampReq] with wait := .rampHeld }
  | .lockout => d1.failOrder (d.reader.ending.getD .hvLockout)
  | .interlock =>
    match d.reader.ending with
    | some c => d1.failOrder c
    | none =>
      ((d1.onHv fun h => { h with pauseMark := true }).onIns fun s => { s with reason := .interlock }).push [.safe, .rampReq]
  | .parked => d1.failOrder (d.reader.ending.getD .matrixParked)

/-- Milliseconds from the ramp end to the first window (R127, R134). -/
def Insul.windowPoint (s : Insul) : Nat :=
  if s.locating then s.locDwell - 10 else if s.window ≤ s.dwell then s.dwell - s.window else s.dwell

/-- The time of the hold's dwell timer in ms (R126, R134). -/
def Insul.dwellTime (s : Insul) : Nat := if s.locating then s.locDwell else s.dwell

/-- The ramp has ended: the dwell timer starts at the dwell time; a window point of 0 is reached at once (R126, R127,
log 31). -/
def Dev.dwellBegin (d : Dev) : Dev :=
  let d1 := (d.onIns (Insul.enter .dwell 4 .dwell)).onIns fun s => { s with dwellT := some s.dwellTime }
  if d.ins.windowPoint = 0 then d1 else { d1 with wait := .dwell }

/-- The dwell timer at the window point: it has expired, or it runs on until the first window answers (R127). -/
def Insul.atWindowPoint (s : Insul) : Insul := { s with dwellT := if s.windowPoint = s.dwellTime then none else s.dwellT }

/-- Samples of a window: 10 for each millisecond (R127, R134). -/
def Insul.samples (s : Insul) : Nat := if s.locating then 100 else 10 * s.window

/-- A window is requested (R127). -/
def Dev.windowReq (r : Rng) (d : Dev) : Dev :=
  ((d.onIns fun s => { s.enter .window 5 .window with windowed := true, wRng := r }).noteUnzeroed).measure .window r
    d.ins.samples

/-- The range after a saturated window (R127). -/
def nextLeak : Rng → Option Rng
  | .l1 => some .l2
  | .l2 => some .l3
  | .l3 => none
  | .none => none
  | .h => none
  | .m => none
  | .l => none

/-- The insulation resistance of the last window (R41). -/
def Dev.windowValue (rng : Rng) (d : Dev) : PVal :=
  insulationResistance d.mu.ans.sumV d.mu.ans.sumI d.mu.ans.n d.mu.ans.sat rng (d.mu.zero.at rng)

/-- A locate probe's answer goes to the search unit (R135). -/
def Dev.locAnswer (v : PVal) (connected : Bool) (d : Dev) : Dev :=
  d.onSearch fun s => { s with ans := if connected then some v else none }

/-- A window has answered: the next range, or the discharge request and the result (R127, R128, R134, R135). -/
def Dev.windowGot (d0 : Dev) : Dev :=
  let d := d0.onIns fun s => { s with dwellT := none }
  match if d.mu.ans.sat then nextLeak d.ins.wRng else none with
  | some r => d.push [.windowReq r, .windowGot]
  | none =>
    let v := d.windowValue d.ins.wRng
    let d1 := d.askDischarge
    if d.ins.locating then d1.locAnswer v (!v.passes d.ins.rmin)
    else (d1.onIns fun s => { s with ev := some v }).push [.evaluate, .evalSafe]

/-- A finding of the insulation engine sets the first-finding group (R131, R132). -/
def Dev.insFinding (f : Finding) (d : Dev) : Dev :=
  (d.onIns fun s => { s with firstFinding := if s.firstFinding = 0 then s.cursor else s.firstFinding }).push [.finding { f with tag := d.tag }]

/-- An INSL finding (R128, R136). -/
def inslFinding (n m : Nat) (q : Option Nat) (v : PVal) (trunc : Bool) : Finding :=
  ⟨.insl, n, m, q, some v.r, v.rng, false, trunc, decide (v.mark = .lt), 0, 0⟩

/-- The group's own evaluation. -/
def Dev.evalValue (d : Dev) : PVal := d.ins.ev.getD ⟨0, .none, .none⟩

/-- EVALUATE (R128). -/
def Dev.evaluate (d : Dev) : Dev :=
  let pass := d.evalValue.passes d.ins.rmin
  let d1 := d.onIns fun s =>
    { s with state := .evaluate, step := 6, verdict := some pass, toLocate := !pass && s.locate }
  if pass || d.ins.locate then d1 else d1.insFinding (inslFinding d.ins.cursor 0 none d.evalValue false)

/-- EVALUATE's safe point (R137, log 20): a HALT pauses at once, an ABORT waits for the drained bus. -/
def Dev.evalSafe (d : Dev) : Dev :=
  match d.reader.ending with
  | some c => d.goto [.waitOff true, .endOrder .failed c]
  | none => if d.reader.haltPending then d.push [.pause] else d

/-- DISCHARGE: the wait for the HV controller's answer (R130). The arc counter is read at the answer OFF alone, not at a
DISCHARGE_FAULT; DESIGN CHOICE (log 65). -/
def Dev.waitOff (record : Bool) (d : Dev) : Dev :=
  let d1 := d.onIns (Insul.enter .discharge 8 .discharge)
  match d.hv.ask with
  | .off =>
    (d1.onHv fun h => { h with ask := .none }).onIns fun s =>
      { s with maxArc := if record then max s.maxArc d.hv.arcs else s.maxArc }
  | .fault => (d1.onHv fun h => { h with ask := .none }).failOrder (d.reader.ending.getD .dischargeFault)
  | .waiting => { d1.push [.waitOff record] with wait := .hvOff }
  | .none => d1.askDischarge.push [.waitOff record]

/-- The discharge has reached OFF (R130, R133, R134). -/
def Dev.stepEnd (d : Dev) : Dev :=
  if d.ins.locating then d.onIns fun s => { s with probes := s.probes + 1, locPhase := .none }
  else if d.ins.toLocate then d.push [.safe, .locateStart]
  else d.push [.groupDone]

/-- A group is complete (R130, R131, log 19). A pause here comes before the cursor moves and shows the completed group and its
last step; DESIGN CHOICE (log 69). -/
def Dev.groupDone (d : Dev) : Dev :=
  let pass := decide (d.ins.verdict = some true)
  let d1 := d.onIns fun s =>
    { s with
      tested := s.tested + 1
      passed := s.passed + (if pass then 1 else 0)
      failed := s.failed + (if pass then 0 else 1) }
  if d.stopOnDefect && decide (d.ins.firstFinding ≠ 0) then d1.push [.endOrder .doneDefects .doneDefects]
  else d1.push [.safe, .groupNext (d.ins.cursor + 1)]

/-- The order ends with a code when the bus is drained (R139); a locate probe whose discharge has reached OFF counts
(R134, R141). -/
def Dev.endAfterOff (c : Code) (d : Dev) : Dev :=
  d.goto ((.waitOff true :: if d.ins.locating then [.stepEnd] else []) ++ [.endOrder .failed c])

/-! ## LOCATE (R133, R136) -/

/-- LOCATE begins (R133). -/
def Dev.locateStart (d : Dev) : Dev :=
  let d1 := (d.onIns fun s => { s with state := .locate, step := 7, locCount := 0 }).onSearch (Search.load d.ins.dSide)
  if d.ins.dSide.isEmpty then d1.push [.locateEnd]
  else
    (d1.onSearch (Search.start .locate d.ins.cSide .group d.ins.locLimit d.evalValue)).push [.searchStep, .locateEnd]

/-- A location of LOCATE (R136). -/
def Dev.locateLocation (q : Nat) (v : PVal) (trunc : Bool) (d : Dev) : Dev :=
  let m := (d.nets.pt q).net
  (d.onIns fun s => { s with locCount := s.locCount + 1, truncated := s.truncated + (if trunc then 1 else 0) }).insFinding
    (inslFinding d.ins.cursor (if m = 0 then 0 else d.nets.root m) (some q) v trunc)

/-- The search has ended: with no location the group's own finding is made (R133, R136). -/
def Dev.locateEnd (d : Dev) : Dev :=
  let d1 := d.push [.groupDone]
  if d.ins.locCount = 0 then d1.insFinding (inslFinding d.ins.cursor 0 none d.evalValue false) else d1

/-! ## Reports of the HV controller -/

/-- The thread is in an energized phase: RAMP, DWELL or WINDOW of a group or of a locate probe. -/
def Dev.energized (d : Dev) : Bool :=
  match d.wait with
  | .ramp => true
  | .dwell => true
  | .meas => (match d.mu.job with | some j => decide (j.kind = .window) | none => false)
  | _ => false

/-- The range of a trip's or an arc's finding (R129). The window of the ramp check is none of the step's own windows;
DESIGN CHOICE (log 42). -/
def Insul.tripRange (s : Insul) : Rng := if s.windowed then s.wRng else .none

/-- A trip or an arc ends the energized step (R129, R135): of a locate probe, with its window's range or the evaluation's
(a ramp check is no window of the probe; DESIGN CHOICE, log 42). -/
def Dev.stepBroken (f : Finding) (d : Dev) : Dev :=
  let d1 := (d.askDischarge).onIns fun s => { s with dwellT := none }
  let d2 := d1.goto (fromWaitOff d.tasks)
  if d.ins.locating then
    d2.locAnswer ⟨0, .lt, if d.ins.windowed then d.ins.wRng else d.evalValue.rng⟩ true
  else
    (d2.onIns fun s =>
      { s with state := .discharge, step := 8, verdict := some false, toLocate := false }).insFinding f

/-- The finding of a trip (R129). -/
def Dev.tripFinding (volts : Nat) (d : Dev) : Finding :=
  ⟨.brkd, d.ins.cursor, 0, none, some volts, d.ins.tripRange, false, false, false, 0, 0⟩

/-- The finding of an arc at the limit (R129). -/
def Dev.arcFinding (n : Nat) (d : Dev) : Finding :=
  ⟨.arc, d.ins.cursor, 0, none, some n, d.ins.tripRange, false, false, false, 0, 0⟩

/-- The ramp check has answered (R108, R126, R135). -/
def Dev.rampChecked (d : Dev) : Dev :=
  let v := d.windowValue .l3
  let d1 := d.enterDischarge.askDischarge
  if d.mu.ans.sat then
    let d2 := (d1.onIns fun s => { s with wRng := .l3 }).goto (fromWaitOff d.tasks)
    if d.ins.locating then d2.locAnswer v true
    else (d2.onIns fun s => { s with ev := some v }).push [.evaluate, .evalSafe]
  else d1.goto [.endAfterOff .sourceFault]

end Sys2Proof.Machine
end

