-- ==== Sys2Proof/Machine/Print.lean ====
section
/-! DEFINITION. The print formatter and the printer port (chapter 9): PRINT's checks, field texts, lines, the print queue,
the transmitter and the spool. -/

namespace Sys2Proof.Machine

/-! ## Characters and digits -/

abbrev Text := List Byte

def chars (cs : List Char) : Text := cs.map fun c => BitVec.ofNat 8 c.toNat

def space : Byte := 0x20
def tilde : Byte := 0x7E

def digit (n : Nat) : Byte := BitVec.ofNat 8 (if n < 10 then 48 + n else 55 + n)

/-- Decimal digits, no leading zeros; ten digits hold every word. -/
def decimalFrom : Nat → Nat → Text
  | 0, _ => []
  | f + 1, n => (if n < 10 then [] else decimalFrom f (n / 10)) ++ [digit (n % 10)]

def decimal (n : Nat) : Text := decimalFrom 10 n

/-- At least four decimal digits (R161). R161 has all digits of a point past 9999 printed; a net past 9999, which only a host
write can name, prints all its digits too; DESIGN CHOICE (log 48). -/
def decimal4 (n : Nat) : Text := if n < 10000 then [digit (n / 1000), digit (n / 100 % 10), digit (n / 10 % 10), digit (n % 10)] else decimal n

def decimal2 (n : Nat) : Text := [digit (n / 10 % 10), digit (n % 10)]

/-- Eight hexadecimal digits, upper case (R160). -/
def hex8 (w : Word) : Text :=
  [7, 6, 5, 4, 3, 2, 1, 0].map fun i => digit (w.toNat / 16 ^ i % 16)

/-- A byte of label, name or title text as printed (R159). -/
def printable (b : Byte) : Byte := if 0x20 ≤ b.toNat ∧ b.toNat ≤ 0x7E then b else 0x3F

/-! ## Field texts (R160 to R163) -/

/-- The text of a label, name or title: up to the first NUL (R159, R161). -/
def textOf (bs : List Byte) : Text := (untilNul bs).map printable

def DKind.text : DKind → Text
  | .opn => chars ['O', 'P', 'E', 'N']
  | .hres => chars ['H', 'R', 'E', 'S']
  | .misw => chars ['M', 'I', 'S', 'W']
  | .shrt => chars ['S', 'H', 'R', 'T']
  | .xtra => chars ['X', 'T', 'R', 'A']
  | .insl => chars ['I', 'N', 'S', 'L']
  | .brkd => chars ['B', 'R', 'K', 'D']
  | .arc => chars ['A', 'R', 'C']

/-- The two formats with a decimal point. -/
def two (d : Nat) (u : Char) : Text := decimal (d / 100) ++ chars ['.'] ++ decimal2 (d % 100) ++ chars [u]
def one (d : Nat) (u : Char) : Text := decimal (d / 10) ++ chars ['.'] ++ [digit (d % 10)] ++ chars [u]

/-- Steps 5 and 6 of the ladder (R162); the continuity ladder has no sixth step. -/
def ladder5 (v : Nat) (u3 : Char) (sixth : Bool) : Text :=
  let d := (v + 5000) / 10000
  if sixth && decide (1000 ≤ d) then one ((v + 50000) / 100000) u3 else two d u3

def ladder4 (v : Nat) (u2 u3 : Char) (sixth : Bool) : Text :=
  let d := (v + 500) / 1000
  if d < 1000 then decimal d ++ chars [u2] else ladder5 v u3 sixth

def ladder3 (v : Nat) (u2 u3 : Char) (sixth : Bool) : Text :=
  let d := (v + 50) / 100
  if d < 1000 then one d u2 else ladder4 v u2 u3 sixth

/-- The ladder of R162 with its three unit letters. -/
def ladder (v : Nat) (u1 u2 u3 : Char) (sixth : Bool) : Text :=
  if v < 1000 then decimal v ++ chars [u1]
  else if v < 10000 then
    (let d := (v + 5) / 10
     if d < 1000 then two d u2 else ladder3 v u2 u3 sixth)
  else if v < 100000 then ladder3 v u2 u3 sixth
  else if v < 1000000 then ladder4 v u2 u3 sixth
  else ladder5 v u3 sixth

/-- The bound of a recorded continuity value (R163). -/
def maxContinuity : Nat := 3200000

def ohmText (v : Nat) : Text :=
  if maxContinuity < v then chars ['>'] ++ ladder maxContinuity 'm' 'R' 'k' false else ladder v 'm' 'R' 'k' false

/-- The marker of an INSL value (R162); with both flags set it is free, but for the control characters that no line's text
holds (R159, log 35). -/
def marker (gt lt : Bool) (base : Nat) : Text :=
  match gt, lt with
  | true, true => (Config.freeMarker base).map printable
  | true, false => chars ['>']
  | false, true => chars ['<']
  | false, false => []

def megText (v : Nat) (gt lt : Bool) (base : Nat) : Text :=
  if Config.maxMegohms < v then chars ['>'] ++ ladder Config.maxMegohms 'M' 'G' 'T' true
  else marker gt lt base ++ ladder v 'M' 'G' 'T' true

/-- The VALUE text of an entry (R163), from its words. -/
def valueText (k : DKind) (w1 v : Word) (base : Nat) : Text :=
  match k with
  | .opn => if v = noneWord then chars ['O', 'P', 'E', 'N'] else ohmText v.toNat
  | .hres => ohmText v.toNat
  | .misw => ohmText v.toNat
  | .shrt => ohmText v.toNat
  | .xtra => ohmText v.toNat
  | .insl => megText v.toNat (bitAt w1 2) (bitAt w1 3) base
  | .brkd => decimal v.toNat ++ chars ['V']
  | .arc => decimal v.toNat ++ chars ['x']

/-- What a label field names (R160): a net, a point, or nothing. -/
inductive LabelOf where
  | nothing
  | net (n : Nat)
  | point (p : Nat)
  deriving DecidableEq, Repr

def netLabel (n : Nat) : LabelOf := if n = 0 then .nothing else .net n
def pointLabel (p : Nat) : LabelOf := if p = 65535 then .nothing else .point p

/-- LABEL_A of an entry (R160). -/
def labelA (k : DKind) (netA point : Nat) : LabelOf :=
  match k with
  | .opn => pointLabel point
  | .hres => pointLabel point
  | .misw => pointLabel point
  | .shrt => netLabel netA
  | .xtra => netLabel netA
  | .insl => netLabel netA
  | .brkd => netLabel netA
  | .arc => netLabel netA

/-- LABEL_B of an entry (R160). -/
def labelB (k : DKind) (netA netB point aux : Nat) : LabelOf :=
  match k with
  | .opn => netLabel netA
  | .hres => netLabel netA
  | .misw => netLabel aux
  | .shrt => netLabel netB
  | .xtra => pointLabel point
  | .insl => if netB ≠ 0 then .net netB else pointLabel point
  | .brkd => .nothing
  | .arc => .nothing

/-- The text of a label that memory does not give (R161). -/
def LabelOf.plain : LabelOf → Text
  | .nothing => []
  | .net n => chars ['N'] ++ decimal4 n
  | .point p => chars ['P'] ++ decimal4 p

/-- Where memory holds a label's text, and its words (R161). -/
def Dev.labelPlace (l : LabelOf) (d : Dev) : Option (Nat × Nat) :=
  match l with
  | .nothing => none
  | .point p =>
    match d.reader.bind with
    | some b => if b.labelOff ≠ 0 ∧ p < 4096 then some (b.labelOff + 12 * p, 3) else none
    | none => none
  | .net n =>
    if d.nets.tablesValid && decide (n ≤ d.nets.count) then
      (match (d.nets.net n).name with
       | some off => some (off, 4)
       | none => none)
    else none

/-- A label's text from the words read (R161). -/
def LabelOf.read (l : LabelOf) (ws : List Word) : Text :=
  let t := textOf (ws.flatMap wordBytes)
  if t.isEmpty then l.plain else t

/-! ## Lines (R159, R164) -/

/-- A text of more than w characters is cut (R159). -/
def cut (w : Nat) (t : Text) : Text := if w < t.length then t.take (w - 1) ++ [tilde] else t

/-- A field's text in its window (R159). -/
def putField (x : Window) (t : Text) (cells : Text) : Text :=
  let w := x.last - x.first + 1
  let s := cut w t
  let pad := List.replicate (w - s.length) space
  cells.take x.first ++ (if x.right then pad ++ s else s ++ pad) ++ cells.drop (x.last + 1)

/-- Trailing spaces are dropped (R159). -/
def trimEnd : Text → Text
  | [] => []
  | c :: cs =>
    match trimEnd cs with
    | [] => if c = space then [] else [c]
    | d :: ds => c :: d :: ds

/-- The texts of the six fields of an entry, in the order of the windows (R160). -/
def fieldTexts (ws : List Word) (ta tb : Text) (base : Nat) : List Text :=
  let w := fun i => ws.getD i 0
  match dkindOf (b0 (w 0)) with
  | none => [chars ['?', '?', '?', '?'], [], [], [], [], []]
  | some k => [k.text, ta, tb, valueText k (w 1) (w 4) base, decimal (hi (w 1)), hex8 (w 6)]

/-- A window is written on this line. -/
def Window.on (x : Window) (line : Nat) : Bool := x.shown && decide (x.line = line)

def putFields : List Window → List Text → Nat → Text → Text
  | x :: xs, t :: ts, line, cells => putFields xs ts line (if x.on line then putField x t cells else cells)
  | _, _, _, cells => cells

/-- An entry line (R159). -/
def entryLine (l : Layout) (line : Nat) (texts : List Text) : Text :=
  trimEnd (putFields l.windows texts line (List.replicate l.width space))

/-- Lines per entry (R158). -/
def Layout.lines (l : Layout) : Nat := l.windows.foldl (fun n x => if x.shown then max n (x.line + 1) else n) 1

/-- The title line (R164). -/
def titleLine (l : Layout) (tag : Word) (live : Nat) : Text :=
  let r := hex8 tag ++ chars [' ', 'L', 'I', 'V', 'E', ' '] ++ decimal live
  let start := l.width - r.length
  let t := cut (start - 1) (l.title.map printable)
  t ++ List.replicate (start - t.length) space ++ r

/-- The footer line (R164). -/
def footerLine (printed : Nat) : Text := chars ['E', 'N', 'D', ' '] ++ decimal printed

/-- A spool record of 16 words (R170). -/
def spoolRecord (t : Text) : List Word :=
  let s := if 63 < t.length then t.take 62 ++ [tilde] else t
  packBytes ((BitVec.ofNat 8 s.length :: s) ++ List.replicate (63 - s.length) 0)

/-! ## Taking a PRINT (R155, R156) -/

/-- The first check of R156 that fails. -/
def Dev.printFault (o : Order) (d : Dev) : Option Code :=
  let first := lo (o.param 0)
  let count := hi (o.param 0)
  let dest := b0 (o.param 1)
  let noSpool := match d.reader.bind with
    | some b => decide (b.spoolOff = 0)
    | none => true
  if dest ≠ 1 ∧ dest ≠ 2 then some .badParameter
  else if d.mgr.binding ≠ .bound then some .badParameter
  else if dest = 1 ∧ d.cfg.print.portOn = false then some .portOff
  else if dest = 2 ∧ noSpool = true then some .badParameter
  else if count ≠ 0 ∧ d.mgr.used ≤ first then some .badParameter
  else none

/-- The end of the print range (R155). -/
def rangeStop (first count used : Nat) : Nat :=
  if count = 0 then max first used else min (first + count) used

/-- A PRINT begins, its range fixed (R155); one to SPOOL has the reader write its 0 spool lines (R170). A first index or a
count past its stated values is taken as it is; DESIGN CHOICE (log 58). -/
def Dev.startPrint (o : Order) (d : Dev) : Dev :=
  let f := o.param 1
  let first := lo (o.param 0)
  match d.printFault o with
  | some c => (d.onFmt fun _ => { Fmt.reset with first := first, cursor := first }).push [.endOrder .refused c]
  | none =>
    let spool := decide (b0 f = 2)
    let d1 := { d with
      fmt := { Fmt.reset with
        state := .formatting
        toSpool := spool
        title := bitAt f 8
        footer := bitAt f 9
        withAbsorbed := bitAt f 10
        first := first
        stop := rangeStop first (hi (o.param 0)) d.mgr.used
        cursor := first
        part := .title
        layout := d.cfg.print }
      reader := { d.reader with spoolLines := if spool then 0 else d.reader.spoolLines } }
    (if spool then d1.writeStatus spoolAt else d1).push [.fmtNext]

/-! ## The transmitter (R166) -/

/-- A character may begin. -/
def Dev.mayBegin (d : Dev) : Bool := d.pins.printerReady && !d.pins.paperOut && d.cfg.print.portOn

/-- The next character begins if it may; otherwise HOLD. -/
def Dev.beginChar (d : Dev) : Dev :=
  if d.mayBegin then d.onTx fun t => { t with state := .sending, rate := d.cfg.print.rate }
  else d.onTx fun t => { t with state := .hold }

/-- In HOLD the next character begins if it may now begin. -/
def Dev.retryChar (d : Dev) : Dev := if d.tx.state = .hold ∧ d.mayBegin = true then d.beginChar else d

/-- A line joins the queue (R165, R166). -/
def Dev.joinQueue (t : Text) (d : Dev) : Dev :=
  let d1 := d.onTx fun x => { x with queue := x.queue ++ [t] }
  if d.tx.state = .idle then (d1.onTx fun x => { x with pos := 0 }).beginChar else d1

/-- Characters of a line on the port: its text, CR and LF. -/
def portLine (t : Text) : Text := t ++ [0x0D, 0x0A]

/-- The character on the output, or the next to be sent. -/
def Tx.char (t : Tx) : Option Byte := (portLine (t.queue.headD []))[t.pos]?

/-- After lines have left the queue: IDLE, or the next line's first character. -/
def Dev.nextLine (drained : Bool) (d : Dev) : Dev :=
  if d.tx.queue.isEmpty then
    (let d1 := d.onTx fun t => { t with state := .idle, pos := 0 }
     if drained then d1.raise srcDrained else d1)
  else (d.onTx fun t => { t with pos := 0 }).beginChar

/-- A character's frame ends in SENDING (R166, R168, R172). -/
def Dev.charEnd (d : Dev) : Dev :=
  if d.tx.discard ≠ 0 then
    (d.onTx fun t => { t with queue := t.queue.drop t.discard, discard := 0 }).nextLine false
  else if d.tx.pos + 1 < (portLine (d.tx.queue.headD [])).length then
    (d.onTx fun t => { t with pos := t.pos + 1 }).beginChar
  else (d.onTx fun t => { t with queue := t.queue.drop 1 }).nextLine true

/-- The queue has room for a line (R165). -/
def Tx.room (t : Tx) : Bool := decide (t.fill < Config.printQueueLines)

/-- A formatter WAITING goes on when a line has left (R165). -/
def Dev.wakeRoom (d : Dev) : Dev :=
  if d.wait = .room ∧ d.tx.room = true then (d.onFmt fun f => { f with state := .formatting }).proceed else d

/-! ## The formatter (R157, R169, R170) -/

/-- The part in progress, past the parts that give no line. -/
def Fmt.normal (f : Fmt) : Fmt :=
  match f.part with
  | .title =>
    if f.title then f
    else if f.cursor < f.stop then { f with part := .entries }
    else if f.footer then { f with part := .footer }
    else { f with part := .over }
  | .entries =>
    if f.cursor < f.stop then f else if f.footer then { f with part := .footer } else { f with part := .over }
  | .footer => if f.footer then f else { f with part := .over }
  | .over => f

/-- The order's next line waits to be built, or the PRINT ends (R157, R165). -/
def Dev.fmtNext (d : Dev) : Dev :=
  let f := d.fmt.normal
  let d1 := d.onFmt fun _ => { f with state := .formatting }
  if f.part = .over then d1.push [.endOrder .done .done] else { d1.push [.fmtBegin] with wait := .format }

/-- The spool has no room for another line (R170). -/
def Dev.spoolFull (d : Dev) : Bool :=
  d.fmt.toSpool &&
    (match d.reader.bind with
     | some b => decide (b.spoolCap ≤ d.fmt.lines)
     | none => true)

/-- A line is built unless the spool is full (R170, log 23). -/
def Dev.unlessFull (f : Dev → Dev) (d : Dev) : Dev := if d.spoolFull then d.failOrder .spoolFull else f d

/-- The line goes to the line buffer, then to its destination. -/
def Dev.buffer (t : Text) (d : Dev) : Dev := (d.onFmt fun f => { f with buf := t }).push [.fmtPlace]

/-- The next line is begun (R157): the title, the entry as memory holds it, or the footer. -/
def Dev.fmtBegin (d : Dev) : Dev :=
  let f := d.fmt.normal
  let d1 := d.onFmt fun _ => f
  match f.part with
  | .title => d1.unlessFull (Dev.buffer (titleLine f.layout d.tag d.mgr.live))
  | .entries => d1.clearBuf.push [.read (d.mgr.entryOff f.cursor) 8, .fmtEntry]
  | .footer => d1.unlessFull (Dev.buffer (footerLine f.printed))
  | .over => d1.push [.endOrder .done .done]

/-- The entry has been read (R157). -/
def Dev.fmtEntry (d : Dev) : Dev :=
  let ws := d.rbuf
  let d1 := d.clearBuf
  if d.fmt.line = 0 ∧ b1 (d.word 0) = 2 ∧ d.fmt.withAbsorbed = false then
    (d1.onFmt fun f => { f with cursor := f.cursor + 1, skipped := f.skipped + 1 }).push [.fmtBegin]
  else d1.unlessFull fun x => (x.onFmt fun f => { f with entry := ws, textA := [], textB := [] }).push [.fmtLabelA]

/-- The two label fields of the entry read. -/
def Fmt.label (second : Bool) (f : Fmt) : LabelOf :=
  let w := fun i => f.entry.getD i 0
  match dkindOf (b0 (w 0)) with
  | none => .nothing
  | some k =>
    if second then labelB k (lo (w 2)) (hi (w 2)) (lo (w 3)) (w 5).toNat else labelA k (lo (w 2)) (lo (w 3))

/-- The label is shown on the line in progress: windows 1 and 2 (R158). -/
def Fmt.showsLabel (second : Bool) (f : Fmt) : Bool :=
  match f.layout.windows[if second then 2 else 1]? with
  | some x => x.on f.line
  | none => false

/-- A label's text: read from memory, or plain (R161). -/
def Dev.fmtLabel (second : Bool) (got next : Task) (set : Text → Fmt → Fmt) (d : Dev) : Dev :=
  let l := d.fmt.label second
  if d.fmt.showsLabel second then
    match d.labelPlace l with
    | some (off, n) => d.clearBuf.push [.read off n, got]
    | none => (d.onFmt (set l.plain)).push [next]
  else d.push [next]

def Fmt.setA (t : Text) (f : Fmt) : Fmt := { f with textA := t }
def Fmt.setB (t : Text) (f : Fmt) : Fmt := { f with textB := t }

def Dev.fmtLabelA (d : Dev) : Dev := d.fmtLabel false .fmtGotA .fmtLabelB Fmt.setA
def Dev.fmtLabelB (d : Dev) : Dev := d.fmtLabel true .fmtGotB .fmtBuild Fmt.setB

def Dev.fmtGotA (d : Dev) : Dev := (d.onFmt (Fmt.setA ((d.fmt.label false).read d.rbuf))).clearBuf.push [.fmtLabelB]
def Dev.fmtGotB (d : Dev) : Dev := (d.onFmt (Fmt.setB ((d.fmt.label true).read d.rbuf))).clearBuf.push [.fmtBuild]

/-- The counter that picks the free values of the order in progress. -/
def Dev.freeBase (d : Dev) : Nat :=
  match d.reader.order with
  | some o => o.freeBase
  | none => d.free

def Dev.fmtBuild (d : Dev) : Dev :=
  let f := d.fmt
  d.buffer (entryLine f.layout f.line (fieldTexts f.entry f.textA f.textB d.freeBase))

/-- The line has been accepted (R157): the counts grow and the next line follows. -/
def Fmt.accept (f : Fmt) : Fmt :=
  let g := { f with lines := f.lines + 1, buf := [], state := .formatting }
  match f.part with
  | .title => { g with part := .entries }
  | .entries =>
    let h := { g with printed := g.printed + (if f.line = 0 then 1 else 0) }
    if f.line + 1 < f.layout.lines then { h with line := f.line + 1 } else { h with line := 0, cursor := f.cursor + 1 }
  | .footer => { g with part := .over }
  | .over => g

/-- After a line: the last one ends the PRINT, any other is a safe point (R165, R169, log 34). -/
def Dev.lineDone (d : Dev) : Dev :=
  let d1 := d.onFmt Fmt.accept
  if d1.fmt.normal.part = .over then d1.push [.fmtNext] else d1.push [.safe, .fmtNext]

/-- The line is handed to its destination (R165, R170). A HALT or ABORT that came in FORMATTING and whose line then finds the
queue full stops the PRINT at once, the line discarded, as one that comes in WAITING does (R169); DESIGN CHOICE (log 70). -/
def Dev.fmtPlace (d : Dev) : Dev :=
  if d.fmt.toSpool then
    match d.reader.bind with
    | some b => d.push [.write (b.spoolOff + 64 * d.fmt.lines) (spoolRecord d.fmt.buf), .fmtSpooled]
    | none => d
  else if d.tx.room then (d.joinQueue d.fmt.buf).lineDone
  else if d.stopWanted then (d.onFmt fun f => { f with buf := [] }).push [.safe, .fmtNext]
  else { (d.onFmt fun f => { f with state := .waiting }).push [.fmtPlace] with wait := .room }

/-- The record is written: spool lines written grows (R170). -/
def Dev.fmtSpooled (d : Dev) : Dev :=
  (d.onReader fun r => { r with spoolLines := r.spoolLines + 1 }).lineDone

/-! ## Resets (R172) -/

/-- A soft reset at the printer port: a character in progress completes its frame, and its line is marked to leave then; the
lines of which no character is being sent leave at once, so that none of them is counted or sent (R172, log 24). -/
def Tx.softReset (t : Tx) : Tx :=
  if t.state = .sending then { t with queue := t.queue.take 1, discard := (t.queue.take 1).length } else { t with queue := [], state := .idle, pos := 0, discard := 0 }

end Sys2Proof.Machine
end

