-- ==== Sys2Proof/Machine/Orders.lean ====
section
/-! DEFINITION. The order reader (chapter 10): START, the take, result sections, the end and pause of an order, links and
watched words, HALT, RESUME and ABORT, CONFIGURE, MARK and MEASURE's checks. -/

namespace Sys2Proof.Machine

/-! ## Result sections (R203, R205) -/

/-- The completion word: code, unzeroed, clamped (R203). -/
def completionWord (code : Nat) (unzeroed clamped : Bool) : Word := loHi code (flagAt unzeroed 0 + flagAt clamped 1)

/-- A field that its order has not formed is free (log 13). -/
def formed (base i : Nat) (w : Option Word) : Word := w.getD (Config.freeWord base i)

/-- A free word cut to the bits its fields name (R202). -/
def freeMasked (mask : Word) (base i : Nat) : Word := Config.freeWord base i &&& mask

/-- A free choice among the values that a field lists (R202). -/
def freeAmong (vs : List Nat) (base i : Nat) : Nat := vs.getD ((Config.freeWord base i).toNat % vs.length) 0

/-- The completion codes that the section of each kind lists: R91, R101, R141 and R171 for SWEEP, LEARN, INSULATE and PRINT,
with the refusal codes of their checks; for the others those that their rules give (log 13). -/
def Kind.codes : Kind → List Code
  | .configure => [.done, .badParameter, .limitOrder, .badLayout]
  | .mark => [.done]
  | .park => [.done, .aborted, .dischargeFault]
  | .unpark => [.done, .aborted, .selfcheckFail, .dischargeFault]
  | .zero => [.done, .aborted, .matrixFault, .zeroRange, .dischargeFault]
  | .measure =>
    [.done, .aborted, .matrixFault, .matrixParked, .dischargeFault, .badParameter, .samePoint, .pointUnfitted]
  | .sweep =>
    [.done, .doneDefects, .aborted, .matrixFault, .matrixParked, .netlistSize, .badParameter, .pointUnfitted, .netlistBounds,
     .netEmpty, .netTooLarge, .pointDuplicate, .limitOrder]
  | .learn => [.done, .aborted, .matrixFault, .matrixParked, .learnCapacity, .netlistSize, .badParameter]
  | .insulate =>
    [.done, .doneDefects, .aborted, .matrixFault, .matrixParked, .sourceFault, .dischargeFault, .hvLockout, .noGroupMap]
  | .print => [.done, .aborted, .spoolFull, .badParameter, .portOff]

/-- The completion code that a pause writes is free among those of the order's kind (log 13). -/
def Order.pauseCode (o : Order) : Nat :=
  match o.kind with
  | some k => freeAmong (k.codes.map Code.toNat) o.freeBase 0
  | none => 0

/-- The words of a result section after the completion word (R205). All of them are written at every end and pause (R181), those
of an UNPARK that has made no self-check record, or whose record an ABORT kept from being written (R17, R22), with free values;
DESIGN CHOICE (log 13). -/
def Dev.resultTail (k : Kind) (base : Nat) (d : Dev) : List Word :=
  let p := d.prog
  match k with
  | .configure => [bytes4 p.applied p.failing 0 0]
  | .mark => []
  | .park => [wordOf (flagAt p.already 0), formed base 2 p.parkMask]
  | .unpark =>
    [wordOf (flagAt p.already 0), formed base 2 p.present, formed base 3 p.fault,
     p.flags.getD (freeMasked 15 base 4), formed base 5 p.check, p.compare.getD (freeMasked 1 base 6)]
  | .zero =>
    [zeroWord base 1 (p.zres.getD 0 none), zeroWord base 2 (p.zres.getD 1 none), zeroWord base 3 (p.zres.getD 2 none),
     zeroWord base 4 (p.zres.getD 3 none), zeroWord base 5 (p.zres.getD 4 none), zeroWord base 6 (p.zres.getD 5 none),
     match p.zfirst with
     | some r => wordOf r.code
     | none => wordOf (freeAmong [0, 1, 2, 3, 4, 5, 6] base 7)]
  | .measure =>
    (match p.mres with
     | some a => [valueField a.r, wordOf (a.rng.code + flagAt a.sat 8), BitVec.ofInt 32 a.sum]
     | none =>
       [Config.freeWord base 1, wordOf (freeAmong [0, 1, 2, 3] base 2 + flagAt (bitAt (Config.freeWord base 2) 8) 8),
        Config.freeWord base 3])
  | .sweep =>
    let s := d.sweep
    let c := fun i => sat16 ((s.new ++ s.merged).getD i 0)
    [bytes4 s.stage 0 (s.cursor % 256) (s.cursor / 256), loHi s.refNet (pointField s.refPoint),
     loHi (sat16 s.tested) (sat16 d.nets.goodCount), loHi (c 0) (c 1), loHi (c 2) (c 3), loHi (c 4) (c 5),
     loHi (c 6) (c 7), loHi (c 8) (c 9), loHi (sat16 s.dropped) (sat16 s.truncated), wordOf s.probes]
  | .learn =>
    let l := d.learn
    [bytes4 d.sweep.stage 0 (l.cursor % 256) (l.cursor / 256), loHi (sat16 l.nets) (sat16 l.assigned), wordOf l.used,
     loHi (sat16 l.singles) (sat16 l.oversize), loHi (sat16 l.unresolved) 0, wordOf l.probes]
  | .insulate =>
    let s := d.ins
    let r := match s.reason with
      | .none => 0
      | .halt => 1
      | .interlock => 2
    [bytes4 s.step r (s.cursor % 256) (s.cursor / 256), loHi (sat16 s.tested) (sat16 s.skipped),
     loHi (sat16 s.passed) (sat16 s.failed), loHi (sat16 s.new) (sat16 s.merged),
     loHi (sat16 s.dropped) (sat16 s.truncated), loHi (sat16 s.probes) (sat16 s.maxArc)]
  | .print =>
    let f := d.fmt
    [loHi (sat16 f.cursor) (sat16 f.lines), loHi (sat16 f.printed) (sat16 f.skipped)]

/-- A whole result section, with a completion code (R181, R203). -/
def Dev.resultWords (o : Order) (code : Nat) (d : Dev) : List Word :=
  completionWord code o.unzeroed o.clamped ::
    (match o.kind with
     | some k => d.resultTail k o.freeBase
     | none => [])

/-! ## The end and the pause of an order (R181) -/

/-- The order takes a status, and new free values for the section now written (log 13); a PAUSED order that ends keeps
those of its pause (R185). -/
def Dev.setStatus (st : OStatus) (d : Dev) : Dev :=
  { d.onOrder fun o => { o with status := st, freeBase := if o.status = .paused then o.freeBase else d.free } with
    free := d.free + 1 }

/-- A SWEEP that fails or pauses leaves the map-valid flag clear at every stage, a clearing before its validation too (R60,
R87, R185). -/
def Dev.mapUnfinished (d : Dev) : Dev := if d.kind = some .sweep then d.onNets fun t => { t with mapValid := false } else d

/-- What an ending order held of other blocks is given back: a failure clears the search (R86) and leaves the map not valid
(R60), a ZERO leaves the measurement unit (R32), an INSULATE the HV controller (R139). -/
def Dev.releaseOwner (st : OStatus) (d : Dev) : Dev :=
  let d1 := if st = .failed then (d.onSearch Search.clear).mapUnfinished else d
  let d2 := if d.kind = some .zero then d1.onMu MeasUnit.cancel else d1
  d2.onHv fun h => { h with ask := .none, pauseMark := h.pauseMark && decide (d.kind ≠ some .insulate) }

/-- The owner returns to IDLE once its result section is written (R80, R89, R100, R131, R139, R165); that it does so before
the status is issued is a DESIGN CHOICE (log 66). -/
def Dev.ownerIdle (d : Dev) : Dev :=
  ((d.onSweep fun s => { s with state := .idle }).onIns fun s => { s with state := .idle, locPhase := .none }).onFmt
    fun f => { f with state := .idle, buf := [] }

/-- The words a final or PAUSED status is written with: the result section, then the header word (R177, R181), with what
stands between the two. -/
def Dev.statusTasks (o : Order) (code : Nat) (between : List Task) (d : Dev) : List Task :=
  .write o.resultOff (d.resultWords o code) :: between ++ [.write o.off [o.header o.status false]]

/-- An owner ends its order: the section, the owner IDLE, the status (R181). -/
def Dev.endOrder (st : OStatus) (c : Code) (d : Dev) : Dev :=
  let d1 := (d.setStatus st).releaseOwner st
  match d1.reader.order with
  | some o => d1.goto (d1.statusTasks o c.toNat [.ownerIdle] ++ [.finish])
  | none => d1

/-- The reader enters HALTED with a resume point; CHAIN is raised. -/
def Dev.haltAt (r : Resume) (d : Dev) : Dev :=
  (d.onReader fun x => { x with state := .halted, resume := some r, watch := none, haltPending := false, ending := none }).raise
    srcChain

/-- The order is final: ORDER, then the halt or the link (R181). -/
def Dev.finish (d : Dev) : Dev :=
  match d.reader.order with
  | none => d
  | some o =>
    let d1 := d.onReader fun r => { r with lastOff := o.off }
    let d2 := if o.notify then d1.raise srcOrder else d1
    if o.status = .failed ∨ (o.status = .doneDefects ∧ o.stopOnDefect = true) ∨ d.reader.haltPending = true ∨
        d.reader.ending = some .aborted then
      (d2.onReader fun r => { r with lastError := if o.status = .failed then .orderFailed else r.lastError }).haltAt
        (.word (.link (o.off + 4)))
    else (d2.onReader fun r => { r with ending := none }).clearBuf.push [.read (o.off + 4) 1, .linkGot]

/-- The owner pauses (R86, R87, R137, R169). -/
def Dev.pauseOwner (d : Dev) : Dev :=
  let d1 := (d.onSearch fun s => { s with state := if s.state = .searching then .suspended else s.state }).mapUnfinished
  match d.kind with
  | some .sweep => d1.onSweep fun s => { s with state := .paused }
  | some .learn => d1.onSweep fun s => { s with state := .paused }
  | some .insulate =>
    d1.onIns fun s => { s with state := .paused, reason := if s.reason = .none then .halt else s.reason }
  | some .print => d1.onFmt fun f => { f with state := .paused }
  | some .zero => d1.onMu MeasUnit.cancel
  | _ => d1

/-- A pause at a safe point: the steps still to do are kept; the code of a pause is free (R181, log 13). -/
def Dev.pause (d : Dev) : Dev :=
  let d1 := (d.setStatus .paused).pauseOwner
  match d1.reader.order with
  | some o => { d1 with saved := d.tasks }.goto (d1.statusTasks o o.pauseCode [] ++ [Task.paused])
  | none => d1

/-- PAUSED is written: HALTED with the order as resume point (R181). -/
def Dev.paused (d : Dev) : Dev := d.haltAt .order

/-- A safe point (R183, R185, R113): the order ends, pauses, or goes on. -/
def Dev.safe (d : Dev) : Dev :=
  match d.reader.ending with
  | some c => d.failOrder c
  | none =>
    if d.reader.haltPending || (decide (d.kind = some .insulate) && decide (d.ins.reason = .interlock)) then d.push [.pause]
    else d

/-- ZERO's safe point: it resumes at its first collection (R43). -/
def Dev.zeroSafe (d : Dev) : Dev :=
  match d.reader.ending with
  | some c => d.failOrder c
  | none => if d.reader.haltPending then d.goto [.pause, .zeroRun] else d

/-! ## Links and watched words (R180, R182) -/

def Watch.off : Watch → Nat
  | .link off => off
  | .chainHead => 4
  | .header off => off

/-- An offset that may hold a header: a multiple of 4, at or after 0x080, its three words within test memory (R175, R182). -/
def headerFits (w memEnd : Nat) : Bool := decide (w % 4 = 0) && decide (0x80 ≤ w) && decide (w + 12 ≤ memEnd)

/-- The reader goes to a header: it waits to read, check and take it (R178). -/
def Dev.reach (off : Nat) (d : Dev) : Dev :=
  { d.onReader fun r => { r with state := .running, curOff := off, watch := none } with wait := .take }

/-- WAITING at a watched word (R180). -/
def Dev.watchWord (w : Watch) (d : Dev) : Dev :=
  d.onReader fun r =>
    { r with
      state := .waiting
      watch := some w
      curOff := match w with
        | .link _ => r.curOff
        | .chainHead => 0
        | .header off => off }

/-- The finished order is released: its header word again, with the release mark (R182). -/
def Dev.release (d : Dev) : Dev :=
  match d.reader.order with
  | some o => (d.post o.off [o.header o.status true]).onReader fun r => { r with order := none }
  | none => d

/-- A link word, or the chain head, is followed (R180, R182). -/
def Dev.followLink (w : Word) (src : Watch) (d : Dev) : Dev :=
  if w = 0 then d.watchWord src
  else if headerFits w.toNat d.memEnd then (d.release).reach w.toNat
  else (d.onReader fun r => { r with lastError := .badLink }).haltAt (.word src)

/-- The link of the finished order has been read (R181, R183). -/
def Dev.linkGot (d : Dev) : Dev :=
  match d.reader.order with
  | none => d
  | some o =>
    let src := Watch.link (o.off + 4)
    if d.reader.haltPending then d.clearBuf.haltAt (.word src) else d.clearBuf.followLink (d.word 0) src

/-- A watched word is read again (R180, R184). -/
def Dev.reread (w : Watch) (d : Dev) : Dev := d.clearBuf.push [.read w.off 1, .rereadGot w]

/-- The value of a watched word that wakes the reader: a POSTED status in a header word, anything but 0 in a link or in the
chain head (R180). -/
def Watch.wakes (w : Watch) (x : Word) : Bool :=
  match w with
  | .header _ => isPosted x
  | .link _ => decide (x ≠ 0)
  | .chainHead => decide (x ≠ 0)

/-- The reader acts on the value read of a watched word (R180). -/
def Dev.followWord (w : Watch) (d : Dev) : Dev :=
  let d1 := d.clearBuf
  match w with
  | .header off => if isPosted (d.word 0) then d1.reach off else d1.watchWord w
  | .link _ => d1.followLink (d.word 0) w
  | .chainHead => d1.followLink (d.word 0) w

/-- What the reread finds (R180, R183). A reader that wakes is RUNNING first, a step of its own at whose end that state is
written to the status area (R174), and then acts on the word: what it finds there can halt it at once (R182). -/
def Dev.rereadGot (w : Watch) (d : Dev) : Dev :=
  if d.reader.state = .running ∧ d.reader.haltPending = true then d.clearBuf.haltAt (.word w)
  else if d.reader.state = .waiting ∧ w.wakes (d.word 0) = true then
    (d.onReader fun r => { r with state := .running, watch := none }).push [.woken w]
  else d.followWord w

/-! ## START (R173 to R176) -/

/-- Bytes of test memory by code (R173, R204). -/
def memoryBytes (code : Nat) : Option Nat :=
  match code with
  | 1 => some 262144
  | 2 => some 524288
  | 3 => some 1048576
  | 4 => some 2097152
  | 5 => some 4194304
  | _ => none

/-- A region's place within test memory (R175). -/
def regionFits (off bytes memEnd : Nat) : Bool :=
  decide (off % 4 = 0) && decide (0x80 ≤ off) && decide (off + bytes ≤ memEnd)

/-- The bindings the control block's eight words give (R173, R204). -/
def bindOf (ws : List Word) : Bind :=
  let w := fun i => (ws.getD i 0).toNat
  { memBytes := (memoryBytes (w 0)).getD 0, labelOff := w 4, compOff := w 5, spoolOff := w 6, spoolCap := w 7
    defOff := w 2, defCap := w 3 }

def chainHeadOf (ws : List Word) : Word := ws.getD 1 0

/-- The number of the first check of START that fails (R175). -/
def startFault (ws : List Word) : Option Nat :=
  let b := bindOf ws
  let h := (chainHeadOf ws).toNat
  if (memoryBytes (ws.getD 0 0).toNat).isNone then some 1
  else if b.defOff ≠ 0 ∧
      ¬(1 ≤ b.defCap ∧ b.defCap ≤ 1024 ∧ regionFits b.defOff (16 + 32 * b.defCap) b.memBytes = true) then some 2
  else if b.labelOff ≠ 0 ∧ regionFits b.labelOff 49152 b.memBytes = false then some 3
  else if b.compOff ≠ 0 ∧ regionFits b.compOff 8192 b.memBytes = false then some 4
  else if b.spoolOff ≠ 0 ∧
      ¬(1 ≤ b.spoolCap ∧ b.spoolCap ≤ 65535 ∧ regionFits b.spoolOff (64 * b.spoolCap) b.memBytes = true) then some 5
  else if h ≠ 0 ∧ headerFits h b.memBytes = false then some 6
  else none

/-- START in STOPPED with the control block's words (R175, R176). -/
def Dev.start (ws : List Word) (d : Dev) : Dev :=
  match startFault ws with
  | some n =>
    let d1 := d.onReader fun r => { r with lastError := .badControlBlock, startCheck := n }
    d1.post statusBase d1.statusWords
  | none =>
    { d.onReader fun r =>
        { r with lastError := .none, startCheck := 0, state := .running, bind := some (bindOf ws), earlyNotice := false }
      with tasks := d.tasks ++ [.bindTable, .image, .startEnd (chainHeadOf ws).toNat] }

/-- The whole status area is written (R174, R176). -/
def Dev.image (d : Dev) : Dev :=
  (d.onReader fun r => { r with imageLive := true }).push [.write statusBase d.statusWords]

/-- START's last step: HALTED, WAITING at the chain head, or the first header (R176, R193). -/
def Dev.startEnd (head : Nat) (d : Dev) : Dev :=
  if d.reader.haltPending then d.haltAt (.word .chainHead)
  else if head = 0 then
    (if d.reader.earlyNotice then
       (d.onReader fun r => { r with earlyNotice := false }).watchWord .chainHead |>.push [.reread .chainHead]
     else d.watchWord .chainHead)
  else d.reach head

/-! ## CONFIGURE, MEASURE (R187, R44) -/

def Dev.startConfigure (o : Order) (d : Dev) : Dev :=
  let c := configured o.param d.cfg
  let d1 := d.setClamped (configClamps o.param)
  match configFault o.param c with
  | some (code, n) => (d1.onProg fun p => { p with failing := n }).push [.endOrder .refused code]
  | none =>
    (({ d1 with cfg := c }.onProg fun p => { p with applied := b0 (o.param 0) % 16 }).retryChar).push [.endOrder .done .done]

/-- The range part of a MEASURE, or AUTO and DEFAULT (R44, R205). -/
def measureRange (o : Order) : Nat × Nat :=
  if bitAt (o.param 1) 0 then (b0 (o.param 2), b1 (o.param 2)) else (0, 0)

/-- The first check of R44 that fails. -/
def Dev.measureFault (o : Order) (d : Dev) : Option Code :=
  let a := lo (o.param 0)
  let b := hi (o.param 0)
  let r := measureRange o
  if (stimRange r.1).isNone ∨ countOk r.2 = false then some .badParameter
  else if 4095 < a ∨ 4095 < b then some .pointUnfitted
  else if a = b then some .samePoint
  else if d.mx.usable = false then some .matrixParked
  else if d.mx.present (cardOf a) = false ∨ d.mx.present (cardOf b) = false then some .pointUnfitted
  else none

def Dev.startMeasure (o : Order) (d : Dev) : Dev :=
  match d.measureFault o with
  | some c => d.push [.endOrder .refused c]
  | none =>
    let r := measureRange o
    (d.onProg fun p =>
      { p with
        ptA := lo (o.param 0), ptB := hi (o.param 0), ca := 0, cb := 0
        mrng := (stimRange r.1).getD .none, mn := if r.2 = 0 then d.cfg.n else r.2 }).push [.measA]

/-! ## The take (R178) -/

/-- The owner of a kind takes its order (R178). -/
def Dev.startOwner (k : Kind) (o : Order) (d : Dev) : Dev :=
  match k with
  | .configure => d.startConfigure o
  | .mark => d.push [.endOrder .done .done]
  | .park => d.push [.parkStart]
  | .unpark => d.push [.unparkStart]
  | .zero => d.push [.zeroStart]
  | .measure => d.startMeasure o
  | .sweep => d.startSweep o
  | .learn => d.startLearn o
  | .insulate => d.startInsulate o
  | .print => d.startPrint o

/-- The order context for a header word (R177, R178). -/
def contextOf (off : Nat) (hdr tag : Word) (ps : List Word) (st : OStatus) (byReader : Bool) (base : Nat) : Order where
  off := off
  kind := kindOf (b0 hdr)
  hdr := hdr
  tag := tag
  params := ps
  notify := bitAt hdr 8
  stopOnDefect := bitAt hdr 9
  clearDefects := bitAt hdr 10
  status := st
  byReader := byReader
  unzeroed := false
  clamped := false
  freeBase := base

/-- The reader itself refuses the order (R178). The refusal code and offset are issued to the status area before the header
word; DESIGN CHOICE (log 62). -/
def Dev.refuseByReader (c : Code) (off : Nat) (hdr : Word) (d : Dev) : Dev :=
  let o := contextOf off hdr 0 [] .refused true d.free
  (d.onReader fun r => { r with refCode := c.toNat, refOff := off, order := some o }).push
    [.write off [o.header .refused false], .finish]

/-- What the words of a posted order say: refused by the reader, or taken with its parameter section (R178). -/
def orderCheck (peek : Nat → Word) (off memEnd : Nat) (hdr : Word) : Except Code (Kind × List Word) :=
  match kindOf (b0 hdr) with
  | none => .error .unknownKind
  | some k =>
    let words := fun n => (List.range n).map fun i => peek (off + 12 + 4 * i)
    if memEnd < off + 12 + 4 * k.fixedWords then .error .orderBounds
    else
      let n := k.paramWords (words k.fixedWords)
      if memEnd < off + 12 + 4 * (n + k.resultWords) then .error .orderBounds else .ok (k, words n)

/-- The reader reads, checks and takes the order at the header it has reached (R178). -/
def Dev.takeOrder (peek : Nat → Word) (d0 : Dev) : Dev :=
  let d := d0.proceed
  let off := d.reader.curOff
  let hdr := peek off
  if d.reader.haltPending then d.haltAt (.reading off)
  else if !isPosted hdr then d.watchWord (.header off)
  else
    match orderCheck peek off d.memEnd hdr with
    | .error c => d.refuseByReader c off hdr
    | .ok (k, ps) =>
      let o := contextOf off hdr (peek (off + 8)) ps .taken false d.free
      ({ (d.onReader fun r => { r with order := some o, ending := none }).post off [o.header .taken false] with
          prog := .reset, free := d.free + 1 }).startOwner k o

/-- The words the take reads (R178), for the last-grant marker (log 9). -/
def Dev.takeReads (peek : Nat → Word) (d : Dev) : List Nat :=
  let off := d.reader.curOff
  let hdr := peek off
  if d.reader.haltPending || !isPosted hdr then [off]
  else
    match orderCheck peek off d.memEnd hdr with
    | .error .unknownKind => [off]
    | .error _ => off :: (match kindOf (b0 hdr) with
        | some k =>
          if d.memEnd < off + 12 + 4 * k.fixedWords then []
          else (List.range k.fixedWords).map fun i => off + 12 + 4 * i
        | none => [])
    | .ok (_, ps) => off :: (off + 8) :: (List.range ps.length).map fun i => off + 12 + 4 * i

/-! ## Run commands (R183 to R185) -/

/-- The accesses left when the thread is given up (R63, R186, log 37): the writes no block waits for, and of the run in
progress the burst that is asked for next, if it is a write. -/
def orphanBursts : List Burst → List Burst
  | [] => []
  | b :: bs =>
    if b.mine then (if b.data.isSome then [{ b with mine := false }] else []) ++ bs.filter (!·.mine)
    else b :: orphanBursts bs

/-- The thread's work is given up (R186). -/
def Dev.dropThread (d : Dev) : Dev :=
  { d with tasks := [], wait := .run, rbuf := [], saved := [], engineQ := orphanBursts d.engineQ }

/-- A HALT, an ABORT or a discharge fault reaches the running order where it need not wait for the end of a unit of work
(R8, R15, R17, R18, R22, R117, R137, R169); anywhere else the next safe point sees it. A ZERO that waits for PARKED is seen
when PARKED is reached, an UNPARK that waits for it at once; DESIGN CHOICE (log 17). A PARK that waits in READY for a park of
a soft reset clears the mark, as one that waits at its own gate does; DESIGN CHOICE (log 18). A PARK that waits in SETTING, HELD
or UNPARKING is seen when PARKED is reached, the park-pending mark kept, as R15 has it in PARKING; DESIGN CHOICE (log 17). A
discharge fault ends an order whose
ramp request is held with DISCHARGE_FAULT, not with the HV_LOCKOUT of a check made again; DESIGN CHOICE (log 53). -/
def Dev.stopArrives (fault : Bool) (d : Dev) : Dev :=
  match d.wait with
  | .setup =>
    if d.mx.phase = .heldOpening ∨ d.mx.phase = .heldClosing then
      (if d.mx.requester then d.dropSetup.goto (.safe :: .setup d.mx.reqTarget :: d.tasks) else d)
    else d
  | .parkGate => (d.onMx fun m => { m with parkPending := false }).goto [.safe, .parkStart]
  | .forParked =>
    if d.kind = some .unpark then d.goto [.safe, .unparkStart]
    else if d.kind = some .park ∧ d.mx.state = .ready then
      (d.onMx fun m => { m with parkPending := false }).goto [.safe, .parkStart]
    else d
  | .unparkGate => d.goto [.safe, .unparkStart]
  | .unparking =>
    if d.reader.ending.isNone then d
    else if d.mx.phase = .unparkSettle then d.unparkStop
    else d.onMx fun m => { m with stopUnpark := true }
  | .ramp => d.abandonStep
  | .dwell => d.abandonStep
  | .meas => if d.energized then d.abandonStep else d
  | .room => (d.onFmt fun f => { f with buf := [] }).goto [.safe, .fmtNext]
  | .rampHeld => if fault then d.goto (.safe :: d.tasks) else d
  | _ => d

/-- HALT (R183). -/
def Dev.halt (d : Dev) : Dev :=
  match d.reader.state with
  | .running =>
    if d.reader.haltPending then d
    else
      let d1 := d.onReader fun r => { r with haltPending := true }
      if d.inFlight then d1.stopArrives false else d1
  | .waiting =>
    match d.reader.watch with
    | some w => d.dropThread.haltAt (.word w)
    | none => d
  | .stopped => d
  | .halted => d

/-- The step that a number of the insulation engine's step field names (R123). -/
def insStateOf (n : Nat) : InsState :=
  match n with
  | 0 => .init
  | 1 => .setup
  | 2 => .check
  | 3 => .ramp
  | 4 => .dwell
  | 5 => .window
  | 6 => .evaluate
  | 7 => .locate
  | _ => .discharge

/-- The stage that a stage number names (R67). -/
def swStateOf (n : Nat) : SwState :=
  match n with
  | 0 => .validate
  | 1 => .member
  | 2 => .whereis
  | 3 => .isolate
  | _ => .close

/-- The owner of a PAUSED order returns to its step (R88, R102, R138, R169). -/
def Dev.resumeOwner (d : Dev) : Dev :=
  let d1 := d.onSearch fun s => { s with state := if s.state = .suspended then .searching else s.state }
  match d.kind with
  | some .sweep => d1.onSweep fun s => { s with state := swStateOf s.stage }
  | some .learn => d1.onSweep fun s => { s with state := swStateOf s.stage }
  | some .insulate =>
    (d1.onIns fun s => { s with state := insStateOf s.step, reason := .none }).onHv fun h => { h with pauseMark := false }
  | some .print => d1.onFmt fun f => { f with state := .formatting }
  | _ => d1

/-- A RESUME that the open interlock refuses (R184). -/
def Dev.resumeRefused (d : Dev) : Bool :=
  decide (d.kind = some .insulate) && decide (d.ins.reason = .interlock) && d.hv.openRec

/-- RUNNING again, with no last error (R184). -/
def Dev.running (d : Dev) : Dev := d.onReader fun r => { r with state := .running, lastError := .none, resume := none }

/-- RESUME (R184). -/
def Dev.resume (d : Dev) : Dev :=
  if d.reader.state ≠ .halted then d
  else
    match d.reader.resume with
    | none => d
    | some .order =>
      if d.resumeRefused then d.onReader fun r => { r with lastError := .interlockOpen }
      else
        match d.reader.order with
        | some o =>
          { ((d.running.onOrder fun x => { x with status := .taken }).post o.off [o.header .taken false]).resumeOwner with
            tasks := d.saved, saved := [], wait := .run }
        | none => d
    | some (.word w) => d.running.goto [.reread w]
    | some (.reading off) => d.running.reach off

/-- The held order, if it is in this status. -/
def Dev.orderIs (st : OStatus) (d : Dev) : Bool :=
  match d.reader.order with
  | some o => decide (o.status = st)
  | none => false

/-- ABORT (R185). While a pause is being written it takes precedence: what of the pause has not been issued is not written,
and the order ends FAILED. The reader of an aborted PAUSED order stays HALTED, with nothing for a RESUME to act on, until the
section and the status are written; DESIGN CHOICE (log 49). -/
def Dev.abort (d : Dev) : Dev :=
  match d.reader.state with
  | .running =>
    if d.orderIs .taken then
      (if d.reader.ending = some .aborted then d
       else (d.onReader fun r => { r with ending := some .aborted }).stopArrives false)
    else if d.orderIs .paused then
      { d.onReader fun r => { r with ending := some .aborted } with tasks := [.endOrder .failed .aborted], saved := [] }
    else d.halt
  | .halted =>
    if d.orderIs .paused && decide (d.reader.resume = some .order) then
      ({ d.onReader fun r => { r with resume := none } with saved := [] }).goto [.endOrder .failed .aborted]
    else d
  | .waiting => d
  | .stopped => d

/-- A discharge fault reaches the reader: the running order is to end FAILED with DISCHARGE_FAULT (R113). An order whose pause
is being written is PAUSED to it and does not end; DESIGN CHOICE (log 51). -/
def Dev.faultArrives (d : Dev) : Dev :=
  if d.reader.state = .running ∧ d.inFlight = true ∧ d.reader.ending = none then
    (d.onReader fun r => { r with ending := some .dischargeFault }).stopArrives true
  else d

end Sys2Proof.Machine
end

