-- ==== Sys2Proof/Machine/Engine.lean ====
section
/-! DEFINITION. The running order's thread: what each of its steps does, how it runs on until it waits, and what the events
of the converter, the timers, the fixture and the printer do to the blocks. -/

namespace Sys2Proof.Machine

/-! ## Locations (R85): each requester acts -/

/-- A location is reported to the unit's requester, which acts before the mask marks are set (R73, R76, R85, R96, R136). -/
def Dev.location (i : Nat) (v : PVal) (trunc last : Bool) (d : Dev) : Dev :=
  let q := d.search.pointAt i
  let d1 := d.push [.located i last]
  match d.search.user with
  | .whereis => d1.whereisLocation q v
  | .isolate => d1.isolateLocation q v trunc
  | .learn => d1.learnLocation q
  | .locate => d1.locateLocation q v trunc

/-! ## The steps -/

/-- One step of the thread; `q` is the host write queue, from which reads are forwarded (R192). -/
def runTask (q : List (Nat × Word)) (t : Task) (d : Dev) : Dev :=
  match t with
  | .write off ws => d.issueWrite off ws
  | .read off n => d.issueRead q off n
  | .bindTable => d.bindTable
  | .rebuildHead => d.rebuildHead
  | .rebuildEntry i => d.rebuildEntry i
  | .rebuildCheck i => d.rebuildCheck i
  | .bindEnd o => d.bindEnd o
  | .image => d.image
  | .startEnd h => d.startEnd h
  | .endOrder st c => d.endOrder st c
  | .ownerIdle => d.ownerIdle
  | .finish => d.finish
  | .linkGot => d.linkGot
  | .reread w => d.reread w
  | .rereadGot w => d.rereadGot w
  | .woken w => d.followWord w
  | .pause => d.pause
  | .paused => d.paused
  | .safe => d.safe
  | .finding f => d.finding f
  | .mergeGot f i => d.mergeGot f i
  | .appended f => d.appended f
  | .raiseDefect f => d.raiseDefect f
  | .absorbOpen f => d.absorbOpen f
  | .absorbDone i => d.onMgr (Manager.absorb i)
  | .absorbShort f => d.absorbShort f
  | .absorbGot f i => d.absorbGot f i
  | .findingEnd f a => d.findingEnd f a
  | .clear => d.clear
  | .cleared => d.cleared
  | .setup t => d.requestSetup t
  | .twoPoint r a n ca cb => d.twoPoint r a n ca cb
  | .probe n t => d.probe n t
  | .parkStart => d.parkStart
  | .parkWaited => d.parkWaited
  | .unparkStart => d.unparkStart
  | .recordRead => d.recordRead
  | .recordCheck => d.recordCheck
  | .recordEnd => d.recordEnd
  | .recordStop => d.recordStop
  | .zeroStart => d.zeroStart
  | .zeroRun => d.zeroRun
  | .zeroCollect i => d.zeroCollect i
  | .zeroGot i => d.zeroGot i
  | .zeroOff => d.zeroOff
  | .zeroSafe => d.zeroSafe
  | .zeroEnd => d.zeroEnd
  | .measA => d.measA
  | .measB => d.measB
  | .measGotB => d.measGotB
  | .measGot => d.measGot
  | .measEnd => d.measEnd
  | .valBegin => d.valBegin
  | .valHead => d.valHead
  | .valNet n off => d.valNet n off
  | .valRecord n off => d.valRecord n off
  | .valParts n off h => d.valParts n off h
  | .valMembers n a l x => d.valMembers n a l x
  | .valMemberGot n a l x => d.valMemberGot n a l x
  | .valDone => d.valDone
  | .compBlock i => d.compBlock i
  | .compGot i => d.compGot i
  | .netBegin n => d.netBegin n
  | .member i => d.member i
  | .memberGot i => d.memberGot i
  | .whereis i => d.whereis i
  | .whereisGot i => d.whereisGot i
  | .whereisEnd i => d.whereisEnd i
  | .isolate => d.isolate
  | .isolateGot => d.isolateGot
  | .netDone => d.netDone
  | .sweepClose => d.sweepClose
  | .join n p => d.join n p
  | .searchStep => d.searchStep
  | .lowHalf => d.lowHalf
  | .lowGot => d.lowGot
  | .highHalf => d.highHalf
  | .highGot => d.highGot
  | .location i v t l => d.location i v t l
  | .located i l => d.located i l
  | .probeGot => d.probeGot
  | .learnFrom p => d.learnFrom p
  | .learnGot p => d.learnGot p
  | .learnFormed p => d.learnFormed p
  | .learnAlone p => d.learnAlone p
  | .learnNet s => d.learnNet s
  | .learnHeader s => d.learnHeader s
  | .learnLoad s => d.learnLoad s
  | .learnClose => d.learnClose
  | .learnDone => d.learnDone
  | .insInit => d.insInit
  | .groupNext r => d.groupNext r
  | .groupSetup => d.groupSetup
  | .rampReq => d.rampReq
  | .dwellBegin => d.dwellBegin
  | .windowReq r => d.windowReq r
  | .windowGot => d.windowGot
  | .evaluate => d.evaluate
  | .evalSafe => d.evalSafe
  | .waitOff r => d.waitOff r
  | .stepEnd => d.stepEnd
  | .groupDone => d.groupDone
  | .locateStart => d.locateStart
  | .locateEnd => d.locateEnd
  | .locProbe ps => d.locProbe ps
  | .endAfterOff c => d.endAfterOff c
  | .fmtNext => d.fmtNext
  | .fmtBegin => d.fmtBegin
  | .fmtEntry => d.fmtEntry
  | .fmtLabelA => d.fmtLabelA
  | .fmtGotA => d.fmtGotA
  | .fmtLabelB => d.fmtLabelB
  | .fmtGotB => d.fmtGotB
  | .fmtBuild => d.fmtBuild
  | .fmtPlace => d.fmtPlace
  | .fmtSpooled => d.fmtSpooled

/-- The thread runs on until it waits or has nothing to do; steps left over are done at the next command (log 12). -/
@[irreducible] def settleFor (q : List (Nat × Word)) : Nat → Dev → Dev
  | 0, d => d
  | fuel + 1, d =>
    if d.wait = .run then
      match d.tasks with
      | [] => d
      | t :: ts => settleFor q fuel (runTask q t { d with tasks := ts }).sync
    else d

/-- Steps of the thread within one command, at most (log 12). -/
@[irreducible] def settleFuel : Nat := 20000

/-- The blocks after an event: the requests, the line and the status area follow, and the thread runs on. -/
def Dev.settle (q : List (Nat × Word)) (d : Dev) : Dev := settleFor q settleFuel d.sync

/-! ## Events -/

/-- The thread, if it waits for this, goes on. -/
def Dev.wake (w : Wait) (d : Dev) : Dev := if d.wait = w then d.proceed else d

/-- The discharged report returns (R105): the matrix and the waits for it go on. -/
def Dev.offReached (d : Dev) : Dev := ((d.matrixDischarged.wake .zeroOff).wake .rampHeld).wake .hvOff

/-- What a report of the HV controller at a sample brings about. -/
def Dev.hvReport (r : HvReport) (d : Dev) : Dev :=
  match r with
  | .none => d
  | .rampEnded => d.wake .ramp
  | .offReached => d.offReached
  | .recharged => d.recharge

/-- The answer of a measurement goes to its requester (R32). -/
def Dev.measured (k : JobKind) (d : Dev) : Dev :=
  match k with
  | .pair n => d.pairEnd n d.mu.ans.connected
  | .rampCheck => d.rampChecked
  | .twoPoint _ _ _ => d.wake .meas
  | .probe _ => d.wake .meas
  | .window => d.wake .meas
  | .zero _ => d.wake .meas

/-- One sample of each converter channel (R25): the measurement takes it, then the HV controller (log 28). -/
def Dev.sample (diff hvv hvi : Int) (d : Dev) : Dev :=
  let m := d.mu.sample diff hvv hvi
  let h := d.hv.sample hvv
  let d1 := { d with mu := m.1, hv := h.1 }.hvReport h.2
  match m.2 with
  | some k => d1.measured k
  | none => d1

/-- The ramp timer expires: the ramp check (R108). -/
def Dev.rampExpired (d : Dev) : Dev :=
  if d.hv.state = .ramp ∧ d.hv.rampT.isSome = true then
    ((d.onHv fun h => { h with rampT := none, check := true }).noteUnzeroed).startJob .rampCheck .l3 10
  else d

/-- The dwell timer of a group reaches the window point (R127). -/
def Dev.dwellExpired (d : Dev) : Dev :=
  if d.wait = .dwell ∧ d.ins.locating = false then (d.onIns Insul.atWindowPoint).proceed else d

/-- The locate dwell has 10 ms to run (R134). -/
def Dev.locateDwellExpired (d : Dev) : Dev :=
  if d.wait = .dwell ∧ d.ins.locating = true then (d.onIns Insul.atWindowPoint).proceed else d

/-- The trip comparator fires (R110, R129, R135). -/
def Dev.trip (d : Dev) : Dev :=
  if d.hv.armed && d.hv.sourceOn then
    d.enterDischarge.stepBroken (d.tripFinding (voltsAtTrip d.hv.lastHvv))
  else d

/-- A pulse of the arc comparator (R111, R129, R135). -/
def Dev.arcPulse (d : Dev) : Dev :=
  if d.hv.state = .dwell then
    let d1 := d.onHv Hv.countArc
    if d.hv.arcLimit ≤ d1.hv.arcs then d1.enterDischarge.stepBroken (d.arcFinding d1.hv.arcs) else d1
  else d

/-- The latch sets; whether the next sample fell together with the expiry is free (R112, R113, log 36). -/
def Dev.lockOut (d : Dev) : Dev := { d.onHv (Hv.lockOut (Config.freeTie d.free)) with free := d.free + 1 }

/-- The discharge timer expires (R113); a held ramp request is checked again (R106). -/
def Dev.dischargeExpired (d : Dev) : Dev :=
  if d.hv.state = .discharge ∧ d.hv.dischT.isSome = true then ((d.lockOut.faultArrives).wake .hvOff).wake .rampHeld else d

/-- The interlock input opens (R115). The pause reason becomes INTERLOCK here, not at the pause, and shows so in the section of
an order that ends before its pause; DESIGN CHOICE (log 55). -/
def Dev.interlockOpens (d : Dev) : Dev :=
  let d1 := { d.onHv fun h => { h with openRec := true } with pins := { d.pins with interlockOpen := true } }
  if d.hv.sourceOn then
    ((d1.onHv fun h => { h with pauseMark := true }).enterDischarge.onIns fun s => { s with reason := .interlock }).abandonStep
  else d1

/-- The interlock input closes (R116). -/
def Dev.interlockCloses (d : Dev) : Dev :=
  { d.onHv fun h => { h with openRec := false } with pins := { d.pins with interlockOpen := false } }

/-- The formatter builds its next line (R157). -/
def Dev.formatLine (d : Dev) : Dev := d.wake .format

/-- A character frame ends; a formatter that waited for room goes on (R165, R166). -/
def Dev.frameOut (d : Dev) : Dev := if d.tx.state = .sending then d.charEnd.wakeRoom else d

/-- The printer inputs (R166, R167). -/
def Dev.setReady (b : Bool) (d : Dev) : Dev := { d with pins := { d.pins with printerReady := b } }.retryChar
def Dev.setPaperOut (b : Bool) (d : Dev) : Dev := { d with pins := { d.pins with paperOut := b } }.retryChar

/-! ## Notices of the host port (R193) -/

/-- A write to the watched word, accepted while the reader is WAITING, or to the chain head between START's read and
WAITING. -/
def Dev.notice (off : Nat) (d : Dev) : Dev :=
  if d.reader.state = .waiting then
    match d.reader.watch with
    | some w => if w.off = off then d.dropThread.goto [.reread w] else d
    | none => d
  else if off = 4 ∧ d.tasks.contains (.startEnd 0) = true then d.onReader fun r => { r with earlyNotice := true }
  else d

/-! ## Soft reset (R24, R46, R63, R90, R103, R119, R140, R154, R172, R186, R189, R201) -/

/-- The manager's steps that a soft reset lets finish: those up to the end of its finding or clearing, or up to the one
from which the rest of the finding follows (R148). -/
def managerSteps : List Task → List Task
  | [] => []
  | .mergeGot f i :: _ => [.mergeGot f i]
  | .appended f :: _ => [.appended f]
  | .findingEnd f a :: _ => [.findingEnd f a]
  | .cleared :: _ => [.cleared]
  | t :: ts => t :: managerSteps ts

/-- An access of the self-check record is in progress (R22). -/
def Dev.recordsNow (d : Dev) : Bool :=
  decide (d.mx.state = .unparking) && decide (d.mx.phase = .recording) && decide (d.wait = .mem) && d.engineQ.any (·.mine)

/-- The thread and the defect table manager at a soft reset (R22, R148, R154, R186). -/
def Dev.threadSoftReset (d : Dev) : Dev :=
  if d.mgr.state = .recording ∨ d.mgr.state = .clearing then
    { d with tasks := managerSteps d.tasks, saved := [], mgr := { d.mgr with orphan := true } }
  else if d.recordsNow then { d with tasks := [.recordStop], saved := [] }.onMgr Manager.softReset
  else d.dropThread.onMgr Manager.softReset

/-- The order reader at a soft reset (R186, R189). -/
def Reader.softReset (r : Reader) : Reader :=
  { Reader.reset with
    tableStart := r.tableStart, refCode := r.refCode, refOff := r.refOff, curOff := r.curOff, lastOff := r.lastOff
    spoolLines := r.spoolLines, sum := r.sum }

/-- The measurement unit at a soft reset (R46). -/
def MeasUnit.softReset (u : MeasUnit) : MeasUnit := { u.cancel with leak := .l3 }

/-- The attention unit at a soft reset (R201). -/
def Attn.softReset (a : Attn) : Attn := { a with req := 0, svc := 0 }

/-- The blocks at a soft reset: the attention sets are cleared first, so that what the reset begins can be requested
after it (R24, R201). -/
def Dev.softReset (d : Dev) : Dev :=
  let d1 := d.threadSoftReset
  let d2 :=
    { d1 with
      reader := d1.reader.softReset
      mu := d1.mu.softReset
      nets := .reset
      search := .reset
      sweep := .reset
      learn := .reset
      ins := .reset
      fmt := .reset
      tx := d1.tx.softReset
      prog := .reset
      attn := d1.attn.softReset }
  d2.hvSoftReset.matrixSoftReset

end Sys2Proof.Machine
end

