-- ==== Sys2Proof/Machine/HostPort.lean ====
section
/-! DEFINITION. The host port and the memory arbiter (R190 to R195), the two resets and the run commands: the meanings of
HOST_WRITE, HOST_READ, ARBITER_GRANT, TAKE_ORDER, the resets, START, HALT, RESUME, ABORT and IGNORED_REGISTER_WRITE. -/

namespace Sys2Proof.Machine

/-- The outcome of a command. -/
abbrev Result := Host.Outcome State Fault Refusal

/-! ## Reads and the bus -/

/-- The byte offset of a word address (R190). -/
def byteOff (addr : BitVec 20) : Nat := 4 * addr.toNat

/-- No host access is held off: the bus can carry another (R190, R195, log 6). -/
def State.busFree (s : State) : Bool := s.hostWait.isNone

/-- A word as a reader's own read finds it: the newest queued host write, else the newest write issued to the arbiter, else
the RAM (R192, log 9). -/
def State.peek (s : State) (off : Nat) : Word :=
  match newest s.hostQ off with
  | some w => w
  | none =>
    match issuedWrite s.dev.engineQ off with
    | some w => w
    | none => ramRead s.ramBytes s.mem off

/-- All these words are forwarded from the queue. -/
def State.allForwarded (s : State) (offs : List Nat) : Bool := offs.all fun o => (newest s.hostQ o).isSome

/-- The marker after the reader's own reads: a read that is not forwarded takes a grant of the engine side (log 9). -/
def State.markReads (offs : List Nat) (s : State) : State :=
  if s.allForwarded offs then s else { s with lastGrant := .engine }

/-- The blocks change; the thread runs on. -/
def State.withDev (f : Dev → Dev) (s : State) : State := { s with dev := (f s.dev).settle s.hostQ }

/-- A register command that the blocks take (R191): only while the bus is free. -/
def State.command (f : Dev → Dev) (s : State) : State := if s.busFree then s.withDev f else s

/-! ## Resets (R189, R195) -/

/-- Every block at a soft reset (R186). -/
def State.actSoftReset (s : State) : State := { s with hostWait := none }.withDev Dev.softReset

/-- A write joins the queue: it is accepted, and the reader is told of it (R192, R193). -/
def State.acceptWrite (off : Nat) (v : Word) (s : State) : State :=
  { s with hostQ := s.hostQ ++ [(off, v)], hostWait := none }.withDev (Dev.notice off)

/-- The blocks after a hardware reset: the reset values, with the input levels as they are; the status area's spool lines
are kept (R172, R189). -/
def Dev.hardwareReset (d : Dev) : Dev :=
  let r := Dev.reset d.pins
  { r with reader := { r.reader with spoolLines := d.reader.spoolLines }, free := d.free }

/-- A host access that was held off meets the port after the queue has room, or is empty (R192, R195). -/
def State.serveHeld (s : State) : State :=
  match s.hostWait with
  | some (.write off v) => if s.hostQ.length < Config.hostQueueSize then s.acceptWrite off v else s
  | some .softReset => if s.hostQ.isEmpty then s.actSoftReset else s
  | some (.read _) => s
  | none => s

/-- The whole part at a hardware reset (R23, R189, R195, R201). -/
def State.hardwareReset (s : State) : State :=
  { s with hostQ := [], lastGrant := .engine, dev := s.dev.hardwareReset.settle [] }.serveHeld

/-! ## The memory window (R190, R192) -/

def State.hostWrite (off : Nat) (v : Word) (s : State) : State :=
  if s.busFree then
    (if s.hostQ.length < Config.hostQueueSize then s.acceptWrite off v else { s with hostWait := some (.write off v) })
  else s

def State.hostRead (off : Nat) (s : State) : State :=
  if s.busFree then
    match newest s.hostQ off with
    | some w => { s with hostData := some w }
    | none => { s with hostWait := some (.read off) }
  else s

/-! ## The arbiter (R194) -/

/-- The host port asks for the memory port. -/
def State.hostAsks (s : State) : Bool :=
  !s.hostQ.isEmpty ||
    (match s.hostWait with
     | some (.read _) => true
     | _ => false)

/-- The engine side asks for the memory port. -/
def State.engineAsks (s : State) : Bool := !s.dev.engineQ.isEmpty

/-- A host read is granted. -/
def State.grantRead (off : Nat) (s : State) : State :=
  { s with hostData := some (ramRead s.ramBytes s.mem off), hostWait := none, lastGrant := .host }

/-- The queue's head entry drains (R192). -/
def State.drain (s : State) : State :=
  match s.hostQ with
  | [] => s
  | (off, v) :: q => { s with mem := ramWrite s.ramBytes s.mem off v, hostQ := q, lastGrant := .host }.serveHeld

/-- The host port is granted: its read first, then the drain (R194). -/
def State.grantHost (s : State) : State :=
  match s.hostWait with
  | some (.read off) => s.grantRead off
  | _ => s.drain

/-- The words of a granted read: the newest queued write to each, or the RAM (R192, log 11). -/
def State.readWords (s : State) (off : Nat) : Nat → List Word
  | 0 => []
  | n + 1 =>
    (match newest s.hostQ off with
     | some w => w
     | none => ramRead s.ramBytes s.mem off) :: s.readWords (off + 4) n

/-- The thread has its access, and with a read what the host write queue `q` answers after it (R192, log 11): it goes on
after the last burst of the run. -/
def Dev.granted (q : List (Nat × Word)) (b : Burst) (ws : List Word) (d : Dev) : Dev :=
  let d1 := { d with engineQ := d.engineQ.drop 1 }
  if b.mine then
    if b.data.isSome then (if b.last then d1.wake .mem else d1)
    else if b.last then { d1 with rbuf := d1.rbuf ++ ws }.wake .mem
    else
      let r := answerQueued q d1.engineQ
      let d2 := { d1 with rbuf := d1.rbuf ++ ws ++ r.1, engineQ := r.2.1 }
      if r.2.2 then d2.wake .mem else d2
  else d1

/-- The engine side's burst is granted (R194). -/
def State.grantEngine (s : State) : State :=
  match s.dev.engineQ with
  | [] => s
  | b :: _ =>
    match b.data with
    | some ws =>
      { s with mem := ramWrites s.ramBytes s.mem b.off ws, lastGrant := .engine }.withDev (Dev.granted s.hostQ b [])
    | none => { s with lastGrant := .engine }.withDev (Dev.granted s.hostQ b (s.readWords b.off b.n))

/-- One grant, by alternation when both ask (R194). -/
def State.grant (s : State) : State :=
  if s.hostAsks && (!s.engineAsks || decide (s.lastGrant = .engine)) then s.grantHost
  else if s.engineAsks then s.grantEngine
  else s

/-! ## START and the take -/

/-- The control block's eight words (R173, R204). -/
def controlOffs : List Nat := [0, 4, 8, 12, 16, 20, 24, 28]

/-- START (R175). -/
def State.start (s : State) : State :=
  if s.busFree && decide (s.dev.reader.state = .stopped) then
    (s.markReads controlOffs).withDev (Dev.start (controlOffs.map s.peek))
  else s

/-- The reader takes the order at the header it has reached (R178). -/
def State.takeOrder (s : State) : State :=
  if s.dev.wait = .take then
    (s.markReads (s.dev.takeReads s.peek)).withDev (Dev.takeOrder s.peek)
  else s

/-! ## The meanings -/

/-- HARDWARE_RESET (R189). -/
def execHardwareReset (s : State) : Result := .next s.hardwareReset

/-- SOFT_RESET: accepted when the queue is empty (R186, R195). -/
def execSoftReset (s : State) : Result :=
  .next (if s.busFree then (if s.hostQ.isEmpty then s.actSoftReset else { s with hostWait := some .softReset }) else s)

/-- START (R175). -/
def execStart (s : State) : Result := .next s.start

/-- HALT (R183). -/
def execHalt (s : State) : Result := .next (s.command Dev.halt)

/-- RESUME (R184). -/
def execResume (s : State) : Result := .next (s.command Dev.resume)

/-- ABORT (R185). -/
def execAbort (s : State) : Result := .next (s.command Dev.abort)

/-- A register write that no other row names has no effect (R191, R200). -/
def execIgnoredRegisterWrite (_reg : BitVec 2) (_value : Word) (s : State) : Result := .next s

/-- HOST_WRITE (R192). -/
def execHostWrite (addr : BitVec 20) (value : Word) (s : State) : Result := .next (s.hostWrite (byteOff addr) value)

/-- HOST_READ (R192). -/
def execHostRead (addr : BitVec 20) (s : State) : Result := .next (s.hostRead (byteOff addr))

/-- ARBITER_GRANT (R194). -/
def execArbiterGrant (s : State) : Result := .next s.grant

/-- TAKE_ORDER (R178). -/
def execTakeOrder (s : State) : Result := .next s.takeOrder

end Sys2Proof.Machine
end

