-- ==== Sys2Proof/Machine/Attention.lean ====
section
/-! DEFINITION. The attention unit's poll and commands (R199, R200) and their meanings. -/

namespace Sys2Proof.Machine

/-- A source leaves the service set. -/
def Attn.close (s : BitVec 3) (a : Attn) : Attn := { a with svc := a.svc &&& ~~~srcBit s }

/-- The source that CLOSE_TOP closes (R200). -/
def Attn.top (a : Attn) : Option (BitVec 3) := a.highest (if a.selective then a.svc &&& ~~~a.msk else a.svc)

/-- CLOSE_TOP (R200). -/
def Attn.closeTop (a : Attn) : Attn :=
  match a.top with
  | some s => a.close s
  | none => a

/-- CLOSE_TOP_ROTATE (R200). -/
def Attn.closeTopRotate (a : Attn) : Attn :=
  match a.top with
  | some s => { a.close s with lowest := s }
  | none => a

/-- The poll: the unit after it; what it returns is `Attn.eligible` before it (R199). -/
def Attn.poll (a : Attn) : Attn :=
  match a.eligible with
  | none => a
  | some s =>
    { a with
      req := a.req &&& ~~~srcBit s
      svc := if a.autoclose then a.svc else a.svc ||| srcBit s
      lowest := if a.autoclose && a.autorotate then s else a.lowest }

/-- A command of the attention unit: only while the bus is free; then the level requests follow and the line is judged
(R197, R198, R200). -/
def State.attention (f : Attn → Attn) (s : State) : State :=
  if s.busFree then { s with dev := (s.dev.onAttn f).syncAttn } else s

/-- The word that a read of a register gives, by the two address lines (R207): 0 IDENT, 1 RUN, 2 ATTN_POLL, 3 ATTN_VIEW. That
the bits no layout names read 0 is a DESIGN CHOICE (log 67). -/
def Dev.registerWord (reg : BitVec 2) (d : Dev) : Word :=
  if reg = 0 then identRead else if reg = 1 then d.runRead else if reg = 2 then pollWord d.attn.eligible else d.viewRead

/-- A host read of a register (R191, R207): only ATTN_POLL has an effect beside the answer, the poll of R199. The table of
commands has a row for that read alone (log 41). -/
def State.readRegister (reg : BitVec 2) (s : State) : State :=
  if s.busFree then { (if reg = 2 then s.attention Attn.poll else s) with hostData := some (s.dev.registerWord reg) } else s

/-- POLL (R199): a read of register 2. -/
def execPoll (s : State) : Result := .next (s.readRegister 2)

/-- CLOSE_TOP (R200). -/
def execCloseTop (s : State) : Result := .next (s.attention Attn.closeTop)

/-- CLOSE_SOURCE (R200). -/
def execCloseSource (x : BitVec 3) (s : State) : Result := .next (s.attention (Attn.close x))

/-- CLOSE_TOP_ROTATE (R200). -/
def execCloseTopRotate (s : State) : Result := .next (s.attention Attn.closeTopRotate)

/-- SET_BOTTOM (R200). -/
def execSetBottom (x : BitVec 3) (s : State) : Result := .next (s.attention fun a => { a with lowest := x })

/-- AUTOCLOSE on (R200). -/
def execAutocloseOn (s : State) : Result := .next (s.attention fun a => { a with autoclose := true })

/-- AUTOCLOSE off (R200). -/
def execAutocloseOff (s : State) : Result := .next (s.attention fun a => { a with autoclose := false })

/-- AUTOROTATE on (R200). -/
def execAutorotateOn (s : State) : Result := .next (s.attention fun a => { a with autorotate := true })

/-- AUTOROTATE off (R200). -/
def execAutorotateOff (s : State) : Result := .next (s.attention fun a => { a with autorotate := false })

/-- SELECTIVE on (R200). -/
def execSelectiveOn (s : State) : Result := .next (s.attention fun a => { a with selective := true })

/-- SELECTIVE off (R200). -/
def execSelectiveOff (s : State) : Result := .next (s.attention fun a => { a with selective := false })

/-- MASK_WRITE: b0 is the new mask set (R200, R207). -/
def execMaskWrite (value : Word) (s : State) : Result :=
  .next (s.attention fun a => { a with msk := value.extractLsb' 0 8 })

end Sys2Proof.Machine
end

