-- ==== Sys2Proof/Machine/Events.lean ====
section
/-! DEFINITION. The meanings of the events of the card link, the timers, the converter, the fixture and the printer. A timer
that is not running cannot expire and an event that cannot arise changes nothing (log 5). -/

namespace Sys2Proof.Machine

/-- CARD_ECHO (R12). -/
def execCardEcho (pattern : List Bus) (s : State) : Result := .next (s.withDev (Dev.echo pattern))

/-- ECHO_WINDOW_EXPIRY (R12). -/
def execEchoWindowExpiry (s : State) : Result := .next (s.withDev Dev.echoMissing)

/-- CARD_FRAME_END (R12, R21). -/
def execCardFrameEnd (s : State) : Result := .next (s.withDev Dev.frameEnd)

/-- RELEASE_TIMER_EXPIRY (R9). -/
def execReleaseTimerExpiry (s : State) : Result :=
  .next (if s.dev.mx.releaseT.isSome then s.withDev Dev.releaseExpired else s)

/-- SETTLE_TIMER_EXPIRY (R10). -/
def execSettleTimerExpiry (s : State) : Result :=
  .next (if s.dev.mx.settleT.isSome then s.withDev Dev.settleExpired else s)

/-- OFF_TIMER_EXPIRY (R16). -/
def execOffTimerExpiry (s : State) : Result := .next (if s.dev.mx.offT.isSome then s.withDev Dev.offExpired else s)

/-- UNPARK_SETTLE_EXPIRY (R18). -/
def execUnparkSettleExpiry (s : State) : Result :=
  .next (if s.dev.mx.unparkT.isSome then s.withDev Dev.unparkSettled else s)

/-- CONVERTER_SAMPLE (R25). -/
def execConverterSample (diff hvv hvi : BitVec 16) (s : State) : Result :=
  .next (s.withDev (Dev.sample diff.toInt hvv.toInt hvi.toInt))

/-- RAMP_TIMER_EXPIRY (R108). -/
def execRampTimerExpiry (s : State) : Result := .next (s.withDev Dev.rampExpired)

/-- DWELL_TIMER_EXPIRY (R127). -/
def execDwellTimerExpiry (s : State) : Result := .next (s.withDev Dev.dwellExpired)

/-- LOCATE_DWELL_EXPIRY (R134). -/
def execLocateDwellExpiry (s : State) : Result := .next (s.withDev Dev.locateDwellExpired)

/-- TRIP (R110). -/
def execTrip (s : State) : Result := .next (s.withDev Dev.trip)

/-- ARC_PULSE (R111). -/
def execArcPulse (s : State) : Result := .next (s.withDev Dev.arcPulse)

/-- DISCHARGE_TIMER_EXPIRY (R113). -/
def execDischargeTimerExpiry (s : State) : Result := .next (s.withDev Dev.dischargeExpired)

/-- INTERLOCK_OPENING (R115): a change of the input. -/
def execInterlockOpening (s : State) : Result :=
  .next (if s.dev.pins.interlockOpen then s else s.withDev Dev.interlockOpens)

/-- INTERLOCK_CLOSING (R116): a change of the input. -/
def execInterlockClosing (s : State) : Result :=
  .next (if s.dev.pins.interlockOpen then s.withDev Dev.interlockCloses else s)

/-- FORMAT_LINE (R157). -/
def execFormatLine (s : State) : Result := .next (s.withDev Dev.formatLine)

/-- CHARACTER_FRAME_END (R166). -/
def execCharacterFrameEnd (s : State) : Result := .next (s.withDev Dev.frameOut)

/-- PRINTER_READY_ASSERTED (R166). -/
def execPrinterReadyAsserted (s : State) : Result := .next (s.withDev (Dev.setReady true))

/-- PRINTER_READY_RELEASED (R166). -/
def execPrinterReadyReleased (s : State) : Result := .next (s.withDev (Dev.setReady false))

/-- PAPER_OUT_ASSERTED (R166, R167). -/
def execPaperOutAsserted (s : State) : Result := .next (s.withDev (Dev.setPaperOut true))

/-- PAPER_OUT_RELEASED (R166, R167). -/
def execPaperOutReleased (s : State) : Result := .next (s.withDev (Dev.setPaperOut false))

end Sys2Proof.Machine
end

