-- ==== Sys2Proof/Machine/Dispatch.lean ====
section
/-! DEFINITION. exec: one arm for each command, each a direct call of its meaning. -/

namespace Sys2Proof.Machine

/-- The effect of a command on everything but the queue of commands. -/
def exec (i : Instr) (s : State) : Host.Outcome State Fault Refusal :=
  match i with
  | .hardwareReset => Sys2Proof.Machine.execHardwareReset s
  | .softReset => Sys2Proof.Machine.execSoftReset s
  | .start => Sys2Proof.Machine.execStart s
  | .halt => Sys2Proof.Machine.execHalt s
  | .resume => Sys2Proof.Machine.execResume s
  | .abort => Sys2Proof.Machine.execAbort s
  | .poll => Sys2Proof.Machine.execPoll s
  | .closeTop => Sys2Proof.Machine.execCloseTop s
  | .closeSource x => Sys2Proof.Machine.execCloseSource x s
  | .closeTopRotate => Sys2Proof.Machine.execCloseTopRotate s
  | .setBottom x => Sys2Proof.Machine.execSetBottom x s
  | .autocloseOn => Sys2Proof.Machine.execAutocloseOn s
  | .autocloseOff => Sys2Proof.Machine.execAutocloseOff s
  | .autorotateOn => Sys2Proof.Machine.execAutorotateOn s
  | .autorotateOff => Sys2Proof.Machine.execAutorotateOff s
  | .selectiveOn => Sys2Proof.Machine.execSelectiveOn s
  | .selectiveOff => Sys2Proof.Machine.execSelectiveOff s
  | .maskWrite value => Sys2Proof.Machine.execMaskWrite value s
  | .ignoredRegisterWrite reg value => Sys2Proof.Machine.execIgnoredRegisterWrite reg value s
  | .hostWrite addr value => Sys2Proof.Machine.execHostWrite addr value s
  | .hostRead addr => Sys2Proof.Machine.execHostRead addr s
  | .arbiterGrant => Sys2Proof.Machine.execArbiterGrant s
  | .takeOrder => Sys2Proof.Machine.execTakeOrder s
  | .cardEcho pattern => Sys2Proof.Machine.execCardEcho pattern s
  | .echoWindowExpiry => Sys2Proof.Machine.execEchoWindowExpiry s
  | .releaseTimerExpiry => Sys2Proof.Machine.execReleaseTimerExpiry s
  | .settleTimerExpiry => Sys2Proof.Machine.execSettleTimerExpiry s
  | .offTimerExpiry => Sys2Proof.Machine.execOffTimerExpiry s
  | .unparkSettleExpiry => Sys2Proof.Machine.execUnparkSettleExpiry s
  | .converterSample diff hvv hvi => Sys2Proof.Machine.execConverterSample diff hvv hvi s
  | .rampTimerExpiry => Sys2Proof.Machine.execRampTimerExpiry s
  | .dwellTimerExpiry => Sys2Proof.Machine.execDwellTimerExpiry s
  | .locateDwellExpiry => Sys2Proof.Machine.execLocateDwellExpiry s
  | .trip => Sys2Proof.Machine.execTrip s
  | .arcPulse => Sys2Proof.Machine.execArcPulse s
  | .dischargeTimerExpiry => Sys2Proof.Machine.execDischargeTimerExpiry s
  | .interlockOpening => Sys2Proof.Machine.execInterlockOpening s
  | .interlockClosing => Sys2Proof.Machine.execInterlockClosing s
  | .formatLine => Sys2Proof.Machine.execFormatLine s
  | .characterFrameEnd => Sys2Proof.Machine.execCharacterFrameEnd s
  | .printerReadyAsserted => Sys2Proof.Machine.execPrinterReadyAsserted s
  | .printerReadyReleased => Sys2Proof.Machine.execPrinterReadyReleased s
  | .paperOutAsserted => Sys2Proof.Machine.execPaperOutAsserted s
  | .paperOutReleased => Sys2Proof.Machine.execPaperOutReleased s
  | .cardFrameEnd => Sys2Proof.Machine.execCardFrameEnd s

end Sys2Proof.Machine
end

