-- ==== Sys2Proof/Safety.lean ====
section
/-! DEFINITION. What the statements speak of: the invariants of the part, and when the running order's thread has nothing to
do before the next event. -/

namespace Sys2Proof.Machine

/-- The thread has nothing to do before the next event: it waits, or has no step left. -/
def Dev.Resting (d : Dev) : Prop := d.wait ≠ .run ∨ d.tasks = []

/-- The attention line is as an eligible request says (R198). -/
def Attn.Judged (a : Attn) : Prop := a.line = a.eligible.isSome

/-- The source that a CLOSE_TOP closes: in service, unmasked in selective mode, and outranked by no other such (R200). -/
def Attn.IsTop (a : Attn) (x : BitVec 3) : Prop :=
  hasSrc a.svc x = true ∧ (a.selective = true → hasSrc a.msk x = false) ∧
  ∀ y, hasSrc a.svc y = true → (a.selective = true → hasSrc a.msk y = false) → a.rank x ≤ a.rank y

/-- What the attention unit holds but for its requests and the line: service set, mask set, lowest source and modes. -/
def Attn.settings (a : Attn) : Byte × Byte × BitVec 3 × Bool × Bool × Bool :=
  (a.svc, a.msk, a.lowest, a.autoclose, a.autorotate, a.selective)

/-- Each level source's request is its condition while it is not in service (R197). -/
def Dev.LevelsFollow (d : Dev) : Prop :=
  (hasSrc d.attn.svc 0 = false → hasSrc d.attn.req 0 = d.safetyCond) ∧
  (hasSrc d.attn.svc 5 = false → hasSrc d.attn.req 5 = d.printerCond) ∧
  (hasSrc d.attn.svc 7 = false → hasSrc d.attn.req 7 = d.idleCond)

/-- The attention unit `t` after a command has made it `a`: the sets, order and modes of `a`; the requests of `a` for the event
sources and for what is in service; the requests of the other level sources as their conditions are; the line judged again
(R197, R198). -/
def Dev.AttnAfter (d : Dev) (a t : Attn) : Prop :=
  t = { a with req := t.req, line := t.line } ∧
  (∀ x : BitVec 3, (hasSrc a.svc x = true ∨ (x ≠ 0 ∧ x ≠ 5 ∧ x ≠ 7)) → hasSrc t.req x = hasSrc a.req x) ∧
  { d with attn := t }.LevelsFollow ∧ t.Judged

/-- The status area image holds what the blocks hold (R174). -/
def Dev.ImageFollows (d : Dev) : Prop := d.statusImg = d.statusWords

/-- The attention unit and the status area image follow the blocks. -/
def Dev.Follows (d : Dev) : Prop := d.attn.Judged ∧ d.LevelsFollow ∧ d.ImageFollows

/-- While the lockout latch is set the source is off (R113, R114). -/
def Hv.latchOff (h : Hv) : Bool := !h.lockout || !h.sourceOn

/-- While the recorded interlock is open the source is off (R106, R115). -/
def Hv.coverOff (h : Hv) : Bool := !h.openRec || !h.sourceOn

/-- The recorded interlock is the input's level (R115, R116). -/
def Dev.InterlockRecorded (d : Dev) : Prop := d.hv.openRec = d.pins.interlockOpen

/-- The host port: at most 8 queued writes, and an access is held off only while it must be (R192, R195). -/
def State.HostPortOk (s : State) : Prop :=
  s.hostQ.length ≤ 8 ∧
  match s.hostWait with
  | none => True
  | some (.write _ _) => s.hostQ.length = 8
  | some (.read off) => newest s.hostQ off = none
  | some .softReset => s.hostQ ≠ []

/-- A write to the watched word, or to the chain head while START is on its way to WAITING there. -/
def Dev.NoticesWrite (d : Dev) (off : Nat) : Prop :=
  (d.reader.state = .waiting ∧ ∃ w, d.reader.watch = some w ∧ w.off = off) ∨ (off = 4 ∧ Task.startEnd 0 ∈ d.tasks)

/-- The group map names the lowest net of each group, which names itself (R58). -/
def Nets.MapOk (t : Nets) : Prop :=
  Tab.canonFrom 0 0 t.roots = true ∧
  ∀ n, 1 ≤ n → 1 ≤ t.root n ∧ t.root n ≤ n ∧ t.root (t.root n) = t.root n

/-- No two LIVE records share a key (R144). -/
def distinctLive (rs : List KeyRec) : Prop := ((rs.filter (·.live)).map (·.key)).Nodup

/-- The defect table (R144): one record for each used entry, LIVE as many as the LIVE count; LIVE plus ABSORBED equals entries
used; entries used do not exceed the capacity; no two LIVE entries share a key. -/
def Manager.TableOk (m : Manager) : Prop :=
  m.index.length = m.used ∧ liveRecords m.index = m.live ∧ m.live + m.absorbed = m.used ∧ m.used ≤ m.cap ∧
  distinctLive m.index

/-- What a rebuild has read back so far has passed the checks made so far (R153). -/
def Manager.BackOk (m : Manager) : Prop :=
  m.back.live + m.back.absorbed = m.back.used ∧ m.back.used ≤ m.cap ∧ distinctLive m.back.index

def Manager.Ok (m : Manager) : Prop := m.TableOk ∧ m.BackOk

/-- Each entry is at most as long as its depth of the halving allows: with `r` entries below it, 2 ^ (12 - r), and at most 12
lie below it (R82). -/
def stackFits : List SEntry → Prop
  | [] => True
  | e :: rest => e.count ≤ 2 ^ (12 - rest.length) ∧ rest.length ≤ 12 ∧ stackFits rest

/-- The ranges of a search: the popped one, if its halves are being judged, and those that wait. -/
def Search.ranges (s : Search) : List SEntry := s.cur.toList ++ s.stack

/-- The split search unit (R81, R82): at most 4096 candidates; the ranges are halves of halves, in ascending order with no index
in two of them; only a range of more than one candidate is split. -/
def Search.Ok (s : Search) : Prop :=
  s.buf.length ≤ 4096 ∧ stackFits s.ranges ∧ s.ranges.Pairwise (fun a b => a.first + a.count ≤ b.first) ∧
  ∀ e, s.cur = some e → 1 < e.count

/-- The search, and the candidates that a LOCATE would load (R133). -/
def Dev.SearchOk (d : Dev) : Prop := d.search.Ok ∧ d.ins.dSide.length ≤ 4096

/-- The printer port holds at most one line that a soft reset has marked to leave, and behind it at most 4 (R165, R172,
log 24). -/
def Tx.Ok (t : Tx) : Prop := t.discard ≤ 1 ∧ t.queue.length ≤ t.discard + 4

/-- What one sample of each channel makes of the measurement unit, `m`, and what its requester then does, `go`: with no
measurement nothing; one still short of its samples, or an over-range autoranged one that goes to the next lower current,
goes on; any other ends with its answer, the source off, for a bus pair, for the ramp check or for the thread that waits for
it (R20, R25, R26, R32, R33, R36, R40, R42). -/
def MeasUnit.Takes (u : MeasUnit) (diff hvv hvi : Int) (m : MeasUnit) (go : Dev → Dev) : Prop :=
  (u.job = none ∧ m = u ∧ go = id) ∨
  ∃ (j j' : Job) (x : Int) (sat : Bool), u.job = some j ∧ x = (if j.kind.usesDiff then diff else hvi) ∧
    sat = (if j.kind.usesDiff then decide (diff = 32767 ∨ diff = -32768) else decide (hvi = 32767)) ∧
    j' = { j with
      got := j.got + 1, sum := j.sum + x, sumV := j.sumV + hvv, sumI := j.sumI + hvi, sat := j.sat || sat
      allSat := j.allSat && sat } ∧
    ((j.got + 1 < j.n ∧ m = { u with job := some j' } ∧ go = id) ∨
      (j.n ≤ j.got + 1 ∧ ∃ ca cb r, j.kind = .twoPoint true ca cb ∧ j'.sat = true ∧
        (j.rng = .h ∧ r = Rng.m ∨ j.rng = .m ∧ r = Rng.l) ∧ go = id ∧
        m = { u with
          stim := r
          job := some { j with rng := r, got := 0, sum := 0, sumV := 0, sumI := 0, sat := false, allSat := true } }) ∨
      (j.n ≤ j.got + 1 ∧ ¬((∃ ca cb, j.kind = .twoPoint true ca cb) ∧ j'.sat = true ∧ (j.rng = .h ∨ j.rng = .m)) ∧
        m = { u with
          state := match j.kind with | .zero _ => .zeroing | _ => .idle
          stim := .none, route := .buses, job := none, ans := j'.answer u.zero } ∧
        go = (match j.kind with
          | .pair k => fun d => d.pairEnd k d.mu.ans.connected
          | .rampCheck => Dev.rampChecked
          | _ => fun d => if d.wait = .meas then { d with wait := .run } else d)))

end Sys2Proof.Machine
end

