-- ==== Sys2Proof/Certificates/Slice0/Obligations.lean ====
section
/-! DEFINITION. The statements for the provers. -/

open Sys2Proof Sys2Proof.Machine

/-! ## The step, and what every step keeps -/

/-- A step with a command at the front of the queue is that command's effect on the state with the queue's rest; with no
command waiting the model idles (the model's choice: log 4). -/
def Obligations.StepRunsFrontCommand : Prop :=
  (∀ (c : Instr) (rest : List Instr) (s : State), step { s with pending := c :: rest } = exec c { s with pending := rest }) ∧
  ∀ s : State, s.pending = [] → step s = .next s

/-- Every command runs, in every state, and leaves the queue of commands and the size of the fitted RAM (log 2) alone; and
test memory is written by grants of the arbiter alone: neither reset, no register command, no host access as it is accepted
and no event writes a byte of it. -/
def Obligations.EveryCommandAnswersNextState : Prop :=
  ∀ (c : Instr) (s : State), ∃ t, exec c s = .next t ∧ t.pending = s.pending ∧ t.ramBytes = s.ramBytes ∧
    (c ≠ .arbiterGrant → ∀ a, t.mem.byte a = s.mem.byte a)

/-- Every step keeps the canonical form of test memory. -/
def Obligations.StepsKeepMemoryCanonical : Prop :=
  ∀ s t : State, s.mem.wf = true → step s = .next t → t.mem.wf = true

/-- Every step keeps the host port's invariant: at most 8 queued writes, and an access held off only while the queue is full
(a write), has no entry for the word (a read) or still drains (a soft reset). -/
def Obligations.StepsKeepHostPort : Prop :=
  ∀ s t : State, s.HostPortOk → step s = .next t → t.HostPortOk

/-- Every step keeps this: the attention line is asserted exactly when a request is eligible, each level source not in service
is requested exactly while its condition holds, and the status area image holds what the blocks hold. -/
def Obligations.StepsKeepLineLevelsAndImage : Prop :=
  ∀ s t : State, s.dev.Follows → step s = .next t → t.dev.Follows

/-- The state after reset meets the invariants that the statements here say every step keeps: the memory's canonical form, the
host port's, the line, the level sources and the image, the printer port's lines, the search stack's, the defect table's, the
source off while the interlock is recorded open, and the interlock recorded as its input is. -/
def Obligations.ResetMeetsInvariants : Prop :=
  State.reset.mem.wf = true ∧ State.reset.HostPortOk ∧ State.reset.dev.Follows ∧ State.reset.dev.tx.Ok ∧
  State.reset.dev.SearchOk ∧ State.reset.dev.mgr.Ok ∧ State.reset.dev.hv.coverOff = true ∧
  State.reset.dev.InterlockRecorded

/-- The lockout latch, once set, stays set whatever command comes, but for a hardware reset; every step keeps this, and the
state after reset has it: while the latch is set the source is off. While it is set a ramp request is refused for it, an
INSULATE with a valid group map is refused with HV_LOCKOUT, and the SAFETY condition is true. The interlock likewise: it is
recorded as its input is, while it is recorded open the source is off, and every step keeps both; the source is on in RAMP
and DWELL alone, so that it is on in no state that a run reaches with the cover open (R106, R113 to R116, R121). -/
def Obligations.LockoutStaysUntilHardwareReset : Prop :=
  (∀ (c : Instr) (s t : State), c ≠ .hardwareReset → s.dev.hv.lockout = true → exec c s = .next t →
    t.dev.hv.lockout = true) ∧
  (∀ s t : State, (s.dev.hv.lockout = true → s.dev.hv.sourceOn = false) → step s = .next t →
    t.dev.hv.lockout = true → t.dev.hv.sourceOn = false) ∧
  State.reset.dev.hv.lockout = false ∧
  (∀ s t : State, (s.dev.hv.openRec = true → s.dev.hv.sourceOn = false) → step s = .next t →
    t.dev.hv.openRec = true → t.dev.hv.sourceOn = false) ∧
  (∀ s t : State, s.dev.hv.openRec = s.dev.pins.interlockOpen → step s = .next t →
    t.dev.hv.openRec = t.dev.pins.interlockOpen) ∧
  (∀ h : Hv, h.sourceOn = true ↔ h.state = .ramp ∨ h.state = .dwell) ∧
  ∀ d : Dev, d.hv.lockout = true → d.rampAnswer = .lockout ∧ d.safetyCond = true ∧
    (d.nets.mapValid = true → d.insulFault = some .hvLockout)

/-- The lines that the printer port holds: at most one that a soft reset has marked to leave at the end of its character, and
behind it at most 4, so at most 4 count in the fill and at most 5 are held; every step keeps this (R165; the marked line is
DEDUCED: log 24). -/
def Obligations.StepsKeepPrintQueueBound : Prop :=
  (∀ s t : State, s.dev.tx.Ok → step s = .next t → t.dev.tx.Ok) ∧
  ∀ x : Tx, x.Ok ↔ x.discard ≤ 1 ∧ x.queue.length ≤ x.discard + 4 ∧ x.fill ≤ 4

/-- Every step keeps the split search unit's invariant: at most 4096 candidates; each range on the stack, and the one popped
whose halves are being judged, as long at most as a half of its depth can be; the ranges in ascending order with no index in
two of them. So the stack holds at most 13 entries (R81, R82, R84). -/
def Obligations.StepsKeepSearchStackBound : Prop :=
  (∀ s t : State, s.dev.SearchOk → step s = .next t → t.dev.SearchOk) ∧
  ∀ d : Dev, d.SearchOk →
    d.search.buf.length ≤ 4096 ∧ d.search.stack.length ≤ 13 ∧
    d.search.stack.Pairwise (fun a b => a.first + a.count ≤ b.first) ∧
    ∀ (i : Nat) (e : SEntry), d.search.stack[i]? = some e → e.count ≤ 2 ^ (13 + i - d.search.stack.length)

/-- Every step keeps the defect table in agreement with its key index: one record for each used entry, LIVE as many as the LIVE
count, LIVE plus ABSORBED equal to entries used, no more entries than the capacity, and no two LIVE entries with one key; and
what a rebuild has read back so far with the checks that it has passed (R142, R144, R153). -/
def Obligations.StepsKeepDefectTable : Prop :=
  (∀ s t : State, s.dev.mgr.Ok → step s = .next t → t.dev.mgr.Ok) ∧
  ∀ m : Manager, m.Ok →
    m.index.length = m.used ∧ (m.index.filter (·.live)).length = m.live ∧ m.live + m.absorbed = m.used ∧ m.used ≤ m.cap ∧
    ∀ (i j : Nat) (a b : KeyRec), m.index[i]? = some a → m.index[j]? = some b → a.live = true → b.live = true →
      a.key = b.key → i = j

/-- What following the blocks after an event changes: the three level requests and the line, the status area image, and one
unwaited write (log 10) for each word of the status area that changed, and for no other (a burst each, one where two of its
fields changed, and none for a word left as it was: the model's choice, logs 46, 59 and 47); none while the reader is STOPPED
or before START writes the image. The image's eleven words hold the blocks' fields (R174, R204). An event on a part whose
thread rests has its own effect, then what follows the blocks, and nothing more. -/
def Obligations.FollowingChangesOnlyRequestsAndStatus : Prop :=
  (∀ d : Dev, ∃ posts : List Burst,
    d.sync = { d with
      attn := { d.attn with req := d.sync.attn.req, line := d.sync.attn.line }
      engineQ := d.engineQ ++ posts
      statusImg := d.statusWords } ∧
    (∀ x : BitVec 3, x ≠ 0 → x ≠ 5 → x ≠ 7 → hasSrc d.sync.attn.req x = hasSrc d.attn.req x) ∧
    (∀ b ∈ posts, ∃ i w, d.statusWords[i]? = some w ∧ b = ⟨0x20 + 4 * i, 1, some [w], false, true⟩) ∧
    (d.reader.state = .stopped ∨ d.reader.imageLive = false → posts = []) ∧
    (d.reader.state ≠ .stopped → d.reader.imageLive = true → ∀ i w v, d.statusWords[i]? = some w →
      d.statusImg[i]? = some v → (⟨0x20 + 4 * i, 1, some [w], false, true⟩ ∈ posts ↔ w ≠ v))) ∧
  (∀ d : Dev, ∃ w0 w5 w7 w10 : Word,
    d.statusWords = [w0, wordOf d.reader.refCode, wordOf d.reader.refOff, wordOf d.reader.curOff, wordOf d.reader.lastOff,
      w5, wordOf d.reader.spoolLines, w7, d.reader.sum.present, d.reader.sum.fault, w10] ∧
    b0 w0 = d.reader.state.code ∧ b1 w0 = d.reader.lastError.code ∧ b2 w0 = d.reader.startCheck % 256 ∧
    b3 w0 = (match d.reader.tableStart with | .none => 0 | .initialized => 1 | .rebuilt => 2 | .rebuildFailed => 3) ∧
    lo w5 = (if d.mgr.binding = .bound then d.mgr.used else 0) % 65536 ∧
    hi w5 = (if d.mgr.binding = .bound then d.mgr.live else 0) % 65536 ∧
    b0 w7 = d.tx.fill % 256 ∧ b1 w7 = (if d.hv.openRec = true then 1 else 0) ∧
    b2 w7 = (if d.hv.lockout = true then 1 else 0) ∧
    b3 w7 = (match d.mx.state with
      | .parked => 0 | .unparking => 1 | .ready => 2 | .setting => 3 | .held => 4 | .parking => 5) ∧
    b0 w10 = d.reader.sum.flags % 256 ∧ b1 w10 = d.reader.sum.outcome % 256 ∧
    b2 w10 = (if d.mu.zeroValid = true then 1 else 0) ∧ b3 w10 = 0) ∧
  ∀ (q : List (Nat × Word)) (d : Dev), d.Resting → d.settle q = d.sync ∧ (d.Follows → d.settle q = d)

/-! ## The attention unit (chapter 11) -/

/-- The priority order is a circle named by its lowest source; the eligible request of each mode is the highest of its
requests; SET_BOTTOM names the lowest; and after every step the line is asserted exactly when a request is eligible (R198). -/
def Obligations.LineAssertedExactlyWhenEligible : Prop :=
  State.reset.dev.attn.lowest = 7 ∧
  (∀ a : Attn, a.rank (a.lowest + 1) = 0 ∧ a.rank a.lowest = 7 ∧ ∀ x, x ≠ a.lowest → a.rank (x + 1) = a.rank x + 1) ∧
  (∀ (a : Attn) (h : BitVec 3), a.selective = false →
    (a.eligible = some h ↔
      (hasSrc a.req h = true ∧ hasSrc a.msk h = false ∧
        (∀ y, hasSrc a.req y = true → hasSrc a.msk y = false → a.rank h ≤ a.rank y) ∧
        ∀ y, hasSrc a.svc y = true → a.rank h < a.rank y))) ∧
  (∀ (a : Attn) (h : BitVec 3), a.selective = true →
    (a.eligible = some h ↔
      (hasSrc a.req h = true ∧ hasSrc a.msk h = false ∧ hasSrc a.svc h = false ∧
        ∀ y, hasSrc a.req y = true → hasSrc a.msk y = false → hasSrc a.svc y = false → a.rank h ≤ a.rank y))) ∧
  (∀ (s : State) (x : BitVec 3), s.hostWait = none → ∃ t, exec (.setBottom x) s = .next t ∧ t.dev.attn.lowest = x) ∧
  ∀ s t : State, s.dev.Follows → step s = .next t → (t.dev.attn.line = true ↔ ∃ h, t.dev.attn.eligible = some h)

/-- A poll returns the highest eligible request and takes it from the request set into the service set, or with AUTOCLOSE not
into it and with AUTOROTATE as well to the bottom of the order; with none eligible it returns 0 and changes
nothing (R199); the bits of the word that no layout names read 0 (the model's choice: log 67). -/
def Obligations.PollReturnsHighestEligible : Prop :=
  ∀ s : State, s.hostWait = none →
    (∀ x, s.dev.attn.eligible = some x → ∃ t,
      s.dev.AttnAfter
        { s.dev.attn with
          req := s.dev.attn.req &&& ~~~srcBit x
          svc := if s.dev.attn.autoclose then s.dev.attn.svc else s.dev.attn.svc ||| srcBit x
          lowest := if s.dev.attn.autoclose = true ∧ s.dev.attn.autorotate = true then x else s.dev.attn.lowest } t ∧
      exec .poll s = .next { s with dev := { s.dev with attn := t }, hostData := some (wordOf (0x80000000 + x.toNat)) }) ∧
    (s.dev.Follows → s.dev.attn.eligible = none → exec .poll s = .next { s with hostData := some 0 })

/-- What each write of ATTN_CMD and of MASK does to the sets, the order and the modes (R200); nothing else of the machine
changes. -/
def Obligations.AttentionCommandsAct : Prop :=
  ∀ s : State, s.hostWait = none →
    (∀ x, s.dev.attn.IsTop x →
      (∃ t, s.dev.AttnAfter { s.dev.attn with svc := s.dev.attn.svc &&& ~~~srcBit x } t ∧
        exec .closeTop s = .next { s with dev := { s.dev with attn := t } }) ∧
      ∃ t, s.dev.AttnAfter { s.dev.attn with svc := s.dev.attn.svc &&& ~~~srcBit x, lowest := x } t ∧
        exec .closeTopRotate s = .next { s with dev := { s.dev with attn := t } }) ∧
    (s.dev.Follows → (∀ x, ¬ s.dev.attn.IsTop x) → exec .closeTop s = .next s ∧ exec .closeTopRotate s = .next s) ∧
    (∀ x, ∃ t, s.dev.AttnAfter { s.dev.attn with svc := s.dev.attn.svc &&& ~~~srcBit x } t ∧
      exec (.closeSource x) s = .next { s with dev := { s.dev with attn := t } }) ∧
    (∀ x, s.dev.Follows → hasSrc s.dev.attn.svc x = false → exec (.closeSource x) s = .next s) ∧
    (∀ x, ∃ t, s.dev.AttnAfter { s.dev.attn with lowest := x } t ∧
      exec (.setBottom x) s = .next { s with dev := { s.dev with attn := t } }) ∧
    (∃ t, s.dev.AttnAfter { s.dev.attn with autoclose := true } t ∧
      exec .autocloseOn s = .next { s with dev := { s.dev with attn := t } }) ∧
    (∃ t, s.dev.AttnAfter { s.dev.attn with autoclose := false } t ∧
      exec .autocloseOff s = .next { s with dev := { s.dev with attn := t } }) ∧
    (∃ t, s.dev.AttnAfter { s.dev.attn with autorotate := true } t ∧
      exec .autorotateOn s = .next { s with dev := { s.dev with attn := t } }) ∧
    (∃ t, s.dev.AttnAfter { s.dev.attn with autorotate := false } t ∧
      exec .autorotateOff s = .next { s with dev := { s.dev with attn := t } }) ∧
    (∃ t, s.dev.AttnAfter { s.dev.attn with selective := true } t ∧
      exec .selectiveOn s = .next { s with dev := { s.dev with attn := t } }) ∧
    (∃ t, s.dev.AttnAfter { s.dev.attn with selective := false } t ∧
      exec .selectiveOff s = .next { s with dev := { s.dev with attn := t } }) ∧
    (∀ v : Word, ∃ t, s.dev.AttnAfter { s.dev.attn with msk := v.extractLsb' 0 8 } t ∧
      exec (.maskWrite v) s = .next { s with dev := { s.dev with attn := t } }) ∧
    ∀ (r : BitVec 2) (v : Word), exec (.ignoredRegisterWrite r v) s = .next s

/-- The attention unit after each reset: the service set is empty, no event is requested; after a hardware reset all sources
are masked in the default order with the modes off, after a soft reset mask, order and modes are kept; the line is as they
give (R201). The premise of the soft reset's events: no recording or clearing of the defect table in progress. -/
def Obligations.ResetsActOnAttention : Prop :=
  (∀ s : State, s.hostWait = none → ∃ t, exec .hardwareReset s = .next t ∧
    t.dev.attn.settings = (0, 0xFF, 7, false, false, false) ∧ t.dev.attn.line = false ∧ t.dev.LevelsFollow ∧
    ∀ x : BitVec 3, x ≠ 0 → x ≠ 5 → x ≠ 7 → hasSrc t.dev.attn.req x = false) ∧
  ∀ s : State, s.hostWait = none → s.hostQ = [] → ∃ t, exec .softReset s = .next t ∧
    t.dev.attn.settings = (0, s.dev.attn.msk, s.dev.attn.lowest, s.dev.attn.autoclose, s.dev.attn.autorotate,
      s.dev.attn.selective) ∧
    t.dev.attn.Judged ∧ t.dev.LevelsFollow ∧
    (s.dev.mgr.state ≠ .recording → s.dev.mgr.state ≠ .clearing →
      ∀ x : BitVec 3, x ≠ 0 → x ≠ 5 → x ≠ 7 → hasSrc t.dev.attn.req x = false)

/-! ## The host port and the memory arbiter (chapter 11) -/

/-- A memory-window write joins the tail of the queue while it holds fewer than 8 entries, and one to a word the reader does
not watch does nothing else; with 8 queued it is held off. A read is answered at once by the newest queued write to its word;
with none queued it waits for a grant. A soft reset waits for the queue to drain: it is held off while entries are queued, and
acts, as it does on an empty queue, when the last one has been written (R192, R193, R195). The premises on the blocks are
the invariant of StepsKeepLineLevelsAndImage and that the thread rests. -/
def Obligations.HostAccessesMeetQueue : Prop :=
  (∀ (s : State) (addr : BitVec 20) (v : Word), s.hostWait = none →
    (s.hostQ.length < 8 → s.dev.Follows → s.dev.Resting → ¬ s.dev.NoticesWrite (4 * addr.toNat) →
      exec (.hostWrite addr v) s = .next { s with hostQ := s.hostQ ++ [(4 * addr.toNat, v)] }) ∧
    (s.hostQ.length < 8 → ∃ t, exec (.hostWrite addr v) s = .next t ∧ t.hostQ = s.hostQ ++ [(4 * addr.toNat, v)] ∧
      t.hostWait = none) ∧
    (s.hostQ.length = 8 → exec (.hostWrite addr v) s = .next { s with hostWait := some (.write (4 * addr.toNat) v) })) ∧
  (∀ (s : State) (addr : BitVec 20), s.hostWait = none →
    (∀ (q1 q2 : List (Nat × Word)) (v : Word), s.hostQ = q1 ++ (4 * addr.toNat, v) :: q2 →
      (∀ e ∈ q2, e.1 ≠ 4 * addr.toNat) → exec (.hostRead addr) s = .next { s with hostData := some v }) ∧
    ((∀ e ∈ s.hostQ, e.1 ≠ 4 * addr.toNat) →
      exec (.hostRead addr) s = .next { s with hostWait := some (.read (4 * addr.toNat)) })) ∧
  (∀ s : State, s.hostWait = none → s.hostQ ≠ [] → exec .softReset s = .next { s with hostWait := some .softReset }) ∧
  (∀ (s : State) (off : Nat) (v : Word), s.hostWait = some .softReset → s.hostQ = [(off, v)] →
    (s.dev.engineQ = [] ∨ s.lastGrant = .engine) →
    exec .arbiterGrant s = exec .softReset
      { s with mem := ramWrite s.ramBytes s.mem off v, hostQ := [], hostWait := none, lastGrant := .host }) ∧
  ∀ (s : State) (off : Nat) (v : Word) (e : Nat × Word) (q : List (Nat × Word)), s.hostWait = some .softReset →
    s.hostQ = (off, v) :: e :: q → (s.dev.engineQ = [] ∨ s.lastGrant = .engine) →
    exec .arbiterGrant s = .next { s with mem := ramWrite s.ramBytes s.mem off v, hostQ := e :: q, lastGrant := .host }

/-- A write to the watched word wakes a WAITING reader, which reads the newest value accepted: a zero link keeps it WAITING, a
link that may hold a header is gone to, any other halts it with BAD_LINK; a header it watches is taken up when its status is
POSTED (R180, R182, R193). Where the status area is being written, a reader that wakes has RUNNING written into it before
anything that it then does: before the release mark, and before the HALTED with BAD_LINK that a bad link brings (R174). That
RUNNING at a bad link is a change of its own, and that HALTED and BAD_LINK are then one write of their one word, is the model's
choice (log 59). These words, and the release mark of the order left, are issued without a wait, the reader being at the linked
header, or HALTED, by then (DEDUCED: log 10). -/
def Obligations.HostWriteWakesReader : Prop :=
  ∀ (s : State) (addr : BitVec 20) (v : Word) (w : Watch), s.hostWait = none → s.hostQ.length < 8 →
    s.dev.reader.state = .waiting → s.dev.reader.watch = some w → w.off = 4 * addr.toNat →
    ∃ t, exec (.hostWrite addr v) s = .next t ∧ t.hostQ = s.hostQ ++ [(4 * addr.toNat, v)] ∧ t.mem = s.mem ∧
      ((∀ off, w ≠ .header off) →
        (v = 0 → t.dev.reader.state = .waiting ∧ t.dev.reader.watch = some w ∧ t.dev.reader.order = s.dev.reader.order) ∧
        (v ≠ 0 → headerFits v.toNat s.dev.memEnd = true →
          t.dev.reader.state = .running ∧ t.dev.reader.curOff = v.toNat ∧ t.dev.wait = .take ∧ t.dev.reader.watch = none ∧
          t.dev.reader.order = none ∧
          ∀ o, s.dev.reader.order = some o → ⟨o.off, 1, some [o.header o.status true], false, true⟩ ∈ t.dev.engineQ) ∧
        (v ≠ 0 → headerFits v.toNat s.dev.memEnd = false →
          t.dev.reader.state = .halted ∧ t.dev.reader.resume = some (.word w) ∧ t.dev.reader.lastError = .badLink ∧
          t.dev.reader.order = s.dev.reader.order ∧ hasSrc t.dev.attn.req 2 = true)) ∧
      (∀ off, w = .header off →
        (isPosted v = true → t.dev.reader.state = .running ∧ t.dev.reader.curOff = off ∧ t.dev.wait = .take ∧
          t.dev.reader.order = s.dev.reader.order) ∧
        (isPosted v = false → t.dev.reader.state = .waiting ∧ t.dev.reader.watch = some w)) ∧
      (s.dev.reader.imageLive = true → s.dev.ImageFollows →
        (∀ off, w = .header off → isPosted v = true) → ((∀ off, w ≠ .header off) → v ≠ 0) →
        ∃ (x : Word) (bs : List Burst), b0 x = 1 ∧ b1 x = s.dev.reader.lastError.code ∧
          t.dev.engineQ = orphanBursts s.dev.engineQ ++ ⟨0x20, 1, some [x], false, true⟩ :: bs ∧
          ((∀ off, w ≠ .header off) →
            (headerFits v.toNat s.dev.memEnd = true → ∀ o, s.dev.reader.order = some o →
              ⟨o.off, 1, some [o.header o.status true], false, true⟩ ∈ bs) ∧
            (headerFits v.toNat s.dev.memEnd = false →
              ∃ y : Word, b0 y = 3 ∧ b1 y = 3 ∧ bs = [⟨0x20, 1, some [y], false, true⟩])))

/-- The arbiter's choice: alone a requester is granted, of two the one that had not the last grant, and the marker names it;
with no requester nothing changes (the model's choice: log 5). A grant to the host port serves its read before its drain: the
word at that offset of the RAM; an offset past the end of the RAM is granted as any other, and what it reads is a free value
(log 3). A drain writes the queue's head entry to its word and to no other byte, and the entry leaves the queue; a write that
was held off with 8 entries queued then joins the tail; no word changes as a read finds it, the newest queued value or the
word in memory (R190, R192, R194). -/
def Obligations.GrantServesHostPort : Prop :=
  (∀ (s : State) (off : Nat), s.hostWait = some (.read off) → (s.dev.engineQ = [] ∨ s.lastGrant = .engine) →
    (off < s.ramBytes →
      exec .arbiterGrant s = .next { s with hostData := some (s.mem.word off), hostWait := none, lastGrant := .host }) ∧
    ∃ w, exec .arbiterGrant s = .next { s with hostData := some w, hostWait := none, lastGrant := .host }) ∧
  (∀ (s : State) (off : Nat) (v : Word) (q : List (Nat × Word)), s.mem.wf = true → s.hostWait = none →
    s.hostQ = (off, v) :: q → (s.dev.engineQ = [] ∨ s.lastGrant = .engine) → off < s.ramBytes →
    ∃ m : Memory, exec .arbiterGrant s = .next { s with mem := m, hostQ := q, lastGrant := .host } ∧ m.wf = true ∧
      m.word off = v ∧ ∀ a, (a < off ∨ off + 4 ≤ a) → m.byte a = s.mem.byte a) ∧
  (∀ (s : State) (off off' : Nat) (v v' : Word) (q : List (Nat × Word)), s.HostPortOk →
    s.hostWait = some (.write off' v') → s.hostQ = (off, v) :: q → (s.dev.engineQ = [] ∨ s.lastGrant = .engine) →
    ∃ t, exec .arbiterGrant s = .next t ∧ t.hostQ = q ++ [(off', v')] ∧ t.hostQ.length = 8 ∧ t.hostWait = none ∧
      t.mem = ramWrite s.ramBytes s.mem off v ∧ t.lastGrant = .host) ∧
  (∀ (s t : State), s.mem.wf = true → s.hostWait = none → s.hostQ ≠ [] → (s.dev.engineQ = [] ∨ s.lastGrant = .engine) →
    (∀ e ∈ s.hostQ, e.1 % 4 = 0 ∧ e.1 < s.ramBytes) → exec .arbiterGrant s = .next t →
    ∀ off, off % 4 = 0 →
      (newest t.hostQ off).getD (t.mem.word off) = (newest s.hostQ off).getD (s.mem.word off)) ∧
  ∀ s : State,
    (s.hostAsks = true ↔ s.hostQ ≠ [] ∨ ∃ off, s.hostWait = some (.read off)) ∧
    (s.engineAsks = true ↔ s.dev.engineQ ≠ []) ∧
    (s.hostAsks = false → s.engineAsks = false → exec .arbiterGrant s = .next s) ∧
    ∀ t, exec .arbiterGrant s = .next t →
      (s.hostAsks = true → (s.engineAsks = false ∨ s.lastGrant = .engine) → t.lastGrant = .host) ∧
      (s.engineAsks = true → (s.hostAsks = false ∨ s.lastGrant = .host) → t.lastGrant = .engine)

/-- A grant to the engine side makes its first burst whole: a write puts its words at consecutive offsets and changes no other
byte, a read gives for each word the newest queued host write or the word in memory. The burst goes; the thread that waits
goes on after its run's last burst. A burst of a read run whose words are all queued when it comes up is answered from the
queue with no grant; a run of up to 4 words is one burst, one of 8 is two (R192, R194; log 11). -/
def Obligations.GrantMakesEngineBurst : Prop :=
  (∀ (s : State) (b : Burst) (bs : List Burst), s.mem.wf = true → s.dev.engineQ = b :: bs →
    ((s.hostQ = [] ∧ ∀ off, s.hostWait ≠ some (.read off)) ∨ s.lastGrant = .host) → b.off + 4 * b.n ≤ s.ramBytes →
    (∀ ws, b.data = some ws → ws.length = b.n →
      ∃ m : Memory, m.wf = true ∧ (∀ i, i < b.n → some (m.word (b.off + 4 * i)) = ws[i]?) ∧
        (∀ a, (a < b.off ∨ b.off + 4 * b.n ≤ a) → m.byte a = s.mem.byte a) ∧
        exec .arbiterGrant s = .next { s with
          mem := m
          lastGrant := .engine
          dev := Dev.settle s.hostQ
            (if b.mine = true ∧ b.last = true ∧ s.dev.wait = .mem then { s.dev with engineQ := bs, wait := .run }
             else { s.dev with engineQ := bs }) }) ∧
    (b.data = none → b.mine = true → ∀ r : List Word × List Burst × Bool,
      r = (if b.last then ([], bs, true) else answerQueued s.hostQ bs) →
      ∃ ws : List Word, ws.length = b.n ∧
        (∀ i, i < b.n → ws[i]? =
          some ((newest s.hostQ (b.off + 4 * i)).getD (s.mem.word (b.off + 4 * i)))) ∧
        exec .arbiterGrant s = .next { s with
          lastGrant := .engine
          dev := Dev.settle s.hostQ { s.dev with
            engineQ := r.2.1, rbuf := s.dev.rbuf ++ ws ++ r.1
            wait := if r.2.2 = true ∧ s.dev.wait = .mem then .run else s.dev.wait } })) ∧
  (∀ (q : List (Nat × Word)) (b : Burst) (bs : List Burst),
    (b.data ≠ none ∨ (∃ i, i < b.n ∧ newest q (b.off + 4 * i) = none) → answerQueued q (b :: bs) = ([], b :: bs, false)) ∧
    ∀ ws : List Word, b.data = none → ws.length = b.n → (∀ i, i < b.n → newest q (b.off + 4 * i) = ws[i]?) →
      answerQueued q (b :: bs) =
        if b.last then (ws, bs, true)
        else (ws ++ (answerQueued q bs).1, (answerQueued q bs).2.1, (answerQueued q bs).2.2)) ∧
  ∀ (q : List (Nat × Word)) (off n : Nat) (d : Dev) (bs : List Burst) (r : List Word × List Burst × Bool),
    (1 ≤ n ∧ n ≤ 4 ∧ bs = [⟨off, n, none, true, true⟩] ∨
      n = 8 ∧ bs = [⟨off, 4, none, true, false⟩, ⟨off + 16, 4, none, true, true⟩]) → r = answerQueued q bs →
    runTask q (.read off n) d = { d with
      rbuf := d.rbuf ++ r.1, engineQ := d.engineQ ++ r.2.1, wait := if r.2.2 then d.wait else .mem }

/-- The four registers by the two address lines: the word that a read of each gives and its fields, with the codes of reader
state and last error; a read of register 2 is the poll, any other changes nothing; and the commands that the writes give
(R191, R207); the bits that no layout names read 0 (the model's choice: log 67). The table of commands has a row for the
poll's read alone (log 41). -/
def Obligations.RegisterFieldsAndCommands : Prop :=
  (∀ (s : State) (r : BitVec 2), s.hostWait = none →
    (s.readRegister r).hostData = some (s.dev.registerWord r) ∧
    (r ≠ 2 → s.readRegister r = { s with hostData := some (s.dev.registerWord r) }) ∧
    exec .poll s = .next (s.readRegister 2)) ∧
  (∀ d : Dev, d.registerWord 0 = identRead ∧ d.registerWord 1 = d.runRead ∧
    d.registerWord 2 = pollWord d.attn.eligible ∧ d.registerWord 3 = d.viewRead) ∧
  (lo identRead = 0x3260 ∧ b2 identRead = 0x12 ∧ b3 identRead = 0) ∧
  (∀ d : Dev, b0 d.runRead = d.reader.state.code ∧ b1 d.runRead = d.reader.lastError.code ∧ hi d.runRead = 0) ∧
  (RState.code .stopped = 0 ∧ RState.code .running = 1 ∧ RState.code .waiting = 2 ∧ RState.code .halted = 3) ∧
  (LastError.code .none = 0 ∧ LastError.code .badControlBlock = 1 ∧ LastError.code .orderFailed = 2 ∧
    LastError.code .badLink = 3 ∧ LastError.code .interlockOpen = 4) ∧
  (∀ d : Dev, b0 d.viewRead = d.attn.req.toNat ∧ b1 d.viewRead = d.attn.svc.toNat ∧ b2 d.viewRead = d.attn.msk.toNat ∧
    d.viewRead.extractLsb' 24 3 = d.attn.lowest ∧ bitAt d.viewRead 27 = d.attn.autoclose ∧
    bitAt d.viewRead 28 = d.attn.autorotate ∧ bitAt d.viewRead 29 = d.attn.selective ∧
    bitAt d.viewRead 30 = false ∧ bitAt d.viewRead 31 = false) ∧
  (∀ x : BitVec 3, (pollWord (some x)).extractLsb' 0 3 = x ∧ bitAt (pollWord (some x)) 31 = true ∧
    (pollWord (some x)).extractLsb' 3 28 = 0) ∧
  pollWord none = 0 ∧
  (∀ v : Word, b0 v = 1 → registerCommand 1 v = .start) ∧ (∀ v : Word, b0 v = 2 → registerCommand 1 v = .halt) ∧
  (∀ v : Word, b0 v = 3 → registerCommand 1 v = .resume) ∧ (∀ v : Word, b0 v = 4 → registerCommand 1 v = .abort) ∧
  (∀ v : Word, b0 v = 5 → registerCommand 1 v = .softReset) ∧
  (∀ v : Word, b0 v = 1 → registerCommand 2 v = .closeTop) ∧
  (∀ v : Word, b0 v = 2 → registerCommand 2 v = .closeSource (v.extractLsb' 8 3)) ∧
  (∀ v : Word, b0 v = 3 → registerCommand 2 v = .closeTopRotate) ∧
  (∀ v : Word, b0 v = 4 → registerCommand 2 v = .setBottom (v.extractLsb' 8 3)) ∧
  (∀ v : Word, b0 v = 5 → registerCommand 2 v = .autocloseOn) ∧ (∀ v : Word, b0 v = 6 → registerCommand 2 v = .autocloseOff) ∧
  (∀ v : Word, b0 v = 7 → registerCommand 2 v = .autorotateOn) ∧
  (∀ v : Word, b0 v = 8 → registerCommand 2 v = .autorotateOff) ∧
  (∀ v : Word, b0 v = 9 → registerCommand 2 v = .selectiveOn) ∧ (∀ v : Word, b0 v = 10 → registerCommand 2 v = .selectiveOff) ∧
  (∀ v : Word, registerCommand 3 v = .maskWrite v) ∧
  (∀ v : Word, ignoredWrite 0 v = true ∧ (ignoredWrite 1 v = true ↔ b0 v = 0 ∨ 5 < b0 v) ∧
    (ignoredWrite 2 v = true ↔ b0 v = 0 ∨ 10 < b0 v) ∧ ignoredWrite 3 v = false) ∧
  ∀ (r : BitVec 2) (v : Word), ignoredWrite r v = true → registerCommand r v = .ignoredRegisterWrite r v

/-! ## Resets (R22 to R24, R46, R63, R118, R119, R148, R154, R172, R186, R189, R195) -/

/-- What every block holds after a hardware reset. Test memory keeps its contents. -/
def Obligations.HardwareResetValues : Prop :=
  ∀ s : State, s.hostWait = none → ∃ t, exec .hardwareReset s = .next t ∧
    t.mem = s.mem ∧ t.hostQ = [] ∧ t.hostWait = none ∧ t.lastGrant = .engine ∧ t.dev.pins = s.dev.pins ∧
    t.dev.engineQ = [] ∧ t.dev.tasks = [] ∧
    (t.dev.reader.state = .stopped ∧ t.dev.reader.haltPending = false ∧ t.dev.reader.resume = none ∧
      t.dev.reader.watch = none ∧ t.dev.reader.order = none ∧ t.dev.reader.lastError = .none ∧ t.dev.reader.bind = none ∧
      t.dev.reader.startCheck = 0 ∧ t.dev.reader.curOff = 0 ∧ t.dev.reader.lastOff = 0 ∧ t.dev.reader.refCode = 0 ∧
      t.dev.reader.refOff = 0 ∧ t.dev.reader.sum = ⟨0, 0, 0, 0⟩ ∧ t.dev.reader.spoolLines = s.dev.reader.spoolLines) ∧
    (t.dev.cfg.release = 20 ∧ t.dev.cfg.settle = 30 ∧ t.dev.cfg.gH = 32768 ∧ t.dev.cfg.gM = 32768 ∧
      t.dev.cfg.gL = 32768 ∧ t.dev.cfg.pLim = 2000 ∧ t.dev.cfg.oLim = 100000 ∧ t.dev.cfg.tLim = 1000000 ∧
      t.dev.cfg.n = 16 ∧ t.dev.cfg.dischTimeout = 2000 ∧ t.dev.cfg.trip = 50 ∧ t.dev.cfg.print = .default) ∧
    (t.dev.mx.state = .parked ∧ t.dev.mx.cur = [] ∧ t.dev.mx.tgt = [] ∧ t.dev.mx.cards = [] ∧
      t.dev.mx.parkPending = false ∧ t.dev.mx.offT = some 500 ∧ t.dev.mx.releaseT = none ∧ t.dev.mx.settleT = none ∧
      t.dev.mx.unparkT = none ∧ t.dev.mx.link.state = .idle ∧ t.dev.mx.drive = false) ∧
    (t.dev.mu.state = .idle ∧ t.dev.mu.stim = .none ∧ t.dev.mu.leak = .l3 ∧ t.dev.mu.job = none ∧
      t.dev.mu.zero = ⟨0, 0, 0, 0, 0, 0⟩ ∧ t.dev.mu.zeroValid = false) ∧
    (t.dev.nets.tablesValid = false ∧ t.dev.nets.mapValid = false ∧ t.dev.nets.count = 0 ∧ t.dev.nets.members = [] ∧
      t.dev.nets.fitted = 0 ∧ (∀ p, t.dev.nets.pt p = ⟨0, .untested, 0⟩ ∧ t.dev.nets.compAt p = 0) ∧
      ∀ n, t.dev.nets.root n = n) ∧
    (t.dev.search.state = .idle ∧ t.dev.search.stack = [] ∧ t.dev.search.cur = none ∧ t.dev.search.locCount = 0 ∧
      t.dev.search.buf = [] ∧ t.dev.sweep.state = .idle ∧ t.dev.ins.state = .idle) ∧
    (t.dev.hv.state = .discharge ∧ t.dev.hv.dischT = some 2000 ∧ t.dev.hv.lockout = false ∧ t.dev.hv.arcs = 0 ∧
      t.dev.hv.armed = false ∧ t.dev.hv.rampT = none ∧ t.dev.hv.pauseMark = false ∧
      t.dev.hv.openRec = s.dev.pins.interlockOpen) ∧
    (t.dev.mgr.state = .idle ∧ t.dev.mgr.binding = .none ∧ t.dev.mgr.index = [] ∧ t.dev.mgr.used = 0 ∧
      t.dev.mgr.live = 0 ∧ t.dev.mgr.absorbed = 0 ∧ t.dev.mgr.dropped = 0) ∧
    t.dev.fmt.state = .idle ∧ t.dev.fmt.buf = [] ∧ t.dev.tx.state = .idle ∧ t.dev.tx.queue = []

/-- What every block but the matrix holds after a soft reset that acts at once, with no recording or clearing of the defect
table and no writing of a self-check record in progress: SoftResetActsOnMatrix has those. Of the accesses issued, those no
block waits for stay, and of the thread's run the next burst, if it is a write (log 37). The status area words are written
again only after the next START; of them the table start field keeps its value (DESIGN CHOICE: log 25). At the printer port
the line of a character in transmission is marked to leave at its end, any other leaves at once (DEDUCED: log 24). -/
def Obligations.SoftResetValues : Prop :=
  ∀ s : State, s.hostWait = none → s.hostQ = [] → s.dev.mgr.state ≠ .recording → s.dev.mgr.state ≠ .clearing →
    (s.dev.mx.state = .unparking → s.dev.mx.phase ≠ .recording) →
    ∃ t, exec .softReset s = .next t ∧
      t.mem = s.mem ∧ t.hostQ = [] ∧ t.hostWait = none ∧ t.lastGrant = s.lastGrant ∧ t.dev.pins = s.dev.pins ∧
      t.dev.cfg = s.dev.cfg ∧ t.dev.tasks = [] ∧
      ((∀ b ∈ s.dev.engineQ, b.mine = false) → t.dev.engineQ = s.dev.engineQ) ∧
      (∀ pre c rest, s.dev.engineQ = pre ++ c :: rest → (∀ b ∈ pre, b.mine = false) → c.mine = true →
        t.dev.engineQ = pre ++ (if c.data = none then [] else [{ c with mine := false }]) ++ rest.filter fun b => !b.mine) ∧
      (t.dev.reader.state = .stopped ∧ t.dev.reader.haltPending = false ∧ t.dev.reader.resume = none ∧
        t.dev.reader.watch = none ∧ t.dev.reader.order = none ∧ t.dev.reader.lastError = .none ∧
        t.dev.reader.bind = none ∧ t.dev.reader.startCheck = 0 ∧ t.dev.reader.curOff = s.dev.reader.curOff ∧
        t.dev.reader.lastOff = s.dev.reader.lastOff ∧ t.dev.reader.refCode = s.dev.reader.refCode ∧
        t.dev.reader.refOff = s.dev.reader.refOff ∧ t.dev.reader.sum = s.dev.reader.sum ∧
        t.dev.reader.spoolLines = s.dev.reader.spoolLines ∧ t.dev.reader.tableStart = s.dev.reader.tableStart ∧
        t.dev.reader.imageLive = false ∧ t.dev.reader.ending = none ∧ t.dev.reader.earlyNotice = false) ∧
      (t.dev.mu.state = .idle ∧ t.dev.mu.stim = .none ∧ t.dev.mu.leak = .l3 ∧ t.dev.mu.job = none ∧
        t.dev.mu.zero = s.dev.mu.zero ∧ t.dev.mu.zeroValid = s.dev.mu.zeroValid) ∧
      (t.dev.nets.tablesValid = false ∧ t.dev.nets.mapValid = false ∧ t.dev.nets.count = 0 ∧ t.dev.nets.members = [] ∧
        t.dev.nets.fitted = 0 ∧ (∀ p, t.dev.nets.pt p = ⟨0, .untested, 0⟩ ∧ t.dev.nets.compAt p = 0) ∧
        ∀ n, t.dev.nets.root n = n) ∧
      (t.dev.search.state = .idle ∧ t.dev.search.stack = [] ∧ t.dev.search.cur = none ∧ t.dev.search.locCount = 0 ∧
        t.dev.search.buf = [] ∧ t.dev.sweep.state = .idle ∧ t.dev.ins.state = .idle ∧ t.dev.fmt.state = .idle ∧ t.dev.fmt.buf = []) ∧
      ((s.dev.hv.sourceOn = true → t.dev.hv.state = .discharge ∧ t.dev.hv.dischT = some s.dev.cfg.dischTimeout) ∧
        (s.dev.hv.sourceOn = false → t.dev.hv.state = s.dev.hv.state ∧ t.dev.hv.dischT = s.dev.hv.dischT) ∧
        t.dev.hv.lockout = s.dev.hv.lockout ∧ t.dev.hv.arcs = s.dev.hv.arcs ∧ t.dev.hv.armed = false ∧
        t.dev.hv.pauseMark = false ∧ t.dev.hv.openRec = s.dev.hv.openRec) ∧
      (t.dev.mgr.state = .idle ∧ t.dev.mgr.index = [] ∧
        t.dev.mgr.back = .none ∧
        (s.dev.mgr.binding = .bound ∨ s.dev.mgr.state = .rebuilding → t.dev.mgr.binding = .rebuild) ∧
        (s.dev.mgr.binding ≠ .bound → s.dev.mgr.state ≠ .rebuilding → t.dev.mgr.binding = .none)) ∧
      t.dev.tx.fill = 0 ∧
      (s.dev.tx.state = .sending → t.dev.tx.state = .sending ∧ t.dev.tx.pos = s.dev.tx.pos ∧
        t.dev.tx.queue = s.dev.tx.queue.take 1 ∧ t.dev.tx.discard = t.dev.tx.queue.length) ∧
      (s.dev.tx.state ≠ .sending → t.dev.tx.state = .idle ∧ t.dev.tx.queue = [])

/-- A soft reset at the matrix, by its state: with a park pending or in progress it changes nothing further; an exchange in
progress ends first, an access of a self-check record likewise, after which the unpark stops (R22, R24). A recording or
clearing in progress makes the accesses up to its end, raises no attention and then leaves the manager reset (R148, R154).
The premise of the matrix clauses on the manager as in SoftResetValues. -/
def Obligations.SoftResetActsOnMatrix : Prop :=
  (∀ s : State, s.hostWait = none → s.hostQ = [] → s.dev.mgr.state ≠ .recording → s.dev.mgr.state ≠ .clearing →
    ∃ t, exec .softReset s = .next t ∧
      (s.dev.mx.state = .parked ∨ s.dev.mx.state = .parking ∨ s.dev.mx.parkPending = true → t.dev.mx = s.dev.mx) ∧
      (s.dev.mx.parkPending = false →
        (s.dev.mx.state = .ready → s.dev.hv.state ≠ .off → t.dev.mx = { s.dev.mx with parkPending := true }) ∧
        (s.dev.mx.state = .ready → s.dev.hv.state = .off →
          t.dev.mx.state = .parking ∧ t.dev.mx.parkPending = false ∧ t.dev.mx.cur = s.dev.mx.cur ∧
          (s.dev.mx.presentCards = [] → t.dev.mx.releaseT = some s.dev.cfg.release) ∧
          ∀ c rest, s.dev.mx.presentCards = c :: rest →
            t.dev.mx.link = ⟨.sending, c, List.replicate 128 .none, 1⟩ ∧ t.dev.mx.phase = .parking rest) ∧
        (s.dev.mx.state = .setting →
          t.dev.mx = { s.dev.mx with parkPending := true, requester := false, waitReq := none }) ∧
        (s.dev.mx.state = .held → s.dev.mx.phase ≠ .heldRecovery → s.dev.hv.state ≠ .off →
          t.dev.mx.state = .ready ∧ t.dev.mx.parkPending = true ∧ t.dev.mx.tgt = s.dev.mx.cur ∧
          t.dev.mx.cur = s.dev.mx.cur ∧ t.dev.mx.link = s.dev.mx.link) ∧
        (s.dev.mx.state = .held → s.dev.mx.phase = .heldRecovery →
          t.dev.mx = { s.dev.mx with parkPending := true, requester := false, waitReq := none }) ∧
        (s.dev.mx.state = .unparking → s.dev.mx.phase = .unparkSettle ∨ (∃ k, s.dev.mx.phase = .pairing k) ∨
            s.dev.mx.phase = .failWait ∨ (s.dev.mx.phase = .recording ∧ ∀ b ∈ s.dev.engineQ, b.mine = false) →
          t.dev.mx.state = .parked ∧ t.dev.mx.drive = false ∧ t.dev.mx.cards = [] ∧ t.dev.mx.cur = [] ∧
          t.dev.mx.offT = some 500 ∧ t.dev.mx.unparkT = none ∧ t.dev.mx.releaseT = none) ∧
        (s.dev.mx.state = .unparking → s.dev.mx.phase = .enumerating ∨
            (∃ cs, s.dev.mx.phase = .checking cs ∨ s.dev.mx.phase = .failing cs) →
          t.dev.mx = { s.dev.mx with stopUnpark := true }) ∧
        (s.dev.mx.state = .unparking → s.dev.mx.phase = .recording → s.dev.wait = .mem →
            (∃ b ∈ s.dev.engineQ, b.mine = true) →
          t.dev.mx = { s.dev.mx with stopUnpark := true } ∧ t.dev.engineQ = s.dev.engineQ ∧
          t.dev.tasks = [.recordStop] ∧ t.dev.wait = .mem))) ∧
  (∀ (q : List (Nat × Word)) (d e : Dev), d.wait = .run → e = runTask q .recordStop d →
    e.mx.state = .parked ∧ e.mx.drive = false ∧ e.mx.cards = [] ∧ e.mx.cur = [] ∧ e.mx.offT = some 500 ∧
    e.tasks = d.tasks) ∧
  (∀ s : State, s.hostWait = none → s.hostQ = [] → (s.dev.mgr.state = .recording ∨ s.dev.mgr.state = .clearing) →
    s.dev.wait = .mem → ∃ t, exec .softReset s = .next t ∧ t.dev.mgr = { s.dev.mgr with orphan := true } ∧
      t.dev.engineQ = s.dev.engineQ ∧ t.dev.wait = .mem ∧ t.dev.tasks = managerSteps s.dev.tasks ∧
      t.dev.rbuf = s.dev.rbuf ∧ t.dev.reader.state = .stopped) ∧
  (∀ (x : Task) (xs : List Task), managerSteps [] = [] ∧
    ((∃ f a i, x = .mergeGot f i ∨ x = .appended f ∨ x = .findingEnd f a ∨ x = .cleared) → managerSteps (x :: xs) = [x]) ∧
    ((∀ f a i, x ≠ .mergeGot f i ∧ x ≠ .appended f ∧ x ≠ .findingEnd f a ∧ x ≠ .cleared) →
      managerSteps (x :: xs) = x :: managerSteps xs)) ∧
  ∀ (q : List (Nat × Word)) (d : Dev) (f : Finding) (a : FindAns), d.mgr.orphan = true →
    (runTask q (.raiseDefect f) d).attn = d.attn ∧
    ∀ m : Manager, m = { Manager.reset with
        binding := if d.mgr.binding = .bound ∨ d.mgr.state = .rebuilding then .rebuild else .none } →
      runTask q (.findingEnd f a) d = { d with mgr := m } ∧ runTask q .cleared d = { d with mgr := m }

/-! ## Run commands, the take and the end of an order (chapter 10) -/

/-- The checks of START: the first that fails gives its number, 1 to 6, and START passes where none fails (R173, R175). START
in STOPPED reads the control block, forwarded from the host write queue; a failing check leaves the reader STOPPED with
BAD_CONTROL_BLOCK and issues the whole image; when all pass, the locations are bound, the reader is RUNNING and the defect
table is bound, initialized or read back; in any other state nothing happens (R175, R176, R152). The words are read within
the command, as the reader's own reads find them (State.peek; DEDUCED: log 9): from the queue or the RAM, unless a write
of the part to the host's part of the control block is still issued, as an abandoned LEARN may leave one (R93). The image
of a START that fails is issued without a wait (DEDUCED: log 10). Binding, step by step: with no table NONE, else the
table is initialized, its header written, or read back; a rebuild fails at the first of its checks: header, kind, state,
key of a LIVE entry already there, number of LIVE entries; what it reads back is held aside and taken when all have passed,
else it initializes; INITIALIZED, REBUILT or REBUILD_FAILED (states: log 61; a dropped word above 65535: log 57, the
model's choices). Then the image is written, and the reader is HALTED, WAITING at the chain head, or at the first header; a
write to the chain head accepted since START read it has a WAITING reader read it again (R193; DEDUCED: log 22). -/
def Obligations.StartChecksAndActs : Prop :=
  (memoryBytes 1 = some (256 * 1024) ∧ memoryBytes 2 = some (512 * 1024) ∧ memoryBytes 3 = some (1024 * 1024) ∧
    memoryBytes 4 = some (2048 * 1024) ∧ memoryBytes 5 = some (4096 * 1024) ∧
    ∀ c, (c = 0 ∨ 5 < c) → memoryBytes c = none) ∧
  (∀ (ws : List Word) (w : Nat → Nat), (∀ i, w i = (ws.getD i 0).toNat) →
    (memoryBytes (w 0) = none → startFault ws = some 1) ∧
    ∀ (m : Nat) (c2 c3 c4 c5 c6 : Prop), memoryBytes (w 0) = some m →
      (c2 ↔ (w 2 ≠ 0 → 1 ≤ w 3 ∧ w 3 ≤ 1024 ∧ w 2 % 4 = 0 ∧ 0x80 ≤ w 2 ∧ w 2 + (16 + 32 * w 3) ≤ m)) →
      (c3 ↔ (w 4 ≠ 0 → w 4 % 4 = 0 ∧ 0x80 ≤ w 4 ∧ w 4 + 49152 ≤ m)) →
      (c4 ↔ (w 5 ≠ 0 → w 5 % 4 = 0 ∧ 0x80 ≤ w 5 ∧ w 5 + 8192 ≤ m)) →
      (c5 ↔ (w 6 ≠ 0 → 1 ≤ w 7 ∧ w 7 ≤ 65535 ∧ w 6 % 4 = 0 ∧ 0x80 ≤ w 6 ∧ w 6 + 64 * w 7 ≤ m)) →
      (c6 ↔ (w 1 ≠ 0 → w 1 % 4 = 0 ∧ 0x80 ≤ w 1 ∧ w 1 + 12 ≤ m)) →
      (¬ c2 → startFault ws = some 2) ∧ (c2 → ¬ c3 → startFault ws = some 3) ∧
      (c2 → c3 → ¬ c4 → startFault ws = some 4) ∧ (c2 → c3 → c4 → ¬ c5 → startFault ws = some 5) ∧
      (c2 → c3 → c4 → c5 → ¬ c6 → startFault ws = some 6) ∧
      (c2 → c3 → c4 → c5 → c6 → startFault ws = none)) ∧
  (∀ s : State, s.hostWait = none →
    (s.dev.reader.state ≠ .stopped → exec .start s = .next s) ∧
    ∀ ws : List Word, ws = (List.range 8).map (fun i => s.peek (4 * i)) → s.dev.reader.state = .stopped →
      ((∀ b ∈ s.dev.engineQ, 0x20 ≤ b.off) →
        ws = (List.range 8).map fun i => (newest s.hostQ (4 * i)).getD (ramRead s.ramBytes s.mem (4 * i))) ∧
      (∀ n, startFault ws = some n → s.dev.Resting →
        ∃ t, exec .start s = .next t ∧ t.mem = s.mem ∧ t.hostQ = s.hostQ ∧ t.dev.mgr = s.dev.mgr ∧
          t.dev.reader = { s.dev.reader with lastError := .badControlBlock, startCheck := n } ∧
          ∀ b ∈ writeBursts false 11 0x20 t.dev.statusWords, b ∈ t.dev.engineQ) ∧
      (startFault ws = none → s.dev.wait = .run → s.dev.tasks = [] → s.dev.rbuf = [] →
        ∃ (g : Side) (t : State), exec .start s = .next t ∧
          t = { s with
            lastGrant := g
            dev := Dev.settle s.hostQ { s.dev with
              reader := { s.dev.reader with
                lastError := .none, startCheck := 0, state := .running, bind := some (bindOf ws), earlyNotice := false }
              tasks := [.bindTable, .image, .startEnd (ws.getD 1 0).toNat] } } ∧
          ((bindOf ws).defOff = 0 ∨ s.dev.mgr.binding = .none ∨ (∀ e ∈ s.hostQ, e.1 ≠ (bindOf ws).defOff) →
            t.dev.wait = .mem ∧ t.dev.reader.state = .running ∧ t.dev.reader.bind = some (bindOf ws) ∧
            t.dev.reader.lastError = .none ∧ t.dev.reader.startCheck = 0) ∧
          ((bindOf ws).defOff = 0 → t.dev.mgr.binding = .none ∧ t.dev.reader.tableStart = .none ∧
            t.dev.tasks = [.startEnd (ws.getD 1 0).toNat] ∧
            ∀ b ∈ writeBursts true 11 0x20 t.dev.statusWords, b ∈ t.dev.engineQ) ∧
          ((bindOf ws).defOff ≠ 0 → s.dev.mgr.binding = .none →
            t.dev.mgr = { s.dev.mgr with
              off := (bindOf ws).defOff, cap := (bindOf ws).defCap, used := 0, live := 0, absorbed := 0, dropped := 0
              index := [], back := .none } ∧
            ⟨(bindOf ws).defOff, 4, some [0, 0, 0, 0], true, true⟩ ∈ t.dev.engineQ) ∧
          ((bindOf ws).defOff ≠ 0 → s.dev.mgr.binding ≠ .none → (∀ e ∈ s.hostQ, e.1 ≠ (bindOf ws).defOff) →
            t.dev.mgr.state = .rebuilding ∧ ⟨(bindOf ws).defOff, 4, none, true, true⟩ ∈ t.dev.engineQ))) ∧
  ∀ (q : List (Nat × Word)) (d : Dev) (empty : Manager) (failed : Dev),
    empty = { d.mgr with used := 0, live := 0, absorbed := 0, dropped := 0, index := [], back := .none } →
    failed = { d with
      mgr := empty, rbuf := [], tasks := .write d.mgr.off [0, 0, 0, 0] :: .bindEnd .rebuildFailed :: d.tasks } →
    (∀ b : Bind, d.reader.bind = some b →
      (b.defOff = 0 → runTask q .bindTable d = { d with mgr := Manager.reset, tasks := .bindEnd .none :: d.tasks }) ∧
      (b.defOff ≠ 0 → d.mgr.binding = .none → runTask q .bindTable d = { d with
        mgr := { empty with off := b.defOff, cap := b.defCap }
        tasks := .write b.defOff [0, 0, 0, 0] :: .bindEnd .initialized :: d.tasks }) ∧
      (b.defOff ≠ 0 → d.mgr.binding ≠ .none → runTask q .bindTable d = { d with
        mgr := { empty with off := b.defOff, cap := b.defCap, state := .rebuilding }
        rbuf := [], tasks := .read b.defOff 4 :: .rebuildHead :: d.tasks })) ∧
    (∀ u l a x : Word, d.rbuf = [u, l, a, x] →
      (d.mgr.cap < u.toNat ∨ l.toNat + a.toNat ≠ u.toNat → runTask q .rebuildHead d = failed) ∧
      (u.toNat ≤ d.mgr.cap → l.toNat + a.toNat = u.toNat → runTask q .rebuildHead d = { d with
        mgr := { d.mgr with back := ⟨u.toNat, l.toNat, a.toNat, x.toNat, []⟩ }
        rbuf := [], tasks := .rebuildEntry 0 :: d.tasks })) ∧
    (∀ i : Nat,
      (i < d.mgr.back.used → runTask q (.rebuildEntry i) d = { d with
        rbuf := []
        tasks := .read (d.mgr.off + 16 + 32 * i) 1 :: .read (d.mgr.off + 16 + 32 * i + 8) 2 :: .rebuildCheck i :: d.tasks }) ∧
      (d.mgr.back.used ≤ i → d.mgr.back.index.length = d.mgr.back.used →
          (d.mgr.back.index.filter (·.live)).length = d.mgr.back.live →
        runTask q (.rebuildEntry i) d = { d with
          mgr := { d.mgr with
            used := d.mgr.back.used, live := d.mgr.back.live, absorbed := d.mgr.back.absorbed
            dropped := d.mgr.back.dropped, index := d.mgr.back.index, back := .none }
          tasks := .bindEnd .rebuilt :: d.tasks }) ∧
      (d.mgr.back.used ≤ i →
          (d.mgr.back.index.length ≠ d.mgr.back.used ∨ (d.mgr.back.index.filter (·.live)).length ≠ d.mgr.back.live) →
        runTask q (.rebuildEntry i) d = { failed with rbuf := d.rbuf })) ∧
    (∀ (i : Nat) (w0 w1 w2 : Word), d.rbuf = [w0, w1, w2] →
      ((∀ k : DKind, b0 w0 ≠ k.code) ∨ (b1 w0 ≠ 1 ∧ b1 w0 ≠ 2) → runTask q (.rebuildCheck i) d = failed) ∧
      ∀ (k : DKind) (key : Key), b0 w0 = k.code →
        key = (match k with
          | .shrt => ⟨k, min (lo w1) (hi w1), max (lo w1) (hi w1)⟩
          | .insl => ⟨k, lo w1, hi w1⟩
          | .brkd => ⟨k, lo w1, 0⟩
          | .arc => ⟨k, lo w1, 0⟩
          | _ => ⟨k, lo w1, lo w2⟩) →
        (b1 w0 = 1 → (∃ r ∈ d.mgr.back.index, r.live = true ∧ r.key = key) → runTask q (.rebuildCheck i) d = failed) ∧
        (b1 w0 = 1 → (∀ r ∈ d.mgr.back.index, ¬(r.live = true ∧ r.key = key)) → runTask q (.rebuildCheck i) d = { d with
          mgr := { d.mgr with back := { d.mgr.back with index := d.mgr.back.index ++ [⟨key, true⟩] } }
          rbuf := [], tasks := .rebuildEntry (i + 1) :: d.tasks }) ∧
        (b1 w0 = 2 → runTask q (.rebuildCheck i) d = { d with
          mgr := { d.mgr with back := { d.mgr.back with index := d.mgr.back.index ++ [⟨key, false⟩] } }
          rbuf := [], tasks := .rebuildEntry (i + 1) :: d.tasks })) ∧
    (∀ o : TableStart, runTask q (.bindEnd o) d = { d with
      mgr := { d.mgr with state := .idle, binding := if o = .none then .none else .bound }
      reader := { d.reader with tableStart := o } }) ∧
    runTask q .image d = { d with
      reader := { d.reader with imageLive := true }, tasks := .write 0x20 d.statusWords :: d.tasks } ∧
    ∀ head : Nat,
      (d.reader.haltPending = true → runTask q (.startEnd head) d = { d with
        reader := { d.reader with
          state := .halted, resume := some (.word .chainHead), watch := none, haltPending := false, ending := none }
        attn := { d.attn with req := d.attn.req ||| srcBit 2 } }) ∧
      (d.reader.haltPending = false → head ≠ 0 → runTask q (.startEnd head) d = { d with
        reader := { d.reader with state := .running, curOff := head, watch := none }, wait := .take }) ∧
      (d.reader.haltPending = false → head = 0 → runTask q (.startEnd head) d = { d with
        reader := { d.reader with state := .waiting, curOff := 0, watch := some .chainHead, earlyNotice := false }
        tasks := if d.reader.earlyNotice = true then .reread .chainHead :: d.tasks else d.tasks })

/-- HALT by reader state: WAITING it halts at once at the watched word with CHAIN; RUNNING it sets the halt-pending mark and
nothing more where the thread's wait ends only with a unit of work; RUNNING with the mark set, STOPPED and HALTED it does
nothing (R183). -/
def Obligations.HaltActs : Prop :=
  ∀ s : State, s.hostWait = none →
    (∀ w, s.dev.reader.state = .waiting → s.dev.reader.watch = some w →
      ∃ t, exec .halt s = .next t ∧ t.mem = s.mem ∧ t.hostQ = s.hostQ ∧ t.dev.reader.state = .halted ∧
        t.dev.reader.resume = some (.word w) ∧ t.dev.reader.watch = none ∧ t.dev.reader.haltPending = false ∧
        t.dev.reader.order = s.dev.reader.order ∧ hasSrc t.dev.attn.req 2 = true ∧
        t.dev.attn.settings = s.dev.attn.settings ∧ t.dev.mx = s.dev.mx ∧ t.dev.hv = s.dev.hv) ∧
    (s.dev.reader.state = .running → s.dev.reader.haltPending = false → s.dev.Follows →
      (s.dev.wait = .mem ∨ s.dev.wait = .take ∨ s.dev.wait = .format ∨ s.dev.wait = .parkRun) →
      exec .halt s = .next { s with dev := { s.dev with reader := { s.dev.reader with haltPending := true } } }) ∧
    (s.dev.Follows → s.dev.Resting →
      (s.dev.reader.state = .stopped ∨ s.dev.reader.state = .halted ∨
        (s.dev.reader.state = .running ∧ s.dev.reader.haltPending = true)) → exec .halt s = .next s)

/-- RESUME by resume point: a PAUSED order is written TAKEN and its owner goes on with the steps it had; a watched word or a
link is read again; a header is taken up again; an INSULATE paused on INTERLOCK is refused while the interlock is open; not
HALTED, nothing happens (R184, R138, R116). TAKEN is issued without a wait, the owner running by then (DEDUCED: log 10). -/
def Obligations.ResumeActs : Prop :=
  ∀ s : State, s.hostWait = none →
    (s.dev.reader.state ≠ .halted → s.dev.Follows → s.dev.Resting → exec .resume s = .next s) ∧
    (∀ o, s.dev.reader.state = .halted → s.dev.reader.resume = some .order → s.dev.reader.order = some o →
      (o.kind = some .insulate ∧ s.dev.ins.reason = .interlock ∧ s.dev.hv.openRec = true → s.dev.Resting →
        exec .resume s = .next { s with
          dev := Dev.sync { s.dev with reader := { s.dev.reader with lastError := .interlockOpen } } }) ∧
      (¬(o.kind = some .insulate ∧ s.dev.ins.reason = .interlock ∧ s.dev.hv.openRec = true) →
        ∃ d : Dev, exec .resume s = .next { s with dev := d.settle s.hostQ } ∧
          d.reader = { s.dev.reader with
            state := .running, lastError := .none, resume := none, order := some { o with status := .taken } } ∧
          d.engineQ = s.dev.engineQ ++ [⟨o.off, 1, some [o.header .taken false], false, true⟩] ∧
          d.tasks = s.dev.saved ∧ d.wait = .run ∧
          (o.kind = some .insulate → d.hv.pauseMark = false ∧ d.ins.reason = .none) ∧
          (o.kind = some .print → d.fmt.state = .formatting) ∧ d.mx = s.dev.mx ∧ d.mu = s.dev.mu)) ∧
    (∀ w, s.dev.reader.state = .halted → s.dev.reader.resume = some (.word w) →
      exec .resume s = .next { s with
        dev := Dev.settle s.hostQ { s.dev with
          reader := { s.dev.reader with state := .running, lastError := .none, resume := none }
          tasks := [.reread w], wait := .run } }) ∧
    (∀ off, s.dev.reader.state = .halted → s.dev.reader.resume = some (.reading off) →
      exec .resume s = .next { s with
        dev := Dev.sync { s.dev with
          reader := { s.dev.reader with
            state := .running, lastError := .none, resume := none, curOff := off, watch := none }
          wait := .take } })

/-- ABORT by reader state: it marks a TAKEN order to end at its safe point with ABORTED, also where a discharge fault has
marked it to end with DISCHARGE_FAULT before (DEDUCED: log 32); a second ABORT before that does nothing; while a
pause is being written it takes precedence over the HALT: the order goes on to FAILED and nothing more of the pause is
written; a PAUSED order ends FAILED at once with ABORTED and the result section as it stood at the pause; RUNNING with no
order in flight it acts as HALT; otherwise nothing happens (R185). That the owner of the PAUSED order is IDLE before its
status is issued is the model's choice (log 66). -/
def Obligations.AbortActs : Prop :=
  ∀ s : State, s.hostWait = none →
    (∀ o, s.dev.reader.state = .running → s.dev.reader.order = some o → o.status = .taken →
      (s.dev.reader.ending ≠ some .aborted → s.dev.Follows →
        (s.dev.wait = .mem ∨ s.dev.wait = .take ∨ s.dev.wait = .format ∨ s.dev.wait = .parkRun) →
        exec .abort s = .next { s with dev := { s.dev with reader := { s.dev.reader with ending := some .aborted } } }) ∧
      (s.dev.reader.ending = some .aborted → s.dev.Follows → s.dev.Resting → exec .abort s = .next s)) ∧
    (∀ o, s.dev.reader.state = .running → s.dev.reader.order = some o → o.status = .paused → s.dev.wait ≠ .run →
      s.dev.Follows →
      exec .abort s = .next { s with
        dev := { s.dev with
          reader := { s.dev.reader with ending := some .aborted }, tasks := [.endOrder .failed .aborted], saved := [] } }) ∧
    (∀ o, s.dev.reader.state = .halted → s.dev.reader.order = some o → o.status = .paused →
      s.dev.reader.resume = some .order →
      ∃ t, exec .abort s = .next t ∧ t.dev.reader.order = some { o with status := .failed } ∧
        t.dev.tasks = [.ownerIdle, .write o.off [o.header .failed false], .finish] ∧ t.dev.wait = .mem ∧
        (∀ ws, ws = completionWord 0x10 o.unzeroed o.clamped ::
            (match o.kind with | some k => s.dev.resultTail k o.freeBase | none => []) →
          ∀ b ∈ writeBursts true ws.length o.resultOff ws, b ∈ t.dev.engineQ) ∧
        (o.kind = some .insulate → t.dev.hv.pauseMark = false)) ∧
    (s.dev.reader.state = .running → (∀ o, s.dev.reader.order = some o → o.status ≠ .taken ∧ o.status ≠ .paused) →
      exec .abort s = exec .halt s) ∧
    ((s.dev.reader.state = .stopped ∨ s.dev.reader.state = .waiting ∨
        (s.dev.reader.state = .halted ∧ ∀ o, s.dev.reader.order = some o → o.status ≠ .paused)) →
      s.dev.Follows → s.dev.Resting → exec .abort s = .next s)

/-- A HALT, or an ABORT, of an order in flight where it acts at once: it drops a HELD setup, which is asked for again after
the safe point; it withdraws a park not yet begun; it leaves an UNPARK before the drive is on; an ABORT stops an UNPARK
after that, at once while the cards power up, else at the end of the exchange or probe; it abandons an energized step,
which drops the source, restarts at the setup and leaves its arc count out (DEDUCED: log 33) and, a locate probe, does not
count at OFF (the model's choice: log 50); it discards the line of a formatter that waits for room. Anywhere else, a
recovery setup, a park begun, a collection and a held ramp request among them, it sets its mark and nothing more (R8, R14,
R15, R17, R18, R22, R117, R137, R169). The model's choice: a PARK that waits in READY for a park left by a soft reset
withdraws that park too (log 18); of the other waits for PARKED, an UNPARK's ends at once, and a ZERO's, and that of a PARK
outside READY, only has the mark set (log 17). -/
def Obligations.StopsActByWait : Prop :=
  ∀ (s : State) (cmd : Instr) (o : Order) (r : Reader), s.hostWait = none → s.dev.reader.state = .running →
    s.dev.reader.order = some o → o.status = .taken → s.dev.reader.haltPending = false → s.dev.reader.ending = none →
    (cmd = .halt ∧ r = { s.dev.reader with haltPending := true } ∨
      cmd = .abort ∧ r = { s.dev.reader with ending := some .aborted }) →
    (s.dev.wait = .setup → (s.dev.mx.phase = .heldOpening ∨ s.dev.mx.phase = .heldClosing) → s.dev.mx.requester = true →
      exec cmd s = .next { s with
        dev := Dev.settle s.hostQ { s.dev with
          reader := r
          mx := { s.dev.mx with state := .ready, phase := .idle, tgt := s.dev.mx.cur, requester := false }
          tasks := .safe :: .setup s.dev.mx.reqTarget :: s.dev.tasks, wait := .run } }) ∧
    (s.dev.wait = .parkGate ∨
        (s.dev.wait = .forParked ∧ o.kind = some .park ∧ s.dev.mx.state = .ready) →
      exec cmd s = .next { s with
        dev := Dev.settle s.hostQ { s.dev with
          reader := r, mx := { s.dev.mx with parkPending := false }, tasks := [.safe, .parkStart], wait := .run } }) ∧
    (s.dev.wait = .unparkGate ∨ (s.dev.wait = .forParked ∧ o.kind = some .unpark) →
      exec cmd s = .next { s with
        dev := Dev.settle s.hostQ { s.dev with reader := r, tasks := [.safe, .unparkStart], wait := .run } }) ∧
    (cmd = .abort → s.dev.wait = .unparking → s.dev.mx.phase = .unparkSettle → ∃ d : Dev,
      exec cmd s = .next { s with dev := d.settle s.hostQ } ∧ d.tasks = [.endOrder .failed .aborted] ∧ d.wait = .run ∧
      d.mx.state = .parked ∧ d.mx.drive = false ∧ d.mx.cards = [] ∧ d.mx.cur = [] ∧ d.mx.offT = some 500 ∧
      d.mx.unparkT = none ∧ d.prog = s.dev.prog) ∧
    (cmd = .abort → s.dev.wait = .unparking → s.dev.mx.phase ≠ .unparkSettle →
      exec cmd s = .next { s with
        dev := Dev.settle s.hostQ { s.dev with reader := r, mx := { s.dev.mx with stopUnpark := true } } }) ∧
    (s.dev.hv.state = .ramp ∨ s.dev.hv.state = .dwell →
      (s.dev.wait = .ramp ∨ s.dev.wait = .dwell ∨ (s.dev.wait = .meas ∧ ∃ j, s.dev.mu.job = some j ∧ j.kind = .window)) →
      ∃ d : Dev, exec cmd s = .next { s with dev := d.settle s.hostQ } ∧ d.wait = .run ∧ d.reader = r ∧
        d.hv.state = .discharge ∧ d.hv.dischT = some s.dev.cfg.dischTimeout ∧ d.hv.ask = .waiting ∧ d.ins.dwellT = none ∧
        (∀ j, d.mu.job = some j → j.kind ≠ .window ∧ j.kind ≠ .rampCheck) ∧
        d.tasks = .waitOff false :: .safe ::
          (if s.dev.ins.locPhase = .none then .groupSetup else .locProbe s.dev.ins.subset) :: afterStepEnd s.dev.tasks) ∧
    (s.dev.wait = .room →
      exec cmd s = .next { s with
        dev := Dev.settle s.hostQ { s.dev with
          reader := r, fmt := { s.dev.fmt with buf := [] }, tasks := [.safe, .fmtNext], wait := .run } }) ∧
    ((s.dev.wait = .setup ∧ s.dev.mx.phase ≠ .heldOpening ∧ s.dev.mx.phase ≠ .heldClosing) ∨
        s.dev.wait = .parkRun ∨ s.dev.wait = .zeroOff ∨ s.dev.wait = .rampHeld ∨ s.dev.wait = .hvOff ∨
        s.dev.wait = .mem ∨ s.dev.wait = .format ∨ (cmd = .halt ∧ s.dev.wait = .unparking) ∨
        (s.dev.wait = .meas ∧ ∀ j, s.dev.mu.job = some j → j.kind ≠ .window) ∨
        (s.dev.wait = .forParked ∧ o.kind ≠ some .unpark ∧ (o.kind ≠ some .park ∨ s.dev.mx.state ≠ .ready)) →
      exec cmd s = .next { s with dev := Dev.settle s.hostQ { s.dev with reader := r } })

/-- The take: at a header whose status is not POSTED the reader waits and watches it; with the halt-pending mark set it halts
there; an order with an unknown kind, or one that does not end within test memory, it refuses itself, with no result section;
any other it takes: the header word, tag and parameters are copied, the header is written TAKEN, and the owner has it (R178).
A MARK ends DONE as it is taken: its result section is the completion code alone, then its header is written DONE (R188,
R181); the owner is IDLE between the two, as in every end (the model's choice: log 66). The words are as the reader's own reads find them (State.peek; DEDUCED: log 9). TAKEN is issued without a wait, the
owner having the order by then (DEDUCED: log 10). -/
def Obligations.TakeOrderActs : Prop :=
  (∀ (s : State) (off : Nat), (∀ w, newest s.hostQ off = some w → s.peek off = w) ∧
    (newest s.hostQ off = none → s.dev.engineQ = [] → off < s.ramBytes → s.peek off = s.mem.word off)) ∧
  (∀ (s : State) (off : Nat) (hdr : Word), s.dev.wait = .take → s.dev.tasks = [] → s.dev.reader.curOff = off →
    s.peek off = hdr →
    (s.dev.reader.haltPending = true → ∃ t, exec .takeOrder s = .next t ∧ t.dev.reader.state = .halted ∧
      t.dev.reader.resume = some (.reading off) ∧ hasSrc t.dev.attn.req 2 = true) ∧
    (s.dev.reader.haltPending = false → (hdr.extractLsb' 16 4 ≠ 1) → ∃ t, exec .takeOrder s = .next t ∧
      t.dev.reader = { s.dev.reader with state := .waiting, watch := some (.header off) }) ∧
    ∀ k : Option Kind, kindOf (b0 hdr) = k → s.dev.reader.haltPending = false → hdr.extractLsb' 16 4 = 1 →
      (∀ c, (k = none ∧ c = Code.unknownKind) ∨
          (∃ j, k = some j ∧ c = .orderBounds ∧
            (s.dev.memEnd < off + 12 + 4 * j.fixedWords ∨
              s.dev.memEnd < off + 12 + 4 * (j.paramWords ((List.range j.fixedWords).map fun i => s.peek (off + 12 + 4 * i)) +
                j.resultWords))) →
        ∃ t o, exec .takeOrder s = .next t ∧ t.mem = s.mem ∧ t.dev.reader.order = some o ∧ o.off = off ∧ o.status = .refused ∧
          t.dev.reader.refCode = c.toNat ∧ t.dev.reader.refOff = off ∧ t.dev.tasks = [.finish] ∧ t.dev.wait = .mem ∧
          ∃ b ∈ t.dev.engineQ, b = ⟨off, 1, some [wordOf (b0 hdr + flagAt (bitAt hdr 8) 8 + flagAt (bitAt hdr 9) 9 +
            flagAt (bitAt hdr 10) 10 + 65536 * 7 + 0)], true, true⟩) ∧
      ∀ (j : Kind) (n : Nat), k = some j → s.dev.memEnd ≥ off + 12 + 4 * j.fixedWords →
        n = j.paramWords ((List.range j.fixedWords).map fun i => s.peek (off + 12 + 4 * i)) →
        s.dev.memEnd ≥ off + 12 + 4 * (n + j.resultWords) →
        ∃ (o : Order) (d : Dev) (g : Side),
          exec .takeOrder s = .next { s with lastGrant := g, dev := (d.startOwner j o).settle s.hostQ } ∧
          o.off = off ∧ o.kind = some j ∧ o.hdr = hdr ∧ o.tag = s.peek (off + 8) ∧
          o.params = ((List.range n).map fun i => s.peek (off + 12 + 4 * i)) ∧ o.notify = bitAt hdr 8 ∧
          o.stopOnDefect = bitAt hdr 9 ∧ o.clearDefects = bitAt hdr 10 ∧ o.status = .taken ∧
          d.reader = { s.dev.reader with order := some o, ending := none } ∧ d.wait = .run ∧ d.tasks = [] ∧
          d.engineQ = s.dev.engineQ ++ [⟨off, 1, some [wordOf (b0 hdr + flagAt (bitAt hdr 8) 8 + flagAt (bitAt hdr 9) 9 +
            flagAt (bitAt hdr 10) 10 + 65536 * 2 + 0)], false, true⟩] ∧ d.cfg = s.dev.cfg ∧ d.mx = s.dev.mx ∧ d.hv = s.dev.hv) ∧
  ∀ (s : State) (off : Nat) (hdr : Word), s.dev.wait = .take → s.dev.tasks = [] → s.dev.reader.curOff = off →
    s.dev.reader.haltPending = false → s.peek off = hdr → b0 hdr = 2 → hdr.extractLsb' 16 4 = 1 →
    off + 16 ≤ s.dev.memEnd →
    ∃ t o, exec .takeOrder s = .next t ∧ t.mem = s.mem ∧ t.hostQ = s.hostQ ∧ t.dev.reader.order = some o ∧
      o.status = .done ∧ o.off = off ∧ t.dev.wait = .mem ∧ t.dev.tasks = [.ownerIdle, .write off [o.header .done false], .finish] ∧
      ⟨off + 12, 1, some [0], true, true⟩ ∈ t.dev.engineQ ∧ t.dev.mx = s.dev.mx ∧ t.dev.mgr = s.dev.mgr ∧
      t.dev.nets = s.dev.nets ∧ t.dev.hv.state = s.dev.hv.state

/-- The take of a MEASURE, of a SWEEP and of a LEARN: their checks in order, the first that fails with its code; a refused
one leaves the net tables, the defect table, the matrix and the HV controller as they were, with the counts of its section
0; one that passes has its effective parameters, each optional one or its default, clamped with the clamped flag set, and
starts (R44, R64 to R66, R93, R94). A MEASURE that passes: with a compensation table the words of its two points are read,
one burst each (the model's choice: log 60), each value clamped at 9999, with a safe point after the reads (the model's
choice: log 38), without one both are 0; then the setup of a on A and b on B, the two-point measurement, its answer kept,
and DONE (R31, R37, R45). -/
def Obligations.TakesOfMeasureSweepLearn : Prop :=
  (∀ (o : Order) (d e : Dev) (a b r n : Nat) (codes fit ready : Prop), e = d.startOwner .measure o →
    a = lo (o.param 0) → b = hi (o.param 0) →
    (bitAt (o.param 1) 0 = true ∧ r = b0 (o.param 2) ∧ n = b1 (o.param 2) ∨ bitAt (o.param 1) 0 = false ∧ r = 0 ∧ n = 0) →
    (codes ↔ r ≤ 3 ∧ (n = 0 ∨ n = 1 ∨ n = 4 ∨ n = 16 ∨ n = 64)) →
    (ready ↔ d.mx.state = .ready ∧ d.mx.parkPending = false) →
    (fit ↔ d.mx.present (a / 128) = true ∧ d.mx.present (b / 128) = true) →
    (¬codes → e = { d with tasks := .endOrder .refused .badParameter :: d.tasks }) ∧
    (codes → 4095 < a ∨ 4095 < b → e = { d with tasks := .endOrder .refused .pointUnfitted :: d.tasks }) ∧
    (codes → a ≤ 4095 → b ≤ 4095 → a = b → e = { d with tasks := .endOrder .refused .samePoint :: d.tasks }) ∧
    (codes → a ≤ 4095 → b ≤ 4095 → a ≠ b → ¬ready →
      e = { d with tasks := .endOrder .refused .matrixParked :: d.tasks }) ∧
    (codes → a ≤ 4095 → b ≤ 4095 → a ≠ b → ready → ¬fit →
      e = { d with tasks := .endOrder .refused .pointUnfitted :: d.tasks }) ∧
    (codes → a ≤ 4095 → b ≤ 4095 → a ≠ b → ready → fit →
      e = { d with
        prog := { d.prog with
          ptA := a, ptB := b, ca := 0, cb := 0
          mrng := if r = 1 then .h else if r = 2 then .m else if r = 3 then .l else .none
          mn := if n = 0 then d.cfg.n else n }
        tasks := .measA :: d.tasks })) ∧
  (∀ (q : List (Nat × Word)) (d : Dev) (b : Bind) (p1 p2 : Nat), d.reader.bind = some b → p1 = d.prog.ptA → p2 = d.prog.ptB →
    (b.compOff = 0 → runTask q .measA d = { d with tasks := .measB :: d.tasks }) ∧
    (b.compOff ≠ 0 → runTask q .measA d = { d with
      rbuf := []
      tasks := .read (b.compOff + 4 * (p1 / 2)) 1 :: .read (b.compOff + 4 * (p2 / 2)) 1 :: .measGotB :: d.tasks }) ∧
    (∀ (w v : Word) (x y : Nat), d.rbuf = [w, v] → x = (if p1 % 2 = 0 then lo w else hi w) →
      y = (if p2 % 2 = 0 then lo v else hi v) → runTask q .measGotB d = { d with
        prog := { d.prog with ca := min x 9999, cb := min y 9999 }
        reader := { d.reader with order := d.reader.order.map fun o =>
          { o with clamped := o.clamped || decide (9999 < x ∨ 9999 < y) } }
        rbuf := [], tasks := .safe :: .measB :: d.tasks }) ∧
    (∃ t : Tab Bus, (∀ x, Tab.get .none t x = if x = p2 then .b else if x = p1 then .a else .none) ∧
      (d.prog.mrng = .none → runTask q .measB d = { d with
        tasks := .setup t :: .twoPoint .h true d.prog.mn d.prog.ca d.prog.cb :: .measGot :: .safe :: .measEnd :: d.tasks }) ∧
      (d.prog.mrng ≠ .none → runTask q .measB d = { d with
        tasks := .setup t :: .twoPoint d.prog.mrng false d.prog.mn d.prog.ca d.prog.cb :: .measGot :: .safe :: .measEnd ::
          d.tasks })) ∧
    runTask q .measGot d = { d with prog := { d.prog with mres := some d.mu.ans } } ∧
    runTask q .measEnd d = { d with tasks := .endOrder .done .done :: d.tasks }) ∧
  (∀ (o : Order) (d e : Dev) (f : Word) (i j p q t x : Nat) (codes order ready c1 c2 : Prop) (flag : Bool),
    e = d.startOwner .sweep o → f = o.param 1 → i = 2 + opt (bitAt f 0) 3 → j = i + opt (bitAt f 1) 1 →
    p = (o.param 2).toNat → q = (o.param 3).toNat → t = (o.param 4).toNat → x = (o.param j).toNat →
    (codes ↔ (bitAt f 1 = true → b0 (o.param i) ≤ 3 ∧ (b1 (o.param i) = 0 ∨ b1 (o.param i) = 1 ∨ b1 (o.param i) = 4 ∨
      b1 (o.param i) = 16 ∨ b1 (o.param i) = 64))) →
    (c1 ↔ bitAt f 0 = true ∧ (p < 1 ∨ 2000000 < p ∨ q < 2 ∨ 2000000 < q ∨ t < 1 ∨ 2000000 < t)) →
    (order ↔ (bitAt f 0 = true → max 1 (min 2000000 p) < max 2 (min 2000000 q))) →
    (c2 ↔ bitAt f 2 = true ∧ (x < 1 ∨ 16 < x)) → (ready ↔ d.mx.state = .ready ∧ d.mx.parkPending = false) →
    e.nets = d.nets ∧ e.mgr = d.mgr ∧ e.mx = d.mx ∧ e.hv = d.hv ∧ e.wait = d.wait ∧
    (¬codes → e.tasks = .endOrder .refused .badParameter :: d.tasks ∧ e.reader = d.reader) ∧
    (codes → ¬order → e.tasks = .endOrder .refused .limitOrder :: d.tasks) ∧
    (codes → order → ¬ready → e.tasks = .endOrder .refused .matrixParked :: d.tasks) ∧
    (¬codes ∨ ¬order ∨ ¬ready → e.sweep = Sweep.reset) ∧
    (codes → (flag = true ↔ c1 ∨ (order ∧ c2)) →
      e.reader = { d.reader with order := d.reader.order.map fun y => { y with clamped := y.clamped || flag } }) ∧
    (codes → order → ready →
      e.tasks = (if o.clearDefects then [.clear, .safe] else []) ++ .valBegin :: d.tasks ∧
      e.sweep.state = .validate ∧ e.sweep.stage = 0 ∧ e.sweep.cursor = 0 ∧ e.sweep.firstFinding = 0 ∧
      e.sweep.netlistOff = (o.param 0).toNat ∧ e.sweep.tested = 0 ∧ e.sweep.new = [0, 0, 0, 0, 0] ∧
      e.sweep.merged = [0, 0, 0, 0, 0] ∧ e.sweep.dropped = 0 ∧ e.sweep.truncated = 0 ∧ e.sweep.probes = 0 ∧
      e.sweep.pLim.getD e.sweep.cfgP = (if bitAt f 0 = true then max 1 (min 2000000 p) else d.cfg.pLim) ∧
      e.sweep.oLim.getD e.sweep.cfgO = (if bitAt f 0 = true then max 2 (min 2000000 q) else d.cfg.oLim) ∧
      e.sweep.t = (if bitAt f 0 = true then max 1 (min 2000000 t) else d.cfg.tLim) ∧
      (e.sweep.rng.code = if bitAt f 1 = true then b0 (o.param i) else 0) ∧
      e.sweep.n = (if bitAt f 1 = true ∧ b1 (o.param i) ≠ 0 then b1 (o.param i) else d.cfg.n) ∧
      e.sweep.shorts = (if bitAt f 2 = true then max 1 (min 16 x) else 8))) ∧
  ∀ (o : Order) (d e : Dev) (out cap t : Nat) (f : Word) (region ready : Prop) (flag : Bool),
    e = d.startOwner .learn o → out = (o.param 0).toNat → cap = (o.param 1).toNat → f = o.param 2 →
    t = (o.param 3).toNat → (region ↔ out % 4 = 0 ∧ cap ≠ 0 ∧ out + 4 * cap ≤ d.memEnd) →
    (ready ↔ d.mx.state = .ready ∧ d.mx.parkPending = false) →
    (flag = true ↔ bitAt f 0 = true ∧ (t < 1 ∨ 2000000 < t)) →
    e.mgr = d.mgr ∧ e.mx = d.mx ∧ e.hv = d.hv ∧ e.wait = d.wait ∧
    (¬region → e.tasks = .endOrder .refused .badParameter :: d.tasks ∧ e.reader = d.reader) ∧
    (region → ¬ready → e.tasks = .endOrder .refused .matrixParked :: d.tasks) ∧
    (¬region ∨ ¬ready → e.nets = d.nets ∧ e.learn = Learn.reset ∧ e.sweep = Sweep.reset) ∧
    (region → e.reader =
      { d.reader with order := d.reader.order.map fun y => { y with clamped := y.clamped || flag } }) ∧
    (region → ready → e.tasks = .write out [0x00010000] :: .safe :: .learnFrom 0 :: d.tasks ∧
      e.sweep = { Sweep.reset with state := .validate } ∧
      e.learn = { Learn.reset with
        outOff := out, cap := cap, t := if bitAt f 0 = true then max 1 (min 2000000 t) else d.cfg.tLim, n := d.cfg.n
        keep := bitAt f 1, used := 1 } ∧
      e.nets.tablesValid = false ∧ e.nets.mapValid = false ∧ e.nets.count = 0 ∧ e.nets.members = [] ∧
      (∀ y, e.nets.pt y = ⟨0, .untested, 0⟩) ∧ ∀ y, y < 4096 → e.nets.isFitted y = d.mx.present (y / 128))

/-- The take of an INSULATE and of a PRINT: the clamps of INSULATE's parameters, the checks in their order, the first that
fails with its code; a refused one leaves all else as it was, with the counts of its section 0; one that passes has its
effective parameters, an absent part its default, or its print range, and starts; a PRINT to SPOOL sets the spool lines
written to 0 and the reader writes that word of the status area, also where it was 0, without waiting for it (DEDUCED: log
10) (R120, R121, R155, R156, R170, R174). A first index or count past its stated values is taken as it is (the model's
choice: log 58). -/
def Obligations.TakesOfInsulateAndPrint : Prop :=
  (∀ (o : Order) (d e : Dev) (f l : Word) (flag : Bool), e = d.startOwner .insulate o → f = o.param 4 →
    l = o.param (5 + opt (bitAt f 17) 1) →
    (flag = true ↔ (o.param 0).toNat < 50 ∨ 1500 < (o.param 0).toNat ∨ (o.param 1).toNat < 1 ∨
      9999999 < (o.param 1).toNat ∨ lo (o.param 2) < 1 ∨ 50 < lo (o.param 2) ∨ hi (o.param 2) < 1 ∨ 255 < hi (o.param 2) ∨
      (o.param 3).toNat < 10 ∨ 60000 < (o.param 3).toNat ∨ lo f < 1 ∨ 1000 < lo f ∨
      (bitAt f 17 = true ∧ ((o.param 5).toNat < 10 ∨ 100 < (o.param 5).toNat)) ∨
      (bitAt f 18 = true ∧ (lo l < 1 ∨ 8 < lo l ∨ hi l < 10 ∨ 1000 < hi l))) →
    e.nets = d.nets ∧ e.mgr = d.mgr ∧ e.mx = d.mx ∧ e.hv = d.hv ∧ e.wait = d.wait ∧
    e.reader = { d.reader with order := d.reader.order.map fun y => { y with clamped := y.clamped || flag } } ∧
    (d.nets.mapValid = false → e.tasks = .endOrder .refused .noGroupMap :: d.tasks ∧ e.ins = Insul.reset) ∧
    (d.nets.mapValid = true → d.hv.lockout = true →
      e.tasks = .endOrder .refused .hvLockout :: d.tasks ∧ e.ins = Insul.reset) ∧
    (d.nets.mapValid = true → d.hv.lockout = false → d.mx.state ≠ .ready ∨ d.mx.parkPending = true →
      e.tasks = .endOrder .refused .matrixParked :: d.tasks ∧ e.ins = Insul.reset) ∧
    (d.nets.mapValid = true → d.hv.lockout = false → d.mx.state = .ready → d.mx.parkPending = false →
      e.tasks = (if o.clearDefects then [.clear] else []) ++ .safe :: .insInit :: d.tasks ∧
      e.ins = { Insul.reset with
        state := .init
        volts := max 50 (min 1500 (o.param 0).toNat)
        rmin := max 1 (min 9999999 (o.param 1).toNat)
        rate := 100 * max 1 (min 50 (lo (o.param 2)))
        arcLimit := max 1 (min 255 (hi (o.param 2)))
        dwell := max 10 (min 60000 (o.param 3).toNat)
        window := max 1 (min 1000 (lo f))
        locate := bitAt f 16
        trip := if bitAt f 17 = true then max 10 (min 100 (o.param 5).toNat) else d.cfg.trip
        locLimit := if bitAt f 18 = true then max 1 (min 8 (lo l)) else 4
        locDwell := if bitAt f 18 = true then max 10 (min 1000 (hi l)) else 100 })) ∧
  ∀ (o : Order) (d e : Dev) (first count dest : Nat) (table port spool range : Prop), e = d.startOwner .print o →
    first = lo (o.param 0) → count = hi (o.param 0) → dest = b0 (o.param 1) → (table ↔ d.mgr.binding = .bound) →
    (port ↔ dest = 1 → d.cfg.print.portOn = true) →
    (spool ↔ dest = 2 → ∃ b, d.reader.bind = some b ∧ b.spoolOff ≠ 0) → (range ↔ count ≠ 0 → first < d.mgr.used) →
    e.nets = d.nets ∧ e.mgr = d.mgr ∧ e.mx = d.mx ∧ e.hv = d.hv ∧ e.tx = d.tx ∧ e.wait = d.wait ∧
    (dest ≠ 1 → dest ≠ 2 → e.tasks = .endOrder .refused .badParameter :: d.tasks) ∧
    (dest = 1 ∨ dest = 2 →
      (¬table → e.tasks = .endOrder .refused .badParameter :: d.tasks) ∧
      (table → ¬port → e.tasks = .endOrder .refused .portOff :: d.tasks) ∧
      (table → port → ¬spool → e.tasks = .endOrder .refused .badParameter :: d.tasks) ∧
      (table → port → spool → ¬range → e.tasks = .endOrder .refused .badParameter :: d.tasks) ∧
      (table → port → spool → range → e.tasks = .fmtNext :: d.tasks ∧
        e.reader = { d.reader with spoolLines := if dest = 2 then 0 else d.reader.spoolLines } ∧
        (dest = 1 → e.engineQ = d.engineQ ∧ e.statusImg = d.statusImg) ∧
        (dest = 2 → e.statusImg = d.statusImg.set 6 0 ∧
          (d.reader.imageLive = true → d.reader.state ≠ .stopped →
            e.engineQ = d.engineQ ++ [⟨0x38, 1, some [0], false, true⟩]) ∧
          (d.reader.imageLive = false ∨ d.reader.state = .stopped → e.engineQ = d.engineQ)) ∧
        e.fmt = { Fmt.reset with
          state := .formatting, toSpool := decide (dest = 2), title := bitAt (o.param 1) 8, footer := bitAt (o.param 1) 9
          withAbsorbed := bitAt (o.param 1) 10, first := first, cursor := first
          stop := if count = 0 then max first d.mgr.used else min (first + count) d.mgr.used
          part := .title, layout := d.cfg.print })) ∧
    ((dest ≠ 1 ∧ dest ≠ 2) ∨ ¬table ∨ ¬port ∨ ¬spool ∨ ¬range →
      e.reader = d.reader ∧ e.fmt.state = .idle ∧ e.fmt.lines = 0 ∧ e.fmt.printed = 0 ∧ e.fmt.skipped = 0)

/-- The end and the pause of an order, as steps of the running order's thread: the result section, its completion word first,
then the owner IDLE, then the status (the order of these two is the model's choice: log 66); then ORDER with NOTIFY, and the
reader halts or reads the link; a pause writes the section as it stands, with one of the completion codes that the rules of
its kind list (which one is free: log 13), keeps the steps still to do, and is HALTED with the order as resume point; a SWEEP
that fails or pauses leaves the map-valid flag clear, any other end leaves the net tables as they are; a FAILED end clears
the search; a safe point ends, pauses or goes on (R60, R80, R86, R131, R165, R181, R183, R185). -/
def Obligations.OrderEndsAndPauses : Prop :=
  (∀ (q : List (Nat × Word)) (d : Dev) (o o' : Order) (st : OStatus) (c : Code) (ws : List Word), d.reader.order = some o →
    o' = { o with status := st, freeBase := if o.status = .paused then o.freeBase else d.free } →
    ws = completionWord c.toNat o.unzeroed o.clamped ::
      (match o.kind with | some k => d.resultTail k o'.freeBase | none => []) →
    (runTask q (.endOrder st c) d).tasks =
      [.write o.resultOff ws, .ownerIdle, .write o.off [o.header st false], .finish] ∧
    (runTask q (.endOrder st c) d).reader = { d.reader with order := some o' } ∧
    (runTask q (.endOrder st c) d).sweep = d.sweep ∧ (runTask q (.endOrder st c) d).ins = d.ins ∧
    (runTask q (.endOrder st c) d).fmt = d.fmt ∧
    (st = .failed → (runTask q (.endOrder st c) d).search.state = .idle ∧ (runTask q (.endOrder st c) d).search.stack = [] ∧
      (runTask q (.endOrder st c) d).search.locCount = 0) ∧
    (st ≠ .failed → (runTask q (.endOrder st c) d).search = d.search) ∧
    (o.kind = some .sweep → st = .failed → (runTask q (.endOrder st c) d).nets = { d.nets with mapValid := false }) ∧
    (o.kind ≠ some .sweep ∨ st ≠ .failed → (runTask q (.endOrder st c) d).nets = d.nets)) ∧
  (∀ (q : List (Nat × Word)) (d : Dev), runTask q .ownerIdle d = { d with
    sweep := { d.sweep with state := .idle }, ins := { d.ins with state := .idle, locPhase := .none }
    fmt := { d.fmt with state := .idle, buf := [] } }) ∧
  (∀ (q : List (Nat × Word)) (d : Dev) (o : Order), d.reader.order = some o →
    (runTask q .finish d).reader.lastOff = o.off ∧ (runTask q .finish d).reader.order = some o ∧
    (o.notify = true → hasSrc (runTask q .finish d).attn.req 3 = true) ∧
    (o.status = .failed ∨ (o.status = .doneDefects ∧ o.stopOnDefect = true) ∨ d.reader.haltPending = true ∨
        d.reader.ending = some .aborted →
      (runTask q .finish d).reader.state = .halted ∧
      (runTask q .finish d).reader.resume = some (.word (.link (o.off + 4))) ∧
      (runTask q .finish d).reader.haltPending = false ∧ hasSrc (runTask q .finish d).attn.req 2 = true ∧
      (o.status = .failed → (runTask q .finish d).reader.lastError = .orderFailed) ∧
      (o.status ≠ .failed → (runTask q .finish d).reader.lastError = d.reader.lastError)) ∧
    (o.status ≠ .failed → ¬(o.status = .doneDefects ∧ o.stopOnDefect = true) → d.reader.haltPending = false →
      d.reader.ending ≠ some .aborted →
      (runTask q .finish d).tasks = .read (o.off + 4) 1 :: .linkGot :: d.tasks ∧
      (runTask q .finish d).reader.state = d.reader.state)) ∧
  (∀ (q : List (Nat × Word)) (d e : Dev) (o : Order), d.reader.order = some o → o.status = .taken →
    e = { d with
      ins := if o.kind = some .insulate ∧ d.ins.reason = .none then { d.ins with reason := .halt } else d.ins } →
    ∃ code, code ∈ (match o.kind with
        | some .park => [0x00, 0x10, 0x16]
        | some .unpark => [0x00, 0x10, 0x13, 0x16]
        | some .zero => [0x00, 0x10, 0x11, 0x14, 0x16]
        | some .measure => [0x00, 0x10, 0x11, 0x12, 0x16, 0x20, 0x21, 0x22]
        | some .sweep => [0x00, 0x01, 0x10, 0x11, 0x12, 0x1A, 0x20, 0x22, 0x23, 0x24, 0x25, 0x26, 0x27]
        | some .learn => [0x00, 0x10, 0x11, 0x12, 0x18, 0x1A, 0x20]
        | some .insulate => [0x00, 0x01, 0x10, 0x11, 0x12, 0x15, 0x16, 0x17, 0x28]
        | some .print => [0x00, 0x10, 0x19, 0x20, 0x29]
        | some .configure => [0x00, 0x20, 0x27, 0x2A]
        | some .mark => [0x00]
        | none => [0x00]) ∧
      ∀ ws, ws = completionWord code o.unzeroed o.clamped ::
          (match o.kind with | some k => e.resultTail k d.free | none => []) →
      (runTask q .pause d).tasks = [.write o.resultOff ws, .write o.off [o.header .paused false], .paused] ∧
      (runTask q .pause d).saved = d.tasks ∧
      (runTask q .pause d).nets = (if o.kind = some .sweep then { d.nets with mapValid := false } else d.nets) ∧
      (runTask q .pause d).reader.order = some { o with status := .paused, freeBase := d.free }) ∧
  (∀ (q : List (Nat × Word)) (d : Dev),
    (runTask q .paused d).reader.state = .halted ∧ (runTask q .paused d).reader.resume = some .order ∧
    (runTask q .paused d).reader.haltPending = false ∧ hasSrc (runTask q .paused d).attn.req 2 = true) ∧
  ∀ (q : List (Nat × Word)) (d : Dev),
    (∀ c, d.reader.ending = some c → (runTask q .safe d).tasks = [.endOrder .failed c]) ∧
    (d.reader.ending = none → d.reader.haltPending = true ∨ (d.kind = some .insulate ∧ d.ins.reason = .interlock) →
      (runTask q .safe d).tasks = .pause :: d.tasks) ∧
    (d.reader.ending = none → d.reader.haltPending = false → ¬(d.kind = some .insulate ∧ d.ins.reason = .interlock) →
      runTask q .safe d = d)

/-- The words after the completion word of each kind's result section, field by field: a count stays at 65535 (R203), a field
that its order has formed holds it, and one that it has not is a free value among those its field lists (log 13); a ZERO code
that was formed has no out-of-range mark, whatever its size (the model's choice: log 44) (R91, R101, R141, R171, R202, R205).
-/
def Obligations.ResultSectionsHoldFields : Prop :=
  ∀ (d : Dev) (base : Nat),
    (∃ w : Word, d.resultTail .configure base = [w] ∧ b0 w = d.prog.applied % 256 ∧ b1 w = d.prog.failing % 256 ∧ hi w = 0) ∧
    d.resultTail .mark base = [] ∧
    (∃ n v : Word, d.resultTail .park base = [n, v] ∧ n = (if d.prog.already = true then 1 else 0) ∧
      ∀ x, d.prog.parkMask = some x → v = x) ∧
    (∃ n p f g c e : Word, d.resultTail .unpark base = [n, p, f, g, c, e] ∧ n = (if d.prog.already = true then 1 else 0) ∧
      (∀ x, d.prog.present = some x → p = x) ∧ (∀ x, d.prog.fault = some x → f = x) ∧
      (∀ x, d.prog.flags = some x → g = x) ∧ (∀ x, d.prog.check = some x → c = x) ∧
      (∀ x, d.prog.compare = some x → e = x) ∧ (d.prog.flags = none → g.toNat ≤ 15) ∧
      (d.prog.compare = none → e.toNat ≤ 1)) ∧
    (∃ (ws : List Word) (z : Word), d.resultTail .zero base = ws ++ [z] ∧ ws.length = 6 ∧ z.toNat ≤ 6 ∧
      (∀ r, d.prog.zfirst = some r → z.toNat = r.code) ∧
      (∀ (i : Nat) (c : Int) (w : Word), ws[i]? = some w → d.prog.zres[i]? = some (some (some c)) → -32768 ≤ c → c ≤ 32767 →
        (w.extractLsb' 0 16).toInt = c ∧ hi w = 0) ∧
      ∀ (i : Nat) (w : Word), ws[i]? = some w → d.prog.zres[i]? = some (some none) → hi w = 1) ∧
    (∃ v r g : Word, d.resultTail .measure base = [v, r, g] ∧
      (∀ a : Answer, d.prog.mres = some a →
        (a.r = none → v = 0xFFFFFFFF) ∧ (∀ n, a.r = some n → v = BitVec.ofNat 32 n) ∧ b0 r = a.rng.code ∧
        bitAt r 8 = a.sat ∧ g = BitVec.ofInt 32 a.sum) ∧
      (d.prog.mres = none → b0 r ≤ 3 ∧ r.toNat ≤ 0x103)) ∧
    (∃ w1 w2 w3 w4 w5 w6 w7 w8 w9 : Word,
      d.resultTail .sweep base = [w1, w2, w3, w4, w5, w6, w7, w8, w9, wordOf d.sweep.probes] ∧
      b0 w1 = d.sweep.stage % 256 ∧ b1 w1 = 0 ∧ hi w1 = d.sweep.cursor % 65536 ∧ lo w2 = d.sweep.refNet % 65536 ∧
      (d.sweep.refPoint = none → hi w2 = 0xFFFF) ∧ (∀ p, d.sweep.refPoint = some p → hi w2 = p % 65536) ∧
      lo w3 = min d.sweep.tested 65535 ∧
      hi w3 = min (d.nets.points.filter fun e => decide (e.2.st = .good)).length 65535 ∧
      (∀ a b c e f g h i j k, d.sweep.new = [a, b, c, e, f] → d.sweep.merged = [g, h, i, j, k] →
        [lo w4, hi w4, lo w5, hi w5, lo w6, hi w6, lo w7, hi w7, lo w8, hi w8] =
          [a, b, c, e, f, g, h, i, j, k].map fun n => min n 65535) ∧
      lo w9 = min d.sweep.dropped 65535 ∧ hi w9 = min d.sweep.truncated 65535) ∧
    (∃ w1 w2 w4 w5 : Word,
      d.resultTail .learn base = [w1, w2, wordOf d.learn.used, w4, w5, wordOf d.learn.probes] ∧
      b0 w1 = d.sweep.stage % 256 ∧ b1 w1 = 0 ∧ hi w1 = d.learn.cursor % 65536 ∧ lo w2 = min d.learn.nets 65535 ∧
      hi w2 = min d.learn.assigned 65535 ∧ lo w4 = min d.learn.singles 65535 ∧ hi w4 = min d.learn.oversize 65535 ∧
      lo w5 = min d.learn.unresolved 65535 ∧ hi w5 = 0) ∧
    (∃ w1 w2 w3 w4 w5 w6 : Word, d.resultTail .insulate base = [w1, w2, w3, w4, w5, w6] ∧
      b0 w1 = d.ins.step % 256 ∧ b1 w1 = (match d.ins.reason with | .none => 0 | .halt => 1 | .interlock => 2) ∧
      hi w1 = d.ins.cursor % 65536 ∧ lo w2 = min d.ins.tested 65535 ∧ hi w2 = min d.ins.skipped 65535 ∧
      lo w3 = min d.ins.passed 65535 ∧ hi w3 = min d.ins.failed 65535 ∧ lo w4 = min d.ins.new 65535 ∧
      hi w4 = min d.ins.merged 65535 ∧ lo w5 = min d.ins.dropped 65535 ∧ hi w5 = min d.ins.truncated 65535 ∧
      lo w6 = min d.ins.probes 65535 ∧ hi w6 = min d.ins.maxArc 65535) ∧
    ∃ w1 w2 : Word, d.resultTail .print base = [w1, w2] ∧ lo w1 = min d.fmt.cursor 65535 ∧ hi w1 = min d.fmt.lines 65535 ∧
      lo w2 = min d.fmt.printed 65535 ∧ hi w2 = min d.fmt.skipped 65535

/-- A link is followed: a zero link is watched with the order held, a bad one halts the reader with BAD_LINK and CHAIN, a good
one releases the order, its header written again with the release mark, and the reader goes to the linked header (R182); with
the halt-pending mark set the reader halts at the link (R183). The release mark is issued without a wait (DEDUCED: log 10). -/
def Obligations.LinkIsFollowed : Prop :=
  ∀ (q : List (Nat × Word)) (d : Dev) (o : Order) (v : Word) (e : Dev), d.reader.order = some o → d.rbuf = [v] →
    e = runTask q .linkGot d →
    (d.reader.haltPending = true → e.reader.state = .halted ∧ e.reader.resume = some (.word (.link (o.off + 4))) ∧
      e.reader.haltPending = false ∧ e.reader.order = some o ∧ hasSrc e.attn.req 2 = true) ∧
    (d.reader.haltPending = false →
      (v = 0 → e.reader.state = .waiting ∧ e.reader.watch = some (.link (o.off + 4)) ∧ e.reader.order = some o) ∧
      (v ≠ 0 → ¬(v.toNat % 4 = 0 ∧ 0x80 ≤ v.toNat ∧ v.toNat + 12 ≤ d.memEnd) →
        e.reader.state = .halted ∧ e.reader.resume = some (.word (.link (o.off + 4))) ∧ e.reader.lastError = .badLink ∧
        e.reader.order = some o ∧ hasSrc e.attn.req 2 = true) ∧
      (v ≠ 0 → v.toNat % 4 = 0 → 0x80 ≤ v.toNat → v.toNat + 12 ≤ d.memEnd →
        e.reader.state = .running ∧ e.reader.curOff = v.toNat ∧ e.wait = .take ∧ e.reader.order = none ∧
        e.engineQ = d.engineQ ++ [⟨o.off, 1, some [o.header o.status true], false, true⟩]))

/-- CONFIGURE: present sections replace all their values, each clamped to its range, absent ones keep theirs; the checks in
their order, with the code and the section's number: MEASURE's O not above its P, its N, PRINT's rate code, its windows; a
failing one refuses the whole order, and nothing is applied. A value of a present section outside its range sets the order's
clamped flag, in a refused order too (DEDUCED: log 30). A transmitter in HOLD begins its next character, at the new rate,
when the port enable now applied lets it; in any other state or with a character that may not begin it stays as it is (R187,
R11, R30, R112, R158, R166). -/
def Obligations.ConfigureAppliesOrRefuses : Prop :=
  (∀ (o : Order) (d : Dev) (c : Code) (n : Nat), configFault o.param (configured o.param d.cfg) = some (c, n) →
    (d.startConfigure o).cfg = d.cfg ∧ (d.startConfigure o).prog.failing = n ∧ (d.startConfigure o).tx = d.tx ∧
    (d.startConfigure o).tasks = .endOrder .refused c :: d.tasks) ∧
  (∀ (o : Order) (d : Dev), configFault o.param (configured o.param d.cfg) = none →
    (d.startConfigure o).cfg = configured o.param d.cfg ∧ (d.startConfigure o).prog.applied = (o.param 0).toNat % 16 ∧
    (d.startConfigure o).tasks = .endOrder .done .done :: d.tasks ∧
    ∀ may : Bool, (may = true ↔ d.pins.printerReady = true ∧ d.pins.paperOut = false ∧
        (configured o.param d.cfg).print.portOn = true) →
      (d.tx.state = .hold → may = true → (d.startConfigure o).tx = { d.tx with
        state := .sending, rate := (configured o.param d.cfg).print.rate }) ∧
      (d.tx.state ≠ .hold ∨ may = false → (d.startConfigure o).tx = d.tx)) ∧
  (∀ (o x : Order) (d : Dev) (im ih ip : Nat) (outside : Prop), d.reader.order = some x →
    im = 1 + opt (bitAt (o.param 0) 0) 1 → ih = im + opt (bitAt (o.param 0) 1) 5 → ip = ih + opt (bitAt (o.param 0) 2) 1 →
    (outside ↔
      (bitAt (o.param 0) 0 = true ∧ (lo (o.param 1) < 5 ∨ 200 < lo (o.param 1) ∨ hi (o.param 1) < 5 ∨ 200 < hi (o.param 1))) ∨
      (bitAt (o.param 0) 1 = true ∧
        (lo (o.param im) < 16384 ∨ 49151 < lo (o.param im) ∨ hi (o.param im) < 16384 ∨ 49151 < hi (o.param im) ∨
          lo (o.param (im + 1)) < 16384 ∨ 49151 < lo (o.param (im + 1)) ∨
          (o.param (im + 2)).toNat < 1 ∨ 2000000 < (o.param (im + 2)).toNat ∨
          (o.param (im + 3)).toNat < 2 ∨ 2000000 < (o.param (im + 3)).toNat ∨
          (o.param (im + 4)).toNat < 1 ∨ 2000000 < (o.param (im + 4)).toNat)) ∨
      (bitAt (o.param 0) 2 = true ∧
        (lo (o.param ih) < 100 ∨ 10000 < lo (o.param ih) ∨ hi (o.param ih) < 10 ∨ 100 < hi (o.param ih))) ∨
      (bitAt (o.param 0) 3 = true ∧ (b0 (o.param ip) < 24 ∨ 64 < b0 (o.param ip)))) →
    ∃ c : Bool, (c = true ↔ x.clamped = true ∨ outside) ∧
      (d.startConfigure o).reader = { d.reader with order := some { x with clamped := c } }) ∧
  (∀ (ps : Nat → Word) (c r : Settings) (limits count rate window : Prop), r = configured ps c →
    (limits ↔ bitAt (ps 0) 1 = true ∧ r.oLim ≤ r.pLim) →
    (count ↔ bitAt (ps 0) 1 = true ∧ r.n ≠ 1 ∧ r.n ≠ 4 ∧ r.n ≠ 16 ∧ r.n ≠ 64) →
    (rate ↔ bitAt (ps 0) 3 = true ∧ 7 < r.print.rate) →
    (window ↔ bitAt (ps 0) 3 = true ∧ ∃ x ∈ r.print.windows, x.shown = true ∧
      (1 < x.line ∨ x.last < x.first ∨ r.print.width ≤ x.last)) →
    (limits → configFault ps r = some (.limitOrder, 2)) ∧
    (¬limits → count → configFault ps r = some (.badParameter, 2)) ∧
    (¬limits → ¬count → rate → configFault ps r = some (.badParameter, 4)) ∧
    (¬limits → ¬count → ¬rate → window → configFault ps r = some (.badLayout, 4)) ∧
    (¬limits → ¬count → ¬rate → ¬window → configFault ps r = none)) ∧
  ∀ (ps : Nat → Word) (c : Settings) (im ih ip : Nat), im = 1 + opt (bitAt (ps 0) 0) 1 →
    ih = im + opt (bitAt (ps 0) 1) 5 → ip = ih + opt (bitAt (ps 0) 2) 1 →
    (bitAt (ps 0) 0 = true → (configured ps c).release = max 5 (min 200 (lo (ps 1))) ∧
      (configured ps c).settle = max 5 (min 200 (hi (ps 1)))) ∧
    (bitAt (ps 0) 0 = false → (configured ps c).release = c.release ∧ (configured ps c).settle = c.settle) ∧
    (bitAt (ps 0) 1 = true → (configured ps c).gH = max 16384 (min 49151 (lo (ps im))) ∧
      (configured ps c).gM = max 16384 (min 49151 (hi (ps im))) ∧
      (configured ps c).gL = max 16384 (min 49151 (lo (ps (im + 1)))) ∧ (configured ps c).n = hi (ps (im + 1)) ∧
      (configured ps c).pLim = max 1 (min 2000000 (ps (im + 2)).toNat) ∧
      (configured ps c).oLim = max 2 (min 2000000 (ps (im + 3)).toNat) ∧
      (configured ps c).tLim = max 1 (min 2000000 (ps (im + 4)).toNat)) ∧
    (bitAt (ps 0) 1 = false → (configured ps c).gH = c.gH ∧ (configured ps c).gM = c.gM ∧ (configured ps c).gL = c.gL ∧
      (configured ps c).n = c.n ∧ (configured ps c).pLim = c.pLim ∧ (configured ps c).oLim = c.oLim ∧
      (configured ps c).tLim = c.tLim) ∧
    (bitAt (ps 0) 2 = true → (configured ps c).dischTimeout = max 100 (min 10000 (lo (ps ih))) ∧
      (configured ps c).trip = max 10 (min 100 (hi (ps ih)))) ∧
    (bitAt (ps 0) 2 = false → (configured ps c).dischTimeout = c.dischTimeout ∧ (configured ps c).trip = c.trip) ∧
    (bitAt (ps 0) 3 = true → (configured ps c).print.width = max 24 (min 64 (b0 (ps ip))) ∧
      (configured ps c).print.rate = b1 (ps ip) ∧ (configured ps c).print.portOn = bitAt (ps ip) 16 ∧
      (configured ps c).print.title = ((List.range 32).map fun i =>
        BitVec.ofNat 8 ((ps (ip + 1 + i / 4)).toNat / 256 ^ (i % 4))).takeWhile (fun x => decide (x ≠ 0)) ∧
      (configured ps c).print.windows = (List.range 6).map (fun i => windowOf (ps (ip + 9 + i)))) ∧
    (∀ w : Word, windowOf w = ⟨bitAt w 24, b2 w, b0 w, b1 w, bitAt w 25⟩) ∧
    (bitAt (ps 0) 3 = false → (configured ps c).print = c.print)

/-! ## The switch matrix (chapter 1) -/

/-- The end of a frame opens the echo window; after a failed self-check, which makes no echo check, the next all-open frame
follows, and after the last one the release wait, unless a soft reset has told the unpark to stop, which then ends in PARKED
(R12, R21, R22). In the window, an echo, or its end without one: after a first
attempt that brings no correct echo the frame is sent once more, the count one higher unless the echo of an enumeration
frame is missing; enumeration makes a card PRESENT at a correct echo, and after the second failed attempt ABSENT with a
count of 0, FAULTED otherwise (R12, R19). A correct echo of a park or of a recovery setup takes the card's points from the
image and the next card follows, or the release wait; twice none in a park sets the card's bit of the park-fault mask,
with MATRIX raised once, in a recovery setup or a self-check it faults the card; a self-check goes on to the next card, or
to the first bus pair; an enumeration or self-check that an ABORT or a soft reset has told to stop ends in PARKED (R14,
R16, R20, R22). A card that leaves PRESENT so clears the map-valid flag (R60). With no frame in transmission, or outside
the window, neither brings anything about (log 5). -/
def Obligations.FramesAndEchoesAct : Prop :=
  (∀ s : State,
    (s.dev.mx.link.state = .sending → (∀ rest, s.dev.mx.phase ≠ .failing rest) →
      exec .cardFrameEnd s = .next { s with
        dev := Dev.settle s.hostQ { s.dev with
          mx := { s.dev.mx with link := { s.dev.mx.link with state := .window } } } }) ∧
    (∀ c rest, s.dev.mx.link.state = .sending → s.dev.mx.phase = .failing (c :: rest) → s.dev.mx.stopUnpark = false →
      exec .cardFrameEnd s = .next { s with
        dev := Dev.settle s.hostQ { s.dev with
          mx := { s.dev.mx with phase := .failing rest, link := ⟨.sending, c, List.replicate 128 .none, 1⟩ } } }) ∧
    (s.dev.mx.link.state = .sending → s.dev.mx.phase = .failing [] → s.dev.mx.stopUnpark = false →
      exec .cardFrameEnd s = .next { s with
        dev := Dev.settle s.hostQ { s.dev with
          mx := { s.dev.mx with phase := .failWait, releaseT := some s.dev.cfg.release, link := .idle } } }) ∧
    (∀ rest, s.dev.mx.link.state = .sending → s.dev.mx.phase = .failing rest → s.dev.mx.stopUnpark = true →
      ∃ d : Dev, exec .cardFrameEnd s = .next { s with dev := d.settle s.hostQ } ∧ d.mx.state = .parked ∧ d.mx.drive = false ∧
        d.mx.cards = [] ∧ d.mx.cur = [] ∧ d.mx.offT = some 500 ∧ d.mx.link.state = .idle ∧
        (s.dev.mx.presentCards ≠ [] → d.nets.mapValid = false) ∧
        (∀ e, s.dev.wait = .unparking → s.dev.reader.ending = some e → d.tasks = [.endOrder .failed e] ∧ d.wait = .run) ∧
        (s.dev.wait ≠ .unparking → d.tasks = s.dev.tasks ∧
          d.wait = if s.dev.wait = .forParked then .run else s.dev.wait)) ∧
    (s.dev.mx.link.state ≠ .sending → exec .cardFrameEnd s = .next { s with dev := s.dev.settle s.hostQ })) ∧
  (∀ (s : State) (pat : List Bus) (c : Nat) (k : Card), s.dev.mx.link.card = c → s.dev.mx.card c = k →
    (s.dev.mx.link.state ≠ .window →
      exec (.cardEcho pat) s = .next { s with dev := s.dev.settle s.hostQ } ∧
      exec .echoWindowExpiry s = .next { s with dev := s.dev.settle s.hostQ }) ∧
    (s.dev.mx.link.state = .window → s.dev.mx.link.attempt < 2 →
      (pat ≠ s.dev.mx.link.pattern →
        exec (.cardEcho pat) s = .next { s with
          dev := Dev.settle s.hostQ { s.dev with
            mx := { s.dev.mx with
              cards := Tab.set Card.absent s.dev.mx.cards c { k with fails := k.fails + 1 }
              link := { s.dev.mx.link with state := .sending, attempt := 2 } } } }) ∧
      (s.dev.mx.phase ≠ .enumerating →
        exec .echoWindowExpiry s = .next { s with
          dev := Dev.settle s.hostQ { s.dev with
            mx := { s.dev.mx with
              cards := Tab.set Card.absent s.dev.mx.cards c { k with fails := k.fails + 1 }
              link := { s.dev.mx.link with state := .sending, attempt := 2 } } } }) ∧
      (s.dev.mx.phase = .enumerating →
        exec .echoWindowExpiry s = .next { s with
          dev := Dev.settle s.hostQ { s.dev with
            mx := { s.dev.mx with
              cards := Tab.set Card.absent s.dev.mx.cards c k
              link := { s.dev.mx.link with state := .sending, attempt := 2 } } } })) ∧
    (s.dev.mx.link.state = .window → s.dev.mx.phase = .enumerating → s.dev.mx.stopUnpark = false →
      (pat = s.dev.mx.link.pattern →
        exec (.cardEcho pat) s = .next { s with
          dev := Dev.settle s.hostQ (Dev.sendEnumeration (c + 1) (s.dev.setCard c { k with state := .present })) }) ∧
      (2 ≤ s.dev.mx.link.attempt → ∃ d : Dev,
        exec .echoWindowExpiry s = .next { s with dev := Dev.settle s.hostQ (Dev.sendEnumeration (c + 1) d) } ∧
        (Tab.canonFrom Card.absent 0 s.dev.mx.cards = true →
          d.mx.card c = { k with state := if k.fails = 0 then .absent else .faulted })) ∧
      (2 ≤ s.dev.mx.link.attempt → pat ≠ s.dev.mx.link.pattern → ∃ d : Dev,
        exec (.cardEcho pat) s = .next { s with dev := Dev.settle s.hostQ (Dev.sendEnumeration (c + 1) d) } ∧
        (Tab.canonFrom Card.absent 0 s.dev.mx.cards = true → d.mx.card c = ⟨.faulted, k.fails + 1⟩)))) ∧
  ∀ (s : State) (pat : List Bus) (c : Nat) (cmd : Instr) (good : Bool), s.dev.mx.link.state = .window →
    s.dev.mx.link.card = c →
    (good = true ∧ cmd = .cardEcho pat ∧ pat = s.dev.mx.link.pattern ∨
      good = false ∧ 2 ≤ s.dev.mx.link.attempt ∧
        (cmd = .cardEcho pat ∧ pat ≠ s.dev.mx.link.pattern ∨ cmd = .echoWindowExpiry)) →
    Tab.canonFrom Card.absent 0 s.dev.mx.cards = true →
    (∀ rest, s.dev.mx.phase = .enumerating ∨ s.dev.mx.phase = .checking rest → s.dev.mx.stopUnpark = true →
      ∃ d : Dev, exec cmd s = .next { s with dev := d.settle s.hostQ } ∧ d.mx.state = .parked ∧ d.mx.drive = false ∧
        d.mx.cards = [] ∧ d.mx.cur = [] ∧ d.mx.offT = some 500 ∧
        (s.dev.mx.presentCards ≠ [] → d.nets.mapValid = false) ∧
        ∀ e, s.dev.wait = .unparking → s.dev.reader.ending = some e → d.tasks = [.endOrder .failed e] ∧ d.wait = .run) ∧
    ((∃ rest, s.dev.mx.phase = .parking rest ∨ s.dev.mx.phase = .recovery rest ∨
        (s.dev.mx.phase = .checking rest ∧ s.dev.mx.stopUnpark = false)) →
    ∃ d : Dev, exec cmd s = .next { s with dev := d.settle s.hostQ } ∧ d.wait = s.dev.wait ∧ d.tasks = s.dev.tasks ∧
      (∀ rest, s.dev.mx.phase = .parking rest →
        d.mx.cur = (if good then s.dev.mx.cur.filter (fun e => decide (cardOf e.1 ≠ c)) else s.dev.mx.cur) ∧
        d.mx.tgt = (if good then s.dev.mx.tgt.filter (fun e => decide (cardOf e.1 ≠ c)) else s.dev.mx.tgt) ∧
        d.mx.parkFault = (if good then s.dev.mx.parkFault else s.dev.mx.parkFault ||| cardBit c) ∧
        d.attn.req = (if good ∨ s.dev.mx.parkRaised = true then s.dev.attn.req else s.dev.attn.req ||| srcBit 1) ∧
        d.mx.parkRaised = (s.dev.mx.parkRaised || !good) ∧ (d.mx.card c).state = (s.dev.mx.card c).state ∧
        (rest = [] → d.mx.phase = .parkWait ∧ d.mx.releaseT = some s.dev.cfg.release ∧ d.mx.link.state = .idle) ∧
        ∀ c' cs, rest = c' :: cs → d.mx.phase = .parking cs ∧ d.mx.link = ⟨.sending, c', List.replicate 128 .none, 1⟩) ∧
      (∀ rest, s.dev.mx.phase = .recovery rest →
        d.mx.cur = s.dev.mx.cur.filter (fun e => decide (cardOf e.1 ≠ c)) ∧ d.attn.req = s.dev.attn.req ∧
        (good = false → s.dev.mx.present c = true → d.nets.mapValid = false) ∧
        (good = false → rest.contains c = false → d.mx.card c = ⟨.faulted, 2⟩) ∧
        (rest = [] → d.mx.phase = .recoveryWait ∧ d.mx.releaseT = some s.dev.cfg.release) ∧
        ∀ c' cs, rest = c' :: cs → d.mx.phase = .recovery cs ∧ d.mx.link = ⟨.sending, c', List.replicate 128 .none, 1⟩) ∧
      (∀ rest, s.dev.mx.phase = .checking rest →
        (good = false → s.dev.mx.present c = true → d.nets.mapValid = false) ∧
        (good = false → rest.contains c = false → d.mx.card c = ⟨.faulted, 2⟩) ∧
        (rest = [] → d.mx.phase = .pairing 0 ∧ d.mu.stim = .l ∧ d.mu.route = .pair 0 ∧
          ∃ j, d.mu.job = some j ∧ j.kind = .pair 0 ∧ j.rng = .l ∧ j.n = s.dev.cfg.n ∧ j.got = 0) ∧
        ∀ c' cs, rest = c' :: cs → d.mx.phase = .checking cs ∧ d.mx.link = ⟨.sending, c', List.replicate 128 .none, 1⟩))

/-- A correct echo of a setup: the image takes what the echoed frame carried, the next card's frame follows, after the last
card the release timer or the settle timer starts with the configured time. What the frame carried, point by point: an
opening frame NONE for the card's points that are not at their target, a closing frame the target of every point of the
card; no other card's points change (R2, R9, R10). The premise there is the tables' canonical form. -/
def Obligations.SetupFollowsCorrectEchoes : Prop :=
  (∀ (s : State) (pat : List Bus) (c : Nat), s.dev.mx.link.state = .window → s.dev.mx.link.card = c →
    s.dev.mx.link.pattern = pat →
    (s.dev.mx.phase = .opening [] →
      exec (.cardEcho pat) s = .next { s with
        dev := Dev.settle s.hostQ { s.dev with
          mx := { s.dev.mx with
            cur := s.dev.mx.cur.filter fun e => !(decide (cardOf e.1 = c) && decide (s.dev.mx.target e.1 ≠ e.2))
            phase := .releaseWait, releaseT := some s.dev.cfg.release, link := .idle } } }) ∧
    (∀ c' rest, s.dev.mx.phase = .opening (c' :: rest) → ∃ t,
      exec (.cardEcho pat) s = .next t ∧ t.mem = s.mem ∧ t.hostQ = s.hostQ ∧
      (s.dev.Resting → t.dev.mx.phase = .opening rest ∧ t.dev.mx.link.state = .sending ∧ t.dev.mx.link.card = c' ∧
        t.dev.mx.cur = s.dev.mx.cur.filter fun e => !(decide (cardOf e.1 = c) && decide (s.dev.mx.target e.1 ≠ e.2)))) ∧
    (s.dev.mx.phase = .closing [] →
      exec (.cardEcho pat) s = .next { s with
        dev := Dev.settle s.hostQ { s.dev with
          mx := { s.dev.mx with
            cur := spliceCard c s.dev.mx.tgt s.dev.mx.cur
            phase := .settleWait, settleT := some s.dev.cfg.settle, link := .idle } } }) ∧
    (∀ c' rest, s.dev.mx.phase = .closing (c' :: rest) → ∃ t,
      exec (.cardEcho pat) s = .next t ∧ t.mem = s.mem ∧ t.hostQ = s.hostQ ∧
      (s.dev.Resting → t.dev.mx.phase = .closing rest ∧ t.dev.mx.link.state = .sending ∧ t.dev.mx.link.card = c' ∧
        t.dev.mx.link.pattern = (cardPoints c').map s.dev.mx.target ∧ t.dev.mx.cur = spliceCard c s.dev.mx.tgt s.dev.mx.cur))) ∧
  ∀ (cur tgt : Tab Bus) (c p : Nat), Tab.canonFrom .none 0 cur = true → Tab.canonFrom .none 0 tgt = true →
    Tab.get .none (spliceCard c tgt cur) p = (if cardOf p = c then Tab.get .none tgt p else Tab.get .none cur p) ∧
    Tab.get .none (cur.filter fun e => !(decide (cardOf e.1 = c) && decide (Tab.get .none tgt e.1 ≠ e.2))) p =
      (if cardOf p = c ∧ Tab.get .none tgt p ≠ Tab.get .none cur p then .none else Tab.get .none cur p) ∧
    Tab.canonFrom .none 0 (spliceCard c tgt cur) = true ∧
    Tab.canonFrom .none 0
      (cur.filter fun e => !(decide (cardOf e.1 = c) && decide (Tab.get .none tgt e.1 ≠ e.2))) = true

/-- A second mismatch in a requested setup faults the card: its entry FAULTED with count 2, its points NONE in the image, one
MATRIX request, and the recovery setup at the gate: SETTING with an all-open frame to the first PRESENT card, or HELD while
discharged is not reported; the requester waits on (R13, R14). A card that was PRESENT clears the map-valid flag (R60). -/
def Obligations.SecondMismatchFaultsCard : Prop :=
  ∀ (s : State) (pat : List Bus) (c : Nat) (cmd : Instr), s.dev.mx.link.state = .window → s.dev.mx.link.card = c →
    2 ≤ s.dev.mx.link.attempt → (cmd = .cardEcho pat ∧ pat ≠ s.dev.mx.link.pattern ∨ cmd = .echoWindowExpiry) →
    (∃ rest, s.dev.mx.phase = .opening rest ∨ s.dev.mx.phase = .closing rest) → s.dev.wait = .setup →
    Tab.canonFrom Card.absent 0 s.dev.mx.cards = true →
    ∃ t, exec cmd s = .next t ∧ t.mem = s.mem ∧ t.hostQ = s.hostQ ∧ t.dev.wait = .setup ∧ t.dev.tasks = s.dev.tasks ∧
      t.dev.mx.cur = s.dev.mx.cur.filter (fun e => decide (cardOf e.1 ≠ c)) ∧ t.dev.mx.tgt = [] ∧
      hasSrc t.dev.attn.req 1 = true ∧ (s.dev.mx.present c = true → t.dev.nets.mapValid = false) ∧
      (s.dev.hv.state ≠ .off → t.dev.mx.card c = ⟨.faulted, 2⟩ ∧ t.dev.mx.state = .held ∧
        t.dev.mx.phase = .heldRecovery) ∧
      (s.dev.hv.state = .off → t.dev.mx.card c = ⟨.faulted, 2⟩ ∧ t.dev.mx.state = .setting ∧
        (∀ c', cardNumbers.find? (fun x => decide (x ≠ c) && s.dev.mx.present x) = some c' →
          t.dev.mx.link = ⟨.sending, c', List.replicate 128 .none, 1⟩) ∧
        (cardNumbers.find? (fun x => decide (x ≠ c) && s.dev.mx.present x) = none →
          t.dev.mx.phase = .recoveryWait ∧ t.dev.mx.releaseT = some s.dev.cfg.release))

/-- A setup request: in PARKED, UNPARKING or PARKING, or with a park pending, the order ends with MATRIX_PARKED; one that
names a point of a card not PRESENT with MATRIX_FAULT, with nothing sent and the image unchanged; with nothing to open or
close it is ready at once; otherwise the opening phase, or with nothing to open the closing phase, begins at the gate (R5 to
R8). -/
def Obligations.SetupRequestsAct : Prop :=
  ∀ (q : List (Nat × Word)) (t : Tab Bus) (d e : Dev), d.wait = .run → e = runTask q (.setup t) d →
    (d.mx.state = .parked ∨ d.mx.state = .unparking ∨ d.mx.state = .parking ∨ (d.mx.state = .ready ∧ d.mx.parkPending = true) →
      e = { d with tasks := [.endOrder .failed .matrixParked] }) ∧
    (d.mx.state = .setting ∨ d.mx.state = .held → e = { d with mx := { d.mx with waitReq := some t }, wait := .setup }) ∧
    (d.mx.state = .ready → d.mx.parkPending = false →
      ((∃ x ∈ t, d.mx.present (x.1 / 128) = false) → e = { d with tasks := [.endOrder .failed .matrixFault] }) ∧
      ((∀ x ∈ t, d.mx.present (x.1 / 128) = true) →
        ∀ m : Matrix, m = { d.mx with tgt := t } →
          (m.opening = [] → m.closing = [] → e = { d with mx := m }) ∧
          (m.opening ≠ [] → d.hv.state ≠ .off →
            e = { d with
              mx := { m with requester := true, reqTarget := t, state := .held, phase := .heldOpening }, wait := .setup }) ∧
          (m.opening = [] → m.closing ≠ [] → d.hv.state ≠ .off →
            e = { d with
              mx := { m with requester := true, reqTarget := t, state := .held, phase := .heldClosing }, wait := .setup }) ∧
          (m.opening ≠ [] → d.hv.state = .off → e.wait = .setup ∧ e.tasks = d.tasks ∧ e.mx.state = .setting ∧
            ∀ c rest, cardsOf m.opening = c :: rest → e.mx.phase = .opening rest ∧
              e.mx.link = ⟨.sending, c, (cardPoints c).map (fun p => if m.bus p ≠ m.target p then .none else m.bus p), 1⟩) ∧
          (m.opening = [] → m.closing ≠ [] → d.hv.state = .off →
            e.wait = .setup ∧ e.tasks = d.tasks ∧ e.mx.state = .setting ∧
            ∀ c rest, cardsOf m.closing = c :: rest → e.mx.phase = .closing rest ∧
              e.mx.link = ⟨.sending, c, (cardPoints c).map m.target, 1⟩)))

/-- The matrix timers: after the release wait of a setup the closing phase begins at the gate, or the setup ends with nothing
to close; after the settle wait it ends, READY, and its requester goes on, or with a HALT or ABORT pending comes to its
safe point: a group's SETUP has become CHECK and goes on there, any other asks for its setup again; the release wait of a
recovery setup ends it, the image all NONE, and fails its requester with MATRIX_FAULT; that of a failed self-check ends in
PARKED with the card table kept; that of a park ends in PARKED with the drive off, every card ABSENT, the map not valid
and the off timer at 50 ms, the PARK done, or failed as an ABORT asked; the off timer's expiry with discharged reported
brings the drive on for an UNPARK that waits; after 20 ms enumeration begins at card 0. The end of a setup goes on to a
park that is pending, and to a request that waited, refused with a park pending or in progress (R5, R9, R10, R14 to R16,
R18, R21, R45, R60, R88, R124, R137), READY having been written into the status area, while that is written, before (R4,
R174). That READY is there a change of its own, in one write of its word, is the model's choice (log 59), and that this write is
not waited for is DEDUCED (log 10). A timer that is not running cannot expire (log 5); the gate holds a closing phase also with
a HALT pending (the model's choice: log 38). -/
def Obligations.MatrixTimersAct : Prop :=
  ∀ s : State,
    (s.dev.mx.releaseT = none → exec .releaseTimerExpiry s = .next s) ∧
    (s.dev.mx.settleT = none → exec .settleTimerExpiry s = .next s) ∧
    (s.dev.mx.offT = none → exec .offTimerExpiry s = .next s) ∧
    (s.dev.mx.unparkT = none → exec .unparkSettleExpiry s = .next s) ∧
    (s.dev.mx.releaseT ≠ none → s.dev.mx.phase = .releaseWait → s.dev.mx.closing ≠ [] → s.dev.hv.state ≠ .off →
      exec .releaseTimerExpiry s = .next { s with
        dev := Dev.settle s.hostQ { s.dev with
          mx := { s.dev.mx with releaseT := none, state := .held, phase := .heldClosing } } }) ∧
    (∀ c rest, s.dev.mx.releaseT ≠ none → s.dev.mx.phase = .releaseWait → s.dev.mx.closing ≠ [] → s.dev.hv.state = .off →
      cardsOf s.dev.mx.closing = c :: rest → s.dev.Resting → ∃ t, exec .releaseTimerExpiry s = .next t ∧
        t.dev.mx.releaseT = none ∧ t.dev.mx.state = .setting ∧ t.dev.mx.phase = .closing rest ∧
        t.dev.mx.link = ⟨.sending, c, (cardPoints c).map s.dev.mx.target, 1⟩ ∧ t.dev.mx.cur = s.dev.mx.cur) ∧
    (s.dev.mx.parkPending = false → s.dev.mx.waitReq = none → s.dev.mx.requester = true → s.dev.wait = .setup →
      s.dev.reader.haltPending = false → s.dev.reader.ending = none →
      ∀ (cmd : Instr) (m : Matrix),
        (cmd = .releaseTimerExpiry ∧ s.dev.mx.releaseT ≠ none ∧ s.dev.mx.phase = .releaseWait ∧ s.dev.mx.closing = [] ∧
            m = { s.dev.mx with releaseT := none } ∨
          cmd = .settleTimerExpiry ∧ s.dev.mx.settleT ≠ none ∧ s.dev.mx.phase = .settleWait ∧
            m = { s.dev.mx with settleT := none }) →
        exec cmd s = .next { s with
          dev := Dev.settle s.hostQ { s.dev with
            mx := { m with state := .ready, phase := .idle, tgt := s.dev.mx.cur, requester := false, link := .idle }
            wait := .run } }) ∧
    (s.dev.mx.parkPending = false → s.dev.mx.waitReq = none → s.dev.mx.requester = true → s.dev.wait = .setup →
      s.dev.reader.haltPending = true ∨ s.dev.reader.ending ≠ none →
      ∀ (cmd : Instr) (m : Matrix),
        (cmd = .releaseTimerExpiry ∧ s.dev.mx.releaseT ≠ none ∧ s.dev.mx.phase = .releaseWait ∧ s.dev.mx.closing = [] ∧
            m = { s.dev.mx with releaseT := none } ∨
          cmd = .settleTimerExpiry ∧ s.dev.mx.settleT ≠ none ∧ s.dev.mx.phase = .settleWait ∧
            m = { s.dev.mx with settleT := none }) →
        (s.dev.kind = some .insulate → s.dev.ins.state = .setup →
          exec cmd s = .next { s with
            dev := Dev.settle s.hostQ { s.dev with
              mx := { m with state := .ready, phase := .idle, tgt := s.dev.mx.cur, requester := false, link := .idle }
              ins := { s.dev.ins with state := .check, step := 2 }, tasks := .safe :: s.dev.tasks, wait := .run } }) ∧
        (s.dev.kind ≠ some .insulate ∨ s.dev.ins.state ≠ .setup →
          exec cmd s = .next { s with
            dev := Dev.settle s.hostQ { s.dev with
              mx := { m with state := .ready, phase := .idle, tgt := s.dev.mx.cur, requester := false, link := .idle }
              tasks := .safe :: .setup s.dev.mx.reqTarget :: s.dev.tasks, wait := .run } })) ∧
    (s.dev.mx.requester = false → ∀ (cmd : Instr) (m : Matrix),
      (cmd = .releaseTimerExpiry ∧ s.dev.mx.releaseT ≠ none ∧ s.dev.mx.phase = .releaseWait ∧ s.dev.mx.closing = [] ∧
          m = { s.dev.mx with releaseT := none } ∨
        cmd = .settleTimerExpiry ∧ s.dev.mx.settleT ≠ none ∧ s.dev.mx.phase = .settleWait ∧
          m = { s.dev.mx with settleT := none }) →
      (s.dev.mx.parkPending = false → ∀ e : Dev, e = { s.dev with
          mx := { m with state := .ready, phase := .idle, tgt := s.dev.mx.cur, waitReq := none, link := .idle } } →
        (s.dev.mx.waitReq = none → exec cmd s = .next { s with dev := e.settle s.hostQ }) ∧
        (∀ r, s.dev.mx.waitReq = some r → ∃ posts : List Burst,
          exec cmd s = .next { s with
            dev := (Dev.requestSetup r { e with
              engineQ := e.engineQ ++ posts, statusImg := e.statusWords }).settle s.hostQ } ∧
          (s.dev.reader.imageLive = true → s.dev.reader.state ≠ .stopped → s.dev.ImageFollows →
            s.dev.mx.state = .setting → ∃ x : Word, b3 x = 2 ∧ posts = [⟨0x3C, 1, some [x], false, true⟩]))) ∧
      (s.dev.mx.parkPending = true → ∃ d : Dev, exec cmd s = .next { s with dev := d.settle s.hostQ } ∧
        (s.dev.hv.state = .off → d.mx.state = .parking ∧ d.mx.parkPending = false) ∧
        (s.dev.hv.state ≠ .off → d.mx.state = .ready ∧ d.mx.parkPending = true) ∧ d.mx.waitReq = none ∧
        (s.dev.reader.imageLive = true → s.dev.reader.state ≠ .stopped → s.dev.ImageFollows →
          s.dev.mx.state = .setting → ∃ x : Word, b3 x = 2 ∧
            d.engineQ = s.dev.engineQ ++ [⟨0x3C, 1, some [x], false, true⟩]) ∧
        (s.dev.mx.waitReq = none → s.dev.wait ≠ .parkGate → d.tasks = s.dev.tasks ∧ d.wait = s.dev.wait) ∧
        (s.dev.mx.waitReq ≠ none → d.tasks = [.endOrder .failed .matrixParked] ∧ d.wait = .run))) ∧
    (s.dev.mx.releaseT ≠ none → s.dev.mx.phase = .parkWait → s.dev.Resting → s.dev.wait ≠ .parkRun →
      s.dev.wait ≠ .forParked → ∃ t, exec .releaseTimerExpiry s = .next t ∧ t.dev.mx.state = .parked ∧
        t.dev.mx.drive = false ∧ t.dev.mx.cards = [] ∧ t.dev.mx.cur = [] ∧ t.dev.mx.tgt = [] ∧
        t.dev.mx.offT = some 500 ∧ (s.dev.mx.presentCards ≠ [] → t.dev.nets.mapValid = false)) ∧
    (s.dev.mx.releaseT ≠ none → s.dev.mx.phase = .parkWait → s.dev.wait = .parkRun → s.dev.reader.ending = none →
      ∃ d : Dev, exec .releaseTimerExpiry s = .next { s with dev := d.settle s.hostQ } ∧ d.mx.state = .parked ∧
        d.mx.drive = false ∧ d.mx.cards = [] ∧ d.mx.cur = [] ∧ d.mx.offT = some 500 ∧
        d.prog.parkMask = some s.dev.mx.parkFault ∧ d.tasks = [.endOrder .done .done] ∧ d.wait = .run ∧
        (s.dev.mx.presentCards ≠ [] → d.nets.mapValid = false)) ∧
    (s.dev.mx.releaseT ≠ none → s.dev.mx.phase = .recoveryWait → s.dev.mx.parkPending = false → s.dev.mx.waitReq = none →
      ∃ d : Dev, exec .releaseTimerExpiry s = .next { s with dev := d.settle s.hostQ } ∧
        d.mx = { s.dev.mx with
          releaseT := none, state := .ready, phase := .idle, cur := [], tgt := [], requester := false, link := .idle } ∧
        (s.dev.mx.requester = true → s.dev.wait = .setup → d.tasks = [.endOrder .failed .matrixFault] ∧ d.wait = .run) ∧
        (s.dev.mx.requester = false ∨ s.dev.wait ≠ .setup → d.tasks = s.dev.tasks ∧ d.wait = s.dev.wait)) ∧
    (s.dev.mx.releaseT ≠ none → s.dev.mx.phase = .failWait → s.dev.wait ≠ .forParked →
      exec .releaseTimerExpiry s = .next { s with
        dev := Dev.settle s.hostQ { s.dev with
          mx := { s.dev.mx with
            state := .parked, phase := .idle, cur := [], tgt := [], link := ⟨.idle, 0, [], 0⟩, drive := false
            offT := some 500, releaseT := none, unparkT := none, stopUnpark := false } } }) ∧
    (∀ c, s.dev.mx.releaseT ≠ none → s.dev.mx.phase = .parkWait → s.dev.wait = .parkRun → s.dev.reader.ending = some c →
      ∃ d : Dev, exec .releaseTimerExpiry s = .next { s with dev := d.settle s.hostQ } ∧ d.mx.state = .parked ∧
        d.mx.drive = false ∧ d.mx.cards = [] ∧ d.mx.cur = [] ∧ d.mx.offT = some 500 ∧
        d.prog.parkMask = some s.dev.mx.parkFault ∧ d.tasks = [.endOrder .failed c] ∧ d.wait = .run ∧
        (s.dev.mx.presentCards ≠ [] → d.nets.mapValid = false)) ∧
    (s.dev.mx.releaseT ≠ none → s.dev.mx.phase = .parkWait → s.dev.wait = .forParked →
      ∃ d : Dev, exec .releaseTimerExpiry s = .next { s with dev := d.settle s.hostQ } ∧ d.mx.state = .parked ∧
        d.mx.drive = false ∧ d.mx.cards = [] ∧ d.mx.cur = [] ∧ d.mx.offT = some 500 ∧ d.tasks = s.dev.tasks ∧ d.wait = .run ∧
        (s.dev.mx.presentCards ≠ [] → d.nets.mapValid = false)) ∧
    (s.dev.mx.offT ≠ none → (s.dev.wait ≠ .unparkGate ∨ s.dev.mx.state ≠ .parked ∨ s.dev.hv.state ≠ .off) →
      exec .offTimerExpiry s = .next { s with
        dev := Dev.settle s.hostQ { s.dev with mx := { s.dev.mx with offT := none } } }) ∧
    (s.dev.mx.offT ≠ none → s.dev.wait = .unparkGate → s.dev.mx.state = .parked → s.dev.hv.state = .off →
      exec .offTimerExpiry s = .next { s with
        dev := Dev.settle s.hostQ { s.dev with
          mx := { s.dev.mx with
            offT := none, drive := true, state := .unparking, phase := .unparkSettle, unparkT := some 200, pairFlags := 0
            stopUnpark := false }
          wait := .unparking } }) ∧
    (s.dev.mx.unparkT ≠ none → s.dev.Resting → ∃ t, exec .unparkSettleExpiry s = .next t ∧ t.dev.mx.unparkT = none ∧
      t.dev.mx.phase = .enumerating ∧ t.dev.mx.link = ⟨.sending, 0, List.replicate 128 .none, 1⟩)

/-- PARK and UNPARK at the take, by the matrix state: done at once with ALREADY, waiting for a park that is pending or in
progress, asking for the park at its gate, or waiting for the off timer and the discharged report; a wait for a park ends
DONE with ALREADY, or as an ABORT asked, with the section as it stood (R15, R17, R18). The self-check's bus pairs: a pair
conducts unless every sample was saturated; an unpark told to stop ends in PARKED with the probe, and the order as the ABORT
asked (R22); after the fourth the record's four fields are written, each in an access of one word (the model's choice: log
63), read back and compared, the compare bit last; with no fault, no pair and the bit set the UNPARK is DONE and READY, else
SELFCHECK_FAIL with MATRIX raised and an all-open frame to each PRESENT card, begun in the step that begins the order's end
(DEDUCED: log 16), that step making the matrix READY and the self-check summary (the model's choice: log 68) (R20, R21). -/
def Obligations.ParkAndUnparkAct : Prop :=
  (∀ (q : List (Nat × Word)) (d e : Dev), d.wait = .run → e = runTask q .parkStart d →
    (d.mx.state = .parked →
      e = { d with prog := { d.prog with already := true }, tasks := .endOrder .done .done :: d.tasks }) ∧
    ((d.mx.state = .ready ∧ d.mx.parkPending = true) ∨ d.mx.state = .parking →
      e = { d with wait := .forParked, tasks := .parkWaited :: d.tasks }) ∧
    (d.mx.state = .ready → d.mx.parkPending = false → d.hv.state ≠ .off →
      e = { d with mx := { d.mx with parkPending := true }, wait := .parkGate }) ∧
    (d.mx.state = .ready → d.mx.parkPending = false → d.hv.state = .off →
      e.wait = .parkRun ∧ e.tasks = d.tasks ∧ e.mx.state = .parking ∧ e.mx.parkPending = false ∧ e.mx.parkFault = 0 ∧
      (d.mx.presentCards = [] → e.mx.phase = .parkWait ∧ e.mx.releaseT = some d.cfg.release) ∧
      ∀ c rest, d.mx.presentCards = c :: rest →
        e.mx.phase = .parking rest ∧ e.mx.link = ⟨.sending, c, List.replicate 128 .none, 1⟩)) ∧
  (∀ (q : List (Nat × Word)) (d : Dev),
    (d.reader.ending = none → runTask q .parkWaited d =
      { d with prog := { d.prog with already := true }, tasks := .endOrder .done .done :: d.tasks }) ∧
    ∀ c, d.reader.ending = some c → runTask q .parkWaited d = { d with tasks := .endOrder .failed c :: d.tasks }) ∧
  (∀ (q : List (Nat × Word)) (d e : Dev), d.wait = .run → e = runTask q .unparkStart d →
    (d.mx.state = .ready → d.mx.parkPending = false →
      e = { d with prog := { d.prog with already := true }, tasks := .endOrder .done .done :: d.tasks }) ∧
    ((d.mx.state = .ready ∧ d.mx.parkPending = true) ∨ d.mx.state = .parking →
      e = { d with wait := .forParked, tasks := .unparkStart :: d.tasks }) ∧
    (d.mx.state = .parked → d.mx.offT ≠ none ∨ d.hv.state ≠ .off → e = { d with wait := .unparkGate }) ∧
    (d.mx.state = .parked → d.mx.offT = none → d.hv.state = .off →
      e = { d with
        mx := { d.mx with
          drive := true, state := .unparking, phase := .unparkSettle, unparkT := some 200, pairFlags := 0, stopUnpark := false }
        wait := .unparking })) ∧
  (∀ (s : State) (diff hvv hvi : BitVec 16) (j : Job) (k : Nat) (conducts : Bool) (o : Order),
    (s.dev.hv.state = .dwell ∨ (s.dev.hv.state = .off ∧ hvv.toInt < 600) ∨
      ((s.dev.hv.state = .discharge ∨ s.dev.hv.state = .lockout) ∧ (600 ≤ hvv.toInt ∨ s.dev.hv.below = 0))) →
    s.dev.mu.job = some j → j.kind = .pair k → j.n ≤ j.got + 1 → s.dev.reader.order = some o →
    (conducts = false ↔ j.allSat = true ∧ (diff.toInt = 32767 ∨ diff.toInt = -32768)) →
    ∃ d : Dev, exec (.converterSample diff hvv hvi) s = .next { s with dev := d.settle s.hostQ } ∧
      d.mx.pairFlags = s.dev.mx.pairFlags + (if conducts then 2 ^ k else 0) ∧
      (s.dev.mx.stopUnpark = true → d.mx.state = .parked ∧ d.mx.drive = false ∧ d.mx.cards = [] ∧ d.mx.cur = [] ∧
        d.mx.offT = some 500 ∧ d.mu.job = none ∧ d.mu.stim = .none ∧ d.mu.state = .idle ∧
        (s.dev.mx.presentCards ≠ [] → d.nets.mapValid = false) ∧
        (∀ e, s.dev.wait = .unparking → s.dev.reader.ending = some e → d.tasks = [.endOrder .failed e] ∧ d.wait = .run) ∧
        (s.dev.wait ≠ .unparking → d.tasks = s.dev.tasks)) ∧
      (s.dev.mx.stopUnpark = false → k < 3 → d.mx.phase = .pairing (k + 1) ∧ d.wait = s.dev.wait ∧ d.tasks = s.dev.tasks ∧ d.mu.stim = .l ∧
        d.mu.route = .pair (k + 1) ∧
        ∃ j', d.mu.job = some j' ∧ j'.kind = .pair (k + 1) ∧ j'.rng = .l ∧ j'.n = s.dev.cfg.n ∧ j'.got = 0) ∧
      (s.dev.mx.stopUnpark = false → 3 ≤ k → d.mx.phase = .recording ∧ d.mu.job = none ∧ d.mu.stim = .none ∧ d.mu.state = .idle ∧ d.wait = .run ∧
        ∃ p f : Word, (∀ c, c < 32 → bitAt p c = s.dev.mx.present c ∧ bitAt f c = s.dev.mx.faulted c) ∧
          d.prog.present = some p ∧ d.prog.fault = some f ∧ d.prog.flags = some (wordOf d.mx.pairFlags) ∧
          d.tasks = [.write (o.resultOff + 8) [p], .write (o.resultOff + 12) [f],
            .write (o.resultOff + 16) [wordOf d.mx.pairFlags], .write (o.resultOff + 20) [p + f + wordOf d.mx.pairFlags],
            .recordRead])) ∧
  ∀ (q : List (Nat × Word)) (d : Dev) (o : Order), d.reader.order = some o →
    (runTask q .recordRead d).tasks = .read (o.resultOff + 8) 4 :: .recordCheck :: d.tasks ∧
    (∀ (x y z c : Word) (bit : Nat), d.rbuf = [x, y, z, c] → bit = (if x + y + z = c then 1 else 0) →
      (runTask q .recordCheck d).prog = { d.prog with compare := some (wordOf bit) } ∧
      (runTask q .recordCheck d).tasks = .write (o.resultOff + 24) [wordOf bit] :: .recordEnd :: d.tasks) ∧
    ∀ (p f g c : Word) (e : Dev), d.prog.present = some p → d.prog.fault = some f → d.prog.flags = some g →
      d.prog.compare = some c → e = runTask q .recordEnd d →
      (f = 0 ∧ g = 0 ∧ c = 1 → e.reader.sum = ⟨p, f, g.toNat, 1⟩ ∧ e.tasks = .endOrder .done .done :: d.tasks ∧
        e.mx = { d.mx with state := .ready, phase := .idle } ∧ e.attn = d.attn) ∧
      (¬(f = 0 ∧ g = 0 ∧ c = 1) → e.reader.sum = ⟨p, f, g.toNat, 2⟩ ∧
        e.tasks = .endOrder .failed .selfcheckFail :: d.tasks ∧ hasSrc e.attn.req 1 = true ∧ e.mx.cards = d.mx.cards ∧
        (d.mx.presentCards = [] → e.mx.phase = .failWait ∧ e.mx.releaseT = some d.cfg.release) ∧
        ∀ c' rest, d.mx.presentCards = c' :: rest →
          e.mx.phase = .failing rest ∧ e.mx.link = ⟨.sending, c', List.replicate 128 .none, 1⟩)

/-! ## Measurement and resistance arithmetic (chapter 2) -/

/-- A two-point measurement, a probe at range L and each collection of a ZERO begin with the gains read, the source on at the
range and routed to the buses, or for a ZERO to the zero path or off with the leakage range selected, and wait for the
answer; while zero-valid is clear the first two mark the order unzeroed (R27 to R30, R33, R37, R39, R42). One sample of the
converter: with no measurement in progress the HV controller alone notes it; a measurement's sums and saturation marks grow
by the sample of its channel; the last sample of an over-range autoranged collection starts a fresh one at the next lower
current; the last sample of any other two-point measurement, a probe or a window ends it, the source off, and the requester
goes on with the answer; of a ZERO collection likewise, the unit still ZEROING (R25, R26, R32, R33, R36, R40, RR42). Bus
pairs end in ParkAndUnparkAct, ramp checks in RampChecksAndStepsAct. The HV controller notes the sample in its own state,
DISCHARGE, LOCKOUT and RAMP, its setpoint counted in samples (log 7), among them; the samples at which it changes its state
are HvvSamplesDecide, with a measurement in progress and without. -/
def Obligations.SamplesJoinMeasurement : Prop :=
  (∀ (q : List (Nat × Word)) (d : Dev) (r : Reader) (g : Nat × Nat × Nat), g = (d.cfg.gH, d.cfg.gM, d.cfg.gL) →
    (d.mu.zeroValid = true → r = d.reader) →
    (d.mu.zeroValid = false →
      r = { d.reader with order := d.reader.order.map fun o => { o with unzeroed := true } }) →
    (∀ rng auto n ca cb, runTask q (.twoPoint rng auto n ca cb) d = { d with
      reader := r
      mu := { d.mu with
        state := .collecting, stim := rng, route := .buses
        job := some ⟨.twoPoint auto ca cb, rng, n, 0, 0, 0, 0, false, true, g⟩ }
      wait := .meas }) ∧
    (∀ n t, runTask q (.probe n t) d = { d with
      reader := r
      mu := { d.mu with
        state := .collecting, stim := .l, route := .buses, job := some ⟨.probe t, .l, n, 0, 0, 0, 0, false, true, g⟩ }
      wait := .meas }) ∧
    ∀ i rng, [Rng.h, .m, .l, .l1, .l2, .l3][i]? = some rng →
      (i < 3 → runTask q (.zeroCollect i) d = { d with
        mu := { d.mu with
          state := .zeroing, stim := rng, route := .zeroPath
          job := some ⟨.zero i, rng, 64, 0, 0, 0, 0, false, true, g⟩ }
        wait := .meas }) ∧
      (3 ≤ i → runTask q (.zeroCollect i) d = { d with
        mu := { d.mu with
          state := .zeroing, stim := .none, leak := rng, route := .buses
          job := some ⟨.zero i, rng, 64, 0, 0, 0, 0, false, true, g⟩ }
        wait := .meas })) ∧
  ∀ (s : State) (diff hvv hvi : BitVec 16) (h : Hv),
    (((s.dev.hv.state = .dwell ∨ (s.dev.hv.state = .off ∧ hvv.toInt < 600)) ∧ h = { s.dev.hv with lastHvv := hvv.toInt }) ∨
      ((s.dev.hv.state = .discharge ∨ s.dev.hv.state = .lockout) ∧
        ((600 ≤ hvv.toInt ∧ h = { s.dev.hv with lastHvv := hvv.toInt, below := 0 }) ∨
          (hvv.toInt < 600 ∧ s.dev.hv.below = 0 ∧ h = { s.dev.hv with lastHvv := hvv.toInt, below := 1 }))) ∨
      (s.dev.hv.state = .ramp ∧ (s.dev.hv.check = true ∨ 5 * hvv.toInt < 98 * (s.dev.hv.volts : Int)) ∧
        h = { s.dev.hv with
          lastHvv := hvv.toInt, rampN := s.dev.hv.rampN + 1
          setpoint := min (s.dev.hv.rate * (s.dev.hv.rampN + 1)) (s.dev.hv.volts * 10000) })) →
    (s.dev.mu.job = none →
      exec (.converterSample diff hvv hvi) s = .next { s with
        dev := Dev.settle s.hostQ { s.dev with hv := h } }) ∧
    ∀ (j j' : Job), s.dev.mu.job = some j →
      j' = { j with
        got := j.got + 1
        sum := j.sum + (if j.kind.usesDiff then diff.toInt else hvi.toInt)
        sumV := j.sumV + hvv.toInt
        sumI := j.sumI + hvi.toInt
        sat := j.sat || (if j.kind.usesDiff then decide (diff.toInt = 32767 ∨ diff.toInt = -32768) else decide (hvi.toInt = 32767))
        allSat := j.allSat &&
          (if j.kind.usesDiff then decide (diff.toInt = 32767 ∨ diff.toInt = -32768) else decide (hvi.toInt = 32767)) } →
      (j.got + 1 < j.n →
        exec (.converterSample diff hvv hvi) s = .next { s with
          dev := Dev.settle s.hostQ { s.dev with
            mu := { s.dev.mu with job := some j' }, hv := h } }) ∧
      (∀ ca cb r, j.n ≤ j.got + 1 → j.kind = .twoPoint true ca cb → j'.sat = true →
          (j.rng = .h ∧ r = Rng.m ∨ j.rng = .m ∧ r = Rng.l) →
        exec (.converterSample diff hvv hvi) s = .next { s with
          dev := Dev.settle s.hostQ { s.dev with
            mu := { s.dev.mu with
              stim := r
              job := some { j with rng := r, got := 0, sum := 0, sumV := 0, sumI := 0, sat := false, allSat := true } }
            hv := h } }) ∧
      (∀ i, j.n ≤ j.got + 1 → s.dev.wait = .meas → j.kind = .zero i →
        exec (.converterSample diff hvv hvi) s = .next { s with
          dev := Dev.settle s.hostQ { s.dev with
            mu := { s.dev.mu with
              state := .zeroing, stim := .none, route := .buses, job := none, ans := j'.answer s.dev.mu.zero }
            hv := h
            wait := .run } }) ∧
      (j.n ≤ j.got + 1 → s.dev.wait = .meas →
        ((∃ t, j.kind = .probe t) ∨ j.kind = .window ∨ (∃ ca cb, j.kind = .twoPoint false ca cb) ∨
          (∃ ca cb, j.kind = .twoPoint true ca cb ∧ (j'.sat = false ∨ j.rng = .l))) →
        exec (.converterSample diff hvv hvi) s = .next { s with
          dev := Dev.settle s.hostQ { s.dev with
            mu := { s.dev.mu with
              state := .idle, stim := .none, route := .buses, job := none, ans := j'.answer s.dev.mu.zero }
            hv := h
            wait := .run } })

/-- The raw resistance (R34): 0 for D not positive, else X = D × K × G over Q = 16 × N × 32768, rounded half up by floor((X +
Q/2) / Q); X of a unit's collection lies below 2^47. -/
def Obligations.RawResistanceRoundsHalfUp : Prop :=
  ∀ (d : Int) (g n : Nat) (r : Rng) (k : Nat), (r = .h ∧ k = 10 ∨ r = .m ∧ k = 100 ∨ r = .l ∧ k = 1000) → 0 < n →
    (d ≤ 0 → rawResistance d r.k g n = 0) ∧
    (∀ x : Nat, (x : Int) = d * k * g → 0 < d →
      rawResistance d r.k g n = (x + 16 * n * 32768 / 2) / (16 * n * 32768) ∧
      2 * (x : Int) < (2 * rawResistance d r.k g n + 1) * (16 * n * 32768) ∧
      (2 * rawResistance d r.k g n - 1 : Int) * (16 * n * 32768) ≤ 2 * x ∧
      (d ≤ n * 33766 → n ≤ 64 → g ≤ 49151 → x < 2 ^ 47 ∧ rawResistance d r.k g n ≤ 3165498))

/-- The answers of a two-point measurement, a probe and a bus-pair probe from their sums, and the class of a member check:
OPEN with the saturation flag for an over-range collection, else the compensated resistance, never below 0, with sum and
range; a probe connected exactly when no sample saturated and the raw resistance is not above T; a pair open exactly when
every sample saturated (R20, R33, R35, R36, R38, R39). The insulation resistance of a window from the averages truncated
toward zero, its bound and its verdict (R40, R41). -/
def Obligations.MeasurementAnswers : Prop :=
  (∀ (j : Job) (z : ZeroCodes) (raw : Nat),
    raw = rawResistance (j.sum - j.n * z.at j.rng) j.rng.k
      (match j.rng with | .h => j.gain.1 | .m => j.gain.2.1 | .l => j.gain.2.2 | _ => 0) j.n →
    (∀ auto ca cb, j.kind = .twoPoint auto ca cb →
      (j.sat = true → (j.answer z).r = none ∧ (j.answer z).sat = true) ∧
      (j.sat = false → (j.answer z).r = some (max 0 ((raw : Int) - ca - cb)).toNat ∧ (j.answer z).sat = false ∧
        (j.answer z).sum = j.sum) ∧ (j.answer z).rng = j.rng) ∧
    (∀ t, j.kind = .probe t →
      ((j.answer z).connected = true ↔ j.sat = false ∧ raw ≤ t) ∧
      (j.sat = false → (j.answer z).r = some raw)) ∧
    (∀ k, j.kind = .pair k → ((j.answer z).connected = true ↔ j.allSat = false))) ∧
  (∀ p o : Nat, p < o →
    classify p o none = .opn ∧
    ∀ r, (o < r → classify p o (some r) = .opn) ∧ (p < r → r ≤ o → classify p o (some r) = .highRes) ∧
      (r ≤ p → classify p o (some r) = .pass)) ∧
  ∀ (sumV sumI : Int) (n : Nat) (sat : Bool) (r : Rng) (lsb : Nat) (z : Int),
    (r = .l1 ∧ lsb = 50 ∨ r = .l2 ∧ lsb = 500 ∨ r = .l3 ∧ lsb = 5000) → 0 < n → (sat = true → r = .l3) →
    ∀ (mv : Nat) (pa : Int), (sumV.tdiv n < 0 → mv = 0) → (0 ≤ sumV.tdiv n → (mv : Int) = sumV.tdiv n * 50) →
      pa = (sumI.tdiv n - z) * lsb →
      (sat = true → insulationResistance sumV sumI n sat r z = ⟨mv * 1000 / 163835000, .lt, r⟩) ∧
      (sat = false → pa ≤ 0 → insulationResistance sumV sumI n sat r z = ⟨9999999, .gt, r⟩) ∧
      (sat = false → 0 < pa → mv * 1000 / pa.toNat > 9999999 →
        insulationResistance sumV sumI n sat r z = ⟨9999999, .gt, r⟩) ∧
      (sat = false → 0 < pa → mv * 1000 / pa.toNat ≤ 9999999 →
        insulationResistance sumV sumI n sat r z = ⟨mv * 1000 / pa.toNat, .none, r⟩) ∧
      ∀ rmin, (insulationResistance sumV sumI n sat r z).passes rmin = true ↔
        rmin ≤ (insulationResistance sumV sumI n sat r z).r ∧ sat = false

/-- ZERO by the matrix state: in READY with no park pending a setup to all-NONE, in PARKED nothing, in any other state the
wait for PARKED (R42 names READY with a park pending and PARKING; the model's choice for the others: log 17); then the
collections H, M, L, the wait for the discharged report, L1, L2, L3, with a safe point after each step, from which a HALT
begins again and an ABORT ends it (R43). A collection's code is written as it ends, with no wait (the model's choice: log
43); a saturated one gives no code and its field is out of range (the bit for it alone: log 44; the code's bits are free:
log 13). ZERO decides: each code is the sum of 64 samples over 64, rounded half away from zero; with six codes within
-1000..1000 all are stored together and zero-valid is set; otherwise the order ends with ZERO_RANGE naming the first range
that failed, and the calibration state is as it was (R42, R43). -/
def Obligations.ZeroStoresSixCodesOrNone : Prop :=
  (∀ (q : List (Nat × Word)) (d : Dev),
    (d.mx.state = .ready → d.mx.parkPending = false →
      runTask q .zeroStart d = { d with tasks := .setup [] :: .zeroRun :: d.tasks }) ∧
    (d.mx.state = .parked → runTask q .zeroStart d = { d with tasks := .zeroRun :: d.tasks }) ∧
    (d.mx.state ≠ .parked → d.mx.state ≠ .ready ∨ d.mx.parkPending = true →
      runTask q .zeroStart d = { d with tasks := .zeroSafe :: .zeroStart :: d.tasks, wait := .forParked }) ∧
    runTask q .zeroRun d = { d with
      tasks := [.zeroSafe, .zeroCollect 0, .zeroGot 0, .zeroSafe, .zeroCollect 1, .zeroGot 1, .zeroSafe, .zeroCollect 2,
        .zeroGot 2, .zeroSafe, .zeroOff, .zeroSafe, .zeroCollect 3, .zeroGot 3, .zeroSafe, .zeroCollect 4, .zeroGot 4,
        .zeroSafe, .zeroCollect 5, .zeroGot 5, .zeroSafe, .zeroEnd]
      wait := .run } ∧
    (d.hv.state = .off → runTask q .zeroOff d = d) ∧
    (d.hv.state ≠ .off → runTask q .zeroOff d = { d with wait := .zeroOff }) ∧
    (∀ c, d.reader.ending = some c →
      runTask q .zeroSafe d = { d with tasks := [.endOrder .failed c], wait := .run }) ∧
    (d.reader.ending = none → d.reader.haltPending = true →
      runTask q .zeroSafe d = { d with tasks := [.pause, .zeroRun], wait := .run }) ∧
    (d.reader.ending = none → d.reader.haltPending = false → runTask q .zeroSafe d = d) ∧
    ∀ (i : Nat) (o : Order), d.reader.order = some o →
      (d.mu.ans.sat = false → ∀ w : Word, lo w = ((BitVec.ofInt 16 (zeroCodeOf d.mu.ans.sum)).toNat) → hi w = 0 →
        runTask q (.zeroGot i) d = { d with
          prog := { d.prog with zres := d.prog.zres.set i (some (some (zeroCodeOf d.mu.ans.sum))) }
          engineQ := d.engineQ ++ [⟨o.resultOff + 4 + 4 * i, 1, some [w], false, true⟩] }) ∧
      (d.mu.ans.sat = true → ∃ w : Word, hi w = 1 ∧
        runTask q (.zeroGot i) d = { d with
          prog := { d.prog with zres := d.prog.zres.set i (some none) }
          engineQ := d.engineQ ++ [⟨o.resultOff + 4 + 4 * i, 1, some [w], false, true⟩] })) ∧
  (∀ sum : Int, (0 ≤ sum → 64 * zeroCodeOf sum ≤ sum + 32 ∧ sum + 32 < 64 * zeroCodeOf sum + 64) ∧
    zeroCodeOf (-sum) = -zeroCodeOf sum) ∧
  (∀ (q : List (Nat × Word)) (d : Dev) (h m l l1 l2 l3 : Int), (∀ c ∈ [h, m, l, l1, l2, l3], -1000 ≤ c ∧ c ≤ 1000) →
    d.prog.zres = [some (some h), some (some m), some (some l), some (some l1), some (some l2), some (some l3)] →
    (runTask q .zeroEnd d).mu.zero = ⟨h, m, l, l1, l2, l3⟩ ∧ (runTask q .zeroEnd d).mu.zeroValid = true ∧
    (runTask q .zeroEnd d).mu.state = .idle ∧ (runTask q .zeroEnd d).tasks = .endOrder .done .done :: d.tasks) ∧
  ∀ (q : List (Nat × Word)) (d : Dev) (i : Nat) (r : Rng), [Rng.h, .m, .l, .l1, .l2, .l3][i]? = some r →
    d.prog.zres.length = 6 →
    (d.prog.zres[i]? = some (some none) ∨ ∃ c, d.prog.zres[i]? = some (some (some c)) ∧ (c < -1000 ∨ 1000 < c)) →
    (∀ k, k < i → ∃ c, d.prog.zres[k]? = some (some (some c)) ∧ -1000 ≤ c ∧ c ≤ 1000) →
    (runTask q .zeroEnd d).mu.zero = d.mu.zero ∧ (runTask q .zeroEnd d).mu.zeroValid = d.mu.zeroValid ∧
    (runTask q .zeroEnd d).prog.zfirst = some r ∧ (runTask q .zeroEnd d).prog.zres = d.prog.zres ∧
    (runTask q .zeroEnd d).tasks = .endOrder .failed .zeroRange :: d.tasks

/-! ## High-voltage source, interlock and discharge (chapter 6), insulation check (chapter 7) -/

/-- What an HVV sample brings about in every HV state, with no measurement in progress and with one of any kind, which takes
the sample as MeasUnit.Takes says: OFF is left at 600 or more, for DISCHARGE with the timer started or, with the latch set,
for LOCKOUT; DISCHARGE and LOCKOUT are left for OFF at the second of two samples below 600 in a row; RAMP is left for DWELL
at 98% of the voltage, the setpoint at V, and rises at the ramp rate before, counted in samples (log 7), and during the ramp
check at any sample; DWELL is left at none. A window that a recharge finds in progress ends without an answer; a measurement
that ends with the sample has its requester go on after what the controller brings about (the order in which the two take one
sample is the model's choice: log 28). The source is on and the discharge switch open exactly in RAMP and DWELL (R25, R104,
R105, R107, R112, R114). -/
def Obligations.HvvSamplesDecide : Prop :=
  (∀ h : Hv, (h.sourceOn = true ↔ h.state = .ramp ∨ h.state = .dwell) ∧ (h.switchClosed = true ↔ h.sourceOn = false)) ∧
  (∀ d : Dev, d.discharged = true ↔ d.hv.state = .off) ∧
  (∀ (u : MeasUnit) (diff hvv hvi : Int), ∃ m go, u.Takes diff hvv hvi m go) ∧
  ∀ (s : State) (diff hvv hvi : BitVec 16) (h : Hv) (m : MeasUnit) (go : Dev → Dev),
    s.dev.mu.Takes diff.toInt hvv.toInt hvi.toInt m go → h = { s.dev.hv with lastHvv := hvv.toInt } →
    (h.state = .dwell ∨ (h.state = .off ∧ hvv.toInt < 600) →
      exec (.converterSample diff hvv hvi) s = .next { s with
        dev := Dev.settle s.hostQ (go { s.dev with mu := m, hv := h }) }) ∧
    (h.state = .off → 600 ≤ hvv.toInt → h.lockout = false → ∀ u : MeasUnit,
        (∀ x, m.job = some x → x.kind = .window ∨ x.kind = .rampCheck →
          u = { m with state := .idle, stim := .none, route := .buses, job := none }) →
        ((∀ x, m.job = some x → x.kind ≠ .window ∧ x.kind ≠ .rampCheck) → u = m) →
      exec (.converterSample diff hvv hvi) s = .next { s with
        dev := Dev.settle s.hostQ (go { s.dev with
          mu := u
          hv := { h with
            state := .discharge, setpoint := 0, rampT := none, check := false, armed := false
            dischT := some s.dev.cfg.dischTimeout, below := 0 } }) }) ∧
    (h.state = .off → 600 ≤ hvv.toInt → h.lockout = true →
      exec (.converterSample diff hvv hvi) s = .next { s with
        dev := Dev.settle s.hostQ (go { s.dev with mu := m, hv := { h with state := .lockout, below := 0 } }) }) ∧
    (h.state = .discharge ∨ h.state = .lockout →
      (600 ≤ hvv.toInt →
        exec (.converterSample diff hvv hvi) s = .next { s with
          dev := Dev.settle s.hostQ (go { s.dev with mu := m, hv := { h with below := 0 } }) }) ∧
      (hvv.toInt < 600 → h.below = 0 →
        exec (.converterSample diff hvv hvi) s = .next { s with
          dev := Dev.settle s.hostQ (go { s.dev with mu := m, hv := { h with below := 1 } }) }) ∧
      (hvv.toInt < 600 → h.below ≠ 0 →
        exec (.converterSample diff hvv hvi) s = .next { s with
          dev := Dev.settle s.hostQ (go (Dev.offReached { s.dev with
            mu := m
            hv := { h with
              state := .off, dischT := none, below := 0, ask := if h.ask = .waiting then .off else h.ask } })) })) ∧
    (h.state = .ramp →
      (h.check = false → 98 * (h.volts : Int) ≤ 5 * hvv.toInt →
        exec (.converterSample diff hvv hvi) s = .next { s with
          dev := Dev.settle s.hostQ (go { s.dev with
            mu := m
            hv := { h with state := .dwell, setpoint := h.volts * 10000, rampN := h.rampN + 1, rampT := none }
            wait := if s.dev.wait = .ramp then .run else s.dev.wait }) }) ∧
      (h.check = true ∨ 5 * hvv.toInt < 98 * (h.volts : Int) →
        exec (.converterSample diff hvv hvi) s = .next { s with
          dev := Dev.settle s.hostQ (go { s.dev with
            mu := m
            hv := { h with
              setpoint := min (h.rate * (h.rampN + 1)) (h.volts * 10000), rampN := h.rampN + 1 } }) }))

/-- The discharged report's return, at the second sample below the safe level: a HELD setup begins the phase it stands at, a
HELD recovery setup its frames, a pending park with the matrix READY begins, an UNPARK whose off timer has expired turns
the drive on; a ZERO that waits for it, a held ramp request and the wait of a DISCHARGE step go on; nothing else changes
(R8, R14, R15, R18, R42, R105, R106, R112). -/
def Obligations.DischargedReportActs : Prop :=
  ∀ (d e : Dev) (w : Wait), d.hv.state = .off → e = d.offReached →
    w = (if d.wait = .zeroOff ∨ d.wait = .rampHeld ∨ d.wait = .hvOff then .run else d.wait) →
    e.tasks = d.tasks ∧ e.hv = d.hv ∧ e.reader = d.reader ∧ e.attn = d.attn ∧ e.mu = d.mu ∧
    (d.mx.phase = .heldOpening → d.mx.opening ≠ [] → e.wait = w ∧ e.mx.state = .setting ∧
      ∀ c rest, cardsOf d.mx.opening = c :: rest → e.mx.phase = .opening rest ∧
        e.mx.link = ⟨.sending, c,
          (cardPoints c).map (fun p => if d.mx.bus p ≠ d.mx.target p then .none else d.mx.bus p), 1⟩) ∧
    (d.mx.phase = .heldClosing → e.wait = w ∧ e.mx.state = .setting ∧
      (∀ c rest, cardsOf d.mx.closing = c :: rest →
        e.mx.phase = .closing rest ∧ e.mx.link = ⟨.sending, c, (cardPoints c).map d.mx.target, 1⟩)) ∧
    (d.mx.phase = .heldRecovery → e.wait = w ∧ e.mx.state = .setting ∧
      (d.mx.presentCards = [] → e.mx.phase = .recoveryWait ∧ e.mx.releaseT = some d.cfg.release) ∧
      ∀ c rest, d.mx.presentCards = c :: rest →
        e.mx.phase = .recovery rest ∧ e.mx.link = ⟨.sending, c, List.replicate 128 .none, 1⟩) ∧
    (d.mx.phase ≠ .heldOpening → d.mx.phase ≠ .heldClosing → d.mx.phase ≠ .heldRecovery →
      (d.mx.parkPending = true → d.mx.state = .ready →
        e.wait = (if d.wait = .parkGate then .parkRun else w) ∧ e.mx.state = .parking ∧ e.mx.parkPending = false ∧
        (d.mx.presentCards = [] → e.mx.phase = .parkWait ∧ e.mx.releaseT = some d.cfg.release) ∧
        ∀ c rest, d.mx.presentCards = c :: rest →
          e.mx.phase = .parking rest ∧ e.mx.link = ⟨.sending, c, List.replicate 128 .none, 1⟩) ∧
      (d.mx.parkPending = false ∨ d.mx.state ≠ .ready →
        (d.wait = .unparkGate → d.mx.state = .parked → d.mx.offT = none →
          e = { d with
            mx := { d.mx with
              drive := true, state := .unparking, phase := .unparkSettle, unparkT := some 200, pairFlags := 0
              stopUnpark := false }
            wait := .unparking }) ∧
        (d.wait ≠ .unparkGate ∨ d.mx.state ≠ .parked ∨ d.mx.offT ≠ none → e = { d with wait := w })))

/-- A ramp request by the checks in their order, a refusal with the code of an ABORT in progress if there is one; the taken
one stores the step's values, zeroes the arc counter, arms the comparator, starts the ramp timer and enters RAMP; with a HALT
or an ABORT pending its step is dropped at once, the source off again and DISCHARGE entered, and the group or the probe is to
be made again after the stop (R137); the timer is 2000 × V / rate + 100 ms rounded up, and its expiry in RAMP begins the ramp
check, a window of 10 samples at L3 with the source on, which marks the order when zero-valid is clear (log 29). A refusal
with INTERLOCK pauses with that reason also with a HALT pending (the model's choice: log 56). At its window point the dwell
timer lets the engine go on, and runs on to the dwell's end if the window began before it (R106, R107, R108, R112, R117,
R125, R127, R134, R139). A timer that is not running, or a dwell expiry in another wait, brings nothing about (log 5). -/
def Obligations.RampRequestsAndTimers : Prop :=
  (∀ v rate n : Nat, 0 < rate → n * rate < 2000 * v + rate → 2000 * v ≤ n * rate → rampTimeout v rate = n + 100) ∧
  (∀ (q : List (Nat × Word)) (d e : Dev), d.wait = .run → e = runTask q .rampReq d →
    (d.hv.lockout = true → e.hv = d.hv ∧ e.tasks = [.endOrder .failed (d.reader.ending.getD .hvLockout)]) ∧
    (d.hv.lockout = false →
      (d.hv.openRec = true → d.reader.ending = none → e.hv = { d.hv with pauseMark := true } ∧
        e.ins.reason = .interlock ∧ e.tasks = .safe :: .rampReq :: d.tasks) ∧
      (∀ c, d.hv.openRec = true → d.reader.ending = some c → e.hv = d.hv ∧ e.tasks = [.endOrder .failed c]) ∧
      (d.hv.openRec = false →
        (d.mx.state ≠ .ready ∨ d.mx.parkPending = true →
          e.hv = d.hv ∧ e.tasks = [.endOrder .failed (d.reader.ending.getD .matrixParked)]) ∧
        (d.mx.state = .ready → d.mx.parkPending = false →
          (d.hv.state ≠ .off → e.hv = d.hv ∧ e.wait = .rampHeld ∧ e.tasks = .rampReq :: d.tasks) ∧
          (d.hv.state = .off → d.reader.haltPending = false → d.reader.ending = none →
            e.wait = .ramp ∧ e.tasks = d.tasks ∧
            e.hv = { d.hv with
              state := .ramp, volts := d.ins.gVolts, rate := d.ins.rate, trip := d.ins.trip, arcLimit := d.ins.arcLimit
              setpoint := 0, rampN := 0, rampT := some (rampTimeout d.ins.gVolts d.ins.rate), check := false
              armed := true, arcs := 0 }) ∧
          (∀ pre rest, d.hv.state = .off → d.reader.haltPending = true ∨ d.reader.ending ≠ none →
              d.tasks = pre ++ .stepEnd :: rest → .stepEnd ∉ pre →
            e.wait = .run ∧ e.ins.dwellT = none ∧
            e.tasks = .waitOff false :: .safe ::
              (if d.ins.locPhase = .none then .groupSetup else .locProbe d.ins.subset) :: rest ∧
            e.hv = { d.hv with
              state := .discharge, volts := d.ins.gVolts, rate := d.ins.rate, trip := d.ins.trip, arcLimit := d.ins.arcLimit
              setpoint := 0, rampN := 0, rampT := none, check := false, armed := false, arcs := 0
              dischT := some d.cfg.dischTimeout, below := 0, ask := .waiting }))))) ∧
  ∀ s : State,
    (s.dev.hv.state = .ramp → s.dev.hv.rampT ≠ none → s.dev.mu.zeroValid = true →
      exec .rampTimerExpiry s = .next { s with
        dev := Dev.settle s.hostQ { s.dev with
          hv := { s.dev.hv with rampT := none, check := true }
          mu := { s.dev.mu with
            state := .window, stim := .none, leak := .l3, route := .buses
            job := some ⟨.rampCheck, .l3, 10, 0, 0, 0, 0, false, true, (s.dev.cfg.gH, s.dev.cfg.gM, s.dev.cfg.gL)⟩ } } }) ∧
    (s.dev.hv.state = .ramp → s.dev.hv.rampT ≠ none → s.dev.mu.zeroValid = false → s.dev.Resting →
      ∃ t, exec .rampTimerExpiry s = .next t ∧ t.dev.hv = { s.dev.hv with rampT := none, check := true } ∧
        t.dev.mu.state = .window ∧ t.dev.mu.leak = .l3 ∧
        t.dev.reader.order = s.dev.reader.order.map fun o => { o with unzeroed := true }) ∧
    (s.dev.hv.state ≠ .ramp ∨ s.dev.hv.rampT = none →
      exec .rampTimerExpiry s = .next { s with dev := s.dev.settle s.hostQ }) ∧
    (s.dev.wait = .dwell → s.dev.ins.locPhase = .none → 1 ≤ s.dev.ins.window →
      exec .dwellTimerExpiry s = .next { s with
        dev := Dev.settle s.hostQ { s.dev with
          ins := { s.dev.ins with dwellT := if s.dev.ins.window ≤ s.dev.ins.dwell then s.dev.ins.dwellT else none }
          wait := .run } }) ∧
    (s.dev.wait = .dwell → s.dev.ins.locPhase ≠ .none → 1 ≤ s.dev.ins.locDwell →
      exec .locateDwellExpiry s = .next { s with dev := Dev.settle s.hostQ { s.dev with wait := .run } }) ∧
    (s.dev.wait ≠ .dwell ∨ s.dev.ins.locPhase ≠ .none →
      exec .dwellTimerExpiry s = .next { s with dev := s.dev.settle s.hostQ }) ∧
    (s.dev.wait ≠ .dwell ∨ s.dev.ins.locPhase = .none →
      exec .locateDwellExpiry s = .next { s with dev := s.dev.settle s.hostQ })

/-- A trip in RAMP or DWELL, and the pulse of DWELL that brings the arc counter to the step's limit, remove the source, enter
DISCHARGE with the timer started and end the step: the group fails with its BREAKDOWN or ARC finding, of the window's range
if one had begun, and is the first-finding group if none was, a locate probe answers connected with 0 and "<", of that range
or the evaluation's; a pulse below the limit is counted (R110, R111, R129, R131, R135; log 42 for a ramp check, which counts
as no window); otherwise neither brings anything about (log 5; R131). -/
def Obligations.TripsAndArcsEndTheStep : Prop :=
  (∀ (s : State) (cmd : Instr) (k : DKind) (v : Nat) (h : Hv),
    (cmd = .trip ∧ k = .brkd ∧ s.dev.hv.armed = true ∧ (s.dev.hv.state = .ramp ∨ s.dev.hv.state = .dwell) ∧ h = s.dev.hv ∧
        v = (if s.dev.hv.lastHvv < 0 then 0 else s.dev.hv.lastHvv.toNat * 50 / 1000) ∨
      cmd = .arcPulse ∧ k = .arc ∧ s.dev.hv.state = .dwell ∧ v = min 255 (s.dev.hv.arcs + 1) ∧ s.dev.hv.arcLimit ≤ v ∧
        h = { s.dev.hv with arcs := v }) →
    ∃ d : Dev, exec cmd s = .next { s with dev := d.settle s.hostQ } ∧ d.wait = .run ∧
      d.hv = { h with
        state := .discharge, setpoint := 0, rampT := none, check := false, armed := false
        dischT := some s.dev.cfg.dischTimeout, below := 0, ask := .waiting } ∧
      d.ins.dwellT = none ∧ (∀ j, d.mu.job = some j → j.kind ≠ .window ∧ j.kind ≠ .rampCheck) ∧
      (s.dev.ins.locPhase = .none → d.ins.state = .discharge ∧ d.ins.step = 8 ∧ d.ins.verdict = some false ∧
        d.ins.toLocate = false ∧
        d.ins.firstFinding = (if s.dev.ins.firstFinding = 0 then s.dev.ins.cursor else s.dev.ins.firstFinding) ∧
        d.tasks = .finding ⟨k, s.dev.ins.cursor, 0, none, some v, if s.dev.ins.windowed then s.dev.ins.wRng else .none,
          false, false, false, 0, d.tag⟩ :: fromWaitOff s.dev.tasks) ∧
      (s.dev.ins.locPhase ≠ .none → d.tasks = fromWaitOff s.dev.tasks ∧ d.ins = { s.dev.ins with dwellT := none } ∧
        d.search.ans = some ⟨0, .lt, if s.dev.ins.windowed then s.dev.ins.wRng
          else match s.dev.ins.ev with | some v => v.rng | none => .none⟩)) ∧
  (∀ s : State, s.dev.hv.armed = false ∨ (s.dev.hv.state ≠ .ramp ∧ s.dev.hv.state ≠ .dwell) →
    exec .trip s = .next { s with dev := s.dev.settle s.hostQ }) ∧
  (∀ s : State, s.dev.hv.state ≠ .dwell → exec .arcPulse s = .next { s with dev := s.dev.settle s.hostQ }) ∧
  ∀ s : State, s.dev.hv.state = .dwell → min 255 (s.dev.hv.arcs + 1) < s.dev.hv.arcLimit →
    exec .arcPulse s = .next { s with
      dev := Dev.settle s.hostQ { s.dev with hv := { s.dev.hv with arcs := min 255 (s.dev.hv.arcs + 1) } } }

/-- The discharge timer's expiry in DISCHARGE sets the latch and enters LOCKOUT, where the count of samples below the safe
level restarts, or goes on in the tie of R112 (which of the two, where a sample counted, is free: log 36), answers a
waiting request with the fault, has a held ramp request checked again, and marks a running order in flight to end with
DISCHARGE_FAULT unless an ABORT already ends it (not one whose pause is being written, and one whose ramp request is held
too: the model's choice, logs 51, 53); the interlock input is recorded at each change, an opening in RAMP or DWELL removes
the source, sets the pause mark and the pause reason (at once, the model's choice: log 55) and has the engine abandon its
step, whose arc count is not entered (DEDUCED: log 33) and which, a locate probe, does not count at OFF (the model's
choice: log 50); a closing does nothing more (R105, R106, R112, R113, R115, R116, R139). A timer that is not running
cannot expire, an open interlock not open and a closed one not close (log 5). -/
def Obligations.DischargeFaultAndInterlock : Prop :=
  ∀ s : State,
    (s.dev.hv.state = .discharge → s.dev.hv.dischT ≠ none → ∃ d : Dev,
      exec .dischargeTimerExpiry s = .next { s with dev := d.settle s.hostQ } ∧ d.hv.state = .lockout ∧
      d.hv.lockout = true ∧ d.hv.dischT = none ∧ (d.hv.below = 0 ∨ d.hv.below = s.dev.hv.below) ∧
      (s.dev.hv.ask = .waiting → d.hv.ask = .fault) ∧
      d.safetyCond = true ∧
      (s.dev.reader.state = .running → s.dev.reader.ending = none →
        (∃ o, s.dev.reader.order = some o ∧ o.status = .taken) → d.reader.ending = some .dischargeFault) ∧
      (s.dev.reader.state ≠ .running ∨ s.dev.reader.ending ≠ none ∨
        (∀ o, s.dev.reader.order = some o → o.status ≠ .taken) → d.reader = s.dev.reader ∧ d.tasks = s.dev.tasks ∧
          d.wait = (if s.dev.wait = .hvOff ∨ s.dev.wait = .rampHeld then .run else s.dev.wait)) ∧
      (s.dev.reader.state = .running → s.dev.reader.ending = none →
        (∃ o, s.dev.reader.order = some o ∧ o.status = .taken) → s.dev.wait = .rampHeld →
        d.tasks = .safe :: s.dev.tasks ∧ d.wait = .run)) ∧
    (s.dev.hv.state ≠ .discharge ∨ s.dev.hv.dischT = none →
      exec .dischargeTimerExpiry s = .next { s with dev := s.dev.settle s.hostQ }) ∧
    (s.dev.pins.interlockOpen = true → exec .interlockOpening s = .next s) ∧
    (s.dev.pins.interlockOpen = false → s.dev.hv.state ≠ .ramp → s.dev.hv.state ≠ .dwell →
      exec .interlockOpening s = .next { s with
        dev := Dev.settle s.hostQ { s.dev with
          hv := { s.dev.hv with openRec := true }, pins := { s.dev.pins with interlockOpen := true } } }) ∧
    (s.dev.pins.interlockOpen = false → s.dev.hv.state = .ramp ∨ s.dev.hv.state = .dwell → ∃ d : Dev,
      exec .interlockOpening s = .next { s with dev := d.settle s.hostQ } ∧ d.pins.interlockOpen = true ∧
      d.hv = { s.dev.hv with
        openRec := true, pauseMark := true, state := .discharge, setpoint := 0, rampT := none, check := false
        armed := false, dischT := some s.dev.cfg.dischTimeout, below := 0, ask := .waiting } ∧
      d.ins.reason = .interlock ∧ d.ins.dwellT = none ∧ d.wait = .run ∧ d.safetyCond = true ∧
      (s.dev.ins.locPhase = .none → d.tasks = .waitOff false :: .safe :: .groupSetup :: afterStepEnd s.dev.tasks) ∧
      (s.dev.ins.locPhase ≠ .none →
        d.tasks = .waitOff false :: .safe :: .locProbe s.dev.ins.subset :: afterStepEnd s.dev.tasks)) ∧
    (s.dev.pins.interlockOpen = true →
      exec .interlockClosing s = .next { s with
        dev := Dev.settle s.hostQ { s.dev with
          hv := { s.dev.hv with openRec := false }, pins := { s.dev.pins with interlockOpen := false } } }) ∧
    (s.dev.pins.interlockOpen = false → exec .interlockClosing s = .next s)

/-- The energized step of a group: its setup and its parts in order; at the ramp end the dwell timer starts at the dwell time
and the engine waits for its window point; a window of 10 samples for each millisecond begins at L1, a saturated one is
followed by another at the next range up to L3, any other asks for discharge and gives the value; the ramp check that ends
likewise, its value at L3, when it is saturated, and fails the order with SOURCE_FAULT when it is not. EVALUATE makes the
INSL finding without LOCATE, leaves it to LOCATE with it; after it a HALT pauses at once and an ABORT waits for OFF (DEDUCED:
log 20); the wait for OFF raises the highest arc count, or fails the order with DISCHARGE_FAULT, which leaves that count as
it is (the model's choice: log 65); the group then counts, with its verdict (DEDUCED: log 19), and after a safe point, met
with the cursor still at that group (the model's choice: log 69), the next follows, skipped or set up with its voltage and
sides, or the order ends (R122, R124, R126 to R128, R130, R131, R137, R141). A window point of 0 ms goes on at once (DEDUCED:
log 31). -/
def Obligations.RampChecksAndStepsAct : Prop :=
  (∀ (q : List (Nat × Word)) (d e : Dev), e = runTask q .groupSetup d →
    e.ins.state = .setup ∧ e.ins.step = 1 ∧ e.ins.locPhase = .none ∧ e.ins.windowed = false ∧ e.ins.ev = none ∧
    e.ins.verdict = none ∧
    e.tasks = .setup (targets d.ins.cSide d.ins.dSide .c .d) :: .rampReq :: .dwellBegin :: .windowReq .l1 :: .windowGot ::
      .waitOff true :: .stepEnd :: d.tasks) ∧
  (∀ (q : List (Nat × Word)) (d e : Dev), d.wait = .run → e = runTask q .dwellBegin d → d.ins.locPhase = .none →
    e.ins = { d.ins with state := .dwell, step := 4, dwellT := some d.ins.dwell } ∧ e.tasks = d.tasks ∧
    (d.ins.window = d.ins.dwell → e.wait = .run) ∧
    (d.ins.window < d.ins.dwell ∨ (d.ins.dwell < d.ins.window ∧ d.ins.dwell ≠ 0) → e.wait = .dwell)) ∧
  (∀ (q : List (Nat × Word)) (d e : Dev) (r : Rng), e = runTask q (.windowReq r) d → d.ins.locPhase = .none →
    e.wait = .meas ∧ e.tasks = d.tasks ∧ e.ins = { d.ins with state := .window, step := 5, windowed := true, wRng := r } ∧
    e.mu = { d.mu with
      state := .window, stim := .none, leak := r, route := .buses
      job := some ⟨.window, r, 10 * d.ins.window, 0, 0, 0, 0, false, true, (d.cfg.gH, d.cfg.gM, d.cfg.gL)⟩ } ∧
    (d.mu.zeroValid = true → e.reader = d.reader) ∧
    (d.mu.zeroValid = false →
      e.reader = { d.reader with order := d.reader.order.map fun o => { o with unzeroed := true } })) ∧
  (∀ (q : List (Nat × Word)) (d e : Dev) (v : PVal), e = runTask q .windowGot d →
    v = insulationResistance d.mu.ans.sumV d.mu.ans.sumI d.mu.ans.n d.mu.ans.sat d.ins.wRng (d.mu.zero.at d.ins.wRng) →
    (∀ r, d.mu.ans.sat = true → (d.ins.wRng = .l1 ∧ r = Rng.l2 ∨ d.ins.wRng = .l2 ∧ r = Rng.l3) →
      e = { d with ins := { d.ins with dwellT := none }, tasks := .windowReq r :: .windowGot :: d.tasks }) ∧
    (d.mu.ans.sat = false ∨ d.ins.wRng = .l3 → d.hv.state = .dwell →
      e.hv.state = .discharge ∧ e.hv.dischT = some d.cfg.dischTimeout ∧ e.hv.ask = .waiting ∧
      (d.ins.locPhase = .none → e.ins = { d.ins with dwellT := none, ev := some v } ∧ e.search = d.search ∧
        e.tasks = .evaluate :: .evalSafe :: d.tasks) ∧
      (d.ins.locPhase ≠ .none → e.ins = { d.ins with dwellT := none } ∧ e.tasks = d.tasks ∧
        e.search = { d.search with ans := if v.passes d.ins.rmin then none else some v }))) ∧
  (∀ (s : State) (diff hvv hvi : BitVec 16) (j j' : Job), s.dev.hv.state = .ramp → s.dev.hv.check = true →
    s.dev.mu.job = some j → j.kind = .rampCheck → j.n ≤ j.got + 1 →
    j' = { j with
      got := j.got + 1, sum := j.sum + hvi.toInt, sumV := j.sumV + hvv.toInt, sumI := j.sumI + hvi.toInt
      sat := j.sat || decide (hvi.toInt = 32767), allSat := j.allSat && decide (hvi.toInt = 32767) } →
    ∃ d : Dev, exec (.converterSample diff hvv hvi) s = .next { s with dev := d.settle s.hostQ } ∧ d.wait = .run ∧
      d.hv.state = .discharge ∧ d.hv.dischT = some s.dev.cfg.dischTimeout ∧ d.hv.ask = .waiting ∧ d.mu.job = none ∧
      (j'.sat = false → d.tasks = [.endAfterOff .sourceFault]) ∧
      (j'.sat = true → ∀ v, v = insulationResistance j'.sumV j'.sumI j.n true .l3 s.dev.mu.zero.l3 →
        (s.dev.ins.locPhase = .none → d.ins = { s.dev.ins with wRng := .l3, ev := some v } ∧
          d.tasks = .evaluate :: .evalSafe :: fromWaitOff s.dev.tasks) ∧
        (s.dev.ins.locPhase ≠ .none → d.ins = { s.dev.ins with wRng := .l3 } ∧ d.search.ans = some v ∧
          d.tasks = fromWaitOff s.dev.tasks))) ∧
  (∀ (q : List (Nat × Word)) (d e : Dev) (v : PVal) (pass : Bool), e = runTask q .evaluate d → d.ins.ev = some v →
    (pass = true ↔ d.ins.rmin ≤ v.r ∧ v.mark ≠ .lt) →
    e.ins.state = .evaluate ∧ e.ins.step = 6 ∧ e.ins.verdict = some pass ∧ e.ins.ev = some v ∧
    e.ins.toLocate = (!pass && d.ins.locate) ∧
    (pass = true ∨ d.ins.locate = true → e.tasks = d.tasks ∧ e.ins.firstFinding = d.ins.firstFinding) ∧
    (pass = false → d.ins.locate = false →
      e.ins.firstFinding = (if d.ins.firstFinding = 0 then d.ins.cursor else d.ins.firstFinding) ∧
      e.tasks = .finding ⟨.insl, d.ins.cursor, 0, none, some v.r, v.rng, false, false, decide (v.mark = .lt), 0, d.tag⟩ ::
        d.tasks)) ∧
  (∀ (q : List (Nat × Word)) (d : Dev),
    (∀ c, d.reader.ending = some c → runTask q .evalSafe d = { d with
      tasks := [.waitOff true, .endOrder .failed c], wait := .run }) ∧
    (d.reader.ending = none → d.reader.haltPending = true → runTask q .evalSafe d = { d with tasks := .pause :: d.tasks }) ∧
    (d.reader.ending = none → d.reader.haltPending = false → runTask q .evalSafe d = d)) ∧
  (∀ (q : List (Nat × Word)) (d e : Dev) (rec : Bool), d.wait = .run → e = runTask q (.waitOff rec) d →
    (d.hv.ask = .off → e.tasks = d.tasks ∧ e.wait = .run ∧ e.hv = { d.hv with ask := .none } ∧
      e.ins.maxArc = if rec then max d.ins.maxArc d.hv.arcs else d.ins.maxArc) ∧
    (d.hv.ask = .fault → e.tasks = [.endOrder .failed (d.reader.ending.getD .dischargeFault)] ∧
      e.ins.maxArc = d.ins.maxArc) ∧
    (d.hv.ask = .waiting → e.tasks = .waitOff rec :: d.tasks ∧ e.wait = .hvOff ∧ e.hv = d.hv)) ∧
  (∀ (q : List (Nat × Word)) (d : Dev), d.ins.locPhase = .none →
    (d.ins.toLocate = true → runTask q .stepEnd d = { d with tasks := .safe :: .locateStart :: d.tasks }) ∧
    (d.ins.toLocate = false → runTask q .stepEnd d = { d with tasks := .groupDone :: d.tasks })) ∧
  (∀ (q : List (Nat × Word)) (d e : Dev) (n : Nat), e = runTask q .groupDone d → n = (if d.ins.verdict = some true then 1 else 0) →
    e.ins = { d.ins with
      tested := d.ins.tested + 1, passed := d.ins.passed + n, failed := d.ins.failed + (1 - n) } ∧
    (d.stopOnDefect = true → d.ins.firstFinding ≠ 0 → e.tasks = .endOrder .doneDefects .doneDefects :: d.tasks) ∧
    (d.stopOnDefect = false ∨ d.ins.firstFinding = 0 → e.tasks = .safe :: .groupNext (d.ins.cursor + 1) :: d.tasks)) ∧
  ∀ (q : List (Nat × Word)) (d e : Dev) (r : Nat), e = runTask q (.groupNext r) d →
    ((∀ g ∈ d.nets.groupRoots, g < r) → e.ins = { d.ins with step := 9 } ∧
      (d.ins.firstFinding = 0 → e.tasks = .endOrder .done .done :: d.tasks) ∧
      (d.ins.firstFinding ≠ 0 → e.tasks = .endOrder .doneDefects .doneDefects :: d.tasks)) ∧
    ∀ (pre post : List Nat) (g : Nat), d.nets.groupRoots = pre ++ g :: post → (∀ x ∈ pre, x < r) → r ≤ g →
      (d.nets.skips g = true → e.ins = { d.ins with cursor := g, skipped := d.ins.skipped + 1 } ∧
        e.tasks = .groupNext (g + 1) :: d.tasks) ∧
      (d.nets.skips g = false → e.tasks = .groupSetup :: d.tasks ∧
        e.ins = { d.ins with
          cursor := g, gVolts := d.nets.groupVolts g d.ins.volts, cSide := d.nets.groupPoints g
          dSide := d.nets.dSide (d.nets.groupPoints g) d.ins.floating })

/-- LOCATE: the candidates are the D side, unmasked, the evaluation stands for the first probe, with mask rule GROUP and the
locate limit; an empty D side, or a search with no location, gives the group's own finding. A locate probe is an energized
step of the subset on bus D, with its own dwell and a window of 100 samples from the evaluation's range on; at OFF it
counts. A location gives the INSL finding with the root of the group reached, or NONE for an unassigned point, and the
truncated mark; an order that ends with SOURCE_FAULT waits for OFF and counts the probe. A finding makes the group the
first-finding group if none was (R131, R133 to R136, R139, R141). A
locate dwell of 10 ms asks for its window at once (DEDUCED: log 31); an unassigned point gives NONE also where it is
attached to a net of another group (the model's choice: log 45). -/
def Obligations.LocateActs : Prop :=
  (∀ (q : List (Nat × Word)) (d e : Dev) (v : PVal), e = runTask q .locateStart d → d.ins.ev = some v →
    e.ins = { d.ins with state := .locate, step := 7, locCount := 0 } ∧
    e.search.buf = d.ins.dSide.map (fun p => (p, false)) ∧ e.search.locCount = 0 ∧
    (d.ins.dSide = [] → e.tasks = .locateEnd :: d.tasks) ∧
    (d.ins.dSide ≠ [] → e.tasks = .searchStep :: .locateEnd :: d.tasks ∧ e.search.state = .searching ∧
      e.search.stack = [⟨0, d.ins.dSide.length, v⟩] ∧ e.search.limit = d.ins.locLimit ∧ e.search.rule = .group ∧
      e.search.side = d.ins.cSide ∧ e.search.user = .locate)) ∧
  (∀ (q : List (Nat × Word)) (d e : Dev) (entry : SEntry) (half : List Nat) (x : Task),
    d.search.user = .locate → d.search.cur = some entry →
    (e = runTask q .lowHalf d ∧ half = d.search.unmasked entry.first ((entry.count + 1) / 2) ∧ x = .lowGot ∨
      e = runTask q .highHalf d ∧ x = .highGot ∧
        half = d.search.unmasked (entry.first + (entry.count + 1) / 2) (entry.count - (entry.count + 1) / 2)) →
    (half = [] → e = { d with search := { d.search with ans := none }, tasks := x :: d.tasks }) ∧
    (half ≠ [] → e = { d with tasks := .locProbe half :: x :: d.tasks })) ∧
  (∀ (s : Search) (first n : Nat), s.unmasked first n = (((s.buf.drop first).take n).filter fun e => !e.2).map (·.1)) ∧
  (∀ (q : List (Nat × Word)) (d e : Dev) (pts : List Nat) (v : PVal), e = runTask q (.locProbe pts) d → d.ins.ev = some v →
    e.ins = { d.ins with locPhase := .setup, subset := pts, windowed := false } ∧
    e.tasks = .setup (targets d.ins.cSide pts .c .d) :: .rampReq :: .dwellBegin :: .windowReq v.rng :: .windowGot ::
      .waitOff true :: .stepEnd :: d.tasks) ∧
  (∀ (q : List (Nat × Word)) (d e : Dev), d.ins.locPhase ≠ .none →
    (e = runTask q .dwellBegin d → d.wait = .run → e.ins.dwellT = some d.ins.locDwell ∧ e.ins.locPhase = .dwell ∧
      (10 < d.ins.locDwell → e.wait = .dwell) ∧ (d.ins.locDwell ≤ 10 → e.wait = .run)) ∧
    (∀ r, e = runTask q (.windowReq r) d → e.wait = .meas ∧ e.mu.leak = r ∧
      ∃ j, e.mu.job = some j ∧ j.kind = .window ∧ j.rng = r ∧ j.n = 100 ∧ j.got = 0) ∧
    (e = runTask q .stepEnd d → e = { d with ins := { d.ins with probes := d.ins.probes + 1, locPhase := .none } })) ∧
  (∀ (q : List (Nat × Word)) (d e : Dev) (i x m : Nat) (v : PVal) (trunc last : Bool), d.search.user = .locate →
    x = (d.search.buf.getD i (0, true)).1 → m = (d.nets.pt x).net → e = runTask q (.location i v trunc last) d →
    e.ins.locCount = d.ins.locCount + 1 ∧ e.ins.truncated = d.ins.truncated + (if trunc then 1 else 0) ∧
    e.ins.firstFinding = (if d.ins.firstFinding = 0 then d.ins.cursor else d.ins.firstFinding) ∧
    e.tasks = .finding ⟨.insl, d.ins.cursor, if m = 0 then 0 else d.nets.root m, some x, some v.r, v.rng, false, trunc,
      decide (v.mark = .lt), 0, d.tag⟩ :: .located i last :: d.tasks) ∧
  (∀ (q : List (Nat × Word)) (d e : Dev) (v : PVal), e = runTask q .locateEnd d → d.ins.ev = some v →
    (d.ins.locCount ≠ 0 → e = { d with tasks := .groupDone :: d.tasks }) ∧
    (d.ins.locCount = 0 → e.ins = { d.ins with
        firstFinding := if d.ins.firstFinding = 0 then d.ins.cursor else d.ins.firstFinding } ∧ e.tasks =
      .finding ⟨.insl, d.ins.cursor, 0, none, some v.r, v.rng, false, false, decide (v.mark = .lt), 0, d.tag⟩ ::
        .groupDone :: d.tasks)) ∧
  ∀ (q : List (Nat × Word)) (d : Dev) (c : Code),
    runTask q (.endAfterOff c) d = { d with
      tasks := .waitOff true :: (if d.ins.locPhase = .none then [] else [.stepEnd]) ++ [.endOrder .failed c], wait := .run }

/-! ## Net tables, search, sweep, defect table (chapters 3, 4, 5 and 8) -/

/-- The netlist's validation, step by step, each check in its order with its code, the net where the walk stood and the
member that failed: the tables as it begins; the header; a record's bounds, count and length, and the reads of its parts
before they are judged (the model's choice: log 52); its range and limits, clamped, and its table entry; each member,
loaded if it is fitted and not yet met; after the last record the compensation array, each value clamped to 9999, read in
bursts of four words, each handled before the next (DEDUCED: log 27), and the tables valid. The CLOSE of a LEARN: the same
array, then every net its own root, both flags set and the order DONE (R47 to R54, R62, R100, R206). The premise on the
tables is their form. -/
def Obligations.NetlistIsValidated : Prop :=
  (∀ (q : List (Nat × Word)) (d e : Dev) (off : Nat), off = d.sweep.netlistOff → e = runTask q .valBegin d →
    e.nets.tablesValid = false ∧ e.nets.mapValid = false ∧ e.nets.members = [] ∧
    (∀ p, e.nets.pt p = ⟨0, .untested, 0⟩) ∧ (∀ n, e.nets.root n = n) ∧
    (∀ p, p < 4096 → e.nets.isFitted p = d.mx.present (p / 128)) ∧
    (off % 4 ≠ 0 ∨ d.memEnd ≤ off →
      e.tasks = [.endOrder .refused .netlistBounds] ∧ e.sweep.refNet = 0 ∧ e.sweep.refPoint = none) ∧
    (off % 4 = 0 → off < d.memEnd → e.tasks = .read off 1 :: .valHead :: d.tasks)) ∧
  (∀ (q : List (Nat × Word)) (d : Dev) (f : Code → Nat → Option Nat → Dev), (∀ c n p, f c n p = { d with
      sweep := { d.sweep with refNet := n, refPoint := p }, rbuf := [], tasks := [.endOrder .refused c], wait := .run }) →
    (∀ w off, d.rbuf = [w] → off = d.sweep.netlistOff →
      (lo w = 0 ∨ 2048 < lo w → runTask q .valHead d = f .netlistSize 0 none) ∧
      (1 ≤ lo w → lo w ≤ 2048 → d.memEnd < off + 4 * hi w → runTask q .valHead d = f .netlistBounds 0 none) ∧
      (1 ≤ lo w → lo w ≤ 2048 → off + 4 * hi w ≤ d.memEnd →
        runTask q .valHead d = { d with
          nets := { d.nets with count := lo w }, sweep := { d.sweep with netEnd := off + 4 * hi w }, rbuf := []
          tasks := .valNet 1 (off + 4) :: d.tasks })) ∧
    (∀ n off,
      (d.nets.count < n → runTask q (.valNet n off) d = { d with tasks := .compBlock 0 :: d.tasks }) ∧
      (n ≤ d.nets.count → d.sweep.netEnd ≤ off → runTask q (.valNet n off) d = f .netlistBounds n none) ∧
      (n ≤ d.nets.count → off < d.sweep.netEnd → runTask q (.valNet n off) d = { d with
        rbuf := [], tasks := .read off 1 :: .valRecord n off :: d.tasks })) ∧
    (∀ (n off k len lim rng hv : Nat) (h : Word), d.rbuf = [h] → k = lo h →
      len = 1 + opt (bitAt h 16) 4 + opt (bitAt h 17) 2 + opt (bitAt h 18) 1 + opt (bitAt h 19) 1 + (k + 1) / 2 →
      lim = off + 4 + 4 * opt (bitAt h 16) 4 → rng = lim + 4 * opt (bitAt h 17) 2 → hv = rng + 4 * opt (bitAt h 18) 1 →
      (k = 0 → runTask q (.valRecord n off) d = f .netEmpty n none) ∧
      (256 < k → runTask q (.valRecord n off) d = f .netTooLarge n none) ∧
      (1 ≤ k → k ≤ 256 → d.sweep.netEnd < off + 4 * len → runTask q (.valRecord n off) d = f .netlistBounds n none) ∧
      (1 ≤ k → k ≤ 256 → off + 4 * len ≤ d.sweep.netEnd → runTask q (.valRecord n off) d = { d with
        rbuf := []
        tasks := (if bitAt h 17 then [.read lim 1, .read (lim + 4) 1] else []) ++
          (if bitAt h 18 then [.read rng 1] else []) ++ (if bitAt h 19 then [.read hv 1] else []) ++
          .valParts n off h :: d.tasks })) ∧
    (∀ (n at' left next : Nat),
      (left = 0 → runTask q (.valMembers n at' left next) d = { d with tasks := .valNet (n + 1) next :: d.tasks }) ∧
      (left ≠ 0 → runTask q (.valMembers n at' left next) d = { d with
        rbuf := [], tasks := .read at' 1 :: .valMemberGot n at' left next :: d.tasks })) ∧
    (∀ (n at' left next p r : Nat) (w : Word) (e : Dev) (t : Nets), d.rbuf = [w] → p = lo w → r = hi w →
      e = runTask q (.valMemberGot n at' left next) d →
      t = { d.nets with
        points := Tab.set Pt.free d.nets.points p ⟨n, .untested, (d.nets.pt p).att⟩, members := d.nets.members ++ [p] } →
      (d.nets.isFitted p = false → e = f .pointUnfitted n (some p)) ∧
      (d.nets.isFitted p = true → (d.nets.pt p).net ≠ 0 → e = f .pointDuplicate n (some p)) ∧
      (d.nets.isFitted p = true → (d.nets.pt p).net = 0 →
        (left = 1 → e = { d with nets := t, rbuf := [], tasks := .valNet (n + 1) next :: d.tasks }) ∧
        (left ≠ 1 → t.isFitted r = false → e = { f .pointUnfitted n (some r) with nets := t }) ∧
        (left ≠ 1 → t.isFitted r = true → (t.pt r).net ≠ 0 → e = { f .pointDuplicate n (some r) with nets := t }) ∧
        (left ≠ 1 → t.isFitted r = true → (t.pt r).net = 0 → e = { d with
          nets := { t with
            points := Tab.set Pt.free t.points r ⟨n, .untested, (t.pt r).att⟩, members := t.members ++ [r] }
          rbuf := [], tasks := .valMembers n (at' + 4) (left - 2) next :: d.tasks })))) ∧
  (∀ (q : List (Nat × Word)) (d e : Dev) (n off a b v : Nat) (h r : Word) (clamp : Bool), e = runTask q (.valParts n off h) d →
    Tab.canonFrom Net.none 0 d.nets.table = true →
    (bitAt h 17 = true → a = (d.rbuf.getD 0 0).toNat ∧ b = (d.rbuf.getD 1 0).toNat) →
    r = d.rbuf.getD (opt (bitAt h 17) 2) 0 → v = (d.rbuf.getD (opt (bitAt h 17) 2 + opt (bitAt h 18) 1) 0).toNat →
    (bitAt h 18 = true → r ≠ 1 → r ≠ 2 → r ≠ 3 →
      e.tasks = [.endOrder .refused .badParameter] ∧ e.sweep.refNet = n ∧ e.sweep.refPoint = none ∧ e.nets = d.nets) ∧
    ((bitAt h 18 = true → r = 1 ∨ r = 2 ∨ r = 3) → bitAt h 17 = true → max 2 (min 2000000 b) ≤ max 1 (min 2000000 a) →
      e.tasks = [.endOrder .refused .limitOrder] ∧ e.sweep.refNet = n ∧ e.sweep.refPoint = none ∧ e.nets = d.nets ∧
      ((clamp = true ↔ a < 1 ∨ 2000000 < a ∨ b < 2 ∨ 2000000 < b) →
        e.reader.order = d.reader.order.map fun o => { o with clamped := o.clamped || clamp })) ∧
    ((bitAt h 18 = true → r = 1 ∨ r = 2 ∨ r = 3) →
      (bitAt h 17 = true → max 1 (min 2000000 a) < max 2 (min 2000000 b)) →
      e.tasks = .valMembers n
        (off + 4 * (1 + opt (bitAt h 16) 4 + opt (bitAt h 17) 2 + opt (bitAt h 18) 1 + opt (bitAt h 19) 1)) (lo h)
        (off + 4 * (1 + opt (bitAt h 16) 4 + opt (bitAt h 17) 2 + opt (bitAt h 18) 1 + opt (bitAt h 19) 1 + (lo h + 1) / 2)) ::
          d.tasks ∧
      e.nets.net n =
        { start := d.nets.members.length
          count := lo h
          limits := if bitAt h 17 then some (max 1 (min 2000000 a), max 2 (min 2000000 b)) else none
          rng := if bitAt h 18 then (if r = 1 then .h else if r = 2 then .m else .l) else .none
          hv := if bitAt h 19 then some (max 50 (min 1500 v)) else none
          noInsulate := bitAt h 20
          name := if bitAt h 16 then some (off + 4) else none } ∧
      (∀ m, m ≠ n → e.nets.net m = d.nets.net m) ∧
      ((clamp = true ↔ (bitAt h 17 = true ∧ (a < 1 ∨ 2000000 < a ∨ b < 2 ∨ 2000000 < b)) ∨
          (bitAt h 19 = true ∧ (v < 50 ∨ 1500 < v))) →
        e.reader.order = d.reader.order.map fun o => { o with clamped := o.clamped || clamp }))) ∧
  ∀ (q : List (Nat × Word)) (d : Dev) (b : Bind) (i : Nat) (done : Task), d.reader.bind = some b →
    (d.kind = some .sweep ∧ done = .valDone ∨ d.kind = some .learn ∧ done = .learnDone) →
    runTask q .learnClose d = { d with
      sweep := { d.sweep with state := .close, stage := 4 }, tasks := .compBlock 0 :: d.tasks } ∧
    (b.compOff = 0 → runTask q (.compBlock i) d = { d with nets := { d.nets with comp := [] }, tasks := done :: d.tasks }) ∧
    (b.compOff ≠ 0 → runTask q (.compBlock i) d = { d with
      rbuf := [], tasks := .read (b.compOff + 16 * i) 4 :: .compGot i :: d.tasks }) ∧
    (∀ (ws : List Word) (e : Dev), d.rbuf = ws → ws.length = 4 → Tab.canonFrom 0 0 d.nets.comp = true →
      e = runTask q (.compGot i) d →
      (∀ k, k < 8 → e.nets.compAt (8 * i + k) =
        min (if k % 2 = 0 then lo (ws.getD (k / 2) 0) else hi (ws.getD (k / 2) 0)) 9999) ∧
      (∀ p, p < 8 * i ∨ 8 * i + 8 ≤ p → e.nets.compAt p = d.nets.compAt p) ∧
      e.tasks = (if i < 511 then .compBlock (i + 1) else done) :: d.tasks ∧
      e.reader.order = d.reader.order.map fun o =>
        { o with clamped := o.clamped || ws.any fun w => decide (9999 < lo w ∨ 9999 < hi w) }) ∧
    runTask q .valDone d = { d with
      nets := { d.nets with tablesValid := true }, tasks := .safe :: .netBegin 1 :: d.tasks } ∧
    ∃ t : Nets, runTask q .learnDone d = { d with nets := t, tasks := .endOrder .done .done :: d.tasks } ∧
      (∀ n, t.root n = n) ∧ t = { d.nets with roots := t.roots, tablesValid := true, mapValid := true }

/-- A union rewrites every entry whose root is the higher root to the lower one and no other, and keeps the map's form: the
root of a group is its lowest net and names itself; an attach names the net where none is named, changes nothing within the
group, and otherwise is a union that keeps the attached net; a connection with a member point is a union with its net (R58,
R59). The premise is the map's form, which every net table starts with. -/
def Obligations.GroupMapKeepsLowestRoots : Prop :=
  Nets.MapOk Nets.reset ∧
  (∀ (t : Nets) (n m : Nat), t.MapOk → 1 ≤ n → 1 ≤ m → (t.union n m).MapOk ∧
    (∀ x, 1 ≤ x → (t.union n m).root x =
      if t.root x = max (t.root n) (t.root m) then min (t.root n) (t.root m) else t.root x) ∧
    t.union n m = { t with roots := (t.union n m).roots }) ∧
  (∀ (t : Nets) (q n : Nat), Tab.canonFrom Pt.free 0 t.points = true →
    ((t.pt q).att = 0 → (t.attach q n).pt q = { t.pt q with att := n } ∧ (t.attach q n).roots = t.roots) ∧
    ((t.pt q).att ≠ 0 → t.root (t.pt q).att = t.root n → t.attach q n = t) ∧
    ((t.pt q).att ≠ 0 → t.root (t.pt q).att ≠ t.root n →
      t.attach q n = t.union n (t.pt q).att ∧ ((t.attach q n).pt q).att = (t.pt q).att)) ∧
  ∀ (t : Nets) (q n : Nat), t.connect n q = if (t.pt q).net = 0 then t.attach q n else t.union n (t.pt q).net

/-- The groups, lowest root first, each with its nets in ascending order and its points: the members net by net, then the
unassigned points attached to one of its nets, ascending (R61). Of a group with a no-insulate net every point floats; the
group voltage is the smallest of V and the nets' overrides; the D side is every fitted point that is neither in the group nor
floating, ascending (R122). The premises are the point table's form. -/
def Obligations.GroupsAreListed : Prop :=
  ∀ t : Nets, Tab.canonFrom Pt.free 0 t.points = true →
    (∀ g, g ∈ t.groupRoots ↔ 1 ≤ g ∧ g ≤ t.count ∧ t.root g = g) ∧ t.groupRoots.Pairwise (· < ·) ∧
    (∀ r n, n ∈ t.groupNets r ↔ 1 ≤ n ∧ n ≤ t.count ∧ t.root n = r) ∧ (∀ r, (t.groupNets r).Pairwise (· < ·)) ∧
    (∀ n, t.membersOf n = (t.members.drop (t.net n).start).take (t.net n).count) ∧
    (∀ r, ∃ att : List Nat, t.groupPoints r = (t.groupNets r).flatMap t.membersOf ++ att ∧ att.Pairwise (· < ·) ∧
      ∀ p, p ∈ att ↔ (t.pt p).net = 0 ∧ (t.pt p).att ≠ 0 ∧ t.root (t.pt p).att = r) ∧
    (∀ r, t.skips r = true ↔ ∃ n ∈ t.groupNets r, (t.net n).noInsulate = true) ∧
    t.floating = (t.groupRoots.filter t.skips).flatMap t.groupPoints ∧
    (∀ r v, t.groupVolts r v ≤ v ∧ (∀ n ∈ t.groupNets r, ∀ h, (t.net n).hv = some h → t.groupVolts r v ≤ h) ∧
      (t.groupVolts r v = v ∨ ∃ n ∈ t.groupNets r, (t.net n).hv = some (t.groupVolts r v))) ∧
    (∀ (c f : List Nat) (p : Nat), p ∈ t.dSide c f ↔ t.isFitted p = true ∧ p ∉ c ∧ p ∉ f) ∧
    (∀ c f : List Nat, (t.dSide c f).Pairwise (· < ·)) ∧
    ∀ (q : List (Nat × Word)) (d : Dev), d.nets = t →
      runTask q .insInit d = { d with ins := { d.ins with floating := t.floating }, tasks := .groupNext 1 :: d.tasks }

/-- A step of the split search pops the top entry: a masked single is discarded, an unmasked one is a location with the
truncated mark when it is the last by the limit and entries remain; a longer range is split, the lower half of ceil(c/2)
first, its range held until both halves are judged. A half with no unmasked point is not connected and not probed; for the
sweep engine any other is probed with its unmasked points on bus B, which counts one probe (LOCATE's probes are LocateActs).
When both halves are judged the upper is pushed if connected and then the lower. A location sets, beside the marks that
stand, the mask mark of every candidate that the rule names: NET those of its net, POINT it alone, GROUP those of its net's
group, attached points among them; an unassigned one itself alone, attached or not (the model's choice where it is attached:
log 45). The last one, or an empty stack, ends the search; any other goes on to the next step (R61, R83 to R85). -/
def Obligations.SearchSplitsAndLocates : Prop :=
  ∀ (q : List (Nat × Word)) (d : Dev),
    (∀ e rest, d.search.stack = e :: rest →
      (1 < e.count → (runTask q .searchStep d).tasks = .lowHalf :: d.tasks ∧
        (runTask q .searchStep d).search = { d.search with stack := rest, cur := some e }) ∧
      (e.count ≤ 1 → (d.search.buf.getD e.first (0, true)).2 = true →
        (runTask q .searchStep d).tasks = .searchStep :: d.tasks ∧
        (runTask q .searchStep d).search = { d.search with stack := rest }) ∧
      (e.count ≤ 1 → (d.search.buf.getD e.first (0, true)).2 = false → ∀ last : Bool,
        (last = true ↔ d.search.limit ≠ 0 ∧ d.search.limit ≤ d.search.locCount + 1) →
        (runTask q .searchStep d).search = { d.search with stack := rest, locCount := d.search.locCount + 1 } ∧
        (runTask q .searchStep d).tasks =
          .location e.first e.val (last && decide (rest ≠ [])) last :: d.tasks)) ∧
    (d.search.stack = [] → runTask q .searchStep d = { d with search := { d.search with state := .idle } }) ∧
    (∀ (e : SEntry) (t : Dev) (first count : Nat) (half : List Nat) (x : Task), d.search.cur = some e →
      (t = runTask q .lowHalf d ∧ first = e.first ∧ count = (e.count + 1) / 2 ∧ x = .lowGot ∨
        t = runTask q .highHalf d ∧ first = e.first + (e.count + 1) / 2 ∧ count = e.count - (e.count + 1) / 2 ∧
          x = .highGot) →
      half = (((d.search.buf.drop first).take count).filter fun y => !y.2).map (·.1) →
      (half = [] → t = { d with search := { d.search with ans := none }, tasks := x :: d.tasks }) ∧
      (half ≠ [] → d.search.user = .whereis ∨ d.search.user = .isolate → t = { d with
        tasks := .setup (targets d.search.side half .a .b) :: .probe d.sweep.n d.sweep.t :: .probeGot :: x :: d.tasks }) ∧
      (half ≠ [] → d.search.user = .learn → t = { d with
        tasks := .setup (targets d.search.side half .a .b) :: .probe d.learn.n d.learn.t :: .probeGot :: x :: d.tasks })) ∧
    (runTask q .lowGot d = { d with
      search := { d.search with low := d.search.ans }, tasks := .safe :: .highHalf :: d.tasks }) ∧
    (∀ s : Search, s = { d.search with
        ans := if d.mu.ans.connected = true then some ⟨d.mu.ans.r.getD 0, .none, .l⟩ else none } →
      (d.kind = some .sweep → runTask q .probeGot d = { d with
        sweep := { d.sweep with probes := d.sweep.probes + 1 }, search := s }) ∧
      (d.kind = some .learn → runTask q .probeGot d = { d with
        learn := { d.learn with probes := d.learn.probes + 1 }, search := s })) ∧
    (∀ e, d.search.cur = some e → ∃ s : Search, (runTask q .highGot d).search = s ∧ s.cur = none ∧ s.buf = d.search.buf ∧
      s.stack = (match d.search.low with | some v => [⟨e.first, (e.count + 1) / 2, v⟩] | none => []) ++
        (match d.search.ans with
         | some v => [⟨e.first + (e.count + 1) / 2, e.count - (e.count + 1) / 2, v⟩]
         | none => []) ++ d.search.stack ∧
      (s.stack = [] → s.state = .idle ∧ (runTask q .highGot d).tasks = d.tasks) ∧
      (s.stack ≠ [] → s.state = d.search.state ∧ (runTask q .highGot d).tasks = .safe :: .searchStep :: d.tasks)) ∧
    (∀ (i : Nat) (last : Bool) (e : Dev) (buf : List (Nat × Bool)), e = runTask q (.located i last) d →
      buf = d.search.buf.map (fun y =>
        (y.1, y.2 || masks d.search.rule d.nets (d.search.buf.getD i (0, true)).1 y.1)) →
      (last = true ∨ d.search.stack = [] →
        e.search = { d.search with buf := buf, stack := [], state := .idle } ∧ e.tasks = d.tasks) ∧
      (last = false → d.search.stack ≠ [] →
        e = { d with search := { d.search with buf := buf }, tasks := .safe :: .searchStep :: d.tasks })) ∧
    ∀ (t : Nets) (p x : Nat),
      masks .point t p x = decide (x = p) ∧
      (masks .net t p x = true ↔ x = p ∨ ((t.pt p).net ≠ 0 ∧ (t.pt x).net = (t.pt p).net)) ∧
      (masks .group t p x = true ↔ x = p ∨ ((t.pt p).net ≠ 0 ∧
        (((t.pt x).net ≠ 0 ∧ t.root (t.pt x).net = t.root (t.pt p).net) ∨
          ((t.pt x).net = 0 ∧ (t.pt x).att ≠ 0 ∧ t.root (t.pt x).att = t.root (t.pt p).net))))

/-- What the sweep engine asks and does with its answers. A member check from p0 to the member, by the net's own limits if
its record has them, else the order's if it gives them, else the configured ones: PASS and HIGH_RES make the member GOOD and
set the reference mark, HIGH_RES with a finding, OPEN leaves the mark and keeps value and range. After the last member p0 is
GOOD with the mark set or alone, else OPEN. WHEREIS of an OPEN member: every fitted point outside the net is a candidate;
with none, or a first probe not connected, the plain OPEN finding; else a search, in which a location counts in the tally and
is connected to the net; at its end one net and no point is a MISW, anything else an OPEN with STRAY. ISOLATE: the GOOD
members against the points of higher nets and the free ones; with either empty, or not connected, the net is isolated; else a
search up to the shorts limit, in which a location is a SHRT or an XTRA, handed over before the union or attach. A finding
makes the net the first-finding net if none was. A stop in a stage's last check or probe is seen before the stage changes
(the model's choice: log 39). The sweep goes on to the next net, stops at the first net with a finding under STOP_ON_DEFECT,
and closes with the map valid. LEARN takes each free fitted point against the free points above it: found alone, it is a
single, a net of its own with KEEP_SINGLES; connected, it is searched, a location is kept up to 256 points, and a search with
none is unresolved; the cursor stays until the next point is taken (the model's choice: log 40). A net that has a number and
fits is written before its header, which brings the words used past it, then loaded, and counts then, an oversize net and a
kept single with it (DEDUCED: log 26). The premises are the tables' form (R37, R62, R70 to R80, R95 to R99). -/
def Obligations.SweepAndLearnActOnAnswers : Prop :=
  ∀ (q : List (Nat × Word)) (d : Dev) (n : Nat), d.sweep.cursor = n → Tab.canonFrom Pt.free 0 d.nets.points = true →
    (∀ m, runTask q (.netBegin m) d = { d with
      sweep := { d.sweep with cursor := m, state := .member, stage := 1, member := 1, refMark := false, openVal := [] }
      tasks := .member 1 :: d.tasks }) ∧
    (∀ (i p0 : Nat) (e : Dev), p0 = d.curMembers.headD 0 → e = runTask q (.member i) d →
      (∀ (p : Nat) (r : Rng), d.curMembers[i]? = some p →
        r = (if (d.nets.net n).rng ≠ .none then (d.nets.net n).rng else if d.sweep.rng ≠ .none then d.sweep.rng else .h) →
        e = { d with
          sweep := { d.sweep with member := i }
          tasks := .setup (targets [p0] [p] .a .b) ::
            .twoPoint r true d.sweep.n (d.nets.compAt p0) (d.nets.compAt p) :: .memberGot i :: .safe :: .member (i + 1) ::
              d.tasks }) ∧
      (d.curMembers[i]? = none →
        e.sweep = { d.sweep with state := .whereis, stage := 2, member := 1 } ∧ e.tasks = .whereis 1 :: d.tasks ∧
        (d.sweep.refMark = true ∨ d.curMembers.length ≤ 1 → e.nets.pt p0 = { d.nets.pt p0 with st := .good }) ∧
        (d.sweep.refMark = false → 1 < d.curMembers.length → e.nets.pt p0 = { d.nets.pt p0 with st := .opn }) ∧
        ∀ x, x ≠ p0 → e.nets.pt x = d.nets.pt x)) ∧
    (∀ (i p : Nat) (e : Dev) (l : Nat × Nat), d.curMembers[i]? = some p → e = runTask q (.memberGot i) d →
      ((d.nets.net n).limits = some l ∨
        ((d.nets.net n).limits = none ∧ d.sweep.pLim = some l.1 ∧ d.sweep.oLim = some l.2) ∨
        ((d.nets.net n).limits = none ∧ d.sweep.pLim = none ∧ d.sweep.oLim = none ∧ l = (d.sweep.cfgP, d.sweep.cfgO))) →
      (classify l.1 l.2 d.mu.ans.r = .pass →
        e.nets.pt p = { d.nets.pt p with st := .good } ∧ e.sweep = { d.sweep with refMark := true } ∧ e.tasks = d.tasks) ∧
      (classify l.1 l.2 d.mu.ans.r = .highRes →
        e.nets.pt p = { d.nets.pt p with st := .good } ∧ e.sweep.refMark = true ∧
        e.sweep.firstFinding = (if d.sweep.firstFinding = 0 then n else d.sweep.firstFinding) ∧
        e.tasks = .finding ⟨.hres, n, 0, some p, d.mu.ans.r, d.mu.ans.rng, false, false, false, 0, d.tag⟩ :: d.tasks) ∧
      (classify l.1 l.2 d.mu.ans.r = .opn →
        e.nets.pt p = { d.nets.pt p with st := .opn } ∧ e.tasks = d.tasks ∧ e.sweep = { d.sweep with
          openVal := Tab.set (none, .none) d.sweep.openVal p (d.mu.ans.r, d.mu.ans.rng) })) ∧
    (∀ (i : Nat) (e : Dev), e = runTask q (.whereis i) d →
      (d.curMembers[i]? = none →
        e = { d with sweep := { d.sweep with state := .isolate, stage := 3 }, tasks := .isolate :: d.tasks }) ∧
      ∀ p, d.curMembers[i]? = some p →
        ((d.nets.pt p).st ≠ .opn →
          e = { d with sweep := { d.sweep with member := i }, tasks := .whereis (i + 1) :: d.tasks }) ∧
        ((d.nets.pt p).st = .opn → ∃ cands : List Nat, cands.Pairwise (· < ·) ∧
          (∀ x, x ∈ cands ↔ d.nets.isFitted x = true ∧ (d.nets.pt x).net ≠ n) ∧
          e.search = { d.search with buf := cands.map fun x => (x, false), locCount := 0 } ∧
          e.sweep.tallyNets = 0 ∧ e.sweep.tallyFirst = 0 ∧ e.sweep.tallyPoints = 0 ∧ e.sweep.probes = d.sweep.probes ∧
          (cands = [] → e.sweep.firstFinding = (if d.sweep.firstFinding = 0 then n else d.sweep.firstFinding) ∧
            ∀ v, v = Tab.get (none, .none) d.sweep.openVal p → e.tasks =
              .finding ⟨.opn, n, 0, some p, v.1, v.2, false, false, false, 0, d.tag⟩ :: .safe :: .whereis (i + 1) :: d.tasks) ∧
          (cands ≠ [] → e.sweep.firstFinding = d.sweep.firstFinding ∧ e.tasks =
            .setup (targets [p] cands .a .b) :: .probe d.sweep.n d.sweep.t :: .whereisGot i :: .safe :: .whereis (i + 1) ::
              d.tasks))) ∧
    (∀ (i p : Nat) (e : Dev), d.curMembers[i]? = some p → d.kind = some .sweep → e = runTask q (.whereisGot i) d →
      (d.mu.ans.connected = false → e.nets = d.nets ∧ e.search = d.search ∧
        e.sweep = { d.sweep with
          probes := d.sweep.probes + 1, firstFinding := if d.sweep.firstFinding = 0 then n else d.sweep.firstFinding } ∧
        ∀ v, v = Tab.get (none, .none) d.sweep.openVal p →
          e.tasks = .finding ⟨.opn, n, 0, some p, v.1, v.2, false, false, false, 0, d.tag⟩ :: d.tasks) ∧
      (∀ v, d.mu.ans.connected = true → v = ⟨d.mu.ans.r.getD 0, .none, .l⟩ → e = { d with
        sweep := { d.sweep with probes := d.sweep.probes + 1 }
        search := { d.search with
          state := .searching, stack := [⟨0, d.search.buf.length, v⟩], cur := none, low := none
          locCount := 0, limit := 0, rule := .net, side := [p], user := .whereis }
        tasks := .safe :: .searchStep :: .whereisEnd i :: d.tasks })) ∧
    (∀ (i p : Nat) (e : Dev), d.curMembers[i]? = some p → e = runTask q (.whereisEnd i) d →
      e.sweep.firstFinding = (if d.sweep.firstFinding = 0 then n else d.sweep.firstFinding) ∧
      (d.sweep.tallyNets = 1 ∧ d.sweep.tallyPoints = 0 →
        e.nets.pt p = { d.nets.pt p with st := .miswired } ∧
        e.tasks = .finding ⟨.misw, n, 0, some p, some d.sweep.tallyVal, .l, false, false, false, d.sweep.tallyFirst, d.tag⟩ ::
          d.tasks) ∧
      (¬(d.sweep.tallyNets = 1 ∧ d.sweep.tallyPoints = 0) →
        e.nets.pt p = { d.nets.pt p with st := .stray } ∧
        ∀ v, v = Tab.get (none, .none) d.sweep.openVal p → e.tasks = .finding ⟨.opn, n, 0, some p, v.1, v.2, true, false, false,
          d.sweep.tallyNets + d.sweep.tallyPoints, d.tag⟩ :: d.tasks)) ∧
    (∀ (e : Dev) (good : List Nat), good = d.curMembers.filter (fun p => decide ((d.nets.pt p).st = .good)) →
      (e = runTask q .isolate d → ∃ cands : List Nat, cands.Pairwise (· < ·) ∧
        (∀ x, x ∈ cands ↔ d.nets.isFitted x = true ∧
          (n < (d.nets.pt x).net ∨ ((d.nets.pt x).net = 0 ∧ (d.nets.pt x).att = 0))) ∧
        (good = [] ∨ cands = [] → e = { d with tasks := .netDone :: d.tasks }) ∧
        (good ≠ [] → cands ≠ [] → e = { d with
          search := { d.search with buf := cands.map fun x => (x, false), locCount := 0 }
          tasks := .setup (targets good cands .a .b) :: .probe d.sweep.n d.sweep.t :: .isolateGot :: .safe :: .netDone ::
            d.tasks })) ∧
      (d.kind = some .sweep → e = runTask q .isolateGot d →
        (d.mu.ans.connected = false → e = { d with sweep := { d.sweep with probes := d.sweep.probes + 1 } }) ∧
        (∀ v, d.mu.ans.connected = true → v = ⟨d.mu.ans.r.getD 0, .none, .l⟩ → e = { d with
          sweep := { d.sweep with probes := d.sweep.probes + 1 }
          search := { d.search with
            state := .searching, stack := [⟨0, d.search.buf.length, v⟩], cur := none, low := none
            locCount := 0, limit := d.sweep.shorts, rule := .net, side := good, user := .isolate }
          tasks := .safe :: .searchStep :: d.tasks }))) ∧
    (∀ (i x m : Nat) (v : PVal) (trunc last : Bool) (e : Dev), x = (d.search.buf.getD i (0, true)).1 → m = (d.nets.pt x).net →
      e = runTask q (.location i v trunc last) d →
      (d.search.user = .whereis → e.nets = d.nets.connect n x ∧ e.tasks = .located i last :: d.tasks ∧
        (m = 0 → e.sweep = { d.sweep with tallyPoints := d.sweep.tallyPoints + 1 }) ∧
        (m ≠ 0 → e.sweep.tallyNets = d.sweep.tallyNets + 1 ∧ e.sweep.tallyPoints = d.sweep.tallyPoints ∧
          (d.sweep.tallyNets = 0 → e.sweep.tallyFirst = m ∧ e.sweep.tallyVal = v.r) ∧
          (d.sweep.tallyNets ≠ 0 → e.sweep.tallyFirst = d.sweep.tallyFirst ∧ e.sweep.tallyVal = d.sweep.tallyVal))) ∧
      (d.search.user = .isolate →
        (m = 0 → e.tasks = .finding ⟨.xtra, n, 0, some x, some v.r, .l, false, trunc, false, 0, d.tag⟩ :: .join n x ::
          .located i last :: d.tasks) ∧
        (m ≠ 0 → e.tasks = .finding ⟨.shrt, min n m, max n m, some x, some v.r, .l, false, trunc, false, 0, d.tag⟩ ::
          .join n x :: .located i last :: d.tasks) ∧
        (runTask q (.join n x) d).nets = d.nets.connect n x ∧
        e.sweep = { d.sweep with
          truncated := d.sweep.truncated + if trunc then 1 else 0
          firstFinding := if d.sweep.firstFinding = 0 then n else d.sweep.firstFinding }) ∧
      (d.search.user = .learn → e.tasks = .located i last :: d.tasks ∧
        (d.learn.kept.length < 256 → e.learn = { d.learn with kept := d.learn.kept ++ [x] }) ∧
        (256 ≤ d.learn.kept.length → e.learn = { d.learn with surplus := d.learn.surplus + 1 }))) ∧
    (∀ e : Dev, e = runTask q .netDone d → e.sweep = { d.sweep with tested := d.sweep.tested + 1 } ∧
      (d.nets.count ≤ n → e.tasks = .sweepClose :: d.tasks) ∧
      (n < d.nets.count → d.stopOnDefect = true → d.sweep.firstFinding ≠ 0 →
        e.tasks = .endOrder .doneDefects .doneDefects :: d.tasks) ∧
      (n < d.nets.count → (d.stopOnDefect = false ∨ d.sweep.firstFinding = 0) → e.tasks = .netBegin (n + 1) :: d.tasks)) ∧
    (∀ e : Dev, e = runTask q .sweepClose d → e.nets = { d.nets with mapValid := true } ∧ e.sweep.stage = 4 ∧
      (d.sweep.firstFinding = 0 → e.tasks = .endOrder .done .done :: d.tasks) ∧
      (d.sweep.firstFinding ≠ 0 → e.tasks = .endOrder .doneDefects .doneDefects :: d.tasks)) ∧
    (∀ (p : Nat) (e : Dev), e = runTask q (.learnFrom p) d →
      ((∀ x, p ≤ x → d.nets.isFitted x = true → (d.nets.pt x).net ≠ 0) → e = { d with tasks := .learnClose :: d.tasks }) ∧
      ∀ x, p ≤ x → d.nets.isFitted x = true → (d.nets.pt x).net = 0 →
        (∀ y, p ≤ y → y < x → d.nets.isFitted y = true → (d.nets.pt y).net ≠ 0) →
        e.nets = d.nets ∧ e.sweep = { d.sweep with state := .isolate, stage := 3 } ∧
        e.learn = { d.learn with cursor := x, kept := [x], surplus := 0 } ∧
        ∃ cands : List Nat, cands.Pairwise (· < ·) ∧
          (∀ y, y ∈ cands ↔ d.nets.isFitted y = true ∧ x < y ∧ (d.nets.pt y).net = 0) ∧
          e.search = { d.search with buf := cands.map fun y => (y, false), locCount := 0 } ∧
          (cands = [] → e.tasks = .learnAlone x :: .safe :: .learnFrom (x + 1) :: d.tasks) ∧
          (cands ≠ [] → e.tasks = .setup (targets [x] cands .a .b) :: .probe d.learn.n d.learn.t :: .learnGot x :: .safe ::
            .learnFrom (x + 1) :: d.tasks)) ∧
    (∀ (p : Nat) (e : Dev), d.kind = some .learn → e = runTask q (.learnGot p) d →
      (d.mu.ans.connected = false → e = { d with
        learn := { d.learn with probes := d.learn.probes + 1 }, tasks := .learnAlone p :: d.tasks }) ∧
      (∀ v, d.mu.ans.connected = true → v = ⟨d.mu.ans.r.getD 0, .none, .l⟩ → e = { d with
        learn := { d.learn with probes := d.learn.probes + 1 }
        search := { d.search with
          state := .searching, stack := [⟨0, d.search.buf.length, v⟩], cur := none, low := none
          locCount := 0, limit := 0, rule := .point, side := [p], user := .learn }
        tasks := .safe :: .searchStep :: .learnFormed p :: d.tasks })) ∧
    (∀ p : Nat,
      (1 < d.learn.kept.length → runTask q (.learnFormed p) d = { d with tasks := .learnNet false :: d.tasks }) ∧
      (d.learn.kept.length ≤ 1 → runTask q (.learnFormed p) d = { d with
        learn := { d.learn with unresolved := d.learn.unresolved + 1 }, tasks := .learnAlone p :: d.tasks }) ∧
      (d.learn.keep = true → runTask q (.learnAlone p) d = { d with
        learn := { d.learn with kept := [p], surplus := 0 }, tasks := .learnNet true :: d.tasks }) ∧
      (d.learn.keep = false → runTask q (.learnAlone p) d = { d with
        learn := { d.learn with kept := [p], surplus := 0, singles := d.learn.singles + 1 } })) ∧
    (∀ (single : Bool) (m : Nat), m = d.nets.count + 1 → Tab.canonFrom Net.none 0 d.nets.table = true →
      ∃ t : Nets, runTask q (.learnLoad single) d = { d with
          nets := t
          learn := { d.learn with
            nets := d.learn.nets + 1
            assigned := d.learn.assigned + d.learn.kept.length
            oversize := d.learn.oversize + (if d.learn.surplus = 0 then 0 else 1)
            singles := d.learn.singles + (if single then 1 else 0) } } ∧
        t = { d.nets with count := m, table := t.table, members := d.nets.members ++ d.learn.kept, points := t.points } ∧
        t.net m =
          { start := d.nets.members.length, count := d.learn.kept.length, limits := none, rng := .none, hv := none
            noInsulate := false, name := none } ∧
        (∀ k, k ≠ m → t.net k = d.nets.net k) ∧
        (∀ p ∈ d.learn.kept, t.pt p = ⟨m, .untested, (d.nets.pt p).att⟩) ∧
        (∀ p, p ∉ d.learn.kept → t.pt p = d.nets.pt p)) ∧
    ∀ (single : Bool) (e : Dev) (k : Nat), k = d.learn.kept.length → e = runTask q (.learnNet single) d →
      (2048 ≤ d.learn.nets → e.tasks = [.endOrder .failed .netlistSize]) ∧
      (d.learn.nets < 2048 → d.learn.cap < d.learn.used + (1 + (k + 1) / 2) → e.tasks = [.endOrder .failed .learnCapacity]) ∧
      (d.learn.nets < 2048 → d.learn.used + (1 + (k + 1) / 2) ≤ d.learn.cap →
        e.tasks = .write (d.learn.outOff + 4 * d.learn.used) (wordOf k :: packHalves d.learn.kept) ::
          .learnHeader single :: d.tasks ∧
        (runTask q (.learnHeader single) d).learn = { d.learn with used := d.learn.used + (1 + (k + 1) / 2) } ∧
        (runTask q (.learnHeader single) d).tasks = .write d.learn.outOff
          [wordOf (d.learn.nets + 1 + 65536 * ((d.learn.used + (1 + (k + 1) / 2)) % 65536))] :: .learnLoad single :: d.tasks)

/-- A finding: with no table bound it is answered dropped with no memory write, else the manager is RECORDING: a LIVE record
with its key has it merged; with room it is appended at the next index, the entry's eight words before the header, DEFECT
raised after it; in a full table it is dropped, the count growing; a lookup finds the LIVE record with the key. At its end
the manager is IDLE and the order's engine counts the answer, a sweep the new and the merged ones by kind. The key of each
kind and the entry's words; the order of worse values, and what a merge writes: the count, the flags, the worse value with
its range and, for INSL, its markers, the auxiliary by kind, the tag. A MISW absorbs the LIVE OPEN of its member and the LIVE
SHRT of its nets whose point in memory is its own: the record is ABSORBED, the LIVE count 1 lower, the ABSORBED count 1
higher. A clear of a bound table writes the header of an empty one, then empties counts and index, and the order reader
writes both counts of the status area as 0, also where they were 0, without waiting for the write (DEDUCED: log 10). The
counts agree with the index and stay so through an append, an absorption, a drop and a clear (R69, R91, R132, R143 to R151,
R206). -/
def Obligations.FindingsAreRecorded : Prop :=
  (∀ (q : List (Nat × Word)) (d : Dev) (f : Finding),
    (d.mgr.binding ≠ .bound → runTask q (.finding f) d = { d with tasks := .findingEnd f .dropped :: d.tasks }) ∧
    (d.mgr.binding = .bound →
      (∀ i, d.mgr.lookup f.key = some i →
        runTask q (.finding f) d = { d with
          mgr := { d.mgr with state := .recording }, rbuf := []
          tasks := .read (d.mgr.off + 16 + 32 * i + 4) 1 :: .read (d.mgr.off + 16 + 32 * i + 16) 3 :: .mergeGot f i ::
            d.tasks }) ∧
      (d.mgr.lookup f.key = none → d.mgr.used < d.mgr.cap →
        runTask q (.finding f) d = { d with
          mgr := { d.mgr with state := .recording }
          tasks := .write (d.mgr.off + 16 + 32 * d.mgr.used) f.words :: .appended f :: d.tasks } ∧ f.words.length = 8) ∧
      (d.mgr.lookup f.key = none → d.mgr.cap ≤ d.mgr.used → ∀ n,
        n = (if d.mgr.dropped < 65535 then d.mgr.dropped + 1 else d.mgr.dropped) →
        runTask q (.finding f) d = { d with
          mgr := { d.mgr with state := .recording, dropped := n }
          tasks := .write d.mgr.off [wordOf d.mgr.used, wordOf d.mgr.live, wordOf d.mgr.absorbed, wordOf n] ::
            .findingEnd f .dropped :: d.tasks }))) ∧
  (∀ (q : List (Nat × Word)) (d : Dev) (f : Finding) (idle : Manager), d.mgr.orphan = false →
    idle = { d.mgr with state := .idle } →
    (∀ j, d.kind ≠ some .insulate → [DKind.opn, .hres, .misw, .shrt, .xtra][j]? = some f.kind →
      runTask q (.findingEnd f .appended) d = { d with
        mgr := idle, sweep := { d.sweep with new := d.sweep.new.modify j (· + 1) } } ∧
      runTask q (.findingEnd f .merged) d = { d with
        mgr := idle, sweep := { d.sweep with merged := d.sweep.merged.modify j (· + 1) } } ∧
      runTask q (.findingEnd f .dropped) d = { d with
        mgr := idle, sweep := { d.sweep with dropped := d.sweep.dropped + 1 } }) ∧
    (d.kind = some .insulate →
      runTask q (.findingEnd f .appended) d = { d with mgr := idle, ins := { d.ins with new := d.ins.new + 1 } } ∧
      runTask q (.findingEnd f .merged) d = { d with mgr := idle, ins := { d.ins with merged := d.ins.merged + 1 } } ∧
      runTask q (.findingEnd f .dropped) d = { d with mgr := idle, ins := { d.ins with dropped := d.ins.dropped + 1 } })) ∧
  (∀ (m : Manager) (k : Key),
    (∀ i, m.lookup k = some i → m.index[i]? = some ⟨k, true⟩) ∧
    (m.lookup k = none ↔ ∀ r ∈ m.index, ¬(r.live = true ∧ r.key = k))) ∧
  (∀ m : Manager, m.TableOk →
    (∀ k, (m.append k).TableOk) ∧ (∀ i, (m.absorb i).TableOk) ∧ m.drop.TableOk ∧ m.empty.TableOk) ∧
  Manager.reset.TableOk ∧
  (∀ (f : Finding) (w1 w4 w5 r1 : Word) (rest : List Word) (wins : Bool), mergedWords f w1 w4 w5 = (r1, rest) →
    wins = worse f.kind (valueField f.value).toNat w4.toNat f.lt (bitAt w1 3) →
    hi r1 = min 65535 (hi w1 + 1) ∧
    (bitAt r1 0 = true ↔ bitAt w1 0 = true ∨ f.stray = true) ∧
    (bitAt r1 1 = true ↔ bitAt w1 1 = true ∨ f.truncated = true) ∧
    (bitAt r1 2 = if wins = true ∧ f.kind = .insl then false else bitAt w1 2) ∧
    (bitAt r1 3 = if wins = true ∧ f.kind = .insl then f.lt else bitAt w1 3) ∧
    b1 r1 = (if wins = true then f.rng.code else b1 w1) ∧
    rest = [if wins then valueField f.value else w4,
      match f.kind with
      | .opn => if w5.toNat < f.aux then wordOf f.aux else w5
      | .misw => wordOf f.aux
      | _ => w5,
      f.tag]) ∧
  (∀ (k : DKind) (new old : Nat) (newLt oldLt : Bool),
    (k ≠ .insl → (worse k new old newLt oldLt = true ↔ old < new)) ∧
    (worse .insl new old newLt oldLt = true ↔
      (newLt = true ∧ oldLt = false) ∨ (newLt = oldLt ∧ new < old))) ∧
  (valueField none = 0xFFFFFFFF) ∧
  (∀ (a b v aux : Nat) (p value : Option Nat) (r : Rng) (st tr lt : Bool) (tag : Word) (x : Nat) (k : DKind) (f : Finding),
    x = (match p with | some y => y | none => 0xFFFF) → f = ⟨k, a, b, p, value, r, st, tr, lt, aux, tag⟩ →
    (k = .opn ∨ k = .hres ∨ k = .misw ∨ k = .xtra → f.key = ⟨k, a, x⟩) ∧
    (k = .shrt ∨ k = .insl → f.key = ⟨k, a, b⟩) ∧ (k = .brkd ∨ k = .arc → f.key = ⟨k, a, 0⟩) ∧
    ∃ w0 w1 w2 w3 w4 : Word, f.words = [w0, w1, w2, w3, w4, BitVec.ofNat 32 aux, tag, 0] ∧
      b0 w0 = (match k with | .opn => 1 | .hres => 2 | .misw => 3 | .shrt => 4 | .xtra => 5 | .insl => 6 | .brkd => 7 | .arc => 8) ∧
      b1 w0 = 1 ∧ hi w0 = 0 ∧ bitAt w1 0 = st ∧ bitAt w1 1 = tr ∧ bitAt w1 2 = false ∧ bitAt w1 3 = lt ∧
      b1 w1 = (match r with | .none => 0 | .h => 1 | .m => 2 | .l => 3 | .l1 => 4 | .l2 => 5 | .l3 => 6) ∧ hi w1 = 1 ∧
      lo w2 = a % 65536 ∧ hi w2 = b % 65536 ∧ lo w3 = x % 65536 ∧ hi w3 = 0 ∧
      (value = none → w4 = 0xFFFFFFFF) ∧ (value = some v → w4 = BitVec.ofNat 32 v)) ∧
  ∀ (q : List (Nat × Word)) (d : Dev) (f : Finding) (m : Manager) (ab : List Task),
    ab = (if f.kind = .misw then [.absorbOpen f] else []) →
    (∀ i r1 rest, mergedWords f (d.word 0) (d.word 1) (d.word 2) = (r1, rest) →
      runTask q (.mergeGot f i) d = { d with
        rbuf := []
        tasks := .write (d.mgr.off + 16 + 32 * i + 4) [r1] :: .write (d.mgr.off + 16 + 32 * i + 16) rest :: ab ++
          .findingEnd f .merged :: d.tasks }) ∧
    (d.mgr.lookup f.key = none → d.mgr.used < d.mgr.cap →
        m = { d.mgr with index := d.mgr.index ++ [⟨f.key, true⟩], used := d.mgr.used + 1, live := d.mgr.live + 1 } →
      runTask q (.appended f) d = { d with
        tasks := .write d.mgr.off [wordOf m.used, wordOf m.live, wordOf m.absorbed, wordOf m.dropped] :: .raiseDefect f ::
          ab ++ .findingEnd f .appended :: d.tasks } ∧
      (d.mgr.orphan = false → runTask q (.raiseDefect f) d = { d with
        mgr := m, attn := { d.attn with req := d.attn.req ||| srcBit 4 } })) ∧
    (∀ (i : Nat) (k : DKind) (steps : List Task), (k = .opn ∨ k = .shrt) →
      steps = [.write (d.mgr.off + 16 + 32 * i) [wordOf (k.code + 256 * 2)],
        .write d.mgr.off [wordOf d.mgr.used, wordOf (d.mgr.live - 1), wordOf (d.mgr.absorbed + 1), wordOf d.mgr.dropped],
        .absorbDone i] →
      (k = .opn → d.mgr.lookup ⟨.opn, f.netA, pointField f.point⟩ = some i →
        runTask q (.absorbOpen f) d = { d with tasks := steps ++ .absorbShort f :: d.tasks }) ∧
      (k = .shrt → d.mgr.lookup ⟨.shrt, min f.netA f.aux, max f.netA f.aux⟩ = some i →
        runTask q (.absorbShort f) d = { d with
          rbuf := [], tasks := .read (d.mgr.off + 16 + 32 * i + 12) 1 :: .absorbGot f i :: d.tasks }) ∧
      (k = .shrt → lo (d.word 0) = pointField f.point → (∃ key, d.mgr.index[i]? = some ⟨key, true⟩) →
        runTask q (.absorbGot f i) d = { d with rbuf := [], tasks := steps ++ d.tasks }) ∧
      (lo (d.word 0) ≠ pointField f.point → runTask q (.absorbGot f i) d = { d with rbuf := [] }) ∧
      ∀ key, d.mgr.index[i]? = some ⟨key, true⟩ → runTask q (.absorbDone i) d = { d with
        mgr := { d.mgr with
          index := d.mgr.index.set i ⟨key, false⟩, live := d.mgr.live - 1, absorbed := d.mgr.absorbed + 1 } }) ∧
    (d.mgr.lookup ⟨.opn, f.netA, pointField f.point⟩ = none →
      runTask q (.absorbOpen f) d = { d with tasks := .absorbShort f :: d.tasks }) ∧
    (d.mgr.lookup ⟨.shrt, min f.netA f.aux, max f.netA f.aux⟩ = none → runTask q (.absorbShort f) d = d) ∧
    (d.mgr.binding ≠ .bound → runTask q .clear d = d) ∧
    (d.mgr.binding = .bound → runTask q .clear d = { d with
      mgr := { d.mgr with state := .clearing }
      engineQ := d.engineQ ++ [⟨d.mgr.off, 4, some [0, 0, 0, 0], true, true⟩], tasks := .cleared :: d.tasks, wait := .mem }) ∧
    (d.mgr.binding = .bound → d.mgr.orphan = false → ∀ counts : List Burst,
      (d.reader.imageLive = true → d.reader.state ≠ .stopped → counts = [⟨0x34, 1, some [0], false, true⟩]) →
      (d.reader.imageLive = false ∨ d.reader.state = .stopped → counts = []) →
      runTask q .cleared d = { d with
        mgr := { d.mgr with used := 0, live := 0, absorbed := 0, dropped := 0, index := [], state := .idle }
        engineQ := d.engineQ ++ counts, statusImg := d.statusImg.set 5 0 })

/-! ## Print (chapter 9) -/

/-- The texts of a line. The ladder of R162 by the value's range, for both unit sets, and the bounds of R163; the value text
of each kind; kinds, counts and tags; what the two label fields name, and their texts from memory or not, with all digits
past 9999 (of a net the model's choice: log 48); a field in its window, cut, left or right; a line as its fields' windows
in order without its trailing spaces, and with no character outside 0x20..0x7E, whatever the memory holds (the marker of
an entry with both flags is free but for that: log 35); the title line, the footer line and a spool record's 64 bytes;
every text fits: 1 to 6 characters for a recorded resistance, a line within the line width (R159 to R164, R170). -/
def Obligations.PrintTextsFit : Prop :=
  (∀ n, n < 10000000000 → decimal n ≠ [] ∧ (∀ c ∈ decimal n, 0x30 ≤ c.toNat ∧ c.toNat ≤ 0x39) ∧
    (decimal n).foldl (fun a c => 10 * a + (c.toNat - 0x30)) 0 = n ∧ (10 ≤ n → (decimal n).head? ≠ some 0x30)) ∧
  (∀ (v d : Nat) (u1 u2 u3 : Char) (sixth : Bool) (unit : Char → Byte) (r : Text), r = ladder v u1 u2 u3 sixth →
    (∀ c, unit c = BitVec.ofNat 8 c.toNat) →
    (v < 1000 → r = decimal v ++ [unit u1]) ∧
    (1000 ≤ v → v < 9995 → d = (v + 5) / 10 → r = decimal (d / 100) ++ [0x2E, digit (d / 10 % 10), digit (d % 10), unit u2]) ∧
    (9995 ≤ v → v < 99950 → d = (v + 50) / 100 → r = decimal (d / 10) ++ [0x2E, digit (d % 10), unit u2]) ∧
    (99950 ≤ v → v < 999500 → d = (v + 500) / 1000 → r = decimal d ++ [unit u2]) ∧
    (999500 ≤ v → sixth = false ∨ v < 9995000 → d = (v + 5000) / 10000 →
      r = decimal (d / 100) ++ [0x2E, digit (d / 10 % 10), digit (d % 10), unit u3]) ∧
    (9995000 ≤ v → sixth = true → d = (v + 50000) / 100000 → r = decimal (d / 10) ++ [0x2E, digit (d % 10), unit u3])) ∧
  (∀ v, (v ≤ 3200000 → ohmText v = ladder v 'm' 'R' 'k' false ∧ 1 ≤ (ohmText v).length ∧ (ohmText v).length ≤ 6) ∧
    (3200000 < v → ohmText v = 0x3E :: ladder 3200000 'm' 'R' 'k' false)) ∧
  (∀ v gt lt base,
    (v ≤ 9999999 → (gt = false ∨ lt = false) →
      megText v gt lt base = (if gt then [0x3E] else if lt then [0x3C] else []) ++ ladder v 'M' 'G' 'T' true ∧
      1 ≤ (megText v gt lt base).length ∧ (megText v gt lt base).length ≤ 6) ∧
    (9999999 < v → megText v gt lt base = 0x3E :: ladder 9999999 'M' 'G' 'T' true)) ∧
  (∀ (w1 v : Word) (base : Nat), valueText .opn w1 0xFFFFFFFF base = [0x4F, 0x50, 0x45, 0x4E] ∧
    (v ≠ 0xFFFFFFFF → valueText .opn w1 v base = ohmText v.toNat) ∧
    (∀ k, k = .hres ∨ k = .misw ∨ k = .shrt ∨ k = .xtra → valueText k w1 v base = ohmText v.toNat) ∧
    valueText .insl w1 v base = megText v.toNat (bitAt w1 2) (bitAt w1 3) base ∧
    valueText .brkd w1 v base = decimal v.toNat ++ [0x56] ∧ valueText .arc w1 v base = decimal v.toNat ++ [0x78]) ∧
  (∀ (k : DKind) (ws : List Word) (ta tb : Text) (base : Nat) (w : Nat → Word), (∀ i, w i = ws.getD i 0) →
    (b0 (w 0) = k.code →
      fieldTexts ws ta tb base = [k.text, ta, tb, valueText k (w 1) (w 4) base, decimal (hi (w 1)), hex8 (w 6)]) ∧
    (b0 (w 0) = 0 ∨ 8 < b0 (w 0) → fieldTexts ws ta tb base = [[0x3F, 0x3F, 0x3F, 0x3F], [], [], [], [], []])) ∧
  (DKind.text .opn = [0x4F, 0x50, 0x45, 0x4E] ∧ DKind.text .hres = [0x48, 0x52, 0x45, 0x53] ∧
    DKind.text .misw = [0x4D, 0x49, 0x53, 0x57] ∧ DKind.text .shrt = [0x53, 0x48, 0x52, 0x54] ∧
    DKind.text .xtra = [0x58, 0x54, 0x52, 0x41] ∧ DKind.text .insl = [0x49, 0x4E, 0x53, 0x4C] ∧
    DKind.text .brkd = [0x42, 0x52, 0x4B, 0x44] ∧ DKind.text .arc = [0x41, 0x52, 0x43]) ∧
  (∀ (w : Word) (i x : Nat), (hex8 w).length = 8 ∧
    (i < 8 → x = w.toNat / 16 ^ (7 - i) % 16 → (hex8 w)[i]? = some (BitVec.ofNat 8 (if x < 10 then 0x30 + x else 0x37 + x)))) ∧
  (∀ (k : DKind) (a b p aux : Nat) (point net : Nat → LabelOf), (∀ x, point x = if x = 0xFFFF then .nothing else .point x) →
    (∀ x, net x = if x = 0 then .nothing else .net x) →
    labelA k a p = (match k with | .opn => point p | .hres => point p | .misw => point p | _ => net a) ∧
    labelB k a b p aux = (match k with
      | .opn => net a | .hres => net a | .misw => net aux | .shrt => net b | .xtra => point p
      | .insl => if b ≠ 0 then .net b else point p | .brkd => .nothing | .arc => .nothing)) ∧
  (∀ n, LabelOf.plain .nothing = [] ∧
    (n < 10000 → ∀ ds, ds = [digit (n / 1000), digit (n / 100 % 10), digit (n / 10 % 10), digit (n % 10)] →
      LabelOf.plain (.point n) = 0x50 :: ds ∧ LabelOf.plain (.net n) = 0x4E :: ds) ∧
    (10000 ≤ n → LabelOf.plain (.point n) = 0x50 :: decimal n ∧ LabelOf.plain (.net n) = 0x4E :: decimal n)) ∧
  (∀ (l : LabelOf) (ws : List Word) (t : Text),
    t = ((ws.flatMap wordBytes).takeWhile fun c => decide (c ≠ 0)).map
      (fun c => if 0x20 ≤ c.toNat ∧ c.toNat ≤ 0x7E then c else 0x3F) → l.read ws = if t = [] then l.plain else t) ∧
  (∀ (d : Dev) (p n : Nat) (b : Bind), d.reader.bind = some b → d.labelPlace .nothing = none ∧
    d.labelPlace (.point p) = (if b.labelOff ≠ 0 ∧ p ≤ 4095 then some (b.labelOff + 12 * p, 3) else none) ∧
    d.labelPlace (.net n) = (if d.nets.tablesValid = true ∧ n ≤ d.nets.count then
      (d.nets.net n).name.map (fun off => (off, 4)) else none)) ∧
  (∀ (x : Window) (t cells : Text) (w : Nat), w = x.last - x.first + 1 → ∃ body : Text,
    putField x t cells = cells.take x.first ++ body ++ cells.drop (x.last + 1) ∧ body.length = w ∧
    (w < t.length → body = t.take (w - 1) ++ [0x7E]) ∧
    (t.length ≤ w → body = if x.right then List.replicate (w - t.length) 0x20 ++ t else t ++ List.replicate (w - t.length) 0x20) ∧
    (x.first ≤ x.last → x.last < cells.length → (putField x t cells).length = cells.length)) ∧
  (∀ (l : Layout) (line : Nat) (ts : List Text), ∃ (cells : Text) (n : Nat),
    cells = (l.windows.zip ts).foldl (fun cells x =>
      if x.1.shown = true ∧ x.1.line = line then putField x.1 x.2 cells else cells) (List.replicate l.width 0x20) ∧
    cells = entryLine l line ts ++ List.replicate n 0x20 ∧ (entryLine l line ts).getLast? ≠ some 0x20 ∧
    ((∀ x ∈ l.windows, x.shown = true → x.first ≤ x.last ∧ x.last < l.width) → (entryLine l line ts).length ≤ l.width)) ∧
  (∀ (l : Layout) (line base : Nat) (ws wa wb : List Word) (a b : LabelOf),
    ∀ c ∈ entryLine l line (fieldTexts ws (a.read wa) (b.read wb) base), 0x20 ≤ c.toNat ∧ c.toNat ≤ 0x7E) ∧
  (∀ (l : Layout) (tag : Word) (live room : Nat) (r t : Text), 24 ≤ l.width → live ≤ 1024 →
    r = hex8 tag ++ [0x20, 0x4C, 0x49, 0x56, 0x45, 0x20] ++ decimal live →
    t = l.title.map (fun c => if 0x20 ≤ c.toNat ∧ c.toNat ≤ 0x7E then c else 0x3F) → room + 1 + r.length = l.width →
    ∃ n, titleLine l tag live =
        (if room < t.length then t.take (room - 1) ++ [0x7E] else t) ++ List.replicate n 0x20 ++ r ∧
      1 ≤ n ∧ (titleLine l tag live).length = l.width) ∧
  (∀ (bs : List Byte), ∀ c ∈ textOf bs, 0x20 ≤ c.toNat ∧ c.toNat ≤ 0x7E) ∧
  (∀ n, footerLine n = [0x45, 0x4E, 0x44, 0x20] ++ decimal n) ∧
  ∀ t s : Text, t.length ≤ 64 → s = (if t.length = 64 then t.take 62 ++ [0x7E] else t) →
    (spoolRecord t).length = 16 ∧ s.length ≤ 63 ∧
    (spoolRecord t).flatMap wordBytes = BitVec.ofNat 8 s.length :: s ++ List.replicate (63 - s.length) 0

/-- The formatter and the printer port: FORMAT_LINE lets a formatter that waits for it build its line: the title, then the
entries as memory holds them, ABSORBED ones skipped unless asked for, then the footer; a line with room in the queue joins
its tail, without room the formatter is WAITING, or discards it for a HALT or ABORT; a spool line is written and counted
until the spool is full. The end of a character's frame goes on to the next character, or after the line feed takes the head
line from the queue and goes on to the next line, or is IDLE and raises DRAINED; a WAITING formatter goes on when the frame
has left fewer than 4 lines, and waits on through any other frame; after a soft reset in mid-character it takes the marked
line from the queue, raising nothing, and the first line that has joined behind it begins, while room is judged without the
marked line (R172; DEDUCED: log 24); a character begins only while the printer is ready, paper is in and the port is on, else
HOLD; the inputs are followed at once (R157, R165, R166, R168 to R170, R172). A skipped entry and the end of the range are
not held against a full spool (DEDUCED: log 23); the last line goes on without a safe point, so that a HALT there lets the
PRINT end DONE (DEDUCED: log 34). A line that meets a full queue with a HALT or an ABORT pending from FORMATTING is discarded
as one held in WAITING (the model's choice: log 70). A FORMAT_LINE or a frame's end with none to take it brings nothing about
(log 5). -/
def Obligations.PrinterPortSendsLines : Prop :=
  (∀ s : State,
    (s.dev.wait = .format →
      exec .formatLine s = .next { s with dev := Dev.settle s.hostQ { s.dev with wait := .run } }) ∧
    (s.dev.wait ≠ .format → exec .formatLine s = .next { s with dev := s.dev.settle s.hostQ }) ∧
    (∀ rest, s.dev.wait = .format → s.dev.tasks = .fmtBegin :: rest → s.dev.fmt.part = .footer →
      s.dev.fmt.footer = true → s.dev.fmt.toSpool = false → s.dev.tx.fill < 4 → s.dev.reader.order ≠ none →
      ∃ t, exec .formatLine s = .next t ∧ t.dev.tx.queue = s.dev.tx.queue ++ [footerLine s.dev.fmt.printed]) ∧
    (s.dev.tx.state ≠ .sending →
      exec .characterFrameEnd s = .next { s with dev := s.dev.settle s.hostQ }) ∧
    (∀ (may : Bool) (left : Nat) (w : Wait) (f : Fmt), s.dev.tx.state = .sending →
      (may = true ↔ s.dev.pins.printerReady = true ∧ s.dev.pins.paperOut = false ∧ s.dev.cfg.print.portOn = true) →
      (s.dev.wait = .room ∧ left < 4 → w = .run ∧ f = { s.dev.fmt with state := .formatting }) →
      (s.dev.wait ≠ .room ∨ 4 ≤ left → w = s.dev.wait ∧ f = s.dev.fmt) →
      (∀ l ls, s.dev.tx.discard = 0 → s.dev.tx.queue = l :: ls → s.dev.tx.pos + 1 < l.length + 2 → left = ls.length + 1 →
        exec .characterFrameEnd s = .next { s with
          dev := Dev.settle s.hostQ { s.dev with
            tx := { s.dev.tx with
              pos := s.dev.tx.pos + 1, state := if may then .sending else .hold
              rate := if may then s.dev.cfg.print.rate else s.dev.tx.rate }
            wait := w, fmt := f } }) ∧
      (∀ l l' ls, s.dev.tx.discard = 0 → s.dev.tx.queue = l :: l' :: ls → s.dev.tx.pos + 1 = l.length + 2 →
        left = ls.length + 1 →
        exec .characterFrameEnd s = .next { s with
          dev := Dev.settle s.hostQ { s.dev with
            tx := { s.dev.tx with
              queue := l' :: ls, pos := 0, state := if may then .sending else .hold
              rate := if may then s.dev.cfg.print.rate else s.dev.tx.rate }
            wait := w, fmt := f } }) ∧
      (∀ l, s.dev.tx.discard = 0 → s.dev.tx.queue = [l] → s.dev.tx.pos + 1 = l.length + 2 → left = 0 →
        exec .characterFrameEnd s = .next { s with
          dev := Dev.settle s.hostQ { s.dev with
            tx := { s.dev.tx with queue := [], pos := 0, state := .idle }
            attn := { s.dev.attn with req := s.dev.attn.req ||| srcBit 6 }
            wait := w, fmt := f } }) ∧
      (∀ l ls, s.dev.tx.discard = 1 → s.dev.tx.queue = l :: ls → left = ls.length →
        (ls = [] → exec .characterFrameEnd s = .next { s with
          dev := Dev.settle s.hostQ { s.dev with
            tx := { s.dev.tx with queue := [], pos := 0, discard := 0, state := .idle }
            wait := w, fmt := f } }) ∧
        (ls ≠ [] → exec .characterFrameEnd s = .next { s with
          dev := Dev.settle s.hostQ { s.dev with
            tx := { s.dev.tx with
              queue := ls, pos := 0, discard := 0, state := if may then .sending else .hold
              rate := if may then s.dev.cfg.print.rate else s.dev.tx.rate }
            wait := w, fmt := f } }))) ∧
    ∀ (cmd : Instr) (p : Pins),
      (cmd = .printerReadyAsserted ∧ p = { s.dev.pins with printerReady := true } ∨
        cmd = .printerReadyReleased ∧ p = { s.dev.pins with printerReady := false } ∨
        cmd = .paperOutAsserted ∧ p = { s.dev.pins with paperOut := true } ∨
        cmd = .paperOutReleased ∧ p = { s.dev.pins with paperOut := false }) →
      (s.dev.tx.state = .hold → p.printerReady = true → p.paperOut = false → s.dev.cfg.print.portOn = true →
        exec cmd s = .next { s with
          dev := Dev.settle s.hostQ { s.dev with
            pins := p, tx := { s.dev.tx with state := .sending, rate := s.dev.cfg.print.rate } } }) ∧
      (s.dev.tx.state ≠ .hold ∨ p.printerReady = false ∨ p.paperOut = true ∨ s.dev.cfg.print.portOn = false →
        exec cmd s = .next { s with dev := Dev.settle s.hostQ { s.dev with pins := p } })) ∧
  (∀ f : Fmt,
    f.normal = { f with part :=
      if f.part = .over then .over
      else if f.part = .title ∧ f.title = true then .title
      else if f.part ≠ .footer ∧ f.cursor < f.stop then .entries
      else if f.footer = true then .footer else .over }) ∧
  ∀ (q : List (Nat × Word)) (d : Dev) (b : Bind) (f : Fmt) (full room : Prop), d.reader.bind = some b → f = d.fmt.normal →
    (full ↔ d.fmt.toSpool = true ∧ b.spoolCap ≤ d.fmt.lines) → (room ↔ d.tx.fill < 4) →
    (f.part = .over → (runTask q .fmtNext d).tasks = .endOrder .done .done :: d.tasks) ∧
    (f.part ≠ .over → runTask q .fmtNext d = { d with
      fmt := { f with state := .formatting }, tasks := .fmtBegin :: d.tasks, wait := .format }) ∧
    (f.part = .title ∨ f.part = .footer →
      (full → (runTask q .fmtBegin d).tasks = [.endOrder .failed .spoolFull]) ∧
      (¬full → runTask q .fmtBegin d = { d with
        fmt := { f with
          buf := if f.part = .title then titleLine f.layout d.tag d.mgr.live else footerLine f.printed }
        tasks := .fmtPlace :: d.tasks })) ∧
    (f.part = .entries → runTask q .fmtBegin d = { d with
      fmt := f, rbuf := [], tasks := .read (d.mgr.off + 16 + 32 * f.cursor) 8 :: .fmtEntry :: d.tasks }) ∧
    (∀ ws, d.rbuf = ws →
      (d.fmt.line = 0 → b1 (ws.getD 0 0) = 2 → d.fmt.withAbsorbed = false → runTask q .fmtEntry d = { d with
        fmt := { d.fmt with cursor := d.fmt.cursor + 1, skipped := d.fmt.skipped + 1 }, rbuf := []
        tasks := .fmtBegin :: d.tasks }) ∧
      (d.fmt.line ≠ 0 ∨ b1 (ws.getD 0 0) ≠ 2 ∨ d.fmt.withAbsorbed = true →
        (full → (runTask q .fmtEntry d).tasks = [.endOrder .failed .spoolFull]) ∧
        (¬full → runTask q .fmtEntry d = { d with
          fmt := { d.fmt with entry := ws, textA := [], textB := [] }, rbuf := [], tasks := .fmtLabelA :: d.tasks }))) ∧
    (∀ o, d.reader.order = some o → runTask q .fmtBuild d = { d with
      fmt := { d.fmt with
        buf := entryLine d.fmt.layout d.fmt.line (fieldTexts d.fmt.entry d.fmt.textA d.fmt.textB o.freeBase) }
      tasks := .fmtPlace :: d.tasks }) ∧
    (d.fmt.toSpool = true → runTask q .fmtPlace d = { d with
      tasks := .write (b.spoolOff + 64 * d.fmt.lines) (spoolRecord d.fmt.buf) :: .fmtSpooled :: d.tasks }) ∧
    (runTask q .fmtSpooled d).reader = { d.reader with spoolLines := d.reader.spoolLines + 1 } ∧
    (runTask q .fmtSpooled d).fmt = d.fmt.accept ∧
    d.tx.fill = d.tx.queue.length - d.tx.discard ∧
    (d.fmt.toSpool = false → room → (runTask q .fmtPlace d).tx.queue = d.tx.queue ++ [d.fmt.buf] ∧
      (d.tx.state ≠ .idle → (runTask q .fmtPlace d).tx = { d.tx with queue := d.tx.queue ++ [d.fmt.buf] }) ∧
      (d.tx.state = .idle → ∀ may : Bool,
        (may = true ↔ d.pins.printerReady = true ∧ d.pins.paperOut = false ∧ d.cfg.print.portOn = true) →
        (runTask q .fmtPlace d).tx = { d.tx with
          queue := d.tx.queue ++ [d.fmt.buf], pos := 0, state := if may then .sending else .hold
          rate := if may then d.cfg.print.rate else d.tx.rate }) ∧
      (runTask q .fmtPlace d).fmt = d.fmt.accept ∧
      (runTask q .fmtPlace d).tasks =
        (if d.fmt.accept.normal.part = .over then [.fmtNext] else [.safe, .fmtNext]) ++ d.tasks) ∧
    (d.fmt.toSpool = false → ¬room → d.reader.haltPending = false → d.reader.ending = none →
      runTask q .fmtPlace d = { d with
        fmt := { d.fmt with state := .waiting }, tasks := .fmtPlace :: d.tasks, wait := .room }) ∧
    (d.fmt.toSpool = false → ¬room → d.reader.haltPending = true ∨ d.reader.ending ≠ none →
      runTask q .fmtPlace d = { d with fmt := { d.fmt with buf := [] }, tasks := .safe :: .fmtNext :: d.tasks }) ∧
    d.fmt.accept.lines = d.fmt.lines + 1 ∧ d.fmt.accept.buf = [] ∧
    (d.fmt.part = .title → d.fmt.accept.part = .entries ∧ d.fmt.accept.printed = d.fmt.printed) ∧
    (d.fmt.part = .footer → d.fmt.accept.part = .over) ∧
    (d.fmt.part = .entries → d.fmt.accept.part = .entries ∧
      d.fmt.accept.printed = d.fmt.printed + (if d.fmt.line = 0 then 1 else 0) ∧
      (d.fmt.line + 1 < d.fmt.layout.lines →
        d.fmt.accept.line = d.fmt.line + 1 ∧ d.fmt.accept.cursor = d.fmt.cursor) ∧
      (d.fmt.layout.lines ≤ d.fmt.line + 1 → d.fmt.accept.line = 0 ∧ d.fmt.accept.cursor = d.fmt.cursor + 1))
end

