-- ==== Sys2Proof/Laws/State.lean ====
section
/-! SUPPORT. One lemma for each field of `Dev` under each shared update of it, true by unfolding; and the same for `State`. -/

namespace Sys2Proof.Machine

@[simp] theorem Dev.onReader_reader (f : Reader → Reader) (d : Dev) : (d.onReader f).reader = f d.reader := rfl
@[simp] theorem Dev.onReader_cfg (f : Reader → Reader) (d : Dev) : (d.onReader f).cfg = d.cfg := rfl
@[simp] theorem Dev.onReader_statusImg (f : Reader → Reader) (d : Dev) : (d.onReader f).statusImg = d.statusImg := rfl
@[simp] theorem Dev.onReader_mx (f : Reader → Reader) (d : Dev) : (d.onReader f).mx = d.mx := rfl
@[simp] theorem Dev.onReader_mu (f : Reader → Reader) (d : Dev) : (d.onReader f).mu = d.mu := rfl
@[simp] theorem Dev.onReader_nets (f : Reader → Reader) (d : Dev) : (d.onReader f).nets = d.nets := rfl
@[simp] theorem Dev.onReader_search (f : Reader → Reader) (d : Dev) : (d.onReader f).search = d.search := rfl
@[simp] theorem Dev.onReader_sweep (f : Reader → Reader) (d : Dev) : (d.onReader f).sweep = d.sweep := rfl
@[simp] theorem Dev.onReader_learn (f : Reader → Reader) (d : Dev) : (d.onReader f).learn = d.learn := rfl
@[simp] theorem Dev.onReader_hv (f : Reader → Reader) (d : Dev) : (d.onReader f).hv = d.hv := rfl
@[simp] theorem Dev.onReader_ins (f : Reader → Reader) (d : Dev) : (d.onReader f).ins = d.ins := rfl
@[simp] theorem Dev.onReader_mgr (f : Reader → Reader) (d : Dev) : (d.onReader f).mgr = d.mgr := rfl
@[simp] theorem Dev.onReader_fmt (f : Reader → Reader) (d : Dev) : (d.onReader f).fmt = d.fmt := rfl
@[simp] theorem Dev.onReader_tx (f : Reader → Reader) (d : Dev) : (d.onReader f).tx = d.tx := rfl
@[simp] theorem Dev.onReader_attn (f : Reader → Reader) (d : Dev) : (d.onReader f).attn = d.attn := rfl
@[simp] theorem Dev.onReader_pins (f : Reader → Reader) (d : Dev) : (d.onReader f).pins = d.pins := rfl
@[simp] theorem Dev.onReader_prog (f : Reader → Reader) (d : Dev) : (d.onReader f).prog = d.prog := rfl
@[simp] theorem Dev.onReader_engineQ (f : Reader → Reader) (d : Dev) : (d.onReader f).engineQ = d.engineQ := rfl
@[simp] theorem Dev.onReader_tasks (f : Reader → Reader) (d : Dev) : (d.onReader f).tasks = d.tasks := rfl
@[simp] theorem Dev.onReader_wait (f : Reader → Reader) (d : Dev) : (d.onReader f).wait = d.wait := rfl
@[simp] theorem Dev.onReader_rbuf (f : Reader → Reader) (d : Dev) : (d.onReader f).rbuf = d.rbuf := rfl
@[simp] theorem Dev.onReader_saved (f : Reader → Reader) (d : Dev) : (d.onReader f).saved = d.saved := rfl
@[simp] theorem Dev.onReader_free (f : Reader → Reader) (d : Dev) : (d.onReader f).free = d.free := rfl

@[simp] theorem Dev.onOrder_reader (f : Order → Order) (d : Dev) : (d.onOrder f).reader = { d.reader with order := d.reader.order.map f } := rfl
@[simp] theorem Dev.onOrder_cfg (f : Order → Order) (d : Dev) : (d.onOrder f).cfg = d.cfg := rfl
@[simp] theorem Dev.onOrder_statusImg (f : Order → Order) (d : Dev) : (d.onOrder f).statusImg = d.statusImg := rfl
@[simp] theorem Dev.onOrder_mx (f : Order → Order) (d : Dev) : (d.onOrder f).mx = d.mx := rfl
@[simp] theorem Dev.onOrder_mu (f : Order → Order) (d : Dev) : (d.onOrder f).mu = d.mu := rfl
@[simp] theorem Dev.onOrder_nets (f : Order → Order) (d : Dev) : (d.onOrder f).nets = d.nets := rfl
@[simp] theorem Dev.onOrder_search (f : Order → Order) (d : Dev) : (d.onOrder f).search = d.search := rfl
@[simp] theorem Dev.onOrder_sweep (f : Order → Order) (d : Dev) : (d.onOrder f).sweep = d.sweep := rfl
@[simp] theorem Dev.onOrder_learn (f : Order → Order) (d : Dev) : (d.onOrder f).learn = d.learn := rfl
@[simp] theorem Dev.onOrder_hv (f : Order → Order) (d : Dev) : (d.onOrder f).hv = d.hv := rfl
@[simp] theorem Dev.onOrder_ins (f : Order → Order) (d : Dev) : (d.onOrder f).ins = d.ins := rfl
@[simp] theorem Dev.onOrder_mgr (f : Order → Order) (d : Dev) : (d.onOrder f).mgr = d.mgr := rfl
@[simp] theorem Dev.onOrder_fmt (f : Order → Order) (d : Dev) : (d.onOrder f).fmt = d.fmt := rfl
@[simp] theorem Dev.onOrder_tx (f : Order → Order) (d : Dev) : (d.onOrder f).tx = d.tx := rfl
@[simp] theorem Dev.onOrder_attn (f : Order → Order) (d : Dev) : (d.onOrder f).attn = d.attn := rfl
@[simp] theorem Dev.onOrder_pins (f : Order → Order) (d : Dev) : (d.onOrder f).pins = d.pins := rfl
@[simp] theorem Dev.onOrder_prog (f : Order → Order) (d : Dev) : (d.onOrder f).prog = d.prog := rfl
@[simp] theorem Dev.onOrder_engineQ (f : Order → Order) (d : Dev) : (d.onOrder f).engineQ = d.engineQ := rfl
@[simp] theorem Dev.onOrder_tasks (f : Order → Order) (d : Dev) : (d.onOrder f).tasks = d.tasks := rfl
@[simp] theorem Dev.onOrder_wait (f : Order → Order) (d : Dev) : (d.onOrder f).wait = d.wait := rfl
@[simp] theorem Dev.onOrder_rbuf (f : Order → Order) (d : Dev) : (d.onOrder f).rbuf = d.rbuf := rfl
@[simp] theorem Dev.onOrder_saved (f : Order → Order) (d : Dev) : (d.onOrder f).saved = d.saved := rfl
@[simp] theorem Dev.onOrder_free (f : Order → Order) (d : Dev) : (d.onOrder f).free = d.free := rfl

@[simp] theorem Dev.onMx_reader (f : Matrix → Matrix) (d : Dev) : (d.onMx f).reader = d.reader := rfl
@[simp] theorem Dev.onMx_cfg (f : Matrix → Matrix) (d : Dev) : (d.onMx f).cfg = d.cfg := rfl
@[simp] theorem Dev.onMx_statusImg (f : Matrix → Matrix) (d : Dev) : (d.onMx f).statusImg = d.statusImg := rfl
@[simp] theorem Dev.onMx_mx (f : Matrix → Matrix) (d : Dev) : (d.onMx f).mx = f d.mx := rfl
@[simp] theorem Dev.onMx_mu (f : Matrix → Matrix) (d : Dev) : (d.onMx f).mu = d.mu := rfl
@[simp] theorem Dev.onMx_nets (f : Matrix → Matrix) (d : Dev) : (d.onMx f).nets = d.nets := rfl
@[simp] theorem Dev.onMx_search (f : Matrix → Matrix) (d : Dev) : (d.onMx f).search = d.search := rfl
@[simp] theorem Dev.onMx_sweep (f : Matrix → Matrix) (d : Dev) : (d.onMx f).sweep = d.sweep := rfl
@[simp] theorem Dev.onMx_learn (f : Matrix → Matrix) (d : Dev) : (d.onMx f).learn = d.learn := rfl
@[simp] theorem Dev.onMx_hv (f : Matrix → Matrix) (d : Dev) : (d.onMx f).hv = d.hv := rfl
@[simp] theorem Dev.onMx_ins (f : Matrix → Matrix) (d : Dev) : (d.onMx f).ins = d.ins := rfl
@[simp] theorem Dev.onMx_mgr (f : Matrix → Matrix) (d : Dev) : (d.onMx f).mgr = d.mgr := rfl
@[simp] theorem Dev.onMx_fmt (f : Matrix → Matrix) (d : Dev) : (d.onMx f).fmt = d.fmt := rfl
@[simp] theorem Dev.onMx_tx (f : Matrix → Matrix) (d : Dev) : (d.onMx f).tx = d.tx := rfl
@[simp] theorem Dev.onMx_attn (f : Matrix → Matrix) (d : Dev) : (d.onMx f).attn = d.attn := rfl
@[simp] theorem Dev.onMx_pins (f : Matrix → Matrix) (d : Dev) : (d.onMx f).pins = d.pins := rfl
@[simp] theorem Dev.onMx_prog (f : Matrix → Matrix) (d : Dev) : (d.onMx f).prog = d.prog := rfl
@[simp] theorem Dev.onMx_engineQ (f : Matrix → Matrix) (d : Dev) : (d.onMx f).engineQ = d.engineQ := rfl
@[simp] theorem Dev.onMx_tasks (f : Matrix → Matrix) (d : Dev) : (d.onMx f).tasks = d.tasks := rfl
@[simp] theorem Dev.onMx_wait (f : Matrix → Matrix) (d : Dev) : (d.onMx f).wait = d.wait := rfl
@[simp] theorem Dev.onMx_rbuf (f : Matrix → Matrix) (d : Dev) : (d.onMx f).rbuf = d.rbuf := rfl
@[simp] theorem Dev.onMx_saved (f : Matrix → Matrix) (d : Dev) : (d.onMx f).saved = d.saved := rfl
@[simp] theorem Dev.onMx_free (f : Matrix → Matrix) (d : Dev) : (d.onMx f).free = d.free := rfl

@[simp] theorem Dev.onMu_reader (f : MeasUnit → MeasUnit) (d : Dev) : (d.onMu f).reader = d.reader := rfl
@[simp] theorem Dev.onMu_cfg (f : MeasUnit → MeasUnit) (d : Dev) : (d.onMu f).cfg = d.cfg := rfl
@[simp] theorem Dev.onMu_statusImg (f : MeasUnit → MeasUnit) (d : Dev) : (d.onMu f).statusImg = d.statusImg := rfl
@[simp] theorem Dev.onMu_mx (f : MeasUnit → MeasUnit) (d : Dev) : (d.onMu f).mx = d.mx := rfl
@[simp] theorem Dev.onMu_mu (f : MeasUnit → MeasUnit) (d : Dev) : (d.onMu f).mu = f d.mu := rfl
@[simp] theorem Dev.onMu_nets (f : MeasUnit → MeasUnit) (d : Dev) : (d.onMu f).nets = d.nets := rfl
@[simp] theorem Dev.onMu_search (f : MeasUnit → MeasUnit) (d : Dev) : (d.onMu f).search = d.search := rfl
@[simp] theorem Dev.onMu_sweep (f : MeasUnit → MeasUnit) (d : Dev) : (d.onMu f).sweep = d.sweep := rfl
@[simp] theorem Dev.onMu_learn (f : MeasUnit → MeasUnit) (d : Dev) : (d.onMu f).learn = d.learn := rfl
@[simp] theorem Dev.onMu_hv (f : MeasUnit → MeasUnit) (d : Dev) : (d.onMu f).hv = d.hv := rfl
@[simp] theorem Dev.onMu_ins (f : MeasUnit → MeasUnit) (d : Dev) : (d.onMu f).ins = d.ins := rfl
@[simp] theorem Dev.onMu_mgr (f : MeasUnit → MeasUnit) (d : Dev) : (d.onMu f).mgr = d.mgr := rfl
@[simp] theorem Dev.onMu_fmt (f : MeasUnit → MeasUnit) (d : Dev) : (d.onMu f).fmt = d.fmt := rfl
@[simp] theorem Dev.onMu_tx (f : MeasUnit → MeasUnit) (d : Dev) : (d.onMu f).tx = d.tx := rfl
@[simp] theorem Dev.onMu_attn (f : MeasUnit → MeasUnit) (d : Dev) : (d.onMu f).attn = d.attn := rfl
@[simp] theorem Dev.onMu_pins (f : MeasUnit → MeasUnit) (d : Dev) : (d.onMu f).pins = d.pins := rfl
@[simp] theorem Dev.onMu_prog (f : MeasUnit → MeasUnit) (d : Dev) : (d.onMu f).prog = d.prog := rfl
@[simp] theorem Dev.onMu_engineQ (f : MeasUnit → MeasUnit) (d : Dev) : (d.onMu f).engineQ = d.engineQ := rfl
@[simp] theorem Dev.onMu_tasks (f : MeasUnit → MeasUnit) (d : Dev) : (d.onMu f).tasks = d.tasks := rfl
@[simp] theorem Dev.onMu_wait (f : MeasUnit → MeasUnit) (d : Dev) : (d.onMu f).wait = d.wait := rfl
@[simp] theorem Dev.onMu_rbuf (f : MeasUnit → MeasUnit) (d : Dev) : (d.onMu f).rbuf = d.rbuf := rfl
@[simp] theorem Dev.onMu_saved (f : MeasUnit → MeasUnit) (d : Dev) : (d.onMu f).saved = d.saved := rfl
@[simp] theorem Dev.onMu_free (f : MeasUnit → MeasUnit) (d : Dev) : (d.onMu f).free = d.free := rfl

@[simp] theorem Dev.onNets_reader (f : Nets → Nets) (d : Dev) : (d.onNets f).reader = d.reader := rfl
@[simp] theorem Dev.onNets_cfg (f : Nets → Nets) (d : Dev) : (d.onNets f).cfg = d.cfg := rfl
@[simp] theorem Dev.onNets_statusImg (f : Nets → Nets) (d : Dev) : (d.onNets f).statusImg = d.statusImg := rfl
@[simp] theorem Dev.onNets_mx (f : Nets → Nets) (d : Dev) : (d.onNets f).mx = d.mx := rfl
@[simp] theorem Dev.onNets_mu (f : Nets → Nets) (d : Dev) : (d.onNets f).mu = d.mu := rfl
@[simp] theorem Dev.onNets_nets (f : Nets → Nets) (d : Dev) : (d.onNets f).nets = f d.nets := rfl
@[simp] theorem Dev.onNets_search (f : Nets → Nets) (d : Dev) : (d.onNets f).search = d.search := rfl
@[simp] theorem Dev.onNets_sweep (f : Nets → Nets) (d : Dev) : (d.onNets f).sweep = d.sweep := rfl
@[simp] theorem Dev.onNets_learn (f : Nets → Nets) (d : Dev) : (d.onNets f).learn = d.learn := rfl
@[simp] theorem Dev.onNets_hv (f : Nets → Nets) (d : Dev) : (d.onNets f).hv = d.hv := rfl
@[simp] theorem Dev.onNets_ins (f : Nets → Nets) (d : Dev) : (d.onNets f).ins = d.ins := rfl
@[simp] theorem Dev.onNets_mgr (f : Nets → Nets) (d : Dev) : (d.onNets f).mgr = d.mgr := rfl
@[simp] theorem Dev.onNets_fmt (f : Nets → Nets) (d : Dev) : (d.onNets f).fmt = d.fmt := rfl
@[simp] theorem Dev.onNets_tx (f : Nets → Nets) (d : Dev) : (d.onNets f).tx = d.tx := rfl
@[simp] theorem Dev.onNets_attn (f : Nets → Nets) (d : Dev) : (d.onNets f).attn = d.attn := rfl
@[simp] theorem Dev.onNets_pins (f : Nets → Nets) (d : Dev) : (d.onNets f).pins = d.pins := rfl
@[simp] theorem Dev.onNets_prog (f : Nets → Nets) (d : Dev) : (d.onNets f).prog = d.prog := rfl
@[simp] theorem Dev.onNets_engineQ (f : Nets → Nets) (d : Dev) : (d.onNets f).engineQ = d.engineQ := rfl
@[simp] theorem Dev.onNets_tasks (f : Nets → Nets) (d : Dev) : (d.onNets f).tasks = d.tasks := rfl
@[simp] theorem Dev.onNets_wait (f : Nets → Nets) (d : Dev) : (d.onNets f).wait = d.wait := rfl
@[simp] theorem Dev.onNets_rbuf (f : Nets → Nets) (d : Dev) : (d.onNets f).rbuf = d.rbuf := rfl
@[simp] theorem Dev.onNets_saved (f : Nets → Nets) (d : Dev) : (d.onNets f).saved = d.saved := rfl
@[simp] theorem Dev.onNets_free (f : Nets → Nets) (d : Dev) : (d.onNets f).free = d.free := rfl

@[simp] theorem Dev.onSearch_reader (f : Search → Search) (d : Dev) : (d.onSearch f).reader = d.reader := rfl
@[simp] theorem Dev.onSearch_cfg (f : Search → Search) (d : Dev) : (d.onSearch f).cfg = d.cfg := rfl
@[simp] theorem Dev.onSearch_statusImg (f : Search → Search) (d : Dev) : (d.onSearch f).statusImg = d.statusImg := rfl
@[simp] theorem Dev.onSearch_mx (f : Search → Search) (d : Dev) : (d.onSearch f).mx = d.mx := rfl
@[simp] theorem Dev.onSearch_mu (f : Search → Search) (d : Dev) : (d.onSearch f).mu = d.mu := rfl
@[simp] theorem Dev.onSearch_nets (f : Search → Search) (d : Dev) : (d.onSearch f).nets = d.nets := rfl
@[simp] theorem Dev.onSearch_search (f : Search → Search) (d : Dev) : (d.onSearch f).search = f d.search := rfl
@[simp] theorem Dev.onSearch_sweep (f : Search → Search) (d : Dev) : (d.onSearch f).sweep = d.sweep := rfl
@[simp] theorem Dev.onSearch_learn (f : Search → Search) (d : Dev) : (d.onSearch f).learn = d.learn := rfl
@[simp] theorem Dev.onSearch_hv (f : Search → Search) (d : Dev) : (d.onSearch f).hv = d.hv := rfl
@[simp] theorem Dev.onSearch_ins (f : Search → Search) (d : Dev) : (d.onSearch f).ins = d.ins := rfl
@[simp] theorem Dev.onSearch_mgr (f : Search → Search) (d : Dev) : (d.onSearch f).mgr = d.mgr := rfl
@[simp] theorem Dev.onSearch_fmt (f : Search → Search) (d : Dev) : (d.onSearch f).fmt = d.fmt := rfl
@[simp] theorem Dev.onSearch_tx (f : Search → Search) (d : Dev) : (d.onSearch f).tx = d.tx := rfl
@[simp] theorem Dev.onSearch_attn (f : Search → Search) (d : Dev) : (d.onSearch f).attn = d.attn := rfl
@[simp] theorem Dev.onSearch_pins (f : Search → Search) (d : Dev) : (d.onSearch f).pins = d.pins := rfl
@[simp] theorem Dev.onSearch_prog (f : Search → Search) (d : Dev) : (d.onSearch f).prog = d.prog := rfl
@[simp] theorem Dev.onSearch_engineQ (f : Search → Search) (d : Dev) : (d.onSearch f).engineQ = d.engineQ := rfl
@[simp] theorem Dev.onSearch_tasks (f : Search → Search) (d : Dev) : (d.onSearch f).tasks = d.tasks := rfl
@[simp] theorem Dev.onSearch_wait (f : Search → Search) (d : Dev) : (d.onSearch f).wait = d.wait := rfl
@[simp] theorem Dev.onSearch_rbuf (f : Search → Search) (d : Dev) : (d.onSearch f).rbuf = d.rbuf := rfl
@[simp] theorem Dev.onSearch_saved (f : Search → Search) (d : Dev) : (d.onSearch f).saved = d.saved := rfl
@[simp] theorem Dev.onSearch_free (f : Search → Search) (d : Dev) : (d.onSearch f).free = d.free := rfl

@[simp] theorem Dev.onSweep_reader (f : Sweep → Sweep) (d : Dev) : (d.onSweep f).reader = d.reader := rfl
@[simp] theorem Dev.onSweep_cfg (f : Sweep → Sweep) (d : Dev) : (d.onSweep f).cfg = d.cfg := rfl
@[simp] theorem Dev.onSweep_statusImg (f : Sweep → Sweep) (d : Dev) : (d.onSweep f).statusImg = d.statusImg := rfl
@[simp] theorem Dev.onSweep_mx (f : Sweep → Sweep) (d : Dev) : (d.onSweep f).mx = d.mx := rfl
@[simp] theorem Dev.onSweep_mu (f : Sweep → Sweep) (d : Dev) : (d.onSweep f).mu = d.mu := rfl
@[simp] theorem Dev.onSweep_nets (f : Sweep → Sweep) (d : Dev) : (d.onSweep f).nets = d.nets := rfl
@[simp] theorem Dev.onSweep_search (f : Sweep → Sweep) (d : Dev) : (d.onSweep f).search = d.search := rfl
@[simp] theorem Dev.onSweep_sweep (f : Sweep → Sweep) (d : Dev) : (d.onSweep f).sweep = f d.sweep := rfl
@[simp] theorem Dev.onSweep_learn (f : Sweep → Sweep) (d : Dev) : (d.onSweep f).learn = d.learn := rfl
@[simp] theorem Dev.onSweep_hv (f : Sweep → Sweep) (d : Dev) : (d.onSweep f).hv = d.hv := rfl
@[simp] theorem Dev.onSweep_ins (f : Sweep → Sweep) (d : Dev) : (d.onSweep f).ins = d.ins := rfl
@[simp] theorem Dev.onSweep_mgr (f : Sweep → Sweep) (d : Dev) : (d.onSweep f).mgr = d.mgr := rfl
@[simp] theorem Dev.onSweep_fmt (f : Sweep → Sweep) (d : Dev) : (d.onSweep f).fmt = d.fmt := rfl
@[simp] theorem Dev.onSweep_tx (f : Sweep → Sweep) (d : Dev) : (d.onSweep f).tx = d.tx := rfl
@[simp] theorem Dev.onSweep_attn (f : Sweep → Sweep) (d : Dev) : (d.onSweep f).attn = d.attn := rfl
@[simp] theorem Dev.onSweep_pins (f : Sweep → Sweep) (d : Dev) : (d.onSweep f).pins = d.pins := rfl
@[simp] theorem Dev.onSweep_prog (f : Sweep → Sweep) (d : Dev) : (d.onSweep f).prog = d.prog := rfl
@[simp] theorem Dev.onSweep_engineQ (f : Sweep → Sweep) (d : Dev) : (d.onSweep f).engineQ = d.engineQ := rfl
@[simp] theorem Dev.onSweep_tasks (f : Sweep → Sweep) (d : Dev) : (d.onSweep f).tasks = d.tasks := rfl
@[simp] theorem Dev.onSweep_wait (f : Sweep → Sweep) (d : Dev) : (d.onSweep f).wait = d.wait := rfl
@[simp] theorem Dev.onSweep_rbuf (f : Sweep → Sweep) (d : Dev) : (d.onSweep f).rbuf = d.rbuf := rfl
@[simp] theorem Dev.onSweep_saved (f : Sweep → Sweep) (d : Dev) : (d.onSweep f).saved = d.saved := rfl
@[simp] theorem Dev.onSweep_free (f : Sweep → Sweep) (d : Dev) : (d.onSweep f).free = d.free := rfl

@[simp] theorem Dev.onLearn_reader (f : Learn → Learn) (d : Dev) : (d.onLearn f).reader = d.reader := rfl
@[simp] theorem Dev.onLearn_cfg (f : Learn → Learn) (d : Dev) : (d.onLearn f).cfg = d.cfg := rfl
@[simp] theorem Dev.onLearn_statusImg (f : Learn → Learn) (d : Dev) : (d.onLearn f).statusImg = d.statusImg := rfl
@[simp] theorem Dev.onLearn_mx (f : Learn → Learn) (d : Dev) : (d.onLearn f).mx = d.mx := rfl
@[simp] theorem Dev.onLearn_mu (f : Learn → Learn) (d : Dev) : (d.onLearn f).mu = d.mu := rfl
@[simp] theorem Dev.onLearn_nets (f : Learn → Learn) (d : Dev) : (d.onLearn f).nets = d.nets := rfl
@[simp] theorem Dev.onLearn_search (f : Learn → Learn) (d : Dev) : (d.onLearn f).search = d.search := rfl
@[simp] theorem Dev.onLearn_sweep (f : Learn → Learn) (d : Dev) : (d.onLearn f).sweep = d.sweep := rfl
@[simp] theorem Dev.onLearn_learn (f : Learn → Learn) (d : Dev) : (d.onLearn f).learn = f d.learn := rfl
@[simp] theorem Dev.onLearn_hv (f : Learn → Learn) (d : Dev) : (d.onLearn f).hv = d.hv := rfl
@[simp] theorem Dev.onLearn_ins (f : Learn → Learn) (d : Dev) : (d.onLearn f).ins = d.ins := rfl
@[simp] theorem Dev.onLearn_mgr (f : Learn → Learn) (d : Dev) : (d.onLearn f).mgr = d.mgr := rfl
@[simp] theorem Dev.onLearn_fmt (f : Learn → Learn) (d : Dev) : (d.onLearn f).fmt = d.fmt := rfl
@[simp] theorem Dev.onLearn_tx (f : Learn → Learn) (d : Dev) : (d.onLearn f).tx = d.tx := rfl
@[simp] theorem Dev.onLearn_attn (f : Learn → Learn) (d : Dev) : (d.onLearn f).attn = d.attn := rfl
@[simp] theorem Dev.onLearn_pins (f : Learn → Learn) (d : Dev) : (d.onLearn f).pins = d.pins := rfl
@[simp] theorem Dev.onLearn_prog (f : Learn → Learn) (d : Dev) : (d.onLearn f).prog = d.prog := rfl
@[simp] theorem Dev.onLearn_engineQ (f : Learn → Learn) (d : Dev) : (d.onLearn f).engineQ = d.engineQ := rfl
@[simp] theorem Dev.onLearn_tasks (f : Learn → Learn) (d : Dev) : (d.onLearn f).tasks = d.tasks := rfl
@[simp] theorem Dev.onLearn_wait (f : Learn → Learn) (d : Dev) : (d.onLearn f).wait = d.wait := rfl
@[simp] theorem Dev.onLearn_rbuf (f : Learn → Learn) (d : Dev) : (d.onLearn f).rbuf = d.rbuf := rfl
@[simp] theorem Dev.onLearn_saved (f : Learn → Learn) (d : Dev) : (d.onLearn f).saved = d.saved := rfl
@[simp] theorem Dev.onLearn_free (f : Learn → Learn) (d : Dev) : (d.onLearn f).free = d.free := rfl

@[simp] theorem Dev.onHv_reader (f : Hv → Hv) (d : Dev) : (d.onHv f).reader = d.reader := rfl
@[simp] theorem Dev.onHv_cfg (f : Hv → Hv) (d : Dev) : (d.onHv f).cfg = d.cfg := rfl
@[simp] theorem Dev.onHv_statusImg (f : Hv → Hv) (d : Dev) : (d.onHv f).statusImg = d.statusImg := rfl
@[simp] theorem Dev.onHv_mx (f : Hv → Hv) (d : Dev) : (d.onHv f).mx = d.mx := rfl
@[simp] theorem Dev.onHv_mu (f : Hv → Hv) (d : Dev) : (d.onHv f).mu = d.mu := rfl
@[simp] theorem Dev.onHv_nets (f : Hv → Hv) (d : Dev) : (d.onHv f).nets = d.nets := rfl
@[simp] theorem Dev.onHv_search (f : Hv → Hv) (d : Dev) : (d.onHv f).search = d.search := rfl
@[simp] theorem Dev.onHv_sweep (f : Hv → Hv) (d : Dev) : (d.onHv f).sweep = d.sweep := rfl
@[simp] theorem Dev.onHv_learn (f : Hv → Hv) (d : Dev) : (d.onHv f).learn = d.learn := rfl
@[simp] theorem Dev.onHv_hv (f : Hv → Hv) (d : Dev) : (d.onHv f).hv = f d.hv := rfl
@[simp] theorem Dev.onHv_ins (f : Hv → Hv) (d : Dev) : (d.onHv f).ins = d.ins := rfl
@[simp] theorem Dev.onHv_mgr (f : Hv → Hv) (d : Dev) : (d.onHv f).mgr = d.mgr := rfl
@[simp] theorem Dev.onHv_fmt (f : Hv → Hv) (d : Dev) : (d.onHv f).fmt = d.fmt := rfl
@[simp] theorem Dev.onHv_tx (f : Hv → Hv) (d : Dev) : (d.onHv f).tx = d.tx := rfl
@[simp] theorem Dev.onHv_attn (f : Hv → Hv) (d : Dev) : (d.onHv f).attn = d.attn := rfl
@[simp] theorem Dev.onHv_pins (f : Hv → Hv) (d : Dev) : (d.onHv f).pins = d.pins := rfl
@[simp] theorem Dev.onHv_prog (f : Hv → Hv) (d : Dev) : (d.onHv f).prog = d.prog := rfl
@[simp] theorem Dev.onHv_engineQ (f : Hv → Hv) (d : Dev) : (d.onHv f).engineQ = d.engineQ := rfl
@[simp] theorem Dev.onHv_tasks (f : Hv → Hv) (d : Dev) : (d.onHv f).tasks = d.tasks := rfl
@[simp] theorem Dev.onHv_wait (f : Hv → Hv) (d : Dev) : (d.onHv f).wait = d.wait := rfl
@[simp] theorem Dev.onHv_rbuf (f : Hv → Hv) (d : Dev) : (d.onHv f).rbuf = d.rbuf := rfl
@[simp] theorem Dev.onHv_saved (f : Hv → Hv) (d : Dev) : (d.onHv f).saved = d.saved := rfl
@[simp] theorem Dev.onHv_free (f : Hv → Hv) (d : Dev) : (d.onHv f).free = d.free := rfl

@[simp] theorem Dev.onIns_reader (f : Insul → Insul) (d : Dev) : (d.onIns f).reader = d.reader := rfl
@[simp] theorem Dev.onIns_cfg (f : Insul → Insul) (d : Dev) : (d.onIns f).cfg = d.cfg := rfl
@[simp] theorem Dev.onIns_statusImg (f : Insul → Insul) (d : Dev) : (d.onIns f).statusImg = d.statusImg := rfl
@[simp] theorem Dev.onIns_mx (f : Insul → Insul) (d : Dev) : (d.onIns f).mx = d.mx := rfl
@[simp] theorem Dev.onIns_mu (f : Insul → Insul) (d : Dev) : (d.onIns f).mu = d.mu := rfl
@[simp] theorem Dev.onIns_nets (f : Insul → Insul) (d : Dev) : (d.onIns f).nets = d.nets := rfl
@[simp] theorem Dev.onIns_search (f : Insul → Insul) (d : Dev) : (d.onIns f).search = d.search := rfl
@[simp] theorem Dev.onIns_sweep (f : Insul → Insul) (d : Dev) : (d.onIns f).sweep = d.sweep := rfl
@[simp] theorem Dev.onIns_learn (f : Insul → Insul) (d : Dev) : (d.onIns f).learn = d.learn := rfl
@[simp] theorem Dev.onIns_hv (f : Insul → Insul) (d : Dev) : (d.onIns f).hv = d.hv := rfl
@[simp] theorem Dev.onIns_ins (f : Insul → Insul) (d : Dev) : (d.onIns f).ins = f d.ins := rfl
@[simp] theorem Dev.onIns_mgr (f : Insul → Insul) (d : Dev) : (d.onIns f).mgr = d.mgr := rfl
@[simp] theorem Dev.onIns_fmt (f : Insul → Insul) (d : Dev) : (d.onIns f).fmt = d.fmt := rfl
@[simp] theorem Dev.onIns_tx (f : Insul → Insul) (d : Dev) : (d.onIns f).tx = d.tx := rfl
@[simp] theorem Dev.onIns_attn (f : Insul → Insul) (d : Dev) : (d.onIns f).attn = d.attn := rfl
@[simp] theorem Dev.onIns_pins (f : Insul → Insul) (d : Dev) : (d.onIns f).pins = d.pins := rfl
@[simp] theorem Dev.onIns_prog (f : Insul → Insul) (d : Dev) : (d.onIns f).prog = d.prog := rfl
@[simp] theorem Dev.onIns_engineQ (f : Insul → Insul) (d : Dev) : (d.onIns f).engineQ = d.engineQ := rfl
@[simp] theorem Dev.onIns_tasks (f : Insul → Insul) (d : Dev) : (d.onIns f).tasks = d.tasks := rfl
@[simp] theorem Dev.onIns_wait (f : Insul → Insul) (d : Dev) : (d.onIns f).wait = d.wait := rfl
@[simp] theorem Dev.onIns_rbuf (f : Insul → Insul) (d : Dev) : (d.onIns f).rbuf = d.rbuf := rfl
@[simp] theorem Dev.onIns_saved (f : Insul → Insul) (d : Dev) : (d.onIns f).saved = d.saved := rfl
@[simp] theorem Dev.onIns_free (f : Insul → Insul) (d : Dev) : (d.onIns f).free = d.free := rfl

@[simp] theorem Dev.onMgr_reader (f : Manager → Manager) (d : Dev) : (d.onMgr f).reader = d.reader := rfl
@[simp] theorem Dev.onMgr_cfg (f : Manager → Manager) (d : Dev) : (d.onMgr f).cfg = d.cfg := rfl
@[simp] theorem Dev.onMgr_statusImg (f : Manager → Manager) (d : Dev) : (d.onMgr f).statusImg = d.statusImg := rfl
@[simp] theorem Dev.onMgr_mx (f : Manager → Manager) (d : Dev) : (d.onMgr f).mx = d.mx := rfl
@[simp] theorem Dev.onMgr_mu (f : Manager → Manager) (d : Dev) : (d.onMgr f).mu = d.mu := rfl
@[simp] theorem Dev.onMgr_nets (f : Manager → Manager) (d : Dev) : (d.onMgr f).nets = d.nets := rfl
@[simp] theorem Dev.onMgr_search (f : Manager → Manager) (d : Dev) : (d.onMgr f).search = d.search := rfl
@[simp] theorem Dev.onMgr_sweep (f : Manager → Manager) (d : Dev) : (d.onMgr f).sweep = d.sweep := rfl
@[simp] theorem Dev.onMgr_learn (f : Manager → Manager) (d : Dev) : (d.onMgr f).learn = d.learn := rfl
@[simp] theorem Dev.onMgr_hv (f : Manager → Manager) (d : Dev) : (d.onMgr f).hv = d.hv := rfl
@[simp] theorem Dev.onMgr_ins (f : Manager → Manager) (d : Dev) : (d.onMgr f).ins = d.ins := rfl
@[simp] theorem Dev.onMgr_mgr (f : Manager → Manager) (d : Dev) : (d.onMgr f).mgr = f d.mgr := rfl
@[simp] theorem Dev.onMgr_fmt (f : Manager → Manager) (d : Dev) : (d.onMgr f).fmt = d.fmt := rfl
@[simp] theorem Dev.onMgr_tx (f : Manager → Manager) (d : Dev) : (d.onMgr f).tx = d.tx := rfl
@[simp] theorem Dev.onMgr_attn (f : Manager → Manager) (d : Dev) : (d.onMgr f).attn = d.attn := rfl
@[simp] theorem Dev.onMgr_pins (f : Manager → Manager) (d : Dev) : (d.onMgr f).pins = d.pins := rfl
@[simp] theorem Dev.onMgr_prog (f : Manager → Manager) (d : Dev) : (d.onMgr f).prog = d.prog := rfl
@[simp] theorem Dev.onMgr_engineQ (f : Manager → Manager) (d : Dev) : (d.onMgr f).engineQ = d.engineQ := rfl
@[simp] theorem Dev.onMgr_tasks (f : Manager → Manager) (d : Dev) : (d.onMgr f).tasks = d.tasks := rfl
@[simp] theorem Dev.onMgr_wait (f : Manager → Manager) (d : Dev) : (d.onMgr f).wait = d.wait := rfl
@[simp] theorem Dev.onMgr_rbuf (f : Manager → Manager) (d : Dev) : (d.onMgr f).rbuf = d.rbuf := rfl
@[simp] theorem Dev.onMgr_saved (f : Manager → Manager) (d : Dev) : (d.onMgr f).saved = d.saved := rfl
@[simp] theorem Dev.onMgr_free (f : Manager → Manager) (d : Dev) : (d.onMgr f).free = d.free := rfl

@[simp] theorem Dev.onFmt_reader (f : Fmt → Fmt) (d : Dev) : (d.onFmt f).reader = d.reader := rfl
@[simp] theorem Dev.onFmt_cfg (f : Fmt → Fmt) (d : Dev) : (d.onFmt f).cfg = d.cfg := rfl
@[simp] theorem Dev.onFmt_statusImg (f : Fmt → Fmt) (d : Dev) : (d.onFmt f).statusImg = d.statusImg := rfl
@[simp] theorem Dev.onFmt_mx (f : Fmt → Fmt) (d : Dev) : (d.onFmt f).mx = d.mx := rfl
@[simp] theorem Dev.onFmt_mu (f : Fmt → Fmt) (d : Dev) : (d.onFmt f).mu = d.mu := rfl
@[simp] theorem Dev.onFmt_nets (f : Fmt → Fmt) (d : Dev) : (d.onFmt f).nets = d.nets := rfl
@[simp] theorem Dev.onFmt_search (f : Fmt → Fmt) (d : Dev) : (d.onFmt f).search = d.search := rfl
@[simp] theorem Dev.onFmt_sweep (f : Fmt → Fmt) (d : Dev) : (d.onFmt f).sweep = d.sweep := rfl
@[simp] theorem Dev.onFmt_learn (f : Fmt → Fmt) (d : Dev) : (d.onFmt f).learn = d.learn := rfl
@[simp] theorem Dev.onFmt_hv (f : Fmt → Fmt) (d : Dev) : (d.onFmt f).hv = d.hv := rfl
@[simp] theorem Dev.onFmt_ins (f : Fmt → Fmt) (d : Dev) : (d.onFmt f).ins = d.ins := rfl
@[simp] theorem Dev.onFmt_mgr (f : Fmt → Fmt) (d : Dev) : (d.onFmt f).mgr = d.mgr := rfl
@[simp] theorem Dev.onFmt_fmt (f : Fmt → Fmt) (d : Dev) : (d.onFmt f).fmt = f d.fmt := rfl
@[simp] theorem Dev.onFmt_tx (f : Fmt → Fmt) (d : Dev) : (d.onFmt f).tx = d.tx := rfl
@[simp] theorem Dev.onFmt_attn (f : Fmt → Fmt) (d : Dev) : (d.onFmt f).attn = d.attn := rfl
@[simp] theorem Dev.onFmt_pins (f : Fmt → Fmt) (d : Dev) : (d.onFmt f).pins = d.pins := rfl
@[simp] theorem Dev.onFmt_prog (f : Fmt → Fmt) (d : Dev) : (d.onFmt f).prog = d.prog := rfl
@[simp] theorem Dev.onFmt_engineQ (f : Fmt → Fmt) (d : Dev) : (d.onFmt f).engineQ = d.engineQ := rfl
@[simp] theorem Dev.onFmt_tasks (f : Fmt → Fmt) (d : Dev) : (d.onFmt f).tasks = d.tasks := rfl
@[simp] theorem Dev.onFmt_wait (f : Fmt → Fmt) (d : Dev) : (d.onFmt f).wait = d.wait := rfl
@[simp] theorem Dev.onFmt_rbuf (f : Fmt → Fmt) (d : Dev) : (d.onFmt f).rbuf = d.rbuf := rfl
@[simp] theorem Dev.onFmt_saved (f : Fmt → Fmt) (d : Dev) : (d.onFmt f).saved = d.saved := rfl
@[simp] theorem Dev.onFmt_free (f : Fmt → Fmt) (d : Dev) : (d.onFmt f).free = d.free := rfl

@[simp] theorem Dev.onTx_reader (f : Tx → Tx) (d : Dev) : (d.onTx f).reader = d.reader := rfl
@[simp] theorem Dev.onTx_cfg (f : Tx → Tx) (d : Dev) : (d.onTx f).cfg = d.cfg := rfl
@[simp] theorem Dev.onTx_statusImg (f : Tx → Tx) (d : Dev) : (d.onTx f).statusImg = d.statusImg := rfl
@[simp] theorem Dev.onTx_mx (f : Tx → Tx) (d : Dev) : (d.onTx f).mx = d.mx := rfl
@[simp] theorem Dev.onTx_mu (f : Tx → Tx) (d : Dev) : (d.onTx f).mu = d.mu := rfl
@[simp] theorem Dev.onTx_nets (f : Tx → Tx) (d : Dev) : (d.onTx f).nets = d.nets := rfl
@[simp] theorem Dev.onTx_search (f : Tx → Tx) (d : Dev) : (d.onTx f).search = d.search := rfl
@[simp] theorem Dev.onTx_sweep (f : Tx → Tx) (d : Dev) : (d.onTx f).sweep = d.sweep := rfl
@[simp] theorem Dev.onTx_learn (f : Tx → Tx) (d : Dev) : (d.onTx f).learn = d.learn := rfl
@[simp] theorem Dev.onTx_hv (f : Tx → Tx) (d : Dev) : (d.onTx f).hv = d.hv := rfl
@[simp] theorem Dev.onTx_ins (f : Tx → Tx) (d : Dev) : (d.onTx f).ins = d.ins := rfl
@[simp] theorem Dev.onTx_mgr (f : Tx → Tx) (d : Dev) : (d.onTx f).mgr = d.mgr := rfl
@[simp] theorem Dev.onTx_fmt (f : Tx → Tx) (d : Dev) : (d.onTx f).fmt = d.fmt := rfl
@[simp] theorem Dev.onTx_tx (f : Tx → Tx) (d : Dev) : (d.onTx f).tx = f d.tx := rfl
@[simp] theorem Dev.onTx_attn (f : Tx → Tx) (d : Dev) : (d.onTx f).attn = d.attn := rfl
@[simp] theorem Dev.onTx_pins (f : Tx → Tx) (d : Dev) : (d.onTx f).pins = d.pins := rfl
@[simp] theorem Dev.onTx_prog (f : Tx → Tx) (d : Dev) : (d.onTx f).prog = d.prog := rfl
@[simp] theorem Dev.onTx_engineQ (f : Tx → Tx) (d : Dev) : (d.onTx f).engineQ = d.engineQ := rfl
@[simp] theorem Dev.onTx_tasks (f : Tx → Tx) (d : Dev) : (d.onTx f).tasks = d.tasks := rfl
@[simp] theorem Dev.onTx_wait (f : Tx → Tx) (d : Dev) : (d.onTx f).wait = d.wait := rfl
@[simp] theorem Dev.onTx_rbuf (f : Tx → Tx) (d : Dev) : (d.onTx f).rbuf = d.rbuf := rfl
@[simp] theorem Dev.onTx_saved (f : Tx → Tx) (d : Dev) : (d.onTx f).saved = d.saved := rfl
@[simp] theorem Dev.onTx_free (f : Tx → Tx) (d : Dev) : (d.onTx f).free = d.free := rfl

@[simp] theorem Dev.onAttn_reader (f : Attn → Attn) (d : Dev) : (d.onAttn f).reader = d.reader := rfl
@[simp] theorem Dev.onAttn_cfg (f : Attn → Attn) (d : Dev) : (d.onAttn f).cfg = d.cfg := rfl
@[simp] theorem Dev.onAttn_statusImg (f : Attn → Attn) (d : Dev) : (d.onAttn f).statusImg = d.statusImg := rfl
@[simp] theorem Dev.onAttn_mx (f : Attn → Attn) (d : Dev) : (d.onAttn f).mx = d.mx := rfl
@[simp] theorem Dev.onAttn_mu (f : Attn → Attn) (d : Dev) : (d.onAttn f).mu = d.mu := rfl
@[simp] theorem Dev.onAttn_nets (f : Attn → Attn) (d : Dev) : (d.onAttn f).nets = d.nets := rfl
@[simp] theorem Dev.onAttn_search (f : Attn → Attn) (d : Dev) : (d.onAttn f).search = d.search := rfl
@[simp] theorem Dev.onAttn_sweep (f : Attn → Attn) (d : Dev) : (d.onAttn f).sweep = d.sweep := rfl
@[simp] theorem Dev.onAttn_learn (f : Attn → Attn) (d : Dev) : (d.onAttn f).learn = d.learn := rfl
@[simp] theorem Dev.onAttn_hv (f : Attn → Attn) (d : Dev) : (d.onAttn f).hv = d.hv := rfl
@[simp] theorem Dev.onAttn_ins (f : Attn → Attn) (d : Dev) : (d.onAttn f).ins = d.ins := rfl
@[simp] theorem Dev.onAttn_mgr (f : Attn → Attn) (d : Dev) : (d.onAttn f).mgr = d.mgr := rfl
@[simp] theorem Dev.onAttn_fmt (f : Attn → Attn) (d : Dev) : (d.onAttn f).fmt = d.fmt := rfl
@[simp] theorem Dev.onAttn_tx (f : Attn → Attn) (d : Dev) : (d.onAttn f).tx = d.tx := rfl
@[simp] theorem Dev.onAttn_attn (f : Attn → Attn) (d : Dev) : (d.onAttn f).attn = f d.attn := rfl
@[simp] theorem Dev.onAttn_pins (f : Attn → Attn) (d : Dev) : (d.onAttn f).pins = d.pins := rfl
@[simp] theorem Dev.onAttn_prog (f : Attn → Attn) (d : Dev) : (d.onAttn f).prog = d.prog := rfl
@[simp] theorem Dev.onAttn_engineQ (f : Attn → Attn) (d : Dev) : (d.onAttn f).engineQ = d.engineQ := rfl
@[simp] theorem Dev.onAttn_tasks (f : Attn → Attn) (d : Dev) : (d.onAttn f).tasks = d.tasks := rfl
@[simp] theorem Dev.onAttn_wait (f : Attn → Attn) (d : Dev) : (d.onAttn f).wait = d.wait := rfl
@[simp] theorem Dev.onAttn_rbuf (f : Attn → Attn) (d : Dev) : (d.onAttn f).rbuf = d.rbuf := rfl
@[simp] theorem Dev.onAttn_saved (f : Attn → Attn) (d : Dev) : (d.onAttn f).saved = d.saved := rfl
@[simp] theorem Dev.onAttn_free (f : Attn → Attn) (d : Dev) : (d.onAttn f).free = d.free := rfl

@[simp] theorem Dev.onProg_reader (f : Progress → Progress) (d : Dev) : (d.onProg f).reader = d.reader := rfl
@[simp] theorem Dev.onProg_cfg (f : Progress → Progress) (d : Dev) : (d.onProg f).cfg = d.cfg := rfl
@[simp] theorem Dev.onProg_statusImg (f : Progress → Progress) (d : Dev) : (d.onProg f).statusImg = d.statusImg := rfl
@[simp] theorem Dev.onProg_mx (f : Progress → Progress) (d : Dev) : (d.onProg f).mx = d.mx := rfl
@[simp] theorem Dev.onProg_mu (f : Progress → Progress) (d : Dev) : (d.onProg f).mu = d.mu := rfl
@[simp] theorem Dev.onProg_nets (f : Progress → Progress) (d : Dev) : (d.onProg f).nets = d.nets := rfl
@[simp] theorem Dev.onProg_search (f : Progress → Progress) (d : Dev) : (d.onProg f).search = d.search := rfl
@[simp] theorem Dev.onProg_sweep (f : Progress → Progress) (d : Dev) : (d.onProg f).sweep = d.sweep := rfl
@[simp] theorem Dev.onProg_learn (f : Progress → Progress) (d : Dev) : (d.onProg f).learn = d.learn := rfl
@[simp] theorem Dev.onProg_hv (f : Progress → Progress) (d : Dev) : (d.onProg f).hv = d.hv := rfl
@[simp] theorem Dev.onProg_ins (f : Progress → Progress) (d : Dev) : (d.onProg f).ins = d.ins := rfl
@[simp] theorem Dev.onProg_mgr (f : Progress → Progress) (d : Dev) : (d.onProg f).mgr = d.mgr := rfl
@[simp] theorem Dev.onProg_fmt (f : Progress → Progress) (d : Dev) : (d.onProg f).fmt = d.fmt := rfl
@[simp] theorem Dev.onProg_tx (f : Progress → Progress) (d : Dev) : (d.onProg f).tx = d.tx := rfl
@[simp] theorem Dev.onProg_attn (f : Progress → Progress) (d : Dev) : (d.onProg f).attn = d.attn := rfl
@[simp] theorem Dev.onProg_pins (f : Progress → Progress) (d : Dev) : (d.onProg f).pins = d.pins := rfl
@[simp] theorem Dev.onProg_prog (f : Progress → Progress) (d : Dev) : (d.onProg f).prog = f d.prog := rfl
@[simp] theorem Dev.onProg_engineQ (f : Progress → Progress) (d : Dev) : (d.onProg f).engineQ = d.engineQ := rfl
@[simp] theorem Dev.onProg_tasks (f : Progress → Progress) (d : Dev) : (d.onProg f).tasks = d.tasks := rfl
@[simp] theorem Dev.onProg_wait (f : Progress → Progress) (d : Dev) : (d.onProg f).wait = d.wait := rfl
@[simp] theorem Dev.onProg_rbuf (f : Progress → Progress) (d : Dev) : (d.onProg f).rbuf = d.rbuf := rfl
@[simp] theorem Dev.onProg_saved (f : Progress → Progress) (d : Dev) : (d.onProg f).saved = d.saved := rfl
@[simp] theorem Dev.onProg_free (f : Progress → Progress) (d : Dev) : (d.onProg f).free = d.free := rfl

@[simp] theorem Dev.push_reader (ts : List Task) (d : Dev) : (d.push ts).reader = d.reader := rfl
@[simp] theorem Dev.push_cfg (ts : List Task) (d : Dev) : (d.push ts).cfg = d.cfg := rfl
@[simp] theorem Dev.push_statusImg (ts : List Task) (d : Dev) : (d.push ts).statusImg = d.statusImg := rfl
@[simp] theorem Dev.push_mx (ts : List Task) (d : Dev) : (d.push ts).mx = d.mx := rfl
@[simp] theorem Dev.push_mu (ts : List Task) (d : Dev) : (d.push ts).mu = d.mu := rfl
@[simp] theorem Dev.push_nets (ts : List Task) (d : Dev) : (d.push ts).nets = d.nets := rfl
@[simp] theorem Dev.push_search (ts : List Task) (d : Dev) : (d.push ts).search = d.search := rfl
@[simp] theorem Dev.push_sweep (ts : List Task) (d : Dev) : (d.push ts).sweep = d.sweep := rfl
@[simp] theorem Dev.push_learn (ts : List Task) (d : Dev) : (d.push ts).learn = d.learn := rfl
@[simp] theorem Dev.push_hv (ts : List Task) (d : Dev) : (d.push ts).hv = d.hv := rfl
@[simp] theorem Dev.push_ins (ts : List Task) (d : Dev) : (d.push ts).ins = d.ins := rfl
@[simp] theorem Dev.push_mgr (ts : List Task) (d : Dev) : (d.push ts).mgr = d.mgr := rfl
@[simp] theorem Dev.push_fmt (ts : List Task) (d : Dev) : (d.push ts).fmt = d.fmt := rfl
@[simp] theorem Dev.push_tx (ts : List Task) (d : Dev) : (d.push ts).tx = d.tx := rfl
@[simp] theorem Dev.push_attn (ts : List Task) (d : Dev) : (d.push ts).attn = d.attn := rfl
@[simp] theorem Dev.push_pins (ts : List Task) (d : Dev) : (d.push ts).pins = d.pins := rfl
@[simp] theorem Dev.push_prog (ts : List Task) (d : Dev) : (d.push ts).prog = d.prog := rfl
@[simp] theorem Dev.push_engineQ (ts : List Task) (d : Dev) : (d.push ts).engineQ = d.engineQ := rfl
@[simp] theorem Dev.push_tasks (ts : List Task) (d : Dev) : (d.push ts).tasks = ts ++ d.tasks := rfl
@[simp] theorem Dev.push_wait (ts : List Task) (d : Dev) : (d.push ts).wait = d.wait := rfl
@[simp] theorem Dev.push_rbuf (ts : List Task) (d : Dev) : (d.push ts).rbuf = d.rbuf := rfl
@[simp] theorem Dev.push_saved (ts : List Task) (d : Dev) : (d.push ts).saved = d.saved := rfl
@[simp] theorem Dev.push_free (ts : List Task) (d : Dev) : (d.push ts).free = d.free := rfl

@[simp] theorem Dev.goto_reader (ts : List Task) (d : Dev) : (d.goto ts).reader = d.reader := rfl
@[simp] theorem Dev.goto_cfg (ts : List Task) (d : Dev) : (d.goto ts).cfg = d.cfg := rfl
@[simp] theorem Dev.goto_statusImg (ts : List Task) (d : Dev) : (d.goto ts).statusImg = d.statusImg := rfl
@[simp] theorem Dev.goto_mx (ts : List Task) (d : Dev) : (d.goto ts).mx = d.mx := rfl
@[simp] theorem Dev.goto_mu (ts : List Task) (d : Dev) : (d.goto ts).mu = d.mu := rfl
@[simp] theorem Dev.goto_nets (ts : List Task) (d : Dev) : (d.goto ts).nets = d.nets := rfl
@[simp] theorem Dev.goto_search (ts : List Task) (d : Dev) : (d.goto ts).search = d.search := rfl
@[simp] theorem Dev.goto_sweep (ts : List Task) (d : Dev) : (d.goto ts).sweep = d.sweep := rfl
@[simp] theorem Dev.goto_learn (ts : List Task) (d : Dev) : (d.goto ts).learn = d.learn := rfl
@[simp] theorem Dev.goto_hv (ts : List Task) (d : Dev) : (d.goto ts).hv = d.hv := rfl
@[simp] theorem Dev.goto_ins (ts : List Task) (d : Dev) : (d.goto ts).ins = d.ins := rfl
@[simp] theorem Dev.goto_mgr (ts : List Task) (d : Dev) : (d.goto ts).mgr = d.mgr := rfl
@[simp] theorem Dev.goto_fmt (ts : List Task) (d : Dev) : (d.goto ts).fmt = d.fmt := rfl
@[simp] theorem Dev.goto_tx (ts : List Task) (d : Dev) : (d.goto ts).tx = d.tx := rfl
@[simp] theorem Dev.goto_attn (ts : List Task) (d : Dev) : (d.goto ts).attn = d.attn := rfl
@[simp] theorem Dev.goto_pins (ts : List Task) (d : Dev) : (d.goto ts).pins = d.pins := rfl
@[simp] theorem Dev.goto_prog (ts : List Task) (d : Dev) : (d.goto ts).prog = d.prog := rfl
@[simp] theorem Dev.goto_engineQ (ts : List Task) (d : Dev) : (d.goto ts).engineQ = d.engineQ := rfl
@[simp] theorem Dev.goto_tasks (ts : List Task) (d : Dev) : (d.goto ts).tasks = ts := rfl
@[simp] theorem Dev.goto_wait (ts : List Task) (d : Dev) : (d.goto ts).wait = .run := rfl
@[simp] theorem Dev.goto_rbuf (ts : List Task) (d : Dev) : (d.goto ts).rbuf = d.rbuf := rfl
@[simp] theorem Dev.goto_saved (ts : List Task) (d : Dev) : (d.goto ts).saved = d.saved := rfl
@[simp] theorem Dev.goto_free (ts : List Task) (d : Dev) : (d.goto ts).free = d.free := rfl

@[simp] theorem Dev.proceed_reader (d : Dev) : (d.proceed).reader = d.reader := rfl
@[simp] theorem Dev.proceed_cfg (d : Dev) : (d.proceed).cfg = d.cfg := rfl
@[simp] theorem Dev.proceed_statusImg (d : Dev) : (d.proceed).statusImg = d.statusImg := rfl
@[simp] theorem Dev.proceed_mx (d : Dev) : (d.proceed).mx = d.mx := rfl
@[simp] theorem Dev.proceed_mu (d : Dev) : (d.proceed).mu = d.mu := rfl
@[simp] theorem Dev.proceed_nets (d : Dev) : (d.proceed).nets = d.nets := rfl
@[simp] theorem Dev.proceed_search (d : Dev) : (d.proceed).search = d.search := rfl
@[simp] theorem Dev.proceed_sweep (d : Dev) : (d.proceed).sweep = d.sweep := rfl
@[simp] theorem Dev.proceed_learn (d : Dev) : (d.proceed).learn = d.learn := rfl
@[simp] theorem Dev.proceed_hv (d : Dev) : (d.proceed).hv = d.hv := rfl
@[simp] theorem Dev.proceed_ins (d : Dev) : (d.proceed).ins = d.ins := rfl
@[simp] theorem Dev.proceed_mgr (d : Dev) : (d.proceed).mgr = d.mgr := rfl
@[simp] theorem Dev.proceed_fmt (d : Dev) : (d.proceed).fmt = d.fmt := rfl
@[simp] theorem Dev.proceed_tx (d : Dev) : (d.proceed).tx = d.tx := rfl
@[simp] theorem Dev.proceed_attn (d : Dev) : (d.proceed).attn = d.attn := rfl
@[simp] theorem Dev.proceed_pins (d : Dev) : (d.proceed).pins = d.pins := rfl
@[simp] theorem Dev.proceed_prog (d : Dev) : (d.proceed).prog = d.prog := rfl
@[simp] theorem Dev.proceed_engineQ (d : Dev) : (d.proceed).engineQ = d.engineQ := rfl
@[simp] theorem Dev.proceed_tasks (d : Dev) : (d.proceed).tasks = d.tasks := rfl
@[simp] theorem Dev.proceed_wait (d : Dev) : (d.proceed).wait = .run := rfl
@[simp] theorem Dev.proceed_rbuf (d : Dev) : (d.proceed).rbuf = d.rbuf := rfl
@[simp] theorem Dev.proceed_saved (d : Dev) : (d.proceed).saved = d.saved := rfl
@[simp] theorem Dev.proceed_free (d : Dev) : (d.proceed).free = d.free := rfl

@[simp] theorem Dev.clearBuf_reader (d : Dev) : (d.clearBuf).reader = d.reader := rfl
@[simp] theorem Dev.clearBuf_cfg (d : Dev) : (d.clearBuf).cfg = d.cfg := rfl
@[simp] theorem Dev.clearBuf_statusImg (d : Dev) : (d.clearBuf).statusImg = d.statusImg := rfl
@[simp] theorem Dev.clearBuf_mx (d : Dev) : (d.clearBuf).mx = d.mx := rfl
@[simp] theorem Dev.clearBuf_mu (d : Dev) : (d.clearBuf).mu = d.mu := rfl
@[simp] theorem Dev.clearBuf_nets (d : Dev) : (d.clearBuf).nets = d.nets := rfl
@[simp] theorem Dev.clearBuf_search (d : Dev) : (d.clearBuf).search = d.search := rfl
@[simp] theorem Dev.clearBuf_sweep (d : Dev) : (d.clearBuf).sweep = d.sweep := rfl
@[simp] theorem Dev.clearBuf_learn (d : Dev) : (d.clearBuf).learn = d.learn := rfl
@[simp] theorem Dev.clearBuf_hv (d : Dev) : (d.clearBuf).hv = d.hv := rfl
@[simp] theorem Dev.clearBuf_ins (d : Dev) : (d.clearBuf).ins = d.ins := rfl
@[simp] theorem Dev.clearBuf_mgr (d : Dev) : (d.clearBuf).mgr = d.mgr := rfl
@[simp] theorem Dev.clearBuf_fmt (d : Dev) : (d.clearBuf).fmt = d.fmt := rfl
@[simp] theorem Dev.clearBuf_tx (d : Dev) : (d.clearBuf).tx = d.tx := rfl
@[simp] theorem Dev.clearBuf_attn (d : Dev) : (d.clearBuf).attn = d.attn := rfl
@[simp] theorem Dev.clearBuf_pins (d : Dev) : (d.clearBuf).pins = d.pins := rfl
@[simp] theorem Dev.clearBuf_prog (d : Dev) : (d.clearBuf).prog = d.prog := rfl
@[simp] theorem Dev.clearBuf_engineQ (d : Dev) : (d.clearBuf).engineQ = d.engineQ := rfl
@[simp] theorem Dev.clearBuf_tasks (d : Dev) : (d.clearBuf).tasks = d.tasks := rfl
@[simp] theorem Dev.clearBuf_wait (d : Dev) : (d.clearBuf).wait = d.wait := rfl
@[simp] theorem Dev.clearBuf_rbuf (d : Dev) : (d.clearBuf).rbuf = [] := rfl
@[simp] theorem Dev.clearBuf_saved (d : Dev) : (d.clearBuf).saved = d.saved := rfl
@[simp] theorem Dev.clearBuf_free (d : Dev) : (d.clearBuf).free = d.free := rfl

@[simp] theorem Dev.post_reader (off : Nat) (ws : List Word) (d : Dev) : (d.post off ws).reader = d.reader := rfl
@[simp] theorem Dev.post_cfg (off : Nat) (ws : List Word) (d : Dev) : (d.post off ws).cfg = d.cfg := rfl
@[simp] theorem Dev.post_statusImg (off : Nat) (ws : List Word) (d : Dev) : (d.post off ws).statusImg = d.statusImg := rfl
@[simp] theorem Dev.post_mx (off : Nat) (ws : List Word) (d : Dev) : (d.post off ws).mx = d.mx := rfl
@[simp] theorem Dev.post_mu (off : Nat) (ws : List Word) (d : Dev) : (d.post off ws).mu = d.mu := rfl
@[simp] theorem Dev.post_nets (off : Nat) (ws : List Word) (d : Dev) : (d.post off ws).nets = d.nets := rfl
@[simp] theorem Dev.post_search (off : Nat) (ws : List Word) (d : Dev) : (d.post off ws).search = d.search := rfl
@[simp] theorem Dev.post_sweep (off : Nat) (ws : List Word) (d : Dev) : (d.post off ws).sweep = d.sweep := rfl
@[simp] theorem Dev.post_learn (off : Nat) (ws : List Word) (d : Dev) : (d.post off ws).learn = d.learn := rfl
@[simp] theorem Dev.post_hv (off : Nat) (ws : List Word) (d : Dev) : (d.post off ws).hv = d.hv := rfl
@[simp] theorem Dev.post_ins (off : Nat) (ws : List Word) (d : Dev) : (d.post off ws).ins = d.ins := rfl
@[simp] theorem Dev.post_mgr (off : Nat) (ws : List Word) (d : Dev) : (d.post off ws).mgr = d.mgr := rfl
@[simp] theorem Dev.post_fmt (off : Nat) (ws : List Word) (d : Dev) : (d.post off ws).fmt = d.fmt := rfl
@[simp] theorem Dev.post_tx (off : Nat) (ws : List Word) (d : Dev) : (d.post off ws).tx = d.tx := rfl
@[simp] theorem Dev.post_attn (off : Nat) (ws : List Word) (d : Dev) : (d.post off ws).attn = d.attn := rfl
@[simp] theorem Dev.post_pins (off : Nat) (ws : List Word) (d : Dev) : (d.post off ws).pins = d.pins := rfl
@[simp] theorem Dev.post_prog (off : Nat) (ws : List Word) (d : Dev) : (d.post off ws).prog = d.prog := rfl
@[simp] theorem Dev.post_engineQ (off : Nat) (ws : List Word) (d : Dev) : (d.post off ws).engineQ = d.engineQ ++ writeBursts false ws.length off ws := rfl
@[simp] theorem Dev.post_tasks (off : Nat) (ws : List Word) (d : Dev) : (d.post off ws).tasks = d.tasks := rfl
@[simp] theorem Dev.post_wait (off : Nat) (ws : List Word) (d : Dev) : (d.post off ws).wait = d.wait := rfl
@[simp] theorem Dev.post_rbuf (off : Nat) (ws : List Word) (d : Dev) : (d.post off ws).rbuf = d.rbuf := rfl
@[simp] theorem Dev.post_saved (off : Nat) (ws : List Word) (d : Dev) : (d.post off ws).saved = d.saved := rfl
@[simp] theorem Dev.post_free (off : Nat) (ws : List Word) (d : Dev) : (d.post off ws).free = d.free := rfl

@[simp] theorem Dev.issueWrite_reader (off : Nat) (ws : List Word) (d : Dev) : (d.issueWrite off ws).reader = d.reader := rfl
@[simp] theorem Dev.issueWrite_cfg (off : Nat) (ws : List Word) (d : Dev) : (d.issueWrite off ws).cfg = d.cfg := rfl
@[simp] theorem Dev.issueWrite_statusImg (off : Nat) (ws : List Word) (d : Dev) : (d.issueWrite off ws).statusImg = d.statusImg := rfl
@[simp] theorem Dev.issueWrite_mx (off : Nat) (ws : List Word) (d : Dev) : (d.issueWrite off ws).mx = d.mx := rfl
@[simp] theorem Dev.issueWrite_mu (off : Nat) (ws : List Word) (d : Dev) : (d.issueWrite off ws).mu = d.mu := rfl
@[simp] theorem Dev.issueWrite_nets (off : Nat) (ws : List Word) (d : Dev) : (d.issueWrite off ws).nets = d.nets := rfl
@[simp] theorem Dev.issueWrite_search (off : Nat) (ws : List Word) (d : Dev) : (d.issueWrite off ws).search = d.search := rfl
@[simp] theorem Dev.issueWrite_sweep (off : Nat) (ws : List Word) (d : Dev) : (d.issueWrite off ws).sweep = d.sweep := rfl
@[simp] theorem Dev.issueWrite_learn (off : Nat) (ws : List Word) (d : Dev) : (d.issueWrite off ws).learn = d.learn := rfl
@[simp] theorem Dev.issueWrite_hv (off : Nat) (ws : List Word) (d : Dev) : (d.issueWrite off ws).hv = d.hv := rfl
@[simp] theorem Dev.issueWrite_ins (off : Nat) (ws : List Word) (d : Dev) : (d.issueWrite off ws).ins = d.ins := rfl
@[simp] theorem Dev.issueWrite_mgr (off : Nat) (ws : List Word) (d : Dev) : (d.issueWrite off ws).mgr = d.mgr := rfl
@[simp] theorem Dev.issueWrite_fmt (off : Nat) (ws : List Word) (d : Dev) : (d.issueWrite off ws).fmt = d.fmt := rfl
@[simp] theorem Dev.issueWrite_tx (off : Nat) (ws : List Word) (d : Dev) : (d.issueWrite off ws).tx = d.tx := rfl
@[simp] theorem Dev.issueWrite_attn (off : Nat) (ws : List Word) (d : Dev) : (d.issueWrite off ws).attn = d.attn := rfl
@[simp] theorem Dev.issueWrite_pins (off : Nat) (ws : List Word) (d : Dev) : (d.issueWrite off ws).pins = d.pins := rfl
@[simp] theorem Dev.issueWrite_prog (off : Nat) (ws : List Word) (d : Dev) : (d.issueWrite off ws).prog = d.prog := rfl
@[simp] theorem Dev.issueWrite_engineQ (off : Nat) (ws : List Word) (d : Dev) : (d.issueWrite off ws).engineQ = d.engineQ ++ writeBursts true ws.length off ws := rfl
@[simp] theorem Dev.issueWrite_tasks (off : Nat) (ws : List Word) (d : Dev) : (d.issueWrite off ws).tasks = d.tasks := rfl
@[simp] theorem Dev.issueWrite_wait (off : Nat) (ws : List Word) (d : Dev) : (d.issueWrite off ws).wait = .mem := rfl
@[simp] theorem Dev.issueWrite_rbuf (off : Nat) (ws : List Word) (d : Dev) : (d.issueWrite off ws).rbuf = d.rbuf := rfl
@[simp] theorem Dev.issueWrite_saved (off : Nat) (ws : List Word) (d : Dev) : (d.issueWrite off ws).saved = d.saved := rfl
@[simp] theorem Dev.issueWrite_free (off : Nat) (ws : List Word) (d : Dev) : (d.issueWrite off ws).free = d.free := rfl

@[simp] theorem Dev.raise_reader (s : BitVec 3) (d : Dev) : (d.raise s).reader = d.reader := rfl
@[simp] theorem Dev.raise_cfg (s : BitVec 3) (d : Dev) : (d.raise s).cfg = d.cfg := rfl
@[simp] theorem Dev.raise_statusImg (s : BitVec 3) (d : Dev) : (d.raise s).statusImg = d.statusImg := rfl
@[simp] theorem Dev.raise_mx (s : BitVec 3) (d : Dev) : (d.raise s).mx = d.mx := rfl
@[simp] theorem Dev.raise_mu (s : BitVec 3) (d : Dev) : (d.raise s).mu = d.mu := rfl
@[simp] theorem Dev.raise_nets (s : BitVec 3) (d : Dev) : (d.raise s).nets = d.nets := rfl
@[simp] theorem Dev.raise_search (s : BitVec 3) (d : Dev) : (d.raise s).search = d.search := rfl
@[simp] theorem Dev.raise_sweep (s : BitVec 3) (d : Dev) : (d.raise s).sweep = d.sweep := rfl
@[simp] theorem Dev.raise_learn (s : BitVec 3) (d : Dev) : (d.raise s).learn = d.learn := rfl
@[simp] theorem Dev.raise_hv (s : BitVec 3) (d : Dev) : (d.raise s).hv = d.hv := rfl
@[simp] theorem Dev.raise_ins (s : BitVec 3) (d : Dev) : (d.raise s).ins = d.ins := rfl
@[simp] theorem Dev.raise_mgr (s : BitVec 3) (d : Dev) : (d.raise s).mgr = d.mgr := rfl
@[simp] theorem Dev.raise_fmt (s : BitVec 3) (d : Dev) : (d.raise s).fmt = d.fmt := rfl
@[simp] theorem Dev.raise_tx (s : BitVec 3) (d : Dev) : (d.raise s).tx = d.tx := rfl
@[simp] theorem Dev.raise_attn (s : BitVec 3) (d : Dev) : (d.raise s).attn = { d.attn with req := d.attn.req ||| srcBit s } := rfl
@[simp] theorem Dev.raise_pins (s : BitVec 3) (d : Dev) : (d.raise s).pins = d.pins := rfl
@[simp] theorem Dev.raise_prog (s : BitVec 3) (d : Dev) : (d.raise s).prog = d.prog := rfl
@[simp] theorem Dev.raise_engineQ (s : BitVec 3) (d : Dev) : (d.raise s).engineQ = d.engineQ := rfl
@[simp] theorem Dev.raise_tasks (s : BitVec 3) (d : Dev) : (d.raise s).tasks = d.tasks := rfl
@[simp] theorem Dev.raise_wait (s : BitVec 3) (d : Dev) : (d.raise s).wait = d.wait := rfl
@[simp] theorem Dev.raise_rbuf (s : BitVec 3) (d : Dev) : (d.raise s).rbuf = d.rbuf := rfl
@[simp] theorem Dev.raise_saved (s : BitVec 3) (d : Dev) : (d.raise s).saved = d.saved := rfl
@[simp] theorem Dev.raise_free (s : BitVec 3) (d : Dev) : (d.raise s).free = d.free := rfl

@[simp] theorem Dev.syncAttn_reader (d : Dev) : (d.syncAttn).reader = d.reader := rfl
@[simp] theorem Dev.syncAttn_cfg (d : Dev) : (d.syncAttn).cfg = d.cfg := rfl
@[simp] theorem Dev.syncAttn_statusImg (d : Dev) : (d.syncAttn).statusImg = d.statusImg := rfl
@[simp] theorem Dev.syncAttn_mx (d : Dev) : (d.syncAttn).mx = d.mx := rfl
@[simp] theorem Dev.syncAttn_mu (d : Dev) : (d.syncAttn).mu = d.mu := rfl
@[simp] theorem Dev.syncAttn_nets (d : Dev) : (d.syncAttn).nets = d.nets := rfl
@[simp] theorem Dev.syncAttn_search (d : Dev) : (d.syncAttn).search = d.search := rfl
@[simp] theorem Dev.syncAttn_sweep (d : Dev) : (d.syncAttn).sweep = d.sweep := rfl
@[simp] theorem Dev.syncAttn_learn (d : Dev) : (d.syncAttn).learn = d.learn := rfl
@[simp] theorem Dev.syncAttn_hv (d : Dev) : (d.syncAttn).hv = d.hv := rfl
@[simp] theorem Dev.syncAttn_ins (d : Dev) : (d.syncAttn).ins = d.ins := rfl
@[simp] theorem Dev.syncAttn_mgr (d : Dev) : (d.syncAttn).mgr = d.mgr := rfl
@[simp] theorem Dev.syncAttn_fmt (d : Dev) : (d.syncAttn).fmt = d.fmt := rfl
@[simp] theorem Dev.syncAttn_tx (d : Dev) : (d.syncAttn).tx = d.tx := rfl
@[simp] theorem Dev.syncAttn_attn (d : Dev) : (d.syncAttn).attn = (((d.attn.follow 0 d.safetyCond).follow 5 d.printerCond).follow 7 d.idleCond).judge := rfl
@[simp] theorem Dev.syncAttn_pins (d : Dev) : (d.syncAttn).pins = d.pins := rfl
@[simp] theorem Dev.syncAttn_prog (d : Dev) : (d.syncAttn).prog = d.prog := rfl
@[simp] theorem Dev.syncAttn_engineQ (d : Dev) : (d.syncAttn).engineQ = d.engineQ := rfl
@[simp] theorem Dev.syncAttn_tasks (d : Dev) : (d.syncAttn).tasks = d.tasks := rfl
@[simp] theorem Dev.syncAttn_wait (d : Dev) : (d.syncAttn).wait = d.wait := rfl
@[simp] theorem Dev.syncAttn_rbuf (d : Dev) : (d.syncAttn).rbuf = d.rbuf := rfl
@[simp] theorem Dev.syncAttn_saved (d : Dev) : (d.syncAttn).saved = d.saved := rfl
@[simp] theorem Dev.syncAttn_free (d : Dev) : (d.syncAttn).free = d.free := rfl

@[simp] theorem Dev.startJob_reader (k : JobKind) (r : Rng) (n : Nat) (d : Dev) : (d.startJob k r n).reader = d.reader := rfl
@[simp] theorem Dev.startJob_cfg (k : JobKind) (r : Rng) (n : Nat) (d : Dev) : (d.startJob k r n).cfg = d.cfg := rfl
@[simp] theorem Dev.startJob_statusImg (k : JobKind) (r : Rng) (n : Nat) (d : Dev) : (d.startJob k r n).statusImg = d.statusImg := rfl
@[simp] theorem Dev.startJob_mx (k : JobKind) (r : Rng) (n : Nat) (d : Dev) : (d.startJob k r n).mx = d.mx := rfl
@[simp] theorem Dev.startJob_mu (k : JobKind) (r : Rng) (n : Nat) (d : Dev) : (d.startJob k r n).mu = (d.startJob k r n).mu := rfl
@[simp] theorem Dev.startJob_nets (k : JobKind) (r : Rng) (n : Nat) (d : Dev) : (d.startJob k r n).nets = d.nets := rfl
@[simp] theorem Dev.startJob_search (k : JobKind) (r : Rng) (n : Nat) (d : Dev) : (d.startJob k r n).search = d.search := rfl
@[simp] theorem Dev.startJob_sweep (k : JobKind) (r : Rng) (n : Nat) (d : Dev) : (d.startJob k r n).sweep = d.sweep := rfl
@[simp] theorem Dev.startJob_learn (k : JobKind) (r : Rng) (n : Nat) (d : Dev) : (d.startJob k r n).learn = d.learn := rfl
@[simp] theorem Dev.startJob_hv (k : JobKind) (r : Rng) (n : Nat) (d : Dev) : (d.startJob k r n).hv = d.hv := rfl
@[simp] theorem Dev.startJob_ins (k : JobKind) (r : Rng) (n : Nat) (d : Dev) : (d.startJob k r n).ins = d.ins := rfl
@[simp] theorem Dev.startJob_mgr (k : JobKind) (r : Rng) (n : Nat) (d : Dev) : (d.startJob k r n).mgr = d.mgr := rfl
@[simp] theorem Dev.startJob_fmt (k : JobKind) (r : Rng) (n : Nat) (d : Dev) : (d.startJob k r n).fmt = d.fmt := rfl
@[simp] theorem Dev.startJob_tx (k : JobKind) (r : Rng) (n : Nat) (d : Dev) : (d.startJob k r n).tx = d.tx := rfl
@[simp] theorem Dev.startJob_attn (k : JobKind) (r : Rng) (n : Nat) (d : Dev) : (d.startJob k r n).attn = d.attn := rfl
@[simp] theorem Dev.startJob_pins (k : JobKind) (r : Rng) (n : Nat) (d : Dev) : (d.startJob k r n).pins = d.pins := rfl
@[simp] theorem Dev.startJob_prog (k : JobKind) (r : Rng) (n : Nat) (d : Dev) : (d.startJob k r n).prog = d.prog := rfl
@[simp] theorem Dev.startJob_engineQ (k : JobKind) (r : Rng) (n : Nat) (d : Dev) : (d.startJob k r n).engineQ = d.engineQ := rfl
@[simp] theorem Dev.startJob_tasks (k : JobKind) (r : Rng) (n : Nat) (d : Dev) : (d.startJob k r n).tasks = d.tasks := rfl
@[simp] theorem Dev.startJob_wait (k : JobKind) (r : Rng) (n : Nat) (d : Dev) : (d.startJob k r n).wait = d.wait := rfl
@[simp] theorem Dev.startJob_rbuf (k : JobKind) (r : Rng) (n : Nat) (d : Dev) : (d.startJob k r n).rbuf = d.rbuf := rfl
@[simp] theorem Dev.startJob_saved (k : JobKind) (r : Rng) (n : Nat) (d : Dev) : (d.startJob k r n).saved = d.saved := rfl
@[simp] theorem Dev.startJob_free (k : JobKind) (r : Rng) (n : Nat) (d : Dev) : (d.startJob k r n).free = d.free := rfl

@[simp] theorem State.withDev_mem (f : Dev → Dev) (s : State) : (s.withDev f).mem = s.mem := rfl
@[simp] theorem State.withDev_ramBytes (f : Dev → Dev) (s : State) : (s.withDev f).ramBytes = s.ramBytes := rfl
@[simp] theorem State.withDev_hostQ (f : Dev → Dev) (s : State) : (s.withDev f).hostQ = s.hostQ := rfl
@[simp] theorem State.withDev_hostWait (f : Dev → Dev) (s : State) : (s.withDev f).hostWait = s.hostWait := rfl
@[simp] theorem State.withDev_hostData (f : Dev → Dev) (s : State) : (s.withDev f).hostData = s.hostData := rfl
@[simp] theorem State.withDev_lastGrant (f : Dev → Dev) (s : State) : (s.withDev f).lastGrant = s.lastGrant := rfl
@[simp] theorem State.withDev_dev (f : Dev → Dev) (s : State) : (s.withDev f).dev = (f s.dev).settle s.hostQ := rfl
@[simp] theorem State.withDev_pending (f : Dev → Dev) (s : State) : (s.withDev f).pending = s.pending := rfl

@[simp] theorem State.grantRead_mem (off : Nat) (s : State) : (s.grantRead off).mem = s.mem := rfl
@[simp] theorem State.grantRead_ramBytes (off : Nat) (s : State) : (s.grantRead off).ramBytes = s.ramBytes := rfl
@[simp] theorem State.grantRead_hostQ (off : Nat) (s : State) : (s.grantRead off).hostQ = s.hostQ := rfl
@[simp] theorem State.grantRead_hostWait (off : Nat) (s : State) : (s.grantRead off).hostWait = none := rfl
@[simp] theorem State.grantRead_hostData (off : Nat) (s : State) : (s.grantRead off).hostData = some (ramRead s.ramBytes s.mem off) := rfl
@[simp] theorem State.grantRead_lastGrant (off : Nat) (s : State) : (s.grantRead off).lastGrant = .host := rfl
@[simp] theorem State.grantRead_dev (off : Nat) (s : State) : (s.grantRead off).dev = s.dev := rfl
@[simp] theorem State.grantRead_pending (off : Nat) (s : State) : (s.grantRead off).pending = s.pending := rfl

@[simp] theorem State.actSoftReset_mem (s : State) : (s.actSoftReset).mem = s.mem := rfl
@[simp] theorem State.actSoftReset_ramBytes (s : State) : (s.actSoftReset).ramBytes = s.ramBytes := rfl
@[simp] theorem State.actSoftReset_hostQ (s : State) : (s.actSoftReset).hostQ = s.hostQ := rfl
@[simp] theorem State.actSoftReset_hostWait (s : State) : (s.actSoftReset).hostWait = none := rfl
@[simp] theorem State.actSoftReset_hostData (s : State) : (s.actSoftReset).hostData = s.hostData := rfl
@[simp] theorem State.actSoftReset_lastGrant (s : State) : (s.actSoftReset).lastGrant = s.lastGrant := rfl
@[simp] theorem State.actSoftReset_dev (s : State) : (s.actSoftReset).dev = s.dev.softReset.settle s.hostQ := by rw [State.actSoftReset, State.withDev_dev]
@[simp] theorem State.actSoftReset_pending (s : State) : (s.actSoftReset).pending = s.pending := rfl

@[simp] theorem State.acceptWrite_mem (off : Nat) (v : Word) (s : State) : (s.acceptWrite off v).mem = s.mem := rfl
@[simp] theorem State.acceptWrite_ramBytes (off : Nat) (v : Word) (s : State) : (s.acceptWrite off v).ramBytes = s.ramBytes := rfl
@[simp] theorem State.acceptWrite_hostQ (off : Nat) (v : Word) (s : State) : (s.acceptWrite off v).hostQ = s.hostQ ++ [(off, v)] := rfl
@[simp] theorem State.acceptWrite_hostWait (off : Nat) (v : Word) (s : State) : (s.acceptWrite off v).hostWait = none := rfl
@[simp] theorem State.acceptWrite_hostData (off : Nat) (v : Word) (s : State) : (s.acceptWrite off v).hostData = s.hostData := rfl
@[simp] theorem State.acceptWrite_lastGrant (off : Nat) (v : Word) (s : State) : (s.acceptWrite off v).lastGrant = s.lastGrant := rfl
@[simp] theorem State.acceptWrite_dev (off : Nat) (v : Word) (s : State) : (s.acceptWrite off v).dev = (s.dev.notice off).settle (s.hostQ ++ [(off, v)]) := by rw [State.acceptWrite, State.withDev_dev]
@[simp] theorem State.acceptWrite_pending (off : Nat) (v : Word) (s : State) : (s.acceptWrite off v).pending = s.pending := rfl

/-! ## The latch sets, and a SWEEP's map left unfinished -/

@[simp] theorem Dev.lockOut_reader (d : Dev) : d.lockOut.reader = d.reader := rfl
@[simp] theorem Dev.lockOut_cfg (d : Dev) : d.lockOut.cfg = d.cfg := rfl
@[simp] theorem Dev.lockOut_statusImg (d : Dev) : d.lockOut.statusImg = d.statusImg := rfl
@[simp] theorem Dev.lockOut_mx (d : Dev) : d.lockOut.mx = d.mx := rfl
@[simp] theorem Dev.lockOut_mu (d : Dev) : d.lockOut.mu = d.mu := rfl
@[simp] theorem Dev.lockOut_nets (d : Dev) : d.lockOut.nets = d.nets := rfl
@[simp] theorem Dev.lockOut_search (d : Dev) : d.lockOut.search = d.search := rfl
@[simp] theorem Dev.lockOut_sweep (d : Dev) : d.lockOut.sweep = d.sweep := rfl
@[simp] theorem Dev.lockOut_learn (d : Dev) : d.lockOut.learn = d.learn := rfl
@[simp] theorem Dev.lockOut_hv (d : Dev) : d.lockOut.hv = d.hv.lockOut (Config.freeTie d.free) := rfl
@[simp] theorem Dev.lockOut_ins (d : Dev) : d.lockOut.ins = d.ins := rfl
@[simp] theorem Dev.lockOut_mgr (d : Dev) : d.lockOut.mgr = d.mgr := rfl
@[simp] theorem Dev.lockOut_fmt (d : Dev) : d.lockOut.fmt = d.fmt := rfl
@[simp] theorem Dev.lockOut_tx (d : Dev) : d.lockOut.tx = d.tx := rfl
@[simp] theorem Dev.lockOut_attn (d : Dev) : d.lockOut.attn = d.attn := rfl
@[simp] theorem Dev.lockOut_pins (d : Dev) : d.lockOut.pins = d.pins := rfl
@[simp] theorem Dev.lockOut_prog (d : Dev) : d.lockOut.prog = d.prog := rfl
@[simp] theorem Dev.lockOut_engineQ (d : Dev) : d.lockOut.engineQ = d.engineQ := rfl
@[simp] theorem Dev.lockOut_tasks (d : Dev) : d.lockOut.tasks = d.tasks := rfl
@[simp] theorem Dev.lockOut_wait (d : Dev) : d.lockOut.wait = d.wait := rfl
@[simp] theorem Dev.lockOut_rbuf (d : Dev) : d.lockOut.rbuf = d.rbuf := rfl
@[simp] theorem Dev.lockOut_saved (d : Dev) : d.lockOut.saved = d.saved := rfl
@[simp] theorem Dev.lockOut_free (d : Dev) : d.lockOut.free = d.free + 1 := rfl

@[simp] theorem Dev.mapUnfinished_reader (d : Dev) : d.mapUnfinished.reader = d.reader := by unfold Dev.mapUnfinished; split <;> rfl
@[simp] theorem Dev.mapUnfinished_cfg (d : Dev) : d.mapUnfinished.cfg = d.cfg := by unfold Dev.mapUnfinished; split <;> rfl
@[simp] theorem Dev.mapUnfinished_statusImg (d : Dev) : d.mapUnfinished.statusImg = d.statusImg := by unfold Dev.mapUnfinished; split <;> rfl
@[simp] theorem Dev.mapUnfinished_mx (d : Dev) : d.mapUnfinished.mx = d.mx := by unfold Dev.mapUnfinished; split <;> rfl
@[simp] theorem Dev.mapUnfinished_mu (d : Dev) : d.mapUnfinished.mu = d.mu := by unfold Dev.mapUnfinished; split <;> rfl
theorem Dev.mapUnfinished_nets (d : Dev) :
    d.mapUnfinished.nets = if d.kind = some .sweep then { d.nets with mapValid := false } else d.nets := by
  unfold Dev.mapUnfinished; split <;> rfl
@[simp] theorem Dev.mapUnfinished_search (d : Dev) : d.mapUnfinished.search = d.search := by unfold Dev.mapUnfinished; split <;> rfl
@[simp] theorem Dev.mapUnfinished_sweep (d : Dev) : d.mapUnfinished.sweep = d.sweep := by unfold Dev.mapUnfinished; split <;> rfl
@[simp] theorem Dev.mapUnfinished_learn (d : Dev) : d.mapUnfinished.learn = d.learn := by unfold Dev.mapUnfinished; split <;> rfl
@[simp] theorem Dev.mapUnfinished_hv (d : Dev) : d.mapUnfinished.hv = d.hv := by unfold Dev.mapUnfinished; split <;> rfl
@[simp] theorem Dev.mapUnfinished_ins (d : Dev) : d.mapUnfinished.ins = d.ins := by unfold Dev.mapUnfinished; split <;> rfl
@[simp] theorem Dev.mapUnfinished_mgr (d : Dev) : d.mapUnfinished.mgr = d.mgr := by unfold Dev.mapUnfinished; split <;> rfl
@[simp] theorem Dev.mapUnfinished_fmt (d : Dev) : d.mapUnfinished.fmt = d.fmt := by unfold Dev.mapUnfinished; split <;> rfl
@[simp] theorem Dev.mapUnfinished_tx (d : Dev) : d.mapUnfinished.tx = d.tx := by unfold Dev.mapUnfinished; split <;> rfl
@[simp] theorem Dev.mapUnfinished_attn (d : Dev) : d.mapUnfinished.attn = d.attn := by unfold Dev.mapUnfinished; split <;> rfl
@[simp] theorem Dev.mapUnfinished_pins (d : Dev) : d.mapUnfinished.pins = d.pins := by unfold Dev.mapUnfinished; split <;> rfl
@[simp] theorem Dev.mapUnfinished_prog (d : Dev) : d.mapUnfinished.prog = d.prog := by unfold Dev.mapUnfinished; split <;> rfl
@[simp] theorem Dev.mapUnfinished_engineQ (d : Dev) : d.mapUnfinished.engineQ = d.engineQ := by unfold Dev.mapUnfinished; split <;> rfl
@[simp] theorem Dev.mapUnfinished_tasks (d : Dev) : d.mapUnfinished.tasks = d.tasks := by unfold Dev.mapUnfinished; split <;> rfl
@[simp] theorem Dev.mapUnfinished_wait (d : Dev) : d.mapUnfinished.wait = d.wait := by unfold Dev.mapUnfinished; split <;> rfl
@[simp] theorem Dev.mapUnfinished_rbuf (d : Dev) : d.mapUnfinished.rbuf = d.rbuf := by unfold Dev.mapUnfinished; split <;> rfl
@[simp] theorem Dev.mapUnfinished_saved (d : Dev) : d.mapUnfinished.saved = d.saved := by unfold Dev.mapUnfinished; split <;> rfl
@[simp] theorem Dev.mapUnfinished_free (d : Dev) : d.mapUnfinished.free = d.free := by unfold Dev.mapUnfinished; split <;> rfl

/-- At the expiry of the discharge timer the two-sample count restarts, or goes on (R105, R112). -/
theorem Hv.lockOut_below (tie : Bool) (h : Hv) : (h.lockOut tie).below = if tie then h.below else 0 := by
  cases tie
  · simp [Hv.lockOut]
  · by_cases hb : h.below = 0 <;> simp [Hv.lockOut, hb]

end Sys2Proof.Machine
end

