-- ==== Sys2Proof/Laws/Attention.lean ====
section
/-! SUPPORT. The attention unit: source sets bit by bit, the priority order, and what following the level conditions
changes. -/

namespace Sys2Proof.Machine

/-! ## Source sets -/

theorem hasSrc_or (a b : Byte) (x : BitVec 3) : hasSrc (a ||| b) x = (hasSrc a x || hasSrc b x) := by simp [hasSrc]

theorem hasSrc_and (a b : Byte) (x : BitVec 3) : hasSrc (a &&& b) x = (hasSrc a x && hasSrc b x) := by simp [hasSrc]

theorem hasSrc_not (a : Byte) (x : BitVec 3) : hasSrc (~~~a) x = !hasSrc a x := by
  have h : x.toNat < 8 := x.isLt
  simp [hasSrc, h]

theorem hasSrc_bit (s x : BitVec 3) : hasSrc (srcBit s) x = decide (x = s) := by
  revert s x; decide

/-- Two sets with the same sources are one set. -/
theorem srcSet_ext {a b : Byte} (h : ∀ x : BitVec 3, hasSrc a x = hasSrc b x) : a = b := by
  apply BitVec.eq_of_getLsbD_eq
  intro i hi
  have := h (BitVec.ofNat 3 i)
  simpa [hasSrc, BitVec.toNat_ofNat, Nat.mod_eq_of_lt hi] using this

/-! ## Priority (R198) -/

/-- The order ranks each source once: the source of rank k is the k-th. -/
theorem Attn.rank_lt (a : Attn) (s : BitVec 3) : a.rank s < 8 := (s - a.lowest - 1).isLt

theorem rank_inj (b x y : BitVec 3) (h : (x - b - 1).toNat = (y - b - 1).toNat) : x = y := by
  revert b x y; decide

theorem Attn.rank_inj (a : Attn) {x y : BitVec 3} (h : a.rank x = a.rank y) : x = y :=
  Machine.rank_inj a.lowest x y h

/-- In a list ordered by rank, the first source of a set has the lowest rank in it. -/
theorem find_least (r : BitVec 3 → Nat) (p : BitVec 3 → Bool) (l : List (BitVec 3)) (hl : l.Pairwise fun x y => r x < r y)
    {h : BitVec 3} (hf : l.find? p = some h) : p h = true ∧ ∀ x ∈ l, p x = true → r h ≤ r x := by
  induction l with
  | nil => simp at hf
  | cons y l ih =>
    rw [List.pairwise_cons] at hl
    rw [List.find?_cons] at hf
    cases hp : p y with
    | true =>
      simp only [hp] at hf
      cases hf
      refine ⟨hp, fun x hx _ => ?_⟩
      cases List.mem_cons.1 hx with
      | inl e => rw [e]
      | inr m => exact Nat.le_of_lt (hl.1 x m)
    | false =>
      simp only [hp] at hf
      have := ih hl.2 hf
      refine ⟨this.1, fun x hx hpx => ?_⟩
      cases List.mem_cons.1 hx with
      | inl e => rw [e, hp] at hpx; cases hpx
      | inr m => exact this.2 x m hpx

theorem order_pairwise (b : BitVec 3) :
    ([b + 1, b + 2, b + 3, b + 4, b + 5, b + 6, b + 7, b] : List (BitVec 3)).Pairwise fun x y =>
      (x - b - 1).toNat < (y - b - 1).toNat := by
  revert b; decide

theorem order_complete (b x : BitVec 3) : x ∈ ([b + 1, b + 2, b + 3, b + 4, b + 5, b + 6, b + 7, b] : List (BitVec 3)) := by
  revert b x; decide

/-- The highest source of a set: in the set, and of no greater rank than any in it. -/
theorem Attn.highest_some {a : Attn} {set : Byte} {h : BitVec 3} (hh : a.highest set = some h) :
    hasSrc set h = true ∧ ∀ x, hasSrc set x = true → a.rank h ≤ a.rank x := by
  have := find_least a.rank (hasSrc set ·) a.order (order_pairwise a.lowest) hh
  exact ⟨this.1, fun x hx => this.2 x (order_complete a.lowest x) hx⟩

theorem Attn.highest_none {a : Attn} {set : Byte} (hh : a.highest set = none) (x : BitVec 3) : hasSrc set x = false := by
  have := List.find?_eq_none.1 hh x (order_complete a.lowest x)
  simpa using this

/-- The highest source of a set is the one that no source of the set outranks. -/
theorem Attn.highest_eq_some {a : Attn} {set : Byte} {h : BitVec 3} :
    a.highest set = some h ↔ hasSrc set h = true ∧ ∀ x, hasSrc set x = true → a.rank h ≤ a.rank x := by
  refine ⟨Attn.highest_some, fun ⟨h1, h2⟩ => ?_⟩
  cases e : a.highest set with
  | none => rw [Attn.highest_none e h] at h1; cases h1
  | some k =>
    have hk := Attn.highest_some e
    rw [a.rank_inj (Nat.le_antisymm (h2 k hk.1) (hk.2 h h1))]

theorem Attn.highest_eq_none {a : Attn} {set : Byte} : a.highest set = none ↔ ∀ x, hasSrc set x = false := by
  refine ⟨fun h x => Attn.highest_none h x, fun h => ?_⟩
  cases e : a.highest set with
  | none => rfl
  | some k => have := (Attn.highest_some e).1; rw [h k] at this; cases this

/-! ## Following the level conditions (R197) -/

@[simp] theorem Attn.follow_svc (a : Attn) (s : BitVec 3) (c : Bool) : (a.follow s c).svc = a.svc := by
  unfold Attn.follow; split <;> rfl
@[simp] theorem Attn.follow_msk (a : Attn) (s : BitVec 3) (c : Bool) : (a.follow s c).msk = a.msk := by
  unfold Attn.follow; split <;> rfl
@[simp] theorem Attn.follow_lowest (a : Attn) (s : BitVec 3) (c : Bool) : (a.follow s c).lowest = a.lowest := by
  unfold Attn.follow; split <;> rfl
@[simp] theorem Attn.follow_autoclose (a : Attn) (s : BitVec 3) (c : Bool) : (a.follow s c).autoclose = a.autoclose := by
  unfold Attn.follow; split <;> rfl
@[simp] theorem Attn.follow_autorotate (a : Attn) (s : BitVec 3) (c : Bool) : (a.follow s c).autorotate = a.autorotate := by
  unfold Attn.follow; split <;> rfl
@[simp] theorem Attn.follow_selective (a : Attn) (s : BitVec 3) (c : Bool) : (a.follow s c).selective = a.selective := by
  unfold Attn.follow; split <;> rfl

/-- A level source's request follows its condition unless it is in service; every other request is kept. -/
theorem Attn.hasSrc_follow (a : Attn) (s : BitVec 3) (c : Bool) (x : BitVec 3) :
    hasSrc (a.follow s c).req x = if x = s ∧ hasSrc a.svc s = false then c else hasSrc a.req x := by
  unfold Attn.follow
  by_cases h : hasSrc a.svc s = true
  · simp [h]
  · by_cases hx : x = s
    · subst hx
      cases c <;> simp [h, hasSrc_or, hasSrc_and, hasSrc_not, hasSrc_bit]
    · cases c <;> simp [h, hx, hasSrc_or, hasSrc_and, hasSrc_not, hasSrc_bit]

/-- A follow whose request already is its condition changes nothing. -/
theorem Attn.follow_self {a : Attn} {s : BitVec 3} {c : Bool} (h : hasSrc a.svc s = false → hasSrc a.req s = c) :
    a.follow s c = a := by
  have hr : (a.follow s c).req = a.req := by
    apply srcSet_ext
    intro x
    rw [Attn.hasSrc_follow]
    by_cases hx : x = s ∧ hasSrc a.svc s = false
    · rw [if_pos hx, hx.1, h hx.2]
    · rw [if_neg hx]
  have hs : a.follow s c = { a with req := (a.follow s c).req } := by
    unfold Attn.follow
    split
    · rfl
    · rfl
  rw [hs, hr]

/-- The requests after the level sources follow. -/
theorem Dev.hasSrc_syncAttn (d : Dev) (x : BitVec 3) :
    hasSrc d.syncAttn.attn.req x =
      if x = 0 ∧ hasSrc d.attn.svc 0 = false then d.safetyCond
      else if x = 5 ∧ hasSrc d.attn.svc 5 = false then d.printerCond
      else if x = 7 ∧ hasSrc d.attn.svc 7 = false then d.idleCond
      else hasSrc d.attn.req x := by
  simp only [Dev.syncAttn_attn, Attn.judge, Attn.hasSrc_follow, Attn.follow_svc]
  by_cases h0 : x = 0
  · subst h0; simp
  · by_cases h5 : x = 5
    · subst h5; simp
    · simp only [h0, h5, false_and, if_false]

theorem Dev.syncAttn_attn_frame (d : Dev) :
    d.syncAttn.attn = { d.attn with req := d.syncAttn.attn.req, line := d.syncAttn.attn.line } := by
  have h : ∀ (a : Attn) s c, a.follow s c = { a with req := (a.follow s c).req } := by
    intro a s c
    unfold Attn.follow
    split <;> rfl
  rw [Dev.syncAttn_attn, Attn.judge]
  generalize e1 : d.attn.follow 0 d.safetyCond = a1
  generalize e2 : a1.follow 5 d.printerCond = a2
  generalize e3 : a2.follow 7 d.idleCond = a3
  have g1 := h d.attn 0 d.safetyCond
  have g2 := h a1 5 d.printerCond
  have g3 := h a2 7 d.idleCond
  rw [e1] at g1; rw [e2] at g2; rw [e3] at g3
  rw [g1] at g2; rw [g2] at g3
  rw [g3]

end Sys2Proof.Machine
end

