-- ==== Sys2Proof/Laws/Thread.lean ====
section
/-! SUPPORT. What follows the blocks (the level requests, the attention line, the status area image) and the running order's
thread: how it runs on, where it stops, and what is left of its accesses when it is given up. -/

namespace Sys2Proof.Machine

/-! ## The status area -/

/-- The writes of the status area words that changed, ascending (R174). -/
def changedPosts (off : Nat) : List Word → List Word → List Burst
  | w :: ws, o :: os => (if w = o then [] else [⟨off, 1, some [w], false, true⟩]) ++ changedPosts (off + 4) ws os
  | _, _ => []

theorem postChanged_eq (off : Nat) (ws os : List Word) (d : Dev) :
    postChanged off ws os d = { d with engineQ := d.engineQ ++ changedPosts off ws os } := by
  induction ws generalizing off os d with
  | nil => cases os <;> simp [postChanged, changedPosts]
  | cons w ws ih =>
    cases os with
    | nil => simp [postChanged, changedPosts]
    | cons o os =>
      rw [postChanged, ih]
      by_cases h : w = o
      · simp [h, changedPosts]
      · simp [h, changedPosts, Dev.post, writeBursts, Config.burstWords]

/-- Each word that differs from the image is written, and no other (R174). -/
theorem mem_changedPosts {ws os : List Word} {off : Nat} {b : Burst} :
    b ∈ changedPosts off ws os ↔
      ∃ i w v, ws[i]? = some w ∧ os[i]? = some v ∧ w ≠ v ∧ b = ⟨off + 4 * i, 1, some [w], false, true⟩ := by
  induction ws generalizing off os with
  | nil => simp [changedPosts]
  | cons w ws ih =>
    cases os with
    | nil => simp [changedPosts]
    | cons o os =>
      rw [changedPosts, List.mem_append, ih]
      constructor
      · rintro (hb | ⟨i, w', v, h1, h2, h3, h4⟩)
        · split at hb
          · simp at hb
          · rename_i hne
            simp only [List.mem_singleton] at hb
            exact ⟨0, w, o, rfl, rfl, hne, hb⟩
        · exact ⟨i + 1, w', v, by simpa using h1, by simpa using h2, h3, by rw [h4]; congr 1; omega⟩
      · rintro ⟨i, w', v, h1, h2, h3, h4⟩
        cases i with
        | zero =>
          simp only [List.getElem?_cons_zero, Option.some.injEq] at h1 h2
          subst h1 h2
          simp [h3, h4]
        | succ i => exact .inr ⟨i, w', v, by simpa using h1, by simpa using h2, h3, by rw [h4]; congr 1; omega⟩

theorem changedPosts_self (off : Nat) (ws : List Word) : changedPosts off ws ws = [] := by
  induction ws generalizing off with
  | nil => rfl
  | cons w ws ih => simp [changedPosts, ih]

/-- A named write of a status word: one word posted while words are written at all, and the image's word (R174). -/
theorem Dev.writeStatus_eq (i : Nat) (d : Dev) :
    d.writeStatus i = { d with
      engineQ := d.engineQ ++
        (if d.statusLive then [⟨0x20 + 4 * i, 1, some [d.statusWords.getD i 0], false, true⟩] else [])
      statusImg := d.statusImg.set i (d.statusWords.getD i 0) } := by
  unfold Dev.writeStatus
  by_cases c : d.statusLive = true
  · simp [c, Dev.post, writeBursts, statusBase, Config.burstWords]
  · simp only [if_neg c, List.append_nil]

/-- The writes that following the blocks issues. -/
def Dev.syncPosts (d : Dev) : List Burst :=
  if d.statusLive then changedPosts statusBase d.statusWords d.statusImg else []

theorem Dev.syncStatus_eq (d : Dev) :
    d.syncStatus = { d with engineQ := d.engineQ ++ d.syncPosts, statusImg := d.statusWords } := by
  unfold Dev.syncStatus Dev.syncPosts
  by_cases c : d.statusLive = true
  · simp only [if_pos c, postChanged_eq]
  · simp only [if_neg c, List.append_nil]

/-- A report written within a step leaves nothing of itself to write at the step's end: following the blocks after it comes to
the same as following them once. -/
theorem Dev.sync_syncStatus (d : Dev) : d.syncStatus.sync = d.sync := by
  have hw : ({ d with engineQ := d.engineQ ++ d.syncPosts, statusImg := d.statusWords } : Dev).syncPosts = [] := by
    show (if _ then changedPosts statusBase d.statusWords d.statusWords else []) = []
    rw [changedPosts_self, ite_self]
  rw [Dev.syncStatus_eq, Dev.sync, Dev.syncStatus_eq, Dev.sync, Dev.syncStatus_eq]
  have h : ({ d with engineQ := d.engineQ ++ d.syncPosts, statusImg := d.statusWords } : Dev).syncAttn.syncPosts = [] := hw
  rw [h, List.append_nil]
  rfl

/-- What following the blocks changes: the level requests and the line, the image, and the status area writes issued. -/
theorem Dev.sync_eq (d : Dev) :
    d.sync = { d with attn := d.syncAttn.attn, engineQ := d.engineQ ++ d.syncPosts, statusImg := d.statusWords } :=
  Dev.syncStatus_eq d.syncAttn

@[simp] theorem Dev.sync_tasks (d : Dev) : d.sync.tasks = d.tasks := by rw [Dev.sync_eq]
@[simp] theorem Dev.sync_wait (d : Dev) : d.sync.wait = d.wait := by rw [Dev.sync_eq]
@[simp] theorem Dev.sync_reader (d : Dev) : d.sync.reader = d.reader := by rw [Dev.sync_eq]
@[simp] theorem Dev.sync_cfg (d : Dev) : d.sync.cfg = d.cfg := by rw [Dev.sync_eq]
@[simp] theorem Dev.sync_mx (d : Dev) : d.sync.mx = d.mx := by rw [Dev.sync_eq]
@[simp] theorem Dev.sync_mu (d : Dev) : d.sync.mu = d.mu := by rw [Dev.sync_eq]
@[simp] theorem Dev.sync_nets (d : Dev) : d.sync.nets = d.nets := by rw [Dev.sync_eq]
@[simp] theorem Dev.sync_search (d : Dev) : d.sync.search = d.search := by rw [Dev.sync_eq]
@[simp] theorem Dev.sync_sweep (d : Dev) : d.sync.sweep = d.sweep := by rw [Dev.sync_eq]
@[simp] theorem Dev.sync_learn (d : Dev) : d.sync.learn = d.learn := by rw [Dev.sync_eq]
@[simp] theorem Dev.sync_hv (d : Dev) : d.sync.hv = d.hv := by rw [Dev.sync_eq]
@[simp] theorem Dev.sync_ins (d : Dev) : d.sync.ins = d.ins := by rw [Dev.sync_eq]
@[simp] theorem Dev.sync_mgr (d : Dev) : d.sync.mgr = d.mgr := by rw [Dev.sync_eq]
@[simp] theorem Dev.sync_fmt (d : Dev) : d.sync.fmt = d.fmt := by rw [Dev.sync_eq]
@[simp] theorem Dev.sync_tx (d : Dev) : d.sync.tx = d.tx := by rw [Dev.sync_eq]
@[simp] theorem Dev.sync_attn (d : Dev) : d.sync.attn = d.syncAttn.attn := by rw [Dev.sync_eq]
@[simp] theorem Dev.sync_pins (d : Dev) : d.sync.pins = d.pins := by rw [Dev.sync_eq]
@[simp] theorem Dev.sync_prog (d : Dev) : d.sync.prog = d.prog := by rw [Dev.sync_eq]
@[simp] theorem Dev.sync_rbuf (d : Dev) : d.sync.rbuf = d.rbuf := by rw [Dev.sync_eq]
@[simp] theorem Dev.sync_saved (d : Dev) : d.sync.saved = d.saved := by rw [Dev.sync_eq]
@[simp] theorem Dev.sync_free (d : Dev) : d.sync.free = d.free := by rw [Dev.sync_eq]
@[simp] theorem Dev.sync_statusImg (d : Dev) : d.sync.statusImg = d.statusWords := by rw [Dev.sync_eq]
@[simp] theorem Dev.sync_engineQ (d : Dev) : d.sync.engineQ = d.engineQ ++ d.syncPosts := by rw [Dev.sync_eq]

theorem Dev.statusWords_congr {d e : Dev} (h1 : e.reader = d.reader) (h2 : e.mgr = d.mgr) (h3 : e.tx = d.tx)
    (h4 : e.hv = d.hv) (h5 : e.mx = d.mx) (h6 : e.mu = d.mu) : e.statusWords = d.statusWords := by
  simp only [Dev.statusWords, h1, h2, h3, h4, h5, h6]

theorem Dev.sync_statusWords (d : Dev) : d.sync.statusWords = d.statusWords :=
  Dev.statusWords_congr (by simp) (by simp) (by simp) (by simp) (by simp) (by simp)

theorem Dev.syncAttn_follows (d : Dev) : d.syncAttn.attn.Judged ∧ d.syncAttn.LevelsFollow := by
  constructor
  · rfl
  · have hs : d.syncAttn.attn.svc = d.attn.svc := by rw [Dev.syncAttn_attn_frame]
    refine ⟨?_, ?_, ?_⟩ <;> intro h <;> rw [hs] at h <;> rw [Dev.hasSrc_syncAttn]
    · rw [if_pos ⟨rfl, h⟩]; rfl
    · rw [if_neg (fun e => absurd e.1 (by decide)), if_pos ⟨rfl, h⟩]; rfl
    · rw [if_neg (fun e => absurd e.1 (by decide)), if_neg (fun e => absurd e.1 (by decide)), if_pos ⟨rfl, h⟩]; rfl

/-- After following the blocks, everything follows them. -/
theorem Dev.sync_follows (d : Dev) : d.sync.Follows := by
  have h := Dev.syncAttn_follows d
  refine ⟨?_, ?_, ?_⟩
  · rw [Dev.sync_attn]; exact h.1
  · have e : d.sync.LevelsFollow = d.syncAttn.LevelsFollow := by
      simp only [Dev.LevelsFollow, Dev.sync_attn, Dev.safetyCond, Dev.printerCond, Dev.idleCond, Dev.sync_hv, Dev.sync_pins,
        Dev.sync_reader, Dev.syncAttn_hv, Dev.syncAttn_pins, Dev.syncAttn_reader]
      rfl
    rw [e]; exact h.2
  · rw [Dev.ImageFollows, Dev.sync_statusImg, Dev.sync_statusWords]

/-- Where everything follows the blocks, following them again changes nothing. -/
theorem Dev.sync_of_follows {d : Dev} (h : d.Follows) : d.sync = d := by
  obtain ⟨hj, ⟨h0, h5, h7⟩, hi⟩ := h
  have ha : d.syncAttn.attn = d.attn := by
    rw [Dev.syncAttn_attn, Attn.follow_self h0, Attn.follow_self h5, Attn.follow_self h7, Attn.judge, ← hj]
  rw [Dev.sync_eq, ha, Dev.syncPosts, ← hi, changedPosts_self]
  simp

/-! ## The thread -/

/-- A thread with nothing to do stays as it is. -/
theorem settleFor_resting (q : List (Nat × Word)) (fuel : Nat) {d : Dev} (h : d.Resting) : settleFor q fuel d = d := by
  cases fuel with
  | zero => rw [settleFor]
  | succ n =>
    rw [settleFor]
    by_cases hw : d.wait = .run
    · have ht : d.tasks = [] := by
        cases h with
        | inl h => exact absurd hw h
        | inr h => exact h
      simp [hw, ht]
    · simp [hw]

/-- A thread with nothing to do leaves an event at its own effect. -/
theorem Dev.settle_resting (q : List (Nat × Word)) {d : Dev} (h : d.Resting) : d.settle q = d.sync := by
  apply settleFor_resting
  simpa [Dev.Resting] using h

/-- The next step of a thread that runs. -/
theorem settleFor_step (q : List (Nat × Word)) (fuel : Nat) {d : Dev} {t : Task} {ts : List Task} (hw : d.wait = .run)
    (ht : d.tasks = t :: ts) :
    settleFor q (fuel + 1) d = settleFor q fuel (runTask q t { d with tasks := ts }).sync := by
  rw [settleFor]
  simp [hw, ht]

/-- The next step, with the number of steps that may follow it as a numeral. -/
theorem settleFor_next (q : List (Nat × Word)) (n : Nat) {d : Dev} {t : Task} {ts : List Task} (hn : 0 < n)
    (hw : d.wait = .run) (ht : d.tasks = t :: ts) :
    settleFor q n d = settleFor q (n - 1) (runTask q t { d with tasks := ts }).sync := by
  obtain ⟨m, rfl⟩ : ∃ m, n = m + 1 := ⟨n - 1, by omega⟩
  exact settleFor_step q m hw ht

/-- The first step of a thread that runs on after an event. -/
theorem Dev.settle_next (q : List (Nat × Word)) {d : Dev} {t : Task} {ts : List Task} (hw : d.wait = .run)
    (ht : d.tasks = t :: ts) :
    d.settle q = settleFor q 19999 (runTask q t { d.sync with tasks := ts }).sync := by
  unfold Dev.settle settleFuel
  exact settleFor_next q 20000 (by decide) (by simpa using hw) (by simpa using ht)

theorem settleFor_follows (q : List (Nat × Word)) (fuel : Nat) {d : Dev} (h : d.Follows) : (settleFor q fuel d).Follows := by
  induction fuel generalizing d with
  | zero => rw [settleFor]; exact h
  | succ n ih =>
    rw [settleFor]
    split
    · split
      · exact h
      · exact ih (Dev.sync_follows _)
    · exact h

/-- After every event the attention unit and the status area image follow the blocks. -/
theorem Dev.settle_follows (q : List (Nat × Word)) (d : Dev) : (d.settle q).Follows :=
  settleFor_follows q settleFuel (Dev.sync_follows d)

/-- What holds of the blocks after each step and is kept by following them holds after the thread has run on. -/
theorem settleFor_invariant {P : Dev → Prop} (q : List (Nat × Word)) (hs : ∀ d, P d → P d.sync)
    (ht : ∀ t d, P d → P (runTask q t d)) (htasks : ∀ d ts, P d → P { d with tasks := ts }) (fuel : Nat) {d : Dev} (h : P d) :
    P (settleFor q fuel d) := by
  induction fuel generalizing d with
  | zero => rw [settleFor]; exact h
  | succ n ih =>
    rw [settleFor]
    split
    · split
      · exact h
      · exact ih (hs _ (ht _ _ (htasks _ _ h)))
    · exact h

theorem Dev.settle_invariant {P : Dev → Prop} (q : List (Nat × Word)) (hs : ∀ d, P d → P d.sync)
    (ht : ∀ t d, P d → P (runTask q t d)) (htasks : ∀ d ts, P d → P { d with tasks := ts }) {d : Dev} (h : P d) :
    P (d.settle q) :=
  settleFor_invariant q hs ht htasks settleFuel (hs d h)

/-! ## The reread of a watched word -/

/-- A WAITING reader that finds what wakes it is RUNNING, with no watched word, and acts on the word in its next step
(R180). -/
theorem Dev.rereadGot_wakes {w : Watch} {d : Dev} (hs : d.reader.state = .waiting) (hw : w.wakes (d.word 0) = true) :
    d.rereadGot w =
      { d with reader := { d.reader with state := .running, watch := none }, tasks := .woken w :: d.tasks } := by
  simp [Dev.rereadGot, hs, hw, Dev.onReader, Dev.push]

/-- A RUNNING reader with a HALT pending halts at the word (R183), without one it acts on it (R184). -/
theorem Dev.rereadGot_running {w : Watch} {d : Dev} (hs : d.reader.state = .running) :
    d.rereadGot w = if d.reader.haltPending then d.clearBuf.haltAt (.word w) else d.followWord w := by
  simp [Dev.rereadGot, hs]

/-- A WAITING reader that finds nothing to wake it watches the word again (R180). -/
theorem Dev.rereadGot_sleeps {w : Watch} {d : Dev} (hs : d.reader.state = .waiting) (hw : w.wakes (d.word 0) = false) :
    d.rereadGot w = d.clearBuf.watchWord w := by
  cases w <;> simp_all [Dev.rereadGot, Watch.wakes, Dev.followWord, Dev.followLink]

/-! ## The end of a setup -/

/-- With no park pending and no request waiting the setup's end is READY and the answer; the park and the request otherwise
meet a READY that has been reported (R4, R174). -/
theorem Dev.setupEnd_idle (ok : Bool) {d : Dev} (hp : d.mx.parkPending = false) (hw : d.mx.waitReq = none) :
    d.setupEnd ok =
      let d1 := d.onMx fun m =>
        { m with state := .ready, phase := .idle, tgt := m.cur, requester := false, waitReq := none, link := .idle }
      if d.mx.requester then d1.setupReport ok d.mx.reqTarget else d1 := by
  simp [Dev.setupEnd, hp, hw]

/-! ## The thread given up -/

/-- With no run of the thread in progress every issued write stays (R186). -/
theorem orphanBursts_none {q : List Burst} (h : ∀ b ∈ q, b.mine = false) : orphanBursts q = q := by
  induction q with
  | nil => rfl
  | cons b q ih => simp [orphanBursts, h b (by simp), ih fun x hx => h x (by simp [hx])]

/-- Of the thread's run in progress the next burst stays if it is a write, and nothing after it (R63, R186, log 37). -/
theorem orphanBursts_some {pre rest : List Burst} {c : Burst} (h : ∀ b ∈ pre, b.mine = false) (hc : c.mine = true) :
    orphanBursts (pre ++ c :: rest) =
      pre ++ (if c.data = none then [] else [{ c with mine := false }]) ++ rest.filter fun b => !b.mine := by
  induction pre with
  | nil => cases hd : c.data <;> simp [orphanBursts, hc, hd]
  | cons b q ih => simp [orphanBursts, h b (by simp), ih fun x hx => h x (by simp [hx])]

end Sys2Proof.Machine
end

