-- ==== Sys2Proof/Laws/Frames.lean ====
section
/-! SUPPORT. What the shared operations and the thread's steps leave alone: the lockout latch, the source that is off while it
is set or the recorded interlock is open, what the attention unit holds but for its requests, and but for the printer port's own operations the printer port. -/

set_option linter.unusedSimpArgs false
set_option linter.unusedTactic false
set_option linter.unreachableTactic false
set_option linter.unnecessarySeqFocus false
set_option linter.unusedVariables false

namespace Sys2Proof.Machine

@[simp] theorem Attn.settings_mk (a : Attn) (r : Byte) (l : Bool) :
    Attn.settings ⟨r, a.svc, a.msk, a.lowest, a.autoclose, a.autorotate, a.selective, l⟩ = a.settings := rfl

@[simp] theorem Hv.latchOff_mk (h : Hv) (v r t a n m : Nat) (rt : Option Nat) (c ar : Bool) (k : Nat) (dt : Option Nat) (b : Nat)
    (o p : Bool) (q : Ask) (l : Int) :
    Hv.latchOff ⟨h.state, v, r, t, a, n, m, rt, c, ar, k, dt, b, h.lockout, o, p, q, l⟩ = h.latchOff := rfl

@[simp] theorem Hv.coverOff_mk (h : Hv) (v r t a n m : Nat) (rt : Option Nat) (c ar : Bool) (k : Nat) (dt : Option Nat) (b : Nat)
    (o p : Bool) (q : Ask) (l : Int) :
    Hv.coverOff ⟨h.state, v, r, t, a, n, m, rt, c, ar, k, dt, b, o, h.openRec, p, q, l⟩ = h.coverOff := rfl

@[simp] theorem Dev.issueRead_keeps (q : List (Nat × Word)) (off n : Nat) (d : Dev) :
    (d.issueRead q off n).hv.lockout = d.hv.lockout ∧ (d.issueRead q off n).tx = d.tx ∧
      (d.issueRead q off n).attn.settings = d.attn.settings ∧
      (d.hv.latchOff = true → (d.issueRead q off n).hv.latchOff = true) ∧ (d.hv.coverOff = true → (d.issueRead q off n).hv.coverOff = true) := by
  unfold Dev.issueRead <;> refine ⟨?_, ?_, ?_, fun h => ?_, fun h => ?_⟩ <;> (try dsimp only) <;> (repeat' split) <;> (try simp) <;> (repeat' split) <;> first | done | simp | simp (maxDischargeDepth := 9) [h] | (revert h; simp [Hv.latchOff, Hv.coverOff, Hv.sourceOn])
@[simp] theorem Dev.setClamped_keeps (c : Bool) (d : Dev) :
    (d.setClamped c).hv.lockout = d.hv.lockout ∧ (d.setClamped c).tx = d.tx ∧
      (d.setClamped c).attn.settings = d.attn.settings ∧
      (d.hv.latchOff = true → (d.setClamped c).hv.latchOff = true) ∧ (d.hv.coverOff = true → (d.setClamped c).hv.coverOff = true) := by
  unfold Dev.setClamped <;> refine ⟨?_, ?_, ?_, fun h => ?_, fun h => ?_⟩ <;> (try dsimp only) <;> (repeat' split) <;> (try simp) <;> (repeat' split) <;> first | done | simp | simp (maxDischargeDepth := 9) [h] | (revert h; simp [Hv.latchOff, Hv.coverOff, Hv.sourceOn])
@[simp] theorem Dev.noteUnzeroed_keeps (d : Dev) :
    (d.noteUnzeroed).hv.lockout = d.hv.lockout ∧ (d.noteUnzeroed).tx = d.tx ∧
      (d.noteUnzeroed).attn.settings = d.attn.settings ∧
      (d.hv.latchOff = true → (d.noteUnzeroed).hv.latchOff = true) ∧ (d.hv.coverOff = true → (d.noteUnzeroed).hv.coverOff = true) := by
  unfold Dev.noteUnzeroed <;> refine ⟨?_, ?_, ?_, fun h => ?_, fun h => ?_⟩ <;> (try dsimp only) <;> (repeat' split) <;> (try simp) <;> (repeat' split) <;> first | done | simp | simp (maxDischargeDepth := 9) [h] | (revert h; simp [Hv.latchOff, Hv.coverOff, Hv.sourceOn])
@[simp] theorem Dev.measure_keeps (kind : JobKind) (rng : Rng) (n : Nat) (d : Dev) :
    (d.measure kind rng n).hv.lockout = d.hv.lockout ∧ (d.measure kind rng n).tx = d.tx ∧
      (d.measure kind rng n).attn.settings = d.attn.settings ∧
      (d.hv.latchOff = true → (d.measure kind rng n).hv.latchOff = true) ∧ (d.hv.coverOff = true → (d.measure kind rng n).hv.coverOff = true) := by
  unfold Dev.measure <;> refine ⟨?_, ?_, ?_, fun h => ?_, fun h => ?_⟩ <;> (try dsimp only) <;> (repeat' split) <;> (try simp) <;> (repeat' split) <;> first | done | simp | simp (maxDischargeDepth := 9) [h] | (revert h; simp [Hv.latchOff, Hv.coverOff, Hv.sourceOn])
@[simp] theorem Dev.zeroStart_keeps (d : Dev) :
    (d.zeroStart).hv.lockout = d.hv.lockout ∧ (d.zeroStart).tx = d.tx ∧
      (d.zeroStart).attn.settings = d.attn.settings ∧
      (d.hv.latchOff = true → (d.zeroStart).hv.latchOff = true) ∧ (d.hv.coverOff = true → (d.zeroStart).hv.coverOff = true) := by
  unfold Dev.zeroStart <;> refine ⟨?_, ?_, ?_, fun h => ?_, fun h => ?_⟩ <;> (try dsimp only) <;> (repeat' split) <;> (try simp) <;> (repeat' split) <;> first | done | simp | simp (maxDischargeDepth := 9) [h] | (revert h; simp [Hv.latchOff, Hv.coverOff, Hv.sourceOn])
@[simp] theorem Dev.zeroRun_keeps (d : Dev) :
    (d.zeroRun).hv.lockout = d.hv.lockout ∧ (d.zeroRun).tx = d.tx ∧
      (d.zeroRun).attn.settings = d.attn.settings ∧
      (d.hv.latchOff = true → (d.zeroRun).hv.latchOff = true) ∧ (d.hv.coverOff = true → (d.zeroRun).hv.coverOff = true) := by
  unfold Dev.zeroRun <;> refine ⟨?_, ?_, ?_, fun h => ?_, fun h => ?_⟩ <;> (try dsimp only) <;> (repeat' split) <;> (try simp) <;> (repeat' split) <;> first | done | simp | simp (maxDischargeDepth := 9) [h] | (revert h; simp [Hv.latchOff, Hv.coverOff, Hv.sourceOn])
@[simp] theorem Dev.zeroCollect_keeps (i : Nat) (d : Dev) :
    (d.zeroCollect i).hv.lockout = d.hv.lockout ∧ (d.zeroCollect i).tx = d.tx ∧
      (d.zeroCollect i).attn.settings = d.attn.settings ∧
      (d.hv.latchOff = true → (d.zeroCollect i).hv.latchOff = true) ∧ (d.hv.coverOff = true → (d.zeroCollect i).hv.coverOff = true) := by
  unfold Dev.zeroCollect <;> refine ⟨?_, ?_, ?_, fun h => ?_, fun h => ?_⟩ <;> (try dsimp only) <;> (repeat' split) <;> (try simp) <;> (repeat' split) <;> first | done | simp | simp (maxDischargeDepth := 9) [h] | (revert h; simp [Hv.latchOff, Hv.coverOff, Hv.sourceOn])
@[simp] theorem Dev.zeroGot_keeps (i : Nat) (d : Dev) :
    (d.zeroGot i).hv.lockout = d.hv.lockout ∧ (d.zeroGot i).tx = d.tx ∧
      (d.zeroGot i).attn.settings = d.attn.settings ∧
      (d.hv.latchOff = true → (d.zeroGot i).hv.latchOff = true) ∧ (d.hv.coverOff = true → (d.zeroGot i).hv.coverOff = true) := by
  unfold Dev.zeroGot <;> refine ⟨?_, ?_, ?_, fun h => ?_, fun h => ?_⟩ <;> (try dsimp only) <;> (repeat' split) <;> (try simp) <;> (repeat' split) <;> first | done | simp | simp (maxDischargeDepth := 9) [h] | (revert h; simp [Hv.latchOff, Hv.coverOff, Hv.sourceOn])
@[simp] theorem Dev.zeroOff_keeps (d : Dev) :
    (d.zeroOff).hv.lockout = d.hv.lockout ∧ (d.zeroOff).tx = d.tx ∧
      (d.zeroOff).attn.settings = d.attn.settings ∧
      (d.hv.latchOff = true → (d.zeroOff).hv.latchOff = true) ∧ (d.hv.coverOff = true → (d.zeroOff).hv.coverOff = true) := by
  unfold Dev.zeroOff <;> refine ⟨?_, ?_, ?_, fun h => ?_, fun h => ?_⟩ <;> (try dsimp only) <;> (repeat' split) <;> (try simp) <;> (repeat' split) <;> first | done | simp | simp (maxDischargeDepth := 9) [h] | (revert h; simp [Hv.latchOff, Hv.coverOff, Hv.sourceOn])
@[simp] theorem Dev.zeroEnd_keeps (d : Dev) :
    (d.zeroEnd).hv.lockout = d.hv.lockout ∧ (d.zeroEnd).tx = d.tx ∧
      (d.zeroEnd).attn.settings = d.attn.settings ∧
      (d.hv.latchOff = true → (d.zeroEnd).hv.latchOff = true) ∧ (d.hv.coverOff = true → (d.zeroEnd).hv.coverOff = true) := by
  unfold Dev.zeroEnd <;> refine ⟨?_, ?_, ?_, fun h => ?_, fun h => ?_⟩ <;> (try dsimp only) <;> (repeat' split) <;> (try simp) <;> (repeat' split) <;> first | done | simp | simp (maxDischargeDepth := 9) [h] | (revert h; simp [Hv.latchOff, Hv.coverOff, Hv.sourceOn])
@[simp] theorem Dev.measA_keeps (d : Dev) :
    (d.measA).hv.lockout = d.hv.lockout ∧ (d.measA).tx = d.tx ∧
      (d.measA).attn.settings = d.attn.settings ∧
      (d.hv.latchOff = true → (d.measA).hv.latchOff = true) ∧ (d.hv.coverOff = true → (d.measA).hv.coverOff = true) := by
  unfold Dev.measA <;> refine ⟨?_, ?_, ?_, fun h => ?_, fun h => ?_⟩ <;> (try dsimp only) <;> (repeat' split) <;> (try simp) <;> (repeat' split) <;> first | done | simp | simp (maxDischargeDepth := 9) [h] | (revert h; simp [Hv.latchOff, Hv.coverOff, Hv.sourceOn])
@[simp] theorem Dev.measGotB_keeps (d : Dev) :
    (d.measGotB).hv.lockout = d.hv.lockout ∧ (d.measGotB).tx = d.tx ∧
      (d.measGotB).attn.settings = d.attn.settings ∧
      (d.hv.latchOff = true → (d.measGotB).hv.latchOff = true) ∧ (d.hv.coverOff = true → (d.measGotB).hv.coverOff = true) := by
  unfold Dev.measGotB <;> refine ⟨?_, ?_, ?_, fun h => ?_, fun h => ?_⟩ <;> (try dsimp only) <;> (repeat' split) <;> (try simp) <;> (repeat' split) <;> first | done | simp | simp (maxDischargeDepth := 9) [h] | (revert h; simp [Hv.latchOff, Hv.coverOff, Hv.sourceOn])
@[simp] theorem Dev.measB_keeps (d : Dev) :
    (d.measB).hv.lockout = d.hv.lockout ∧ (d.measB).tx = d.tx ∧
      (d.measB).attn.settings = d.attn.settings ∧
      (d.hv.latchOff = true → (d.measB).hv.latchOff = true) ∧ (d.hv.coverOff = true → (d.measB).hv.coverOff = true) := by
  unfold Dev.measB <;> refine ⟨?_, ?_, ?_, fun h => ?_, fun h => ?_⟩ <;> (try dsimp only) <;> (repeat' split) <;> (try simp) <;> (repeat' split) <;> first | done | simp | simp (maxDischargeDepth := 9) [h] | (revert h; simp [Hv.latchOff, Hv.coverOff, Hv.sourceOn])
@[simp] theorem Dev.measGot_keeps (d : Dev) :
    (d.measGot).hv.lockout = d.hv.lockout ∧ (d.measGot).tx = d.tx ∧
      (d.measGot).attn.settings = d.attn.settings ∧
      (d.hv.latchOff = true → (d.measGot).hv.latchOff = true) ∧ (d.hv.coverOff = true → (d.measGot).hv.coverOff = true) := by
  unfold Dev.measGot <;> refine ⟨?_, ?_, ?_, fun h => ?_, fun h => ?_⟩ <;> (try dsimp only) <;> (repeat' split) <;> (try simp) <;> (repeat' split) <;> first | done | simp | simp (maxDischargeDepth := 9) [h] | (revert h; simp [Hv.latchOff, Hv.coverOff, Hv.sourceOn])
@[simp] theorem Dev.measEnd_keeps (d : Dev) :
    (d.measEnd).hv.lockout = d.hv.lockout ∧ (d.measEnd).tx = d.tx ∧
      (d.measEnd).attn.settings = d.attn.settings ∧
      (d.hv.latchOff = true → (d.measEnd).hv.latchOff = true) ∧ (d.hv.coverOff = true → (d.measEnd).hv.coverOff = true) := by
  unfold Dev.measEnd <;> refine ⟨?_, ?_, ?_, fun h => ?_, fun h => ?_⟩ <;> (try dsimp only) <;> (repeat' split) <;> (try simp) <;> (repeat' split) <;> first | done | simp | simp (maxDischargeDepth := 9) [h] | (revert h; simp [Hv.latchOff, Hv.coverOff, Hv.sourceOn])
@[simp] theorem Dev.setCard_keeps (c : Nat) (k : Card) (d : Dev) :
    (d.setCard c k).hv.lockout = d.hv.lockout ∧ (d.setCard c k).tx = d.tx ∧
      (d.setCard c k).attn.settings = d.attn.settings ∧
      (d.hv.latchOff = true → (d.setCard c k).hv.latchOff = true) ∧ (d.hv.coverOff = true → (d.setCard c k).hv.coverOff = true) := by
  unfold Dev.setCard <;> refine ⟨?_, ?_, ?_, fun h => ?_, fun h => ?_⟩ <;> (try dsimp only) <;> (repeat' split) <;> (try simp) <;> (repeat' split) <;> first | done | simp | simp (maxDischargeDepth := 9) [h] | (revert h; simp [Hv.latchOff, Hv.coverOff, Hv.sourceOn])
@[simp] theorem Dev.clearCards_keeps (d : Dev) :
    (d.clearCards).hv.lockout = d.hv.lockout ∧ (d.clearCards).tx = d.tx ∧
      (d.clearCards).attn.settings = d.attn.settings ∧
      (d.hv.latchOff = true → (d.clearCards).hv.latchOff = true) ∧ (d.hv.coverOff = true → (d.clearCards).hv.coverOff = true) := by
  unfold Dev.clearCards <;> refine ⟨?_, ?_, ?_, fun h => ?_, fun h => ?_⟩ <;> (try dsimp only) <;> (repeat' split) <;> (try simp) <;> (repeat' split) <;> first | done | simp | simp (maxDischargeDepth := 9) [h] | (revert h; simp [Hv.latchOff, Hv.coverOff, Hv.sourceOn])
@[simp] theorem Dev.failOrder_keeps (c : Code) (d : Dev) :
    (d.failOrder c).hv.lockout = d.hv.lockout ∧ (d.failOrder c).tx = d.tx ∧
      (d.failOrder c).attn.settings = d.attn.settings ∧
      (d.hv.latchOff = true → (d.failOrder c).hv.latchOff = true) ∧ (d.hv.coverOff = true → (d.failOrder c).hv.coverOff = true) := by
  unfold Dev.failOrder <;> refine ⟨?_, ?_, ?_, fun h => ?_, fun h => ?_⟩ <;> (try dsimp only) <;> (repeat' split) <;> (try simp) <;> (repeat' split) <;> first | done | simp | simp (maxDischargeDepth := 9) [h] | (revert h; simp [Hv.latchOff, Hv.coverOff, Hv.sourceOn])
@[simp] theorem Dev.exchange_keeps (c : Nat) (pattern : List Bus) (d : Dev) :
    (d.exchange c pattern).hv.lockout = d.hv.lockout ∧ (d.exchange c pattern).tx = d.tx ∧
      (d.exchange c pattern).attn.settings = d.attn.settings ∧
      (d.hv.latchOff = true → (d.exchange c pattern).hv.latchOff = true) ∧ (d.hv.coverOff = true → (d.exchange c pattern).hv.coverOff = true) := by
  unfold Dev.exchange <;> refine ⟨?_, ?_, ?_, fun h => ?_, fun h => ?_⟩ <;> (try dsimp only) <;> (repeat' split) <;> (try simp) <;> (repeat' split) <;> first | done | simp | simp (maxDischargeDepth := 9) [h] | (revert h; simp [Hv.latchOff, Hv.coverOff, Hv.sourceOn])
@[simp] theorem Dev.startRelease_keeps (ph : MPhase) (d : Dev) :
    (d.startRelease ph).hv.lockout = d.hv.lockout ∧ (d.startRelease ph).tx = d.tx ∧
      (d.startRelease ph).attn.settings = d.attn.settings ∧
      (d.hv.latchOff = true → (d.startRelease ph).hv.latchOff = true) ∧ (d.hv.coverOff = true → (d.startRelease ph).hv.coverOff = true) := by
  unfold Dev.startRelease <;> refine ⟨?_, ?_, ?_, fun h => ?_, fun h => ?_⟩ <;> (try dsimp only) <;> (repeat' split) <;> (try simp) <;> (repeat' split) <;> first | done | simp | simp (maxDischargeDepth := 9) [h] | (revert h; simp [Hv.latchOff, Hv.coverOff, Hv.sourceOn])
@[simp] theorem Dev.sendOpening_keeps (cs : List Nat) (d : Dev) :
    (d.sendOpening cs).hv.lockout = d.hv.lockout ∧ (d.sendOpening cs).tx = d.tx ∧
      (d.sendOpening cs).attn.settings = d.attn.settings ∧
      (d.hv.latchOff = true → (d.sendOpening cs).hv.latchOff = true) ∧ (d.hv.coverOff = true → (d.sendOpening cs).hv.coverOff = true) := by
  unfold Dev.sendOpening <;> refine ⟨?_, ?_, ?_, fun h => ?_, fun h => ?_⟩ <;> (try dsimp only) <;> (repeat' split) <;> (try simp) <;> (repeat' split) <;> first | done | simp | simp (maxDischargeDepth := 9) [h] | (revert h; simp [Hv.latchOff, Hv.coverOff, Hv.sourceOn])
@[simp] theorem Dev.sendClosing_keeps (cs : List Nat) (d : Dev) :
    (d.sendClosing cs).hv.lockout = d.hv.lockout ∧ (d.sendClosing cs).tx = d.tx ∧
      (d.sendClosing cs).attn.settings = d.attn.settings ∧
      (d.hv.latchOff = true → (d.sendClosing cs).hv.latchOff = true) ∧ (d.hv.coverOff = true → (d.sendClosing cs).hv.coverOff = true) := by
  unfold Dev.sendClosing <;> refine ⟨?_, ?_, ?_, fun h => ?_, fun h => ?_⟩ <;> (try dsimp only) <;> (repeat' split) <;> (try simp) <;> (repeat' split) <;> first | done | simp | simp (maxDischargeDepth := 9) [h] | (revert h; simp [Hv.latchOff, Hv.coverOff, Hv.sourceOn])
@[simp] theorem Dev.sendRecovery_keeps (cs : List Nat) (d : Dev) :
    (d.sendRecovery cs).hv.lockout = d.hv.lockout ∧ (d.sendRecovery cs).tx = d.tx ∧
      (d.sendRecovery cs).attn.settings = d.attn.settings ∧
      (d.hv.latchOff = true → (d.sendRecovery cs).hv.latchOff = true) ∧ (d.hv.coverOff = true → (d.sendRecovery cs).hv.coverOff = true) := by
  unfold Dev.sendRecovery <;> refine ⟨?_, ?_, ?_, fun h => ?_, fun h => ?_⟩ <;> (try dsimp only) <;> (repeat' split) <;> (try simp) <;> (repeat' split) <;> first | done | simp | simp (maxDischargeDepth := 9) [h] | (revert h; simp [Hv.latchOff, Hv.coverOff, Hv.sourceOn])
@[simp] theorem Dev.sendParking_keeps (cs : List Nat) (d : Dev) :
    (d.sendParking cs).hv.lockout = d.hv.lockout ∧ (d.sendParking cs).tx = d.tx ∧
      (d.sendParking cs).attn.settings = d.attn.settings ∧
      (d.hv.latchOff = true → (d.sendParking cs).hv.latchOff = true) ∧ (d.hv.coverOff = true → (d.sendParking cs).hv.coverOff = true) := by
  unfold Dev.sendParking <;> refine ⟨?_, ?_, ?_, fun h => ?_, fun h => ?_⟩ <;> (try dsimp only) <;> (repeat' split) <;> (try simp) <;> (repeat' split) <;> first | done | simp | simp (maxDischargeDepth := 9) [h] | (revert h; simp [Hv.latchOff, Hv.coverOff, Hv.sourceOn])
@[simp] theorem Dev.sendFailing_keeps (cs : List Nat) (d : Dev) :
    (d.sendFailing cs).hv.lockout = d.hv.lockout ∧ (d.sendFailing cs).tx = d.tx ∧
      (d.sendFailing cs).attn.settings = d.attn.settings ∧
      (d.hv.latchOff = true → (d.sendFailing cs).hv.latchOff = true) ∧ (d.hv.coverOff = true → (d.sendFailing cs).hv.coverOff = true) := by
  unfold Dev.sendFailing <;> refine ⟨?_, ?_, ?_, fun h => ?_, fun h => ?_⟩ <;> (try dsimp only) <;> (repeat' split) <;> (try simp) <;> (repeat' split) <;> first | done | simp | simp (maxDischargeDepth := 9) [h] | (revert h; simp [Hv.latchOff, Hv.coverOff, Hv.sourceOn])
@[simp] theorem Dev.startPair_keeps (k : Nat) (d : Dev) :
    (d.startPair k).hv.lockout = d.hv.lockout ∧ (d.startPair k).tx = d.tx ∧
      (d.startPair k).attn.settings = d.attn.settings ∧
      (d.hv.latchOff = true → (d.startPair k).hv.latchOff = true) ∧ (d.hv.coverOff = true → (d.startPair k).hv.coverOff = true) := by
  unfold Dev.startPair <;> refine ⟨?_, ?_, ?_, fun h => ?_, fun h => ?_⟩ <;> (try dsimp only) <;> (repeat' split) <;> (try simp) <;> (repeat' split) <;> first | done | simp | simp (maxDischargeDepth := 9) [h] | (revert h; simp [Hv.latchOff, Hv.coverOff, Hv.sourceOn])
@[simp] theorem Dev.sendChecking_keeps (cs : List Nat) (d : Dev) :
    (d.sendChecking cs).hv.lockout = d.hv.lockout ∧ (d.sendChecking cs).tx = d.tx ∧
      (d.sendChecking cs).attn.settings = d.attn.settings ∧
      (d.hv.latchOff = true → (d.sendChecking cs).hv.latchOff = true) ∧ (d.hv.coverOff = true → (d.sendChecking cs).hv.coverOff = true) := by
  unfold Dev.sendChecking <;> refine ⟨?_, ?_, ?_, fun h => ?_, fun h => ?_⟩ <;> (try dsimp only) <;> (repeat' split) <;> (try simp) <;> (repeat' split) <;> first | done | simp | simp (maxDischargeDepth := 9) [h] | (revert h; simp [Hv.latchOff, Hv.coverOff, Hv.sourceOn])
@[simp] theorem Dev.sendEnumeration_keeps (c : Nat) (d : Dev) :
    (d.sendEnumeration c).hv.lockout = d.hv.lockout ∧ (d.sendEnumeration c).tx = d.tx ∧
      (d.sendEnumeration c).attn.settings = d.attn.settings ∧
      (d.hv.latchOff = true → (d.sendEnumeration c).hv.latchOff = true) ∧ (d.hv.coverOff = true → (d.sendEnumeration c).hv.coverOff = true) := by
  unfold Dev.sendEnumeration <;> refine ⟨?_, ?_, ?_, fun h => ?_, fun h => ?_⟩ <;> (try dsimp only) <;> (repeat' split) <;> (try simp) <;> (repeat' split) <;> first | done | simp | simp (maxDischargeDepth := 9) [h] | (revert h; simp [Hv.latchOff, Hv.coverOff, Hv.sourceOn])
@[simp] theorem Dev.beginParking_keeps (d : Dev) :
    (d.beginParking).hv.lockout = d.hv.lockout ∧ (d.beginParking).tx = d.tx ∧
      (d.beginParking).attn.settings = d.attn.settings ∧
      (d.hv.latchOff = true → (d.beginParking).hv.latchOff = true) ∧ (d.hv.coverOff = true → (d.beginParking).hv.coverOff = true) := by
  unfold Dev.beginParking <;> refine ⟨?_, ?_, ?_, fun h => ?_, fun h => ?_⟩ <;> (try dsimp only) <;> (repeat' split) <;> (try simp) <;> (repeat' split) <;> first | done | simp | simp (maxDischargeDepth := 9) [h] | (revert h; simp [Hv.latchOff, Hv.coverOff, Hv.sourceOn])
@[simp] theorem Dev.tryPark_keeps (d : Dev) :
    (d.tryPark).hv.lockout = d.hv.lockout ∧ (d.tryPark).tx = d.tx ∧
      (d.tryPark).attn.settings = d.attn.settings ∧
      (d.hv.latchOff = true → (d.tryPark).hv.latchOff = true) ∧ (d.hv.coverOff = true → (d.tryPark).hv.coverOff = true) := by
  unfold Dev.tryPark <;> refine ⟨?_, ?_, ?_, fun h => ?_, fun h => ?_⟩ <;> (try dsimp only) <;> (repeat' split) <;> (try simp) <;> (repeat' split) <;> first | done | simp | simp (maxDischargeDepth := 9) [h] | (revert h; simp [Hv.latchOff, Hv.coverOff, Hv.sourceOn])
@[simp] theorem Dev.wakeParked_keeps (d : Dev) :
    (d.wakeParked).hv.lockout = d.hv.lockout ∧ (d.wakeParked).tx = d.tx ∧
      (d.wakeParked).attn.settings = d.attn.settings ∧
      (d.hv.latchOff = true → (d.wakeParked).hv.latchOff = true) ∧ (d.hv.coverOff = true → (d.wakeParked).hv.coverOff = true) := by
  unfold Dev.wakeParked <;> refine ⟨?_, ?_, ?_, fun h => ?_, fun h => ?_⟩ <;> (try dsimp only) <;> (repeat' split) <;> (try simp) <;> (repeat' split) <;> first | done | simp | simp (maxDischargeDepth := 9) [h] | (revert h; simp [Hv.latchOff, Hv.coverOff, Hv.sourceOn])
@[simp] theorem Dev.parkEnd_keeps (d : Dev) :
    (d.parkEnd).hv.lockout = d.hv.lockout ∧ (d.parkEnd).tx = d.tx ∧
      (d.parkEnd).attn.settings = d.attn.settings ∧
      (d.hv.latchOff = true → (d.parkEnd).hv.latchOff = true) ∧ (d.hv.coverOff = true → (d.parkEnd).hv.coverOff = true) := by
  unfold Dev.parkEnd <;> refine ⟨?_, ?_, ?_, fun h => ?_, fun h => ?_⟩ <;> (try dsimp only) <;> (repeat' split) <;> (try simp) <;> (repeat' split) <;> first | done | simp | simp (maxDischargeDepth := 9) [h] | (revert h; simp [Hv.latchOff, Hv.coverOff, Hv.sourceOn])
@[simp] theorem Dev.stopAfterSetup_keeps (t : Tab Bus) (d : Dev) :
    (d.stopAfterSetup t).hv.lockout = d.hv.lockout ∧ (d.stopAfterSetup t).tx = d.tx ∧
      (d.stopAfterSetup t).attn.settings = d.attn.settings ∧
      (d.hv.latchOff = true → (d.stopAfterSetup t).hv.latchOff = true) ∧ (d.hv.coverOff = true → (d.stopAfterSetup t).hv.coverOff = true) := by
  unfold Dev.stopAfterSetup <;> refine ⟨?_, ?_, ?_, fun h => ?_, fun h => ?_⟩ <;> (try dsimp only) <;> (repeat' split) <;> (try simp) <;> (repeat' split) <;> first | done | simp | simp (maxDischargeDepth := 9) [h] | (revert h; simp [Hv.latchOff, Hv.coverOff, Hv.sourceOn])
@[simp] theorem Dev.setupReport_keeps (ok : Bool) (t : Tab Bus) (d : Dev) :
    (d.setupReport ok t).hv.lockout = d.hv.lockout ∧ (d.setupReport ok t).tx = d.tx ∧
      (d.setupReport ok t).attn.settings = d.attn.settings ∧
      (d.hv.latchOff = true → (d.setupReport ok t).hv.latchOff = true) ∧ (d.hv.coverOff = true → (d.setupReport ok t).hv.coverOff = true) := by
  unfold Dev.setupReport <;> refine ⟨?_, ?_, ?_, fun h => ?_, fun h => ?_⟩ <;> (try dsimp only) <;> (repeat' split) <;> (try simp) <;> (repeat' split) <;> first | done | simp | simp (maxDischargeDepth := 9) [h] | (revert h; simp [Hv.latchOff, Hv.coverOff, Hv.sourceOn])
@[simp] theorem Dev.beginClosing_keeps (d : Dev) :
    (d.beginClosing).hv.lockout = d.hv.lockout ∧ (d.beginClosing).tx = d.tx ∧
      (d.beginClosing).attn.settings = d.attn.settings ∧
      (d.hv.latchOff = true → (d.beginClosing).hv.latchOff = true) ∧ (d.hv.coverOff = true → (d.beginClosing).hv.coverOff = true) := by
  unfold Dev.beginClosing <;> refine ⟨?_, ?_, ?_, fun h => ?_, fun h => ?_⟩ <;> (try dsimp only) <;> (repeat' split) <;> (try simp) <;> (repeat' split) <;> first | done | simp | simp (maxDischargeDepth := 9) [h] | (revert h; simp [Hv.latchOff, Hv.coverOff, Hv.sourceOn])
@[simp] theorem Dev.beginOpening_keeps (d : Dev) :
    (d.beginOpening).hv.lockout = d.hv.lockout ∧ (d.beginOpening).tx = d.tx ∧
      (d.beginOpening).attn.settings = d.attn.settings ∧
      (d.hv.latchOff = true → (d.beginOpening).hv.latchOff = true) ∧ (d.hv.coverOff = true → (d.beginOpening).hv.coverOff = true) := by
  unfold Dev.beginOpening <;> refine ⟨?_, ?_, ?_, fun h => ?_, fun h => ?_⟩ <;> (try dsimp only) <;> (repeat' split) <;> (try simp) <;> (repeat' split) <;> first | done | simp | simp (maxDischargeDepth := 9) [h] | (revert h; simp [Hv.latchOff, Hv.coverOff, Hv.sourceOn])
@[simp] theorem Dev.beginRecovery_keeps (d : Dev) :
    (d.beginRecovery).hv.lockout = d.hv.lockout ∧ (d.beginRecovery).tx = d.tx ∧
      (d.beginRecovery).attn.settings = d.attn.settings ∧
      (d.hv.latchOff = true → (d.beginRecovery).hv.latchOff = true) ∧ (d.hv.coverOff = true → (d.beginRecovery).hv.coverOff = true) := by
  unfold Dev.beginRecovery <;> refine ⟨?_, ?_, ?_, fun h => ?_, fun h => ?_⟩ <;> (try dsimp only) <;> (repeat' split) <;> (try simp) <;> (repeat' split) <;> first | done | simp | simp (maxDischargeDepth := 9) [h] | (revert h; simp [Hv.latchOff, Hv.coverOff, Hv.sourceOn])
@[simp] theorem Dev.takeSetup_keeps (t : Tab Bus) (d : Dev) :
    (d.takeSetup t).hv.lockout = d.hv.lockout ∧ (d.takeSetup t).tx = d.tx ∧
      (d.takeSetup t).attn.settings = d.attn.settings ∧
      (d.hv.latchOff = true → (d.takeSetup t).hv.latchOff = true) ∧ (d.hv.coverOff = true → (d.takeSetup t).hv.coverOff = true) := by
  unfold Dev.takeSetup <;> refine ⟨?_, ?_, ?_, fun h => ?_, fun h => ?_⟩ <;> (try dsimp only) <;> (repeat' split) <;> (try simp) <;> (repeat' split) <;> first | done | simp | simp (maxDischargeDepth := 9) [h] | (revert h; simp [Hv.latchOff, Hv.coverOff, Hv.sourceOn])
@[simp] theorem Dev.requestSetup_keeps (t : Tab Bus) (d : Dev) :
    (d.requestSetup t).hv.lockout = d.hv.lockout ∧ (d.requestSetup t).tx = d.tx ∧
      (d.requestSetup t).attn.settings = d.attn.settings ∧
      (d.hv.latchOff = true → (d.requestSetup t).hv.latchOff = true) ∧ (d.hv.coverOff = true → (d.requestSetup t).hv.coverOff = true) := by
  unfold Dev.requestSetup <;> refine ⟨?_, ?_, ?_, fun h => ?_, fun h => ?_⟩ <;> (try dsimp only) <;> (repeat' split) <;> (try simp) <;> (repeat' split) <;> first | done | simp | simp (maxDischargeDepth := 9) [h] | (revert h; simp [Hv.latchOff, Hv.coverOff, Hv.sourceOn])
@[simp] theorem Dev.syncStatus_keeps (d : Dev) :
    d.syncStatus.hv = d.hv ∧ d.syncStatus.tx = d.tx ∧ d.syncStatus.attn = d.attn := by
  rw [Dev.syncStatus_eq]; exact ⟨rfl, rfl, rfl⟩

@[simp] theorem Dev.setupEnd_keeps (ok : Bool) (d : Dev) :
    (d.setupEnd ok).hv.lockout = d.hv.lockout ∧ (d.setupEnd ok).tx = d.tx ∧
      (d.setupEnd ok).attn.settings = d.attn.settings ∧
      (d.hv.latchOff = true → (d.setupEnd ok).hv.latchOff = true) ∧ (d.hv.coverOff = true → (d.setupEnd ok).hv.coverOff = true) := by
  unfold Dev.setupEnd <;> refine ⟨?_, ?_, ?_, fun h => ?_, fun h => ?_⟩ <;> (try dsimp only) <;> (repeat' split) <;> (try simp) <;> (repeat' split) <;> first | done | simp | simp (maxDischargeDepth := 9) [h] | (revert h; simp [Hv.latchOff, Hv.coverOff, Hv.sourceOn])
@[simp] theorem Dev.dropSetup_keeps (d : Dev) :
    (d.dropSetup).hv.lockout = d.hv.lockout ∧ (d.dropSetup).tx = d.tx ∧
      (d.dropSetup).attn.settings = d.attn.settings ∧
      (d.hv.latchOff = true → (d.dropSetup).hv.latchOff = true) ∧ (d.hv.coverOff = true → (d.dropSetup).hv.coverOff = true) := by
  unfold Dev.dropSetup <;> refine ⟨?_, ?_, ?_, fun h => ?_, fun h => ?_⟩ <;> (try dsimp only) <;> (repeat' split) <;> (try simp) <;> (repeat' split) <;> first | done | simp | simp (maxDischargeDepth := 9) [h] | (revert h; simp [Hv.latchOff, Hv.coverOff, Hv.sourceOn])
@[simp] theorem Dev.tryDriveOn_keeps (d : Dev) :
    (d.tryDriveOn).hv.lockout = d.hv.lockout ∧ (d.tryDriveOn).tx = d.tx ∧
      (d.tryDriveOn).attn.settings = d.attn.settings ∧
      (d.hv.latchOff = true → (d.tryDriveOn).hv.latchOff = true) ∧ (d.hv.coverOff = true → (d.tryDriveOn).hv.coverOff = true) := by
  unfold Dev.tryDriveOn <;> refine ⟨?_, ?_, ?_, fun h => ?_, fun h => ?_⟩ <;> (try dsimp only) <;> (repeat' split) <;> (try simp) <;> (repeat' split) <;> first | done | simp | simp (maxDischargeDepth := 9) [h] | (revert h; simp [Hv.latchOff, Hv.coverOff, Hv.sourceOn])
@[simp] theorem Dev.unparkStop_keeps (d : Dev) :
    (d.unparkStop).hv.lockout = d.hv.lockout ∧ (d.unparkStop).tx = d.tx ∧
      (d.unparkStop).attn.settings = d.attn.settings ∧
      (d.hv.latchOff = true → (d.unparkStop).hv.latchOff = true) ∧ (d.hv.coverOff = true → (d.unparkStop).hv.coverOff = true) := by
  unfold Dev.unparkStop <;> refine ⟨?_, ?_, ?_, fun h => ?_, fun h => ?_⟩ <;> (try dsimp only) <;> (repeat' split) <;> (try simp) <;> (repeat' split) <;> first | done | simp | simp (maxDischargeDepth := 9) [h] | (revert h; simp [Hv.latchOff, Hv.coverOff, Hv.sourceOn])
@[simp] theorem Dev.beginRecord_keeps (d : Dev) :
    (d.beginRecord).hv.lockout = d.hv.lockout ∧ (d.beginRecord).tx = d.tx ∧
      (d.beginRecord).attn.settings = d.attn.settings ∧
      (d.hv.latchOff = true → (d.beginRecord).hv.latchOff = true) ∧ (d.hv.coverOff = true → (d.beginRecord).hv.coverOff = true) := by
  unfold Dev.beginRecord <;> refine ⟨?_, ?_, ?_, fun h => ?_, fun h => ?_⟩ <;> (try dsimp only) <;> (repeat' split) <;> (try simp) <;> (repeat' split) <;> first | done | simp | simp (maxDischargeDepth := 9) [h] | (revert h; simp [Hv.latchOff, Hv.coverOff, Hv.sourceOn])
@[simp] theorem Dev.pairEnd_keeps (k : Nat) (conducts : Bool) (d : Dev) :
    (d.pairEnd k conducts).hv.lockout = d.hv.lockout ∧ (d.pairEnd k conducts).tx = d.tx ∧
      (d.pairEnd k conducts).attn.settings = d.attn.settings ∧
      (d.hv.latchOff = true → (d.pairEnd k conducts).hv.latchOff = true) ∧ (d.hv.coverOff = true → (d.pairEnd k conducts).hv.coverOff = true) := by
  unfold Dev.pairEnd <;> refine ⟨?_, ?_, ?_, fun h => ?_, fun h => ?_⟩ <;> (try dsimp only) <;> (repeat' split) <;> (try simp) <;> (repeat' split) <;> first | done | simp | simp (maxDischargeDepth := 9) [h] | (revert h; simp [Hv.latchOff, Hv.coverOff, Hv.sourceOn])
@[simp] theorem Dev.recordRead_keeps (d : Dev) :
    (d.recordRead).hv.lockout = d.hv.lockout ∧ (d.recordRead).tx = d.tx ∧
      (d.recordRead).attn.settings = d.attn.settings ∧
      (d.hv.latchOff = true → (d.recordRead).hv.latchOff = true) ∧ (d.hv.coverOff = true → (d.recordRead).hv.coverOff = true) := by
  unfold Dev.recordRead <;> refine ⟨?_, ?_, ?_, fun h => ?_, fun h => ?_⟩ <;> (try dsimp only) <;> (repeat' split) <;> (try simp) <;> (repeat' split) <;> first | done | simp | simp (maxDischargeDepth := 9) [h] | (revert h; simp [Hv.latchOff, Hv.coverOff, Hv.sourceOn])
@[simp] theorem Dev.recordCheck_keeps (d : Dev) :
    (d.recordCheck).hv.lockout = d.hv.lockout ∧ (d.recordCheck).tx = d.tx ∧
      (d.recordCheck).attn.settings = d.attn.settings ∧
      (d.hv.latchOff = true → (d.recordCheck).hv.latchOff = true) ∧ (d.hv.coverOff = true → (d.recordCheck).hv.coverOff = true) := by
  unfold Dev.recordCheck <;> refine ⟨?_, ?_, ?_, fun h => ?_, fun h => ?_⟩ <;> (try dsimp only) <;> (repeat' split) <;> (try simp) <;> (repeat' split) <;> first | done | simp | simp (maxDischargeDepth := 9) [h] | (revert h; simp [Hv.latchOff, Hv.coverOff, Hv.sourceOn])
@[simp] theorem Dev.recordStop_keeps (d : Dev) :
    (d.recordStop).hv.lockout = d.hv.lockout ∧ (d.recordStop).tx = d.tx ∧
      (d.recordStop).attn.settings = d.attn.settings ∧
      (d.hv.latchOff = true → (d.recordStop).hv.latchOff = true) ∧ (d.hv.coverOff = true → (d.recordStop).hv.coverOff = true) := by
  unfold Dev.recordStop <;> refine ⟨?_, ?_, ?_, fun h => ?_, fun h => ?_⟩ <;> (try dsimp only) <;> (repeat' split) <;> (try simp) <;> (repeat' split) <;> first | done | simp | simp (maxDischargeDepth := 9) [h] | (revert h; simp [Hv.latchOff, Hv.coverOff, Hv.sourceOn])
@[simp] theorem Dev.recordEnd_keeps (d : Dev) :
    (d.recordEnd).hv.lockout = d.hv.lockout ∧ (d.recordEnd).tx = d.tx ∧
      (d.recordEnd).attn.settings = d.attn.settings ∧
      (d.hv.latchOff = true → (d.recordEnd).hv.latchOff = true) ∧ (d.hv.coverOff = true → (d.recordEnd).hv.coverOff = true) := by
  unfold Dev.recordEnd <;> refine ⟨?_, ?_, ?_, fun h => ?_, fun h => ?_⟩ <;> (try dsimp only) <;> (repeat' split) <;> (try simp) <;> (repeat' split) <;> first | done | simp | simp (maxDischargeDepth := 9) [h] | (revert h; simp [Hv.latchOff, Hv.coverOff, Hv.sourceOn])
@[simp] theorem Dev.faultCard_keeps (c : Nat) (d : Dev) :
    (d.faultCard c).hv.lockout = d.hv.lockout ∧ (d.faultCard c).tx = d.tx ∧
      (d.faultCard c).attn.settings = d.attn.settings ∧
      (d.hv.latchOff = true → (d.faultCard c).hv.latchOff = true) ∧ (d.hv.coverOff = true → (d.faultCard c).hv.coverOff = true) := by
  unfold Dev.faultCard <;> refine ⟨?_, ?_, ?_, fun h => ?_, fun h => ?_⟩ <;> (try dsimp only) <;> (repeat' split) <;> (try simp) <;> (repeat' split) <;> first | done | simp | simp (maxDischargeDepth := 9) [h] | (revert h; simp [Hv.latchOff, Hv.coverOff, Hv.sourceOn])
@[simp] theorem Dev.echoCorrect_keeps (d : Dev) :
    (d.echoCorrect).hv.lockout = d.hv.lockout ∧ (d.echoCorrect).tx = d.tx ∧
      (d.echoCorrect).attn.settings = d.attn.settings ∧
      (d.hv.latchOff = true → (d.echoCorrect).hv.latchOff = true) ∧ (d.hv.coverOff = true → (d.echoCorrect).hv.coverOff = true) := by
  unfold Dev.echoCorrect Dev.unlessStopped <;> refine ⟨?_, ?_, ?_, fun h => ?_, fun h => ?_⟩ <;> (try dsimp only) <;> (repeat' split) <;> (try simp) <;> (repeat' split) <;> first | done | simp | simp (maxDischargeDepth := 9) [h] | (revert h; simp [Hv.latchOff, Hv.coverOff, Hv.sourceOn])
@[simp] theorem Dev.exchangeFailed_keeps (d : Dev) :
    (d.exchangeFailed).hv.lockout = d.hv.lockout ∧ (d.exchangeFailed).tx = d.tx ∧
      (d.exchangeFailed).attn.settings = d.attn.settings ∧
      (d.hv.latchOff = true → (d.exchangeFailed).hv.latchOff = true) ∧ (d.hv.coverOff = true → (d.exchangeFailed).hv.coverOff = true) := by
  unfold Dev.exchangeFailed Dev.unlessStopped <;> refine ⟨?_, ?_, ?_, fun h => ?_, fun h => ?_⟩ <;> (try dsimp only) <;> (repeat' split) <;> (try simp) <;> (repeat' split) <;> first | done | simp | simp (maxDischargeDepth := 9) [h] | (revert h; simp [Hv.latchOff, Hv.coverOff, Hv.sourceOn])
@[simp] theorem Dev.attemptFailed_keeps (missing : Bool) (d : Dev) :
    (d.attemptFailed missing).hv.lockout = d.hv.lockout ∧ (d.attemptFailed missing).tx = d.tx ∧
      (d.attemptFailed missing).attn.settings = d.attn.settings ∧
      (d.hv.latchOff = true → (d.attemptFailed missing).hv.latchOff = true) ∧ (d.hv.coverOff = true → (d.attemptFailed missing).hv.coverOff = true) := by
  unfold Dev.attemptFailed <;> refine ⟨?_, ?_, ?_, fun h => ?_, fun h => ?_⟩ <;> (try dsimp only) <;> (repeat' split) <;> (try simp) <;> (repeat' split) <;> first | done | simp | simp (maxDischargeDepth := 9) [h] | (revert h; simp [Hv.latchOff, Hv.coverOff, Hv.sourceOn])
@[simp] theorem Dev.echo_keeps (pattern : List Bus) (d : Dev) :
    (d.echo pattern).hv.lockout = d.hv.lockout ∧ (d.echo pattern).tx = d.tx ∧
      (d.echo pattern).attn.settings = d.attn.settings ∧
      (d.hv.latchOff = true → (d.echo pattern).hv.latchOff = true) ∧ (d.hv.coverOff = true → (d.echo pattern).hv.coverOff = true) := by
  unfold Dev.echo <;> refine ⟨?_, ?_, ?_, fun h => ?_, fun h => ?_⟩ <;> (try dsimp only) <;> (repeat' split) <;> (try simp) <;> (repeat' split) <;> first | done | simp | simp (maxDischargeDepth := 9) [h] | (revert h; simp [Hv.latchOff, Hv.coverOff, Hv.sourceOn])
@[simp] theorem Dev.echoMissing_keeps (d : Dev) :
    (d.echoMissing).hv.lockout = d.hv.lockout ∧ (d.echoMissing).tx = d.tx ∧
      (d.echoMissing).attn.settings = d.attn.settings ∧
      (d.hv.latchOff = true → (d.echoMissing).hv.latchOff = true) ∧ (d.hv.coverOff = true → (d.echoMissing).hv.coverOff = true) := by
  unfold Dev.echoMissing <;> refine ⟨?_, ?_, ?_, fun h => ?_, fun h => ?_⟩ <;> (try dsimp only) <;> (repeat' split) <;> (try simp) <;> (repeat' split) <;> first | done | simp | simp (maxDischargeDepth := 9) [h] | (revert h; simp [Hv.latchOff, Hv.coverOff, Hv.sourceOn])
@[simp] theorem Dev.frameEnd_keeps (d : Dev) :
    (d.frameEnd).hv.lockout = d.hv.lockout ∧ (d.frameEnd).tx = d.tx ∧
      (d.frameEnd).attn.settings = d.attn.settings ∧
      (d.hv.latchOff = true → (d.frameEnd).hv.latchOff = true) ∧ (d.hv.coverOff = true → (d.frameEnd).hv.coverOff = true) := by
  unfold Dev.frameEnd Dev.unlessStopped <;> refine ⟨?_, ?_, ?_, fun h => ?_, fun h => ?_⟩ <;> (try dsimp only) <;> (repeat' split) <;> (try simp) <;> (repeat' split) <;> first | done | simp | simp (maxDischargeDepth := 9) [h] | (revert h; simp [Hv.latchOff, Hv.coverOff, Hv.sourceOn])
@[simp] theorem Dev.releaseExpired_keeps (d : Dev) :
    (d.releaseExpired).hv.lockout = d.hv.lockout ∧ (d.releaseExpired).tx = d.tx ∧
      (d.releaseExpired).attn.settings = d.attn.settings ∧
      (d.hv.latchOff = true → (d.releaseExpired).hv.latchOff = true) ∧ (d.hv.coverOff = true → (d.releaseExpired).hv.coverOff = true) := by
  unfold Dev.releaseExpired <;> refine ⟨?_, ?_, ?_, fun h => ?_, fun h => ?_⟩ <;> (try dsimp only) <;> (repeat' split) <;> (try simp) <;> (repeat' split) <;> first | done | simp | simp (maxDischargeDepth := 9) [h] | (revert h; simp [Hv.latchOff, Hv.coverOff, Hv.sourceOn])
@[simp] theorem Dev.settleExpired_keeps (d : Dev) :
    (d.settleExpired).hv.lockout = d.hv.lockout ∧ (d.settleExpired).tx = d.tx ∧
      (d.settleExpired).attn.settings = d.attn.settings ∧
      (d.hv.latchOff = true → (d.settleExpired).hv.latchOff = true) ∧ (d.hv.coverOff = true → (d.settleExpired).hv.coverOff = true) := by
  unfold Dev.settleExpired <;> refine ⟨?_, ?_, ?_, fun h => ?_, fun h => ?_⟩ <;> (try dsimp only) <;> (repeat' split) <;> (try simp) <;> (repeat' split) <;> first | done | simp | simp (maxDischargeDepth := 9) [h] | (revert h; simp [Hv.latchOff, Hv.coverOff, Hv.sourceOn])
@[simp] theorem Dev.offExpired_keeps (d : Dev) :
    (d.offExpired).hv.lockout = d.hv.lockout ∧ (d.offExpired).tx = d.tx ∧
      (d.offExpired).attn.settings = d.attn.settings ∧
      (d.hv.latchOff = true → (d.offExpired).hv.latchOff = true) ∧ (d.hv.coverOff = true → (d.offExpired).hv.coverOff = true) := by
  unfold Dev.offExpired <;> refine ⟨?_, ?_, ?_, fun h => ?_, fun h => ?_⟩ <;> (try dsimp only) <;> (repeat' split) <;> (try simp) <;> (repeat' split) <;> first | done | simp | simp (maxDischargeDepth := 9) [h] | (revert h; simp [Hv.latchOff, Hv.coverOff, Hv.sourceOn])
@[simp] theorem Dev.unparkSettled_keeps (d : Dev) :
    (d.unparkSettled).hv.lockout = d.hv.lockout ∧ (d.unparkSettled).tx = d.tx ∧
      (d.unparkSettled).attn.settings = d.attn.settings ∧
      (d.hv.latchOff = true → (d.unparkSettled).hv.latchOff = true) ∧ (d.hv.coverOff = true → (d.unparkSettled).hv.coverOff = true) := by
  unfold Dev.unparkSettled <;> refine ⟨?_, ?_, ?_, fun h => ?_, fun h => ?_⟩ <;> (try dsimp only) <;> (repeat' split) <;> (try simp) <;> (repeat' split) <;> first | done | simp | simp (maxDischargeDepth := 9) [h] | (revert h; simp [Hv.latchOff, Hv.coverOff, Hv.sourceOn])
@[simp] theorem Dev.matrixDischarged_keeps (d : Dev) :
    (d.matrixDischarged).hv.lockout = d.hv.lockout ∧ (d.matrixDischarged).tx = d.tx ∧
      (d.matrixDischarged).attn.settings = d.attn.settings ∧
      (d.hv.latchOff = true → (d.matrixDischarged).hv.latchOff = true) ∧ (d.hv.coverOff = true → (d.matrixDischarged).hv.coverOff = true) := by
  unfold Dev.matrixDischarged <;> refine ⟨?_, ?_, ?_, fun h => ?_, fun h => ?_⟩ <;> (try dsimp only) <;> (repeat' split) <;> (try simp) <;> (repeat' split) <;> first | done | simp | simp (maxDischargeDepth := 9) [h] | (revert h; simp [Hv.latchOff, Hv.coverOff, Hv.sourceOn])
@[simp] theorem Dev.parkStart_keeps (d : Dev) :
    (d.parkStart).hv.lockout = d.hv.lockout ∧ (d.parkStart).tx = d.tx ∧
      (d.parkStart).attn.settings = d.attn.settings ∧
      (d.hv.latchOff = true → (d.parkStart).hv.latchOff = true) ∧ (d.hv.coverOff = true → (d.parkStart).hv.coverOff = true) := by
  unfold Dev.parkStart <;> refine ⟨?_, ?_, ?_, fun h => ?_, fun h => ?_⟩ <;> (try dsimp only) <;> (repeat' split) <;> (try simp) <;> (repeat' split) <;> first | done | simp | simp (maxDischargeDepth := 9) [h] | (revert h; simp [Hv.latchOff, Hv.coverOff, Hv.sourceOn])
@[simp] theorem Dev.parkWaited_keeps (d : Dev) :
    (d.parkWaited).hv.lockout = d.hv.lockout ∧ (d.parkWaited).tx = d.tx ∧
      (d.parkWaited).attn.settings = d.attn.settings ∧
      (d.hv.latchOff = true → (d.parkWaited).hv.latchOff = true) ∧ (d.hv.coverOff = true → (d.parkWaited).hv.coverOff = true) := by
  unfold Dev.parkWaited <;> refine ⟨?_, ?_, ?_, fun h => ?_, fun h => ?_⟩ <;> (try dsimp only) <;> (repeat' split) <;> (try simp) <;> (repeat' split) <;> first | done | simp | simp (maxDischargeDepth := 9) [h] | (revert h; simp [Hv.latchOff, Hv.coverOff, Hv.sourceOn])
@[simp] theorem Dev.unparkStart_keeps (d : Dev) :
    (d.unparkStart).hv.lockout = d.hv.lockout ∧ (d.unparkStart).tx = d.tx ∧
      (d.unparkStart).attn.settings = d.attn.settings ∧
      (d.hv.latchOff = true → (d.unparkStart).hv.latchOff = true) ∧ (d.hv.coverOff = true → (d.unparkStart).hv.coverOff = true) := by
  unfold Dev.unparkStart <;> refine ⟨?_, ?_, ?_, fun h => ?_, fun h => ?_⟩ <;> (try dsimp only) <;> (repeat' split) <;> (try simp) <;> (repeat' split) <;> first | done | simp | simp (maxDischargeDepth := 9) [h] | (revert h; simp [Hv.latchOff, Hv.coverOff, Hv.sourceOn])
@[simp] theorem Dev.matrixSoftReset_keeps (d : Dev) :
    (d.matrixSoftReset).hv.lockout = d.hv.lockout ∧ (d.matrixSoftReset).tx = d.tx ∧
      (d.matrixSoftReset).attn.settings = d.attn.settings ∧
      (d.hv.latchOff = true → (d.matrixSoftReset).hv.latchOff = true) ∧ (d.hv.coverOff = true → (d.matrixSoftReset).hv.coverOff = true) := by
  unfold Dev.matrixSoftReset <;> refine ⟨?_, ?_, ?_, fun h => ?_, fun h => ?_⟩ <;> (try dsimp only) <;> (repeat' split) <;> (try simp) <;> (repeat' split) <;> first | done | simp | simp (maxDischargeDepth := 9) [h] | (revert h; simp [Hv.latchOff, Hv.coverOff, Hv.sourceOn])
@[simp] theorem Dev.enterDischarge_keeps (d : Dev) :
    (d.enterDischarge).hv.lockout = d.hv.lockout ∧ (d.enterDischarge).tx = d.tx ∧
      (d.enterDischarge).attn.settings = d.attn.settings ∧
      (d.hv.latchOff = true → (d.enterDischarge).hv.latchOff = true) ∧ (d.hv.coverOff = true → (d.enterDischarge).hv.coverOff = true) := by
  unfold Dev.enterDischarge <;> refine ⟨?_, ?_, ?_, fun h => ?_, fun h => ?_⟩ <;> (try dsimp only) <;> (repeat' split) <;> (try simp) <;> (repeat' split) <;> first | done | simp | simp (maxDischargeDepth := 9) [h] | (revert h; simp [Hv.latchOff, Hv.coverOff, Hv.sourceOn])
@[simp] theorem Dev.dropSource_keeps (d : Dev) :
    (d.dropSource).hv.lockout = d.hv.lockout ∧ (d.dropSource).tx = d.tx ∧
      (d.dropSource).attn.settings = d.attn.settings ∧
      (d.hv.latchOff = true → (d.dropSource).hv.latchOff = true) ∧ (d.hv.coverOff = true → (d.dropSource).hv.coverOff = true) := by
  unfold Dev.dropSource <;> refine ⟨?_, ?_, ?_, fun h => ?_, fun h => ?_⟩ <;> (try dsimp only) <;> (repeat' split) <;> (try simp) <;> (repeat' split) <;> first | done | simp | simp (maxDischargeDepth := 9) [h] | (revert h; simp [Hv.latchOff, Hv.coverOff, Hv.sourceOn])
@[simp] theorem Dev.askDischarge_keeps (d : Dev) :
    (d.askDischarge).hv.lockout = d.hv.lockout ∧ (d.askDischarge).tx = d.tx ∧
      (d.askDischarge).attn.settings = d.attn.settings ∧
      (d.hv.latchOff = true → (d.askDischarge).hv.latchOff = true) ∧ (d.hv.coverOff = true → (d.askDischarge).hv.coverOff = true) := by
  unfold Dev.askDischarge <;> refine ⟨?_, ?_, ?_, fun h => ?_, fun h => ?_⟩ <;> (try dsimp only) <;> (repeat' split) <;> (try simp) <;> (repeat' split) <;> first | done | simp | simp (maxDischargeDepth := 9) [h] | (have h' := (Dev.dropSource_keeps d).2.2.2.1 h; revert h'; simp [Hv.latchOff, Hv.sourceOn]) | (have h' := (Dev.dropSource_keeps d).2.2.2.2 h; revert h'; simp [Hv.coverOff, Hv.sourceOn])
@[simp] theorem Dev.recharge_keeps (d : Dev) :
    (d.recharge).hv.lockout = d.hv.lockout ∧ (d.recharge).tx = d.tx ∧
      (d.recharge).attn.settings = d.attn.settings ∧
      (d.hv.latchOff = true → (d.recharge).hv.latchOff = true) ∧ (d.hv.coverOff = true → (d.recharge).hv.coverOff = true) := by
  unfold Dev.recharge <;> refine ⟨?_, ?_, ?_, fun h => ?_, fun h => ?_⟩ <;> (try dsimp only) <;> (repeat' split) <;> (try simp) <;> (repeat' split) <;> first | done | simp | simp (maxDischargeDepth := 9) [h] | (revert h; simp [Hv.latchOff, Hv.coverOff, Hv.sourceOn])
@[simp] theorem Dev.hvSoftReset_keeps (d : Dev) :
    (d.hvSoftReset).hv.lockout = d.hv.lockout ∧ (d.hvSoftReset).tx = d.tx ∧
      (d.hvSoftReset).attn.settings = d.attn.settings ∧
      (d.hv.latchOff = true → (d.hvSoftReset).hv.latchOff = true) ∧ (d.hv.coverOff = true → (d.hvSoftReset).hv.coverOff = true) := by
  unfold Dev.hvSoftReset <;> refine ⟨?_, ?_, ?_, fun h => ?_, fun h => ?_⟩ <;> (try dsimp only) <;> (repeat' split) <;> (try simp) <;> (repeat' split) <;> first | done | simp | simp (maxDischargeDepth := 9) [h] | (have h' := (Dev.dropSource_keeps d).2.2.2.1 h; revert h'; simp [Hv.latchOff, Hv.sourceOn]) | (have h' := (Dev.dropSource_keeps d).2.2.2.2 h; revert h'; simp [Hv.coverOff, Hv.sourceOn])
@[simp] theorem Dev.refuseNetlist_keeps (c : Code) (net : Nat) (point : Option Nat) (d : Dev) :
    (d.refuseNetlist c net point).hv.lockout = d.hv.lockout ∧ (d.refuseNetlist c net point).tx = d.tx ∧
      (d.refuseNetlist c net point).attn.settings = d.attn.settings ∧
      (d.hv.latchOff = true → (d.refuseNetlist c net point).hv.latchOff = true) ∧ (d.hv.coverOff = true → (d.refuseNetlist c net point).hv.coverOff = true) := by
  unfold Dev.refuseNetlist <;> refine ⟨?_, ?_, ?_, fun h => ?_, fun h => ?_⟩ <;> (try dsimp only) <;> (repeat' split) <;> (try simp) <;> (repeat' split) <;> first | done | simp | simp (maxDischargeDepth := 9) [h] | (revert h; simp [Hv.latchOff, Hv.coverOff, Hv.sourceOn])
@[simp] theorem Dev.valBegin_keeps (d : Dev) :
    (d.valBegin).hv.lockout = d.hv.lockout ∧ (d.valBegin).tx = d.tx ∧
      (d.valBegin).attn.settings = d.attn.settings ∧
      (d.hv.latchOff = true → (d.valBegin).hv.latchOff = true) ∧ (d.hv.coverOff = true → (d.valBegin).hv.coverOff = true) := by
  unfold Dev.valBegin <;> refine ⟨?_, ?_, ?_, fun h => ?_, fun h => ?_⟩ <;> (try dsimp only) <;> (repeat' split) <;> (try simp) <;> (repeat' split) <;> first | done | simp | simp (maxDischargeDepth := 9) [h] | (revert h; simp [Hv.latchOff, Hv.coverOff, Hv.sourceOn])
@[simp] theorem Dev.valHead_keeps (d : Dev) :
    (d.valHead).hv.lockout = d.hv.lockout ∧ (d.valHead).tx = d.tx ∧
      (d.valHead).attn.settings = d.attn.settings ∧
      (d.hv.latchOff = true → (d.valHead).hv.latchOff = true) ∧ (d.hv.coverOff = true → (d.valHead).hv.coverOff = true) := by
  unfold Dev.valHead <;> refine ⟨?_, ?_, ?_, fun h => ?_, fun h => ?_⟩ <;> (try dsimp only) <;> (repeat' split) <;> (try simp) <;> (repeat' split) <;> first | done | simp | simp (maxDischargeDepth := 9) [h] | (revert h; simp [Hv.latchOff, Hv.coverOff, Hv.sourceOn])
@[simp] theorem Dev.valNet_keeps (n off : Nat) (d : Dev) :
    (d.valNet n off).hv.lockout = d.hv.lockout ∧ (d.valNet n off).tx = d.tx ∧
      (d.valNet n off).attn.settings = d.attn.settings ∧
      (d.hv.latchOff = true → (d.valNet n off).hv.latchOff = true) ∧ (d.hv.coverOff = true → (d.valNet n off).hv.coverOff = true) := by
  unfold Dev.valNet <;> refine ⟨?_, ?_, ?_, fun h => ?_, fun h => ?_⟩ <;> (try dsimp only) <;> (repeat' split) <;> (try simp) <;> (repeat' split) <;> first | done | simp | simp (maxDischargeDepth := 9) [h] | (revert h; simp [Hv.latchOff, Hv.coverOff, Hv.sourceOn])
@[simp] theorem Dev.valRecord_keeps (n off : Nat) (d : Dev) :
    (d.valRecord n off).hv.lockout = d.hv.lockout ∧ (d.valRecord n off).tx = d.tx ∧
      (d.valRecord n off).attn.settings = d.attn.settings ∧
      (d.hv.latchOff = true → (d.valRecord n off).hv.latchOff = true) ∧ (d.hv.coverOff = true → (d.valRecord n off).hv.coverOff = true) := by
  unfold Dev.valRecord <;> refine ⟨?_, ?_, ?_, fun h => ?_, fun h => ?_⟩ <;> (try dsimp only) <;> (repeat' split) <;> (try simp) <;> (repeat' split) <;> first | done | simp | simp (maxDischargeDepth := 9) [h] | (revert h; simp [Hv.latchOff, Hv.coverOff, Hv.sourceOn])
@[simp] theorem Dev.valParts_keeps (n off : Nat) (h : Word) (d : Dev) :
    (d.valParts n off h).hv.lockout = d.hv.lockout ∧ (d.valParts n off h).tx = d.tx ∧
      (d.valParts n off h).attn.settings = d.attn.settings ∧
      (d.hv.latchOff = true → (d.valParts n off h).hv.latchOff = true) ∧ (d.hv.coverOff = true → (d.valParts n off h).hv.coverOff = true) := by
  unfold Dev.valParts <;> refine ⟨?_, ?_, ?_, fun h => ?_, fun h => ?_⟩ <;> (try dsimp only) <;> (repeat' split) <;> (try simp) <;> (repeat' split) <;> first | done | simp | simp (maxDischargeDepth := 9) [h] | (revert h; simp [Hv.latchOff, Hv.coverOff, Hv.sourceOn])
@[simp] theorem Dev.valMembers_keeps (n at' left next : Nat) (d : Dev) :
    (d.valMembers n at' left next).hv.lockout = d.hv.lockout ∧ (d.valMembers n at' left next).tx = d.tx ∧
      (d.valMembers n at' left next).attn.settings = d.attn.settings ∧
      (d.hv.latchOff = true → (d.valMembers n at' left next).hv.latchOff = true) ∧ (d.hv.coverOff = true → (d.valMembers n at' left next).hv.coverOff = true) := by
  unfold Dev.valMembers <;> refine ⟨?_, ?_, ?_, fun h => ?_, fun h => ?_⟩ <;> (try dsimp only) <;> (repeat' split) <;> (try simp) <;> (repeat' split) <;> first | done | simp | simp (maxDischargeDepth := 9) [h] | (revert h; simp [Hv.latchOff, Hv.coverOff, Hv.sourceOn])
@[simp] theorem Dev.valMemberGot_keeps (n at' left next : Nat) (d : Dev) :
    (d.valMemberGot n at' left next).hv.lockout = d.hv.lockout ∧ (d.valMemberGot n at' left next).tx = d.tx ∧
      (d.valMemberGot n at' left next).attn.settings = d.attn.settings ∧
      (d.hv.latchOff = true → (d.valMemberGot n at' left next).hv.latchOff = true) ∧ (d.hv.coverOff = true → (d.valMemberGot n at' left next).hv.coverOff = true) := by
  unfold Dev.valMemberGot <;> refine ⟨?_, ?_, ?_, fun h => ?_, fun h => ?_⟩ <;> (try dsimp only) <;> (repeat' split) <;> (try simp) <;> (repeat' split) <;> first | done | simp | simp (maxDischargeDepth := 9) [h] | (revert h; simp [Hv.latchOff, Hv.coverOff, Hv.sourceOn])
@[simp] theorem Dev.compBlock_keeps (i : Nat) (d : Dev) :
    (d.compBlock i).hv.lockout = d.hv.lockout ∧ (d.compBlock i).tx = d.tx ∧
      (d.compBlock i).attn.settings = d.attn.settings ∧
      (d.hv.latchOff = true → (d.compBlock i).hv.latchOff = true) ∧ (d.hv.coverOff = true → (d.compBlock i).hv.coverOff = true) := by
  unfold Dev.compBlock <;> refine ⟨?_, ?_, ?_, fun h => ?_, fun h => ?_⟩ <;> (try dsimp only) <;> (repeat' split) <;> (try simp) <;> (repeat' split) <;> first | done | simp | simp (maxDischargeDepth := 9) [h] | (revert h; simp [Hv.latchOff, Hv.coverOff, Hv.sourceOn])
@[simp] theorem Dev.compGot_keeps (i : Nat) (d : Dev) :
    (d.compGot i).hv.lockout = d.hv.lockout ∧ (d.compGot i).tx = d.tx ∧
      (d.compGot i).attn.settings = d.attn.settings ∧
      (d.hv.latchOff = true → (d.compGot i).hv.latchOff = true) ∧ (d.hv.coverOff = true → (d.compGot i).hv.coverOff = true) := by
  unfold Dev.compGot <;> refine ⟨?_, ?_, ?_, fun h => ?_, fun h => ?_⟩ <;> (try dsimp only) <;> (repeat' split) <;> (try simp) <;> (repeat' split) <;> first | done | simp | simp (maxDischargeDepth := 9) [h] | (revert h; simp [Hv.latchOff, Hv.coverOff, Hv.sourceOn])
@[simp] theorem Dev.finding_keeps (f : Finding) (d : Dev) :
    (d.finding f).hv.lockout = d.hv.lockout ∧ (d.finding f).tx = d.tx ∧
      (d.finding f).attn.settings = d.attn.settings ∧
      (d.hv.latchOff = true → (d.finding f).hv.latchOff = true) ∧ (d.hv.coverOff = true → (d.finding f).hv.coverOff = true) := by
  unfold Dev.finding <;> refine ⟨?_, ?_, ?_, fun h => ?_, fun h => ?_⟩ <;> (try dsimp only) <;> (repeat' split) <;> (try simp) <;> (repeat' split) <;> first | done | simp | simp (maxDischargeDepth := 9) [h] | (revert h; simp [Hv.latchOff, Hv.coverOff, Hv.sourceOn])
@[simp] theorem Dev.mergeGot_keeps (f : Finding) (i : Nat) (d : Dev) :
    (d.mergeGot f i).hv.lockout = d.hv.lockout ∧ (d.mergeGot f i).tx = d.tx ∧
      (d.mergeGot f i).attn.settings = d.attn.settings ∧
      (d.hv.latchOff = true → (d.mergeGot f i).hv.latchOff = true) ∧ (d.hv.coverOff = true → (d.mergeGot f i).hv.coverOff = true) := by
  unfold Dev.mergeGot <;> refine ⟨?_, ?_, ?_, fun h => ?_, fun h => ?_⟩ <;> (try dsimp only) <;> (repeat' split) <;> (try simp) <;> (repeat' split) <;> first | done | simp | simp (maxDischargeDepth := 9) [h] | (revert h; simp [Hv.latchOff, Hv.coverOff, Hv.sourceOn])
@[simp] theorem Dev.appended_keeps (f : Finding) (d : Dev) :
    (d.appended f).hv.lockout = d.hv.lockout ∧ (d.appended f).tx = d.tx ∧
      (d.appended f).attn.settings = d.attn.settings ∧
      (d.hv.latchOff = true → (d.appended f).hv.latchOff = true) ∧ (d.hv.coverOff = true → (d.appended f).hv.coverOff = true) := by
  unfold Dev.appended <;> refine ⟨?_, ?_, ?_, fun h => ?_, fun h => ?_⟩ <;> (try dsimp only) <;> (repeat' split) <;> (try simp) <;> (repeat' split) <;> first | done | simp | simp (maxDischargeDepth := 9) [h] | (revert h; simp [Hv.latchOff, Hv.coverOff, Hv.sourceOn])
@[simp] theorem Dev.raiseDefect_keeps (f : Finding) (d : Dev) :
    (d.raiseDefect f).hv.lockout = d.hv.lockout ∧ (d.raiseDefect f).tx = d.tx ∧
      (d.raiseDefect f).attn.settings = d.attn.settings ∧
      (d.hv.latchOff = true → (d.raiseDefect f).hv.latchOff = true) ∧ (d.hv.coverOff = true → (d.raiseDefect f).hv.coverOff = true) := by
  unfold Dev.raiseDefect <;> refine ⟨?_, ?_, ?_, fun h => ?_, fun h => ?_⟩ <;> (try dsimp only) <;> (repeat' split) <;> (try simp) <;> (repeat' split) <;> first | done | simp | simp (maxDischargeDepth := 9) [h] | (revert h; simp [Hv.latchOff, Hv.coverOff, Hv.sourceOn])
@[simp] theorem Dev.absorbOpen_keeps (f : Finding) (d : Dev) :
    (d.absorbOpen f).hv.lockout = d.hv.lockout ∧ (d.absorbOpen f).tx = d.tx ∧
      (d.absorbOpen f).attn.settings = d.attn.settings ∧
      (d.hv.latchOff = true → (d.absorbOpen f).hv.latchOff = true) ∧ (d.hv.coverOff = true → (d.absorbOpen f).hv.coverOff = true) := by
  unfold Dev.absorbOpen <;> refine ⟨?_, ?_, ?_, fun h => ?_, fun h => ?_⟩ <;> (try dsimp only) <;> (repeat' split) <;> (try simp) <;> (repeat' split) <;> first | done | simp | simp (maxDischargeDepth := 9) [h] | (revert h; simp [Hv.latchOff, Hv.coverOff, Hv.sourceOn])
@[simp] theorem Dev.absorbShort_keeps (f : Finding) (d : Dev) :
    (d.absorbShort f).hv.lockout = d.hv.lockout ∧ (d.absorbShort f).tx = d.tx ∧
      (d.absorbShort f).attn.settings = d.attn.settings ∧
      (d.hv.latchOff = true → (d.absorbShort f).hv.latchOff = true) ∧ (d.hv.coverOff = true → (d.absorbShort f).hv.coverOff = true) := by
  unfold Dev.absorbShort <;> refine ⟨?_, ?_, ?_, fun h => ?_, fun h => ?_⟩ <;> (try dsimp only) <;> (repeat' split) <;> (try simp) <;> (repeat' split) <;> first | done | simp | simp (maxDischargeDepth := 9) [h] | (revert h; simp [Hv.latchOff, Hv.coverOff, Hv.sourceOn])
@[simp] theorem Dev.absorbGot_keeps (f : Finding) (i : Nat) (d : Dev) :
    (d.absorbGot f i).hv.lockout = d.hv.lockout ∧ (d.absorbGot f i).tx = d.tx ∧
      (d.absorbGot f i).attn.settings = d.attn.settings ∧
      (d.hv.latchOff = true → (d.absorbGot f i).hv.latchOff = true) ∧ (d.hv.coverOff = true → (d.absorbGot f i).hv.coverOff = true) := by
  unfold Dev.absorbGot <;> refine ⟨?_, ?_, ?_, fun h => ?_, fun h => ?_⟩ <;> (try dsimp only) <;> (repeat' split) <;> (try simp) <;> (repeat' split) <;> first | done | simp | simp (maxDischargeDepth := 9) [h] | (revert h; simp [Hv.latchOff, Hv.coverOff, Hv.sourceOn])
@[simp] theorem Dev.findingEnd_keeps (f : Finding) (a : FindAns) (d : Dev) :
    (d.findingEnd f a).hv.lockout = d.hv.lockout ∧ (d.findingEnd f a).tx = d.tx ∧
      (d.findingEnd f a).attn.settings = d.attn.settings ∧
      (d.hv.latchOff = true → (d.findingEnd f a).hv.latchOff = true) ∧ (d.hv.coverOff = true → (d.findingEnd f a).hv.coverOff = true) := by
  unfold Dev.findingEnd <;> refine ⟨?_, ?_, ?_, fun h => ?_, fun h => ?_⟩ <;> (try dsimp only) <;> (repeat' split) <;> (try simp) <;> (repeat' split) <;> first | done | simp | simp (maxDischargeDepth := 9) [h] | (revert h; simp [Hv.latchOff, Hv.coverOff, Hv.sourceOn])
@[simp] theorem Dev.clear_keeps (d : Dev) :
    (d.clear).hv.lockout = d.hv.lockout ∧ (d.clear).tx = d.tx ∧
      (d.clear).attn.settings = d.attn.settings ∧
      (d.hv.latchOff = true → (d.clear).hv.latchOff = true) ∧ (d.hv.coverOff = true → (d.clear).hv.coverOff = true) := by
  unfold Dev.clear <;> refine ⟨?_, ?_, ?_, fun h => ?_, fun h => ?_⟩ <;> (try dsimp only) <;> (repeat' split) <;> (try simp) <;> (repeat' split) <;> first | done | simp | simp (maxDischargeDepth := 9) [h] | (revert h; simp [Hv.latchOff, Hv.coverOff, Hv.sourceOn])
@[simp] theorem Dev.writeStatus_keeps (i : Nat) (d : Dev) :
    (d.writeStatus i).hv.lockout = d.hv.lockout ∧ (d.writeStatus i).tx = d.tx ∧
      (d.writeStatus i).attn.settings = d.attn.settings ∧
      (d.hv.latchOff = true → (d.writeStatus i).hv.latchOff = true) ∧ (d.hv.coverOff = true → (d.writeStatus i).hv.coverOff = true) := by
  unfold Dev.writeStatus <;> refine ⟨?_, ?_, ?_, fun h => ?_, fun h => ?_⟩ <;> (try dsimp only) <;> (repeat' split) <;> (try simp) <;> (repeat' split) <;> first | done | simp | simp (maxDischargeDepth := 9) [h] | (revert h; simp [Hv.latchOff, Hv.coverOff, Hv.sourceOn])
@[simp] theorem Dev.cleared_keeps (d : Dev) :
    (d.cleared).hv.lockout = d.hv.lockout ∧ (d.cleared).tx = d.tx ∧
      (d.cleared).attn.settings = d.attn.settings ∧
      (d.hv.latchOff = true → (d.cleared).hv.latchOff = true) ∧ (d.hv.coverOff = true → (d.cleared).hv.coverOff = true) := by
  unfold Dev.cleared <;> refine ⟨?_, ?_, ?_, fun h => ?_, fun h => ?_⟩ <;> (try dsimp only) <;> (repeat' split) <;> (try simp) <;> (repeat' split) <;> first | done | simp | simp (maxDischargeDepth := 9) [h] | (revert h; simp [Hv.latchOff, Hv.coverOff, Hv.sourceOn])
@[simp] theorem Dev.initTable_keeps (o : TableStart) (d : Dev) :
    (d.initTable o).hv.lockout = d.hv.lockout ∧ (d.initTable o).tx = d.tx ∧
      (d.initTable o).attn.settings = d.attn.settings ∧
      (d.hv.latchOff = true → (d.initTable o).hv.latchOff = true) ∧ (d.hv.coverOff = true → (d.initTable o).hv.coverOff = true) := by
  unfold Dev.initTable <;> refine ⟨?_, ?_, ?_, fun h => ?_, fun h => ?_⟩ <;> (try dsimp only) <;> (repeat' split) <;> (try simp) <;> (repeat' split) <;> first | done | simp | simp (maxDischargeDepth := 9) [h] | (revert h; simp [Hv.latchOff, Hv.coverOff, Hv.sourceOn])
@[simp] theorem Dev.bindTable_keeps (d : Dev) :
    (d.bindTable).hv.lockout = d.hv.lockout ∧ (d.bindTable).tx = d.tx ∧
      (d.bindTable).attn.settings = d.attn.settings ∧
      (d.hv.latchOff = true → (d.bindTable).hv.latchOff = true) ∧ (d.hv.coverOff = true → (d.bindTable).hv.coverOff = true) := by
  unfold Dev.bindTable <;> refine ⟨?_, ?_, ?_, fun h => ?_, fun h => ?_⟩ <;> (try dsimp only) <;> (repeat' split) <;> (try simp) <;> (repeat' split) <;> first | done | simp | simp (maxDischargeDepth := 9) [h] | (revert h; simp [Hv.latchOff, Hv.coverOff, Hv.sourceOn])
@[simp] theorem Dev.rebuildHead_keeps (d : Dev) :
    (d.rebuildHead).hv.lockout = d.hv.lockout ∧ (d.rebuildHead).tx = d.tx ∧
      (d.rebuildHead).attn.settings = d.attn.settings ∧
      (d.hv.latchOff = true → (d.rebuildHead).hv.latchOff = true) ∧ (d.hv.coverOff = true → (d.rebuildHead).hv.coverOff = true) := by
  unfold Dev.rebuildHead <;> refine ⟨?_, ?_, ?_, fun h => ?_, fun h => ?_⟩ <;> (try dsimp only) <;> (repeat' split) <;> (try simp) <;> (repeat' split) <;> first | done | simp | simp (maxDischargeDepth := 9) [h] | (revert h; simp [Hv.latchOff, Hv.coverOff, Hv.sourceOn])
@[simp] theorem Dev.rebuildEntry_keeps (i : Nat) (d : Dev) :
    (d.rebuildEntry i).hv.lockout = d.hv.lockout ∧ (d.rebuildEntry i).tx = d.tx ∧
      (d.rebuildEntry i).attn.settings = d.attn.settings ∧
      (d.hv.latchOff = true → (d.rebuildEntry i).hv.latchOff = true) ∧ (d.hv.coverOff = true → (d.rebuildEntry i).hv.coverOff = true) := by
  unfold Dev.rebuildEntry <;> refine ⟨?_, ?_, ?_, fun h => ?_, fun h => ?_⟩ <;> (try dsimp only) <;> (repeat' split) <;> (try simp) <;> (repeat' split) <;> first | done | simp | simp (maxDischargeDepth := 9) [h] | (revert h; simp [Hv.latchOff, Hv.coverOff, Hv.sourceOn])
@[simp] theorem Dev.rebuildCheck_keeps (i : Nat) (d : Dev) :
    (d.rebuildCheck i).hv.lockout = d.hv.lockout ∧ (d.rebuildCheck i).tx = d.tx ∧
      (d.rebuildCheck i).attn.settings = d.attn.settings ∧
      (d.hv.latchOff = true → (d.rebuildCheck i).hv.latchOff = true) ∧ (d.hv.coverOff = true → (d.rebuildCheck i).hv.coverOff = true) := by
  unfold Dev.rebuildCheck <;> refine ⟨?_, ?_, ?_, fun h => ?_, fun h => ?_⟩ <;> (try dsimp only) <;> (repeat' split) <;> (try simp) <;> (repeat' split) <;> first | done | simp | simp (maxDischargeDepth := 9) [h] | (revert h; simp [Hv.latchOff, Hv.coverOff, Hv.sourceOn])
@[simp] theorem Dev.bindEnd_keeps (o : TableStart) (d : Dev) :
    (d.bindEnd o).hv.lockout = d.hv.lockout ∧ (d.bindEnd o).tx = d.tx ∧
      (d.bindEnd o).attn.settings = d.attn.settings ∧
      (d.hv.latchOff = true → (d.bindEnd o).hv.latchOff = true) ∧ (d.hv.coverOff = true → (d.bindEnd o).hv.coverOff = true) := by
  unfold Dev.bindEnd <;> refine ⟨?_, ?_, ?_, fun h => ?_, fun h => ?_⟩ <;> (try dsimp only) <;> (repeat' split) <;> (try simp) <;> (repeat' split) <;> first | done | simp | simp (maxDischargeDepth := 9) [h] | (revert h; simp [Hv.latchOff, Hv.coverOff, Hv.sourceOn])
@[simp] theorem Dev.twoPoint_keeps (rng : Rng) (auto : Bool) (n ca cb : Nat) (d : Dev) :
    (d.twoPoint rng auto n ca cb).hv.lockout = d.hv.lockout ∧ (d.twoPoint rng auto n ca cb).tx = d.tx ∧
      (d.twoPoint rng auto n ca cb).attn.settings = d.attn.settings ∧
      (d.hv.latchOff = true → (d.twoPoint rng auto n ca cb).hv.latchOff = true) ∧ (d.hv.coverOff = true → (d.twoPoint rng auto n ca cb).hv.coverOff = true) := by
  unfold Dev.twoPoint <;> refine ⟨?_, ?_, ?_, fun h => ?_, fun h => ?_⟩ <;> (try dsimp only) <;> (repeat' split) <;> (try simp) <;> (repeat' split) <;> first | done | simp | simp (maxDischargeDepth := 9) [h] | (revert h; simp [Hv.latchOff, Hv.coverOff, Hv.sourceOn])
@[simp] theorem Dev.probe_keeps (n t : Nat) (d : Dev) :
    (d.probe n t).hv.lockout = d.hv.lockout ∧ (d.probe n t).tx = d.tx ∧
      (d.probe n t).attn.settings = d.attn.settings ∧
      (d.hv.latchOff = true → (d.probe n t).hv.latchOff = true) ∧ (d.hv.coverOff = true → (d.probe n t).hv.coverOff = true) := by
  unfold Dev.probe <;> refine ⟨?_, ?_, ?_, fun h => ?_, fun h => ?_⟩ <;> (try dsimp only) <;> (repeat' split) <;> (try simp) <;> (repeat' split) <;> first | done | simp | simp (maxDischargeDepth := 9) [h] | (revert h; simp [Hv.latchOff, Hv.coverOff, Hv.sourceOn])
@[simp] theorem Dev.countProbe_keeps (d : Dev) :
    (d.countProbe).hv.lockout = d.hv.lockout ∧ (d.countProbe).tx = d.tx ∧
      (d.countProbe).attn.settings = d.attn.settings ∧
      (d.hv.latchOff = true → (d.countProbe).hv.latchOff = true) ∧ (d.hv.coverOff = true → (d.countProbe).hv.coverOff = true) := by
  unfold Dev.countProbe <;> refine ⟨?_, ?_, ?_, fun h => ?_, fun h => ?_⟩ <;> (try dsimp only) <;> (repeat' split) <;> (try simp) <;> (repeat' split) <;> first | done | simp | simp (maxDischargeDepth := 9) [h] | (revert h; simp [Hv.latchOff, Hv.coverOff, Hv.sourceOn])
@[simp] theorem Dev.probeGot_keeps (d : Dev) :
    (d.probeGot).hv.lockout = d.hv.lockout ∧ (d.probeGot).tx = d.tx ∧
      (d.probeGot).attn.settings = d.attn.settings ∧
      (d.hv.latchOff = true → (d.probeGot).hv.latchOff = true) ∧ (d.hv.coverOff = true → (d.probeGot).hv.coverOff = true) := by
  unfold Dev.probeGot <;> refine ⟨?_, ?_, ?_, fun h => ?_, fun h => ?_⟩ <;> (try dsimp only) <;> (repeat' split) <;> (try simp) <;> (repeat' split) <;> first | done | simp | simp (maxDischargeDepth := 9) [h] | (revert h; simp [Hv.latchOff, Hv.coverOff, Hv.sourceOn])
@[simp] theorem Dev.judgeHalf_keeps (pts : List Nat) (next : Task) (d : Dev) :
    (d.judgeHalf pts next).hv.lockout = d.hv.lockout ∧ (d.judgeHalf pts next).tx = d.tx ∧
      (d.judgeHalf pts next).attn.settings = d.attn.settings ∧
      (d.hv.latchOff = true → (d.judgeHalf pts next).hv.latchOff = true) ∧ (d.hv.coverOff = true → (d.judgeHalf pts next).hv.coverOff = true) := by
  unfold Dev.judgeHalf <;> refine ⟨?_, ?_, ?_, fun h => ?_, fun h => ?_⟩ <;> (try dsimp only) <;> (repeat' split) <;> (try simp) <;> (repeat' split) <;> first | done | simp | simp (maxDischargeDepth := 9) [h] | (revert h; simp [Hv.latchOff, Hv.coverOff, Hv.sourceOn])
@[simp] theorem Dev.lowHalf_keeps (d : Dev) :
    (d.lowHalf).hv.lockout = d.hv.lockout ∧ (d.lowHalf).tx = d.tx ∧
      (d.lowHalf).attn.settings = d.attn.settings ∧
      (d.hv.latchOff = true → (d.lowHalf).hv.latchOff = true) ∧ (d.hv.coverOff = true → (d.lowHalf).hv.coverOff = true) := by
  unfold Dev.lowHalf <;> refine ⟨?_, ?_, ?_, fun h => ?_, fun h => ?_⟩ <;> (try dsimp only) <;> (repeat' split) <;> (try simp) <;> (repeat' split) <;> first | done | simp | simp (maxDischargeDepth := 9) [h] | (revert h; simp [Hv.latchOff, Hv.coverOff, Hv.sourceOn])
@[simp] theorem Dev.lowGot_keeps (d : Dev) :
    (d.lowGot).hv.lockout = d.hv.lockout ∧ (d.lowGot).tx = d.tx ∧
      (d.lowGot).attn.settings = d.attn.settings ∧
      (d.hv.latchOff = true → (d.lowGot).hv.latchOff = true) ∧ (d.hv.coverOff = true → (d.lowGot).hv.coverOff = true) := by
  unfold Dev.lowGot <;> refine ⟨?_, ?_, ?_, fun h => ?_, fun h => ?_⟩ <;> (try dsimp only) <;> (repeat' split) <;> (try simp) <;> (repeat' split) <;> first | done | simp | simp (maxDischargeDepth := 9) [h] | (revert h; simp [Hv.latchOff, Hv.coverOff, Hv.sourceOn])
@[simp] theorem Dev.highHalf_keeps (d : Dev) :
    (d.highHalf).hv.lockout = d.hv.lockout ∧ (d.highHalf).tx = d.tx ∧
      (d.highHalf).attn.settings = d.attn.settings ∧
      (d.hv.latchOff = true → (d.highHalf).hv.latchOff = true) ∧ (d.hv.coverOff = true → (d.highHalf).hv.coverOff = true) := by
  unfold Dev.highHalf <;> refine ⟨?_, ?_, ?_, fun h => ?_, fun h => ?_⟩ <;> (try dsimp only) <;> (repeat' split) <;> (try simp) <;> (repeat' split) <;> first | done | simp | simp (maxDischargeDepth := 9) [h] | (revert h; simp [Hv.latchOff, Hv.coverOff, Hv.sourceOn])
@[simp] theorem Dev.searchNext_keeps (d : Dev) :
    (d.searchNext).hv.lockout = d.hv.lockout ∧ (d.searchNext).tx = d.tx ∧
      (d.searchNext).attn.settings = d.attn.settings ∧
      (d.hv.latchOff = true → (d.searchNext).hv.latchOff = true) ∧ (d.hv.coverOff = true → (d.searchNext).hv.coverOff = true) := by
  unfold Dev.searchNext <;> refine ⟨?_, ?_, ?_, fun h => ?_, fun h => ?_⟩ <;> (try dsimp only) <;> (repeat' split) <;> (try simp) <;> (repeat' split) <;> first | done | simp | simp (maxDischargeDepth := 9) [h] | (revert h; simp [Hv.latchOff, Hv.coverOff, Hv.sourceOn])
@[simp] theorem Dev.highGot_keeps (d : Dev) :
    (d.highGot).hv.lockout = d.hv.lockout ∧ (d.highGot).tx = d.tx ∧
      (d.highGot).attn.settings = d.attn.settings ∧
      (d.hv.latchOff = true → (d.highGot).hv.latchOff = true) ∧ (d.hv.coverOff = true → (d.highGot).hv.coverOff = true) := by
  unfold Dev.highGot <;> refine ⟨?_, ?_, ?_, fun h => ?_, fun h => ?_⟩ <;> (try dsimp only) <;> (repeat' split) <;> (try simp) <;> (repeat' split) <;> first | done | simp | simp (maxDischargeDepth := 9) [h] | (revert h; simp [Hv.latchOff, Hv.coverOff, Hv.sourceOn])
@[simp] theorem Dev.searchStep_keeps (d : Dev) :
    (d.searchStep).hv.lockout = d.hv.lockout ∧ (d.searchStep).tx = d.tx ∧
      (d.searchStep).attn.settings = d.attn.settings ∧
      (d.hv.latchOff = true → (d.searchStep).hv.latchOff = true) ∧ (d.hv.coverOff = true → (d.searchStep).hv.coverOff = true) := by
  unfold Dev.searchStep <;> refine ⟨?_, ?_, ?_, fun h => ?_, fun h => ?_⟩ <;> (try dsimp only) <;> (repeat' split) <;> (try simp) <;> (repeat' split) <;> first | done | simp | simp (maxDischargeDepth := 9) [h] | (revert h; simp [Hv.latchOff, Hv.coverOff, Hv.sourceOn])
@[simp] theorem Dev.located_keeps (i : Nat) (last : Bool) (d : Dev) :
    (d.located i last).hv.lockout = d.hv.lockout ∧ (d.located i last).tx = d.tx ∧
      (d.located i last).attn.settings = d.attn.settings ∧
      (d.hv.latchOff = true → (d.located i last).hv.latchOff = true) ∧ (d.hv.coverOff = true → (d.located i last).hv.coverOff = true) := by
  unfold Dev.located <;> refine ⟨?_, ?_, ?_, fun h => ?_, fun h => ?_⟩ <;> (try dsimp only) <;> (repeat' split) <;> (try simp) <;> (repeat' split) <;> first | done | simp | simp (maxDischargeDepth := 9) [h] | (revert h; simp [Hv.latchOff, Hv.coverOff, Hv.sourceOn])
@[simp] theorem Dev.sweepFinding_keeps (f : Finding) (d : Dev) :
    (d.sweepFinding f).hv.lockout = d.hv.lockout ∧ (d.sweepFinding f).tx = d.tx ∧
      (d.sweepFinding f).attn.settings = d.attn.settings ∧
      (d.hv.latchOff = true → (d.sweepFinding f).hv.latchOff = true) ∧ (d.hv.coverOff = true → (d.sweepFinding f).hv.coverOff = true) := by
  unfold Dev.sweepFinding <;> refine ⟨?_, ?_, ?_, fun h => ?_, fun h => ?_⟩ <;> (try dsimp only) <;> (repeat' split) <;> (try simp) <;> (repeat' split) <;> first | done | simp | simp (maxDischargeDepth := 9) [h] | (revert h; simp [Hv.latchOff, Hv.coverOff, Hv.sourceOn])
@[simp] theorem Dev.whereisLocation_keeps (q : Nat) (v : PVal) (d : Dev) :
    (d.whereisLocation q v).hv.lockout = d.hv.lockout ∧ (d.whereisLocation q v).tx = d.tx ∧
      (d.whereisLocation q v).attn.settings = d.attn.settings ∧
      (d.hv.latchOff = true → (d.whereisLocation q v).hv.latchOff = true) ∧ (d.hv.coverOff = true → (d.whereisLocation q v).hv.coverOff = true) := by
  unfold Dev.whereisLocation <;> refine ⟨?_, ?_, ?_, fun h => ?_, fun h => ?_⟩ <;> (try dsimp only) <;> (repeat' split) <;> (try simp) <;> (repeat' split) <;> first | done | simp | simp (maxDischargeDepth := 9) [h] | (revert h; simp [Hv.latchOff, Hv.coverOff, Hv.sourceOn])
@[simp] theorem Dev.isolateLocation_keeps (q : Nat) (v : PVal) (trunc : Bool) (d : Dev) :
    (d.isolateLocation q v trunc).hv.lockout = d.hv.lockout ∧ (d.isolateLocation q v trunc).tx = d.tx ∧
      (d.isolateLocation q v trunc).attn.settings = d.attn.settings ∧
      (d.hv.latchOff = true → (d.isolateLocation q v trunc).hv.latchOff = true) ∧ (d.hv.coverOff = true → (d.isolateLocation q v trunc).hv.coverOff = true) := by
  unfold Dev.isolateLocation <;> refine ⟨?_, ?_, ?_, fun h => ?_, fun h => ?_⟩ <;> (try dsimp only) <;> (repeat' split) <;> (try simp) <;> (repeat' split) <;> first | done | simp | simp (maxDischargeDepth := 9) [h] | (revert h; simp [Hv.latchOff, Hv.coverOff, Hv.sourceOn])
@[simp] theorem Dev.join_keeps (n q : Nat) (d : Dev) :
    (d.join n q).hv.lockout = d.hv.lockout ∧ (d.join n q).tx = d.tx ∧
      (d.join n q).attn.settings = d.attn.settings ∧
      (d.hv.latchOff = true → (d.join n q).hv.latchOff = true) ∧ (d.hv.coverOff = true → (d.join n q).hv.coverOff = true) := by
  unfold Dev.join <;> refine ⟨?_, ?_, ?_, fun h => ?_, fun h => ?_⟩ <;> (try dsimp only) <;> (repeat' split) <;> (try simp) <;> (repeat' split) <;> first | done | simp | simp (maxDischargeDepth := 9) [h] | (revert h; simp [Hv.latchOff, Hv.coverOff, Hv.sourceOn])
@[simp] theorem Dev.learnLocation_keeps (q : Nat) (d : Dev) :
    (d.learnLocation q).hv.lockout = d.hv.lockout ∧ (d.learnLocation q).tx = d.tx ∧
      (d.learnLocation q).attn.settings = d.attn.settings ∧
      (d.hv.latchOff = true → (d.learnLocation q).hv.latchOff = true) ∧ (d.hv.coverOff = true → (d.learnLocation q).hv.coverOff = true) := by
  unfold Dev.learnLocation <;> refine ⟨?_, ?_, ?_, fun h => ?_, fun h => ?_⟩ <;> (try dsimp only) <;> (repeat' split) <;> (try simp) <;> (repeat' split) <;> first | done | simp | simp (maxDischargeDepth := 9) [h] | (revert h; simp [Hv.latchOff, Hv.coverOff, Hv.sourceOn])
@[simp] theorem Dev.startSweep_keeps (o : Order) (d : Dev) :
    (d.startSweep o).hv.lockout = d.hv.lockout ∧ (d.startSweep o).tx = d.tx ∧
      (d.startSweep o).attn.settings = d.attn.settings ∧
      (d.hv.latchOff = true → (d.startSweep o).hv.latchOff = true) ∧ (d.hv.coverOff = true → (d.startSweep o).hv.coverOff = true) := by
  unfold Dev.startSweep <;> refine ⟨?_, ?_, ?_, fun h => ?_, fun h => ?_⟩ <;> (try dsimp only) <;> (repeat' split) <;> (try simp) <;> (repeat' split) <;> first | done | simp | simp (maxDischargeDepth := 9) [h] | (revert h; simp [Hv.latchOff, Hv.coverOff, Hv.sourceOn])
@[simp] theorem Dev.valDone_keeps (d : Dev) :
    (d.valDone).hv.lockout = d.hv.lockout ∧ (d.valDone).tx = d.tx ∧
      (d.valDone).attn.settings = d.attn.settings ∧
      (d.hv.latchOff = true → (d.valDone).hv.latchOff = true) ∧ (d.hv.coverOff = true → (d.valDone).hv.coverOff = true) := by
  unfold Dev.valDone <;> refine ⟨?_, ?_, ?_, fun h => ?_, fun h => ?_⟩ <;> (try dsimp only) <;> (repeat' split) <;> (try simp) <;> (repeat' split) <;> first | done | simp | simp (maxDischargeDepth := 9) [h] | (revert h; simp [Hv.latchOff, Hv.coverOff, Hv.sourceOn])
@[simp] theorem Dev.netBegin_keeps (n : Nat) (d : Dev) :
    (d.netBegin n).hv.lockout = d.hv.lockout ∧ (d.netBegin n).tx = d.tx ∧
      (d.netBegin n).attn.settings = d.attn.settings ∧
      (d.hv.latchOff = true → (d.netBegin n).hv.latchOff = true) ∧ (d.hv.coverOff = true → (d.netBegin n).hv.coverOff = true) := by
  unfold Dev.netBegin <;> refine ⟨?_, ?_, ?_, fun h => ?_, fun h => ?_⟩ <;> (try dsimp only) <;> (repeat' split) <;> (try simp) <;> (repeat' split) <;> first | done | simp | simp (maxDischargeDepth := 9) [h] | (revert h; simp [Hv.latchOff, Hv.coverOff, Hv.sourceOn])
@[simp] theorem Dev.member_keeps (i : Nat) (d : Dev) :
    (d.member i).hv.lockout = d.hv.lockout ∧ (d.member i).tx = d.tx ∧
      (d.member i).attn.settings = d.attn.settings ∧
      (d.hv.latchOff = true → (d.member i).hv.latchOff = true) ∧ (d.hv.coverOff = true → (d.member i).hv.coverOff = true) := by
  unfold Dev.member <;> refine ⟨?_, ?_, ?_, fun h => ?_, fun h => ?_⟩ <;> (try dsimp only) <;> (repeat' split) <;> (try simp) <;> (repeat' split) <;> first | done | simp | simp (maxDischargeDepth := 9) [h] | (revert h; simp [Hv.latchOff, Hv.coverOff, Hv.sourceOn])
@[simp] theorem Dev.memberGot_keeps (i : Nat) (d : Dev) :
    (d.memberGot i).hv.lockout = d.hv.lockout ∧ (d.memberGot i).tx = d.tx ∧
      (d.memberGot i).attn.settings = d.attn.settings ∧
      (d.hv.latchOff = true → (d.memberGot i).hv.latchOff = true) ∧ (d.hv.coverOff = true → (d.memberGot i).hv.coverOff = true) := by
  unfold Dev.memberGot <;> refine ⟨?_, ?_, ?_, fun h => ?_, fun h => ?_⟩ <;> (try dsimp only) <;> (repeat' split) <;> (try simp) <;> (repeat' split) <;> first | done | simp | simp (maxDischargeDepth := 9) [h] | (revert h; simp [Hv.latchOff, Hv.coverOff, Hv.sourceOn])
@[simp] theorem Dev.whereis_keeps (i : Nat) (d : Dev) :
    (d.whereis i).hv.lockout = d.hv.lockout ∧ (d.whereis i).tx = d.tx ∧
      (d.whereis i).attn.settings = d.attn.settings ∧
      (d.hv.latchOff = true → (d.whereis i).hv.latchOff = true) ∧ (d.hv.coverOff = true → (d.whereis i).hv.coverOff = true) := by
  unfold Dev.whereis <;> refine ⟨?_, ?_, ?_, fun h => ?_, fun h => ?_⟩ <;> (try dsimp only) <;> (repeat' split) <;> (try simp) <;> (repeat' split) <;> first | done | simp | simp (maxDischargeDepth := 9) [h] | (revert h; simp [Hv.latchOff, Hv.coverOff, Hv.sourceOn])
@[simp] theorem Dev.whereisGot_keeps (i : Nat) (d : Dev) :
    (d.whereisGot i).hv.lockout = d.hv.lockout ∧ (d.whereisGot i).tx = d.tx ∧
      (d.whereisGot i).attn.settings = d.attn.settings ∧
      (d.hv.latchOff = true → (d.whereisGot i).hv.latchOff = true) ∧ (d.hv.coverOff = true → (d.whereisGot i).hv.coverOff = true) := by
  unfold Dev.whereisGot <;> refine ⟨?_, ?_, ?_, fun h => ?_, fun h => ?_⟩ <;> (try dsimp only) <;> (repeat' split) <;> (try simp) <;> (repeat' split) <;> first | done | simp | simp (maxDischargeDepth := 9) [h] | (revert h; simp [Hv.latchOff, Hv.coverOff, Hv.sourceOn])
@[simp] theorem Dev.whereisEnd_keeps (i : Nat) (d : Dev) :
    (d.whereisEnd i).hv.lockout = d.hv.lockout ∧ (d.whereisEnd i).tx = d.tx ∧
      (d.whereisEnd i).attn.settings = d.attn.settings ∧
      (d.hv.latchOff = true → (d.whereisEnd i).hv.latchOff = true) ∧ (d.hv.coverOff = true → (d.whereisEnd i).hv.coverOff = true) := by
  unfold Dev.whereisEnd <;> refine ⟨?_, ?_, ?_, fun h => ?_, fun h => ?_⟩ <;> (try dsimp only) <;> (repeat' split) <;> (try simp) <;> (repeat' split) <;> first | done | simp | simp (maxDischargeDepth := 9) [h] | (revert h; simp [Hv.latchOff, Hv.coverOff, Hv.sourceOn])
@[simp] theorem Dev.isolate_keeps (d : Dev) :
    (d.isolate).hv.lockout = d.hv.lockout ∧ (d.isolate).tx = d.tx ∧
      (d.isolate).attn.settings = d.attn.settings ∧
      (d.hv.latchOff = true → (d.isolate).hv.latchOff = true) ∧ (d.hv.coverOff = true → (d.isolate).hv.coverOff = true) := by
  unfold Dev.isolate <;> refine ⟨?_, ?_, ?_, fun h => ?_, fun h => ?_⟩ <;> (try dsimp only) <;> (repeat' split) <;> (try simp) <;> (repeat' split) <;> first | done | simp | simp (maxDischargeDepth := 9) [h] | (revert h; simp [Hv.latchOff, Hv.coverOff, Hv.sourceOn])
@[simp] theorem Dev.isolateGot_keeps (d : Dev) :
    (d.isolateGot).hv.lockout = d.hv.lockout ∧ (d.isolateGot).tx = d.tx ∧
      (d.isolateGot).attn.settings = d.attn.settings ∧
      (d.hv.latchOff = true → (d.isolateGot).hv.latchOff = true) ∧ (d.hv.coverOff = true → (d.isolateGot).hv.coverOff = true) := by
  unfold Dev.isolateGot <;> refine ⟨?_, ?_, ?_, fun h => ?_, fun h => ?_⟩ <;> (try dsimp only) <;> (repeat' split) <;> (try simp) <;> (repeat' split) <;> first | done | simp | simp (maxDischargeDepth := 9) [h] | (revert h; simp [Hv.latchOff, Hv.coverOff, Hv.sourceOn])
@[simp] theorem Dev.netDone_keeps (d : Dev) :
    (d.netDone).hv.lockout = d.hv.lockout ∧ (d.netDone).tx = d.tx ∧
      (d.netDone).attn.settings = d.attn.settings ∧
      (d.hv.latchOff = true → (d.netDone).hv.latchOff = true) ∧ (d.hv.coverOff = true → (d.netDone).hv.coverOff = true) := by
  unfold Dev.netDone <;> refine ⟨?_, ?_, ?_, fun h => ?_, fun h => ?_⟩ <;> (try dsimp only) <;> (repeat' split) <;> (try simp) <;> (repeat' split) <;> first | done | simp | simp (maxDischargeDepth := 9) [h] | (revert h; simp [Hv.latchOff, Hv.coverOff, Hv.sourceOn])
@[simp] theorem Dev.sweepClose_keeps (d : Dev) :
    (d.sweepClose).hv.lockout = d.hv.lockout ∧ (d.sweepClose).tx = d.tx ∧
      (d.sweepClose).attn.settings = d.attn.settings ∧
      (d.hv.latchOff = true → (d.sweepClose).hv.latchOff = true) ∧ (d.hv.coverOff = true → (d.sweepClose).hv.coverOff = true) := by
  unfold Dev.sweepClose <;> refine ⟨?_, ?_, ?_, fun h => ?_, fun h => ?_⟩ <;> (try dsimp only) <;> (repeat' split) <;> (try simp) <;> (repeat' split) <;> first | done | simp | simp (maxDischargeDepth := 9) [h] | (revert h; simp [Hv.latchOff, Hv.coverOff, Hv.sourceOn])
@[simp] theorem Dev.startLearn_keeps (o : Order) (d : Dev) :
    (d.startLearn o).hv.lockout = d.hv.lockout ∧ (d.startLearn o).tx = d.tx ∧
      (d.startLearn o).attn.settings = d.attn.settings ∧
      (d.hv.latchOff = true → (d.startLearn o).hv.latchOff = true) ∧ (d.hv.coverOff = true → (d.startLearn o).hv.coverOff = true) := by
  unfold Dev.startLearn <;> refine ⟨?_, ?_, ?_, fun h => ?_, fun h => ?_⟩ <;> (try dsimp only) <;> (repeat' split) <;> (try simp) <;> (repeat' split) <;> first | done | simp | simp (maxDischargeDepth := 9) [h] | (revert h; simp [Hv.latchOff, Hv.coverOff, Hv.sourceOn])
@[simp] theorem Dev.learnFrom_keeps (p : Nat) (d : Dev) :
    (d.learnFrom p).hv.lockout = d.hv.lockout ∧ (d.learnFrom p).tx = d.tx ∧
      (d.learnFrom p).attn.settings = d.attn.settings ∧
      (d.hv.latchOff = true → (d.learnFrom p).hv.latchOff = true) ∧ (d.hv.coverOff = true → (d.learnFrom p).hv.coverOff = true) := by
  unfold Dev.learnFrom <;> refine ⟨?_, ?_, ?_, fun h => ?_, fun h => ?_⟩ <;> (try dsimp only) <;> (repeat' split) <;> (try simp) <;> (repeat' split) <;> first | done | simp | simp (maxDischargeDepth := 9) [h] | (revert h; simp [Hv.latchOff, Hv.coverOff, Hv.sourceOn])
@[simp] theorem Dev.learnGot_keeps (p : Nat) (d : Dev) :
    (d.learnGot p).hv.lockout = d.hv.lockout ∧ (d.learnGot p).tx = d.tx ∧
      (d.learnGot p).attn.settings = d.attn.settings ∧
      (d.hv.latchOff = true → (d.learnGot p).hv.latchOff = true) ∧ (d.hv.coverOff = true → (d.learnGot p).hv.coverOff = true) := by
  unfold Dev.learnGot <;> refine ⟨?_, ?_, ?_, fun h => ?_, fun h => ?_⟩ <;> (try dsimp only) <;> (repeat' split) <;> (try simp) <;> (repeat' split) <;> first | done | simp | simp (maxDischargeDepth := 9) [h] | (revert h; simp [Hv.latchOff, Hv.coverOff, Hv.sourceOn])
@[simp] theorem Dev.learnFormed_keeps (p : Nat) (d : Dev) :
    (d.learnFormed p).hv.lockout = d.hv.lockout ∧ (d.learnFormed p).tx = d.tx ∧
      (d.learnFormed p).attn.settings = d.attn.settings ∧
      (d.hv.latchOff = true → (d.learnFormed p).hv.latchOff = true) ∧ (d.hv.coverOff = true → (d.learnFormed p).hv.coverOff = true) := by
  unfold Dev.learnFormed <;> refine ⟨?_, ?_, ?_, fun h => ?_, fun h => ?_⟩ <;> (try dsimp only) <;> (repeat' split) <;> (try simp) <;> (repeat' split) <;> first | done | simp | simp (maxDischargeDepth := 9) [h] | (revert h; simp [Hv.latchOff, Hv.coverOff, Hv.sourceOn])
@[simp] theorem Dev.learnAlone_keeps (p : Nat) (d : Dev) :
    (d.learnAlone p).hv.lockout = d.hv.lockout ∧ (d.learnAlone p).tx = d.tx ∧
      (d.learnAlone p).attn.settings = d.attn.settings ∧
      (d.hv.latchOff = true → (d.learnAlone p).hv.latchOff = true) ∧ (d.hv.coverOff = true → (d.learnAlone p).hv.coverOff = true) := by
  unfold Dev.learnAlone <;> refine ⟨?_, ?_, ?_, fun h => ?_, fun h => ?_⟩ <;> (try dsimp only) <;> (repeat' split) <;> (try simp) <;> (repeat' split) <;> first | done | simp | simp (maxDischargeDepth := 9) [h] | (revert h; simp [Hv.latchOff, Hv.coverOff, Hv.sourceOn])
@[simp] theorem Dev.learnNet_keeps (single : Bool) (d : Dev) :
    (d.learnNet single).hv.lockout = d.hv.lockout ∧ (d.learnNet single).tx = d.tx ∧
      (d.learnNet single).attn.settings = d.attn.settings ∧
      (d.hv.latchOff = true → (d.learnNet single).hv.latchOff = true) ∧ (d.hv.coverOff = true → (d.learnNet single).hv.coverOff = true) := by
  unfold Dev.learnNet <;> refine ⟨?_, ?_, ?_, fun h => ?_, fun h => ?_⟩ <;> (try dsimp only) <;> (repeat' split) <;> (try simp) <;> (repeat' split) <;> first | done | simp | simp (maxDischargeDepth := 9) [h] | (revert h; simp [Hv.latchOff, Hv.coverOff, Hv.sourceOn])
@[simp] theorem Dev.learnHeader_keeps (single : Bool) (d : Dev) :
    (d.learnHeader single).hv.lockout = d.hv.lockout ∧ (d.learnHeader single).tx = d.tx ∧
      (d.learnHeader single).attn.settings = d.attn.settings ∧
      (d.hv.latchOff = true → (d.learnHeader single).hv.latchOff = true) ∧ (d.hv.coverOff = true → (d.learnHeader single).hv.coverOff = true) := by
  unfold Dev.learnHeader <;> refine ⟨?_, ?_, ?_, fun h => ?_, fun h => ?_⟩ <;> (try dsimp only) <;> (repeat' split) <;> (try simp) <;> (repeat' split) <;> first | done | simp | simp (maxDischargeDepth := 9) [h] | (revert h; simp [Hv.latchOff, Hv.coverOff, Hv.sourceOn])
@[simp] theorem Dev.learnLoad_keeps (single : Bool) (d : Dev) :
    (d.learnLoad single).hv.lockout = d.hv.lockout ∧ (d.learnLoad single).tx = d.tx ∧
      (d.learnLoad single).attn.settings = d.attn.settings ∧
      (d.hv.latchOff = true → (d.learnLoad single).hv.latchOff = true) ∧ (d.hv.coverOff = true → (d.learnLoad single).hv.coverOff = true) := by
  unfold Dev.learnLoad <;> refine ⟨?_, ?_, ?_, fun h => ?_, fun h => ?_⟩ <;> (try dsimp only) <;> (repeat' split) <;> (try simp) <;> (repeat' split) <;> first | done | simp | simp (maxDischargeDepth := 9) [h] | (revert h; simp [Hv.latchOff, Hv.coverOff, Hv.sourceOn])
@[simp] theorem Dev.learnClose_keeps (d : Dev) :
    (d.learnClose).hv.lockout = d.hv.lockout ∧ (d.learnClose).tx = d.tx ∧
      (d.learnClose).attn.settings = d.attn.settings ∧
      (d.hv.latchOff = true → (d.learnClose).hv.latchOff = true) ∧ (d.hv.coverOff = true → (d.learnClose).hv.coverOff = true) := by
  unfold Dev.learnClose <;> refine ⟨?_, ?_, ?_, fun h => ?_, fun h => ?_⟩ <;> (try dsimp only) <;> (repeat' split) <;> (try simp) <;> (repeat' split) <;> first | done | simp | simp (maxDischargeDepth := 9) [h] | (revert h; simp [Hv.latchOff, Hv.coverOff, Hv.sourceOn])
@[simp] theorem Dev.learnDone_keeps (d : Dev) :
    (d.learnDone).hv.lockout = d.hv.lockout ∧ (d.learnDone).tx = d.tx ∧
      (d.learnDone).attn.settings = d.attn.settings ∧
      (d.hv.latchOff = true → (d.learnDone).hv.latchOff = true) ∧ (d.hv.coverOff = true → (d.learnDone).hv.coverOff = true) := by
  unfold Dev.learnDone <;> refine ⟨?_, ?_, ?_, fun h => ?_, fun h => ?_⟩ <;> (try dsimp only) <;> (repeat' split) <;> (try simp) <;> (repeat' split) <;> first | done | simp | simp (maxDischargeDepth := 9) [h] | (revert h; simp [Hv.latchOff, Hv.coverOff, Hv.sourceOn])
@[simp] theorem Dev.startInsulate_keeps (o : Order) (d : Dev) :
    (d.startInsulate o).hv.lockout = d.hv.lockout ∧ (d.startInsulate o).tx = d.tx ∧
      (d.startInsulate o).attn.settings = d.attn.settings ∧
      (d.hv.latchOff = true → (d.startInsulate o).hv.latchOff = true) ∧ (d.hv.coverOff = true → (d.startInsulate o).hv.coverOff = true) := by
  unfold Dev.startInsulate <;> refine ⟨?_, ?_, ?_, fun h => ?_, fun h => ?_⟩ <;> (try dsimp only) <;> (repeat' split) <;> (try simp) <;> (repeat' split) <;> first | done | simp | simp (maxDischargeDepth := 9) [h] | (revert h; simp [Hv.latchOff, Hv.coverOff, Hv.sourceOn])
@[simp] theorem Dev.insInit_keeps (d : Dev) :
    (d.insInit).hv.lockout = d.hv.lockout ∧ (d.insInit).tx = d.tx ∧
      (d.insInit).attn.settings = d.attn.settings ∧
      (d.hv.latchOff = true → (d.insInit).hv.latchOff = true) ∧ (d.hv.coverOff = true → (d.insInit).hv.coverOff = true) := by
  unfold Dev.insInit <;> refine ⟨?_, ?_, ?_, fun h => ?_, fun h => ?_⟩ <;> (try dsimp only) <;> (repeat' split) <;> (try simp) <;> (repeat' split) <;> first | done | simp | simp (maxDischargeDepth := 9) [h] | (revert h; simp [Hv.latchOff, Hv.coverOff, Hv.sourceOn])
@[simp] theorem Dev.groupNext_keeps (r : Nat) (d : Dev) :
    (d.groupNext r).hv.lockout = d.hv.lockout ∧ (d.groupNext r).tx = d.tx ∧
      (d.groupNext r).attn.settings = d.attn.settings ∧
      (d.hv.latchOff = true → (d.groupNext r).hv.latchOff = true) ∧ (d.hv.coverOff = true → (d.groupNext r).hv.coverOff = true) := by
  unfold Dev.groupNext <;> refine ⟨?_, ?_, ?_, fun h => ?_, fun h => ?_⟩ <;> (try dsimp only) <;> (repeat' split) <;> (try simp) <;> (repeat' split) <;> first | done | simp | simp (maxDischargeDepth := 9) [h] | (revert h; simp [Hv.latchOff, Hv.coverOff, Hv.sourceOn])
@[simp] theorem Dev.groupSetup_keeps (d : Dev) :
    (d.groupSetup).hv.lockout = d.hv.lockout ∧ (d.groupSetup).tx = d.tx ∧
      (d.groupSetup).attn.settings = d.attn.settings ∧
      (d.hv.latchOff = true → (d.groupSetup).hv.latchOff = true) ∧ (d.hv.coverOff = true → (d.groupSetup).hv.coverOff = true) := by
  unfold Dev.groupSetup <;> refine ⟨?_, ?_, ?_, fun h => ?_, fun h => ?_⟩ <;> (try dsimp only) <;> (repeat' split) <;> (try simp) <;> (repeat' split) <;> first | done | simp | simp (maxDischargeDepth := 9) [h] | (revert h; simp [Hv.latchOff, Hv.coverOff, Hv.sourceOn])
@[simp] theorem Dev.locProbe_keeps (pts : List Nat) (d : Dev) :
    (d.locProbe pts).hv.lockout = d.hv.lockout ∧ (d.locProbe pts).tx = d.tx ∧
      (d.locProbe pts).attn.settings = d.attn.settings ∧
      (d.hv.latchOff = true → (d.locProbe pts).hv.latchOff = true) ∧ (d.hv.coverOff = true → (d.locProbe pts).hv.coverOff = true) := by
  unfold Dev.locProbe <;> refine ⟨?_, ?_, ?_, fun h => ?_, fun h => ?_⟩ <;> (try dsimp only) <;> (repeat' split) <;> (try simp) <;> (repeat' split) <;> first | done | simp | simp (maxDischargeDepth := 9) [h] | (revert h; simp [Hv.latchOff, Hv.coverOff, Hv.sourceOn])
@[simp] theorem Dev.abandonStep_keeps (d : Dev) :
    (d.abandonStep).hv.lockout = d.hv.lockout ∧ (d.abandonStep).tx = d.tx ∧
      (d.abandonStep).attn.settings = d.attn.settings ∧
      (d.hv.latchOff = true → (d.abandonStep).hv.latchOff = true) ∧ (d.hv.coverOff = true → (d.abandonStep).hv.coverOff = true) := by
  unfold Dev.abandonStep <;> refine ⟨?_, ?_, ?_, fun h => ?_, fun h => ?_⟩ <;> (try dsimp only) <;> (repeat' split) <;> (try simp) <;> (repeat' split) <;> first | done | simp | simp (maxDischargeDepth := 9) [h] | (revert h; simp [Hv.latchOff, Hv.coverOff, Hv.sourceOn])
theorem Dev.lockout_of_taken {d : Dev} (h : d.rampAnswer = .taken) : d.hv.lockout = false := by
  unfold Dev.rampAnswer at h
  by_cases hl : d.hv.lockout = true
  · simp [hl] at h
  · simpa using hl
theorem Dev.closed_of_taken {d : Dev} (h : d.rampAnswer = .taken) : d.hv.openRec = false := by
  unfold Dev.rampAnswer at h
  by_cases hl : d.hv.lockout = true
  · simp [hl] at h
  · by_cases ho : d.hv.openRec = true
    · simp [hl, ho] at h
    · simpa using ho
@[simp] theorem Dev.rampReq_keeps (d : Dev) :
    (d.rampReq).hv.lockout = d.hv.lockout ∧ (d.rampReq).tx = d.tx ∧
      (d.rampReq).attn.settings = d.attn.settings ∧
      (d.hv.latchOff = true → (d.rampReq).hv.latchOff = true) ∧ (d.hv.coverOff = true → (d.rampReq).hv.coverOff = true) := by
  unfold Dev.rampReq Hv.takeRamp <;> refine ⟨?_, ?_, ?_, fun h => ?_, fun h => ?_⟩ <;> (try dsimp only) <;> (repeat' split) <;> (try simp) <;> (repeat' split) <;>
    first
    | done
    | simp [h]
    | (have hl := Dev.lockout_of_taken ‹_›; simp [Hv.latchOff, hl]; done)
    | (have ho := Dev.closed_of_taken ‹_›; simp [Hv.coverOff, ho]; done)
    | (have ho := Dev.closed_of_taken ‹_›; exact (Dev.abandonStep_keeps _).2.2.2.2 (by simp [Hv.coverOff, ho]))
@[simp] theorem Dev.dwellBegin_keeps (d : Dev) :
    (d.dwellBegin).hv.lockout = d.hv.lockout ∧ (d.dwellBegin).tx = d.tx ∧
      (d.dwellBegin).attn.settings = d.attn.settings ∧
      (d.hv.latchOff = true → (d.dwellBegin).hv.latchOff = true) ∧ (d.hv.coverOff = true → (d.dwellBegin).hv.coverOff = true) := by
  unfold Dev.dwellBegin <;> refine ⟨?_, ?_, ?_, fun h => ?_, fun h => ?_⟩ <;> (try dsimp only) <;> (repeat' split) <;> (try simp) <;> (repeat' split) <;> first | done | simp | simp (maxDischargeDepth := 9) [h] | (revert h; simp [Hv.latchOff, Hv.coverOff, Hv.sourceOn])
@[simp] theorem Dev.windowReq_keeps (r : Rng) (d : Dev) :
    (d.windowReq r).hv.lockout = d.hv.lockout ∧ (d.windowReq r).tx = d.tx ∧
      (d.windowReq r).attn.settings = d.attn.settings ∧
      (d.hv.latchOff = true → (d.windowReq r).hv.latchOff = true) ∧ (d.hv.coverOff = true → (d.windowReq r).hv.coverOff = true) := by
  unfold Dev.windowReq <;> refine ⟨?_, ?_, ?_, fun h => ?_, fun h => ?_⟩ <;> (try dsimp only) <;> (repeat' split) <;> (try simp) <;> (repeat' split) <;> first | done | simp | simp (maxDischargeDepth := 9) [h] | (revert h; simp [Hv.latchOff, Hv.coverOff, Hv.sourceOn])
@[simp] theorem Dev.locAnswer_keeps (v : PVal) (connected : Bool) (d : Dev) :
    (d.locAnswer v connected).hv.lockout = d.hv.lockout ∧ (d.locAnswer v connected).tx = d.tx ∧
      (d.locAnswer v connected).attn.settings = d.attn.settings ∧
      (d.hv.latchOff = true → (d.locAnswer v connected).hv.latchOff = true) ∧ (d.hv.coverOff = true → (d.locAnswer v connected).hv.coverOff = true) := by
  unfold Dev.locAnswer <;> refine ⟨?_, ?_, ?_, fun h => ?_, fun h => ?_⟩ <;> (try dsimp only) <;> (repeat' split) <;> (try simp) <;> (repeat' split) <;> first | done | simp | simp (maxDischargeDepth := 9) [h] | (revert h; simp [Hv.latchOff, Hv.coverOff, Hv.sourceOn])
@[simp] theorem Dev.windowGot_keeps (d : Dev) :
    (d.windowGot).hv.lockout = d.hv.lockout ∧ (d.windowGot).tx = d.tx ∧
      (d.windowGot).attn.settings = d.attn.settings ∧
      (d.hv.latchOff = true → (d.windowGot).hv.latchOff = true) ∧ (d.hv.coverOff = true → (d.windowGot).hv.coverOff = true) := by
  unfold Dev.windowGot <;> refine ⟨?_, ?_, ?_, fun h => ?_, fun h => ?_⟩ <;> (try dsimp only) <;> (repeat' split) <;> (try simp) <;> (repeat' split) <;> first | done | simp | simp (maxDischargeDepth := 9) [h] | (revert h; simp [Hv.latchOff, Hv.coverOff, Hv.sourceOn])
@[simp] theorem Dev.insFinding_keeps (f : Finding) (d : Dev) :
    (d.insFinding f).hv.lockout = d.hv.lockout ∧ (d.insFinding f).tx = d.tx ∧
      (d.insFinding f).attn.settings = d.attn.settings ∧
      (d.hv.latchOff = true → (d.insFinding f).hv.latchOff = true) ∧ (d.hv.coverOff = true → (d.insFinding f).hv.coverOff = true) := by
  unfold Dev.insFinding <;> refine ⟨?_, ?_, ?_, fun h => ?_, fun h => ?_⟩ <;> (try dsimp only) <;> (repeat' split) <;> (try simp) <;> (repeat' split) <;> first | done | simp | simp (maxDischargeDepth := 9) [h] | (revert h; simp [Hv.latchOff, Hv.coverOff, Hv.sourceOn])
@[simp] theorem Dev.evaluate_keeps (d : Dev) :
    (d.evaluate).hv.lockout = d.hv.lockout ∧ (d.evaluate).tx = d.tx ∧
      (d.evaluate).attn.settings = d.attn.settings ∧
      (d.hv.latchOff = true → (d.evaluate).hv.latchOff = true) ∧ (d.hv.coverOff = true → (d.evaluate).hv.coverOff = true) := by
  unfold Dev.evaluate <;> refine ⟨?_, ?_, ?_, fun h => ?_, fun h => ?_⟩ <;> (try dsimp only) <;> (repeat' split) <;> (try simp) <;> (repeat' split) <;> first | done | simp | simp (maxDischargeDepth := 9) [h] | (revert h; simp [Hv.latchOff, Hv.coverOff, Hv.sourceOn])
@[simp] theorem Dev.evalSafe_keeps (d : Dev) :
    (d.evalSafe).hv.lockout = d.hv.lockout ∧ (d.evalSafe).tx = d.tx ∧
      (d.evalSafe).attn.settings = d.attn.settings ∧
      (d.hv.latchOff = true → (d.evalSafe).hv.latchOff = true) ∧ (d.hv.coverOff = true → (d.evalSafe).hv.coverOff = true) := by
  unfold Dev.evalSafe <;> refine ⟨?_, ?_, ?_, fun h => ?_, fun h => ?_⟩ <;> (try dsimp only) <;> (repeat' split) <;> (try simp) <;> (repeat' split) <;> first | done | simp | simp (maxDischargeDepth := 9) [h] | (revert h; simp [Hv.latchOff, Hv.coverOff, Hv.sourceOn])
@[simp] theorem Dev.waitOff_keeps (record : Bool) (d : Dev) :
    (d.waitOff record).hv.lockout = d.hv.lockout ∧ (d.waitOff record).tx = d.tx ∧
      (d.waitOff record).attn.settings = d.attn.settings ∧
      (d.hv.latchOff = true → (d.waitOff record).hv.latchOff = true) ∧ (d.hv.coverOff = true → (d.waitOff record).hv.coverOff = true) := by
  unfold Dev.waitOff <;> refine ⟨?_, ?_, ?_, fun h => ?_, fun h => ?_⟩ <;> (try dsimp only) <;> (repeat' split) <;> (try simp) <;> (repeat' split) <;> first | done | simp | simp (maxDischargeDepth := 9) [h] | (revert h; simp [Hv.latchOff, Hv.coverOff, Hv.sourceOn])
@[simp] theorem Dev.stepEnd_keeps (d : Dev) :
    (d.stepEnd).hv.lockout = d.hv.lockout ∧ (d.stepEnd).tx = d.tx ∧
      (d.stepEnd).attn.settings = d.attn.settings ∧
      (d.hv.latchOff = true → (d.stepEnd).hv.latchOff = true) ∧ (d.hv.coverOff = true → (d.stepEnd).hv.coverOff = true) := by
  unfold Dev.stepEnd <;> refine ⟨?_, ?_, ?_, fun h => ?_, fun h => ?_⟩ <;> (try dsimp only) <;> (repeat' split) <;> (try simp) <;> (repeat' split) <;> first | done | simp | simp (maxDischargeDepth := 9) [h] | (revert h; simp [Hv.latchOff, Hv.coverOff, Hv.sourceOn])
@[simp] theorem Dev.groupDone_keeps (d : Dev) :
    (d.groupDone).hv.lockout = d.hv.lockout ∧ (d.groupDone).tx = d.tx ∧
      (d.groupDone).attn.settings = d.attn.settings ∧
      (d.hv.latchOff = true → (d.groupDone).hv.latchOff = true) ∧ (d.hv.coverOff = true → (d.groupDone).hv.coverOff = true) := by
  unfold Dev.groupDone <;> refine ⟨?_, ?_, ?_, fun h => ?_, fun h => ?_⟩ <;> (try dsimp only) <;> (repeat' split) <;> (try simp) <;> (repeat' split) <;> first | done | simp | simp (maxDischargeDepth := 9) [h] | (revert h; simp [Hv.latchOff, Hv.coverOff, Hv.sourceOn])
@[simp] theorem Dev.endAfterOff_keeps (c : Code) (d : Dev) :
    (d.endAfterOff c).hv.lockout = d.hv.lockout ∧ (d.endAfterOff c).tx = d.tx ∧
      (d.endAfterOff c).attn.settings = d.attn.settings ∧
      (d.hv.latchOff = true → (d.endAfterOff c).hv.latchOff = true) ∧ (d.hv.coverOff = true → (d.endAfterOff c).hv.coverOff = true) := by
  unfold Dev.endAfterOff <;> refine ⟨?_, ?_, ?_, fun h => ?_, fun h => ?_⟩ <;> (try dsimp only) <;> (repeat' split) <;> (try simp) <;> (repeat' split) <;> first | done | simp | simp (maxDischargeDepth := 9) [h] | (revert h; simp [Hv.latchOff, Hv.coverOff, Hv.sourceOn])
@[simp] theorem Dev.locateStart_keeps (d : Dev) :
    (d.locateStart).hv.lockout = d.hv.lockout ∧ (d.locateStart).tx = d.tx ∧
      (d.locateStart).attn.settings = d.attn.settings ∧
      (d.hv.latchOff = true → (d.locateStart).hv.latchOff = true) ∧ (d.hv.coverOff = true → (d.locateStart).hv.coverOff = true) := by
  unfold Dev.locateStart <;> refine ⟨?_, ?_, ?_, fun h => ?_, fun h => ?_⟩ <;> (try dsimp only) <;> (repeat' split) <;> (try simp) <;> (repeat' split) <;> first | done | simp | simp (maxDischargeDepth := 9) [h] | (revert h; simp [Hv.latchOff, Hv.coverOff, Hv.sourceOn])
@[simp] theorem Dev.locateLocation_keeps (q : Nat) (v : PVal) (trunc : Bool) (d : Dev) :
    (d.locateLocation q v trunc).hv.lockout = d.hv.lockout ∧ (d.locateLocation q v trunc).tx = d.tx ∧
      (d.locateLocation q v trunc).attn.settings = d.attn.settings ∧
      (d.hv.latchOff = true → (d.locateLocation q v trunc).hv.latchOff = true) ∧ (d.hv.coverOff = true → (d.locateLocation q v trunc).hv.coverOff = true) := by
  unfold Dev.locateLocation <;> refine ⟨?_, ?_, ?_, fun h => ?_, fun h => ?_⟩ <;> (try dsimp only) <;> (repeat' split) <;> (try simp) <;> (repeat' split) <;> first | done | simp | simp (maxDischargeDepth := 9) [h] | (revert h; simp [Hv.latchOff, Hv.coverOff, Hv.sourceOn])
@[simp] theorem Dev.locateEnd_keeps (d : Dev) :
    (d.locateEnd).hv.lockout = d.hv.lockout ∧ (d.locateEnd).tx = d.tx ∧
      (d.locateEnd).attn.settings = d.attn.settings ∧
      (d.hv.latchOff = true → (d.locateEnd).hv.latchOff = true) ∧ (d.hv.coverOff = true → (d.locateEnd).hv.coverOff = true) := by
  unfold Dev.locateEnd <;> refine ⟨?_, ?_, ?_, fun h => ?_, fun h => ?_⟩ <;> (try dsimp only) <;> (repeat' split) <;> (try simp) <;> (repeat' split) <;> first | done | simp | simp (maxDischargeDepth := 9) [h] | (revert h; simp [Hv.latchOff, Hv.coverOff, Hv.sourceOn])
@[simp] theorem Dev.stepBroken_keeps (f : Finding) (d : Dev) :
    (d.stepBroken f).hv.lockout = d.hv.lockout ∧ (d.stepBroken f).tx = d.tx ∧
      (d.stepBroken f).attn.settings = d.attn.settings ∧
      (d.hv.latchOff = true → (d.stepBroken f).hv.latchOff = true) ∧ (d.hv.coverOff = true → (d.stepBroken f).hv.coverOff = true) := by
  unfold Dev.stepBroken <;> refine ⟨?_, ?_, ?_, fun h => ?_, fun h => ?_⟩ <;> (try dsimp only) <;> (repeat' split) <;> (try simp) <;> (repeat' split) <;> first | done | simp | simp (maxDischargeDepth := 9) [h] | (revert h; simp [Hv.latchOff, Hv.coverOff, Hv.sourceOn])
@[simp] theorem Dev.rampChecked_keeps (d : Dev) :
    (d.rampChecked).hv.lockout = d.hv.lockout ∧ (d.rampChecked).tx = d.tx ∧
      (d.rampChecked).attn.settings = d.attn.settings ∧
      (d.hv.latchOff = true → (d.rampChecked).hv.latchOff = true) ∧ (d.hv.coverOff = true → (d.rampChecked).hv.coverOff = true) := by
  unfold Dev.rampChecked <;> refine ⟨?_, ?_, ?_, fun h => ?_, fun h => ?_⟩ <;> (try dsimp only) <;> (repeat' split) <;> (try simp) <;> (repeat' split) <;> first | done | simp | simp (maxDischargeDepth := 9) [h] | (revert h; simp [Hv.latchOff, Hv.coverOff, Hv.sourceOn])
@[simp] theorem Dev.startPrint_keeps (o : Order) (d : Dev) :
    (d.startPrint o).hv.lockout = d.hv.lockout ∧ (d.startPrint o).tx = d.tx ∧
      (d.startPrint o).attn.settings = d.attn.settings ∧
      (d.hv.latchOff = true → (d.startPrint o).hv.latchOff = true) ∧ (d.hv.coverOff = true → (d.startPrint o).hv.coverOff = true) := by
  unfold Dev.startPrint <;> refine ⟨?_, ?_, ?_, fun h => ?_, fun h => ?_⟩ <;> (try dsimp only) <;> (repeat' split) <;> (try simp) <;> (repeat' split) <;> first | done | simp | simp (maxDischargeDepth := 9) [h] | (revert h; simp [Hv.latchOff, Hv.coverOff, Hv.sourceOn])
@[simp] theorem Dev.beginChar_keeps (d : Dev) :
    (d.beginChar).hv.lockout = d.hv.lockout ∧ (d.beginChar).attn.settings = d.attn.settings ∧
      (d.hv.latchOff = true → (d.beginChar).hv.latchOff = true) ∧ (d.hv.coverOff = true → (d.beginChar).hv.coverOff = true) := by
  unfold Dev.beginChar <;> refine ⟨?_, ?_, fun h => ?_, fun h => ?_⟩ <;> (try dsimp only) <;> (repeat' split) <;> (try simp) <;> (repeat' split) <;> first | done | simp | simp (maxDischargeDepth := 9) [h] | (revert h; simp [Hv.latchOff, Hv.coverOff, Hv.sourceOn])
@[simp] theorem Dev.retryChar_keeps (d : Dev) :
    (d.retryChar).hv.lockout = d.hv.lockout ∧ (d.retryChar).attn.settings = d.attn.settings ∧
      (d.hv.latchOff = true → (d.retryChar).hv.latchOff = true) ∧ (d.hv.coverOff = true → (d.retryChar).hv.coverOff = true) := by
  unfold Dev.retryChar <;> refine ⟨?_, ?_, fun h => ?_, fun h => ?_⟩ <;> (try dsimp only) <;> (repeat' split) <;> (try simp) <;> (repeat' split) <;> first | done | simp | simp (maxDischargeDepth := 9) [h] | (revert h; simp [Hv.latchOff, Hv.coverOff, Hv.sourceOn])
@[simp] theorem Dev.joinQueue_keeps (t : Text) (d : Dev) :
    (d.joinQueue t).hv.lockout = d.hv.lockout ∧ (d.joinQueue t).attn.settings = d.attn.settings ∧
      (d.hv.latchOff = true → (d.joinQueue t).hv.latchOff = true) ∧ (d.hv.coverOff = true → (d.joinQueue t).hv.coverOff = true) := by
  unfold Dev.joinQueue <;> refine ⟨?_, ?_, fun h => ?_, fun h => ?_⟩ <;> (try dsimp only) <;> (repeat' split) <;> (try simp) <;> (repeat' split) <;> first | done | simp | simp (maxDischargeDepth := 9) [h] | (revert h; simp [Hv.latchOff, Hv.coverOff, Hv.sourceOn])
@[simp] theorem Dev.nextLine_keeps (drained : Bool) (d : Dev) :
    (d.nextLine drained).hv.lockout = d.hv.lockout ∧ (d.nextLine drained).attn.settings = d.attn.settings ∧
      (d.hv.latchOff = true → (d.nextLine drained).hv.latchOff = true) ∧ (d.hv.coverOff = true → (d.nextLine drained).hv.coverOff = true) := by
  unfold Dev.nextLine <;> refine ⟨?_, ?_, fun h => ?_, fun h => ?_⟩ <;> (try dsimp only) <;> (repeat' split) <;> (try simp) <;> (repeat' split) <;> first | done | simp | simp (maxDischargeDepth := 9) [h] | (revert h; simp [Hv.latchOff, Hv.coverOff, Hv.sourceOn])
@[simp] theorem Dev.charEnd_keeps (d : Dev) :
    (d.charEnd).hv.lockout = d.hv.lockout ∧ (d.charEnd).attn.settings = d.attn.settings ∧
      (d.hv.latchOff = true → (d.charEnd).hv.latchOff = true) ∧ (d.hv.coverOff = true → (d.charEnd).hv.coverOff = true) := by
  unfold Dev.charEnd <;> refine ⟨?_, ?_, fun h => ?_, fun h => ?_⟩ <;> (try dsimp only) <;> (repeat' split) <;> (try simp) <;> (repeat' split) <;> first | done | simp | simp (maxDischargeDepth := 9) [h] | (revert h; simp [Hv.latchOff, Hv.coverOff, Hv.sourceOn])
@[simp] theorem Dev.wakeRoom_keeps (d : Dev) :
    (d.wakeRoom).hv.lockout = d.hv.lockout ∧ (d.wakeRoom).attn.settings = d.attn.settings ∧
      (d.hv.latchOff = true → (d.wakeRoom).hv.latchOff = true) ∧ (d.hv.coverOff = true → (d.wakeRoom).hv.coverOff = true) := by
  unfold Dev.wakeRoom <;> refine ⟨?_, ?_, fun h => ?_, fun h => ?_⟩ <;> (try dsimp only) <;> (repeat' split) <;> (try simp) <;> (repeat' split) <;> first | done | simp | simp (maxDischargeDepth := 9) [h] | (revert h; simp [Hv.latchOff, Hv.coverOff, Hv.sourceOn])
@[simp] theorem Dev.fmtNext_keeps (d : Dev) :
    (d.fmtNext).hv.lockout = d.hv.lockout ∧ (d.fmtNext).tx = d.tx ∧
      (d.fmtNext).attn.settings = d.attn.settings ∧
      (d.hv.latchOff = true → (d.fmtNext).hv.latchOff = true) ∧ (d.hv.coverOff = true → (d.fmtNext).hv.coverOff = true) := by
  unfold Dev.fmtNext <;> refine ⟨?_, ?_, ?_, fun h => ?_, fun h => ?_⟩ <;> (try dsimp only) <;> (repeat' split) <;> (try simp) <;> (repeat' split) <;> first | done | simp | simp (maxDischargeDepth := 9) [h] | (revert h; simp [Hv.latchOff, Hv.coverOff, Hv.sourceOn])
@[simp] theorem Dev.buffer_keeps (t : Text) (d : Dev) :
    (d.buffer t).hv.lockout = d.hv.lockout ∧ (d.buffer t).tx = d.tx ∧
      (d.buffer t).attn.settings = d.attn.settings ∧
      (d.hv.latchOff = true → (d.buffer t).hv.latchOff = true) ∧ (d.hv.coverOff = true → (d.buffer t).hv.coverOff = true) := by
  unfold Dev.buffer <;> refine ⟨?_, ?_, ?_, fun h => ?_, fun h => ?_⟩ <;> (try dsimp only) <;> (repeat' split) <;> (try simp) <;> (repeat' split) <;> first | done | simp | simp (maxDischargeDepth := 9) [h] | (revert h; simp [Hv.latchOff, Hv.coverOff, Hv.sourceOn])
@[simp] theorem Dev.fmtBegin_keeps (d : Dev) :
    (d.fmtBegin).hv.lockout = d.hv.lockout ∧ (d.fmtBegin).tx = d.tx ∧
      (d.fmtBegin).attn.settings = d.attn.settings ∧
      (d.hv.latchOff = true → (d.fmtBegin).hv.latchOff = true) ∧ (d.hv.coverOff = true → (d.fmtBegin).hv.coverOff = true) := by
  unfold Dev.fmtBegin Dev.unlessFull <;> refine ⟨?_, ?_, ?_, fun h => ?_, fun h => ?_⟩ <;> (try dsimp only) <;> (repeat' split) <;> (try simp) <;> (repeat' split) <;> first | done | simp | simp (maxDischargeDepth := 9) [h] | (revert h; simp [Hv.latchOff, Hv.coverOff, Hv.sourceOn])
@[simp] theorem Dev.fmtEntry_keeps (d : Dev) :
    (d.fmtEntry).hv.lockout = d.hv.lockout ∧ (d.fmtEntry).tx = d.tx ∧
      (d.fmtEntry).attn.settings = d.attn.settings ∧
      (d.hv.latchOff = true → (d.fmtEntry).hv.latchOff = true) ∧ (d.hv.coverOff = true → (d.fmtEntry).hv.coverOff = true) := by
  unfold Dev.fmtEntry Dev.unlessFull <;> refine ⟨?_, ?_, ?_, fun h => ?_, fun h => ?_⟩ <;> (try dsimp only) <;> (repeat' split) <;> (try simp) <;> (repeat' split) <;> first | done | simp | simp (maxDischargeDepth := 9) [h] | (revert h; simp [Hv.latchOff, Hv.coverOff, Hv.sourceOn])
@[simp] theorem Dev.fmtLabel_keeps (second : Bool) (got next : Task) (set : Text → Fmt → Fmt) (d : Dev) :
    (d.fmtLabel second got next set).hv.lockout = d.hv.lockout ∧ (d.fmtLabel second got next set).tx = d.tx ∧
      (d.fmtLabel second got next set).attn.settings = d.attn.settings ∧
      (d.hv.latchOff = true → (d.fmtLabel second got next set).hv.latchOff = true) ∧ (d.hv.coverOff = true → (d.fmtLabel second got next set).hv.coverOff = true) := by
  unfold Dev.fmtLabel <;> refine ⟨?_, ?_, ?_, fun h => ?_, fun h => ?_⟩ <;> (try dsimp only) <;> (repeat' split) <;> (try simp) <;> (repeat' split) <;> first | done | simp | simp (maxDischargeDepth := 9) [h] | (revert h; simp [Hv.latchOff, Hv.coverOff, Hv.sourceOn])
@[simp] theorem Dev.fmtLabelA_keeps (d : Dev) :
    (d.fmtLabelA).hv.lockout = d.hv.lockout ∧ (d.fmtLabelA).tx = d.tx ∧
      (d.fmtLabelA).attn.settings = d.attn.settings ∧
      (d.hv.latchOff = true → (d.fmtLabelA).hv.latchOff = true) ∧ (d.hv.coverOff = true → (d.fmtLabelA).hv.coverOff = true) := by
  unfold Dev.fmtLabelA <;> refine ⟨?_, ?_, ?_, fun h => ?_, fun h => ?_⟩ <;> (try dsimp only) <;> (repeat' split) <;> (try simp) <;> (repeat' split) <;> first | done | simp | simp (maxDischargeDepth := 9) [h] | (revert h; simp [Hv.latchOff, Hv.coverOff, Hv.sourceOn])
@[simp] theorem Dev.fmtLabelB_keeps (d : Dev) :
    (d.fmtLabelB).hv.lockout = d.hv.lockout ∧ (d.fmtLabelB).tx = d.tx ∧
      (d.fmtLabelB).attn.settings = d.attn.settings ∧
      (d.hv.latchOff = true → (d.fmtLabelB).hv.latchOff = true) ∧ (d.hv.coverOff = true → (d.fmtLabelB).hv.coverOff = true) := by
  unfold Dev.fmtLabelB <;> refine ⟨?_, ?_, ?_, fun h => ?_, fun h => ?_⟩ <;> (try dsimp only) <;> (repeat' split) <;> (try simp) <;> (repeat' split) <;> first | done | simp | simp (maxDischargeDepth := 9) [h] | (revert h; simp [Hv.latchOff, Hv.coverOff, Hv.sourceOn])
@[simp] theorem Dev.fmtGotA_keeps (d : Dev) :
    (d.fmtGotA).hv.lockout = d.hv.lockout ∧ (d.fmtGotA).tx = d.tx ∧
      (d.fmtGotA).attn.settings = d.attn.settings ∧
      (d.hv.latchOff = true → (d.fmtGotA).hv.latchOff = true) ∧ (d.hv.coverOff = true → (d.fmtGotA).hv.coverOff = true) := by
  unfold Dev.fmtGotA <;> refine ⟨?_, ?_, ?_, fun h => ?_, fun h => ?_⟩ <;> (try dsimp only) <;> (repeat' split) <;> (try simp) <;> (repeat' split) <;> first | done | simp | simp (maxDischargeDepth := 9) [h] | (revert h; simp [Hv.latchOff, Hv.coverOff, Hv.sourceOn])
@[simp] theorem Dev.fmtGotB_keeps (d : Dev) :
    (d.fmtGotB).hv.lockout = d.hv.lockout ∧ (d.fmtGotB).tx = d.tx ∧
      (d.fmtGotB).attn.settings = d.attn.settings ∧
      (d.hv.latchOff = true → (d.fmtGotB).hv.latchOff = true) ∧ (d.hv.coverOff = true → (d.fmtGotB).hv.coverOff = true) := by
  unfold Dev.fmtGotB <;> refine ⟨?_, ?_, ?_, fun h => ?_, fun h => ?_⟩ <;> (try dsimp only) <;> (repeat' split) <;> (try simp) <;> (repeat' split) <;> first | done | simp | simp (maxDischargeDepth := 9) [h] | (revert h; simp [Hv.latchOff, Hv.coverOff, Hv.sourceOn])
@[simp] theorem Dev.fmtBuild_keeps (d : Dev) :
    (d.fmtBuild).hv.lockout = d.hv.lockout ∧ (d.fmtBuild).tx = d.tx ∧
      (d.fmtBuild).attn.settings = d.attn.settings ∧
      (d.hv.latchOff = true → (d.fmtBuild).hv.latchOff = true) ∧ (d.hv.coverOff = true → (d.fmtBuild).hv.coverOff = true) := by
  unfold Dev.fmtBuild <;> refine ⟨?_, ?_, ?_, fun h => ?_, fun h => ?_⟩ <;> (try dsimp only) <;> (repeat' split) <;> (try simp) <;> (repeat' split) <;> first | done | simp | simp (maxDischargeDepth := 9) [h] | (revert h; simp [Hv.latchOff, Hv.coverOff, Hv.sourceOn])
@[simp] theorem Dev.lineDone_keeps (d : Dev) :
    (d.lineDone).hv.lockout = d.hv.lockout ∧ (d.lineDone).tx = d.tx ∧
      (d.lineDone).attn.settings = d.attn.settings ∧
      (d.hv.latchOff = true → (d.lineDone).hv.latchOff = true) ∧ (d.hv.coverOff = true → (d.lineDone).hv.coverOff = true) := by
  unfold Dev.lineDone <;> refine ⟨?_, ?_, ?_, fun h => ?_, fun h => ?_⟩ <;> (try dsimp only) <;> (repeat' split) <;> (try simp) <;> (repeat' split) <;> first | done | simp | simp (maxDischargeDepth := 9) [h] | (revert h; simp [Hv.latchOff, Hv.coverOff, Hv.sourceOn])
@[simp] theorem Dev.fmtPlace_keeps (d : Dev) :
    (d.fmtPlace).hv.lockout = d.hv.lockout ∧ (d.fmtPlace).attn.settings = d.attn.settings ∧
      (d.hv.latchOff = true → (d.fmtPlace).hv.latchOff = true) ∧ (d.hv.coverOff = true → (d.fmtPlace).hv.coverOff = true) := by
  unfold Dev.fmtPlace <;> refine ⟨?_, ?_, fun h => ?_, fun h => ?_⟩ <;> (try dsimp only) <;> (repeat' split) <;> (try simp) <;> (repeat' split) <;> first | done | simp | simp (maxDischargeDepth := 9) [h] | (revert h; simp [Hv.latchOff, Hv.coverOff, Hv.sourceOn])
@[simp] theorem Dev.fmtSpooled_keeps (d : Dev) :
    (d.fmtSpooled).hv.lockout = d.hv.lockout ∧ (d.fmtSpooled).tx = d.tx ∧
      (d.fmtSpooled).attn.settings = d.attn.settings ∧
      (d.hv.latchOff = true → (d.fmtSpooled).hv.latchOff = true) ∧ (d.hv.coverOff = true → (d.fmtSpooled).hv.coverOff = true) := by
  unfold Dev.fmtSpooled <;> refine ⟨?_, ?_, ?_, fun h => ?_, fun h => ?_⟩ <;> (try dsimp only) <;> (repeat' split) <;> (try simp) <;> (repeat' split) <;> first | done | simp | simp (maxDischargeDepth := 9) [h] | (revert h; simp [Hv.latchOff, Hv.coverOff, Hv.sourceOn])
@[simp] theorem Dev.setStatus_keeps (st : OStatus) (d : Dev) :
    (d.setStatus st).hv.lockout = d.hv.lockout ∧ (d.setStatus st).tx = d.tx ∧
      (d.setStatus st).attn.settings = d.attn.settings ∧
      (d.hv.latchOff = true → (d.setStatus st).hv.latchOff = true) ∧ (d.hv.coverOff = true → (d.setStatus st).hv.coverOff = true) := by
  unfold Dev.setStatus <;> refine ⟨?_, ?_, ?_, fun h => ?_, fun h => ?_⟩ <;> (try dsimp only) <;> (repeat' split) <;> (try simp) <;> (repeat' split) <;> first | done | simp | simp (maxDischargeDepth := 9) [h] | (revert h; simp [Hv.latchOff, Hv.coverOff, Hv.sourceOn])
@[simp] theorem Dev.mapUnfinished_keeps (d : Dev) :
    (d.mapUnfinished).hv.lockout = d.hv.lockout ∧ (d.mapUnfinished).tx = d.tx ∧
      (d.mapUnfinished).attn.settings = d.attn.settings ∧
      (d.hv.latchOff = true → (d.mapUnfinished).hv.latchOff = true) ∧ (d.hv.coverOff = true → (d.mapUnfinished).hv.coverOff = true) := by
  unfold Dev.mapUnfinished <;> refine ⟨?_, ?_, ?_, fun h => ?_, fun h => ?_⟩ <;> (try dsimp only) <;> (repeat' split) <;> (try simp) <;> (repeat' split) <;> first | done | simp | simp (maxDischargeDepth := 9) [h] | (revert h; simp [Hv.latchOff, Hv.coverOff, Hv.sourceOn])
@[simp] theorem Dev.ownerIdle_keeps (d : Dev) :
    (d.ownerIdle).hv.lockout = d.hv.lockout ∧ (d.ownerIdle).tx = d.tx ∧
      (d.ownerIdle).attn.settings = d.attn.settings ∧
      (d.hv.latchOff = true → (d.ownerIdle).hv.latchOff = true) ∧ (d.hv.coverOff = true → (d.ownerIdle).hv.coverOff = true) := by
  unfold Dev.ownerIdle <;> refine ⟨?_, ?_, ?_, fun h => ?_, fun h => ?_⟩ <;> (try dsimp only) <;> (repeat' split) <;> (try simp) <;> (repeat' split) <;> first | done | simp | simp (maxDischargeDepth := 9) [h] | (revert h; simp [Hv.latchOff, Hv.coverOff, Hv.sourceOn])
@[simp] theorem Dev.releaseOwner_keeps (st : OStatus) (d : Dev) :
    (d.releaseOwner st).hv.lockout = d.hv.lockout ∧ (d.releaseOwner st).tx = d.tx ∧
      (d.releaseOwner st).attn.settings = d.attn.settings ∧
      (d.hv.latchOff = true → (d.releaseOwner st).hv.latchOff = true) ∧ (d.hv.coverOff = true → (d.releaseOwner st).hv.coverOff = true) := by
  unfold Dev.releaseOwner <;> refine ⟨?_, ?_, ?_, fun h => ?_, fun h => ?_⟩ <;> (try dsimp only) <;> (repeat' split) <;> (try simp) <;> (repeat' split) <;> first | done | simp | simp (maxDischargeDepth := 9) [h] | (revert h; simp [Hv.latchOff, Hv.coverOff, Hv.sourceOn])
@[simp] theorem Dev.endOrder_keeps (st : OStatus) (c : Code) (d : Dev) :
    (d.endOrder st c).hv.lockout = d.hv.lockout ∧ (d.endOrder st c).tx = d.tx ∧
      (d.endOrder st c).attn.settings = d.attn.settings ∧
      (d.hv.latchOff = true → (d.endOrder st c).hv.latchOff = true) ∧ (d.hv.coverOff = true → (d.endOrder st c).hv.coverOff = true) := by
  unfold Dev.endOrder <;> refine ⟨?_, ?_, ?_, fun h => ?_, fun h => ?_⟩ <;> (try dsimp only) <;> (repeat' split) <;> (try simp) <;> (repeat' split) <;> first | done | simp | simp (maxDischargeDepth := 9) [h] | (revert h; simp [Hv.latchOff, Hv.coverOff, Hv.sourceOn])
@[simp] theorem Dev.haltAt_keeps (r : Resume) (d : Dev) :
    (d.haltAt r).hv.lockout = d.hv.lockout ∧ (d.haltAt r).tx = d.tx ∧
      (d.haltAt r).attn.settings = d.attn.settings ∧
      (d.hv.latchOff = true → (d.haltAt r).hv.latchOff = true) ∧ (d.hv.coverOff = true → (d.haltAt r).hv.coverOff = true) := by
  unfold Dev.haltAt <;> refine ⟨?_, ?_, ?_, fun h => ?_, fun h => ?_⟩ <;> (try dsimp only) <;> (repeat' split) <;> (try simp) <;> (repeat' split) <;> first | done | simp | simp (maxDischargeDepth := 9) [h] | (revert h; simp [Hv.latchOff, Hv.coverOff, Hv.sourceOn])
@[simp] theorem Dev.finish_keeps (d : Dev) :
    (d.finish).hv.lockout = d.hv.lockout ∧ (d.finish).tx = d.tx ∧
      (d.finish).attn.settings = d.attn.settings ∧
      (d.hv.latchOff = true → (d.finish).hv.latchOff = true) ∧ (d.hv.coverOff = true → (d.finish).hv.coverOff = true) := by
  unfold Dev.finish <;> refine ⟨?_, ?_, ?_, fun h => ?_, fun h => ?_⟩ <;> (try dsimp only) <;> (repeat' split) <;> (try simp) <;> (repeat' split) <;> first | done | simp | simp (maxDischargeDepth := 9) [h] | (revert h; simp [Hv.latchOff, Hv.coverOff, Hv.sourceOn])
@[simp] theorem Dev.pauseOwner_keeps (d : Dev) :
    (d.pauseOwner).hv.lockout = d.hv.lockout ∧ (d.pauseOwner).tx = d.tx ∧
      (d.pauseOwner).attn.settings = d.attn.settings ∧
      (d.hv.latchOff = true → (d.pauseOwner).hv.latchOff = true) ∧ (d.hv.coverOff = true → (d.pauseOwner).hv.coverOff = true) := by
  unfold Dev.pauseOwner <;> refine ⟨?_, ?_, ?_, fun h => ?_, fun h => ?_⟩ <;> (try dsimp only) <;> (repeat' split) <;> (try simp) <;> (repeat' split) <;> first | done | simp | simp (maxDischargeDepth := 9) [h] | (revert h; simp [Hv.latchOff, Hv.coverOff, Hv.sourceOn])
@[simp] theorem Dev.pause_keeps (d : Dev) :
    (d.pause).hv.lockout = d.hv.lockout ∧ (d.pause).tx = d.tx ∧
      (d.pause).attn.settings = d.attn.settings ∧
      (d.hv.latchOff = true → (d.pause).hv.latchOff = true) ∧ (d.hv.coverOff = true → (d.pause).hv.coverOff = true) := by
  unfold Dev.pause <;> refine ⟨?_, ?_, ?_, fun h => ?_, fun h => ?_⟩ <;> (try dsimp only) <;> (repeat' split) <;> (try simp) <;> (repeat' split) <;> first | done | simp | simp (maxDischargeDepth := 9) [h] | (revert h; simp [Hv.latchOff, Hv.coverOff, Hv.sourceOn])
@[simp] theorem Dev.paused_keeps (d : Dev) :
    (d.paused).hv.lockout = d.hv.lockout ∧ (d.paused).tx = d.tx ∧
      (d.paused).attn.settings = d.attn.settings ∧
      (d.hv.latchOff = true → (d.paused).hv.latchOff = true) ∧ (d.hv.coverOff = true → (d.paused).hv.coverOff = true) := by
  unfold Dev.paused <;> refine ⟨?_, ?_, ?_, fun h => ?_, fun h => ?_⟩ <;> (try dsimp only) <;> (repeat' split) <;> (try simp) <;> (repeat' split) <;> first | done | simp | simp (maxDischargeDepth := 9) [h] | (revert h; simp [Hv.latchOff, Hv.coverOff, Hv.sourceOn])
@[simp] theorem Dev.safe_keeps (d : Dev) :
    (d.safe).hv.lockout = d.hv.lockout ∧ (d.safe).tx = d.tx ∧
      (d.safe).attn.settings = d.attn.settings ∧
      (d.hv.latchOff = true → (d.safe).hv.latchOff = true) ∧ (d.hv.coverOff = true → (d.safe).hv.coverOff = true) := by
  unfold Dev.safe <;> refine ⟨?_, ?_, ?_, fun h => ?_, fun h => ?_⟩ <;> (try dsimp only) <;> (repeat' split) <;> (try simp) <;> (repeat' split) <;> first | done | simp | simp (maxDischargeDepth := 9) [h] | (revert h; simp [Hv.latchOff, Hv.coverOff, Hv.sourceOn])
@[simp] theorem Dev.zeroSafe_keeps (d : Dev) :
    (d.zeroSafe).hv.lockout = d.hv.lockout ∧ (d.zeroSafe).tx = d.tx ∧
      (d.zeroSafe).attn.settings = d.attn.settings ∧
      (d.hv.latchOff = true → (d.zeroSafe).hv.latchOff = true) ∧ (d.hv.coverOff = true → (d.zeroSafe).hv.coverOff = true) := by
  unfold Dev.zeroSafe <;> refine ⟨?_, ?_, ?_, fun h => ?_, fun h => ?_⟩ <;> (try dsimp only) <;> (repeat' split) <;> (try simp) <;> (repeat' split) <;> first | done | simp | simp (maxDischargeDepth := 9) [h] | (revert h; simp [Hv.latchOff, Hv.coverOff, Hv.sourceOn])
@[simp] theorem Dev.reach_keeps (off : Nat) (d : Dev) :
    (d.reach off).hv.lockout = d.hv.lockout ∧ (d.reach off).tx = d.tx ∧
      (d.reach off).attn.settings = d.attn.settings ∧
      (d.hv.latchOff = true → (d.reach off).hv.latchOff = true) ∧ (d.hv.coverOff = true → (d.reach off).hv.coverOff = true) := by
  unfold Dev.reach <;> refine ⟨?_, ?_, ?_, fun h => ?_, fun h => ?_⟩ <;> (try dsimp only) <;> (repeat' split) <;> (try simp) <;> (repeat' split) <;> first | done | simp | simp (maxDischargeDepth := 9) [h] | (revert h; simp [Hv.latchOff, Hv.coverOff, Hv.sourceOn])
@[simp] theorem Dev.watchWord_keeps (w : Watch) (d : Dev) :
    (d.watchWord w).hv.lockout = d.hv.lockout ∧ (d.watchWord w).tx = d.tx ∧
      (d.watchWord w).attn.settings = d.attn.settings ∧
      (d.hv.latchOff = true → (d.watchWord w).hv.latchOff = true) ∧ (d.hv.coverOff = true → (d.watchWord w).hv.coverOff = true) := by
  unfold Dev.watchWord <;> refine ⟨?_, ?_, ?_, fun h => ?_, fun h => ?_⟩ <;> (try dsimp only) <;> (repeat' split) <;> (try simp) <;> (repeat' split) <;> first | done | simp | simp (maxDischargeDepth := 9) [h] | (revert h; simp [Hv.latchOff, Hv.coverOff, Hv.sourceOn])
@[simp] theorem Dev.release_keeps (d : Dev) :
    (d.release).hv.lockout = d.hv.lockout ∧ (d.release).tx = d.tx ∧
      (d.release).attn.settings = d.attn.settings ∧
      (d.hv.latchOff = true → (d.release).hv.latchOff = true) ∧ (d.hv.coverOff = true → (d.release).hv.coverOff = true) := by
  unfold Dev.release <;> refine ⟨?_, ?_, ?_, fun h => ?_, fun h => ?_⟩ <;> (try dsimp only) <;> (repeat' split) <;> (try simp) <;> (repeat' split) <;> first | done | simp | simp (maxDischargeDepth := 9) [h] | (revert h; simp [Hv.latchOff, Hv.coverOff, Hv.sourceOn])
@[simp] theorem Dev.followLink_keeps (w : Word) (src : Watch) (d : Dev) :
    (d.followLink w src).hv.lockout = d.hv.lockout ∧ (d.followLink w src).tx = d.tx ∧
      (d.followLink w src).attn.settings = d.attn.settings ∧
      (d.hv.latchOff = true → (d.followLink w src).hv.latchOff = true) ∧ (d.hv.coverOff = true → (d.followLink w src).hv.coverOff = true) := by
  unfold Dev.followLink <;> refine ⟨?_, ?_, ?_, fun h => ?_, fun h => ?_⟩ <;> (try dsimp only) <;> (repeat' split) <;> (try simp) <;> (repeat' split) <;> first | done | simp | simp (maxDischargeDepth := 9) [h] | (revert h; simp [Hv.latchOff, Hv.coverOff, Hv.sourceOn])
@[simp] theorem Dev.linkGot_keeps (d : Dev) :
    (d.linkGot).hv.lockout = d.hv.lockout ∧ (d.linkGot).tx = d.tx ∧
      (d.linkGot).attn.settings = d.attn.settings ∧
      (d.hv.latchOff = true → (d.linkGot).hv.latchOff = true) ∧ (d.hv.coverOff = true → (d.linkGot).hv.coverOff = true) := by
  unfold Dev.linkGot <;> refine ⟨?_, ?_, ?_, fun h => ?_, fun h => ?_⟩ <;> (try dsimp only) <;> (repeat' split) <;> (try simp) <;> (repeat' split) <;> first | done | simp | simp (maxDischargeDepth := 9) [h] | (revert h; simp [Hv.latchOff, Hv.coverOff, Hv.sourceOn])
@[simp] theorem Dev.reread_keeps (w : Watch) (d : Dev) :
    (d.reread w).hv.lockout = d.hv.lockout ∧ (d.reread w).tx = d.tx ∧
      (d.reread w).attn.settings = d.attn.settings ∧
      (d.hv.latchOff = true → (d.reread w).hv.latchOff = true) ∧ (d.hv.coverOff = true → (d.reread w).hv.coverOff = true) := by
  unfold Dev.reread <;> refine ⟨?_, ?_, ?_, fun h => ?_, fun h => ?_⟩ <;> (try dsimp only) <;> (repeat' split) <;> (try simp) <;> (repeat' split) <;> first | done | simp | simp (maxDischargeDepth := 9) [h] | (revert h; simp [Hv.latchOff, Hv.coverOff, Hv.sourceOn])
@[simp] theorem Dev.followWord_keeps (w : Watch) (d : Dev) :
    (d.followWord w).hv.lockout = d.hv.lockout ∧ (d.followWord w).tx = d.tx ∧
      (d.followWord w).attn.settings = d.attn.settings ∧
      (d.hv.latchOff = true → (d.followWord w).hv.latchOff = true) ∧ (d.hv.coverOff = true → (d.followWord w).hv.coverOff = true) := by
  unfold Dev.followWord <;> refine ⟨?_, ?_, ?_, fun h => ?_, fun h => ?_⟩ <;> (try dsimp only) <;> (repeat' split) <;> (try simp) <;> (repeat' split) <;> first | done | simp | simp (maxDischargeDepth := 9) [h] | (revert h; simp [Hv.latchOff, Hv.coverOff, Hv.sourceOn])
@[simp] theorem Dev.rereadGot_keeps (w : Watch) (d : Dev) :
    (d.rereadGot w).hv.lockout = d.hv.lockout ∧ (d.rereadGot w).tx = d.tx ∧
      (d.rereadGot w).attn.settings = d.attn.settings ∧
      (d.hv.latchOff = true → (d.rereadGot w).hv.latchOff = true) ∧ (d.hv.coverOff = true → (d.rereadGot w).hv.coverOff = true) := by
  unfold Dev.rereadGot <;> refine ⟨?_, ?_, ?_, fun h => ?_, fun h => ?_⟩ <;> (try dsimp only) <;> (repeat' split) <;> (try simp) <;> (repeat' split) <;> first | done | simp | simp (maxDischargeDepth := 9) [h] | (revert h; simp [Hv.latchOff, Hv.coverOff, Hv.sourceOn])
@[simp] theorem Dev.start_keeps (ws : List Word) (d : Dev) :
    (d.start ws).hv.lockout = d.hv.lockout ∧ (d.start ws).tx = d.tx ∧
      (d.start ws).attn.settings = d.attn.settings ∧
      (d.hv.latchOff = true → (d.start ws).hv.latchOff = true) ∧ (d.hv.coverOff = true → (d.start ws).hv.coverOff = true) := by
  unfold Dev.start <;> refine ⟨?_, ?_, ?_, fun h => ?_, fun h => ?_⟩ <;> (try dsimp only) <;> (repeat' split) <;> (try simp) <;> (repeat' split) <;> first | done | simp | simp (maxDischargeDepth := 9) [h] | (revert h; simp [Hv.latchOff, Hv.coverOff, Hv.sourceOn])
@[simp] theorem Dev.image_keeps (d : Dev) :
    (d.image).hv.lockout = d.hv.lockout ∧ (d.image).tx = d.tx ∧
      (d.image).attn.settings = d.attn.settings ∧
      (d.hv.latchOff = true → (d.image).hv.latchOff = true) ∧ (d.hv.coverOff = true → (d.image).hv.coverOff = true) := by
  unfold Dev.image <;> refine ⟨?_, ?_, ?_, fun h => ?_, fun h => ?_⟩ <;> (try dsimp only) <;> (repeat' split) <;> (try simp) <;> (repeat' split) <;> first | done | simp | simp (maxDischargeDepth := 9) [h] | (revert h; simp [Hv.latchOff, Hv.coverOff, Hv.sourceOn])
@[simp] theorem Dev.startEnd_keeps (head : Nat) (d : Dev) :
    (d.startEnd head).hv.lockout = d.hv.lockout ∧ (d.startEnd head).tx = d.tx ∧
      (d.startEnd head).attn.settings = d.attn.settings ∧
      (d.hv.latchOff = true → (d.startEnd head).hv.latchOff = true) ∧ (d.hv.coverOff = true → (d.startEnd head).hv.coverOff = true) := by
  unfold Dev.startEnd <;> refine ⟨?_, ?_, ?_, fun h => ?_, fun h => ?_⟩ <;> (try dsimp only) <;> (repeat' split) <;> (try simp) <;> (repeat' split) <;> first | done | simp | simp (maxDischargeDepth := 9) [h] | (revert h; simp [Hv.latchOff, Hv.coverOff, Hv.sourceOn])
@[simp] theorem Dev.startConfigure_keeps (o : Order) (d : Dev) :
    (d.startConfigure o).hv.lockout = d.hv.lockout ∧ (d.startConfigure o).attn.settings = d.attn.settings ∧
      (d.hv.latchOff = true → (d.startConfigure o).hv.latchOff = true) ∧ (d.hv.coverOff = true → (d.startConfigure o).hv.coverOff = true) := by
  unfold Dev.startConfigure <;> refine ⟨?_, ?_, fun h => ?_, fun h => ?_⟩ <;> (try dsimp only) <;> (repeat' split) <;> (try simp) <;> (repeat' split) <;> first | done | simp | simp (maxDischargeDepth := 9) [h] | (revert h; simp [Hv.latchOff, Hv.coverOff, Hv.sourceOn])
@[simp] theorem Dev.startMeasure_keeps (o : Order) (d : Dev) :
    (d.startMeasure o).hv.lockout = d.hv.lockout ∧ (d.startMeasure o).tx = d.tx ∧
      (d.startMeasure o).attn.settings = d.attn.settings ∧
      (d.hv.latchOff = true → (d.startMeasure o).hv.latchOff = true) ∧ (d.hv.coverOff = true → (d.startMeasure o).hv.coverOff = true) := by
  unfold Dev.startMeasure <;> refine ⟨?_, ?_, ?_, fun h => ?_, fun h => ?_⟩ <;> (try dsimp only) <;> (repeat' split) <;> (try simp) <;> (repeat' split) <;> first | done | simp | simp (maxDischargeDepth := 9) [h] | (revert h; simp [Hv.latchOff, Hv.coverOff, Hv.sourceOn])
@[simp] theorem Dev.startOwner_keeps (k : Kind) (o : Order) (d : Dev) :
    (d.startOwner k o).hv.lockout = d.hv.lockout ∧ (d.startOwner k o).attn.settings = d.attn.settings ∧
      (d.hv.latchOff = true → (d.startOwner k o).hv.latchOff = true) ∧ (d.hv.coverOff = true → (d.startOwner k o).hv.coverOff = true) := by
  unfold Dev.startOwner <;> refine ⟨?_, ?_, fun h => ?_, fun h => ?_⟩ <;> (try dsimp only) <;> (repeat' split) <;> (try simp) <;> (repeat' split) <;> first | done | simp | simp (maxDischargeDepth := 9) [h] | (revert h; simp [Hv.latchOff, Hv.coverOff, Hv.sourceOn])
@[simp] theorem Dev.refuseByReader_keeps (c : Code) (off : Nat) (hdr : Word) (d : Dev) :
    (d.refuseByReader c off hdr).hv.lockout = d.hv.lockout ∧ (d.refuseByReader c off hdr).tx = d.tx ∧
      (d.refuseByReader c off hdr).attn.settings = d.attn.settings ∧
      (d.hv.latchOff = true → (d.refuseByReader c off hdr).hv.latchOff = true) ∧ (d.hv.coverOff = true → (d.refuseByReader c off hdr).hv.coverOff = true) := by
  unfold Dev.refuseByReader <;> refine ⟨?_, ?_, ?_, fun h => ?_, fun h => ?_⟩ <;> (try dsimp only) <;> (repeat' split) <;> (try simp) <;> (repeat' split) <;> first | done | simp | simp (maxDischargeDepth := 9) [h] | (revert h; simp [Hv.latchOff, Hv.coverOff, Hv.sourceOn])
@[simp] theorem Dev.takeOrder_keeps (peek : Nat → Word) (d : Dev) :
    (d.takeOrder peek).hv.lockout = d.hv.lockout ∧ (d.takeOrder peek).attn.settings = d.attn.settings ∧
      (d.hv.latchOff = true → (d.takeOrder peek).hv.latchOff = true) ∧ (d.hv.coverOff = true → (d.takeOrder peek).hv.coverOff = true) := by
  unfold Dev.takeOrder <;> refine ⟨?_, ?_, fun h => ?_, fun h => ?_⟩ <;> (try dsimp only) <;> (repeat' split) <;> (try simp) <;> (repeat' split) <;> first | done | simp | simp (maxDischargeDepth := 9) [h] | (revert h; simp [Hv.latchOff, Hv.coverOff, Hv.sourceOn])
@[simp] theorem Dev.dropThread_keeps (d : Dev) :
    (d.dropThread).hv.lockout = d.hv.lockout ∧ (d.dropThread).tx = d.tx ∧
      (d.dropThread).attn.settings = d.attn.settings ∧
      (d.hv.latchOff = true → (d.dropThread).hv.latchOff = true) ∧ (d.hv.coverOff = true → (d.dropThread).hv.coverOff = true) := by
  unfold Dev.dropThread <;> refine ⟨?_, ?_, ?_, fun h => ?_, fun h => ?_⟩ <;> (try dsimp only) <;> (repeat' split) <;> (try simp) <;> (repeat' split) <;> first | done | simp | simp (maxDischargeDepth := 9) [h] | (revert h; simp [Hv.latchOff, Hv.coverOff, Hv.sourceOn])
@[simp] theorem Dev.stopArrives_keeps (fault : Bool) (d : Dev) :
    (d.stopArrives fault).hv.lockout = d.hv.lockout ∧ (d.stopArrives fault).tx = d.tx ∧
      (d.stopArrives fault).attn.settings = d.attn.settings ∧
      (d.hv.latchOff = true → (d.stopArrives fault).hv.latchOff = true) ∧ (d.hv.coverOff = true → (d.stopArrives fault).hv.coverOff = true) := by
  unfold Dev.stopArrives <;> refine ⟨?_, ?_, ?_, fun h => ?_, fun h => ?_⟩ <;> (try dsimp only) <;> (repeat' split) <;> (try simp) <;> (repeat' split) <;> first | done | simp | simp (maxDischargeDepth := 9) [h] | (revert h; simp [Hv.latchOff, Hv.coverOff, Hv.sourceOn])
@[simp] theorem Dev.halt_keeps (d : Dev) :
    (d.halt).hv.lockout = d.hv.lockout ∧ (d.halt).tx = d.tx ∧
      (d.halt).attn.settings = d.attn.settings ∧
      (d.hv.latchOff = true → (d.halt).hv.latchOff = true) ∧ (d.hv.coverOff = true → (d.halt).hv.coverOff = true) := by
  unfold Dev.halt <;> refine ⟨?_, ?_, ?_, fun h => ?_, fun h => ?_⟩ <;> (try dsimp only) <;> (repeat' split) <;> (try simp) <;> (repeat' split) <;> first | done | simp | simp (maxDischargeDepth := 9) [h] | (revert h; simp [Hv.latchOff, Hv.coverOff, Hv.sourceOn])
@[simp] theorem Dev.resumeOwner_keeps (d : Dev) :
    (d.resumeOwner).hv.lockout = d.hv.lockout ∧ (d.resumeOwner).tx = d.tx ∧
      (d.resumeOwner).attn.settings = d.attn.settings ∧
      (d.hv.latchOff = true → (d.resumeOwner).hv.latchOff = true) ∧ (d.hv.coverOff = true → (d.resumeOwner).hv.coverOff = true) := by
  unfold Dev.resumeOwner <;> refine ⟨?_, ?_, ?_, fun h => ?_, fun h => ?_⟩ <;> (try dsimp only) <;> (repeat' split) <;> (try simp) <;> (repeat' split) <;> first | done | simp | simp (maxDischargeDepth := 9) [h] | (revert h; simp [Hv.latchOff, Hv.coverOff, Hv.sourceOn])
@[simp] theorem Dev.running_keeps (d : Dev) :
    (d.running).hv.lockout = d.hv.lockout ∧ (d.running).tx = d.tx ∧
      (d.running).attn.settings = d.attn.settings ∧
      (d.hv.latchOff = true → (d.running).hv.latchOff = true) ∧ (d.hv.coverOff = true → (d.running).hv.coverOff = true) := by
  unfold Dev.running <;> refine ⟨?_, ?_, ?_, fun h => ?_, fun h => ?_⟩ <;> (try dsimp only) <;> (repeat' split) <;> (try simp) <;> (repeat' split) <;> first | done | simp | simp (maxDischargeDepth := 9) [h] | (revert h; simp [Hv.latchOff, Hv.coverOff, Hv.sourceOn])
@[simp] theorem Dev.resume_keeps (d : Dev) :
    (d.resume).hv.lockout = d.hv.lockout ∧ (d.resume).tx = d.tx ∧
      (d.resume).attn.settings = d.attn.settings ∧
      (d.hv.latchOff = true → (d.resume).hv.latchOff = true) ∧ (d.hv.coverOff = true → (d.resume).hv.coverOff = true) := by
  unfold Dev.resume <;> refine ⟨?_, ?_, ?_, fun h => ?_, fun h => ?_⟩ <;> (try dsimp only) <;> (repeat' split) <;> (try simp) <;> (repeat' split) <;> first | done | simp | simp (maxDischargeDepth := 9) [h] | (revert h; simp [Hv.latchOff, Hv.coverOff, Hv.sourceOn])
@[simp] theorem Dev.abort_keeps (d : Dev) :
    (d.abort).hv.lockout = d.hv.lockout ∧ (d.abort).tx = d.tx ∧
      (d.abort).attn.settings = d.attn.settings ∧
      (d.hv.latchOff = true → (d.abort).hv.latchOff = true) ∧ (d.hv.coverOff = true → (d.abort).hv.coverOff = true) := by
  unfold Dev.abort <;> refine ⟨?_, ?_, ?_, fun h => ?_, fun h => ?_⟩ <;> (try dsimp only) <;> (repeat' split) <;> (try simp) <;> (repeat' split) <;> first | done | simp | simp (maxDischargeDepth := 9) [h] | (revert h; simp [Hv.latchOff, Hv.coverOff, Hv.sourceOn])
@[simp] theorem Dev.faultArrives_keeps (d : Dev) :
    (d.faultArrives).hv.lockout = d.hv.lockout ∧ (d.faultArrives).tx = d.tx ∧
      (d.faultArrives).attn.settings = d.attn.settings ∧
      (d.hv.latchOff = true → (d.faultArrives).hv.latchOff = true) ∧ (d.hv.coverOff = true → (d.faultArrives).hv.coverOff = true) := by
  unfold Dev.faultArrives <;> refine ⟨?_, ?_, ?_, fun h => ?_, fun h => ?_⟩ <;> (try dsimp only) <;> (repeat' split) <;> (try simp) <;> (repeat' split) <;> first | done | simp | simp (maxDischargeDepth := 9) [h] | (revert h; simp [Hv.latchOff, Hv.coverOff, Hv.sourceOn])
@[simp] theorem Dev.location_keeps (i : Nat) (v : PVal) (trunc last : Bool) (d : Dev) :
    (d.location i v trunc last).hv.lockout = d.hv.lockout ∧ (d.location i v trunc last).tx = d.tx ∧
      (d.location i v trunc last).attn.settings = d.attn.settings ∧
      (d.hv.latchOff = true → (d.location i v trunc last).hv.latchOff = true) ∧ (d.hv.coverOff = true → (d.location i v trunc last).hv.coverOff = true) := by
  unfold Dev.location <;> refine ⟨?_, ?_, ?_, fun h => ?_, fun h => ?_⟩ <;> (try dsimp only) <;> (repeat' split) <;> (try simp) <;> (repeat' split) <;> first | done | simp | simp (maxDischargeDepth := 9) [h] | (revert h; simp [Hv.latchOff, Hv.coverOff, Hv.sourceOn])
@[simp] theorem Dev.wake_keeps (w : Wait) (d : Dev) :
    (d.wake w).hv.lockout = d.hv.lockout ∧ (d.wake w).tx = d.tx ∧
      (d.wake w).attn.settings = d.attn.settings ∧
      (d.hv.latchOff = true → (d.wake w).hv.latchOff = true) ∧ (d.hv.coverOff = true → (d.wake w).hv.coverOff = true) := by
  unfold Dev.wake <;> refine ⟨?_, ?_, ?_, fun h => ?_, fun h => ?_⟩ <;> (try dsimp only) <;> (repeat' split) <;> (try simp) <;> (repeat' split) <;> first | done | simp | simp (maxDischargeDepth := 9) [h] | (revert h; simp [Hv.latchOff, Hv.coverOff, Hv.sourceOn])
@[simp] theorem Dev.offReached_keeps (d : Dev) :
    (d.offReached).hv.lockout = d.hv.lockout ∧ (d.offReached).tx = d.tx ∧
      (d.offReached).attn.settings = d.attn.settings ∧
      (d.hv.latchOff = true → (d.offReached).hv.latchOff = true) ∧ (d.hv.coverOff = true → (d.offReached).hv.coverOff = true) := by
  unfold Dev.offReached <;> refine ⟨?_, ?_, ?_, fun h => ?_, fun h => ?_⟩ <;> (try dsimp only) <;> (repeat' split) <;> (try simp) <;> (repeat' split) <;> first | done | simp | simp (maxDischargeDepth := 9) [h] | (revert h; simp [Hv.latchOff, Hv.coverOff, Hv.sourceOn])
@[simp] theorem Dev.hvReport_keeps (r : HvReport) (d : Dev) :
    (d.hvReport r).hv.lockout = d.hv.lockout ∧ (d.hvReport r).tx = d.tx ∧
      (d.hvReport r).attn.settings = d.attn.settings ∧
      (d.hv.latchOff = true → (d.hvReport r).hv.latchOff = true) ∧ (d.hv.coverOff = true → (d.hvReport r).hv.coverOff = true) := by
  unfold Dev.hvReport <;> refine ⟨?_, ?_, ?_, fun h => ?_, fun h => ?_⟩ <;> (try dsimp only) <;> (repeat' split) <;> (try simp) <;> (repeat' split) <;> first | done | simp | simp (maxDischargeDepth := 9) [h] | (revert h; simp [Hv.latchOff, Hv.coverOff, Hv.sourceOn])
@[simp] theorem Dev.measured_keeps (k : JobKind) (d : Dev) :
    (d.measured k).hv.lockout = d.hv.lockout ∧ (d.measured k).tx = d.tx ∧
      (d.measured k).attn.settings = d.attn.settings ∧
      (d.hv.latchOff = true → (d.measured k).hv.latchOff = true) ∧ (d.hv.coverOff = true → (d.measured k).hv.coverOff = true) := by
  unfold Dev.measured <;> refine ⟨?_, ?_, ?_, fun h => ?_, fun h => ?_⟩ <;> (try dsimp only) <;> (repeat' split) <;> (try simp) <;> (repeat' split) <;> first | done | simp | simp (maxDischargeDepth := 9) [h] | (revert h; simp [Hv.latchOff, Hv.coverOff, Hv.sourceOn])
@[simp] theorem Dev.rampExpired_keeps (d : Dev) :
    (d.rampExpired).hv.lockout = d.hv.lockout ∧ (d.rampExpired).tx = d.tx ∧
      (d.rampExpired).attn.settings = d.attn.settings ∧
      (d.hv.latchOff = true → (d.rampExpired).hv.latchOff = true) ∧ (d.hv.coverOff = true → (d.rampExpired).hv.coverOff = true) := by
  unfold Dev.rampExpired <;> refine ⟨?_, ?_, ?_, fun h => ?_, fun h => ?_⟩ <;> (try dsimp only) <;> (repeat' split) <;> (try simp) <;> (repeat' split) <;> first | done | simp | simp (maxDischargeDepth := 9) [h] | (revert h; simp [Hv.latchOff, Hv.coverOff, Hv.sourceOn])
@[simp] theorem Dev.dwellExpired_keeps (d : Dev) :
    (d.dwellExpired).hv.lockout = d.hv.lockout ∧ (d.dwellExpired).tx = d.tx ∧
      (d.dwellExpired).attn.settings = d.attn.settings ∧
      (d.hv.latchOff = true → (d.dwellExpired).hv.latchOff = true) ∧ (d.hv.coverOff = true → (d.dwellExpired).hv.coverOff = true) := by
  unfold Dev.dwellExpired <;> refine ⟨?_, ?_, ?_, fun h => ?_, fun h => ?_⟩ <;> (try dsimp only) <;> (repeat' split) <;> (try simp) <;> (repeat' split) <;> first | done | simp | simp (maxDischargeDepth := 9) [h] | (revert h; simp [Hv.latchOff, Hv.coverOff, Hv.sourceOn])
@[simp] theorem Dev.locateDwellExpired_keeps (d : Dev) :
    (d.locateDwellExpired).hv.lockout = d.hv.lockout ∧ (d.locateDwellExpired).tx = d.tx ∧
      (d.locateDwellExpired).attn.settings = d.attn.settings ∧
      (d.hv.latchOff = true → (d.locateDwellExpired).hv.latchOff = true) ∧ (d.hv.coverOff = true → (d.locateDwellExpired).hv.coverOff = true) := by
  unfold Dev.locateDwellExpired <;> refine ⟨?_, ?_, ?_, fun h => ?_, fun h => ?_⟩ <;> (try dsimp only) <;> (repeat' split) <;> (try simp) <;> (repeat' split) <;> first | done | simp | simp (maxDischargeDepth := 9) [h] | (revert h; simp [Hv.latchOff, Hv.coverOff, Hv.sourceOn])
@[simp] theorem Dev.trip_keeps (d : Dev) :
    (d.trip).hv.lockout = d.hv.lockout ∧ (d.trip).tx = d.tx ∧
      (d.trip).attn.settings = d.attn.settings ∧
      (d.hv.latchOff = true → (d.trip).hv.latchOff = true) ∧ (d.hv.coverOff = true → (d.trip).hv.coverOff = true) := by
  unfold Dev.trip <;> refine ⟨?_, ?_, ?_, fun h => ?_, fun h => ?_⟩ <;> (try dsimp only) <;> (repeat' split) <;> (try simp) <;> (repeat' split) <;> first | done | simp | simp (maxDischargeDepth := 9) [h] | (revert h; simp [Hv.latchOff, Hv.coverOff, Hv.sourceOn])
@[simp] theorem Dev.interlockOpens_keeps (d : Dev) :
    (d.interlockOpens).hv.lockout = d.hv.lockout ∧ (d.interlockOpens).tx = d.tx ∧
      (d.interlockOpens).attn.settings = d.attn.settings ∧
      (d.hv.latchOff = true → (d.interlockOpens).hv.latchOff = true) ∧ (d.hv.coverOff = true → (d.interlockOpens).hv.coverOff = true) := by
  unfold Dev.interlockOpens
  refine ⟨?_, ?_, ?_, fun h => ?_, fun _ => ?_⟩ <;> (try dsimp only) <;> (repeat' split) <;>
    first
    | (simp; done)
    | (simp [h]; done)
    | (rename_i hs; revert h; simp [Hv.latchOff, hs]; done)
    | exact (Dev.abandonStep_keeps _).2.2.2.2 (by simp [Dev.enterDischarge, Hv.coverOff, Hv.sourceOn])
    | (rename_i hs; simp [Hv.coverOff]; simpa [Hv.sourceOn] using hs)
@[simp] theorem Dev.interlockCloses_keeps (d : Dev) :
    (d.interlockCloses).hv.lockout = d.hv.lockout ∧ (d.interlockCloses).tx = d.tx ∧
      (d.interlockCloses).attn.settings = d.attn.settings ∧
      (d.hv.latchOff = true → (d.interlockCloses).hv.latchOff = true) ∧ (d.hv.coverOff = true → (d.interlockCloses).hv.coverOff = true) := by
  unfold Dev.interlockCloses <;> refine ⟨?_, ?_, ?_, fun h => ?_, fun h => ?_⟩ <;> (try dsimp only) <;> (repeat' split) <;> (try simp) <;> (repeat' split) <;> first | done | simp | simp (maxDischargeDepth := 9) [h] | (revert h; simp [Hv.latchOff, Hv.coverOff, Hv.sourceOn])
@[simp] theorem Dev.formatLine_keeps (d : Dev) :
    (d.formatLine).hv.lockout = d.hv.lockout ∧ (d.formatLine).tx = d.tx ∧
      (d.formatLine).attn.settings = d.attn.settings ∧
      (d.hv.latchOff = true → (d.formatLine).hv.latchOff = true) ∧ (d.hv.coverOff = true → (d.formatLine).hv.coverOff = true) := by
  unfold Dev.formatLine <;> refine ⟨?_, ?_, ?_, fun h => ?_, fun h => ?_⟩ <;> (try dsimp only) <;> (repeat' split) <;> (try simp) <;> (repeat' split) <;> first | done | simp | simp (maxDischargeDepth := 9) [h] | (revert h; simp [Hv.latchOff, Hv.coverOff, Hv.sourceOn])
@[simp] theorem Dev.frameOut_keeps (d : Dev) :
    (d.frameOut).hv.lockout = d.hv.lockout ∧ (d.frameOut).attn.settings = d.attn.settings ∧
      (d.hv.latchOff = true → (d.frameOut).hv.latchOff = true) ∧ (d.hv.coverOff = true → (d.frameOut).hv.coverOff = true) := by
  unfold Dev.frameOut <;> refine ⟨?_, ?_, fun h => ?_, fun h => ?_⟩ <;> (try dsimp only) <;> (repeat' split) <;> (try simp) <;> (repeat' split) <;> first | done | simp | simp (maxDischargeDepth := 9) [h] | (revert h; simp [Hv.latchOff, Hv.coverOff, Hv.sourceOn])
@[simp] theorem Dev.setReady_keeps (b : Bool) (d : Dev) :
    (d.setReady b).hv.lockout = d.hv.lockout ∧ (d.setReady b).attn.settings = d.attn.settings ∧
      (d.hv.latchOff = true → (d.setReady b).hv.latchOff = true) ∧ (d.hv.coverOff = true → (d.setReady b).hv.coverOff = true) := by
  unfold Dev.setReady <;> refine ⟨?_, ?_, fun h => ?_, fun h => ?_⟩ <;> (try dsimp only) <;> (repeat' split) <;> (try simp) <;> (repeat' split) <;> first | done | simp | simp (maxDischargeDepth := 9) [h] | (revert h; simp [Hv.latchOff, Hv.coverOff, Hv.sourceOn])
@[simp] theorem Dev.setPaperOut_keeps (b : Bool) (d : Dev) :
    (d.setPaperOut b).hv.lockout = d.hv.lockout ∧ (d.setPaperOut b).attn.settings = d.attn.settings ∧
      (d.hv.latchOff = true → (d.setPaperOut b).hv.latchOff = true) ∧ (d.hv.coverOff = true → (d.setPaperOut b).hv.coverOff = true) := by
  unfold Dev.setPaperOut <;> refine ⟨?_, ?_, fun h => ?_, fun h => ?_⟩ <;> (try dsimp only) <;> (repeat' split) <;> (try simp) <;> (repeat' split) <;> first | done | simp | simp (maxDischargeDepth := 9) [h] | (revert h; simp [Hv.latchOff, Hv.coverOff, Hv.sourceOn])
@[simp] theorem Dev.notice_keeps (off : Nat) (d : Dev) :
    (d.notice off).hv.lockout = d.hv.lockout ∧ (d.notice off).tx = d.tx ∧
      (d.notice off).attn.settings = d.attn.settings ∧
      (d.hv.latchOff = true → (d.notice off).hv.latchOff = true) ∧ (d.hv.coverOff = true → (d.notice off).hv.coverOff = true) := by
  unfold Dev.notice <;> refine ⟨?_, ?_, ?_, fun h => ?_, fun h => ?_⟩ <;> (try dsimp only) <;> (repeat' split) <;> (try simp) <;> (repeat' split) <;> first | done | simp | simp (maxDischargeDepth := 9) [h] | (revert h; simp [Hv.latchOff, Hv.coverOff, Hv.sourceOn])
@[simp] theorem Dev.threadSoftReset_keeps (d : Dev) :
    (d.threadSoftReset).hv.lockout = d.hv.lockout ∧ (d.threadSoftReset).tx = d.tx ∧
      (d.threadSoftReset).attn.settings = d.attn.settings ∧
      (d.hv.latchOff = true → (d.threadSoftReset).hv.latchOff = true) ∧ (d.hv.coverOff = true → (d.threadSoftReset).hv.coverOff = true) := by
  unfold Dev.threadSoftReset <;> refine ⟨?_, ?_, ?_, fun h => ?_, fun h => ?_⟩ <;> (try dsimp only) <;> (repeat' split) <;> (try simp) <;> (repeat' split) <;> first | done | simp | simp (maxDischargeDepth := 9) [h] | (revert h; simp [Hv.latchOff, Hv.coverOff, Hv.sourceOn])
@[simp] theorem Dev.softReset_keeps (d : Dev) :
    (d.softReset).hv.lockout = d.hv.lockout ∧
      (d.hv.latchOff = true → (d.softReset).hv.latchOff = true) ∧ (d.hv.coverOff = true → (d.softReset).hv.coverOff = true) := by
  unfold Dev.softReset <;> refine ⟨?_, fun h => ?_, fun h => ?_⟩ <;> (try dsimp only) <;> (repeat' split) <;> (try simp) <;> (repeat' split) <;> first | done | simp | simp (maxDischargeDepth := 9) [h] | (revert h; simp [Hv.latchOff, Hv.coverOff, Hv.sourceOn])

@[simp] theorem Dev.granted_keeps (q : List (Nat × Word)) (b : Burst) (ws : List Word) (d : Dev) :
    (d.granted q b ws).hv.lockout = d.hv.lockout ∧ (d.granted q b ws).tx = d.tx ∧
      (d.granted q b ws).attn.settings = d.attn.settings ∧
      (d.hv.latchOff = true → (d.granted q b ws).hv.latchOff = true) ∧ (d.hv.coverOff = true → (d.granted q b ws).hv.coverOff = true) := by
  simp only [Dev.granted]; (repeat' split) <;> refine ⟨?_, ?_, ?_, fun h => ?_, fun h => ?_⟩ <;> first | (simp; done) | simp [h]

/-! ## The printer port -/

@[simp] theorem Dev.beginChar_fill (d : Dev) : d.beginChar.tx.fill = d.tx.fill := by
  unfold Dev.beginChar Tx.fill; split <;> rfl

@[simp] theorem Dev.retryChar_fill (d : Dev) : d.retryChar.tx.fill = d.tx.fill := by
  unfold Dev.retryChar; split <;> simp

/-- A line joins only a queue with room, so that the fill never passes 4. -/
theorem Dev.joinQueue_fill (t : Text) (d : Dev) : (d.joinQueue t).tx.fill ≤ d.tx.fill + 1 := by
  unfold Dev.joinQueue
  split
  · rw [Dev.beginChar_fill]; simp [Tx.fill]; omega
  · simp [Tx.fill]; omega

theorem Dev.nextLine_fill (b : Bool) (d : Dev) : (d.nextLine b).tx.fill = d.tx.fill := by
  unfold Dev.nextLine
  by_cases h : d.tx.queue.isEmpty = true
  · cases b <;> simp [h, Tx.fill]
  · rw [if_neg h, Dev.beginChar_fill]; rfl

/-- The end of a character never makes the fill grow. -/
theorem Dev.charEnd_fill (d : Dev) : d.charEnd.tx.fill ≤ d.tx.fill := by
  unfold Dev.charEnd
  split
  · rw [Dev.nextLine_fill]; simp [Tx.fill]
  · split
    · rw [Dev.beginChar_fill]; simp [Tx.fill]
    · rw [Dev.nextLine_fill]; simp [Tx.fill]; omega

theorem Dev.fmtPlace_fill {d : Dev} (h : d.tx.fill ≤ 4) : d.fmtPlace.tx.fill ≤ 4 := by
  unfold Dev.fmtPlace
  by_cases hs : d.fmt.toSpool = true
  · rw [if_pos hs]; split <;> exact h
  · rw [if_neg hs]
    by_cases hr : d.tx.room = true
    · rw [if_pos hr, (Dev.lineDone_keeps _).2.1]
      have := Dev.joinQueue_fill d.fmt.buf d
      have hr : d.tx.fill < 4 := of_decide_eq_true hr
      omega
    · rw [if_neg hr]; split <;> exact h

@[simp] theorem Dev.startConfigure_fill (o : Order) (d : Dev) : (d.startConfigure o).tx.fill = d.tx.fill := by
  unfold Dev.startConfigure
  (try dsimp only) <;> (repeat' split) <;> simp

@[simp] theorem Dev.startOwner_fill (k : Kind) (o : Order) (d : Dev) : (d.startOwner k o).tx.fill = d.tx.fill := by
  unfold Dev.startOwner; split <;> simp

@[simp] theorem Dev.takeOrder_fill (p : Nat → Word) (d : Dev) : (d.takeOrder p).tx.fill = d.tx.fill := by
  unfold Dev.takeOrder
  (try dsimp only) <;> (repeat' split) <;> simp

/-! ## The thread's steps -/

/-- No step of the thread clears the lockout latch. -/
theorem runTask_lockout (q : List (Nat × Word)) (t : Task) (d : Dev) : (runTask q t d).hv.lockout = d.hv.lockout := by
  cases t <;> simp [runTask]

/-- No step of the thread turns the source on while the lockout latch is set. -/
theorem runTask_latchOff (q : List (Nat × Word)) (t : Task) {d : Dev} (h : d.hv.latchOff = true) :
    (runTask q t d).hv.latchOff = true := by
  cases t <;> simp [runTask, h]

/-- Every step of the thread keeps the bound of the print queue's fill. -/
theorem runTask_fill (q : List (Nat × Word)) (t : Task) {d : Dev} (h : d.tx.fill ≤ 4) : (runTask q t d).tx.fill ≤ 4 := by
  cases t
  case fmtPlace => exact Dev.fmtPlace_fill h
  all_goals simpa [runTask] using h

/-- No step of the thread turns the source on while the recorded interlock is open. -/
theorem runTask_coverOff (q : List (Nat × Word)) (t : Task) {d : Dev} (h : d.hv.coverOff = true) :
    (runTask q t d).hv.coverOff = true := by
  cases t <;> simp [runTask, h]

theorem Dev.settle_lockout (q : List (Nat × Word)) {d : Dev} (h : d.hv.lockout = true) : (d.settle q).hv.lockout = true :=
  Dev.settle_invariant (P := fun d => d.hv.lockout = true) q (fun d h => by simpa using h)
    (fun t d h => by rw [runTask_lockout]; exact h) (fun _ _ h => h) h

theorem Dev.settle_latchOff (q : List (Nat × Word)) {d : Dev} (h : d.hv.latchOff = true) : (d.settle q).hv.latchOff = true :=
  Dev.settle_invariant (P := fun d => d.hv.latchOff = true) q (fun d h => by simpa using h) (fun t d h => runTask_latchOff q t h)
    (fun _ _ h => h) h

theorem Dev.settle_coverOff (q : List (Nat × Word)) {d : Dev} (h : d.hv.coverOff = true) : (d.settle q).hv.coverOff = true :=
  Dev.settle_invariant (P := fun d => d.hv.coverOff = true) q (fun d h => by simpa using h) (fun t d h => runTask_coverOff q t h)
    (fun _ _ h => h) h

theorem Dev.settle_fill (q : List (Nat × Word)) {d : Dev} (h : d.tx.fill ≤ 4) : (d.settle q).tx.fill ≤ 4 :=
  Dev.settle_invariant (P := fun d => d.tx.fill ≤ 4) q (fun d h => by simpa using h) (fun t d h => runTask_fill q t h)
    (fun _ _ h => h) h

/-- The thread changes of the attention unit only the requests and the line. -/
theorem runTask_settings (q : List (Nat × Word)) (t : Task) (d : Dev) :
    (runTask q t d).attn.settings = d.attn.settings := by
  cases t <;> simp [runTask]

theorem Dev.sync_settings (d : Dev) : d.sync.attn.settings = d.attn.settings := by
  rw [Dev.sync_attn, Dev.syncAttn_attn_frame]; rfl

theorem Dev.settle_settings (q : List (Nat × Word)) (d : Dev) : (d.settle q).attn.settings = d.attn.settings :=
  Dev.settle_invariant (P := fun x => x.attn.settings = d.attn.settings) q (fun x h => by rw [Dev.sync_settings]; exact h)
    (fun t x h => by rw [runTask_settings]; exact h) (fun _ _ h => h) rfl

end Sys2Proof.Machine
end

