-- ==== Sys2Proof/Laws/Blocks.lean ====
section
/-! SUPPORT. What the shared operations, the thread's steps and the events leave alone of the defect table manager, the split
search unit, the D side, the pins and the recorded interlock. -/

set_option linter.unusedSimpArgs false
set_option linter.unusedVariables false
set_option linter.unusedTactic false
set_option linter.unreachableTactic false
set_option linter.unnecessarySeqFocus false

namespace Sys2Proof.Machine

@[simp] theorem Insul.enter_dSide (st : InsState) (n : Nat) (ph : LocPhase) (s : Insul) : (s.enter st n ph).dSide = s.dSide := by
  unfold Insul.enter; split <;> rfl

@[simp] theorem Insul.count_dSide (a : FindAns) (s : Insul) : (s.count a).dSide = s.dSide := by cases a <;> rfl

@[simp] theorem Dev.issueRead_blocks (q : List (Nat × Word)) (off n : Nat) (d : Dev) :
    (d.issueRead q off n).mgr = d.mgr ∧
      (d.issueRead q off n).search = d.search ∧
      (d.issueRead q off n).ins.dSide = d.ins.dSide ∧
      (d.issueRead q off n).pins = d.pins ∧
      (d.issueRead q off n).hv.openRec = d.hv.openRec := by
  unfold Dev.issueRead <;> refine ⟨?_, ?_, ?_, ?_, ?_⟩ <;> (try dsimp only) <;> (repeat' split) <;> (try simp) <;> (repeat' split) <;> first | simp | rfl
@[simp] theorem Dev.setClamped_blocks (c : Bool) (d : Dev) :
    (d.setClamped c).mgr = d.mgr ∧
      (d.setClamped c).search = d.search ∧
      (d.setClamped c).ins.dSide = d.ins.dSide ∧
      (d.setClamped c).pins = d.pins ∧
      (d.setClamped c).hv.openRec = d.hv.openRec := by
  unfold Dev.setClamped <;> refine ⟨?_, ?_, ?_, ?_, ?_⟩ <;> (try dsimp only) <;> (repeat' split) <;> (try simp) <;> (repeat' split) <;> first | simp | rfl
@[simp] theorem Dev.noteUnzeroed_blocks (d : Dev) :
    (d.noteUnzeroed).mgr = d.mgr ∧
      (d.noteUnzeroed).search = d.search ∧
      (d.noteUnzeroed).ins.dSide = d.ins.dSide ∧
      (d.noteUnzeroed).pins = d.pins ∧
      (d.noteUnzeroed).hv.openRec = d.hv.openRec := by
  unfold Dev.noteUnzeroed <;> refine ⟨?_, ?_, ?_, ?_, ?_⟩ <;> (try dsimp only) <;> (repeat' split) <;> (try simp) <;> (repeat' split) <;> first | simp | rfl
@[simp] theorem Dev.measure_blocks (kind : JobKind) (rng : Rng) (n : Nat) (d : Dev) :
    (d.measure kind rng n).mgr = d.mgr ∧
      (d.measure kind rng n).search = d.search ∧
      (d.measure kind rng n).ins.dSide = d.ins.dSide ∧
      (d.measure kind rng n).pins = d.pins ∧
      (d.measure kind rng n).hv.openRec = d.hv.openRec := by
  unfold Dev.measure <;> refine ⟨?_, ?_, ?_, ?_, ?_⟩ <;> (try dsimp only) <;> (repeat' split) <;> (try simp) <;> (repeat' split) <;> first | simp | rfl
@[simp] theorem Dev.zeroStart_blocks (d : Dev) :
    (d.zeroStart).mgr = d.mgr ∧
      (d.zeroStart).search = d.search ∧
      (d.zeroStart).ins.dSide = d.ins.dSide ∧
      (d.zeroStart).pins = d.pins ∧
      (d.zeroStart).hv.openRec = d.hv.openRec := by
  unfold Dev.zeroStart <;> refine ⟨?_, ?_, ?_, ?_, ?_⟩ <;> (try dsimp only) <;> (repeat' split) <;> (try simp) <;> (repeat' split) <;> first | simp | rfl
@[simp] theorem Dev.zeroRun_blocks (d : Dev) :
    (d.zeroRun).mgr = d.mgr ∧
      (d.zeroRun).search = d.search ∧
      (d.zeroRun).ins.dSide = d.ins.dSide ∧
      (d.zeroRun).pins = d.pins ∧
      (d.zeroRun).hv.openRec = d.hv.openRec := by
  unfold Dev.zeroRun <;> refine ⟨?_, ?_, ?_, ?_, ?_⟩ <;> (try dsimp only) <;> (repeat' split) <;> (try simp) <;> (repeat' split) <;> first | simp | rfl
@[simp] theorem Dev.zeroCollect_blocks (i : Nat) (d : Dev) :
    (d.zeroCollect i).mgr = d.mgr ∧
      (d.zeroCollect i).search = d.search ∧
      (d.zeroCollect i).ins.dSide = d.ins.dSide ∧
      (d.zeroCollect i).pins = d.pins ∧
      (d.zeroCollect i).hv.openRec = d.hv.openRec := by
  unfold Dev.zeroCollect <;> refine ⟨?_, ?_, ?_, ?_, ?_⟩ <;> (try dsimp only) <;> (repeat' split) <;> (try simp) <;> (repeat' split) <;> first | simp | rfl
@[simp] theorem Dev.zeroGot_blocks (i : Nat) (d : Dev) :
    (d.zeroGot i).mgr = d.mgr ∧
      (d.zeroGot i).search = d.search ∧
      (d.zeroGot i).ins.dSide = d.ins.dSide ∧
      (d.zeroGot i).pins = d.pins ∧
      (d.zeroGot i).hv.openRec = d.hv.openRec := by
  unfold Dev.zeroGot <;> refine ⟨?_, ?_, ?_, ?_, ?_⟩ <;> (try dsimp only) <;> (repeat' split) <;> (try simp) <;> (repeat' split) <;> first | simp | rfl
@[simp] theorem Dev.zeroOff_blocks (d : Dev) :
    (d.zeroOff).mgr = d.mgr ∧
      (d.zeroOff).search = d.search ∧
      (d.zeroOff).ins.dSide = d.ins.dSide ∧
      (d.zeroOff).pins = d.pins ∧
      (d.zeroOff).hv.openRec = d.hv.openRec := by
  unfold Dev.zeroOff <;> refine ⟨?_, ?_, ?_, ?_, ?_⟩ <;> (try dsimp only) <;> (repeat' split) <;> (try simp) <;> (repeat' split) <;> first | simp | rfl
@[simp] theorem Dev.zeroEnd_blocks (d : Dev) :
    (d.zeroEnd).mgr = d.mgr ∧
      (d.zeroEnd).search = d.search ∧
      (d.zeroEnd).ins.dSide = d.ins.dSide ∧
      (d.zeroEnd).pins = d.pins ∧
      (d.zeroEnd).hv.openRec = d.hv.openRec := by
  unfold Dev.zeroEnd <;> refine ⟨?_, ?_, ?_, ?_, ?_⟩ <;> (try dsimp only) <;> (repeat' split) <;> (try simp) <;> (repeat' split) <;> first | simp | rfl
@[simp] theorem Dev.measA_blocks (d : Dev) :
    (d.measA).mgr = d.mgr ∧
      (d.measA).search = d.search ∧
      (d.measA).ins.dSide = d.ins.dSide ∧
      (d.measA).pins = d.pins ∧
      (d.measA).hv.openRec = d.hv.openRec := by
  unfold Dev.measA <;> refine ⟨?_, ?_, ?_, ?_, ?_⟩ <;> (try dsimp only) <;> (repeat' split) <;> (try simp) <;> (repeat' split) <;> first | simp | rfl
@[simp] theorem Dev.measGotB_blocks (d : Dev) :
    (d.measGotB).mgr = d.mgr ∧
      (d.measGotB).search = d.search ∧
      (d.measGotB).ins.dSide = d.ins.dSide ∧
      (d.measGotB).pins = d.pins ∧
      (d.measGotB).hv.openRec = d.hv.openRec := by
  unfold Dev.measGotB <;> refine ⟨?_, ?_, ?_, ?_, ?_⟩ <;> (try dsimp only) <;> (repeat' split) <;> (try simp) <;> (repeat' split) <;> first | simp | rfl
@[simp] theorem Dev.measB_blocks (d : Dev) :
    (d.measB).mgr = d.mgr ∧
      (d.measB).search = d.search ∧
      (d.measB).ins.dSide = d.ins.dSide ∧
      (d.measB).pins = d.pins ∧
      (d.measB).hv.openRec = d.hv.openRec := by
  unfold Dev.measB <;> refine ⟨?_, ?_, ?_, ?_, ?_⟩ <;> (try dsimp only) <;> (repeat' split) <;> (try simp) <;> (repeat' split) <;> first | simp | rfl
@[simp] theorem Dev.measGot_blocks (d : Dev) :
    (d.measGot).mgr = d.mgr ∧
      (d.measGot).search = d.search ∧
      (d.measGot).ins.dSide = d.ins.dSide ∧
      (d.measGot).pins = d.pins ∧
      (d.measGot).hv.openRec = d.hv.openRec := by
  unfold Dev.measGot <;> refine ⟨?_, ?_, ?_, ?_, ?_⟩ <;> (try dsimp only) <;> (repeat' split) <;> (try simp) <;> (repeat' split) <;> first | simp | rfl
@[simp] theorem Dev.measEnd_blocks (d : Dev) :
    (d.measEnd).mgr = d.mgr ∧
      (d.measEnd).search = d.search ∧
      (d.measEnd).ins.dSide = d.ins.dSide ∧
      (d.measEnd).pins = d.pins ∧
      (d.measEnd).hv.openRec = d.hv.openRec := by
  unfold Dev.measEnd <;> refine ⟨?_, ?_, ?_, ?_, ?_⟩ <;> (try dsimp only) <;> (repeat' split) <;> (try simp) <;> (repeat' split) <;> first | simp | rfl
@[simp] theorem Dev.setCard_blocks (c : Nat) (k : Card) (d : Dev) :
    (d.setCard c k).mgr = d.mgr ∧
      (d.setCard c k).search = d.search ∧
      (d.setCard c k).ins.dSide = d.ins.dSide ∧
      (d.setCard c k).pins = d.pins ∧
      (d.setCard c k).hv.openRec = d.hv.openRec := by
  unfold Dev.setCard <;> refine ⟨?_, ?_, ?_, ?_, ?_⟩ <;> (try dsimp only) <;> (repeat' split) <;> (try simp) <;> (repeat' split) <;> first | simp | rfl
@[simp] theorem Dev.clearCards_blocks (d : Dev) :
    (d.clearCards).mgr = d.mgr ∧
      (d.clearCards).search = d.search ∧
      (d.clearCards).ins.dSide = d.ins.dSide ∧
      (d.clearCards).pins = d.pins ∧
      (d.clearCards).hv.openRec = d.hv.openRec := by
  unfold Dev.clearCards <;> refine ⟨?_, ?_, ?_, ?_, ?_⟩ <;> (try dsimp only) <;> (repeat' split) <;> (try simp) <;> (repeat' split) <;> first | simp | rfl
@[simp] theorem Dev.failOrder_blocks (c : Code) (d : Dev) :
    (d.failOrder c).mgr = d.mgr ∧
      (d.failOrder c).search = d.search ∧
      (d.failOrder c).ins.dSide = d.ins.dSide ∧
      (d.failOrder c).pins = d.pins ∧
      (d.failOrder c).hv.openRec = d.hv.openRec := by
  unfold Dev.failOrder <;> refine ⟨?_, ?_, ?_, ?_, ?_⟩ <;> (try dsimp only) <;> (repeat' split) <;> (try simp) <;> (repeat' split) <;> first | simp | rfl
@[simp] theorem Dev.exchange_blocks (c : Nat) (pattern : List Bus) (d : Dev) :
    (d.exchange c pattern).mgr = d.mgr ∧
      (d.exchange c pattern).search = d.search ∧
      (d.exchange c pattern).ins.dSide = d.ins.dSide ∧
      (d.exchange c pattern).pins = d.pins ∧
      (d.exchange c pattern).hv.openRec = d.hv.openRec := by
  unfold Dev.exchange <;> refine ⟨?_, ?_, ?_, ?_, ?_⟩ <;> (try dsimp only) <;> (repeat' split) <;> (try simp) <;> (repeat' split) <;> first | simp | rfl
@[simp] theorem Dev.startRelease_blocks (ph : MPhase) (d : Dev) :
    (d.startRelease ph).mgr = d.mgr ∧
      (d.startRelease ph).search = d.search ∧
      (d.startRelease ph).ins.dSide = d.ins.dSide ∧
      (d.startRelease ph).pins = d.pins ∧
      (d.startRelease ph).hv.openRec = d.hv.openRec := by
  unfold Dev.startRelease <;> refine ⟨?_, ?_, ?_, ?_, ?_⟩ <;> (try dsimp only) <;> (repeat' split) <;> (try simp) <;> (repeat' split) <;> first | simp | rfl
@[simp] theorem Dev.sendOpening_blocks (cs : List Nat) (d : Dev) :
    (d.sendOpening cs).mgr = d.mgr ∧
      (d.sendOpening cs).search = d.search ∧
      (d.sendOpening cs).ins.dSide = d.ins.dSide ∧
      (d.sendOpening cs).pins = d.pins ∧
      (d.sendOpening cs).hv.openRec = d.hv.openRec := by
  unfold Dev.sendOpening <;> refine ⟨?_, ?_, ?_, ?_, ?_⟩ <;> (try dsimp only) <;> (repeat' split) <;> (try simp) <;> (repeat' split) <;> first | simp | rfl
@[simp] theorem Dev.sendClosing_blocks (cs : List Nat) (d : Dev) :
    (d.sendClosing cs).mgr = d.mgr ∧
      (d.sendClosing cs).search = d.search ∧
      (d.sendClosing cs).ins.dSide = d.ins.dSide ∧
      (d.sendClosing cs).pins = d.pins ∧
      (d.sendClosing cs).hv.openRec = d.hv.openRec := by
  unfold Dev.sendClosing <;> refine ⟨?_, ?_, ?_, ?_, ?_⟩ <;> (try dsimp only) <;> (repeat' split) <;> (try simp) <;> (repeat' split) <;> first | simp | rfl
@[simp] theorem Dev.sendRecovery_blocks (cs : List Nat) (d : Dev) :
    (d.sendRecovery cs).mgr = d.mgr ∧
      (d.sendRecovery cs).search = d.search ∧
      (d.sendRecovery cs).ins.dSide = d.ins.dSide ∧
      (d.sendRecovery cs).pins = d.pins ∧
      (d.sendRecovery cs).hv.openRec = d.hv.openRec := by
  unfold Dev.sendRecovery <;> refine ⟨?_, ?_, ?_, ?_, ?_⟩ <;> (try dsimp only) <;> (repeat' split) <;> (try simp) <;> (repeat' split) <;> first | simp | rfl
@[simp] theorem Dev.sendParking_blocks (cs : List Nat) (d : Dev) :
    (d.sendParking cs).mgr = d.mgr ∧
      (d.sendParking cs).search = d.search ∧
      (d.sendParking cs).ins.dSide = d.ins.dSide ∧
      (d.sendParking cs).pins = d.pins ∧
      (d.sendParking cs).hv.openRec = d.hv.openRec := by
  unfold Dev.sendParking <;> refine ⟨?_, ?_, ?_, ?_, ?_⟩ <;> (try dsimp only) <;> (repeat' split) <;> (try simp) <;> (repeat' split) <;> first | simp | rfl
@[simp] theorem Dev.sendFailing_blocks (cs : List Nat) (d : Dev) :
    (d.sendFailing cs).mgr = d.mgr ∧
      (d.sendFailing cs).search = d.search ∧
      (d.sendFailing cs).ins.dSide = d.ins.dSide ∧
      (d.sendFailing cs).pins = d.pins ∧
      (d.sendFailing cs).hv.openRec = d.hv.openRec := by
  unfold Dev.sendFailing <;> refine ⟨?_, ?_, ?_, ?_, ?_⟩ <;> (try dsimp only) <;> (repeat' split) <;> (try simp) <;> (repeat' split) <;> first | simp | rfl
@[simp] theorem Dev.startPair_blocks (k : Nat) (d : Dev) :
    (d.startPair k).mgr = d.mgr ∧
      (d.startPair k).search = d.search ∧
      (d.startPair k).ins.dSide = d.ins.dSide ∧
      (d.startPair k).pins = d.pins ∧
      (d.startPair k).hv.openRec = d.hv.openRec := by
  unfold Dev.startPair <;> refine ⟨?_, ?_, ?_, ?_, ?_⟩ <;> (try dsimp only) <;> (repeat' split) <;> (try simp) <;> (repeat' split) <;> first | simp | rfl
@[simp] theorem Dev.sendChecking_blocks (cs : List Nat) (d : Dev) :
    (d.sendChecking cs).mgr = d.mgr ∧
      (d.sendChecking cs).search = d.search ∧
      (d.sendChecking cs).ins.dSide = d.ins.dSide ∧
      (d.sendChecking cs).pins = d.pins ∧
      (d.sendChecking cs).hv.openRec = d.hv.openRec := by
  unfold Dev.sendChecking <;> refine ⟨?_, ?_, ?_, ?_, ?_⟩ <;> (try dsimp only) <;> (repeat' split) <;> (try simp) <;> (repeat' split) <;> first | simp | rfl
@[simp] theorem Dev.sendEnumeration_blocks (c : Nat) (d : Dev) :
    (d.sendEnumeration c).mgr = d.mgr ∧
      (d.sendEnumeration c).search = d.search ∧
      (d.sendEnumeration c).ins.dSide = d.ins.dSide ∧
      (d.sendEnumeration c).pins = d.pins ∧
      (d.sendEnumeration c).hv.openRec = d.hv.openRec := by
  unfold Dev.sendEnumeration <;> refine ⟨?_, ?_, ?_, ?_, ?_⟩ <;> (try dsimp only) <;> (repeat' split) <;> (try simp) <;> (repeat' split) <;> first | simp | rfl
@[simp] theorem Dev.beginParking_blocks (d : Dev) :
    (d.beginParking).mgr = d.mgr ∧
      (d.beginParking).search = d.search ∧
      (d.beginParking).ins.dSide = d.ins.dSide ∧
      (d.beginParking).pins = d.pins ∧
      (d.beginParking).hv.openRec = d.hv.openRec := by
  unfold Dev.beginParking <;> refine ⟨?_, ?_, ?_, ?_, ?_⟩ <;> (try dsimp only) <;> (repeat' split) <;> (try simp) <;> (repeat' split) <;> first | simp | rfl
@[simp] theorem Dev.tryPark_blocks (d : Dev) :
    (d.tryPark).mgr = d.mgr ∧
      (d.tryPark).search = d.search ∧
      (d.tryPark).ins.dSide = d.ins.dSide ∧
      (d.tryPark).pins = d.pins ∧
      (d.tryPark).hv.openRec = d.hv.openRec := by
  unfold Dev.tryPark <;> refine ⟨?_, ?_, ?_, ?_, ?_⟩ <;> (try dsimp only) <;> (repeat' split) <;> (try simp) <;> (repeat' split) <;> first | simp | rfl
@[simp] theorem Dev.wakeParked_blocks (d : Dev) :
    (d.wakeParked).mgr = d.mgr ∧
      (d.wakeParked).search = d.search ∧
      (d.wakeParked).ins.dSide = d.ins.dSide ∧
      (d.wakeParked).pins = d.pins ∧
      (d.wakeParked).hv.openRec = d.hv.openRec := by
  unfold Dev.wakeParked <;> refine ⟨?_, ?_, ?_, ?_, ?_⟩ <;> (try dsimp only) <;> (repeat' split) <;> (try simp) <;> (repeat' split) <;> first | simp | rfl
@[simp] theorem Dev.parkEnd_blocks (d : Dev) :
    (d.parkEnd).mgr = d.mgr ∧
      (d.parkEnd).search = d.search ∧
      (d.parkEnd).ins.dSide = d.ins.dSide ∧
      (d.parkEnd).pins = d.pins ∧
      (d.parkEnd).hv.openRec = d.hv.openRec := by
  unfold Dev.parkEnd <;> refine ⟨?_, ?_, ?_, ?_, ?_⟩ <;> (try dsimp only) <;> (repeat' split) <;> (try simp) <;> (repeat' split) <;> first | simp | rfl
@[simp] theorem Dev.stopAfterSetup_blocks (t : Tab Bus) (d : Dev) :
    (d.stopAfterSetup t).mgr = d.mgr ∧
      (d.stopAfterSetup t).search = d.search ∧
      (d.stopAfterSetup t).ins.dSide = d.ins.dSide ∧
      (d.stopAfterSetup t).pins = d.pins ∧
      (d.stopAfterSetup t).hv.openRec = d.hv.openRec := by
  unfold Dev.stopAfterSetup <;> refine ⟨?_, ?_, ?_, ?_, ?_⟩ <;> (try dsimp only) <;> (repeat' split) <;> (try simp) <;> (repeat' split) <;> first | simp | rfl
@[simp] theorem Dev.setupReport_blocks (ok : Bool) (t : Tab Bus) (d : Dev) :
    (d.setupReport ok t).mgr = d.mgr ∧
      (d.setupReport ok t).search = d.search ∧
      (d.setupReport ok t).ins.dSide = d.ins.dSide ∧
      (d.setupReport ok t).pins = d.pins ∧
      (d.setupReport ok t).hv.openRec = d.hv.openRec := by
  unfold Dev.setupReport <;> refine ⟨?_, ?_, ?_, ?_, ?_⟩ <;> (try dsimp only) <;> (repeat' split) <;> (try simp) <;> (repeat' split) <;> first | simp | rfl
@[simp] theorem Dev.beginClosing_blocks (d : Dev) :
    (d.beginClosing).mgr = d.mgr ∧
      (d.beginClosing).search = d.search ∧
      (d.beginClosing).ins.dSide = d.ins.dSide ∧
      (d.beginClosing).pins = d.pins ∧
      (d.beginClosing).hv.openRec = d.hv.openRec := by
  unfold Dev.beginClosing <;> refine ⟨?_, ?_, ?_, ?_, ?_⟩ <;> (try dsimp only) <;> (repeat' split) <;> (try simp) <;> (repeat' split) <;> first | simp | rfl
@[simp] theorem Dev.beginOpening_blocks (d : Dev) :
    (d.beginOpening).mgr = d.mgr ∧
      (d.beginOpening).search = d.search ∧
      (d.beginOpening).ins.dSide = d.ins.dSide ∧
      (d.beginOpening).pins = d.pins ∧
      (d.beginOpening).hv.openRec = d.hv.openRec := by
  unfold Dev.beginOpening <;> refine ⟨?_, ?_, ?_, ?_, ?_⟩ <;> (try dsimp only) <;> (repeat' split) <;> (try simp) <;> (repeat' split) <;> first | simp | rfl
@[simp] theorem Dev.beginRecovery_blocks (d : Dev) :
    (d.beginRecovery).mgr = d.mgr ∧
      (d.beginRecovery).search = d.search ∧
      (d.beginRecovery).ins.dSide = d.ins.dSide ∧
      (d.beginRecovery).pins = d.pins ∧
      (d.beginRecovery).hv.openRec = d.hv.openRec := by
  unfold Dev.beginRecovery <;> refine ⟨?_, ?_, ?_, ?_, ?_⟩ <;> (try dsimp only) <;> (repeat' split) <;> (try simp) <;> (repeat' split) <;> first | simp | rfl
@[simp] theorem Dev.takeSetup_blocks (t : Tab Bus) (d : Dev) :
    (d.takeSetup t).mgr = d.mgr ∧
      (d.takeSetup t).search = d.search ∧
      (d.takeSetup t).ins.dSide = d.ins.dSide ∧
      (d.takeSetup t).pins = d.pins ∧
      (d.takeSetup t).hv.openRec = d.hv.openRec := by
  unfold Dev.takeSetup <;> refine ⟨?_, ?_, ?_, ?_, ?_⟩ <;> (try dsimp only) <;> (repeat' split) <;> (try simp) <;> (repeat' split) <;> first | simp | rfl
@[simp] theorem Dev.requestSetup_blocks (t : Tab Bus) (d : Dev) :
    (d.requestSetup t).mgr = d.mgr ∧
      (d.requestSetup t).search = d.search ∧
      (d.requestSetup t).ins.dSide = d.ins.dSide ∧
      (d.requestSetup t).pins = d.pins ∧
      (d.requestSetup t).hv.openRec = d.hv.openRec := by
  unfold Dev.requestSetup <;> refine ⟨?_, ?_, ?_, ?_, ?_⟩ <;> (try dsimp only) <;> (repeat' split) <;> (try simp) <;> (repeat' split) <;> first | simp | rfl
@[simp] theorem Dev.syncStatus_blocks (d : Dev) :
    d.syncStatus.mgr = d.mgr ∧ d.syncStatus.search = d.search ∧ d.syncStatus.ins = d.ins ∧ d.syncStatus.pins = d.pins := by
  rw [Dev.syncStatus_eq]; exact ⟨rfl, rfl, rfl, rfl⟩

@[simp] theorem Dev.setupEnd_blocks (ok : Bool) (d : Dev) :
    (d.setupEnd ok).mgr = d.mgr ∧
      (d.setupEnd ok).search = d.search ∧
      (d.setupEnd ok).ins.dSide = d.ins.dSide ∧
      (d.setupEnd ok).pins = d.pins ∧
      (d.setupEnd ok).hv.openRec = d.hv.openRec := by
  unfold Dev.setupEnd <;> refine ⟨?_, ?_, ?_, ?_, ?_⟩ <;> (try dsimp only) <;> (repeat' split) <;> (try simp) <;> (repeat' split) <;> first | simp | rfl
@[simp] theorem Dev.dropSetup_blocks (d : Dev) :
    (d.dropSetup).mgr = d.mgr ∧
      (d.dropSetup).search = d.search ∧
      (d.dropSetup).ins.dSide = d.ins.dSide ∧
      (d.dropSetup).pins = d.pins ∧
      (d.dropSetup).hv.openRec = d.hv.openRec := by
  unfold Dev.dropSetup <;> refine ⟨?_, ?_, ?_, ?_, ?_⟩ <;> (try dsimp only) <;> (repeat' split) <;> (try simp) <;> (repeat' split) <;> first | simp | rfl
@[simp] theorem Dev.tryDriveOn_blocks (d : Dev) :
    (d.tryDriveOn).mgr = d.mgr ∧
      (d.tryDriveOn).search = d.search ∧
      (d.tryDriveOn).ins.dSide = d.ins.dSide ∧
      (d.tryDriveOn).pins = d.pins ∧
      (d.tryDriveOn).hv.openRec = d.hv.openRec := by
  unfold Dev.tryDriveOn <;> refine ⟨?_, ?_, ?_, ?_, ?_⟩ <;> (try dsimp only) <;> (repeat' split) <;> (try simp) <;> (repeat' split) <;> first | simp | rfl
@[simp] theorem Dev.unparkStop_blocks (d : Dev) :
    (d.unparkStop).mgr = d.mgr ∧
      (d.unparkStop).search = d.search ∧
      (d.unparkStop).ins.dSide = d.ins.dSide ∧
      (d.unparkStop).pins = d.pins ∧
      (d.unparkStop).hv.openRec = d.hv.openRec := by
  unfold Dev.unparkStop <;> refine ⟨?_, ?_, ?_, ?_, ?_⟩ <;> (try dsimp only) <;> (repeat' split) <;> (try simp) <;> (repeat' split) <;> first | simp | rfl
@[simp] theorem Dev.beginRecord_blocks (d : Dev) :
    (d.beginRecord).mgr = d.mgr ∧
      (d.beginRecord).search = d.search ∧
      (d.beginRecord).ins.dSide = d.ins.dSide ∧
      (d.beginRecord).pins = d.pins ∧
      (d.beginRecord).hv.openRec = d.hv.openRec := by
  unfold Dev.beginRecord <;> refine ⟨?_, ?_, ?_, ?_, ?_⟩ <;> (try dsimp only) <;> (repeat' split) <;> (try simp) <;> (repeat' split) <;> first | simp | rfl
@[simp] theorem Dev.pairEnd_blocks (k : Nat) (conducts : Bool) (d : Dev) :
    (d.pairEnd k conducts).mgr = d.mgr ∧
      (d.pairEnd k conducts).search = d.search ∧
      (d.pairEnd k conducts).ins.dSide = d.ins.dSide ∧
      (d.pairEnd k conducts).pins = d.pins ∧
      (d.pairEnd k conducts).hv.openRec = d.hv.openRec := by
  unfold Dev.pairEnd <;> refine ⟨?_, ?_, ?_, ?_, ?_⟩ <;> (try dsimp only) <;> (repeat' split) <;> (try simp) <;> (repeat' split) <;> first | simp | rfl
@[simp] theorem Dev.recordRead_blocks (d : Dev) :
    (d.recordRead).mgr = d.mgr ∧
      (d.recordRead).search = d.search ∧
      (d.recordRead).ins.dSide = d.ins.dSide ∧
      (d.recordRead).pins = d.pins ∧
      (d.recordRead).hv.openRec = d.hv.openRec := by
  unfold Dev.recordRead <;> refine ⟨?_, ?_, ?_, ?_, ?_⟩ <;> (try dsimp only) <;> (repeat' split) <;> (try simp) <;> (repeat' split) <;> first | simp | rfl
@[simp] theorem Dev.recordCheck_blocks (d : Dev) :
    (d.recordCheck).mgr = d.mgr ∧
      (d.recordCheck).search = d.search ∧
      (d.recordCheck).ins.dSide = d.ins.dSide ∧
      (d.recordCheck).pins = d.pins ∧
      (d.recordCheck).hv.openRec = d.hv.openRec := by
  unfold Dev.recordCheck <;> refine ⟨?_, ?_, ?_, ?_, ?_⟩ <;> (try dsimp only) <;> (repeat' split) <;> (try simp) <;> (repeat' split) <;> first | simp | rfl
@[simp] theorem Dev.recordStop_blocks (d : Dev) :
    (d.recordStop).mgr = d.mgr ∧
      (d.recordStop).search = d.search ∧
      (d.recordStop).ins.dSide = d.ins.dSide ∧
      (d.recordStop).pins = d.pins ∧
      (d.recordStop).hv.openRec = d.hv.openRec := by
  unfold Dev.recordStop <;> refine ⟨?_, ?_, ?_, ?_, ?_⟩ <;> (try dsimp only) <;> (repeat' split) <;> (try simp) <;> (repeat' split) <;> first | simp | rfl
@[simp] theorem Dev.recordEnd_blocks (d : Dev) :
    (d.recordEnd).mgr = d.mgr ∧
      (d.recordEnd).search = d.search ∧
      (d.recordEnd).ins.dSide = d.ins.dSide ∧
      (d.recordEnd).pins = d.pins ∧
      (d.recordEnd).hv.openRec = d.hv.openRec := by
  unfold Dev.recordEnd <;> refine ⟨?_, ?_, ?_, ?_, ?_⟩ <;> (try dsimp only) <;> (repeat' split) <;> (try simp) <;> (repeat' split) <;> first | simp | rfl
@[simp] theorem Dev.faultCard_blocks (c : Nat) (d : Dev) :
    (d.faultCard c).mgr = d.mgr ∧
      (d.faultCard c).search = d.search ∧
      (d.faultCard c).ins.dSide = d.ins.dSide ∧
      (d.faultCard c).pins = d.pins ∧
      (d.faultCard c).hv.openRec = d.hv.openRec := by
  unfold Dev.faultCard <;> refine ⟨?_, ?_, ?_, ?_, ?_⟩ <;> (try dsimp only) <;> (repeat' split) <;> (try simp) <;> (repeat' split) <;> first | simp | rfl
@[simp] theorem Dev.echoCorrect_blocks (d : Dev) :
    (d.echoCorrect).mgr = d.mgr ∧
      (d.echoCorrect).search = d.search ∧
      (d.echoCorrect).ins.dSide = d.ins.dSide ∧
      (d.echoCorrect).pins = d.pins ∧
      (d.echoCorrect).hv.openRec = d.hv.openRec := by
  unfold Dev.echoCorrect Dev.unlessStopped <;> refine ⟨?_, ?_, ?_, ?_, ?_⟩ <;> (try dsimp only) <;> (repeat' split) <;> (try simp) <;> (repeat' split) <;> first | simp | rfl
@[simp] theorem Dev.exchangeFailed_blocks (d : Dev) :
    (d.exchangeFailed).mgr = d.mgr ∧
      (d.exchangeFailed).search = d.search ∧
      (d.exchangeFailed).ins.dSide = d.ins.dSide ∧
      (d.exchangeFailed).pins = d.pins ∧
      (d.exchangeFailed).hv.openRec = d.hv.openRec := by
  unfold Dev.exchangeFailed Dev.unlessStopped <;> refine ⟨?_, ?_, ?_, ?_, ?_⟩ <;> (try dsimp only) <;> (repeat' split) <;> (try simp) <;> (repeat' split) <;> first | simp | rfl
@[simp] theorem Dev.attemptFailed_blocks (missing : Bool) (d : Dev) :
    (d.attemptFailed missing).mgr = d.mgr ∧
      (d.attemptFailed missing).search = d.search ∧
      (d.attemptFailed missing).ins.dSide = d.ins.dSide ∧
      (d.attemptFailed missing).pins = d.pins ∧
      (d.attemptFailed missing).hv.openRec = d.hv.openRec := by
  unfold Dev.attemptFailed <;> refine ⟨?_, ?_, ?_, ?_, ?_⟩ <;> (try dsimp only) <;> (repeat' split) <;> (try simp) <;> (repeat' split) <;> first | simp | rfl
@[simp] theorem Dev.echo_blocks (pattern : List Bus) (d : Dev) :
    (d.echo pattern).mgr = d.mgr ∧
      (d.echo pattern).search = d.search ∧
      (d.echo pattern).ins.dSide = d.ins.dSide ∧
      (d.echo pattern).pins = d.pins ∧
      (d.echo pattern).hv.openRec = d.hv.openRec := by
  unfold Dev.echo <;> refine ⟨?_, ?_, ?_, ?_, ?_⟩ <;> (try dsimp only) <;> (repeat' split) <;> (try simp) <;> (repeat' split) <;> first | simp | rfl
@[simp] theorem Dev.echoMissing_blocks (d : Dev) :
    (d.echoMissing).mgr = d.mgr ∧
      (d.echoMissing).search = d.search ∧
      (d.echoMissing).ins.dSide = d.ins.dSide ∧
      (d.echoMissing).pins = d.pins ∧
      (d.echoMissing).hv.openRec = d.hv.openRec := by
  unfold Dev.echoMissing <;> refine ⟨?_, ?_, ?_, ?_, ?_⟩ <;> (try dsimp only) <;> (repeat' split) <;> (try simp) <;> (repeat' split) <;> first | simp | rfl
@[simp] theorem Dev.frameEnd_blocks (d : Dev) :
    (d.frameEnd).mgr = d.mgr ∧
      (d.frameEnd).search = d.search ∧
      (d.frameEnd).ins.dSide = d.ins.dSide ∧
      (d.frameEnd).pins = d.pins ∧
      (d.frameEnd).hv.openRec = d.hv.openRec := by
  unfold Dev.frameEnd Dev.unlessStopped <;> refine ⟨?_, ?_, ?_, ?_, ?_⟩ <;> (try dsimp only) <;> (repeat' split) <;> (try simp) <;> (repeat' split) <;> first | simp | rfl
@[simp] theorem Dev.releaseExpired_blocks (d : Dev) :
    (d.releaseExpired).mgr = d.mgr ∧
      (d.releaseExpired).search = d.search ∧
      (d.releaseExpired).ins.dSide = d.ins.dSide ∧
      (d.releaseExpired).pins = d.pins ∧
      (d.releaseExpired).hv.openRec = d.hv.openRec := by
  unfold Dev.releaseExpired <;> refine ⟨?_, ?_, ?_, ?_, ?_⟩ <;> (try dsimp only) <;> (repeat' split) <;> (try simp) <;> (repeat' split) <;> first | simp | rfl
@[simp] theorem Dev.settleExpired_blocks (d : Dev) :
    (d.settleExpired).mgr = d.mgr ∧
      (d.settleExpired).search = d.search ∧
      (d.settleExpired).ins.dSide = d.ins.dSide ∧
      (d.settleExpired).pins = d.pins ∧
      (d.settleExpired).hv.openRec = d.hv.openRec := by
  unfold Dev.settleExpired <;> refine ⟨?_, ?_, ?_, ?_, ?_⟩ <;> (try dsimp only) <;> (repeat' split) <;> (try simp) <;> (repeat' split) <;> first | simp | rfl
@[simp] theorem Dev.offExpired_blocks (d : Dev) :
    (d.offExpired).mgr = d.mgr ∧
      (d.offExpired).search = d.search ∧
      (d.offExpired).ins.dSide = d.ins.dSide ∧
      (d.offExpired).pins = d.pins ∧
      (d.offExpired).hv.openRec = d.hv.openRec := by
  unfold Dev.offExpired <;> refine ⟨?_, ?_, ?_, ?_, ?_⟩ <;> (try dsimp only) <;> (repeat' split) <;> (try simp) <;> (repeat' split) <;> first | simp | rfl
@[simp] theorem Dev.unparkSettled_blocks (d : Dev) :
    (d.unparkSettled).mgr = d.mgr ∧
      (d.unparkSettled).search = d.search ∧
      (d.unparkSettled).ins.dSide = d.ins.dSide ∧
      (d.unparkSettled).pins = d.pins ∧
      (d.unparkSettled).hv.openRec = d.hv.openRec := by
  unfold Dev.unparkSettled <;> refine ⟨?_, ?_, ?_, ?_, ?_⟩ <;> (try dsimp only) <;> (repeat' split) <;> (try simp) <;> (repeat' split) <;> first | simp | rfl
@[simp] theorem Dev.matrixDischarged_blocks (d : Dev) :
    (d.matrixDischarged).mgr = d.mgr ∧
      (d.matrixDischarged).search = d.search ∧
      (d.matrixDischarged).ins.dSide = d.ins.dSide ∧
      (d.matrixDischarged).pins = d.pins ∧
      (d.matrixDischarged).hv.openRec = d.hv.openRec := by
  unfold Dev.matrixDischarged <;> refine ⟨?_, ?_, ?_, ?_, ?_⟩ <;> (try dsimp only) <;> (repeat' split) <;> (try simp) <;> (repeat' split) <;> first | simp | rfl
@[simp] theorem Dev.parkStart_blocks (d : Dev) :
    (d.parkStart).mgr = d.mgr ∧
      (d.parkStart).search = d.search ∧
      (d.parkStart).ins.dSide = d.ins.dSide ∧
      (d.parkStart).pins = d.pins ∧
      (d.parkStart).hv.openRec = d.hv.openRec := by
  unfold Dev.parkStart <;> refine ⟨?_, ?_, ?_, ?_, ?_⟩ <;> (try dsimp only) <;> (repeat' split) <;> (try simp) <;> (repeat' split) <;> first | simp | rfl
@[simp] theorem Dev.parkWaited_blocks (d : Dev) :
    (d.parkWaited).mgr = d.mgr ∧
      (d.parkWaited).search = d.search ∧
      (d.parkWaited).ins.dSide = d.ins.dSide ∧
      (d.parkWaited).pins = d.pins ∧
      (d.parkWaited).hv.openRec = d.hv.openRec := by
  unfold Dev.parkWaited <;> refine ⟨?_, ?_, ?_, ?_, ?_⟩ <;> (try dsimp only) <;> (repeat' split) <;> (try simp) <;> (repeat' split) <;> first | simp | rfl
@[simp] theorem Dev.unparkStart_blocks (d : Dev) :
    (d.unparkStart).mgr = d.mgr ∧
      (d.unparkStart).search = d.search ∧
      (d.unparkStart).ins.dSide = d.ins.dSide ∧
      (d.unparkStart).pins = d.pins ∧
      (d.unparkStart).hv.openRec = d.hv.openRec := by
  unfold Dev.unparkStart <;> refine ⟨?_, ?_, ?_, ?_, ?_⟩ <;> (try dsimp only) <;> (repeat' split) <;> (try simp) <;> (repeat' split) <;> first | simp | rfl
@[simp] theorem Dev.matrixSoftReset_blocks (d : Dev) :
    (d.matrixSoftReset).mgr = d.mgr ∧
      (d.matrixSoftReset).search = d.search ∧
      (d.matrixSoftReset).ins.dSide = d.ins.dSide ∧
      (d.matrixSoftReset).pins = d.pins ∧
      (d.matrixSoftReset).hv.openRec = d.hv.openRec := by
  unfold Dev.matrixSoftReset <;> refine ⟨?_, ?_, ?_, ?_, ?_⟩ <;> (try dsimp only) <;> (repeat' split) <;> (try simp) <;> (repeat' split) <;> first | simp | rfl
@[simp] theorem Dev.enterDischarge_blocks (d : Dev) :
    (d.enterDischarge).mgr = d.mgr ∧
      (d.enterDischarge).search = d.search ∧
      (d.enterDischarge).ins.dSide = d.ins.dSide ∧
      (d.enterDischarge).pins = d.pins ∧
      (d.enterDischarge).hv.openRec = d.hv.openRec := by
  unfold Dev.enterDischarge <;> refine ⟨?_, ?_, ?_, ?_, ?_⟩ <;> (try dsimp only) <;> (repeat' split) <;> (try simp) <;> (repeat' split) <;> first | simp | rfl
@[simp] theorem Dev.dropSource_blocks (d : Dev) :
    (d.dropSource).mgr = d.mgr ∧
      (d.dropSource).search = d.search ∧
      (d.dropSource).ins.dSide = d.ins.dSide ∧
      (d.dropSource).pins = d.pins ∧
      (d.dropSource).hv.openRec = d.hv.openRec := by
  unfold Dev.dropSource <;> refine ⟨?_, ?_, ?_, ?_, ?_⟩ <;> (try dsimp only) <;> (repeat' split) <;> (try simp) <;> (repeat' split) <;> first | simp | rfl
@[simp] theorem Dev.askDischarge_blocks (d : Dev) :
    (d.askDischarge).mgr = d.mgr ∧
      (d.askDischarge).search = d.search ∧
      (d.askDischarge).ins.dSide = d.ins.dSide ∧
      (d.askDischarge).pins = d.pins ∧
      (d.askDischarge).hv.openRec = d.hv.openRec := by
  unfold Dev.askDischarge <;> refine ⟨?_, ?_, ?_, ?_, ?_⟩ <;> (try dsimp only) <;> (repeat' split) <;> (try simp) <;> (repeat' split) <;> first | simp | rfl
@[simp] theorem Dev.recharge_blocks (d : Dev) :
    (d.recharge).mgr = d.mgr ∧
      (d.recharge).search = d.search ∧
      (d.recharge).ins.dSide = d.ins.dSide ∧
      (d.recharge).pins = d.pins ∧
      (d.recharge).hv.openRec = d.hv.openRec := by
  unfold Dev.recharge <;> refine ⟨?_, ?_, ?_, ?_, ?_⟩ <;> (try dsimp only) <;> (repeat' split) <;> (try simp) <;> (repeat' split) <;> first | simp | rfl
@[simp] theorem Dev.hvSoftReset_blocks (d : Dev) :
    (d.hvSoftReset).mgr = d.mgr ∧
      (d.hvSoftReset).search = d.search ∧
      (d.hvSoftReset).ins.dSide = d.ins.dSide ∧
      (d.hvSoftReset).pins = d.pins ∧
      (d.hvSoftReset).hv.openRec = d.hv.openRec := by
  unfold Dev.hvSoftReset <;> refine ⟨?_, ?_, ?_, ?_, ?_⟩ <;> (try dsimp only) <;> (repeat' split) <;> (try simp) <;> (repeat' split) <;> first | simp | rfl
@[simp] theorem Dev.refuseNetlist_blocks (c : Code) (net : Nat) (point : Option Nat) (d : Dev) :
    (d.refuseNetlist c net point).mgr = d.mgr ∧
      (d.refuseNetlist c net point).search = d.search ∧
      (d.refuseNetlist c net point).ins.dSide = d.ins.dSide ∧
      (d.refuseNetlist c net point).pins = d.pins ∧
      (d.refuseNetlist c net point).hv.openRec = d.hv.openRec := by
  unfold Dev.refuseNetlist <;> refine ⟨?_, ?_, ?_, ?_, ?_⟩ <;> (try dsimp only) <;> (repeat' split) <;> (try simp) <;> (repeat' split) <;> first | simp | rfl
@[simp] theorem Dev.valBegin_blocks (d : Dev) :
    (d.valBegin).mgr = d.mgr ∧
      (d.valBegin).search = d.search ∧
      (d.valBegin).ins.dSide = d.ins.dSide ∧
      (d.valBegin).pins = d.pins ∧
      (d.valBegin).hv.openRec = d.hv.openRec := by
  unfold Dev.valBegin <;> refine ⟨?_, ?_, ?_, ?_, ?_⟩ <;> (try dsimp only) <;> (repeat' split) <;> (try simp) <;> (repeat' split) <;> first | simp | rfl
@[simp] theorem Dev.valHead_blocks (d : Dev) :
    (d.valHead).mgr = d.mgr ∧
      (d.valHead).search = d.search ∧
      (d.valHead).ins.dSide = d.ins.dSide ∧
      (d.valHead).pins = d.pins ∧
      (d.valHead).hv.openRec = d.hv.openRec := by
  unfold Dev.valHead <;> refine ⟨?_, ?_, ?_, ?_, ?_⟩ <;> (try dsimp only) <;> (repeat' split) <;> (try simp) <;> (repeat' split) <;> first | simp | rfl
@[simp] theorem Dev.valNet_blocks (n off : Nat) (d : Dev) :
    (d.valNet n off).mgr = d.mgr ∧
      (d.valNet n off).search = d.search ∧
      (d.valNet n off).ins.dSide = d.ins.dSide ∧
      (d.valNet n off).pins = d.pins ∧
      (d.valNet n off).hv.openRec = d.hv.openRec := by
  unfold Dev.valNet <;> refine ⟨?_, ?_, ?_, ?_, ?_⟩ <;> (try dsimp only) <;> (repeat' split) <;> (try simp) <;> (repeat' split) <;> first | simp | rfl
@[simp] theorem Dev.valRecord_blocks (n off : Nat) (d : Dev) :
    (d.valRecord n off).mgr = d.mgr ∧
      (d.valRecord n off).search = d.search ∧
      (d.valRecord n off).ins.dSide = d.ins.dSide ∧
      (d.valRecord n off).pins = d.pins ∧
      (d.valRecord n off).hv.openRec = d.hv.openRec := by
  unfold Dev.valRecord <;> refine ⟨?_, ?_, ?_, ?_, ?_⟩ <;> (try dsimp only) <;> (repeat' split) <;> (try simp) <;> (repeat' split) <;> first | simp | rfl
@[simp] theorem Dev.valParts_blocks (n off : Nat) (h : Word) (d : Dev) :
    (d.valParts n off h).mgr = d.mgr ∧
      (d.valParts n off h).search = d.search ∧
      (d.valParts n off h).ins.dSide = d.ins.dSide ∧
      (d.valParts n off h).pins = d.pins ∧
      (d.valParts n off h).hv.openRec = d.hv.openRec := by
  unfold Dev.valParts <;> refine ⟨?_, ?_, ?_, ?_, ?_⟩ <;> (try dsimp only) <;> (repeat' split) <;> (try simp) <;> (repeat' split) <;> first | simp | rfl
@[simp] theorem Dev.valMembers_blocks (n at' left next : Nat) (d : Dev) :
    (d.valMembers n at' left next).mgr = d.mgr ∧
      (d.valMembers n at' left next).search = d.search ∧
      (d.valMembers n at' left next).ins.dSide = d.ins.dSide ∧
      (d.valMembers n at' left next).pins = d.pins ∧
      (d.valMembers n at' left next).hv.openRec = d.hv.openRec := by
  unfold Dev.valMembers <;> refine ⟨?_, ?_, ?_, ?_, ?_⟩ <;> (try dsimp only) <;> (repeat' split) <;> (try simp) <;> (repeat' split) <;> first | simp | rfl
@[simp] theorem Dev.valMemberGot_blocks (n at' left next : Nat) (d : Dev) :
    (d.valMemberGot n at' left next).mgr = d.mgr ∧
      (d.valMemberGot n at' left next).search = d.search ∧
      (d.valMemberGot n at' left next).ins.dSide = d.ins.dSide ∧
      (d.valMemberGot n at' left next).pins = d.pins ∧
      (d.valMemberGot n at' left next).hv.openRec = d.hv.openRec := by
  unfold Dev.valMemberGot <;> refine ⟨?_, ?_, ?_, ?_, ?_⟩ <;> (try dsimp only) <;> (repeat' split) <;> (try simp) <;> (repeat' split) <;> first | simp | rfl
@[simp] theorem Dev.compBlock_blocks (i : Nat) (d : Dev) :
    (d.compBlock i).mgr = d.mgr ∧
      (d.compBlock i).search = d.search ∧
      (d.compBlock i).ins.dSide = d.ins.dSide ∧
      (d.compBlock i).pins = d.pins ∧
      (d.compBlock i).hv.openRec = d.hv.openRec := by
  unfold Dev.compBlock <;> refine ⟨?_, ?_, ?_, ?_, ?_⟩ <;> (try dsimp only) <;> (repeat' split) <;> (try simp) <;> (repeat' split) <;> first | simp | rfl
@[simp] theorem Dev.compGot_blocks (i : Nat) (d : Dev) :
    (d.compGot i).mgr = d.mgr ∧
      (d.compGot i).search = d.search ∧
      (d.compGot i).ins.dSide = d.ins.dSide ∧
      (d.compGot i).pins = d.pins ∧
      (d.compGot i).hv.openRec = d.hv.openRec := by
  unfold Dev.compGot <;> refine ⟨?_, ?_, ?_, ?_, ?_⟩ <;> (try dsimp only) <;> (repeat' split) <;> (try simp) <;> (repeat' split) <;> first | simp | rfl
@[simp] theorem Dev.finding_blocks (f : Finding) (d : Dev) :
    (d.finding f).search = d.search ∧
      (d.finding f).ins.dSide = d.ins.dSide ∧
      (d.finding f).pins = d.pins ∧
      (d.finding f).hv.openRec = d.hv.openRec := by
  unfold Dev.finding <;> refine ⟨?_, ?_, ?_, ?_⟩ <;> (try dsimp only) <;> (repeat' split) <;> (try simp) <;> (repeat' split) <;> first | simp | rfl
@[simp] theorem Dev.mergeGot_blocks (f : Finding) (i : Nat) (d : Dev) :
    (d.mergeGot f i).mgr = d.mgr ∧
      (d.mergeGot f i).search = d.search ∧
      (d.mergeGot f i).ins.dSide = d.ins.dSide ∧
      (d.mergeGot f i).pins = d.pins ∧
      (d.mergeGot f i).hv.openRec = d.hv.openRec := by
  unfold Dev.mergeGot <;> refine ⟨?_, ?_, ?_, ?_, ?_⟩ <;> (try dsimp only) <;> (repeat' split) <;> (try simp) <;> (repeat' split) <;> first | simp | rfl
@[simp] theorem Dev.appended_blocks (f : Finding) (d : Dev) :
    (d.appended f).mgr = d.mgr ∧
      (d.appended f).search = d.search ∧
      (d.appended f).ins.dSide = d.ins.dSide ∧
      (d.appended f).pins = d.pins ∧
      (d.appended f).hv.openRec = d.hv.openRec := by
  unfold Dev.appended <;> refine ⟨?_, ?_, ?_, ?_, ?_⟩ <;> (try dsimp only) <;> (repeat' split) <;> (try simp) <;> (repeat' split) <;> first | simp | rfl
@[simp] theorem Dev.raiseDefect_blocks (f : Finding) (d : Dev) :
    (d.raiseDefect f).search = d.search ∧
      (d.raiseDefect f).ins.dSide = d.ins.dSide ∧
      (d.raiseDefect f).pins = d.pins ∧
      (d.raiseDefect f).hv.openRec = d.hv.openRec := by
  unfold Dev.raiseDefect <;> refine ⟨?_, ?_, ?_, ?_⟩ <;> (try dsimp only) <;> (repeat' split) <;> (try simp) <;> (repeat' split) <;> first | simp | rfl
@[simp] theorem Dev.absorbOpen_blocks (f : Finding) (d : Dev) :
    (d.absorbOpen f).mgr = d.mgr ∧
      (d.absorbOpen f).search = d.search ∧
      (d.absorbOpen f).ins.dSide = d.ins.dSide ∧
      (d.absorbOpen f).pins = d.pins ∧
      (d.absorbOpen f).hv.openRec = d.hv.openRec := by
  unfold Dev.absorbOpen <;> refine ⟨?_, ?_, ?_, ?_, ?_⟩ <;> (try dsimp only) <;> (repeat' split) <;> (try simp) <;> (repeat' split) <;> first | simp | rfl
@[simp] theorem Dev.absorbShort_blocks (f : Finding) (d : Dev) :
    (d.absorbShort f).mgr = d.mgr ∧
      (d.absorbShort f).search = d.search ∧
      (d.absorbShort f).ins.dSide = d.ins.dSide ∧
      (d.absorbShort f).pins = d.pins ∧
      (d.absorbShort f).hv.openRec = d.hv.openRec := by
  unfold Dev.absorbShort <;> refine ⟨?_, ?_, ?_, ?_, ?_⟩ <;> (try dsimp only) <;> (repeat' split) <;> (try simp) <;> (repeat' split) <;> first | simp | rfl
@[simp] theorem Dev.absorbGot_blocks (f : Finding) (i : Nat) (d : Dev) :
    (d.absorbGot f i).mgr = d.mgr ∧
      (d.absorbGot f i).search = d.search ∧
      (d.absorbGot f i).ins.dSide = d.ins.dSide ∧
      (d.absorbGot f i).pins = d.pins ∧
      (d.absorbGot f i).hv.openRec = d.hv.openRec := by
  unfold Dev.absorbGot <;> refine ⟨?_, ?_, ?_, ?_, ?_⟩ <;> (try dsimp only) <;> (repeat' split) <;> (try simp) <;> (repeat' split) <;> first | simp | rfl
@[simp] theorem Dev.findingEnd_blocks (f : Finding) (a : FindAns) (d : Dev) :
    (d.findingEnd f a).search = d.search ∧
      (d.findingEnd f a).ins.dSide = d.ins.dSide ∧
      (d.findingEnd f a).pins = d.pins ∧
      (d.findingEnd f a).hv.openRec = d.hv.openRec := by
  unfold Dev.findingEnd <;> refine ⟨?_, ?_, ?_, ?_⟩ <;> (try dsimp only) <;> (repeat' split) <;> (try simp) <;> (repeat' split) <;> first | simp | rfl
@[simp] theorem Dev.clear_blocks (d : Dev) :
    (d.clear).search = d.search ∧
      (d.clear).ins.dSide = d.ins.dSide ∧
      (d.clear).pins = d.pins ∧
      (d.clear).hv.openRec = d.hv.openRec := by
  unfold Dev.clear <;> refine ⟨?_, ?_, ?_, ?_⟩ <;> (try dsimp only) <;> (repeat' split) <;> (try simp) <;> (repeat' split) <;> first | simp | rfl
@[simp] theorem Dev.writeStatus_blocks (i : Nat) (d : Dev) :
    (d.writeStatus i).mgr = d.mgr ∧
      (d.writeStatus i).search = d.search ∧
      (d.writeStatus i).ins.dSide = d.ins.dSide ∧
      (d.writeStatus i).pins = d.pins ∧
      (d.writeStatus i).hv.openRec = d.hv.openRec := by
  unfold Dev.writeStatus <;> refine ⟨?_, ?_, ?_, ?_, ?_⟩ <;> (try dsimp only) <;> (repeat' split) <;> (try simp) <;> (repeat' split) <;> first | simp | rfl
@[simp] theorem Dev.cleared_blocks (d : Dev) :
    (d.cleared).search = d.search ∧
      (d.cleared).ins.dSide = d.ins.dSide ∧
      (d.cleared).pins = d.pins ∧
      (d.cleared).hv.openRec = d.hv.openRec := by
  unfold Dev.cleared <;> refine ⟨?_, ?_, ?_, ?_⟩ <;> (try dsimp only) <;> (repeat' split) <;> (try simp) <;> (repeat' split) <;> first | simp | rfl
@[simp] theorem Dev.initTable_blocks (o : TableStart) (d : Dev) :
    (d.initTable o).search = d.search ∧
      (d.initTable o).ins.dSide = d.ins.dSide ∧
      (d.initTable o).pins = d.pins ∧
      (d.initTable o).hv.openRec = d.hv.openRec := by
  unfold Dev.initTable <;> refine ⟨?_, ?_, ?_, ?_⟩ <;> (try dsimp only) <;> (repeat' split) <;> (try simp) <;> (repeat' split) <;> first | simp | rfl
@[simp] theorem Dev.bindTable_blocks (d : Dev) :
    (d.bindTable).search = d.search ∧
      (d.bindTable).ins.dSide = d.ins.dSide ∧
      (d.bindTable).pins = d.pins ∧
      (d.bindTable).hv.openRec = d.hv.openRec := by
  unfold Dev.bindTable <;> refine ⟨?_, ?_, ?_, ?_⟩ <;> (try dsimp only) <;> (repeat' split) <;> (try simp) <;> (repeat' split) <;> first | simp | rfl
@[simp] theorem Dev.rebuildHead_blocks (d : Dev) :
    (d.rebuildHead).search = d.search ∧
      (d.rebuildHead).ins.dSide = d.ins.dSide ∧
      (d.rebuildHead).pins = d.pins ∧
      (d.rebuildHead).hv.openRec = d.hv.openRec := by
  unfold Dev.rebuildHead <;> refine ⟨?_, ?_, ?_, ?_⟩ <;> (try dsimp only) <;> (repeat' split) <;> (try simp) <;> (repeat' split) <;> first | simp | rfl
@[simp] theorem Dev.rebuildEntry_blocks (i : Nat) (d : Dev) :
    (d.rebuildEntry i).search = d.search ∧
      (d.rebuildEntry i).ins.dSide = d.ins.dSide ∧
      (d.rebuildEntry i).pins = d.pins ∧
      (d.rebuildEntry i).hv.openRec = d.hv.openRec := by
  unfold Dev.rebuildEntry <;> refine ⟨?_, ?_, ?_, ?_⟩ <;> (try dsimp only) <;> (repeat' split) <;> (try simp) <;> (repeat' split) <;> first | simp | rfl
@[simp] theorem Dev.rebuildCheck_blocks (i : Nat) (d : Dev) :
    (d.rebuildCheck i).search = d.search ∧
      (d.rebuildCheck i).ins.dSide = d.ins.dSide ∧
      (d.rebuildCheck i).pins = d.pins ∧
      (d.rebuildCheck i).hv.openRec = d.hv.openRec := by
  unfold Dev.rebuildCheck <;> refine ⟨?_, ?_, ?_, ?_⟩ <;> (try dsimp only) <;> (repeat' split) <;> (try simp) <;> (repeat' split) <;> first | simp | rfl
@[simp] theorem Dev.bindEnd_blocks (o : TableStart) (d : Dev) :
    (d.bindEnd o).search = d.search ∧
      (d.bindEnd o).ins.dSide = d.ins.dSide ∧
      (d.bindEnd o).pins = d.pins ∧
      (d.bindEnd o).hv.openRec = d.hv.openRec := by
  unfold Dev.bindEnd <;> refine ⟨?_, ?_, ?_, ?_⟩ <;> (try dsimp only) <;> (repeat' split) <;> (try simp) <;> (repeat' split) <;> first | simp | rfl
@[simp] theorem Dev.twoPoint_blocks (rng : Rng) (auto : Bool) (n ca cb : Nat) (d : Dev) :
    (d.twoPoint rng auto n ca cb).mgr = d.mgr ∧
      (d.twoPoint rng auto n ca cb).search = d.search ∧
      (d.twoPoint rng auto n ca cb).ins.dSide = d.ins.dSide ∧
      (d.twoPoint rng auto n ca cb).pins = d.pins ∧
      (d.twoPoint rng auto n ca cb).hv.openRec = d.hv.openRec := by
  unfold Dev.twoPoint <;> refine ⟨?_, ?_, ?_, ?_, ?_⟩ <;> (try dsimp only) <;> (repeat' split) <;> (try simp) <;> (repeat' split) <;> first | simp | rfl
@[simp] theorem Dev.probe_blocks (n t : Nat) (d : Dev) :
    (d.probe n t).mgr = d.mgr ∧
      (d.probe n t).search = d.search ∧
      (d.probe n t).ins.dSide = d.ins.dSide ∧
      (d.probe n t).pins = d.pins ∧
      (d.probe n t).hv.openRec = d.hv.openRec := by
  unfold Dev.probe <;> refine ⟨?_, ?_, ?_, ?_, ?_⟩ <;> (try dsimp only) <;> (repeat' split) <;> (try simp) <;> (repeat' split) <;> first | simp | rfl
@[simp] theorem Dev.countProbe_blocks (d : Dev) :
    (d.countProbe).mgr = d.mgr ∧
      (d.countProbe).search = d.search ∧
      (d.countProbe).ins.dSide = d.ins.dSide ∧
      (d.countProbe).pins = d.pins ∧
      (d.countProbe).hv.openRec = d.hv.openRec := by
  unfold Dev.countProbe <;> refine ⟨?_, ?_, ?_, ?_, ?_⟩ <;> (try dsimp only) <;> (repeat' split) <;> (try simp) <;> (repeat' split) <;> first | simp | rfl
@[simp] theorem Dev.probeGot_blocks (d : Dev) :
    (d.probeGot).mgr = d.mgr ∧
      (d.probeGot).ins.dSide = d.ins.dSide ∧
      (d.probeGot).pins = d.pins ∧
      (d.probeGot).hv.openRec = d.hv.openRec := by
  unfold Dev.probeGot <;> refine ⟨?_, ?_, ?_, ?_⟩ <;> (try dsimp only) <;> (repeat' split) <;> (try simp) <;> (repeat' split) <;> first | simp | rfl
@[simp] theorem Dev.judgeHalf_blocks (pts : List Nat) (next : Task) (d : Dev) :
    (d.judgeHalf pts next).mgr = d.mgr ∧
      (d.judgeHalf pts next).ins.dSide = d.ins.dSide ∧
      (d.judgeHalf pts next).pins = d.pins ∧
      (d.judgeHalf pts next).hv.openRec = d.hv.openRec := by
  unfold Dev.judgeHalf <;> refine ⟨?_, ?_, ?_, ?_⟩ <;> (try dsimp only) <;> (repeat' split) <;> (try simp) <;> (repeat' split) <;> first | simp | rfl
@[simp] theorem Dev.lowHalf_blocks (d : Dev) :
    (d.lowHalf).mgr = d.mgr ∧
      (d.lowHalf).ins.dSide = d.ins.dSide ∧
      (d.lowHalf).pins = d.pins ∧
      (d.lowHalf).hv.openRec = d.hv.openRec := by
  unfold Dev.lowHalf <;> refine ⟨?_, ?_, ?_, ?_⟩ <;> (try dsimp only) <;> (repeat' split) <;> (try simp) <;> (repeat' split) <;> first | simp | rfl
@[simp] theorem Dev.lowGot_blocks (d : Dev) :
    (d.lowGot).mgr = d.mgr ∧
      (d.lowGot).ins.dSide = d.ins.dSide ∧
      (d.lowGot).pins = d.pins ∧
      (d.lowGot).hv.openRec = d.hv.openRec := by
  unfold Dev.lowGot <;> refine ⟨?_, ?_, ?_, ?_⟩ <;> (try dsimp only) <;> (repeat' split) <;> (try simp) <;> (repeat' split) <;> first | simp | rfl
@[simp] theorem Dev.highHalf_blocks (d : Dev) :
    (d.highHalf).mgr = d.mgr ∧
      (d.highHalf).ins.dSide = d.ins.dSide ∧
      (d.highHalf).pins = d.pins ∧
      (d.highHalf).hv.openRec = d.hv.openRec := by
  unfold Dev.highHalf <;> refine ⟨?_, ?_, ?_, ?_⟩ <;> (try dsimp only) <;> (repeat' split) <;> (try simp) <;> (repeat' split) <;> first | simp | rfl
@[simp] theorem Dev.searchNext_blocks (d : Dev) :
    (d.searchNext).mgr = d.mgr ∧
      (d.searchNext).ins.dSide = d.ins.dSide ∧
      (d.searchNext).pins = d.pins ∧
      (d.searchNext).hv.openRec = d.hv.openRec := by
  unfold Dev.searchNext <;> refine ⟨?_, ?_, ?_, ?_⟩ <;> (try dsimp only) <;> (repeat' split) <;> (try simp) <;> (repeat' split) <;> first | simp | rfl
@[simp] theorem Dev.highGot_blocks (d : Dev) :
    (d.highGot).mgr = d.mgr ∧
      (d.highGot).ins.dSide = d.ins.dSide ∧
      (d.highGot).pins = d.pins ∧
      (d.highGot).hv.openRec = d.hv.openRec := by
  unfold Dev.highGot <;> refine ⟨?_, ?_, ?_, ?_⟩ <;> (try dsimp only) <;> (repeat' split) <;> (try simp) <;> (repeat' split) <;> first | simp | rfl
@[simp] theorem Dev.searchStep_blocks (d : Dev) :
    (d.searchStep).mgr = d.mgr ∧
      (d.searchStep).ins.dSide = d.ins.dSide ∧
      (d.searchStep).pins = d.pins ∧
      (d.searchStep).hv.openRec = d.hv.openRec := by
  unfold Dev.searchStep <;> refine ⟨?_, ?_, ?_, ?_⟩ <;> (try dsimp only) <;> (repeat' split) <;> (try simp) <;> (repeat' split) <;> first | simp | rfl
@[simp] theorem Dev.located_blocks (i : Nat) (last : Bool) (d : Dev) :
    (d.located i last).mgr = d.mgr ∧
      (d.located i last).ins.dSide = d.ins.dSide ∧
      (d.located i last).pins = d.pins ∧
      (d.located i last).hv.openRec = d.hv.openRec := by
  unfold Dev.located <;> refine ⟨?_, ?_, ?_, ?_⟩ <;> (try dsimp only) <;> (repeat' split) <;> (try simp) <;> (repeat' split) <;> first | simp | rfl
@[simp] theorem Dev.sweepFinding_blocks (f : Finding) (d : Dev) :
    (d.sweepFinding f).mgr = d.mgr ∧
      (d.sweepFinding f).search = d.search ∧
      (d.sweepFinding f).ins.dSide = d.ins.dSide ∧
      (d.sweepFinding f).pins = d.pins ∧
      (d.sweepFinding f).hv.openRec = d.hv.openRec := by
  unfold Dev.sweepFinding <;> refine ⟨?_, ?_, ?_, ?_, ?_⟩ <;> (try dsimp only) <;> (repeat' split) <;> (try simp) <;> (repeat' split) <;> first | simp | rfl
@[simp] theorem Dev.whereisLocation_blocks (q : Nat) (v : PVal) (d : Dev) :
    (d.whereisLocation q v).mgr = d.mgr ∧
      (d.whereisLocation q v).search = d.search ∧
      (d.whereisLocation q v).ins.dSide = d.ins.dSide ∧
      (d.whereisLocation q v).pins = d.pins ∧
      (d.whereisLocation q v).hv.openRec = d.hv.openRec := by
  unfold Dev.whereisLocation <;> refine ⟨?_, ?_, ?_, ?_, ?_⟩ <;> (try dsimp only) <;> (repeat' split) <;> (try simp) <;> (repeat' split) <;> first | simp | rfl
@[simp] theorem Dev.isolateLocation_blocks (q : Nat) (v : PVal) (trunc : Bool) (d : Dev) :
    (d.isolateLocation q v trunc).mgr = d.mgr ∧
      (d.isolateLocation q v trunc).search = d.search ∧
      (d.isolateLocation q v trunc).ins.dSide = d.ins.dSide ∧
      (d.isolateLocation q v trunc).pins = d.pins ∧
      (d.isolateLocation q v trunc).hv.openRec = d.hv.openRec := by
  unfold Dev.isolateLocation <;> refine ⟨?_, ?_, ?_, ?_, ?_⟩ <;> (try dsimp only) <;> (repeat' split) <;> (try simp) <;> (repeat' split) <;> first | simp | rfl
@[simp] theorem Dev.join_blocks (n q : Nat) (d : Dev) :
    (d.join n q).mgr = d.mgr ∧
      (d.join n q).search = d.search ∧
      (d.join n q).ins.dSide = d.ins.dSide ∧
      (d.join n q).pins = d.pins ∧
      (d.join n q).hv.openRec = d.hv.openRec := by
  unfold Dev.join <;> refine ⟨?_, ?_, ?_, ?_, ?_⟩ <;> (try dsimp only) <;> (repeat' split) <;> (try simp) <;> (repeat' split) <;> first | simp | rfl
@[simp] theorem Dev.learnLocation_blocks (q : Nat) (d : Dev) :
    (d.learnLocation q).mgr = d.mgr ∧
      (d.learnLocation q).search = d.search ∧
      (d.learnLocation q).ins.dSide = d.ins.dSide ∧
      (d.learnLocation q).pins = d.pins ∧
      (d.learnLocation q).hv.openRec = d.hv.openRec := by
  unfold Dev.learnLocation <;> refine ⟨?_, ?_, ?_, ?_, ?_⟩ <;> (try dsimp only) <;> (repeat' split) <;> (try simp) <;> (repeat' split) <;> first | simp | rfl
@[simp] theorem Dev.startSweep_blocks (o : Order) (d : Dev) :
    (d.startSweep o).mgr = d.mgr ∧
      (d.startSweep o).search = d.search ∧
      (d.startSweep o).ins.dSide = d.ins.dSide ∧
      (d.startSweep o).pins = d.pins ∧
      (d.startSweep o).hv.openRec = d.hv.openRec := by
  unfold Dev.startSweep <;> refine ⟨?_, ?_, ?_, ?_, ?_⟩ <;> (try dsimp only) <;> (repeat' split) <;> (try simp) <;> (repeat' split) <;> first | simp | rfl
@[simp] theorem Dev.valDone_blocks (d : Dev) :
    (d.valDone).mgr = d.mgr ∧
      (d.valDone).search = d.search ∧
      (d.valDone).ins.dSide = d.ins.dSide ∧
      (d.valDone).pins = d.pins ∧
      (d.valDone).hv.openRec = d.hv.openRec := by
  unfold Dev.valDone <;> refine ⟨?_, ?_, ?_, ?_, ?_⟩ <;> (try dsimp only) <;> (repeat' split) <;> (try simp) <;> (repeat' split) <;> first | simp | rfl
@[simp] theorem Dev.netBegin_blocks (n : Nat) (d : Dev) :
    (d.netBegin n).mgr = d.mgr ∧
      (d.netBegin n).search = d.search ∧
      (d.netBegin n).ins.dSide = d.ins.dSide ∧
      (d.netBegin n).pins = d.pins ∧
      (d.netBegin n).hv.openRec = d.hv.openRec := by
  unfold Dev.netBegin <;> refine ⟨?_, ?_, ?_, ?_, ?_⟩ <;> (try dsimp only) <;> (repeat' split) <;> (try simp) <;> (repeat' split) <;> first | simp | rfl
@[simp] theorem Dev.member_blocks (i : Nat) (d : Dev) :
    (d.member i).mgr = d.mgr ∧
      (d.member i).search = d.search ∧
      (d.member i).ins.dSide = d.ins.dSide ∧
      (d.member i).pins = d.pins ∧
      (d.member i).hv.openRec = d.hv.openRec := by
  unfold Dev.member <;> refine ⟨?_, ?_, ?_, ?_, ?_⟩ <;> (try dsimp only) <;> (repeat' split) <;> (try simp) <;> (repeat' split) <;> first | simp | rfl
@[simp] theorem Dev.memberGot_blocks (i : Nat) (d : Dev) :
    (d.memberGot i).mgr = d.mgr ∧
      (d.memberGot i).search = d.search ∧
      (d.memberGot i).ins.dSide = d.ins.dSide ∧
      (d.memberGot i).pins = d.pins ∧
      (d.memberGot i).hv.openRec = d.hv.openRec := by
  unfold Dev.memberGot <;> refine ⟨?_, ?_, ?_, ?_, ?_⟩ <;> (try dsimp only) <;> (repeat' split) <;> (try simp) <;> (repeat' split) <;> first | simp | rfl
@[simp] theorem Dev.whereis_blocks (i : Nat) (d : Dev) :
    (d.whereis i).mgr = d.mgr ∧
      (d.whereis i).ins.dSide = d.ins.dSide ∧
      (d.whereis i).pins = d.pins ∧
      (d.whereis i).hv.openRec = d.hv.openRec := by
  unfold Dev.whereis <;> refine ⟨?_, ?_, ?_, ?_⟩ <;> (try dsimp only) <;> (repeat' split) <;> (try simp) <;> (repeat' split) <;> first | simp | rfl
@[simp] theorem Dev.whereisGot_blocks (i : Nat) (d : Dev) :
    (d.whereisGot i).mgr = d.mgr ∧
      (d.whereisGot i).ins.dSide = d.ins.dSide ∧
      (d.whereisGot i).pins = d.pins ∧
      (d.whereisGot i).hv.openRec = d.hv.openRec := by
  unfold Dev.whereisGot <;> refine ⟨?_, ?_, ?_, ?_⟩ <;> (try dsimp only) <;> (repeat' split) <;> (try simp) <;> (repeat' split) <;> first | simp | rfl
@[simp] theorem Dev.whereisEnd_blocks (i : Nat) (d : Dev) :
    (d.whereisEnd i).mgr = d.mgr ∧
      (d.whereisEnd i).search = d.search ∧
      (d.whereisEnd i).ins.dSide = d.ins.dSide ∧
      (d.whereisEnd i).pins = d.pins ∧
      (d.whereisEnd i).hv.openRec = d.hv.openRec := by
  unfold Dev.whereisEnd <;> refine ⟨?_, ?_, ?_, ?_, ?_⟩ <;> (try dsimp only) <;> (repeat' split) <;> (try simp) <;> (repeat' split) <;> first | simp | rfl
@[simp] theorem Dev.isolate_blocks (d : Dev) :
    (d.isolate).mgr = d.mgr ∧
      (d.isolate).ins.dSide = d.ins.dSide ∧
      (d.isolate).pins = d.pins ∧
      (d.isolate).hv.openRec = d.hv.openRec := by
  unfold Dev.isolate <;> refine ⟨?_, ?_, ?_, ?_⟩ <;> (try dsimp only) <;> (repeat' split) <;> (try simp) <;> (repeat' split) <;> first | simp | rfl
@[simp] theorem Dev.isolateGot_blocks (d : Dev) :
    (d.isolateGot).mgr = d.mgr ∧
      (d.isolateGot).ins.dSide = d.ins.dSide ∧
      (d.isolateGot).pins = d.pins ∧
      (d.isolateGot).hv.openRec = d.hv.openRec := by
  unfold Dev.isolateGot <;> refine ⟨?_, ?_, ?_, ?_⟩ <;> (try dsimp only) <;> (repeat' split) <;> (try simp) <;> (repeat' split) <;> first | simp | rfl
@[simp] theorem Dev.netDone_blocks (d : Dev) :
    (d.netDone).mgr = d.mgr ∧
      (d.netDone).search = d.search ∧
      (d.netDone).ins.dSide = d.ins.dSide ∧
      (d.netDone).pins = d.pins ∧
      (d.netDone).hv.openRec = d.hv.openRec := by
  unfold Dev.netDone <;> refine ⟨?_, ?_, ?_, ?_, ?_⟩ <;> (try dsimp only) <;> (repeat' split) <;> (try simp) <;> (repeat' split) <;> first | simp | rfl
@[simp] theorem Dev.sweepClose_blocks (d : Dev) :
    (d.sweepClose).mgr = d.mgr ∧
      (d.sweepClose).search = d.search ∧
      (d.sweepClose).ins.dSide = d.ins.dSide ∧
      (d.sweepClose).pins = d.pins ∧
      (d.sweepClose).hv.openRec = d.hv.openRec := by
  unfold Dev.sweepClose <;> refine ⟨?_, ?_, ?_, ?_, ?_⟩ <;> (try dsimp only) <;> (repeat' split) <;> (try simp) <;> (repeat' split) <;> first | simp | rfl
@[simp] theorem Dev.startLearn_blocks (o : Order) (d : Dev) :
    (d.startLearn o).mgr = d.mgr ∧
      (d.startLearn o).search = d.search ∧
      (d.startLearn o).ins.dSide = d.ins.dSide ∧
      (d.startLearn o).pins = d.pins ∧
      (d.startLearn o).hv.openRec = d.hv.openRec := by
  unfold Dev.startLearn <;> refine ⟨?_, ?_, ?_, ?_, ?_⟩ <;> (try dsimp only) <;> (repeat' split) <;> (try simp) <;> (repeat' split) <;> first | simp | rfl
@[simp] theorem Dev.learnFrom_blocks (p : Nat) (d : Dev) :
    (d.learnFrom p).mgr = d.mgr ∧
      (d.learnFrom p).ins.dSide = d.ins.dSide ∧
      (d.learnFrom p).pins = d.pins ∧
      (d.learnFrom p).hv.openRec = d.hv.openRec := by
  unfold Dev.learnFrom <;> refine ⟨?_, ?_, ?_, ?_⟩ <;> (try dsimp only) <;> (repeat' split) <;> (try simp) <;> (repeat' split) <;> first | simp | rfl
@[simp] theorem Dev.learnGot_blocks (p : Nat) (d : Dev) :
    (d.learnGot p).mgr = d.mgr ∧
      (d.learnGot p).ins.dSide = d.ins.dSide ∧
      (d.learnGot p).pins = d.pins ∧
      (d.learnGot p).hv.openRec = d.hv.openRec := by
  unfold Dev.learnGot <;> refine ⟨?_, ?_, ?_, ?_⟩ <;> (try dsimp only) <;> (repeat' split) <;> (try simp) <;> (repeat' split) <;> first | simp | rfl
@[simp] theorem Dev.learnFormed_blocks (p : Nat) (d : Dev) :
    (d.learnFormed p).mgr = d.mgr ∧
      (d.learnFormed p).search = d.search ∧
      (d.learnFormed p).ins.dSide = d.ins.dSide ∧
      (d.learnFormed p).pins = d.pins ∧
      (d.learnFormed p).hv.openRec = d.hv.openRec := by
  unfold Dev.learnFormed <;> refine ⟨?_, ?_, ?_, ?_, ?_⟩ <;> (try dsimp only) <;> (repeat' split) <;> (try simp) <;> (repeat' split) <;> first | simp | rfl
@[simp] theorem Dev.learnAlone_blocks (p : Nat) (d : Dev) :
    (d.learnAlone p).mgr = d.mgr ∧
      (d.learnAlone p).search = d.search ∧
      (d.learnAlone p).ins.dSide = d.ins.dSide ∧
      (d.learnAlone p).pins = d.pins ∧
      (d.learnAlone p).hv.openRec = d.hv.openRec := by
  unfold Dev.learnAlone <;> refine ⟨?_, ?_, ?_, ?_, ?_⟩ <;> (try dsimp only) <;> (repeat' split) <;> (try simp) <;> (repeat' split) <;> first | simp | rfl
@[simp] theorem Dev.learnNet_blocks (single : Bool) (d : Dev) :
    (d.learnNet single).mgr = d.mgr ∧
      (d.learnNet single).search = d.search ∧
      (d.learnNet single).ins.dSide = d.ins.dSide ∧
      (d.learnNet single).pins = d.pins ∧
      (d.learnNet single).hv.openRec = d.hv.openRec := by
  unfold Dev.learnNet <;> refine ⟨?_, ?_, ?_, ?_, ?_⟩ <;> (try dsimp only) <;> (repeat' split) <;> (try simp) <;> (repeat' split) <;> first | simp | rfl
@[simp] theorem Dev.learnHeader_blocks (single : Bool) (d : Dev) :
    (d.learnHeader single).mgr = d.mgr ∧
      (d.learnHeader single).search = d.search ∧
      (d.learnHeader single).ins.dSide = d.ins.dSide ∧
      (d.learnHeader single).pins = d.pins ∧
      (d.learnHeader single).hv.openRec = d.hv.openRec := by
  unfold Dev.learnHeader <;> refine ⟨?_, ?_, ?_, ?_, ?_⟩ <;> (try dsimp only) <;> (repeat' split) <;> (try simp) <;> (repeat' split) <;> first | simp | rfl
@[simp] theorem Dev.learnLoad_blocks (single : Bool) (d : Dev) :
    (d.learnLoad single).mgr = d.mgr ∧
      (d.learnLoad single).search = d.search ∧
      (d.learnLoad single).ins.dSide = d.ins.dSide ∧
      (d.learnLoad single).pins = d.pins ∧
      (d.learnLoad single).hv.openRec = d.hv.openRec := by
  unfold Dev.learnLoad <;> refine ⟨?_, ?_, ?_, ?_, ?_⟩ <;> (try dsimp only) <;> (repeat' split) <;> (try simp) <;> (repeat' split) <;> first | simp | rfl
@[simp] theorem Dev.learnClose_blocks (d : Dev) :
    (d.learnClose).mgr = d.mgr ∧
      (d.learnClose).search = d.search ∧
      (d.learnClose).ins.dSide = d.ins.dSide ∧
      (d.learnClose).pins = d.pins ∧
      (d.learnClose).hv.openRec = d.hv.openRec := by
  unfold Dev.learnClose <;> refine ⟨?_, ?_, ?_, ?_, ?_⟩ <;> (try dsimp only) <;> (repeat' split) <;> (try simp) <;> (repeat' split) <;> first | simp | rfl
@[simp] theorem Dev.learnDone_blocks (d : Dev) :
    (d.learnDone).mgr = d.mgr ∧
      (d.learnDone).search = d.search ∧
      (d.learnDone).ins.dSide = d.ins.dSide ∧
      (d.learnDone).pins = d.pins ∧
      (d.learnDone).hv.openRec = d.hv.openRec := by
  unfold Dev.learnDone <;> refine ⟨?_, ?_, ?_, ?_, ?_⟩ <;> (try dsimp only) <;> (repeat' split) <;> (try simp) <;> (repeat' split) <;> first | simp | rfl
@[simp] theorem Dev.startInsulate_blocks (o : Order) (d : Dev) :
    (d.startInsulate o).mgr = d.mgr ∧
      (d.startInsulate o).search = d.search ∧
      (d.startInsulate o).pins = d.pins ∧
      (d.startInsulate o).hv.openRec = d.hv.openRec := by
  unfold Dev.startInsulate <;> refine ⟨?_, ?_, ?_, ?_⟩ <;> (try dsimp only) <;> (repeat' split) <;> (try simp) <;> (repeat' split) <;> first | simp | rfl
@[simp] theorem Dev.insInit_blocks (d : Dev) :
    (d.insInit).mgr = d.mgr ∧
      (d.insInit).search = d.search ∧
      (d.insInit).ins.dSide = d.ins.dSide ∧
      (d.insInit).pins = d.pins ∧
      (d.insInit).hv.openRec = d.hv.openRec := by
  unfold Dev.insInit <;> refine ⟨?_, ?_, ?_, ?_, ?_⟩ <;> (try dsimp only) <;> (repeat' split) <;> (try simp) <;> (repeat' split) <;> first | simp | rfl
@[simp] theorem Dev.groupNext_blocks (r : Nat) (d : Dev) :
    (d.groupNext r).mgr = d.mgr ∧
      (d.groupNext r).search = d.search ∧
      (d.groupNext r).pins = d.pins ∧
      (d.groupNext r).hv.openRec = d.hv.openRec := by
  unfold Dev.groupNext <;> refine ⟨?_, ?_, ?_, ?_⟩ <;> (try dsimp only) <;> (repeat' split) <;> (try simp) <;> (repeat' split) <;> first | simp | rfl
@[simp] theorem Dev.groupSetup_blocks (d : Dev) :
    (d.groupSetup).mgr = d.mgr ∧
      (d.groupSetup).search = d.search ∧
      (d.groupSetup).ins.dSide = d.ins.dSide ∧
      (d.groupSetup).pins = d.pins ∧
      (d.groupSetup).hv.openRec = d.hv.openRec := by
  unfold Dev.groupSetup <;> refine ⟨?_, ?_, ?_, ?_, ?_⟩ <;> (try dsimp only) <;> (repeat' split) <;> (try simp) <;> (repeat' split) <;> first | simp | rfl
@[simp] theorem Dev.locProbe_blocks (pts : List Nat) (d : Dev) :
    (d.locProbe pts).mgr = d.mgr ∧
      (d.locProbe pts).search = d.search ∧
      (d.locProbe pts).ins.dSide = d.ins.dSide ∧
      (d.locProbe pts).pins = d.pins ∧
      (d.locProbe pts).hv.openRec = d.hv.openRec := by
  unfold Dev.locProbe <;> refine ⟨?_, ?_, ?_, ?_, ?_⟩ <;> (try dsimp only) <;> (repeat' split) <;> (try simp) <;> (repeat' split) <;> first | simp | rfl
@[simp] theorem Dev.abandonStep_blocks (d : Dev) :
    (d.abandonStep).mgr = d.mgr ∧
      (d.abandonStep).search = d.search ∧
      (d.abandonStep).ins.dSide = d.ins.dSide ∧
      (d.abandonStep).pins = d.pins ∧
      (d.abandonStep).hv.openRec = d.hv.openRec := by
  unfold Dev.abandonStep <;> refine ⟨?_, ?_, ?_, ?_, ?_⟩ <;> (try dsimp only) <;> (repeat' split) <;> (try simp) <;> (repeat' split) <;> first | simp | rfl
@[simp] theorem Dev.rampReq_blocks (d : Dev) :
    (d.rampReq).mgr = d.mgr ∧
      (d.rampReq).search = d.search ∧
      (d.rampReq).ins.dSide = d.ins.dSide ∧
      (d.rampReq).pins = d.pins ∧
      (d.rampReq).hv.openRec = d.hv.openRec := by
  unfold Dev.rampReq Hv.takeRamp <;> refine ⟨?_, ?_, ?_, ?_, ?_⟩ <;> (try dsimp only) <;> (repeat' split) <;> (try simp) <;> (repeat' split) <;> first | simp | rfl
@[simp] theorem Dev.dwellBegin_blocks (d : Dev) :
    (d.dwellBegin).mgr = d.mgr ∧
      (d.dwellBegin).search = d.search ∧
      (d.dwellBegin).ins.dSide = d.ins.dSide ∧
      (d.dwellBegin).pins = d.pins ∧
      (d.dwellBegin).hv.openRec = d.hv.openRec := by
  unfold Dev.dwellBegin <;> refine ⟨?_, ?_, ?_, ?_, ?_⟩ <;> (try dsimp only) <;> (repeat' split) <;> (try simp) <;> (repeat' split) <;> first | simp | rfl
@[simp] theorem Dev.windowReq_blocks (r : Rng) (d : Dev) :
    (d.windowReq r).mgr = d.mgr ∧
      (d.windowReq r).search = d.search ∧
      (d.windowReq r).ins.dSide = d.ins.dSide ∧
      (d.windowReq r).pins = d.pins ∧
      (d.windowReq r).hv.openRec = d.hv.openRec := by
  unfold Dev.windowReq <;> refine ⟨?_, ?_, ?_, ?_, ?_⟩ <;> (try dsimp only) <;> (repeat' split) <;> (try simp) <;> (repeat' split) <;> first | simp | rfl
@[simp] theorem Dev.locAnswer_blocks (v : PVal) (connected : Bool) (d : Dev) :
    (d.locAnswer v connected).mgr = d.mgr ∧
      (d.locAnswer v connected).ins.dSide = d.ins.dSide ∧
      (d.locAnswer v connected).pins = d.pins ∧
      (d.locAnswer v connected).hv.openRec = d.hv.openRec := by
  unfold Dev.locAnswer <;> refine ⟨?_, ?_, ?_, ?_⟩ <;> (try dsimp only) <;> (repeat' split) <;> (try simp) <;> (repeat' split) <;> first | simp | rfl
@[simp] theorem Dev.windowGot_blocks (d : Dev) :
    (d.windowGot).mgr = d.mgr ∧
      (d.windowGot).ins.dSide = d.ins.dSide ∧
      (d.windowGot).pins = d.pins ∧
      (d.windowGot).hv.openRec = d.hv.openRec := by
  unfold Dev.windowGot <;> refine ⟨?_, ?_, ?_, ?_⟩ <;> (try dsimp only) <;> (repeat' split) <;> (try simp) <;> (repeat' split) <;> first | simp | rfl
@[simp] theorem Dev.insFinding_blocks (f : Finding) (d : Dev) :
    (d.insFinding f).mgr = d.mgr ∧
      (d.insFinding f).search = d.search ∧
      (d.insFinding f).ins.dSide = d.ins.dSide ∧
      (d.insFinding f).pins = d.pins ∧
      (d.insFinding f).hv.openRec = d.hv.openRec := by
  unfold Dev.insFinding <;> refine ⟨?_, ?_, ?_, ?_, ?_⟩ <;> (try dsimp only) <;> (repeat' split) <;> (try simp) <;> (repeat' split) <;> first | simp | rfl
@[simp] theorem Dev.evaluate_blocks (d : Dev) :
    (d.evaluate).mgr = d.mgr ∧
      (d.evaluate).search = d.search ∧
      (d.evaluate).ins.dSide = d.ins.dSide ∧
      (d.evaluate).pins = d.pins ∧
      (d.evaluate).hv.openRec = d.hv.openRec := by
  unfold Dev.evaluate <;> refine ⟨?_, ?_, ?_, ?_, ?_⟩ <;> (try dsimp only) <;> (repeat' split) <;> (try simp) <;> (repeat' split) <;> first | simp | rfl
@[simp] theorem Dev.evalSafe_blocks (d : Dev) :
    (d.evalSafe).mgr = d.mgr ∧
      (d.evalSafe).search = d.search ∧
      (d.evalSafe).ins.dSide = d.ins.dSide ∧
      (d.evalSafe).pins = d.pins ∧
      (d.evalSafe).hv.openRec = d.hv.openRec := by
  unfold Dev.evalSafe <;> refine ⟨?_, ?_, ?_, ?_, ?_⟩ <;> (try dsimp only) <;> (repeat' split) <;> (try simp) <;> (repeat' split) <;> first | simp | rfl
@[simp] theorem Dev.waitOff_blocks (record : Bool) (d : Dev) :
    (d.waitOff record).mgr = d.mgr ∧
      (d.waitOff record).search = d.search ∧
      (d.waitOff record).ins.dSide = d.ins.dSide ∧
      (d.waitOff record).pins = d.pins ∧
      (d.waitOff record).hv.openRec = d.hv.openRec := by
  unfold Dev.waitOff <;> refine ⟨?_, ?_, ?_, ?_, ?_⟩ <;> (try dsimp only) <;> (repeat' split) <;> (try simp) <;> (repeat' split) <;> first | simp | rfl
@[simp] theorem Dev.stepEnd_blocks (d : Dev) :
    (d.stepEnd).mgr = d.mgr ∧
      (d.stepEnd).search = d.search ∧
      (d.stepEnd).ins.dSide = d.ins.dSide ∧
      (d.stepEnd).pins = d.pins ∧
      (d.stepEnd).hv.openRec = d.hv.openRec := by
  unfold Dev.stepEnd <;> refine ⟨?_, ?_, ?_, ?_, ?_⟩ <;> (try dsimp only) <;> (repeat' split) <;> (try simp) <;> (repeat' split) <;> first | simp | rfl
@[simp] theorem Dev.groupDone_blocks (d : Dev) :
    (d.groupDone).mgr = d.mgr ∧
      (d.groupDone).search = d.search ∧
      (d.groupDone).ins.dSide = d.ins.dSide ∧
      (d.groupDone).pins = d.pins ∧
      (d.groupDone).hv.openRec = d.hv.openRec := by
  unfold Dev.groupDone <;> refine ⟨?_, ?_, ?_, ?_, ?_⟩ <;> (try dsimp only) <;> (repeat' split) <;> (try simp) <;> (repeat' split) <;> first | simp | rfl
@[simp] theorem Dev.endAfterOff_blocks (c : Code) (d : Dev) :
    (d.endAfterOff c).mgr = d.mgr ∧
      (d.endAfterOff c).search = d.search ∧
      (d.endAfterOff c).ins.dSide = d.ins.dSide ∧
      (d.endAfterOff c).pins = d.pins ∧
      (d.endAfterOff c).hv.openRec = d.hv.openRec := by
  unfold Dev.endAfterOff <;> refine ⟨?_, ?_, ?_, ?_, ?_⟩ <;> (try dsimp only) <;> (repeat' split) <;> (try simp) <;> (repeat' split) <;> first | simp | rfl
@[simp] theorem Dev.locateStart_blocks (d : Dev) :
    (d.locateStart).mgr = d.mgr ∧
      (d.locateStart).ins.dSide = d.ins.dSide ∧
      (d.locateStart).pins = d.pins ∧
      (d.locateStart).hv.openRec = d.hv.openRec := by
  unfold Dev.locateStart <;> refine ⟨?_, ?_, ?_, ?_⟩ <;> (try dsimp only) <;> (repeat' split) <;> (try simp) <;> (repeat' split) <;> first | simp | rfl
@[simp] theorem Dev.locateLocation_blocks (q : Nat) (v : PVal) (trunc : Bool) (d : Dev) :
    (d.locateLocation q v trunc).mgr = d.mgr ∧
      (d.locateLocation q v trunc).search = d.search ∧
      (d.locateLocation q v trunc).ins.dSide = d.ins.dSide ∧
      (d.locateLocation q v trunc).pins = d.pins ∧
      (d.locateLocation q v trunc).hv.openRec = d.hv.openRec := by
  unfold Dev.locateLocation <;> refine ⟨?_, ?_, ?_, ?_, ?_⟩ <;> (try dsimp only) <;> (repeat' split) <;> (try simp) <;> (repeat' split) <;> first | simp | rfl
@[simp] theorem Dev.locateEnd_blocks (d : Dev) :
    (d.locateEnd).mgr = d.mgr ∧
      (d.locateEnd).search = d.search ∧
      (d.locateEnd).ins.dSide = d.ins.dSide ∧
      (d.locateEnd).pins = d.pins ∧
      (d.locateEnd).hv.openRec = d.hv.openRec := by
  unfold Dev.locateEnd <;> refine ⟨?_, ?_, ?_, ?_, ?_⟩ <;> (try dsimp only) <;> (repeat' split) <;> (try simp) <;> (repeat' split) <;> first | simp | rfl
@[simp] theorem Dev.stepBroken_blocks (f : Finding) (d : Dev) :
    (d.stepBroken f).mgr = d.mgr ∧
      (d.stepBroken f).ins.dSide = d.ins.dSide ∧
      (d.stepBroken f).pins = d.pins ∧
      (d.stepBroken f).hv.openRec = d.hv.openRec := by
  unfold Dev.stepBroken <;> refine ⟨?_, ?_, ?_, ?_⟩ <;> (try dsimp only) <;> (repeat' split) <;> (try simp) <;> (repeat' split) <;> first | simp | rfl
@[simp] theorem Dev.rampChecked_blocks (d : Dev) :
    (d.rampChecked).mgr = d.mgr ∧
      (d.rampChecked).ins.dSide = d.ins.dSide ∧
      (d.rampChecked).pins = d.pins ∧
      (d.rampChecked).hv.openRec = d.hv.openRec := by
  unfold Dev.rampChecked <;> refine ⟨?_, ?_, ?_, ?_⟩ <;> (try dsimp only) <;> (repeat' split) <;> (try simp) <;> (repeat' split) <;> first | simp | rfl
@[simp] theorem Dev.startPrint_blocks (o : Order) (d : Dev) :
    (d.startPrint o).mgr = d.mgr ∧
      (d.startPrint o).search = d.search ∧
      (d.startPrint o).ins.dSide = d.ins.dSide ∧
      (d.startPrint o).pins = d.pins ∧
      (d.startPrint o).hv.openRec = d.hv.openRec := by
  unfold Dev.startPrint <;> refine ⟨?_, ?_, ?_, ?_, ?_⟩ <;> (try dsimp only) <;> (repeat' split) <;> (try simp) <;> (repeat' split) <;> first | simp | rfl
@[simp] theorem Dev.beginChar_blocks (d : Dev) :
    (d.beginChar).mgr = d.mgr ∧
      (d.beginChar).search = d.search ∧
      (d.beginChar).ins.dSide = d.ins.dSide ∧
      (d.beginChar).pins = d.pins ∧
      (d.beginChar).hv.openRec = d.hv.openRec := by
  unfold Dev.beginChar <;> refine ⟨?_, ?_, ?_, ?_, ?_⟩ <;> (try dsimp only) <;> (repeat' split) <;> (try simp) <;> (repeat' split) <;> first | simp | rfl
@[simp] theorem Dev.retryChar_blocks (d : Dev) :
    (d.retryChar).mgr = d.mgr ∧
      (d.retryChar).search = d.search ∧
      (d.retryChar).ins.dSide = d.ins.dSide ∧
      (d.retryChar).pins = d.pins ∧
      (d.retryChar).hv.openRec = d.hv.openRec := by
  unfold Dev.retryChar <;> refine ⟨?_, ?_, ?_, ?_, ?_⟩ <;> (try dsimp only) <;> (repeat' split) <;> (try simp) <;> (repeat' split) <;> first | simp | rfl
@[simp] theorem Dev.joinQueue_blocks (t : Text) (d : Dev) :
    (d.joinQueue t).mgr = d.mgr ∧
      (d.joinQueue t).search = d.search ∧
      (d.joinQueue t).ins.dSide = d.ins.dSide ∧
      (d.joinQueue t).pins = d.pins ∧
      (d.joinQueue t).hv.openRec = d.hv.openRec := by
  unfold Dev.joinQueue <;> refine ⟨?_, ?_, ?_, ?_, ?_⟩ <;> (try dsimp only) <;> (repeat' split) <;> (try simp) <;> (repeat' split) <;> first | simp | rfl
@[simp] theorem Dev.nextLine_blocks (drained : Bool) (d : Dev) :
    (d.nextLine drained).mgr = d.mgr ∧
      (d.nextLine drained).search = d.search ∧
      (d.nextLine drained).ins.dSide = d.ins.dSide ∧
      (d.nextLine drained).pins = d.pins ∧
      (d.nextLine drained).hv.openRec = d.hv.openRec := by
  unfold Dev.nextLine <;> refine ⟨?_, ?_, ?_, ?_, ?_⟩ <;> (try dsimp only) <;> (repeat' split) <;> (try simp) <;> (repeat' split) <;> first | simp | rfl
@[simp] theorem Dev.charEnd_blocks (d : Dev) :
    (d.charEnd).mgr = d.mgr ∧
      (d.charEnd).search = d.search ∧
      (d.charEnd).ins.dSide = d.ins.dSide ∧
      (d.charEnd).pins = d.pins ∧
      (d.charEnd).hv.openRec = d.hv.openRec := by
  unfold Dev.charEnd <;> refine ⟨?_, ?_, ?_, ?_, ?_⟩ <;> (try dsimp only) <;> (repeat' split) <;> (try simp) <;> (repeat' split) <;> first | simp | rfl
@[simp] theorem Dev.wakeRoom_blocks (d : Dev) :
    (d.wakeRoom).mgr = d.mgr ∧
      (d.wakeRoom).search = d.search ∧
      (d.wakeRoom).ins.dSide = d.ins.dSide ∧
      (d.wakeRoom).pins = d.pins ∧
      (d.wakeRoom).hv.openRec = d.hv.openRec := by
  unfold Dev.wakeRoom <;> refine ⟨?_, ?_, ?_, ?_, ?_⟩ <;> (try dsimp only) <;> (repeat' split) <;> (try simp) <;> (repeat' split) <;> first | simp | rfl
@[simp] theorem Dev.fmtNext_blocks (d : Dev) :
    (d.fmtNext).mgr = d.mgr ∧
      (d.fmtNext).search = d.search ∧
      (d.fmtNext).ins.dSide = d.ins.dSide ∧
      (d.fmtNext).pins = d.pins ∧
      (d.fmtNext).hv.openRec = d.hv.openRec := by
  unfold Dev.fmtNext <;> refine ⟨?_, ?_, ?_, ?_, ?_⟩ <;> (try dsimp only) <;> (repeat' split) <;> (try simp) <;> (repeat' split) <;> first | simp | rfl
@[simp] theorem Dev.buffer_blocks (t : Text) (d : Dev) :
    (d.buffer t).mgr = d.mgr ∧
      (d.buffer t).search = d.search ∧
      (d.buffer t).ins.dSide = d.ins.dSide ∧
      (d.buffer t).pins = d.pins ∧
      (d.buffer t).hv.openRec = d.hv.openRec := by
  unfold Dev.buffer <;> refine ⟨?_, ?_, ?_, ?_, ?_⟩ <;> (try dsimp only) <;> (repeat' split) <;> (try simp) <;> (repeat' split) <;> first | simp | rfl
@[simp] theorem Dev.fmtBegin_blocks (d : Dev) :
    (d.fmtBegin).mgr = d.mgr ∧
      (d.fmtBegin).search = d.search ∧
      (d.fmtBegin).ins.dSide = d.ins.dSide ∧
      (d.fmtBegin).pins = d.pins ∧
      (d.fmtBegin).hv.openRec = d.hv.openRec := by
  unfold Dev.fmtBegin Dev.unlessFull <;> refine ⟨?_, ?_, ?_, ?_, ?_⟩ <;> (try dsimp only) <;> (repeat' split) <;> (try simp) <;> (repeat' split) <;> first | simp | rfl
@[simp] theorem Dev.fmtEntry_blocks (d : Dev) :
    (d.fmtEntry).mgr = d.mgr ∧
      (d.fmtEntry).search = d.search ∧
      (d.fmtEntry).ins.dSide = d.ins.dSide ∧
      (d.fmtEntry).pins = d.pins ∧
      (d.fmtEntry).hv.openRec = d.hv.openRec := by
  unfold Dev.fmtEntry Dev.unlessFull <;> refine ⟨?_, ?_, ?_, ?_, ?_⟩ <;> (try dsimp only) <;> (repeat' split) <;> (try simp) <;> (repeat' split) <;> first | simp | rfl
@[simp] theorem Dev.fmtLabel_blocks (second : Bool) (got next : Task) (set : Text → Fmt → Fmt) (d : Dev) :
    (d.fmtLabel second got next set).mgr = d.mgr ∧
      (d.fmtLabel second got next set).search = d.search ∧
      (d.fmtLabel second got next set).ins.dSide = d.ins.dSide ∧
      (d.fmtLabel second got next set).pins = d.pins ∧
      (d.fmtLabel second got next set).hv.openRec = d.hv.openRec := by
  unfold Dev.fmtLabel <;> refine ⟨?_, ?_, ?_, ?_, ?_⟩ <;> (try dsimp only) <;> (repeat' split) <;> (try simp) <;> (repeat' split) <;> first | simp | rfl
@[simp] theorem Dev.fmtLabelA_blocks (d : Dev) :
    (d.fmtLabelA).mgr = d.mgr ∧
      (d.fmtLabelA).search = d.search ∧
      (d.fmtLabelA).ins.dSide = d.ins.dSide ∧
      (d.fmtLabelA).pins = d.pins ∧
      (d.fmtLabelA).hv.openRec = d.hv.openRec := by
  unfold Dev.fmtLabelA <;> refine ⟨?_, ?_, ?_, ?_, ?_⟩ <;> (try dsimp only) <;> (repeat' split) <;> (try simp) <;> (repeat' split) <;> first | simp | rfl
@[simp] theorem Dev.fmtLabelB_blocks (d : Dev) :
    (d.fmtLabelB).mgr = d.mgr ∧
      (d.fmtLabelB).search = d.search ∧
      (d.fmtLabelB).ins.dSide = d.ins.dSide ∧
      (d.fmtLabelB).pins = d.pins ∧
      (d.fmtLabelB).hv.openRec = d.hv.openRec := by
  unfold Dev.fmtLabelB <;> refine ⟨?_, ?_, ?_, ?_, ?_⟩ <;> (try dsimp only) <;> (repeat' split) <;> (try simp) <;> (repeat' split) <;> first | simp | rfl
@[simp] theorem Dev.fmtGotA_blocks (d : Dev) :
    (d.fmtGotA).mgr = d.mgr ∧
      (d.fmtGotA).search = d.search ∧
      (d.fmtGotA).ins.dSide = d.ins.dSide ∧
      (d.fmtGotA).pins = d.pins ∧
      (d.fmtGotA).hv.openRec = d.hv.openRec := by
  unfold Dev.fmtGotA <;> refine ⟨?_, ?_, ?_, ?_, ?_⟩ <;> (try dsimp only) <;> (repeat' split) <;> (try simp) <;> (repeat' split) <;> first | simp | rfl
@[simp] theorem Dev.fmtGotB_blocks (d : Dev) :
    (d.fmtGotB).mgr = d.mgr ∧
      (d.fmtGotB).search = d.search ∧
      (d.fmtGotB).ins.dSide = d.ins.dSide ∧
      (d.fmtGotB).pins = d.pins ∧
      (d.fmtGotB).hv.openRec = d.hv.openRec := by
  unfold Dev.fmtGotB <;> refine ⟨?_, ?_, ?_, ?_, ?_⟩ <;> (try dsimp only) <;> (repeat' split) <;> (try simp) <;> (repeat' split) <;> first | simp | rfl
@[simp] theorem Dev.fmtBuild_blocks (d : Dev) :
    (d.fmtBuild).mgr = d.mgr ∧
      (d.fmtBuild).search = d.search ∧
      (d.fmtBuild).ins.dSide = d.ins.dSide ∧
      (d.fmtBuild).pins = d.pins ∧
      (d.fmtBuild).hv.openRec = d.hv.openRec := by
  unfold Dev.fmtBuild <;> refine ⟨?_, ?_, ?_, ?_, ?_⟩ <;> (try dsimp only) <;> (repeat' split) <;> (try simp) <;> (repeat' split) <;> first | simp | rfl
@[simp] theorem Dev.lineDone_blocks (d : Dev) :
    (d.lineDone).mgr = d.mgr ∧
      (d.lineDone).search = d.search ∧
      (d.lineDone).ins.dSide = d.ins.dSide ∧
      (d.lineDone).pins = d.pins ∧
      (d.lineDone).hv.openRec = d.hv.openRec := by
  unfold Dev.lineDone <;> refine ⟨?_, ?_, ?_, ?_, ?_⟩ <;> (try dsimp only) <;> (repeat' split) <;> (try simp) <;> (repeat' split) <;> first | simp | rfl
@[simp] theorem Dev.fmtPlace_blocks (d : Dev) :
    (d.fmtPlace).mgr = d.mgr ∧
      (d.fmtPlace).search = d.search ∧
      (d.fmtPlace).ins.dSide = d.ins.dSide ∧
      (d.fmtPlace).pins = d.pins ∧
      (d.fmtPlace).hv.openRec = d.hv.openRec := by
  unfold Dev.fmtPlace <;> refine ⟨?_, ?_, ?_, ?_, ?_⟩ <;> (try dsimp only) <;> (repeat' split) <;> (try simp) <;> (repeat' split) <;> first | simp | rfl
@[simp] theorem Dev.fmtSpooled_blocks (d : Dev) :
    (d.fmtSpooled).mgr = d.mgr ∧
      (d.fmtSpooled).search = d.search ∧
      (d.fmtSpooled).ins.dSide = d.ins.dSide ∧
      (d.fmtSpooled).pins = d.pins ∧
      (d.fmtSpooled).hv.openRec = d.hv.openRec := by
  unfold Dev.fmtSpooled <;> refine ⟨?_, ?_, ?_, ?_, ?_⟩ <;> (try dsimp only) <;> (repeat' split) <;> (try simp) <;> (repeat' split) <;> first | simp | rfl
@[simp] theorem Dev.setStatus_blocks (st : OStatus) (d : Dev) :
    (d.setStatus st).mgr = d.mgr ∧
      (d.setStatus st).search = d.search ∧
      (d.setStatus st).ins.dSide = d.ins.dSide ∧
      (d.setStatus st).pins = d.pins ∧
      (d.setStatus st).hv.openRec = d.hv.openRec := by
  unfold Dev.setStatus <;> refine ⟨?_, ?_, ?_, ?_, ?_⟩ <;> (try dsimp only) <;> (repeat' split) <;> (try simp) <;> (repeat' split) <;> first | simp | rfl
@[simp] theorem Dev.mapUnfinished_blocks (d : Dev) :
    (d.mapUnfinished).mgr = d.mgr ∧
      (d.mapUnfinished).search = d.search ∧
      (d.mapUnfinished).ins.dSide = d.ins.dSide ∧
      (d.mapUnfinished).pins = d.pins ∧
      (d.mapUnfinished).hv.openRec = d.hv.openRec := by
  unfold Dev.mapUnfinished <;> refine ⟨?_, ?_, ?_, ?_, ?_⟩ <;> (try dsimp only) <;> (repeat' split) <;> (try simp) <;> (repeat' split) <;> first | simp | rfl
@[simp] theorem Dev.ownerIdle_blocks (d : Dev) :
    (d.ownerIdle).mgr = d.mgr ∧
      (d.ownerIdle).search = d.search ∧
      (d.ownerIdle).ins.dSide = d.ins.dSide ∧
      (d.ownerIdle).pins = d.pins ∧
      (d.ownerIdle).hv.openRec = d.hv.openRec := by
  unfold Dev.ownerIdle <;> refine ⟨?_, ?_, ?_, ?_, ?_⟩ <;> (try dsimp only) <;> (repeat' split) <;> (try simp) <;> (repeat' split) <;> first | simp | rfl
@[simp] theorem Dev.releaseOwner_blocks (st : OStatus) (d : Dev) :
    (d.releaseOwner st).mgr = d.mgr ∧
      (d.releaseOwner st).ins.dSide = d.ins.dSide ∧
      (d.releaseOwner st).pins = d.pins ∧
      (d.releaseOwner st).hv.openRec = d.hv.openRec := by
  unfold Dev.releaseOwner <;> refine ⟨?_, ?_, ?_, ?_⟩ <;> (try dsimp only) <;> (repeat' split) <;> (try simp) <;> (repeat' split) <;> first | simp | rfl
@[simp] theorem Dev.endOrder_blocks (st : OStatus) (c : Code) (d : Dev) :
    (d.endOrder st c).mgr = d.mgr ∧
      (d.endOrder st c).ins.dSide = d.ins.dSide ∧
      (d.endOrder st c).pins = d.pins ∧
      (d.endOrder st c).hv.openRec = d.hv.openRec := by
  unfold Dev.endOrder <;> refine ⟨?_, ?_, ?_, ?_⟩ <;> (try dsimp only) <;> (repeat' split) <;> (try simp) <;> (repeat' split) <;> first | simp | rfl
@[simp] theorem Dev.haltAt_blocks (r : Resume) (d : Dev) :
    (d.haltAt r).mgr = d.mgr ∧
      (d.haltAt r).search = d.search ∧
      (d.haltAt r).ins.dSide = d.ins.dSide ∧
      (d.haltAt r).pins = d.pins ∧
      (d.haltAt r).hv.openRec = d.hv.openRec := by
  unfold Dev.haltAt <;> refine ⟨?_, ?_, ?_, ?_, ?_⟩ <;> (try dsimp only) <;> (repeat' split) <;> (try simp) <;> (repeat' split) <;> first | simp | rfl
@[simp] theorem Dev.finish_blocks (d : Dev) :
    (d.finish).mgr = d.mgr ∧
      (d.finish).search = d.search ∧
      (d.finish).ins.dSide = d.ins.dSide ∧
      (d.finish).pins = d.pins ∧
      (d.finish).hv.openRec = d.hv.openRec := by
  unfold Dev.finish <;> refine ⟨?_, ?_, ?_, ?_, ?_⟩ <;> (try dsimp only) <;> (repeat' split) <;> (try simp) <;> (repeat' split) <;> first | simp | rfl
@[simp] theorem Dev.pauseOwner_blocks (d : Dev) :
    (d.pauseOwner).mgr = d.mgr ∧
      (d.pauseOwner).ins.dSide = d.ins.dSide ∧
      (d.pauseOwner).pins = d.pins ∧
      (d.pauseOwner).hv.openRec = d.hv.openRec := by
  unfold Dev.pauseOwner <;> refine ⟨?_, ?_, ?_, ?_⟩ <;> (try dsimp only) <;> (repeat' split) <;> (try simp) <;> (repeat' split) <;> first | simp | rfl
@[simp] theorem Dev.pause_blocks (d : Dev) :
    (d.pause).mgr = d.mgr ∧
      (d.pause).ins.dSide = d.ins.dSide ∧
      (d.pause).pins = d.pins ∧
      (d.pause).hv.openRec = d.hv.openRec := by
  unfold Dev.pause <;> refine ⟨?_, ?_, ?_, ?_⟩ <;> (try dsimp only) <;> (repeat' split) <;> (try simp) <;> (repeat' split) <;> first | simp | rfl
@[simp] theorem Dev.paused_blocks (d : Dev) :
    (d.paused).mgr = d.mgr ∧
      (d.paused).search = d.search ∧
      (d.paused).ins.dSide = d.ins.dSide ∧
      (d.paused).pins = d.pins ∧
      (d.paused).hv.openRec = d.hv.openRec := by
  unfold Dev.paused <;> refine ⟨?_, ?_, ?_, ?_, ?_⟩ <;> (try dsimp only) <;> (repeat' split) <;> (try simp) <;> (repeat' split) <;> first | simp | rfl
@[simp] theorem Dev.safe_blocks (d : Dev) :
    (d.safe).mgr = d.mgr ∧
      (d.safe).search = d.search ∧
      (d.safe).ins.dSide = d.ins.dSide ∧
      (d.safe).pins = d.pins ∧
      (d.safe).hv.openRec = d.hv.openRec := by
  unfold Dev.safe <;> refine ⟨?_, ?_, ?_, ?_, ?_⟩ <;> (try dsimp only) <;> (repeat' split) <;> (try simp) <;> (repeat' split) <;> first | simp | rfl
@[simp] theorem Dev.zeroSafe_blocks (d : Dev) :
    (d.zeroSafe).mgr = d.mgr ∧
      (d.zeroSafe).search = d.search ∧
      (d.zeroSafe).ins.dSide = d.ins.dSide ∧
      (d.zeroSafe).pins = d.pins ∧
      (d.zeroSafe).hv.openRec = d.hv.openRec := by
  unfold Dev.zeroSafe <;> refine ⟨?_, ?_, ?_, ?_, ?_⟩ <;> (try dsimp only) <;> (repeat' split) <;> (try simp) <;> (repeat' split) <;> first | simp | rfl
@[simp] theorem Dev.reach_blocks (off : Nat) (d : Dev) :
    (d.reach off).mgr = d.mgr ∧
      (d.reach off).search = d.search ∧
      (d.reach off).ins.dSide = d.ins.dSide ∧
      (d.reach off).pins = d.pins ∧
      (d.reach off).hv.openRec = d.hv.openRec := by
  unfold Dev.reach <;> refine ⟨?_, ?_, ?_, ?_, ?_⟩ <;> (try dsimp only) <;> (repeat' split) <;> (try simp) <;> (repeat' split) <;> first | simp | rfl
@[simp] theorem Dev.watchWord_blocks (w : Watch) (d : Dev) :
    (d.watchWord w).mgr = d.mgr ∧
      (d.watchWord w).search = d.search ∧
      (d.watchWord w).ins.dSide = d.ins.dSide ∧
      (d.watchWord w).pins = d.pins ∧
      (d.watchWord w).hv.openRec = d.hv.openRec := by
  unfold Dev.watchWord <;> refine ⟨?_, ?_, ?_, ?_, ?_⟩ <;> (try dsimp only) <;> (repeat' split) <;> (try simp) <;> (repeat' split) <;> first | simp | rfl
@[simp] theorem Dev.release_blocks (d : Dev) :
    (d.release).mgr = d.mgr ∧
      (d.release).search = d.search ∧
      (d.release).ins.dSide = d.ins.dSide ∧
      (d.release).pins = d.pins ∧
      (d.release).hv.openRec = d.hv.openRec := by
  unfold Dev.release <;> refine ⟨?_, ?_, ?_, ?_, ?_⟩ <;> (try dsimp only) <;> (repeat' split) <;> (try simp) <;> (repeat' split) <;> first | simp | rfl
@[simp] theorem Dev.followLink_blocks (w : Word) (src : Watch) (d : Dev) :
    (d.followLink w src).mgr = d.mgr ∧
      (d.followLink w src).search = d.search ∧
      (d.followLink w src).ins.dSide = d.ins.dSide ∧
      (d.followLink w src).pins = d.pins ∧
      (d.followLink w src).hv.openRec = d.hv.openRec := by
  unfold Dev.followLink <;> refine ⟨?_, ?_, ?_, ?_, ?_⟩ <;> (try dsimp only) <;> (repeat' split) <;> (try simp) <;> (repeat' split) <;> first | simp | rfl
@[simp] theorem Dev.linkGot_blocks (d : Dev) :
    (d.linkGot).mgr = d.mgr ∧
      (d.linkGot).search = d.search ∧
      (d.linkGot).ins.dSide = d.ins.dSide ∧
      (d.linkGot).pins = d.pins ∧
      (d.linkGot).hv.openRec = d.hv.openRec := by
  unfold Dev.linkGot <;> refine ⟨?_, ?_, ?_, ?_, ?_⟩ <;> (try dsimp only) <;> (repeat' split) <;> (try simp) <;> (repeat' split) <;> first | simp | rfl
@[simp] theorem Dev.reread_blocks (w : Watch) (d : Dev) :
    (d.reread w).mgr = d.mgr ∧
      (d.reread w).search = d.search ∧
      (d.reread w).ins.dSide = d.ins.dSide ∧
      (d.reread w).pins = d.pins ∧
      (d.reread w).hv.openRec = d.hv.openRec := by
  unfold Dev.reread <;> refine ⟨?_, ?_, ?_, ?_, ?_⟩ <;> (try dsimp only) <;> (repeat' split) <;> (try simp) <;> (repeat' split) <;> first | simp | rfl
@[simp] theorem Dev.followWord_blocks (w : Watch) (d : Dev) :
    (d.followWord w).mgr = d.mgr ∧
      (d.followWord w).search = d.search ∧
      (d.followWord w).ins.dSide = d.ins.dSide ∧
      (d.followWord w).pins = d.pins ∧
      (d.followWord w).hv.openRec = d.hv.openRec := by
  unfold Dev.followWord <;> refine ⟨?_, ?_, ?_, ?_, ?_⟩ <;> (try dsimp only) <;> (repeat' split) <;> (try simp) <;> (repeat' split) <;> first | simp | rfl
@[simp] theorem Dev.rereadGot_blocks (w : Watch) (d : Dev) :
    (d.rereadGot w).mgr = d.mgr ∧
      (d.rereadGot w).search = d.search ∧
      (d.rereadGot w).ins.dSide = d.ins.dSide ∧
      (d.rereadGot w).pins = d.pins ∧
      (d.rereadGot w).hv.openRec = d.hv.openRec := by
  unfold Dev.rereadGot <;> refine ⟨?_, ?_, ?_, ?_, ?_⟩ <;> (try dsimp only) <;> (repeat' split) <;> (try simp) <;> (repeat' split) <;> first | simp | rfl
@[simp] theorem Dev.start_blocks (ws : List Word) (d : Dev) :
    (d.start ws).mgr = d.mgr ∧
      (d.start ws).search = d.search ∧
      (d.start ws).ins.dSide = d.ins.dSide ∧
      (d.start ws).pins = d.pins ∧
      (d.start ws).hv.openRec = d.hv.openRec := by
  unfold Dev.start <;> refine ⟨?_, ?_, ?_, ?_, ?_⟩ <;> (try dsimp only) <;> (repeat' split) <;> (try simp) <;> (repeat' split) <;> first | simp | rfl
@[simp] theorem Dev.image_blocks (d : Dev) :
    (d.image).mgr = d.mgr ∧
      (d.image).search = d.search ∧
      (d.image).ins.dSide = d.ins.dSide ∧
      (d.image).pins = d.pins ∧
      (d.image).hv.openRec = d.hv.openRec := by
  unfold Dev.image <;> refine ⟨?_, ?_, ?_, ?_, ?_⟩ <;> (try dsimp only) <;> (repeat' split) <;> (try simp) <;> (repeat' split) <;> first | simp | rfl
@[simp] theorem Dev.startEnd_blocks (head : Nat) (d : Dev) :
    (d.startEnd head).mgr = d.mgr ∧
      (d.startEnd head).search = d.search ∧
      (d.startEnd head).ins.dSide = d.ins.dSide ∧
      (d.startEnd head).pins = d.pins ∧
      (d.startEnd head).hv.openRec = d.hv.openRec := by
  unfold Dev.startEnd <;> refine ⟨?_, ?_, ?_, ?_, ?_⟩ <;> (try dsimp only) <;> (repeat' split) <;> (try simp) <;> (repeat' split) <;> first | simp | rfl
@[simp] theorem Dev.startConfigure_blocks (o : Order) (d : Dev) :
    (d.startConfigure o).mgr = d.mgr ∧
      (d.startConfigure o).search = d.search ∧
      (d.startConfigure o).ins.dSide = d.ins.dSide ∧
      (d.startConfigure o).pins = d.pins ∧
      (d.startConfigure o).hv.openRec = d.hv.openRec := by
  unfold Dev.startConfigure <;> refine ⟨?_, ?_, ?_, ?_, ?_⟩ <;> (try dsimp only) <;> (repeat' split) <;> (try simp) <;> (repeat' split) <;> first | simp | rfl
@[simp] theorem Dev.startMeasure_blocks (o : Order) (d : Dev) :
    (d.startMeasure o).mgr = d.mgr ∧
      (d.startMeasure o).search = d.search ∧
      (d.startMeasure o).ins.dSide = d.ins.dSide ∧
      (d.startMeasure o).pins = d.pins ∧
      (d.startMeasure o).hv.openRec = d.hv.openRec := by
  unfold Dev.startMeasure <;> refine ⟨?_, ?_, ?_, ?_, ?_⟩ <;> (try dsimp only) <;> (repeat' split) <;> (try simp) <;> (repeat' split) <;> first | simp | rfl
@[simp] theorem Dev.startOwner_blocks (k : Kind) (o : Order) (d : Dev) :
    (d.startOwner k o).mgr = d.mgr ∧
      (d.startOwner k o).search = d.search ∧
      (d.startOwner k o).pins = d.pins ∧
      (d.startOwner k o).hv.openRec = d.hv.openRec := by
  unfold Dev.startOwner <;> refine ⟨?_, ?_, ?_, ?_⟩ <;> (try dsimp only) <;> (repeat' split) <;> (try simp) <;> (repeat' split) <;> first | simp | rfl
@[simp] theorem Dev.refuseByReader_blocks (c : Code) (off : Nat) (hdr : Word) (d : Dev) :
    (d.refuseByReader c off hdr).mgr = d.mgr ∧
      (d.refuseByReader c off hdr).search = d.search ∧
      (d.refuseByReader c off hdr).ins.dSide = d.ins.dSide ∧
      (d.refuseByReader c off hdr).pins = d.pins ∧
      (d.refuseByReader c off hdr).hv.openRec = d.hv.openRec := by
  unfold Dev.refuseByReader <;> refine ⟨?_, ?_, ?_, ?_, ?_⟩ <;> (try dsimp only) <;> (repeat' split) <;> (try simp) <;> (repeat' split) <;> first | simp | rfl
@[simp] theorem Dev.takeOrder_blocks (peek : Nat → Word) (d : Dev) :
    (d.takeOrder peek).mgr = d.mgr ∧
      (d.takeOrder peek).search = d.search ∧
      (d.takeOrder peek).pins = d.pins ∧
      (d.takeOrder peek).hv.openRec = d.hv.openRec := by
  unfold Dev.takeOrder <;> refine ⟨?_, ?_, ?_, ?_⟩ <;> (try dsimp only) <;> (repeat' split) <;> (try simp) <;> (repeat' split) <;> first | simp | rfl
@[simp] theorem Dev.dropThread_blocks (d : Dev) :
    (d.dropThread).mgr = d.mgr ∧
      (d.dropThread).search = d.search ∧
      (d.dropThread).ins.dSide = d.ins.dSide ∧
      (d.dropThread).pins = d.pins ∧
      (d.dropThread).hv.openRec = d.hv.openRec := by
  unfold Dev.dropThread <;> refine ⟨?_, ?_, ?_, ?_, ?_⟩ <;> (try dsimp only) <;> (repeat' split) <;> (try simp) <;> (repeat' split) <;> first | simp | rfl
@[simp] theorem Dev.stopArrives_blocks (fault : Bool) (d : Dev) :
    (d.stopArrives fault).mgr = d.mgr ∧
      (d.stopArrives fault).search = d.search ∧
      (d.stopArrives fault).ins.dSide = d.ins.dSide ∧
      (d.stopArrives fault).pins = d.pins ∧
      (d.stopArrives fault).hv.openRec = d.hv.openRec := by
  unfold Dev.stopArrives <;> refine ⟨?_, ?_, ?_, ?_, ?_⟩ <;> (try dsimp only) <;> (repeat' split) <;> (try simp) <;> (repeat' split) <;> first | simp | rfl
@[simp] theorem Dev.halt_blocks (d : Dev) :
    (d.halt).mgr = d.mgr ∧
      (d.halt).search = d.search ∧
      (d.halt).ins.dSide = d.ins.dSide ∧
      (d.halt).pins = d.pins ∧
      (d.halt).hv.openRec = d.hv.openRec := by
  unfold Dev.halt <;> refine ⟨?_, ?_, ?_, ?_, ?_⟩ <;> (try dsimp only) <;> (repeat' split) <;> (try simp) <;> (repeat' split) <;> first | simp | rfl
@[simp] theorem Dev.resumeOwner_blocks (d : Dev) :
    (d.resumeOwner).mgr = d.mgr ∧
      (d.resumeOwner).ins.dSide = d.ins.dSide ∧
      (d.resumeOwner).pins = d.pins ∧
      (d.resumeOwner).hv.openRec = d.hv.openRec := by
  unfold Dev.resumeOwner <;> refine ⟨?_, ?_, ?_, ?_⟩ <;> (try dsimp only) <;> (repeat' split) <;> (try simp) <;> (repeat' split) <;> first | simp | rfl
@[simp] theorem Dev.running_blocks (d : Dev) :
    (d.running).mgr = d.mgr ∧
      (d.running).search = d.search ∧
      (d.running).ins.dSide = d.ins.dSide ∧
      (d.running).pins = d.pins ∧
      (d.running).hv.openRec = d.hv.openRec := by
  unfold Dev.running <;> refine ⟨?_, ?_, ?_, ?_, ?_⟩ <;> (try dsimp only) <;> (repeat' split) <;> (try simp) <;> (repeat' split) <;> first | simp | rfl
@[simp] theorem Dev.resume_blocks (d : Dev) :
    (d.resume).mgr = d.mgr ∧
      (d.resume).ins.dSide = d.ins.dSide ∧
      (d.resume).pins = d.pins ∧
      (d.resume).hv.openRec = d.hv.openRec := by
  unfold Dev.resume <;> refine ⟨?_, ?_, ?_, ?_⟩ <;> (try dsimp only) <;> (repeat' split) <;> (try simp) <;> (repeat' split) <;> first | simp | rfl
@[simp] theorem Dev.abort_blocks (d : Dev) :
    (d.abort).mgr = d.mgr ∧
      (d.abort).search = d.search ∧
      (d.abort).ins.dSide = d.ins.dSide ∧
      (d.abort).pins = d.pins ∧
      (d.abort).hv.openRec = d.hv.openRec := by
  unfold Dev.abort <;> refine ⟨?_, ?_, ?_, ?_, ?_⟩ <;> (try dsimp only) <;> (repeat' split) <;> (try simp) <;> (repeat' split) <;> first | simp | rfl
@[simp] theorem Dev.faultArrives_blocks (d : Dev) :
    (d.faultArrives).mgr = d.mgr ∧
      (d.faultArrives).search = d.search ∧
      (d.faultArrives).ins.dSide = d.ins.dSide ∧
      (d.faultArrives).pins = d.pins ∧
      (d.faultArrives).hv.openRec = d.hv.openRec := by
  unfold Dev.faultArrives <;> refine ⟨?_, ?_, ?_, ?_, ?_⟩ <;> (try dsimp only) <;> (repeat' split) <;> (try simp) <;> (repeat' split) <;> first | simp | rfl
@[simp] theorem Dev.location_blocks (i : Nat) (v : PVal) (trunc last : Bool) (d : Dev) :
    (d.location i v trunc last).mgr = d.mgr ∧
      (d.location i v trunc last).search = d.search ∧
      (d.location i v trunc last).ins.dSide = d.ins.dSide ∧
      (d.location i v trunc last).pins = d.pins ∧
      (d.location i v trunc last).hv.openRec = d.hv.openRec := by
  unfold Dev.location <;> refine ⟨?_, ?_, ?_, ?_, ?_⟩ <;> (try dsimp only) <;> (repeat' split) <;> (try simp) <;> (repeat' split) <;> first | simp | rfl
@[simp] theorem Dev.wake_blocks (w : Wait) (d : Dev) :
    (d.wake w).mgr = d.mgr ∧
      (d.wake w).search = d.search ∧
      (d.wake w).ins.dSide = d.ins.dSide ∧
      (d.wake w).pins = d.pins ∧
      (d.wake w).hv.openRec = d.hv.openRec := by
  unfold Dev.wake <;> refine ⟨?_, ?_, ?_, ?_, ?_⟩ <;> (try dsimp only) <;> (repeat' split) <;> (try simp) <;> (repeat' split) <;> first | simp | rfl
@[simp] theorem Dev.offReached_blocks (d : Dev) :
    (d.offReached).mgr = d.mgr ∧
      (d.offReached).search = d.search ∧
      (d.offReached).ins.dSide = d.ins.dSide ∧
      (d.offReached).pins = d.pins ∧
      (d.offReached).hv.openRec = d.hv.openRec := by
  unfold Dev.offReached <;> refine ⟨?_, ?_, ?_, ?_, ?_⟩ <;> (try dsimp only) <;> (repeat' split) <;> (try simp) <;> (repeat' split) <;> first | simp | rfl
@[simp] theorem Dev.hvReport_blocks (r : HvReport) (d : Dev) :
    (d.hvReport r).mgr = d.mgr ∧
      (d.hvReport r).search = d.search ∧
      (d.hvReport r).ins.dSide = d.ins.dSide ∧
      (d.hvReport r).pins = d.pins ∧
      (d.hvReport r).hv.openRec = d.hv.openRec := by
  unfold Dev.hvReport <;> refine ⟨?_, ?_, ?_, ?_, ?_⟩ <;> (try dsimp only) <;> (repeat' split) <;> (try simp) <;> (repeat' split) <;> first | simp | rfl
@[simp] theorem Dev.measured_blocks (k : JobKind) (d : Dev) :
    (d.measured k).mgr = d.mgr ∧
      (d.measured k).ins.dSide = d.ins.dSide ∧
      (d.measured k).pins = d.pins ∧
      (d.measured k).hv.openRec = d.hv.openRec := by
  unfold Dev.measured <;> refine ⟨?_, ?_, ?_, ?_⟩ <;> (try dsimp only) <;> (repeat' split) <;> (try simp) <;> (repeat' split) <;> first | simp | rfl
@[simp] theorem Dev.rampExpired_blocks (d : Dev) :
    (d.rampExpired).mgr = d.mgr ∧
      (d.rampExpired).search = d.search ∧
      (d.rampExpired).ins.dSide = d.ins.dSide ∧
      (d.rampExpired).pins = d.pins ∧
      (d.rampExpired).hv.openRec = d.hv.openRec := by
  unfold Dev.rampExpired <;> refine ⟨?_, ?_, ?_, ?_, ?_⟩ <;> (try dsimp only) <;> (repeat' split) <;> (try simp) <;> (repeat' split) <;> first | simp | rfl
@[simp] theorem Dev.dwellExpired_blocks (d : Dev) :
    (d.dwellExpired).mgr = d.mgr ∧
      (d.dwellExpired).search = d.search ∧
      (d.dwellExpired).ins.dSide = d.ins.dSide ∧
      (d.dwellExpired).pins = d.pins ∧
      (d.dwellExpired).hv.openRec = d.hv.openRec := by
  unfold Dev.dwellExpired <;> refine ⟨?_, ?_, ?_, ?_, ?_⟩ <;> (try dsimp only) <;> (repeat' split) <;> (try simp) <;> (repeat' split) <;> first | simp | rfl
@[simp] theorem Dev.locateDwellExpired_blocks (d : Dev) :
    (d.locateDwellExpired).mgr = d.mgr ∧
      (d.locateDwellExpired).search = d.search ∧
      (d.locateDwellExpired).ins.dSide = d.ins.dSide ∧
      (d.locateDwellExpired).pins = d.pins ∧
      (d.locateDwellExpired).hv.openRec = d.hv.openRec := by
  unfold Dev.locateDwellExpired <;> refine ⟨?_, ?_, ?_, ?_, ?_⟩ <;> (try dsimp only) <;> (repeat' split) <;> (try simp) <;> (repeat' split) <;> first | simp | rfl
@[simp] theorem Dev.trip_blocks (d : Dev) :
    (d.trip).mgr = d.mgr ∧
      (d.trip).ins.dSide = d.ins.dSide ∧
      (d.trip).pins = d.pins ∧
      (d.trip).hv.openRec = d.hv.openRec := by
  unfold Dev.trip <;> refine ⟨?_, ?_, ?_, ?_⟩ <;> (try dsimp only) <;> (repeat' split) <;> (try simp) <;> (repeat' split) <;> first | simp | rfl
@[simp] theorem Dev.interlockOpens_blocks (d : Dev) :
    (d.interlockOpens).mgr = d.mgr ∧
      (d.interlockOpens).search = d.search ∧
      (d.interlockOpens).ins.dSide = d.ins.dSide := by
  unfold Dev.interlockOpens <;> refine ⟨?_, ?_, ?_⟩ <;> (try dsimp only) <;> (repeat' split) <;> (try simp) <;> (repeat' split) <;> first | simp | rfl
@[simp] theorem Dev.interlockCloses_blocks (d : Dev) :
    (d.interlockCloses).mgr = d.mgr ∧
      (d.interlockCloses).search = d.search ∧
      (d.interlockCloses).ins.dSide = d.ins.dSide := by
  unfold Dev.interlockCloses <;> refine ⟨?_, ?_, ?_⟩ <;> (try dsimp only) <;> (repeat' split) <;> (try simp) <;> (repeat' split) <;> first | simp | rfl
@[simp] theorem Dev.formatLine_blocks (d : Dev) :
    (d.formatLine).mgr = d.mgr ∧
      (d.formatLine).search = d.search ∧
      (d.formatLine).ins.dSide = d.ins.dSide ∧
      (d.formatLine).pins = d.pins ∧
      (d.formatLine).hv.openRec = d.hv.openRec := by
  unfold Dev.formatLine <;> refine ⟨?_, ?_, ?_, ?_, ?_⟩ <;> (try dsimp only) <;> (repeat' split) <;> (try simp) <;> (repeat' split) <;> first | simp | rfl
@[simp] theorem Dev.frameOut_blocks (d : Dev) :
    (d.frameOut).mgr = d.mgr ∧
      (d.frameOut).search = d.search ∧
      (d.frameOut).ins.dSide = d.ins.dSide ∧
      (d.frameOut).pins = d.pins ∧
      (d.frameOut).hv.openRec = d.hv.openRec := by
  unfold Dev.frameOut <;> refine ⟨?_, ?_, ?_, ?_, ?_⟩ <;> (try dsimp only) <;> (repeat' split) <;> (try simp) <;> (repeat' split) <;> first | simp | rfl
@[simp] theorem Dev.setReady_blocks (b : Bool) (d : Dev) :
    (d.setReady b).mgr = d.mgr ∧
      (d.setReady b).search = d.search ∧
      (d.setReady b).ins.dSide = d.ins.dSide ∧
      (d.setReady b).hv.openRec = d.hv.openRec := by
  unfold Dev.setReady <;> refine ⟨?_, ?_, ?_, ?_⟩ <;> (try dsimp only) <;> (repeat' split) <;> (try simp) <;> (repeat' split) <;> first | simp | rfl
@[simp] theorem Dev.setPaperOut_blocks (b : Bool) (d : Dev) :
    (d.setPaperOut b).mgr = d.mgr ∧
      (d.setPaperOut b).search = d.search ∧
      (d.setPaperOut b).ins.dSide = d.ins.dSide ∧
      (d.setPaperOut b).hv.openRec = d.hv.openRec := by
  unfold Dev.setPaperOut <;> refine ⟨?_, ?_, ?_, ?_⟩ <;> (try dsimp only) <;> (repeat' split) <;> (try simp) <;> (repeat' split) <;> first | simp | rfl
@[simp] theorem Dev.notice_blocks (off : Nat) (d : Dev) :
    (d.notice off).mgr = d.mgr ∧
      (d.notice off).search = d.search ∧
      (d.notice off).ins.dSide = d.ins.dSide ∧
      (d.notice off).pins = d.pins ∧
      (d.notice off).hv.openRec = d.hv.openRec := by
  unfold Dev.notice <;> refine ⟨?_, ?_, ?_, ?_, ?_⟩ <;> (try dsimp only) <;> (repeat' split) <;> (try simp) <;> (repeat' split) <;> first | simp | rfl
@[simp] theorem Dev.threadSoftReset_blocks (d : Dev) :
    (d.threadSoftReset).search = d.search ∧
      (d.threadSoftReset).ins.dSide = d.ins.dSide ∧
      (d.threadSoftReset).pins = d.pins ∧
      (d.threadSoftReset).hv.openRec = d.hv.openRec := by
  unfold Dev.threadSoftReset <;> refine ⟨?_, ?_, ?_, ?_⟩ <;> (try dsimp only) <;> (repeat' split) <;> (try simp) <;> (repeat' split) <;> first | simp | rfl
@[simp] theorem Dev.softReset_blocks (d : Dev) :
    (d.softReset).pins = d.pins ∧ (d.softReset).hv.openRec = d.hv.openRec := by
  unfold Dev.softReset <;> refine ⟨?_, ?_⟩ <;> (try dsimp only) <;> (repeat' split) <;> (try simp) <;> (repeat' split) <;> first | simp | rfl
@[simp] theorem Dev.granted_blocks (q : List (Nat × Word)) (b : Burst) (ws : List Word) (d : Dev) :
    (d.granted q b ws).mgr = d.mgr ∧
      (d.granted q b ws).search = d.search ∧
      (d.granted q b ws).ins.dSide = d.ins.dSide ∧
      (d.granted q b ws).pins = d.pins ∧
      (d.granted q b ws).hv.openRec = d.hv.openRec := by
  unfold Dev.granted <;> refine ⟨?_, ?_, ?_, ?_, ?_⟩ <;> (try dsimp only) <;> (repeat' split) <;> (try simp) <;> (repeat' split) <;> first | simp | rfl

end Sys2Proof.Machine
end

