-- ==== Sys2Proof/Laws/Invariants.lean ====
section
/-! SUPPORT. What keeps the defect table in agreement with its key index (R144), the search stack within its bound (R82), the
recorded interlock at the input's level (R115) and the printer port's lines within theirs (R165, R172). -/

set_option linter.unusedSimpArgs false

namespace Sys2Proof.Machine

/-! ## The defect table -/

theorem lookupFrom_eq_none_iff {k : Key} (rs : List KeyRec) (n : Nat) :
    lookupFrom k n rs = none ↔ ∀ r ∈ rs, ¬(r.live = true ∧ r.key = k) := by
  induction rs generalizing n with
  | nil => simp [lookupFrom]
  | cons r rs ih =>
    unfold lookupFrom
    split
    · rename_i h; simp; intro h'; exact absurd h.2 (h' h.1)
    · rename_i h; rw [ih]; simp only [List.mem_cons, forall_eq_or_imp]; exact ⟨fun a => ⟨h, a⟩, fun a => a.2⟩

/-- A LIVE record whose key no LIVE record has keeps the LIVE keys apart. -/
theorem distinctLive_append {rs : List KeyRec} {k : Key} (h : distinctLive rs) (hk : lookupFrom k 0 rs = none) :
    distinctLive (rs ++ [⟨k, true⟩]) := by
  unfold distinctLive at *
  rw [lookupFrom_eq_none_iff] at hk
  simp only [List.filter_append, List.map_append, List.nodup_append]
  refine ⟨h, by simp, ?_⟩
  simp only [List.mem_map, List.mem_filter]
  rintro a ⟨r, ⟨hr, hl⟩, rfl⟩ b hb
  simp at hb
  subst hb
  exact fun e => hk r hr ⟨hl, e⟩

theorem distinctLive_append_dead {rs : List KeyRec} {k : Key} (h : distinctLive rs) : distinctLive (rs ++ [⟨k, false⟩]) := by
  simpa [distinctLive, List.filter_append] using h

theorem absorbAt_length (i : Nat) (rs : List KeyRec) : (absorbAt i rs).length = rs.length := by
  induction rs generalizing i with
  | nil => cases i <;> rfl
  | cons r rs ih => cases i <;> simp [absorbAt, ih]

/-- The live keys after an absorption are among those before it, in their order. -/
theorem absorbAt_sublist (i : Nat) (rs : List KeyRec) :
    (((absorbAt i rs).filter (·.live)).map (·.key)).Sublist ((rs.filter (·.live)).map (·.key)) := by
  induction rs generalizing i with
  | nil => cases i <;> exact List.Sublist.refl _
  | cons r rs ih =>
    cases i with
    | zero =>
      cases hl : r.live <;> simp [absorbAt, hl]
    | succ n =>
      cases hl : r.live <;> simp only [absorbAt, List.filter_cons, hl]
      · simpa using ih n
      · simpa using (ih n).cons_cons r.key

theorem liveRecords_absorbAt {i : Nat} {rs : List KeyRec} (h : (rs[i]?.any (·.live)) = true) :
    liveRecords (absorbAt i rs) + 1 = liveRecords rs := by
  unfold liveRecords
  induction rs generalizing i with
  | nil => simp at h
  | cons r rs ih =>
    cases i with
    | zero => simp at h; simp [absorbAt, h]
    | succ n =>
      have := ih (i := n) (by simpa using h)
      cases hl : r.live <;> simp [absorbAt, hl] <;> omega

@[simp] theorem Manager.ok_mk (m : Manager) (st : MgrState) (b : Binding) (off dr : Nat) (o : Bool) :
    Manager.Ok ⟨st, b, off, m.cap, m.used, m.live, m.absorbed, dr, m.index, m.back, o⟩ ↔ m.Ok := Iff.rfl

theorem Manager.ok_fresh (st : MgrState) (b : Binding) (off cap dr : Nat) (o : Bool) :
    Manager.Ok ⟨st, b, off, cap, 0, 0, 0, dr, [], .none, o⟩ := by
  simp [Manager.Ok, Manager.TableOk, Manager.BackOk, Readback.none, liveRecords, distinctLive]

theorem Manager.ok_append {m : Manager} (h : m.Ok) (k : Key) : (m.append k).Ok := by
  unfold Manager.append
  split
  · rename_i hg
    obtain ⟨⟨h1, h2, h3, h4, h5⟩, hb⟩ := h
    refine ⟨⟨?_, ?_, ?_, ?_, distinctLive_append h5 hg.2⟩, hb⟩
    · simp [h1]
    · simpa [liveRecords, List.filter_append] using h2
    · simp only; omega
    · exact hg.1
  · exact h

theorem Manager.ok_absorb {m : Manager} (h : m.Ok) (i : Nat) : (m.absorb i).Ok := by
  unfold Manager.absorb
  split
  · rename_i hg
    obtain ⟨⟨h1, h2, h3, h4, h5⟩, hb⟩ := h
    have hl := liveRecords_absorbAt hg
    refine ⟨⟨?_, ?_, ?_, h4, List.Nodup.sublist (absorbAt_sublist i m.index) h5⟩, hb⟩
    · simp [absorbAt_length, h1]
    · simp only; omega
    · simp only; omega
  · exact h

theorem Manager.ok_drop {m : Manager} (h : m.Ok) : m.drop.Ok := h

/-- The table emptied keeps what is being read back. -/
theorem Manager.ok_empty {m : Manager} (h : m.Ok) : m.empty.Ok :=
  ⟨by simp [Manager.empty, Manager.TableOk, liveRecords, distinctLive], h.2⟩

theorem Manager.ok_install {m : Manager} (h : m.Ok) (ha : m.back.agrees = true) : m.install.Ok := by
  simp only [Readback.agrees, Bool.and_eq_true, decide_eq_true_eq] at ha
  refine ⟨⟨ha.1, ha.2, h.2.1, h.2.2.1, h.2.2.2⟩, ?_⟩
  simp [Manager.BackOk, Manager.install, Readback.none, distinctLive]

theorem Manager.ok_softReset (m : Manager) : m.softReset.Ok := Manager.ok_fresh _ _ _ _ _ _

theorem Dev.finding_mgrOk {d : Dev} (f : Finding) (h : d.mgr.Ok) : (d.finding f).mgr.Ok := by
  unfold Dev.finding
  dsimp only
  repeat' split
  all_goals exact h

theorem Dev.raiseDefect_mgrOk {d : Dev} (f : Finding) (h : d.mgr.Ok) : (d.raiseDefect f).mgr.Ok := by
  unfold Dev.raiseDefect
  dsimp only
  split <;> exact Manager.ok_append h _

theorem Dev.findingEnd_mgrOk {d : Dev} (f : Finding) (a : FindAns) (h : d.mgr.Ok) : (d.findingEnd f a).mgr.Ok := by
  unfold Dev.findingEnd
  dsimp only
  repeat' split
  all_goals first | exact Manager.ok_softReset _ | exact h

theorem Dev.clear_mgrOk {d : Dev} (h : d.mgr.Ok) : d.clear.mgr.Ok := by
  unfold Dev.clear
  split <;> exact h

theorem Dev.cleared_mgrOk {d : Dev} (h : d.mgr.Ok) : d.cleared.mgr.Ok := by
  unfold Dev.cleared
  split
  · exact Manager.ok_softReset _
  · rw [(Dev.writeStatus_blocks _ _).1]; exact Manager.ok_empty (m := d.mgr) h

theorem Dev.initTable_mgrOk (o : TableStart) (d : Dev) : (d.initTable o).mgr.Ok := Manager.ok_fresh _ _ _ _ _ _

theorem Dev.bindTable_mgrOk {d : Dev} (h : d.mgr.Ok) : d.bindTable.mgr.Ok := by
  unfold Dev.bindTable
  dsimp only
  repeat' split
  all_goals first | exact h | exact Manager.ok_fresh _ _ _ _ _ _

theorem Dev.rebuildHead_mgrOk {d : Dev} (h : d.mgr.Ok) : d.rebuildHead.mgr.Ok := by
  unfold Dev.rebuildHead
  dsimp only
  split
  · exact Dev.initTable_mgrOk _ _
  · rename_i hg
    refine ⟨h.1, ?_, ?_, ?_⟩ <;> simp [distinctLive] <;> omega

theorem Dev.rebuildEntry_mgrOk {d : Dev} (i : Nat) (h : d.mgr.Ok) : (d.rebuildEntry i).mgr.Ok := by
  unfold Dev.rebuildEntry
  repeat' split
  · exact h
  · exact Manager.ok_install h ‹_›
  · exact Dev.initTable_mgrOk _ _

theorem Dev.rebuildCheck_mgrOk {d : Dev} (i : Nat) (h : d.mgr.Ok) : (d.rebuildCheck i).mgr.Ok := by
  unfold Dev.rebuildCheck
  dsimp only
  repeat' split
  · exact Dev.initTable_mgrOk _ _
  · exact Dev.initTable_mgrOk _ _
  · rename_i hn
    exact ⟨h.1, h.2.1, h.2.2.1, distinctLive_append h.2.2.2 (by simpa using hn)⟩
  · exact ⟨h.1, h.2.1, h.2.2.1, distinctLive_append_dead h.2.2.2⟩
  · exact Dev.initTable_mgrOk _ _

theorem Dev.bindEnd_mgrOk {d : Dev} (o : TableStart) (h : d.mgr.Ok) : (d.bindEnd o).mgr.Ok := h

/-- Every step of the thread keeps the defect table in agreement (R144). -/
theorem runTask_mgrOk (q : List (Nat × Word)) (t : Task) {d : Dev} (h : d.mgr.Ok) : (runTask q t d).mgr.Ok := by
  cases t
  case finding f => exact Dev.finding_mgrOk f h
  case raiseDefect f => exact Dev.raiseDefect_mgrOk f h
  case absorbDone i => exact Manager.ok_absorb h i
  case findingEnd f a => exact Dev.findingEnd_mgrOk f a h
  case clear => exact Dev.clear_mgrOk h
  case cleared => exact Dev.cleared_mgrOk h
  case bindTable => exact Dev.bindTable_mgrOk h
  case rebuildHead => exact Dev.rebuildHead_mgrOk h
  case rebuildEntry i => exact Dev.rebuildEntry_mgrOk i h
  case rebuildCheck i => exact Dev.rebuildCheck_mgrOk i h
  case bindEnd o => exact Dev.bindEnd_mgrOk o h
  all_goals simpa [runTask] using h

theorem Dev.settle_mgrOk (q : List (Nat × Word)) {d : Dev} (h : d.mgr.Ok) : (d.settle q).mgr.Ok :=
  Dev.settle_invariant (P := fun d => d.mgr.Ok) q (fun d h => by simpa using h) (fun t d h => runTask_mgrOk q t h)
    (fun _ _ h => h) h

theorem Dev.threadSoftReset_mgrOk {d : Dev} (h : d.mgr.Ok) : d.threadSoftReset.mgr.Ok := by
  unfold Dev.threadSoftReset
  repeat' split
  all_goals first | exact h | exact Manager.ok_softReset _

theorem Dev.softReset_mgrOk {d : Dev} (h : d.mgr.Ok) : d.softReset.mgr.Ok := by
  unfold Dev.softReset
  rw [(Dev.matrixSoftReset_blocks _).1, (Dev.hvSoftReset_blocks _).1]
  exact Dev.threadSoftReset_mgrOk h

/-! ## The split search unit -/

theorem Nets.fittedPoints_length (t : Nets) : t.fittedPoints.length ≤ 4096 := by
  have h : ∀ (l : List Nat), (l.flatMap cardPoints).length = 128 * l.length := by
    intro l; induction l with
    | nil => rfl
    | cons a l ih => simp [List.flatMap_cons, ih, cardPoints]; omega
  unfold Nets.fittedPoints
  rw [h]
  have : (cardNumbers.filter (bitAt t.fitted)).length ≤ 32 := (List.length_filter_le _ _).trans (by simp [cardNumbers])
  omega

theorem stackFits_tail {e : SEntry} {l : List SEntry} (h : stackFits (e :: l)) : stackFits l := h.2.2

/-- One range less above the same ones below. -/
theorem stackFits_drop_second {a b : SEntry} {l : List SEntry} (h : stackFits (a :: b :: l)) : stackFits (a :: l) := by
  obtain ⟨h1, h2, h3⟩ := h
  refine ⟨h1.trans (Nat.pow_le_pow_right (by omega) ?_), ?_, h3.2.2⟩ <;> simp at h2 ⊢ <;> omega

/-- The halves of a range stand where it stood (R84). -/
theorem stackFits_halves {e : SEntry} {rest : List SEntry} (h : stackFits (e :: rest)) (h1 : 1 < e.count) (a b : Option PVal) :
    stackFits (halfEntry e.first (lowerCount e.count) a ++
      halfEntry (e.first + lowerCount e.count) (e.count - lowerCount e.count) b ++ rest) := by
  obtain ⟨hc, hl, hr⟩ := h
  have hlt : rest.length < 12 := by
    rcases Nat.lt_or_ge rest.length 12 with g | g
    · exact g
    · have : 12 - rest.length = 0 := by omega
      rw [this] at hc; omega
  have hp : 2 ^ (12 - rest.length) = 2 * 2 ^ (12 - (rest.length + 1)) := by
    rw [← Nat.pow_succ']; congr 1; omega
  have hp2 : 1 ≤ 2 ^ (12 - (rest.length + 1)) := Nat.one_le_two_pow
  have hlow : lowerCount e.count ≤ 2 ^ (12 - (rest.length + 1)) := by unfold lowerCount; omega
  have hhigh : e.count - lowerCount e.count ≤ 2 ^ (12 - rest.length) := by omega
  cases a <;> cases b <;> simp only [halfEntry, List.nil_append, List.cons_append, List.append_nil, stackFits]
  · exact hr
  · exact ⟨hhigh, hl, hr⟩
  · exact ⟨by omega, hl, hr⟩
  · exact ⟨by simpa using hlow, by simp; omega, hhigh, hl, hr⟩

/-- What the answers, the location count and the request are does not matter to the ranges. -/
theorem Search.ok_mk (s : Search) (st : SearchSt) (low ans : Option PVal) (n l : Nat) (r : MaskRule) (sd : List Nat)
    (u : SearchFor) : Search.Ok ⟨st, s.buf, s.stack, s.cur, low, n, l, r, sd, u, ans⟩ ↔ s.Ok := Iff.rfl

theorem Search.ok_load {s : Search} {ps : List Nat} (h : s.Ok) (hp : ps.length ≤ 4096) : (s.load ps).Ok :=
  ⟨by simpa [Search.load] using hp, h.2⟩

theorem Search.ok_start {s : Search} (h : s.Ok) (u : SearchFor) (sd : List Nat) (r : MaskRule) (n : Nat) (v : PVal) :
    (s.start u sd r n v).Ok := by
  refine ⟨h.1, ?_, ?_, ?_⟩
  · simpa [Search.start, Search.ranges, stackFits] using h.1
  · simp [Search.start, Search.ranges]
  · simp [Search.start]

theorem Search.ok_clear {s : Search} (h : s.Ok) : s.clear.Ok :=
  ⟨h.1, trivial, List.Pairwise.nil, by simp [Search.clear]⟩

theorem Search.ok_reset : Search.reset.Ok := by
  refine ⟨by decide, trivial, List.Pairwise.nil, by simp [Search.reset]⟩

theorem Search.ok_pushHalves {s : Search} (h : s.Ok) : s.pushHalves.Ok := by
  unfold Search.pushHalves
  cases hc : s.cur with
  | none => exact h
  | some e =>
    obtain ⟨hb, hf, hp, h1⟩ := h
    simp only [Search.ranges, hc, Option.toList_some, List.singleton_append] at hf hp
    refine ⟨hb, by simpa [Search.ranges] using stackFits_halves hf (h1 e hc) s.low s.ans, ?_, by simp⟩
    have hle : lowerCount e.count ≤ e.count := by unfold lowerCount; have := h1 e hc; omega
    obtain ⟨ha, hr⟩ := List.pairwise_cons.mp hp
    simp only [Search.ranges, Option.toList_none, List.nil_append]
    cases s.low <;> cases s.ans <;>
      simp only [halfEntry, List.nil_append, List.cons_append, List.append_nil, List.pairwise_cons, List.mem_cons,
        forall_eq_or_imp]
    · exact hr
    · exact ⟨fun x hx => by have := ha x hx; omega, hr⟩
    · exact ⟨fun x hx => by have := ha x hx; omega, hr⟩
    · exact ⟨⟨le_refl _, fun x hx => by have := ha x hx; omega⟩, fun x hx => by have := ha x hx; omega, hr⟩

/-- The head of the stack is popped (R84). -/
theorem Search.ok_pop {s : Search} (h : s.Ok) {e : SEntry} {rest : List SEntry} (hs : s.stack = e :: rest) :
    ({ s with stack := rest } : Search).Ok := by
  obtain ⟨hb, hf, hp, h1⟩ := h
  refine ⟨hb, ?_, ?_, h1⟩
  · simp only [Search.ranges, hs] at hf ⊢
    cases hc : s.cur with
    | none => rw [hc] at hf; exact stackFits_tail hf
    | some c => rw [hc] at hf; exact stackFits_drop_second hf
  · refine hp.sublist ?_
    simp only [Search.ranges, hs]
    exact List.Sublist.append_left (List.sublist_cons_self _ _) _

/-- The popped range becomes the one whose halves are judged (R84). -/
theorem Search.ok_split {s : Search} (h : s.Ok) {e : SEntry} {rest : List SEntry} (hs : s.stack = e :: rest)
    (h1 : 1 < e.count) : ({ s with stack := rest, cur := some e } : Search).Ok := by
  obtain ⟨hb, hf, hp, _⟩ := h
  refine ⟨hb, ?_, ?_, by rintro x ⟨rfl⟩; exact h1⟩
  · simp only [Search.ranges, hs] at hf
    cases hc : s.cur with
    | none => simpa [Search.ranges, hc] using hf
    | some c => rw [hc] at hf; simpa [Search.ranges] using stackFits_tail hf
  · refine hp.sublist ?_
    simp only [Search.ranges, hs, Option.toList_some, List.singleton_append]
    exact List.sublist_append_right _ _

theorem Search.ok_maskAt {s : Search} (h : s.Ok) (t : Nets) (i : Nat) : (s.maskAt t i).Ok :=
  ⟨by simpa [Search.maskAt] using h.1, h.2⟩

theorem Search.ok_empty {s : Search} (h : s.Ok) (st : SearchSt) : ({ s with state := st, stack := [] } : Search).Ok := by
  obtain ⟨hb, hf, hp, h1⟩ := h
  refine ⟨hb, ?_, ?_, h1⟩
  · cases hc : s.cur with
    | none => simp [Search.ranges, hc, stackFits]
    | some c =>
      simp only [Search.ranges, hc, Option.toList_some, List.singleton_append, stackFits] at hf ⊢
      exact ⟨hf.1.trans (Nat.pow_le_pow_right (by omega) (by simp)), by simp, trivial⟩
  · exact hp.sublist (List.Sublist.append_left (List.nil_sublist _) _)

theorem Dev.searchOk_of_eq {d d' : Dev} (h : d.SearchOk) (h1 : d'.search = d.search) (h2 : d'.ins.dSide = d.ins.dSide) :
    d'.SearchOk := by
  unfold Dev.SearchOk at *; rwa [h1, h2]

/-- Only the search unit changed, and to one that is in order. -/
theorem Dev.searchOk_of_ok {d d' : Dev} (h : d.SearchOk) (h1 : d'.search.Ok) (h2 : d'.ins.dSide = d.ins.dSide) :
    d'.SearchOk := ⟨h1, h2 ▸ h.2⟩

theorem Dev.probeGot_searchOk {d : Dev} (h : d.SearchOk) : d.probeGot.SearchOk := by
  refine Dev.searchOk_of_ok h ?_ (by simp)
  unfold Dev.probeGot
  have : d.countProbe.search = d.search := by simp
  show Search.Ok { d.countProbe.search with ans := _ }
  rw [this]; exact h.1

theorem Dev.judgeHalf_searchOk {d : Dev} (pts : List Nat) (t : Task) (h : d.SearchOk) : (d.judgeHalf pts t).SearchOk := by
  unfold Dev.judgeHalf; split <;> exact h

theorem Dev.lowHalf_searchOk {d : Dev} (h : d.SearchOk) : d.lowHalf.SearchOk := by
  unfold Dev.lowHalf; split
  · exact Dev.judgeHalf_searchOk _ _ h
  · exact h

theorem Dev.highHalf_searchOk {d : Dev} (h : d.SearchOk) : d.highHalf.SearchOk := by
  unfold Dev.highHalf; split
  · exact Dev.judgeHalf_searchOk _ _ h
  · exact h

theorem Dev.lowGot_searchOk {d : Dev} (h : d.SearchOk) : d.lowGot.SearchOk := h

theorem Dev.searchNext_searchOk {d : Dev} (h : d.SearchOk) : d.searchNext.SearchOk := by
  unfold Dev.searchNext; split <;> exact h

theorem Dev.highGot_searchOk {d : Dev} (h : d.SearchOk) : d.highGot.SearchOk :=
  Dev.searchNext_searchOk ⟨Search.ok_pushHalves h.1, h.2⟩

theorem Dev.searchStep_searchOk {d : Dev} (h : d.SearchOk) : d.searchStep.SearchOk := by
  unfold Dev.searchStep
  split
  · exact h
  · rename_i e rest hs
    dsimp only
    repeat' split
    · exact ⟨Search.ok_split h.1 hs ‹_›, h.2⟩
    · exact ⟨Search.ok_pop h.1 hs, h.2⟩
    · exact ⟨Search.ok_pop h.1 hs, h.2⟩

theorem Dev.located_searchOk {d : Dev} (i : Nat) (l : Bool) (h : d.SearchOk) : (d.located i l).SearchOk := by
  unfold Dev.located
  dsimp only
  split
  · exact ⟨Search.ok_empty (Search.ok_maskAt h.1 _ _) _, h.2⟩
  · exact Dev.searchNext_searchOk ⟨Search.ok_maskAt h.1 _ _, h.2⟩

theorem fittedFilter_length (t : Nets) (f : Nat → Bool) : (t.fittedPoints.filter f).length ≤ 4096 :=
  (List.length_filter_le _ _).trans t.fittedPoints_length

/-- A search starts after its first probe has counted. -/
theorem Dev.start_searchOk {d d' : Dev} (h : d.SearchOk) (u : SearchFor) (sd : List Nat) (r : MaskRule) (n : Nat) (v : PVal)
    (h1 : d'.search = d.search.start u sd r n v) (h2 : d'.ins.dSide = d.ins.dSide) : d'.SearchOk :=
  Dev.searchOk_of_ok h (h1 ▸ Search.ok_start h.1 u sd r n v) h2

theorem Dev.whereis_searchOk {d : Dev} (i : Nat) (h : d.SearchOk) : (d.whereis i).SearchOk := by
  unfold Dev.whereis
  dsimp only
  repeat' split
  · exact Dev.searchOk_of_eq h (by simp) (by simp)
  · exact Dev.searchOk_of_eq h (by simp) (by simp)
  · exact Dev.searchOk_of_ok h (by simpa using Search.ok_load h.1 (fittedFilter_length _ _)) (by simp)
  · exact Dev.searchOk_of_ok h (by simpa using Search.ok_load h.1 (fittedFilter_length _ _)) (by simp)

theorem Dev.whereisGot_searchOk {d : Dev} (i : Nat) (h : d.SearchOk) : (d.whereisGot i).SearchOk := by
  unfold Dev.whereisGot
  dsimp only
  split
  · exact Dev.start_searchOk h .whereis _ .net 0 _ (by simp; rfl) (by simp)
  · exact Dev.searchOk_of_eq h (by simp) (by simp)

theorem Dev.isolate_searchOk {d : Dev} (h : d.SearchOk) : d.isolate.SearchOk := by
  unfold Dev.isolate
  dsimp only
  split
  · exact h
  · exact ⟨Search.ok_load h.1 (fittedFilter_length _ _), h.2⟩

theorem Dev.isolateGot_searchOk {d : Dev} (h : d.SearchOk) : d.isolateGot.SearchOk := by
  unfold Dev.isolateGot
  dsimp only
  split
  · exact Dev.start_searchOk h .isolate _ .net _ _ (by simp; rfl) (by simp)
  · exact Dev.searchOk_of_eq h (by simp) (by simp)

theorem Dev.learnFrom_searchOk {d : Dev} (p : Nat) (h : d.SearchOk) : (d.learnFrom p).SearchOk := by
  unfold Dev.learnFrom
  dsimp only
  repeat' split
  · exact h
  · exact Dev.searchOk_of_ok h (by simpa using Search.ok_load h.1 (fittedFilter_length _ _)) (by simp)
  · exact Dev.searchOk_of_ok h (by simpa using Search.ok_load h.1 (fittedFilter_length _ _)) (by simp)

theorem Dev.learnGot_searchOk {d : Dev} (p : Nat) (h : d.SearchOk) : (d.learnGot p).SearchOk := by
  unfold Dev.learnGot
  split
  · exact Dev.start_searchOk h .learn _ .point 0 _ (by simp; rfl) (by simp)
  · exact Dev.searchOk_of_eq h (by simp) (by simp)

theorem Dev.locateStart_searchOk {d : Dev} (h : d.SearchOk) : d.locateStart.SearchOk := by
  unfold Dev.locateStart
  dsimp only
  split
  · exact ⟨Search.ok_load h.1 h.2, h.2⟩
  · exact ⟨Search.ok_start (Search.ok_load h.1 h.2) _ _ _ _ _, h.2⟩

theorem Dev.groupNext_searchOk {d : Dev} (r : Nat) (h : d.SearchOk) : (d.groupNext r).SearchOk := by
  unfold Dev.groupNext
  dsimp only
  repeat' split
  · exact h
  · exact h
  · exact h
  · exact ⟨h.1, fittedFilter_length _ _⟩

theorem Dev.locAnswer_searchOk {d : Dev} (v : PVal) (c : Bool) (h : d.SearchOk) : (d.locAnswer v c).SearchOk := h

theorem Dev.windowGot_searchOk {d : Dev} (h : d.SearchOk) : d.windowGot.SearchOk := by
  unfold Dev.windowGot
  dsimp only
  repeat' split
  · exact h
  · exact Dev.locAnswer_searchOk _ _ (Dev.searchOk_of_eq h (by simp) (by simp))
  · exact Dev.searchOk_of_eq h (by simp) (by simp)

theorem Dev.stepBroken_searchOk {d : Dev} (f : Finding) (h : d.SearchOk) : (d.stepBroken f).SearchOk := by
  unfold Dev.stepBroken
  dsimp only
  split
  · exact Dev.locAnswer_searchOk _ _ (Dev.searchOk_of_eq h (by simp) (by simp))
  · exact Dev.searchOk_of_eq h (by simp) (by simp)

theorem Dev.rampChecked_searchOk {d : Dev} (h : d.SearchOk) : d.rampChecked.SearchOk := by
  unfold Dev.rampChecked
  dsimp only
  repeat' split
  · exact Dev.locAnswer_searchOk _ _ (Dev.searchOk_of_eq h (by simp) (by simp))
  · exact Dev.searchOk_of_eq h (by simp) (by simp)
  · exact Dev.searchOk_of_eq h (by simp) (by simp)

theorem Dev.measured_searchOk {d : Dev} (k : JobKind) (h : d.SearchOk) : (d.measured k).SearchOk := by
  unfold Dev.measured
  split
  case h_2 => exact Dev.rampChecked_searchOk h
  all_goals exact Dev.searchOk_of_eq h (by simp) (by simp)

theorem Dev.releaseOwner_searchOk {d : Dev} (st : OStatus) (h : d.SearchOk) : (d.releaseOwner st).SearchOk := by
  refine Dev.searchOk_of_ok h ?_ (by simp)
  unfold Dev.releaseOwner
  dsimp only
  repeat' split
  all_goals first | (simpa using Search.ok_clear h.1) | (simpa using h.1)

theorem Dev.endOrder_searchOk {d : Dev} (st : OStatus) (c : Code) (h : d.SearchOk) : (d.endOrder st c).SearchOk := by
  have hr : ((d.setStatus st).releaseOwner st).SearchOk :=
    Dev.releaseOwner_searchOk st (Dev.searchOk_of_eq h (by simp) (by simp))
  unfold Dev.endOrder
  dsimp only
  split
  · exact Dev.searchOk_of_eq hr (by simp) (by simp)
  · exact hr

theorem Dev.onSearch_state_searchOk {d : Dev} (f : Search → SearchSt) (h : d.SearchOk) :
    (d.onSearch fun s => { s with state := f s }).SearchOk := h

theorem Dev.pauseOwner_searchOk {d : Dev} (h : d.SearchOk) : d.pauseOwner.SearchOk := by
  have h1 := Dev.onSearch_state_searchOk (fun s => if s.state = .searching then .suspended else s.state) h
  unfold Dev.pauseOwner
  dsimp only
  split <;> exact Dev.searchOk_of_eq h1 (by simp) (by simp)

theorem Dev.pause_searchOk {d : Dev} (h : d.SearchOk) : d.pause.SearchOk := by
  have hp : ((d.setStatus .paused).pauseOwner).SearchOk :=
    Dev.pauseOwner_searchOk (Dev.searchOk_of_eq h (by simp) (by simp))
  unfold Dev.pause
  dsimp only
  split
  · exact Dev.searchOk_of_eq hp (by simp) (by simp)
  · exact hp

theorem Dev.resumeOwner_searchOk {d : Dev} (h : d.SearchOk) : d.resumeOwner.SearchOk := by
  have h1 := Dev.onSearch_state_searchOk (fun s => if s.state = .suspended then .searching else s.state) h
  unfold Dev.resumeOwner
  dsimp only
  split <;> exact Dev.searchOk_of_eq h1 (by simp) (by simp)

theorem Dev.resume_searchOk {d : Dev} (h : d.SearchOk) : d.resume.SearchOk := by
  unfold Dev.resume
  repeat' split
  all_goals first
    | (refine Dev.searchOk_of_eq h ?_ ?_ <;> (simp; done))
    | exact Dev.searchOk_of_eq (Dev.resumeOwner_searchOk (d := Dev.post _ _ _)
        (Dev.searchOk_of_eq h (by simp) (by simp))) rfl rfl

/-- Every step of the thread keeps the search stack's ranges halves of halves (R82, R84). -/
theorem runTask_searchOk (q : List (Nat × Word)) (t : Task) {d : Dev} (h : d.SearchOk) : (runTask q t d).SearchOk := by
  cases t
  case probeGot => exact Dev.probeGot_searchOk h
  case lowHalf => exact Dev.lowHalf_searchOk h
  case lowGot => exact Dev.lowGot_searchOk h
  case highHalf => exact Dev.highHalf_searchOk h
  case highGot => exact Dev.highGot_searchOk h
  case searchStep => exact Dev.searchStep_searchOk h
  case located i l => exact Dev.located_searchOk i l h
  case whereis i => exact Dev.whereis_searchOk i h
  case whereisGot i => exact Dev.whereisGot_searchOk i h
  case isolate => exact Dev.isolate_searchOk h
  case isolateGot => exact Dev.isolateGot_searchOk h
  case learnFrom p => exact Dev.learnFrom_searchOk p h
  case learnGot p => exact Dev.learnGot_searchOk p h
  case locateStart => exact Dev.locateStart_searchOk h
  case groupNext r => exact Dev.groupNext_searchOk r h
  case windowGot => exact Dev.windowGot_searchOk h
  case endOrder st c => exact Dev.endOrder_searchOk st c h
  case pause => exact Dev.pause_searchOk h
  all_goals exact Dev.searchOk_of_eq h (by simp [runTask]) (by simp [runTask])

theorem Dev.settle_searchOk (q : List (Nat × Word)) {d : Dev} (h : d.SearchOk) : (d.settle q).SearchOk :=
  Dev.settle_invariant (P := Dev.SearchOk) q (fun _ h => Dev.searchOk_of_eq h (by simp) (by simp))
    (fun t _ h => runTask_searchOk q t h) (fun _ _ h => h) h

/-! ## Every command -/

/-- What a command does to the blocks before the thread runs on: an event, a run command, the take, a read of START, an access
granted, a notice, or a command to the attention unit. -/
inductive DevEvent : (Dev → Dev) → Prop
  | echo (p : List Bus) : DevEvent (Dev.echo p)
  | echoMissing : DevEvent Dev.echoMissing
  | frameEnd : DevEvent Dev.frameEnd
  | releaseExpired : DevEvent Dev.releaseExpired
  | settleExpired : DevEvent Dev.settleExpired
  | offExpired : DevEvent Dev.offExpired
  | unparkSettled : DevEvent Dev.unparkSettled
  | sample (x y z : Int) : DevEvent (Dev.sample x y z)
  | rampExpired : DevEvent Dev.rampExpired
  | dwellExpired : DevEvent Dev.dwellExpired
  | locateDwellExpired : DevEvent Dev.locateDwellExpired
  | trip : DevEvent Dev.trip
  | arcPulse : DevEvent Dev.arcPulse
  | dischargeExpired : DevEvent Dev.dischargeExpired
  | interlockOpens : DevEvent Dev.interlockOpens
  | interlockCloses : DevEvent Dev.interlockCloses
  | formatLine : DevEvent Dev.formatLine
  | frameOut : DevEvent Dev.frameOut
  | setReady (b : Bool) : DevEvent (Dev.setReady b)
  | setPaperOut (b : Bool) : DevEvent (Dev.setPaperOut b)
  | notice (off : Nat) : DevEvent (Dev.notice off)
  | granted (q : List (Nat × Word)) (b : Burst) (ws : List Word) : DevEvent (Dev.granted q b ws)
  | start (ws : List Word) : DevEvent (Dev.start ws)
  | halt : DevEvent Dev.halt
  | resume : DevEvent Dev.resume
  | abort : DevEvent Dev.abort
  | takeOrder (p : Nat → Word) : DevEvent (Dev.takeOrder p)
  | softReset : DevEvent Dev.softReset
  | attention (f : Attn → Attn) : DevEvent fun d => (d.onAttn f).syncAttn

/-- A property of the blocks that every event and every run of the thread keeps, and that the blocks have after a hardware
reset. -/
def Kept (P : Dev → Prop) : Prop :=
  (∀ q d, P d → P (d.settle q)) ∧ (∀ f, DevEvent f → ∀ d, P d → P (f d)) ∧ ∀ d : Dev, P d.hardwareReset

theorem State.withDev_kept {P : Dev → Prop} (hP : Kept P) {f : Dev → Dev} (hf : DevEvent f) {s : State} (h : P s.dev) :
    P (s.withDev f).dev := hP.1 _ _ (hP.2.1 f hf _ h)

theorem State.command_kept {P : Dev → Prop} (hP : Kept P) {f : Dev → Dev} (hf : DevEvent f) {s : State} (h : P s.dev) :
    P (s.command f).dev := by
  unfold State.command; split
  · exact State.withDev_kept hP hf h
  · exact h

theorem State.attention_kept {P : Dev → Prop} (hP : Kept P) (f : Attn → Attn) {s : State} (h : P s.dev) :
    P (s.attention f).dev := by
  unfold State.attention; split
  · exact hP.2.1 _ (.attention f) _ h
  · exact h

theorem State.acceptWrite_kept {P : Dev → Prop} (hP : Kept P) (off : Nat) (v : Word) {s : State} (h : P s.dev) :
    P (s.acceptWrite off v).dev := State.withDev_kept hP (.notice off) h

theorem State.actSoftReset_kept {P : Dev → Prop} (hP : Kept P) {s : State} (h : P s.dev) : P s.actSoftReset.dev :=
  State.withDev_kept hP .softReset h

theorem State.serveHeld_kept {P : Dev → Prop} (hP : Kept P) {s : State} (h : P s.dev) : P s.serveHeld.dev := by
  unfold State.serveHeld
  repeat' split
  all_goals first | exact h | exact State.acceptWrite_kept hP _ _ h | exact State.actSoftReset_kept hP h

theorem State.drain_kept {P : Dev → Prop} (hP : Kept P) {s : State} (h : P s.dev) : P s.drain.dev := by
  unfold State.drain
  split
  · exact h
  · exact State.serveHeld_kept hP h

theorem State.grant_kept {P : Dev → Prop} (hP : Kept P) {s : State} (h : P s.dev) : P s.grant.dev := by
  unfold State.grant State.grantHost State.grantEngine
  repeat' split
  all_goals first | exact h | exact State.drain_kept hP h | exact State.withDev_kept hP (.granted _ _ _) h

theorem State.ite_kept {P : Dev → Prop} {c : Prop} [Decidable c] {a b : State} (ha : P a.dev) (hb : P b.dev) :
    P (if c then a else b).dev := by split <;> assumption

/-- A command keeps what every event keeps. -/
theorem exec_kept {P : Dev → Prop} (hP : Kept P) {c : Instr} {s t : State} (he : exec c s = .next t) (h : P s.dev) :
    P t.dev := by
  cases c <;> cases he
  case hardwareReset => exact State.serveHeld_kept hP (hP.1 _ _ (hP.2.2 _))
  case softReset => exact State.ite_kept (State.ite_kept (State.actSoftReset_kept hP h) h) h
  case start => exact State.ite_kept (State.withDev_kept hP (.start _) (State.ite_kept (a := s) h h)) h
  case halt => exact State.command_kept hP .halt h
  case resume => exact State.command_kept hP .resume h
  case abort => exact State.command_kept hP .abort h
  case poll => exact State.ite_kept (State.attention_kept hP _ h) h
  case ignoredRegisterWrite => exact h
  case hostWrite addr v =>
    refine State.ite_kept (State.ite_kept (State.acceptWrite_kept hP _ _ h) h) h
  case hostRead addr =>
    show P (State.hostRead _ s).dev
    unfold State.hostRead
    repeat' split
    all_goals exact h
  case arbiterGrant => exact State.grant_kept hP h
  case takeOrder => exact State.ite_kept (State.withDev_kept hP (.takeOrder _) (State.ite_kept (a := s) h h)) h
  case cardEcho => exact State.withDev_kept hP (.echo _) h
  case echoWindowExpiry => exact State.withDev_kept hP .echoMissing h
  case cardFrameEnd => exact State.withDev_kept hP .frameEnd h
  case releaseTimerExpiry => exact State.ite_kept (State.withDev_kept hP .releaseExpired h) h
  case settleTimerExpiry => exact State.ite_kept (State.withDev_kept hP .settleExpired h) h
  case offTimerExpiry => exact State.ite_kept (State.withDev_kept hP .offExpired h) h
  case unparkSettleExpiry => exact State.ite_kept (State.withDev_kept hP .unparkSettled h) h
  case converterSample => exact State.withDev_kept hP (.sample _ _ _) h
  case rampTimerExpiry => exact State.withDev_kept hP .rampExpired h
  case dwellTimerExpiry => exact State.withDev_kept hP .dwellExpired h
  case locateDwellExpiry => exact State.withDev_kept hP .locateDwellExpired h
  case trip => exact State.withDev_kept hP .trip h
  case arcPulse => exact State.withDev_kept hP .arcPulse h
  case dischargeTimerExpiry => exact State.withDev_kept hP .dischargeExpired h
  case interlockOpening => exact State.ite_kept h (State.withDev_kept hP .interlockOpens h)
  case interlockClosing => exact State.ite_kept (State.withDev_kept hP .interlockCloses h) h
  case formatLine => exact State.withDev_kept hP .formatLine h
  case characterFrameEnd => exact State.withDev_kept hP .frameOut h
  case printerReadyAsserted => exact State.withDev_kept hP (.setReady _) h
  case printerReadyReleased => exact State.withDev_kept hP (.setReady _) h
  case paperOutAsserted => exact State.withDev_kept hP (.setPaperOut _) h
  case paperOutReleased => exact State.withDev_kept hP (.setPaperOut _) h
  all_goals exact State.attention_kept hP _ h

/-! ## The events keep the invariants -/

@[simp] theorem Hv.sample_openRec (h : Hv) (v : Int) : (h.sample v).1.openRec = h.openRec := by
  unfold Hv.sample Hv.drain; dsimp only; repeat' split
  all_goals rfl

@[simp] theorem Hv.countArc_openRec (h : Hv) : h.countArc.openRec = h.openRec := rfl

@[simp] theorem Dev.sample_blocks (x y z : Int) (d : Dev) :
    (d.sample x y z).mgr = d.mgr ∧ (d.sample x y z).ins.dSide = d.ins.dSide ∧ (d.sample x y z).pins = d.pins ∧
      (d.sample x y z).hv.openRec = d.hv.openRec := by
  unfold Dev.sample; dsimp only; split <;> simp

@[simp] theorem Dev.arcPulse_blocks (d : Dev) :
    d.arcPulse.mgr = d.mgr ∧ d.arcPulse.ins.dSide = d.ins.dSide ∧ d.arcPulse.pins = d.pins ∧
      d.arcPulse.hv.openRec = d.hv.openRec := by
  unfold Dev.arcPulse; dsimp only; (repeat' split) <;> simp

@[simp] theorem Dev.dischargeExpired_blocks (d : Dev) :
    d.dischargeExpired.mgr = d.mgr ∧ d.dischargeExpired.search = d.search ∧
      d.dischargeExpired.ins.dSide = d.ins.dSide ∧ d.dischargeExpired.pins = d.pins ∧
      d.dischargeExpired.hv.openRec = d.hv.openRec := by
  unfold Dev.dischargeExpired; split <;> simp [Dev.lockOut, Hv.lockOut]

theorem kept_mgrOk : Kept fun d => d.mgr.Ok := by
  refine ⟨fun q d h => Dev.settle_mgrOk q h, fun f hf d h => ?_, fun d => Manager.ok_softReset Manager.reset⟩
  cases hf
  case softReset => exact Dev.softReset_mgrOk h
  all_goals simpa using h

theorem Dev.trip_searchOk {d : Dev} (h : d.SearchOk) : d.trip.SearchOk := by
  unfold Dev.trip; split
  · exact Dev.stepBroken_searchOk _ (Dev.searchOk_of_eq h (by simp) (by simp))
  · exact h

theorem Dev.arcPulse_searchOk {d : Dev} (h : d.SearchOk) : d.arcPulse.SearchOk := by
  unfold Dev.arcPulse
  dsimp only
  repeat' split
  · exact Dev.stepBroken_searchOk _ (Dev.searchOk_of_eq h (by simp) (by simp))
  all_goals exact h

theorem Dev.sample_searchOk {d : Dev} (x y z : Int) (h : d.SearchOk) : (d.sample x y z).SearchOk := by
  unfold Dev.sample
  dsimp only
  split
  · exact Dev.measured_searchOk _ (Dev.searchOk_of_eq h (by simp) (by simp))
  · exact Dev.searchOk_of_eq h (by simp) (by simp)

theorem Dev.startInsulate_side (o : Order) {d : Dev} (_ : d.ins.dSide.length ≤ 4096) :
    (d.startInsulate o).ins.dSide.length ≤ 4096 := by
  unfold Dev.startInsulate
  repeat' split
  all_goals first | (simp; done) | simp [insulContext, Insul.reset]

theorem Dev.startOwner_side (k : Kind) (o : Order) {d : Dev} (h : d.ins.dSide.length ≤ 4096) :
    (d.startOwner k o).ins.dSide.length ≤ 4096 := by
  unfold Dev.startOwner
  split
  case h_9 => exact Dev.startInsulate_side o h
  all_goals simpa using h

theorem Dev.takeOrder_searchOk {d : Dev} (p : Nat → Word) (h : d.SearchOk) : (d.takeOrder p).SearchOk := by
  refine ⟨by simpa using h.1, ?_⟩
  unfold Dev.takeOrder
  dsimp only
  repeat' split
  case h_2 => exact Dev.startOwner_side _ _ (by simpa using h.2)
  all_goals simpa using h.2

theorem Dev.softReset_searchOk (d : Dev) : d.softReset.SearchOk := by
  refine ⟨?_, ?_⟩
  · simp [Dev.softReset]; exact Search.ok_reset
  · simp [Dev.softReset]; decide

theorem kept_searchOk : Kept Dev.SearchOk := by
  refine ⟨fun q d h => Dev.settle_searchOk q h, fun f hf d h => ?_, fun d => ⟨Search.ok_reset, Nat.zero_le _⟩⟩
  cases hf
  case softReset => exact Dev.softReset_searchOk d
  case sample => exact Dev.sample_searchOk _ _ _ h
  case trip => exact Dev.trip_searchOk h
  case arcPulse => exact Dev.arcPulse_searchOk h
  case resume => exact Dev.resume_searchOk h
  case takeOrder => exact Dev.takeOrder_searchOk _ h
  all_goals exact Dev.searchOk_of_eq h (by simp) (by simp)

theorem kept_interlock : Kept Dev.InterlockRecorded := by
  refine ⟨fun q d h => Dev.settle_invariant (P := Dev.InterlockRecorded) q (fun d h => by simpa [Dev.InterlockRecorded] using h)
    (fun t d h => ?_) (fun _ _ h => h) h, fun f hf d h => ?_, fun d => rfl⟩
  · cases t <;> simpa [Dev.InterlockRecorded, runTask] using h
  · unfold Dev.InterlockRecorded at *
    cases hf
    case interlockOpens => unfold Dev.interlockOpens; dsimp only; split <;> simp
    case interlockCloses => rfl
    case setReady => unfold Dev.setReady; simpa using h
    case setPaperOut => unfold Dev.setPaperOut; simpa using h
    all_goals simpa using h

/-- A printer port whose lines are as they were. -/
theorem Tx.ok_iff (t : Tx) : t.Ok ↔ t.discard ≤ 1 ∧ t.fill ≤ 4 := by unfold Tx.Ok Tx.fill; omega

theorem Tx.ok_softReset {t : Tx} (_ : t.Ok) : t.softReset.Ok := by
  unfold Tx.softReset Tx.Ok
  split <;> simp

@[simp] theorem Dev.beginChar_discard (d : Dev) : d.beginChar.tx.discard = d.tx.discard := by
  unfold Dev.beginChar; split <;> rfl

@[simp] theorem Dev.joinQueue_discard (x : Text) (d : Dev) : (d.joinQueue x).tx.discard = d.tx.discard := by
  unfold Dev.joinQueue; dsimp only; split
  · rw [Dev.beginChar_discard]; rfl
  · rfl

@[simp] theorem Dev.retryChar_discard (d : Dev) : d.retryChar.tx.discard = d.tx.discard := by
  unfold Dev.retryChar; split <;> simp

@[simp] theorem Dev.startConfigure_discard (o : Order) (d : Dev) :
    (d.startConfigure o).tx.discard = d.tx.discard := by
  unfold Dev.startConfigure
  dsimp only; (repeat' split) <;> simp

@[simp] theorem Dev.startOwner_discard (k : Kind) (o : Order) (d : Dev) :
    (d.startOwner k o).tx.discard = d.tx.discard := by
  unfold Dev.startOwner; split <;> simp

@[simp] theorem Dev.takeOrder_discard (p : Nat → Word) (d : Dev) : (d.takeOrder p).tx.discard = d.tx.discard := by
  unfold Dev.takeOrder
  dsimp only; (repeat' split) <;> simp

theorem Dev.nextLine_discard (b : Bool) (d : Dev) : (d.nextLine b).tx.discard = d.tx.discard := by
  unfold Dev.nextLine
  dsimp only
  split
  · split <;> simp
  · rw [Dev.beginChar_discard]; rfl

theorem Dev.charEnd_discard {d : Dev} (h : d.tx.discard ≤ 1) : d.charEnd.tx.discard ≤ 1 := by
  unfold Dev.charEnd
  repeat' split
  · rw [Dev.nextLine_discard]; simp
  · rw [Dev.beginChar_discard]; exact h
  · rw [Dev.nextLine_discard]; exact h

theorem Dev.fmtPlace_discard (d : Dev) : d.fmtPlace.tx.discard = d.tx.discard := by
  unfold Dev.fmtPlace
  repeat' split
  all_goals simp

theorem runTask_txOk (q : List (Nat × Word)) (t : Task) {d : Dev} (h : d.tx.Ok) : (runTask q t d).tx.Ok := by
  cases t
  case fmtPlace =>
    rw [Tx.ok_iff] at *
    exact ⟨(Dev.fmtPlace_discard d) ▸ h.1, Dev.fmtPlace_fill h.2⟩
  all_goals simpa [runTask] using h

theorem kept_txOk : Kept fun d => d.tx.Ok := by
  refine ⟨fun q d h => Dev.settle_invariant (P := fun d => d.tx.Ok) q (fun d h => by simpa using h)
    (fun t d h => runTask_txOk q t h) (fun _ _ h => h) h, fun f hf d h => ?_, fun d => ⟨Nat.zero_le _, Nat.zero_le _⟩⟩
  cases hf
  case softReset => simpa [Dev.softReset] using Tx.ok_softReset h
  case frameOut =>
    have h' := (Tx.ok_iff _).mp h
    unfold Dev.frameOut
    split
    · refine (Tx.ok_iff _).mpr ?_
      have e : d.charEnd.wakeRoom.tx = d.charEnd.tx := by unfold Dev.wakeRoom; split <;> rfl
      rw [e]
      exact ⟨Dev.charEnd_discard h'.1, (Dev.charEnd_fill d).trans h'.2⟩
    · exact h
  case sample => unfold Dev.sample; dsimp only; split <;> simpa using h
  case arcPulse => unfold Dev.arcPulse; dsimp only; (repeat' split) <;> simpa using h
  case dischargeExpired => unfold Dev.dischargeExpired; split <;> simpa [Dev.lockOut] using h
  case setReady => refine (Tx.ok_iff _).mpr ?_; unfold Dev.setReady; simpa using (Tx.ok_iff _).mp h
  case setPaperOut => refine (Tx.ok_iff _).mpr ?_; unfold Dev.setPaperOut; simpa using (Tx.ok_iff _).mp h
  case takeOrder => refine (Tx.ok_iff _).mpr ?_; simpa using (Tx.ok_iff _).mp h
  all_goals simpa using h

theorem Hv.sample_coverOff (v : Int) {h : Hv} (hc : h.coverOff = true) : (h.sample v).1.coverOff = true := by
  unfold Hv.sample Hv.drain
  dsimp only
  repeat' split
  all_goals simp_all [Hv.coverOff, Hv.sourceOn]

/-- No event turns the source on while the recorded interlock is open (R106, R115). -/
theorem kept_coverOff : Kept fun d => d.hv.coverOff = true := by
  refine ⟨fun q d h => Dev.settle_coverOff q h, fun f hf d h => ?_,
    fun d => by simp [Dev.hardwareReset, Dev.reset, Hv.coverOff, Hv.sourceOn, Hv.reset]⟩
  cases hf
  case sample x y z =>
    have := Hv.sample_coverOff y h
    unfold Dev.sample; dsimp only; split <;> simp [this]
  case arcPulse => unfold Dev.arcPulse; dsimp only; (repeat' split) <;> simp_all [Hv.coverOff, Hv.sourceOn, Hv.countArc]
  case dischargeExpired =>
    have : d.lockOut.hv.coverOff = true := by simp [Dev.lockOut, Hv.lockOut, Hv.coverOff, Hv.sourceOn]
    unfold Dev.dischargeExpired
    split
    · exact (Dev.wake_keeps _ _).2.2.2.2 ((Dev.wake_keeps _ _).2.2.2.2 ((Dev.faultArrives_keeps _).2.2.2.2 this))
    · exact h
  all_goals simp [h]

end Sys2Proof.Machine
end

