-- ==== Sys2Proof/Laws/Memory.lean ====
section
/-! SUPPORT. Sparse tables and test memory: what a read gives after a write, and that every write keeps the canonical
form; what the host write queue forwards. -/

namespace Sys2Proof.Machine

/-! ## Tables -/

theorem Tab.canonFrom_mono {α : Type} [DecidableEq α] {d : α} {t : Tab α} {a b : Nat}
    (h : Tab.canonFrom d b t = true) (hab : a ≤ b) : Tab.canonFrom d a t = true := by
  cases t with
  | nil => rfl
  | cons e t =>
    obtain ⟨k, v⟩ := e
    simp only [Tab.canonFrom, Bool.and_eq_true, decide_eq_true_eq] at h ⊢
    exact ⟨⟨by omega, h.1.2⟩, h.2⟩

/-- A key below the table's keys reads the default. -/
theorem Tab.get_below {α : Type} [DecidableEq α] {d : α} {t : Tab α} {low n : Nat}
    (h : Tab.canonFrom d low t = true) (hn : n < low) : Tab.get d t n = d := by
  cases t with
  | nil => rfl
  | cons e t =>
    obtain ⟨k, v⟩ := e
    simp only [Tab.canonFrom, Bool.and_eq_true, decide_eq_true_eq] at h
    have hk : n < k := by omega
    simp [Tab.get, hk]

/-- A write keeps the canonical form. -/
theorem Tab.canonFrom_set {α : Type} [DecidableEq α] {d : α} (t : Tab α) (low n : Nat) (v : α)
    (h : Tab.canonFrom d low t = true) (hn : low ≤ n) : Tab.canonFrom d low (Tab.set d t n v) = true := by
  induction t generalizing low with
  | nil =>
    by_cases hv : v = d
    · simp [Tab.set, hv, Tab.canonFrom]
    · simp [Tab.set, hv, Tab.canonFrom, hn]
  | cons e t ih =>
    obtain ⟨k, w⟩ := e
    simp only [Tab.canonFrom, Bool.and_eq_true, decide_eq_true_eq] at h
    by_cases h1 : n < k
    · by_cases hv : v = d
      · simp [Tab.set, h1, hv, Tab.canonFrom, h]
      · have hk : n + 1 ≤ k := h1
        simp [Tab.set, h1, hv, Tab.canonFrom, h, hn, hk]
    · by_cases h2 : n = k
      · by_cases hv : v = d
        · simp only [Tab.set, h2, hv, if_true]
          simpa using Tab.canonFrom_mono h.2 (by omega)
        · simp [Tab.set, h2, hv, Tab.canonFrom, h]
      · have := ih (k + 1) h.2 (by omega)
        simp [Tab.set, h1, h2, Tab.canonFrom, this, h]

/-- What a key reads after a write. -/
theorem Tab.get_set {α : Type} [DecidableEq α] {d : α} (t : Tab α) (low n : Nat) (v : α) (m : Nat)
    (h : Tab.canonFrom d low t = true) :
    Tab.get d (Tab.set d t n v) m = if m = n then v else Tab.get d t m := by
  induction t generalizing low with
  | nil =>
    by_cases hv : v = d
    · by_cases hm : m = n <;> simp [Tab.set, hv, Tab.get, hm]
    · by_cases hm : m = n
      · simp [Tab.set, hv, Tab.get, hm]
      · simp [Tab.set, hv, Tab.get, hm]
  | cons e t ih =>
    obtain ⟨k, w⟩ := e
    simp only [Tab.canonFrom, Bool.and_eq_true, decide_eq_true_eq] at h
    by_cases h1 : n < k
    · by_cases hv : v = d
      · by_cases hm : m = n
        · subst hm; simp [Tab.set, h1, hv, Tab.get]
        · simp [Tab.set, h1, hv, hm]
      · by_cases hm : m = n
        · subst hm; simp [Tab.set, h1, hv, Tab.get]
        · by_cases hmn : m < n
          · have hmk : m < k := by omega
            simp [Tab.set, h1, hv, Tab.get, hm, hmn, hmk]
          · simp [Tab.set, h1, hv, Tab.get, hm, hmn]
    · by_cases h2 : n = k
      · subst h2
        by_cases hv : v = d
        · by_cases hm : m = n
          · subst hm
            simp [Tab.set, hv, Tab.get_below h.2 (Nat.lt_succ_self m)]
          · by_cases hmn : m < n
            · have : Tab.get d t m = d := Tab.get_below h.2 (by omega)
              simp [Tab.set, hv, Tab.get, hm, hmn, this]
            · simp [Tab.set, hv, Tab.get, hm, hmn]
        · by_cases hm : m = n
          · subst hm; simp [Tab.set, hv, Tab.get]
          · by_cases hmn : m < n <;> simp [Tab.set, hv, Tab.get, hm, hmn]
      · have hkn : k < n := by omega
        simp only [Tab.set, h1, h2, if_false, Tab.get]
        by_cases hmk : m < k
        · have hm : m ≠ n := by omega
          simp [hmk, hm]
        · by_cases hmk2 : m = k
          · have hm : m ≠ n := by omega
            simp [hmk2, Nat.ne_of_lt hkn]
          · simp [hmk, hmk2, ih (k + 1) h.2]

/-! ## Bytes and words -/

theorem Memory.wf_setByte {m : Memory} (h : m.wf = true) (off : Nat) (b : Byte) : (m.setByte off b).wf = true :=
  Tab.canonFrom_set m 0 off b h (Nat.zero_le _)

theorem Memory.byte_setByte {m : Memory} (h : m.wf = true) (off : Nat) (b : Byte) (a : Nat) :
    (m.setByte off b).byte a = if a = off then b else m.byte a :=
  Tab.get_set m 0 off b a h

theorem Memory.wf_setWord {m : Memory} (h : m.wf = true) (off : Nat) (w : Word) : (m.setWord off w).wf = true :=
  Memory.wf_setByte (Memory.wf_setByte (Memory.wf_setByte (Memory.wf_setByte h _ _) _ _) _ _) _ _

/-- The bytes of memory after a word is written: its four bytes, least significant first, and every other as before. -/
theorem Memory.byte_setWord {m : Memory} (h : m.wf = true) (off : Nat) (w : Word) (a : Nat) :
    (m.setWord off w).byte a =
      if a = off + 3 then w.extractLsb' 24 8
      else if a = off + 2 then w.extractLsb' 16 8
      else if a = off + 1 then w.extractLsb' 8 8
      else if a = off then w.extractLsb' 0 8
      else m.byte a := by
  have h1 := Memory.wf_setByte h off (w.extractLsb' 0 8)
  have h2 := Memory.wf_setByte h1 (off + 1) (w.extractLsb' 8 8)
  have h3 := Memory.wf_setByte h2 (off + 2) (w.extractLsb' 16 8)
  rw [Memory.setWord, Memory.byte_setByte h3, Memory.byte_setByte h2, Memory.byte_setByte h1, Memory.byte_setByte h]

theorem Memory.wf_setWords {m : Memory} (h : m.wf = true) (off : Nat) (ws : List Word) : (m.setWords off ws).wf = true := by
  induction ws generalizing m off with
  | nil => exact h
  | cons w ws ih => exact ih (Memory.wf_setWord h off w) (off + 4)

/-- A word is its four bytes. -/
theorem word_of_bytes (w : Word) :
    w.extractLsb' 24 8 ++ w.extractLsb' 16 8 ++ w.extractLsb' 8 8 ++ w.extractLsb' 0 8 = w := by
  apply BitVec.eq_of_getLsbD_eq
  intro i hi
  simp only [BitVec.getLsbD_append, BitVec.getLsbD_extractLsb']
  by_cases h1 : i < 8
  · simp [h1]
  · by_cases h2 : i - 8 < 8
    · simp [h1, h2, show 8 + (i - 8) = i by omega]
    · by_cases h3 : i - 8 - 8 < 8
      · simp [h1, h2, h3, show 16 + (i - 8 - 8) = i by omega]
      · simp [h1, h2, h3, show 24 + (i - 8 - 8 - 8) = i by omega, show i - 8 - 8 - 8 < 8 by omega]

/-- A word read back where it was written. -/
theorem Memory.word_setWord_same {m : Memory} (h : m.wf = true) (off : Nat) (w : Word) :
    (m.setWord off w).word off = w := by
  simp only [Memory.word, Memory.byte_setWord h]
  have := word_of_bytes w
  simpa using this

/-- A word that no written byte lies in. -/
theorem Memory.word_setWord_apart {m : Memory} (h : m.wf = true) (off a : Nat) (w : Word)
    (ha : a + 3 < off ∨ off + 3 < a) : (m.setWord off w).word a = m.word a := by
  simp only [Memory.word, Memory.byte_setWord h]
  have e : ∀ i j, i < 4 → j < 4 → (a + i = off + j ↔ False) := by
    intro i j hi hj
    exact ⟨fun h => absurd h (by omega), False.elim⟩
  have e0 : ∀ j, j < 4 → (a = off + j ↔ False) := fun j hj => e 0 j (by omega) hj
  have f0 : ∀ i, i < 4 → (a + i = off ↔ False) := fun i hi => e i 0 hi (by omega)
  have f : a = off ↔ False := e 0 0 (by omega) (by omega)
  simp only [e, e0, f0, f, Nat.reduceLT, if_false]

/-! ## The fitted RAM -/

theorem ramWrite_wf {m : Memory} (h : m.wf = true) (ram off : Nat) (w : Word) : (ramWrite ram m off w).wf = true := by
  unfold ramWrite
  split
  · exact Memory.wf_setWord h _ _
  · exact h

theorem ramWrites_wf {m : Memory} (h : m.wf = true) (ram off : Nat) (ws : List Word) :
    (ramWrites ram m off ws).wf = true := by
  induction ws generalizing m off with
  | nil => exact h
  | cons w ws ih => exact ih (ramWrite_wf h ram off w) (off + 4)

theorem ramRead_inside {ram off : Nat} (m : Memory) (h : off < ram) : ramRead ram m off = m.word off := by
  simp [ramRead, ramTarget, h]

theorem ramWrite_inside {ram off : Nat} (m : Memory) (w : Word) (h : off < ram) : ramWrite ram m off w = m.setWord off w := by
  simp [ramWrite, ramTarget, h]

/-- A run of words within the RAM writes those words and no others. -/
theorem ramWrites_inside {ram : Nat} (m : Memory) (off : Nat) (ws : List Word) (h : off + 4 * ws.length ≤ ram) :
    ramWrites ram m off ws = m.setWords off ws := by
  induction ws generalizing m off with
  | nil => rfl
  | cons w ws ih =>
    simp only [List.length_cons] at h
    rw [ramWrites, Memory.setWords, ramWrite_inside m w (by omega), ih _ _ (by omega)]

/-- Bytes outside a run of words are as before. -/
theorem Memory.byte_setWords_outside {m : Memory} (h : m.wf = true) (off : Nat) (ws : List Word) (a : Nat)
    (ha : a < off ∨ off + 4 * ws.length ≤ a) : (m.setWords off ws).byte a = m.byte a := by
  induction ws generalizing m off with
  | nil => rfl
  | cons w ws ih =>
    simp only [List.length_cons] at ha
    rw [Memory.setWords, ih (Memory.wf_setWord h off w) (off + 4) (by omega), Memory.byte_setWord h]
    simp [show a ≠ off + 3 by omega, show a ≠ off + 2 by omega, show a ≠ off + 1 by omega, show a ≠ off by omega]

/-! ## The host write queue -/

/-- The newest queued value for an offset is missing exactly when no entry is for that offset (R192). -/
theorem newest_eq_none_iff {q : List (Nat × Word)} {off : Nat} : newest q off = none ↔ ∀ e ∈ q, e.1 ≠ off := by
  induction q with
  | nil => simp [newest]
  | cons e q ih =>
    obtain ⟨o, v⟩ := e
    simp only [newest, List.mem_cons, forall_eq_or_imp]
    cases h : newest q off with
    | some w =>
      rw [h] at ih
      simp only [reduceCtorEq, false_iff] at ih ⊢
      exact fun hc => ih hc.2
    | none =>
      have := ih.1 h
      by_cases ho : o = off <;> simp [ho]
      exact fun a b hab => this (a, b) hab

/-- An entry with no later one for its offset is the newest (R192). -/
theorem newest_append_cons {q1 q2 : List (Nat × Word)} {off : Nat} {v : Word} (h : ∀ e ∈ q2, e.1 ≠ off) :
    newest (q1 ++ (off, v) :: q2) off = some v := by
  induction q1 with
  | nil => simp [newest, newest_eq_none_iff.2 h]
  | cons e q ih => simp [newest, ih]

/-- A run is forwarded when each of its words is (R192). -/
theorem forwarded_eq_some_iff {q : List (Nat × Word)} {off n : Nat} {ws : List Word} :
    forwarded q off n = some ws ↔ ws.length = n ∧ ∀ i, i < n → newest q (off + 4 * i) = ws[i]? := by
  induction n generalizing off ws with
  | zero => cases ws <;> simp [forwarded]
  | succ n ih =>
    have key : ∀ i, off + 4 + 4 * i = off + 4 * (i + 1) := fun i => by omega
    have e : forwarded q off (n + 1) = some ws ↔
        ∃ w vs, newest q off = some w ∧ forwarded q (off + 4) n = some vs ∧ w :: vs = ws := by
      rw [forwarded]
      cases newest q off <;> cases forwarded q (off + 4) n <;> simp
    rw [e]
    constructor
    · rintro ⟨w, vs, h0, h1, rfl⟩
      obtain ⟨hl, hw⟩ := ih.1 h1
      refine ⟨by simp [hl], fun i hi => ?_⟩
      cases i with
      | zero => simpa using h0
      | succ i => rw [← key i, hw i (by omega)]; simp
    · rintro ⟨hl, hw⟩
      cases ws with
      | nil => simp at hl
      | cons w vs =>
        refine ⟨w, vs, by simpa using hw 0 (by omega), ih.2 ⟨by simpa using hl, fun i hi => ?_⟩, rfl⟩
        have := hw (i + 1) (by omega)
        rw [← key i] at this
        simpa using this

/-- A run is not forwarded when one of its words is not queued (R192). -/
theorem forwarded_eq_none_iff {q : List (Nat × Word)} {off n : Nat} :
    forwarded q off n = none ↔ ∃ i, i < n ∧ newest q (off + 4 * i) = none := by
  constructor
  · intro h
    by_contra hc
    have hs : ∀ i, i < n → ∃ w, newest q (off + 4 * i) = some w := fun i hi =>
      Option.ne_none_iff_exists'.1 fun hn => hc ⟨i, hi, hn⟩
    have : forwarded q off n = some ((List.range n).map fun i => (newest q (off + 4 * i)).getD 0) := by
      refine forwarded_eq_some_iff.2 ⟨by simp, fun i hi => ?_⟩
      obtain ⟨w, hw⟩ := hs i hi
      simp [hi, hw]
    rw [h] at this
    cases this
  · rintro ⟨i, hi, hn⟩
    cases h : forwarded q off n with
    | none => rfl
    | some ws =>
      obtain ⟨hl, hw⟩ := forwarded_eq_some_iff.1 h
      have := hw i hi
      rw [hn, List.getElem?_eq_getElem (by omega)] at this
      cases this

/-- A burst that is a write, or of which some word is not queued, takes its grant (R192, R194). -/
theorem answerQueued_cons_asks {q : List (Nat × Word)} {b : Burst} (bs : List Burst)
    (h : b.data ≠ none ∨ forwarded q b.off b.n = none) : answerQueued q (b :: bs) = ([], b :: bs, false) := by
  rw [answerQueued]
  cases hd : b.data with
  | some _ => rfl
  | none => simp only [hd, ne_eq, not_true_eq_false, false_or] at h; rw [h]

/-- A read burst whose words are all queued is answered with no grant, and the run goes on or ends with it (R192). -/
theorem answerQueued_cons_forwards {q : List (Nat × Word)} {b : Burst} {ws : List Word} (bs : List Burst)
    (hd : b.data = none) (h : forwarded q b.off b.n = some ws) :
    answerQueued q (b :: bs) =
      if b.last then (ws, bs, true)
      else (ws ++ (answerQueued q bs).1, (answerQueued q bs).2.1, (answerQueued q bs).2.2) := by
  rw [answerQueued, hd, h]

theorem State.reset_memory_wf : State.reset.mem.wf = true := rfl

end Sys2Proof.Machine
end

