-- ==== Sys2Proof/Laws/Points.lean ====
section
/-! SUPPORT. The points of the net tables: which are fitted and in which order they are listed, what a point reads after a
write of the point table, and what the loading of a learned net leaves. -/

namespace Sys2Proof.Machine

theorem mem_cardPoints (c p : Nat) : p ∈ cardPoints c ↔ 128 * c ≤ p ∧ p < 128 * c + 128 := by
  simp only [cardPoints, List.mem_map, List.mem_range]
  constructor
  · rintro ⟨a, h, rfl⟩; omega
  · intro h; exact ⟨p - 128 * c, by omega, by omega⟩

theorem Nets.mem_fittedPoints (t : Nets) (p : Nat) : p ∈ t.fittedPoints ↔ t.isFitted p = true := by
  simp only [Nets.fittedPoints, List.mem_flatMap, List.mem_filter, cardNumbers, List.mem_range, mem_cardPoints,
    Nets.isFitted, cardOf, Bool.and_eq_true, decide_eq_true_eq]
  constructor
  · rintro ⟨c, ⟨_, h2⟩, h3⟩
    have : p / 128 = c := by omega
    subst this; exact ⟨by omega, h2⟩
  · rintro ⟨h1, h2⟩
    exact ⟨p / 128, ⟨by omega, h2⟩, by omega⟩

/-- The fitted points are listed in ascending order, so a search among them finds the lowest first. -/
theorem Nets.fittedPoints_ascending (t : Nets) : t.fittedPoints.Pairwise (· < ·) := by
  unfold Nets.fittedPoints
  rw [List.pairwise_flatMap]
  refine ⟨fun a _ => ?_, ?_⟩
  · simp only [cardPoints]
    rw [List.pairwise_map]
    exact List.pairwise_lt_range.imp (by intros; omega)
  · refine (List.pairwise_lt_range.filter _).imp ?_
    intro a b _ x hx y hy
    rw [mem_cardPoints] at hx hy
    omega

/-- What a point reads after a write of the point table. -/
theorem Nets.pt_setPt (t : Nets) (p : Nat) (x : Pt) (h : Tab.canonFrom Pt.free 0 t.points = true) (q : Nat) :
    (t.setPt p x).pt q = if q = p then x else t.pt q := Tab.get_set _ _ _ _ _ h

/-- Points loaded one after another into net m (R52, R62): the member array grows by them, each takes the net index, and no
other point and no other table changes. -/
theorem Nets.loadAll (m : Nat) (ks : List Nat) (t : Nets) (h : Tab.canonFrom Pt.free 0 t.points = true) :
    ks.foldl (fun u p => u.load m p) t =
      { t with points := (ks.foldl (fun u p => u.load m p) t).points, members := t.members ++ ks } ∧
    (∀ p ∈ ks, (ks.foldl (fun u p => u.load m p) t).pt p = ⟨m, .untested, (t.pt p).att⟩) ∧
    ∀ p, p ∉ ks → (ks.foldl (fun u p => u.load m p) t).pt p = t.pt p := by
  induction ks generalizing t with
  | nil => simp
  | cons k ks ih =>
    have hp : ∀ x, (t.load m k).pt x = if x = k then ⟨m, .untested, (t.pt k).att⟩ else t.pt x := fun x =>
      Nets.pt_setPt t k _ h x
    obtain ⟨i1, i2, i3⟩ := ih (t.load m k) (Tab.canonFrom_set _ _ _ _ h (Nat.zero_le _))
    simp only [List.foldl_cons]
    refine ⟨?_, fun p hm => ?_, fun p hm => ?_⟩
    · rw [i1]; simp [Nets.load, Nets.setPt]
    · by_cases hk : p ∈ ks
      · rw [i2 p hk, hp]; split
        · rename_i e; subst e; rfl
        · rfl
      · rw [i3 p hk, hp]
        rcases List.mem_cons.1 hm with rfl | h'
        · simp
        · exact absurd h' hk
    · rw [List.mem_cons, not_or] at hm
      rw [i3 p hm.2, hp, if_neg hm.1]

/-- A learned net is loaded: its entry, its members, and its points (R62, R97). -/
theorem Nets.loadNet_eq (ks : List Nat) (t : Nets) (h : Tab.canonFrom Pt.free 0 t.points = true) :
    t.loadNet ks =
      { t with
        count := t.count + 1
        table := Tab.set Net.none t.table (t.count + 1) { Net.none with start := t.members.length, count := ks.length }
        members := t.members ++ ks
        points := (t.loadNet ks).points } ∧
    (∀ p ∈ ks, (t.loadNet ks).pt p = ⟨t.count + 1, .untested, (t.pt p).att⟩) ∧
    ∀ p, p ∉ ks → (t.loadNet ks).pt p = t.pt p := by
  obtain ⟨i1, i2, i3⟩ := Nets.loadAll (t.count + 1) ks
    { t with
      count := t.count + 1
      table := Tab.set Net.none t.table (t.count + 1) { Net.none with start := t.members.length, count := ks.length } } h
  exact ⟨i1, i2, i3⟩

end Sys2Proof.Machine
end

