-- ==== Sys2Proof/Laws/Words.lean ====
section
/-! SUPPORT. The fields of a word put together from bytes or halfwords. -/

namespace Sys2Proof.Machine

theorem bytes4_toNat (x0 x1 x2 x3 : Nat) :
    (bytes4 x0 x1 x2 x3).toNat = x0 % 256 + 256 * (x1 % 256) + 65536 * (x2 % 256) + 16777216 * (x3 % 256) := by
  simp only [bytes4, BitVec.toNat_ofNat]; omega

@[simp] theorem b0_bytes4 (x0 x1 x2 x3 : Nat) : b0 (bytes4 x0 x1 x2 x3) = x0 % 256 := by
  simp only [b0, bytes4_toNat]; omega

@[simp] theorem b1_bytes4 (x0 x1 x2 x3 : Nat) : b1 (bytes4 x0 x1 x2 x3) = x1 % 256 := by
  simp only [b1, bytes4_toNat]; omega

@[simp] theorem b2_bytes4 (x0 x1 x2 x3 : Nat) : b2 (bytes4 x0 x1 x2 x3) = x2 % 256 := by
  simp only [b2, bytes4_toNat]; omega

@[simp] theorem b3_bytes4 (x0 x1 x2 x3 : Nat) : b3 (bytes4 x0 x1 x2 x3) = x3 % 256 := by
  simp only [b3, bytes4_toNat]; omega

theorem loHi_toNat (l h : Nat) : (loHi l h).toNat = l % 65536 + 65536 * (h % 65536) := by
  simp only [loHi, BitVec.toNat_ofNat]; omega

@[simp] theorem lo_loHi (l h : Nat) : lo (loHi l h) = l % 65536 := by
  simp only [lo, loHi_toNat]; omega

@[simp] theorem hi_loHi (l h : Nat) : hi (loHi l h) = h % 65536 := by
  simp only [hi, loHi_toNat]; omega

end Sys2Proof.Machine
end

