-- ==== Sys2Proof/Tests/Slice0.lean ====
section
/-! SUPPORT. Tests: ill-formed terms that the check refuses, register words written out from R207, worked examples of the
spec, and for each statement a state and operands that meet its hypotheses, clause by clause. -/

namespace Sys2Proof.Tests

open Sys2Proof.Machine

/-! ## Helpers -/

/-- The state after reset with its blocks changed. -/
def onDev (f : Dev → Dev) : State := { State.reset with dev := f State.reset.dev }

/-- The same, with the attention unit and the status area following the blocks. -/
def following (f : Dev → Dev) : State := { State.reset with dev := (f State.reset.dev).sync }

theorem following_follows (f : Dev → Dev) : (following f).dev.Follows := Dev.sync_follows _

/-- An order of a kind code at offset 0x80. -/
def order (code : Nat) (st : OStatus) : Order := contextOf 0x80 (wordOf code) 0 [] st false 0

/-- The reader, the matrix, the HV controller and so on after reset, changed. -/
def withReader (f : Reader → Reader) (d : Dev) : Dev := { d with reader := f d.reader }
def withMx (f : Matrix → Matrix) (d : Dev) : Dev := { d with mx := f d.mx }
def withHv (f : Hv → Hv) (d : Dev) : Dev := { d with hv := f d.hv }
def withAttn (f : Attn → Attn) (d : Dev) : Dev := { d with attn := f d.attn }

/-- Bound to 4 MiB with no tables. -/
def bound4M : Bind := ⟨4194304, 0, 0, 0, 0, 0, 0⟩

/-- Card 0 PRESENT. -/
def oneCard : Tab Card := [(0, ⟨.present, 0⟩)]

/-! ## Well-formedness (R12, R191) -/

theorem test_shortEcho_refused : (Instr.cardEcho (List.replicate 127 .none)).wellFormed = false := by decide +kernel
theorem test_fullEcho_accepted : (Instr.cardEcho (List.replicate 128 .none)).wellFormed = true := by decide +kernel
theorem test_namedRunCode_refused : (Instr.ignoredRegisterWrite 1 5).wellFormed = false := by decide
theorem test_namedAttnCode_refused : (Instr.ignoredRegisterWrite 2 10).wellFormed = false := by decide
theorem test_maskWrite_refused : (Instr.ignoredRegisterWrite 3 0).wellFormed = false := by decide
theorem test_unnamedWrites_accepted :
    (Instr.ignoredRegisterWrite 0 7).wellFormed = true ∧ (Instr.ignoredRegisterWrite 1 6).wellFormed = true ∧
    (Instr.ignoredRegisterWrite 1 0).wellFormed = true ∧ (Instr.ignoredRegisterWrite 2 11).wellFormed = true := by decide

/-! ## Register words (R207) -/

theorem test_runWords :
    registerCommand 1 0x00000001 = .start ∧ registerCommand 1 0x00000005 = .softReset ∧
    registerCommand 1 0x00000006 = .ignoredRegisterWrite 1 6 := by decide
theorem test_attnWords :
    registerCommand 2 0x00000302 = .closeSource 3 ∧ registerCommand 2 0x00000704 = .setBottom 7 ∧
    registerCommand 2 0x0000000A = .selectiveOff ∧ registerCommand 3 0x000000F0 = .maskWrite 0xF0 := by decide
theorem test_noTableWord : decodeTableWord 32 1 = none := rfl
theorem test_fetchWordChangesNothing : State.reset.withFetchWord 32 1 = State.reset := rfl
theorem test_identAfterReset : identRead = 0x00123260 ∧ State.reset.dev.runRead = 0 ∧
    State.reset.dev.viewRead = 0x07FF0000 := by decide

/-! ## Worked examples of the spec -/

/-- The note of R34: the sum 6401 over 4 samples at H gives 1000. -/
theorem test_rawResistanceExample : rawResistance 6401 (Rng.k .h) 32768 4 = 1000 := by decide
/-- The table of R108. -/
theorem test_rampTimeouts : rampTimeout 500 500 = 2100 ∧ rampTimeout 1500 100 = 30100 ∧ rampTimeout 50 300 = 434 ∧
    rampTimeout 1500 5000 = 700 := by decide
/-- The worked ZERO of chapter 2. -/
theorem test_zeroCodes : zeroCodeOf 128 = 2 ∧ zeroCodeOf (-192) = -3 ∧ zeroCodeOf 32 = 1 ∧ zeroCodeOf 768 = 12 ∧
    zeroCodeOf 96 = 2 ∧ zeroCodeOf (-32) = -1 ∧ zeroCodeOf 64512 = 1008 := by decide
/-- The worked window of chapter 7: averages 20000 and 10002 over 1000 samples at L2 with zero code 2 give 200 megohms. -/
theorem test_windowExample : insulationResistance 20000000 10002000 1000 false .l2 2 = ⟨200, .none, .l2⟩ := by decide
/-- The lines of the ticket of chapter 9. -/
theorem test_ticketTexts : ohmText 2650 = chars ['2', '.', '6', '5', 'R'] ∧ ohmText 5000 = chars ['5', '.', '0', '0', 'R'] ∧
    ohmText 190 = chars ['1', '9', '0', 'm'] ∧ (LabelOf.point 900).plain = chars ['P', '0', '9', '0', '0'] ∧
    footerLine 3 = chars ['E', 'N', 'D', ' ', '3'] := by decide
/-- Entry 1 of that ticket: 43 characters; its title: 48. -/
theorem test_ticketLines :
    (entryLine .default 0 [chars ['H', 'R', 'E', 'S'], chars ['P', '0', '9', '0', '0'], chars ['N', '0', '0', '0', '7'],
      chars ['2', '.', '6', '5', 'R'], chars ['2'], []]).length = 43 ∧
    (titleLine { Layout.default with title := chars ['L', 'O', 'O', 'M', ' ', '4', '4', '7', '1'] } 0xC01 3).length = 48 := by
  decide +kernel
/-- A poll of the sources 2 and 4 in the default order gives 2. -/
theorem test_pollExample : ∃ t, exec .poll (following (withAttn fun a => { a with req := 0x14, msk := 0 })) = .next t ∧
    t.hostData = some 0x80000002 ∧ t.dev.attn.svc = 0x04 ∧ t.dev.attn.req = 0x10 := ⟨_, rfl, by decide +kernel⟩
/-- A write and the read that is forwarded from it. -/
theorem test_forwardExample : ∃ t, exec (.hostRead 9) { State.reset with hostQ := [(36, 1), (36, 2)] } = .next t ∧
    t.hostData = some 2 := ⟨_, rfl, by decide⟩
/-- A drain puts the word's bytes in ascending order into memory. -/
theorem test_drainExample : ∃ t, exec .arbiterGrant { State.reset with hostQ := [(8, 0x04030201)] } = .next t ∧
    t.mem = [⟨8, 1⟩, ⟨9, 2⟩, ⟨10, 3⟩, ⟨11, 4⟩] ∧ t.hostQ = [] := ⟨_, rfl, by decide⟩

/-! ## Hypotheses that are met: the step and the invariants -/

theorem test_emptyQueue_met : State.reset.pending = [] := rfl

theorem test_noGrant_met : Instr.poll ≠ .arbiterGrant ∧ ∃ t, exec .poll State.reset = .next t := ⟨by decide, _, rfl⟩

/-- A state with a command waiting, a full write queue with a write held off, and a full print queue. -/
def busy : State :=
  { following fun d => { d with tx := { d.tx with queue := [[65], [66], [67], [68]], state := .hold } } with
    hostQ := List.replicate 8 (0x40, 1), hostWait := some (.write 0x44 2), pending := [.arbiterGrant] }

theorem test_invariants_met : busy.mem.wf = true ∧ busy.HostPortOk ∧ busy.dev.tx.fill = 4 ∧ ∃ t, step busy = .next t :=
  ⟨by decide, ⟨by decide, rfl⟩, by decide +kernel, _, rfl⟩
theorem test_followsInvariant_met : busy.dev.Follows := Dev.sync_follows _

/-- A search of 4 candidates whose lower half waits and whose upper half is being judged, with a command waiting. -/
def splitting : State :=
  { onDev fun d =>
      { d with search := { d.search with
          state := .searching, buf := [(4, false), (5, false), (6, true), (9, false)], cur := some ⟨0, 2, ⟨5, .none, .l⟩⟩
          stack := [⟨2, 2, ⟨5, .none, .l⟩⟩], user := .isolate } } with pending := [.poll] }

theorem test_searchInvariant_met : splitting.dev.SearchOk ∧ splitting.dev.search.stack[0]? = some ⟨2, 2, ⟨5, .none, .l⟩⟩ ∧
    ∃ t, step splitting = .next t :=
  ⟨⟨⟨by decide, ⟨by decide, by decide, by decide, by decide, trivial⟩, by decide, by rintro e ⟨⟩; decide⟩, by decide⟩, rfl, _, rfl⟩

/-- A line marked by a soft reset with four new lines behind it, and one alone. -/
def marked (n : Nat) : State :=
  { onDev fun d =>
      { d with
        pins := { d.pins with printerReady := true }
        tx := { d.tx with queue := [65] :: List.replicate n [66], state := .sending, pos := 1, discard := 1 } } with
    pending := [.poll] }

theorem test_printerInvariant_met : (marked 4).dev.tx.Ok ∧ (marked 4).dev.tx.queue.length = 5 ∧ (marked 4).dev.tx.fill = 4 ∧
    ∃ t, step (marked 4) = .next t := ⟨⟨by decide, by decide⟩, by decide, by decide, _, rfl⟩

/-- The interlock recorded open as its input is, the source off, with a command waiting. -/
def coverOpen : State :=
  { onDev fun d => { withHv (fun h => { h with openRec := true }) d with pins := { d.pins with interlockOpen := true } } with
    pending := [.poll] }

theorem test_coverInvariant_met : coverOpen.dev.hv.openRec = true ∧ coverOpen.dev.hv.sourceOn = false ∧
    coverOpen.dev.hv.openRec = coverOpen.dev.pins.interlockOpen ∧
    ∃ t, step coverOpen = .next t ∧ t.dev.hv.openRec = true := ⟨rfl, rfl, rfl, _, rfl, rfl⟩

theorem test_lockout_met :
    (onDev (withHv fun h => { h with lockout := true })).dev.hv.lockout = true ∧ Instr.softReset ≠ .hardwareReset ∧
    (∃ t, exec .softReset (onDev (withHv fun h => { h with lockout := true })) = .next t) ∧
    ∃ d : Dev, d.hv.lockout = true ∧ d.nets.mapValid = true :=
  ⟨rfl, by decide, ⟨_, rfl⟩,
    { State.reset.dev with hv := { Hv.reset false with lockout := true }, nets := { Nets.reset with mapValid := true } }, rfl, rfl⟩

theorem test_following_met : State.reset.dev.reader.state = .stopped ∧ State.reset.dev.Resting ∧
    (following id).dev.Resting ∧ (following id).dev.Follows :=
  ⟨rfl, .inr rfl, .inr (by simp [following]; rfl), following_follows id⟩

/-! ## The attention unit -/

/-- Nested: source 0 in service lowest; selective: 2 in service, 4 eligible. -/
theorem test_eligible_met :
    ({ Attn.reset with req := 0x14, msk := 0 } : Attn).eligible = some 2 ∧
    ({ Attn.reset with req := 0x80, msk := 0, svc := 0x01, lowest := 0 } : Attn).eligible = some 7 ∧
    ({ Attn.reset with req := 0x14, msk := 0, svc := 0x04, selective := true } : Attn).eligible = some 4 := by decide

theorem test_poll_met :
    (following (withAttn fun a => { a with req := 0x80, msk := 0, lowest := 7 })).hostWait = none ∧
    (following (withAttn fun a => { a with req := 0x40, msk := 0, lowest := 5 })).dev.attn.eligible = some 6 ∧
    (following id).dev.attn.eligible = none := by decide +kernel

theorem test_closeTop_met : (onDev (withAttn fun a => { a with svc := 0x81, selective := true, msk := 1 })).dev.attn.IsTop 7 :=
  by simp only [Attn.IsTop]; decide
theorem test_nothingToClose_met :
    (∀ x, ¬ (following (withAttn fun a => { a with svc := 1, selective := true, msk := 1 })).dev.attn.IsTop x) ∧
    (following (withAttn fun a => { a with svc := 1 })).dev.Follows ∧
    hasSrc (following (withAttn fun a => { a with svc := 1 })).dev.attn.svc 7 = false :=
  ⟨by simp only [Attn.IsTop]; decide +kernel, following_follows _, by decide +kernel⟩

theorem test_resets_met : State.reset.hostWait = none ∧ State.reset.hostQ = [] ∧ State.reset.dev.mgr.state ≠ .recording ∧
    State.reset.dev.mgr.state ≠ .clearing := by decide

/-! ## The host port and the arbiter -/

theorem test_hostWrite_met :
    { following id with hostQ := List.replicate 7 (4, 0) }.hostQ.length < 8 ∧ (following id).dev.Follows ∧
    (following id).dev.Resting ∧ ¬ (following id).dev.NoticesWrite (4 * (0xFFFFF : BitVec 20).toNat) ∧
    { State.reset with hostQ := List.replicate 8 (4, 0) }.hostQ.length = 8 :=
  ⟨by decide, following_follows id, .inr (by simp [following]; rfl), by
    rintro (⟨h, _⟩ | ⟨h, _⟩)
    · revert h; decide +kernel
    · revert h; decide, by decide⟩

theorem test_hostRead_met :
    { State.reset with hostQ := [(4194300, 1), (4194300, 2)] }.hostQ =
      [(4194300, 1)] ++ (4 * (0xFFFFF : BitVec 20).toNat, 2) :: [] ∧
    ∀ e ∈ State.reset.hostQ, e.1 ≠ 4 * (0 : BitVec 20).toNat := by decide

/-- A reader WAITING at a word, with an order held. -/
def waitingAt (w : Watch) : State :=
  onDev (withReader fun r =>
    { r with state := .waiting, watch := some w, bind := some bound4M, order := some (order 2 .done) })

theorem test_watchedWrite_met :
    (waitingAt (.link 0x84)).dev.reader.state = .waiting ∧ (Watch.link 0x84).off = 4 * (0x21 : BitVec 20).toNat ∧
    Watch.chainHead.off = 4 * (1 : BitVec 20).toNat ∧ (Watch.header 0x80).off = 4 * (0x20 : BitVec 20).toNat ∧
    headerFits 0x80 (waitingAt (.link 0x84)).dev.memEnd = true ∧
    headerFits 4194292 (waitingAt (.link 0x84)).dev.memEnd = true ∧
    headerFits 0x7C (waitingAt (.link 0x84)).dev.memEnd = false ∧
    headerFits 4194296 (waitingAt (.link 0x84)).dev.memEnd = false ∧
    isPosted 0x00010002 = true ∧ isPosted 0x00020002 = false := by decide

/-- The same, with the status area being written and following the blocks. -/
def waitingLive (w : Watch) : State :=
  following fun _ => withReader (fun r => { r with imageLive := true }) (waitingAt w).dev

theorem test_wakeIsWritten_met :
    (waitingLive (.link 0x84)).dev.reader.state = .waiting ∧ (waitingLive (.link 0x84)).dev.reader.imageLive = true ∧
    (waitingLive (.link 0x84)).dev.ImageFollows ∧ (waitingLive (.header 0x80)).dev.ImageFollows ∧
    (waitingLive .chainHead).dev.reader.order = some (order 2 .done) ∧
    headerFits 0x82 (waitingLive (.link 0x84)).dev.memEnd = false :=
  ⟨by decide +kernel, by decide +kernel, (following_follows _).2.2, (following_follows _).2.2, by decide +kernel,
    by decide +kernel⟩

/-- R174, R180, R182: a WAITING reader that finds a link of 0x82, no multiple of 4, is RUNNING, which is written, and then
HALTED with BAD_LINK, which is written after it. -/
theorem test_badLinkWake_writesRunning :
    let d := (runTask [] (.rereadGot (.link 0x84)) { (waitingLive (.link 0x84)).dev with engineQ := [], rbuf := [0x82] }).sync
    let e := (runTask [] (.woken (.link 0x84)) { d with tasks := [] }).sync
    d.tasks = [.woken (.link 0x84)] ∧ d.engineQ = [⟨0x20, 1, some [0x00000001], false, true⟩] ∧
    e.engineQ = d.engineQ ++ [⟨0x20, 1, some [0x00000303], false, true⟩] ∧ e.tasks = [] := by decide +kernel

theorem test_readGrant_met :
    { State.reset with hostWait := some (.read 4194300) }.dev.engineQ = [] ∧ 4194300 < State.reset.ramBytes ∧
    { onDev fun d => { d with engineQ := [⟨0x20, 1, some [0], false, true⟩] } with hostWait := some (.read 0) }.lastGrant =
      .engine := by decide

theorem test_drain_met : State.reset.mem.wf = true ∧ { State.reset with hostQ := [(4194300, 5)] }.hostQ = (4194300, 5) :: [] ∧
    4194300 < State.reset.ramBytes ∧ (∀ e ∈ [((4194300 : Nat), (5 : Word))], e.1 % 4 = 0 ∧ e.1 < State.reset.ramBytes) ∧
    ∃ t, exec .arbiterGrant { State.reset with hostQ := [(4194300, 5)] } = .next t := ⟨by decide, rfl, by decide, by decide, _, rfl⟩

theorem test_heldWrite_met : busy.HostPortOk ∧ busy.hostWait = some (.write 0x44 2) ∧ busy.lastGrant = .engine ∧
    busy.hostQ = (0x40, 1) :: List.replicate 7 (0x40, 1) := ⟨⟨by decide, rfl⟩, by decide, by decide, by decide⟩

/-- The engine side asks for four words at the end of the RAM. -/
def asking (data : Option (List Word)) : State :=
  onDev fun d => { d with engineQ := [⟨4194288, 4, data, true, true⟩], wait := .mem }

theorem test_engineBurst_met :
    (asking (some [1, 2, 3, 4])).dev.engineQ = [⟨4194288, 4, some [1, 2, 3, 4], true, true⟩] ∧
    (asking none).dev.engineQ = [⟨4194288, 4, none, true, true⟩] ∧ (asking none).hostQ = [] ∧ (asking none).hostWait = none ∧
    4194288 + 4 * 4 ≤ (asking none).ramBytes ∧ (asking none).mem.wf = true ∧ (asking none).dev.wait = .mem := by decide

theorem test_grants_met :
    State.reset.hostAsks = false ∧ State.reset.engineAsks = false ∧ (asking none).engineAsks = true ∧
    (asking none).hostAsks = false ∧ busy.hostAsks = true ∧ busy.engineAsks = false ∧
    { asking none with hostQ := [(0, 0)], lastGrant := .host }.hostAsks = true ∧
    ∃ t, exec .arbiterGrant { asking none with hostQ := [(0, 0)], lastGrant := .host } = .next t :=
  ⟨by decide, by decide, by decide, by decide, by decide, by decide +kernel, by decide, _, rfl⟩

theorem test_registerWords_met : b0 0xFFFFFF01 = 1 ∧ b0 0x00000004 = 4 ∧ b0 0x0000000A = 10 ∧ ignoredWrite 0 0 = true ∧
    ignoredWrite 1 0xFF = true ∧ ignoredWrite 2 0x100 = true := by decide

/-! ## Resets -/

/-- States of the matrix for each clause of the soft reset. -/
theorem test_softResetMatrix_met :
    State.reset.dev.mx.state = .parked ∧ State.reset.dev.hv.state ≠ .off ∧
    (onDev (withMx fun m => { m with state := .parking })).dev.mx.state = .parking ∧
    (onDev fun d => withHv (fun h => { h with state := .off }) (withMx (fun m => { m with state := .ready }) d)).dev.mx.presentCards
      = [] ∧
    (onDev fun d => withHv (fun h => { h with state := .off })
      (withMx (fun m => { m with state := .ready, cards := oneCard }) d)).dev.mx.presentCards = [0] ∧
    (onDev (withMx fun m => { m with state := .setting })).dev.mx.state = .setting ∧
    (onDev (withMx fun m => { m with state := .held, phase := .heldOpening })).dev.mx.phase ≠ .heldRecovery ∧
    (onDev (withMx fun m => { m with state := .held, phase := .heldRecovery })).dev.mx.phase = .heldRecovery ∧
    (onDev (withMx fun m => { m with state := .unparking, phase := .unparkSettle })).dev.mx.phase = .unparkSettle ∧
    (onDev (withMx fun m => { m with state := .unparking, phase := .enumerating })).dev.mx.phase = .enumerating := by decide

theorem test_softResetBlocks_met :
    (onDev (withHv fun h => { h with state := .ramp })).dev.hv.sourceOn = true ∧ State.reset.dev.hv.sourceOn = false ∧
    (onDev fun d => { d with mgr := { d.mgr with binding := .bound } }).dev.mgr.binding = .bound ∧
    State.reset.dev.mgr.binding ≠ .bound ∧ State.reset.dev.mgr.state ≠ .rebuilding ∧
    busy.dev.tx.state ≠ .sending ∧
    (onDev fun d => { d with tx := { d.tx with state := .sending, queue := [[65]] } }).dev.tx.state = .sending := by
  decide +kernel

theorem test_softResetWaits_met :
    { State.reset with hostQ := [(0, 1)] }.hostQ ≠ [] ∧
    { State.reset with hostQ := [(0, 1)], hostWait := some .softReset }.hostWait = some .softReset ∧
    { State.reset with hostQ := [(0, 1), (4, 2)], hostWait := some .softReset }.hostQ = (0, 1) :: (4, 2) :: [] ∧
    State.reset.dev.engineQ = [] := by decide

/-! ## START, HALT, RESUME, ABORT -/

/-- START's checks, each at a boundary: the words of a control block, and the number of the check that fails. -/
theorem test_startChecks_met :
    startFault [6, 0, 0, 0, 0, 0, 0, 0] = some 1 ∧ startFault [5, 0, 0x80, 1025, 0, 0, 0, 0] = some 2 ∧
    startFault [1, 0, 0x80, 1024, 0, 0, 0, 0] = none ∧ startFault [1, 0, 0, 0, 212996, 0, 0, 0] = some 3 ∧
    startFault [1, 0, 0, 0, 212992, 0, 0, 0] = none ∧ startFault [1, 0, 0, 0, 0, 0x7C, 0, 0] = some 4 ∧
    startFault [1, 0, 0, 0, 0, 0, 0x80, 0] = some 5 ∧ startFault [1, 262136, 0, 0, 0, 0, 0, 0] = some 6 ∧
    startFault [1, 262132, 0, 0, 0, 0, 0, 0] = none := by decide

/-- The eight words that START reads. -/
def controlWords (s : State) : List Word :=
  (List.range 8).map fun i => s.peek (4 * i)

def withTable : State := { State.reset with hostQ := [(0, 5), (8, 0x80), (12, 1024)] }

theorem test_start_met :
    startFault (controlWords State.reset) = some 1 ∧ State.reset.dev.Resting ∧ State.reset.dev.reader.state = .stopped ∧
    startFault (controlWords { State.reset with hostQ := [(0, 1)] }) = none ∧
    startFault (controlWords withTable) = none ∧ (bindOf (controlWords withTable)).defOff ≠ 0 ∧
    withTable.dev.mgr.binding = .none ∧ (∀ e ∈ withTable.hostQ, e.1 ≠ (bindOf (controlWords withTable)).defOff) ∧
    State.reset.dev.wait = .run ∧ State.reset.dev.tasks = [] ∧ State.reset.dev.rbuf = [] ∧
    (waitingAt .chainHead).dev.reader.state ≠ .stopped :=
  ⟨by decide, .inr rfl, rfl, by decide, by decide, by decide, rfl, by decide, rfl, rfl, rfl, by decide⟩
theorem test_startRebuild_met :
    { withTable with dev := { withTable.dev with mgr := { withTable.dev.mgr with binding := .rebuild } } }.dev.mgr.binding ≠ .none := by
  decide

/-- A reader RUNNING with a taken order whose thread waits for memory. -/
def running (st : OStatus) : State :=
  following fun d =>
    { withReader (fun r => { r with state := .running, order := some (order 2 st), bind := some bound4M }) d with wait := .mem }

theorem test_halt_met :
    (waitingAt (.header 0x80)).dev.reader.watch = some (.header 0x80) ∧ (running .taken).dev.Follows ∧
    (running .taken).dev.reader.haltPending = false ∧ (running .taken).dev.wait = .mem ∧
    (following (withReader fun r => { r with state := .running, haltPending := true })).dev.reader.haltPending = true ∧
    (following (withReader fun r => { r with state := .running, haltPending := true })).dev.Resting :=
  ⟨by decide, following_follows _, by decide +kernel, by decide +kernel, by decide +kernel, .inr (by simp [following]; rfl)⟩

/-- A reader HALTED at a resume point. -/
def haltedAt (p : Resume) (o : Order) : State :=
  onDev (withReader fun r => { r with state := .halted, resume := some p, order := some o })

theorem test_resume_met :
    (haltedAt .order (order 7 .paused)).dev.reader.resume = some .order ∧ (order 7 .paused).kind = some .sweep ∧
    (haltedAt (.word (.link 0x84)) (order 2 .done)).dev.reader.resume = some (.word (.link 0x84)) ∧
    (haltedAt (.reading 0x80) (order 2 .done)).dev.reader.resume = some (.reading 0x80) ∧
    (order 9 .paused).kind = some .insulate ∧ (order 10 .paused).kind = some .print ∧
    (haltedAt .order (order 9 .paused)).dev.wait = .run ∧ (following id).dev.reader.state ≠ .halted := by decide +kernel
/-- An INSULATE paused on INTERLOCK, with the interlock open. -/
theorem test_resumeRefused_met : ∃ s : State, s.hostWait = none ∧ s.dev.reader.state = .halted ∧
    s.dev.reader.resume = some .order ∧ s.dev.reader.order = some (order 9 .paused) ∧ s.dev.ins.reason = .interlock ∧
    s.dev.hv.openRec = true ∧ s.dev.Resting :=
  ⟨onDev fun d =>
    { withHv (fun h => { h with openRec := true })
        (withReader (fun r => { r with state := .halted, resume := some .order, order := some (order 9 .paused) }) d) with
      ins := { d.ins with reason := .interlock } }, rfl, rfl, rfl, rfl, rfl, rfl, .inr rfl⟩

theorem test_abort_met :
    (running .taken).dev.reader.ending ≠ some .aborted ∧ (running .taken).dev.reader.order = some (order 2 .taken) ∧
    (order 2 .taken).status = .taken ∧ (order 7 .paused).status = .paused ∧
    (running .done).dev.reader.state = .running ∧ (order 2 .done).status ≠ .taken ∧ (order 2 .done).status ≠ .paused ∧
    (following id).dev.reader.state = .stopped := by decide +kernel
theorem test_secondAbort_met : ∃ s : State, s.dev.reader.ending = some .aborted ∧ s.dev.Follows ∧ s.dev.Resting ∧
    s.dev.reader.order = some (order 2 .taken) :=
  ⟨following (withReader fun r => { r with state := .running, ending := some .aborted, order := some (order 2 .taken) }),
    by decide +kernel, following_follows _, .inr (by simp [following]; rfl), by decide +kernel⟩

/-! ## The take, the end and the link of an order -/

/-- The reader at the header 0x80, whose word the host has queued. -/
def atHeader (hdr : Word) : State :=
  { onDev fun d =>
      { withReader (fun r => { r with state := .running, bind := some bound4M, curOff := 0x80 }) d with wait := .take } with
    hostQ := [(0x80, hdr)] }

theorem test_take_met :
    (atHeader 0x00010002).peek 0x80 = 0x00010002 ∧ (atHeader 0).dev.wait = .take ∧ (atHeader 0).dev.tasks = [] ∧
    (atHeader 0).dev.reader.curOff = 0x80 ∧ (0x00010002 : Word).extractLsb' 16 4 = 1 ∧ (0x00020002 : Word).extractLsb' 16 4 ≠ 1 ∧
    kindOf (b0 0x00010000) = none ∧ kindOf (b0 0x0001000B) = none ∧ kindOf (b0 0x0001000A) = some .print ∧
    0x80 + 16 ≤ (atHeader 0).dev.memEnd ∧ newest (atHeader 7).hostQ 0x80 = some 7 ∧ newest (atHeader 7).hostQ 0x84 = none ∧
    (atHeader 0).dev.engineQ = [] ∧ (atHeader 0).dev.reader.haltPending = false := by decide
/-- The take of a MARK completes: its section 0 (DONE) is issued and waited for, then its owner's IDLE, DONE and the end stand
(R188, R181; log 66). -/
theorem test_takeMark_ends : ∃ t o, exec .takeOrder (atHeader 0x00010002) = .next t ∧ t.dev.reader.order = some o ∧
    o.status = .done ∧ t.dev.wait = .mem ∧ t.dev.tasks = [.ownerIdle, .write 0x80 [o.header .done false], .finish] ∧
    ⟨0x8C, 1, some [0], true, true⟩ ∈ t.dev.engineQ :=
  ⟨_, { contextOf 0x80 0x00010002 0 [] .done false 0 with freeBase := 1 }, rfl, by decide +kernel⟩
/-- A MARK whose four words just fit, and one that does not. -/
theorem test_takeBounds_met :
    4194288 + 12 + 4 * Kind.fixedWords .mark ≤ bound4M.memBytes ∧
    4194288 + 12 + 4 * (Kind.paramWords .mark [] + Kind.resultWords .mark) ≤ bound4M.memBytes ∧
    bound4M.memBytes < 4194292 + 12 + 4 * (Kind.paramWords .mark [] + Kind.resultWords .mark) ∧
    bound4M.memBytes < 4194292 + 12 + 4 * Kind.fixedWords .insulate := by decide

theorem test_orderEnd_met : ∃ d : Dev, d.reader.order = some (order 7 .doneDefects) ∧ (order 7 .doneDefects).status ≠ .failed ∧
    d.reader.haltPending = false ∧ d.reader.ending = none ∧ d.kind ≠ some .insulate :=
  ⟨(running .done).dev.onReader fun r => { r with order := some (order 7 .doneDefects) }, by decide +kernel⟩
theorem test_orderFails_met : ∃ d : Dev, d.reader.order = some (order 7 .failed) ∧ (order 7 .failed).status = .failed ∧
    d.reader.haltPending = true ∧ d.reader.ending = some .aborted ∧ d.kind ≠ some .insulate :=
  ⟨(running .done).dev.onReader fun r =>
    { r with order := some (order 7 .failed), haltPending := true, ending := some .aborted }, by decide +kernel⟩
theorem test_orderFlags_met : ({ order 7 .doneDefects with notify := true, stopOnDefect := true } : Order).stopOnDefect = true ∧
    ({ order 7 .doneDefects with notify := true, stopOnDefect := true } : Order).notify = true := by decide

/-- The link word v has been read. -/
def linkRead (v : Word) (halt : Bool) : Dev :=
  { (running .done).dev with rbuf := [v], reader := { (running .done).dev.reader with haltPending := halt } }

theorem test_link_met :
    (linkRead 0 false).reader.order = some (order 2 .done) ∧ (linkRead 0 true).reader.haltPending = true ∧
    (linkRead 0x80 false).rbuf = [0x80] ∧ (0x80 : Word).toNat + 12 ≤ (linkRead 0x80 false).memEnd ∧
    ¬((0x82 : Word).toNat % 4 = 0) ∧ ¬((4194296 : Word).toNat + 12 ≤ (linkRead 0 false).memEnd) := by decide +kernel

/-- CONFIGURE with every section at its limits, and with O not above P. -/
def configWords (present p o : Word) : Nat → Word
  | 0 => present
  | 1 => 0x00C80005
  | 2 => 0x80008000
  | 3 => 0x00408000
  | 4 => p
  | 5 => o
  | 6 => 1
  | 7 => 0x000A0064
  | _ => 0

theorem test_configure_met :
    configFault (configWords 7 1 2) (configured (configWords 7 1 2) .default) = none ∧
    (configFault (configWords 7 2 2) (configured (configWords 7 2 2) .default)).isSome = true ∧
    bitAt (configWords 7 1 2 0) 0 = true ∧ bitAt (configWords 7 1 2 0) 3 = false ∧ bitAt (configWords 8 1 2 0) 0 = false ∧
    bitAt (configWords 8 1 2 0) 3 = true := by decide
theorem test_configureOrder_met : ∃ o : Order, ∃ c n, configFault o.param (configured o.param .default) = some (c, n) :=
  ⟨{ order 1 .taken with params := [2, 0x80008000, 0x00108000, 5, 5, 1] }, .limitOrder, 2, by decide⟩

/-! ## The switch matrix -/

/-- A frame exchange with card 0 in a phase. -/
def exchanging (st : LinkState) (ph : MPhase) (attempt : Nat) : State :=
  onDev fun d =>
    { withMx (fun m =>
        { m with state := .setting, phase := ph, cards := oneCard, link := ⟨st, 0, List.replicate 128 .none, attempt⟩ }) d with
      wait := .setup }

theorem test_frameEnd_met :
    (exchanging .sending (.opening []) 1).dev.mx.link.state = .sending ∧
    (∀ rest, (exchanging .sending (.opening []) 1).dev.mx.phase ≠ .failing rest) ∧
    (exchanging .sending (.failing [1]) 1).dev.mx.phase = .failing (1 :: []) ∧
    (exchanging .sending (.failing []) 1).dev.mx.stopUnpark = false ∧ State.reset.dev.mx.link.state ≠ .sending :=
  ⟨rfl, nofun, rfl, rfl, by decide⟩

/-- A failed self-check that a soft reset has told to stop, before its last frame ends; no order waits for it. -/
theorem test_stoppedFailing_met : ∃ s : State, s.dev.mx.link.state = .sending ∧ s.dev.mx.phase = .failing [] ∧
    s.dev.mx.stopUnpark = true ∧ s.dev.mx.presentCards ≠ [] ∧ s.dev.wait ≠ .unparking :=
  ⟨onDev (withMx fun m =>
    { m with state := .unparking, phase := .failing [], stopUnpark := true, cards := oneCard, link := ⟨.sending, 0, [], 1⟩ }),
    by decide⟩

theorem test_echo_met :
    (exchanging .window .enumerating 1).dev.mx.link.state = .window ∧ (exchanging .window .enumerating 1).dev.mx.link.attempt < 2 ∧
    2 ≤ (exchanging .window .enumerating 2).dev.mx.link.attempt ∧
    (exchanging .window (.opening []) 1).dev.mx.phase ≠ .enumerating ∧
    Tab.canonFrom Card.absent 0 (exchanging .window .enumerating 2).dev.mx.cards = true ∧
    List.replicate 128 Bus.a ≠ (exchanging .window .enumerating 2).dev.mx.link.pattern ∧
    (exchanging .window .enumerating 1).dev.mx.stopUnpark = false := by decide +kernel

theorem test_setupEcho_met :
    (exchanging .window (.opening []) 1).dev.mx.link.pattern = List.replicate 128 .none ∧
    (exchanging .window (.opening [3]) 1).dev.mx.phase = .opening (3 :: []) ∧
    (exchanging .window (.closing []) 1).dev.mx.phase = .closing [] ∧
    (exchanging .window (.closing [3]) 1).dev.mx.phase = .closing (3 :: []) ∧
    (exchanging .window (.closing [3]) 1).dev.Resting := ⟨rfl, rfl, rfl, rfl, .inl (by decide)⟩

theorem test_imageTables_met : Tab.canonFrom Bus.none 0 [(0, .a), (127, .b), (128, .c)] = true ∧
    Tab.canonFrom Bus.none 0 [(127, .a), (4095, .d)] = true := by decide

theorem test_mismatch_met :
    2 ≤ (exchanging .window (.closing [1]) 2).dev.mx.link.attempt ∧ (exchanging .window (.closing [1]) 2).dev.wait = .setup ∧
    (exchanging .window (.closing [1]) 2).dev.hv.state ≠ .off ∧
    (∃ rest, (exchanging .window (.closing [1]) 2).dev.mx.phase = .opening rest ∨
      (exchanging .window (.closing [1]) 2).dev.mx.phase = .closing rest) ∧
    List.replicate 128 Bus.b ≠ (exchanging .window (.closing [1]) 2).dev.mx.link.pattern ∧
    cardNumbers.find? (fun x => decide (x ≠ 0) && (exchanging .window (.closing [1]) 2).dev.mx.present x) = none ∧
    cardNumbers.find? (fun x => decide (x ≠ 0) &&
      ({ Matrix.reset with cards := [(0, ⟨.present, 0⟩), (31, ⟨.present, 0⟩)] } : Matrix).present x) = some 31 :=
  ⟨by decide, rfl, by decide, ⟨[1], .inr rfl⟩, by decide +kernel, by decide, by decide⟩

/-- A READY matrix with card 0 PRESENT and point 0 on bus A. -/
def readyMx (hv : HvState) : Dev :=
  withHv (fun h => { h with state := hv })
    (withMx (fun m => { m with state := .ready, cards := oneCard, cur := [(0, .a)] }) State.reset.dev)

theorem test_setup_met :
    (readyMx .off).wait = .run ∧ (readyMx .off).mx.parkPending = false ∧ (readyMx .discharge).hv.state ≠ .off ∧
    (∃ x ∈ [((128 : Nat), Bus.b)], (readyMx .off).mx.present (x.1 / 128) = false) ∧
    (∀ x ∈ [((0 : Nat), Bus.a), (127, .b)], (readyMx .off).mx.present (x.1 / 128) = true) ∧
    ({ (readyMx .off).mx with tgt := [(0, .a)] } : Matrix).opening = [] ∧
    ({ (readyMx .off).mx with tgt := [(0, .a)] } : Matrix).closing = [] ∧
    cardsOf ({ (readyMx .off).mx with tgt := [(0, .b)] } : Matrix).opening = [0] ∧
    ({ (readyMx .off).mx with tgt := [(0, .a), (127, .b)] } : Matrix).opening = [] ∧
    cardsOf ({ (readyMx .off).mx with tgt := [(0, .a), (127, .b)] } : Matrix).closing = [0] := by decide

/-- The matrix in a timed phase, its timer running. -/
def timed (ph : MPhase) (w : Wait) (f : Matrix → Matrix) (hv : HvState) : State :=
  onDev fun d =>
    { withHv (fun h => { h with state := hv })
        (withMx (fun m => f { m with state := .setting, phase := ph, requester := true, releaseT := some 20, settleT := some 30 }) d) with
      wait := w }

theorem test_matrixTimers_met :
    State.reset.dev.mx.releaseT = none ∧ State.reset.dev.mx.settleT = none ∧ State.reset.dev.mx.unparkT = none ∧
    (timed .releaseWait .setup (fun m => { m with offT := none }) .off).dev.mx.offT = none ∧
    (timed .releaseWait .setup (fun m => { m with tgt := [(5, .b)] }) .discharge).dev.mx.closing ≠ [] ∧
    cardsOf (timed .releaseWait .setup (fun m => { m with tgt := [(5, .b)] }) .off).dev.mx.closing = [0] ∧
    (timed .releaseWait .setup id .off).dev.mx.closing = [] ∧ (timed .settleWait .setup id .off).dev.mx.settleT ≠ none ∧
    (timed .settleWait .setup id .off).dev.mx.requester = true ∧ (timed .settleWait .setup id .off).dev.wait = .setup ∧
    (timed .parkWait .parkRun id .off).dev.mx.releaseT ≠ none ∧ (timed .parkWait .parkRun id .off).dev.wait = .parkRun ∧
    (timed .parkWait .mem (fun m => { m with cards := oneCard }) .off).dev.mx.presentCards ≠ [] ∧
    State.reset.dev.mx.offT ≠ none ∧ State.reset.dev.wait ≠ .unparkGate ∧
    (timed .idle .unparkGate (fun m => { m with state := .parked }) .off).dev.mx.state = .parked ∧
    (timed .unparkSettle .unparking (fun m => { m with unparkT := some 200 }) .off).dev.mx.unparkT ≠ none := by decide

/-! ## Measurement -/

/-- A measurement with one sample to go. -/
def lastSample (k : JobKind) (r : Rng) : State :=
  onDev fun d =>
    { withHv (fun h => { h with state := .dwell }) d with
      wait := .meas
      mu := { d.mu with job := some ⟨k, r, 16, 15, 0, 0, 0, false, true, (32768, 32768, 32768)⟩ } }

theorem test_sample_met :
    (lastSample (.probe 5) .l).dev.hv.state = .dwell ∧ (599 : BitVec 16).toInt < 600 ∧
    (onDev (withHv fun h => { h with state := .off })).dev.mu.job = none ∧ (lastSample .window .l1).dev.wait = .meas ∧
    (lastSample (.twoPoint true 0 0) .m).dev.mu.job =
      some ⟨.twoPoint true 0 0, .m, 16, 15, 0, 0, 0, false, true, (32768, 32768, 32768)⟩ ∧
    (32767 : BitVec 16).toInt = 32767 ∧ (0x8000 : BitVec 16).toInt = -32768 ∧ 15 + 1 ≤ 16 ∧ 14 + 1 < 16 := by decide

/-- The other HV states in which a sample leaves the state, and the samples themselves. -/
theorem test_sampleStates_met : ∀ st ∈ [HvState.discharge, .lockout, .ramp],
    ({ (lastSample (.zero 0) .h).dev.hv with state := st, below := 0, check := true } : Hv).state = st ∧
    ({ (lastSample (.zero 0) .h).dev.hv with state := st, below := 0, check := true } : Hv).below = 0 ∧
    ({ (lastSample (.zero 0) .h).dev.hv with state := st, below := 0, check := true } : Hv).check = true ∧
    600 ≤ (600 : BitVec 16).toInt ∧ (599 : BitVec 16).toInt < 600 ∧ (lastSample (.zero 0) .h).dev.wait = .meas := by decide

/-- What one sample makes of the measurement unit: with no job, short of its samples, over range and autoranged, at its end. -/
theorem test_takes_met :
    State.reset.dev.mu.Takes 0 0 0 State.reset.dev.mu id ∧
    (∃ m, ({ State.reset.dev.mu with job := some ⟨.window, .l1, 16, 14, 0, 0, 0, false, true, (1, 1, 1)⟩ } : MeasUnit).Takes
      0 600 5 m id ∧ ∃ x, m.job = some x ∧ x.kind = .window ∧ x.got = 15) ∧
    (∃ m, (lastSample (.twoPoint true 0 0) .m).dev.mu.Takes 32767 0 0 m id ∧ m.stim = .l) ∧
    ∃ m go, (lastSample (.zero 0) .h).dev.mu.Takes 128 600 0 m go ∧ m.job = none ∧ m.state = .zeroing :=
  ⟨.inl ⟨rfl, rfl, rfl⟩,
   ⟨_, .inr ⟨_, _, _, _, rfl, rfl, rfl, rfl, .inl ⟨by decide, rfl, rfl⟩⟩, _, rfl, rfl, rfl⟩,
   ⟨_, .inr ⟨_, _, _, _, rfl, rfl, rfl, rfl, .inr (.inl ⟨by decide, 0, 0, .l, rfl, by decide, .inr ⟨rfl, rfl⟩, rfl, rfl⟩)⟩, rfl⟩,
   _, _, .inr ⟨_, _, _, _, rfl, rfl, rfl, rfl, .inr (.inr ⟨by decide, (fun ⟨⟨_, _, hk⟩, _⟩ => nomatch hk), rfl, rfl⟩)⟩, rfl, rfl⟩

theorem test_arithmetic_met :
    ((2160 : Nat) : Int) = 216 * (10 : Nat) * (1 : Nat) ∧ ((0 : Int) ≤ 0) ∧ (33766 : Int) * 64 ≤ (64 : Nat) * 33766 ∧
    classify 2000 100000 (some 100001) = .opn ∧ classify 2000 100000 (some 100000) = .highRes ∧
    classify 2000 100000 (some 2000) = .pass ∧ (-1 : Int).tdiv 1000 = 0 ∧ (-1000 : Int).tdiv 1000 < 0 ∧
    (0 : Int) < ((10002000 : Int).tdiv 1000 - 2) * 500 := by decide

theorem test_zeroEnd_met :
    (∀ c ∈ [(-1000 : Int), 1000, 0, 1, 2, 3], -1000 ≤ c ∧ c ≤ 1000) ∧
    [Rng.h, .m, .l, .l1, .l2, .l3][5]? = some .l3 ∧
    ([some (some 0), some (some (-1000)), some (some 1000), some (some 0), some (some 0), some none] :
      List (Option (Option Int)))[5]? = some (some none) ∧ (1000 : Int) < 1001 := by decide

/-! ## High voltage -/

theorem test_hvSample_met :
    600 ≤ (600 : BitVec 16).toInt ∧ (0xFFFF : BitVec 16).toInt < 600 ∧ State.reset.dev.hv.state = .discharge ∧
    State.reset.dev.hv.below = 0 ∧ State.reset.dev.mu.job = none ∧
    98 * ((1000 : Nat) : Int) ≤ 5 * (19600 : BitVec 16).toInt ∧ 5 * (19599 : BitVec 16).toInt < 98 * ((1000 : Nat) : Int) ∧
    (onDev (withHv fun h => { h with state := .off, lockout := true })).dev.hv.lockout = true := by decide

/-- The blocks before a ramp request. -/
def beforeRamp (hv : HvState) (f : Hv → Hv) (g : Matrix → Matrix) : Dev :=
  withHv (fun h => f { h with state := hv }) (withMx (fun m => g { m with state := .ready }) State.reset.dev)

theorem test_ramp_met :
    434 - 100 < 335 ∧ 334 * 300 < 2000 * 50 + 300 ∧ 2000 * 50 ≤ 334 * 300 ∧
    (beforeRamp .off (fun h => { h with lockout := true }) id).hv.lockout = true ∧
    (beforeRamp .off (fun h => { h with openRec := true }) id).hv.openRec = true ∧
    (beforeRamp .off id fun m => { m with parkPending := true }).mx.parkPending = true ∧
    (beforeRamp .discharge id id).hv.state ≠ .off ∧ (beforeRamp .off id id).wait = .run ∧
    (beforeRamp .off id id).hv.lockout = false ∧ (beforeRamp .off id id).hv.openRec = false ∧
    (beforeRamp .off id id).reader.haltPending = false ∧ (beforeRamp .off id id).reader.ending = none := by decide

/-- A ramp request that is taken with a HALT or an ABORT pending, before the rest of its step. -/
theorem test_rampStopped_met : ∃ d : Dev, d.wait = .run ∧ d.hv.lockout = false ∧ d.hv.openRec = false ∧ d.mx.state = .ready ∧
    d.mx.parkPending = false ∧ d.hv.state = .off ∧ d.reader.haltPending = true ∧ d.reader.ending ≠ none ∧
    d.tasks = [.dwellBegin, .windowReq .l1, .windowGot, .waitOff true] ++ .stepEnd :: [] ∧
    .stepEnd ∉ [Task.dwellBegin, .windowReq .l1, .windowGot, .waitOff true] :=
  ⟨{ withReader (fun r => { r with haltPending := true, ending := some .aborted }) (beforeRamp .off id id) with
      tasks := [.dwellBegin, .windowReq .l1, .windowGot, .waitOff true, .stepEnd] }, by decide⟩

/-- An INSULATE in flight in an energized phase. -/
def energized (hv : HvState) (w : Wait) (loc : LocPhase) : State :=
  onDev fun d =>
    { withHv (fun h => { h with state := hv, armed := true, rampT := some 2100, arcs := 4, arcLimit := 5, dischT := some 2000 })
        (withReader (fun r => { r with state := .running, order := some (order 9 .taken) }) d) with
      wait := w, ins := { d.ins with locPhase := loc, dwellT := some 100 }, mu := { d.mu with zeroValid := true } }

theorem test_energized_met :
    (energized .ramp .ramp .none).dev.hv.rampT ≠ none ∧ (energized .ramp .ramp .none).dev.mu.zeroValid = true ∧
    (energized .ramp .ramp .none).dev.Resting ∧ State.reset.dev.mu.zeroValid = false ∧
    (energized .dwell .dwell .none).dev.wait = .dwell ∧ (energized .dwell .dwell .none).dev.ins.locPhase = .none ∧
    (energized .dwell .dwell .dwell).dev.ins.locPhase ≠ .none ∧ (energized .dwell .dwell .none).dev.hv.armed = true ∧
    (energized .dwell .dwell .none).dev.hv.arcLimit ≤ min 255 (4 + 1) ∧
    (energized .discharge .hvOff .none).dev.hv.dischT ≠ none ∧ (energized .discharge .hvOff .none).dev.reader.ending = none ∧
    (energized .dwell .dwell .none).dev.pins.interlockOpen = false ∧ State.reset.dev.hv.armed = false :=
  ⟨by decide, rfl, .inl (by decide), rfl, rfl, rfl, by decide, rfl, by decide, by decide, rfl, rfl, rfl⟩
theorem test_arcBelow_met : min 255 (3 + 1) < (energized .dwell .dwell .none).dev.hv.arcLimit := by decide
theorem test_openPin_met :
    (onDev fun d => { d with pins := { d.pins with interlockOpen := true } }).dev.pins.interlockOpen = true := rfl

/-! ## Net tables, search, sweep, defects -/

theorem test_nets_met : Nets.MapOk Nets.reset ∧ Tab.canonFrom Pt.free 0 [(7, ⟨0, .untested, 3⟩), (9, ⟨2, .good, 0⟩)] = true ∧
    (({ Nets.reset with points := [(7, ⟨0, .untested, 3⟩)] } : Nets).pt 7).att ≠ 0 ∧ (Nets.reset.pt 7).att = 0 ∧
    (1 : Nat) ≤ 1 ∧ (1 : Nat) ≤ 2048 :=
  ⟨⟨rfl, fun n h => ⟨h, Nat.le_refl n, rfl⟩⟩, by decide, by decide, by decide, by decide, by decide⟩

theorem test_search_met :
    ({ Search.reset with stack := [⟨0, 2, ⟨5, .none, .l⟩⟩] } : Search).stack = ⟨0, 2, ⟨5, .none, .l⟩⟩ :: [] ∧
    ([(116, false), (117, true)] : List (Nat × Bool)).getD 0 (0, true) = (116, false) ∧
    (([(116, false), (117, true)] : List (Nat × Bool)).getD 1 (0, true)).2 = true ∧
    (2 : Nat) ≠ 0 ∧ 2 ≤ 1 + 1 := by decide

/-- A net 1 with members 3 and 7 in its sweep. -/
def sweeping : Dev :=
  { State.reset.dev with
    nets := { Nets.reset with
      count := 1, table := [(1, { Net.none with count := 2 })], members := [3, 7]
      points := [(3, ⟨1, .untested, 0⟩), (7, ⟨1, .untested, 0⟩)] }
    sweep := { Sweep.reset with cursor := 1, tallyNets := 1 } }

theorem test_sweep_met :
    sweeping.sweep.cursor = 1 ∧ Tab.canonFrom Pt.free 0 sweeping.nets.points = true ∧ sweeping.curMembers[1]? = some 7 ∧
    sweeping.sweep.tallyPoints = 0 ∧ (sweeping.nets.net 1).limits = none ∧ sweeping.sweep.pLim = none ∧
    sweeping.sweep.oLim = none ∧ ({ sweeping.sweep with pLim := some 5, oLim := some 9 } : Sweep).oLim = some 9 ∧
    ({ sweeping.nets.net 1 with limits := some (5, 9) } : Net).limits = some (5, 9) ∧
    classify 5 9 (some 5) = .pass ∧ classify 5 9 (some 9) = .highRes ∧ classify 5 9 (some 10) = .opn ∧
    sweeping.nets.count ≤ sweeping.sweep.cursor ∧ (0 : Nat) < sweeping.nets.count ∧ learnWords 256 = 129 ∧
    learnWords 3 = 3 := by decide

/-- A bound table of capacity 1 that is full, and one with room. -/
def tableOf (n : Nat) : Manager :=
  { Manager.reset with
    binding := .bound, off := 0x80, cap := 1, used := n, live := n, index := List.replicate n ⟨⟨.opn, 1, 3⟩, true⟩ }

theorem test_findings_met :
    (tableOf 1).lookup ⟨.opn, 1, 3⟩ = some 0 ∧ (tableOf 1).lookup ⟨.opn, 1, 4⟩ = none ∧ (tableOf 1).cap ≤ (tableOf 1).used ∧
    (tableOf 0).used < (tableOf 0).cap ∧ (tableOf 0).binding = .bound ∧ Manager.reset.binding ≠ .bound := by decide
theorem test_counts_met : (tableOf 1).Ok ∧ (tableOf 1).index[0]? = some ⟨⟨.opn, 1, 3⟩, true⟩ :=
  ⟨⟨⟨by decide, by decide, by decide, by decide, by unfold distinctLive; decide⟩, by decide, by decide,
    by unfold distinctLive; decide⟩, by decide⟩

/-- The end of a finding: of a sweep by its kind, of an INSULATE, and the step that keeps the table in agreement. -/
theorem test_findingEnd_met : [DKind.opn, .hres, .misw, .shrt, .xtra][4]? = some .xtra ∧ (tableOf 1).orphan = false ∧
    (order 7 .taken).kind = some .sweep ∧ (order 9 .taken).kind = some .insulate ∧ (tableOf 0).lookup ⟨.xtra, 1, 3⟩ = none ∧
    (∃ key, (tableOf 1).index[0]? = some ⟨key, true⟩) ∧
    ∃ t, step { onDev fun d => { d with mgr := tableOf 1 } with pending := [.poll] } = .next t :=
  ⟨rfl, rfl, by decide, by decide, by decide, ⟨_, rfl⟩, _, rfl⟩

/-! ## Print -/

theorem test_print_met :
    (3200000 : Nat) ≤ 3200000 ∧ (9999999 : Nat) ≤ 9999999 ∧ (∀ x ∈ Layout.default.windows, x.shown = true →
      x.first ≤ x.last ∧ x.last < Layout.default.width) ∧ (ohmText 3200000).length ≤ 6 ∧
    (megText 9999999 true false 0).length = 6 ∧ (spoolRecord (List.replicate 64 65)).length = 16 := by decide

/-- A formatter that waits to build its footer line, three lines queued. -/
def beforeFooter : State :=
  onDev fun d =>
    { withReader (fun r => { r with state := .running, order := some (order 10 .taken) }) d with
      wait := .format, tasks := [.fmtBegin]
      fmt := { d.fmt with part := .footer, footer := true }
      tx := { d.tx with queue := [[65], [66], [67]], state := .hold } }

theorem test_footer_met : beforeFooter.dev.wait = .format ∧ beforeFooter.dev.tasks = .fmtBegin :: [] ∧
    beforeFooter.dev.fmt.toSpool = false ∧ beforeFooter.dev.tx.fill < 4 ∧ beforeFooter.dev.reader.order ≠ none := by decide

/-- The transmitter in SENDING at a position of the head line. -/
def sending (q : List Text) (pos : Nat) : State :=
  onDev fun d => { d with tx := { d.tx with queue := q, state := .sending, pos := pos } }

theorem test_frames_met :
    (sending [[65]] 1).dev.tx.pos + 1 < ([65] : Text).length + 2 ∧ (sending [[65]] 2).dev.tx.pos + 1 = ([65] : Text).length + 2 ∧
    (sending [[65], [66]] 2).dev.tx.queue = [65] :: [66] :: [] ∧ (sending [[65]] 2).dev.tx.discard = 0 ∧
    (sending [[65]] 2).dev.wait ≠ .room ∧ State.reset.dev.tx.state ≠ .sending ∧ beforeFooter.dev.tx.state = .hold ∧
    State.reset.dev.cfg.print.portOn = true ∧ ({ State.reset.dev.pins with printerReady := true } : Pins).paperOut = false := by
  decide

/-! ## The lockout, the status words and the forwarded bursts -/

/-- The latch set and the source off, with a command waiting. -/
def latched : State := { onDev (withHv fun h => { h with lockout := true }) with pending := [.poll] }

theorem test_latchedStep_met : latched.dev.hv.lockout = true ∧ latched.dev.hv.sourceOn = false ∧
    ∃ t, step latched = .next t ∧ t.dev.hv.lockout = true := ⟨rfl, rfl, _, rfl, rfl⟩

/-- A reader WAITING with a live image that still shows it STOPPED. -/
theorem test_changedWord_met : ∃ d : Dev, d.reader.state ≠ .stopped ∧ d.reader.imageLive = true ∧
    d.statusWords[0]? = some 2 ∧ d.statusImg[0]? = some 0 ∧ d.statusWords[10]? = d.statusImg[10]? :=
  ⟨withReader (fun r => { r with state := .waiting, imageLive := true }) State.reset.dev, by decide +kernel⟩

/-- The second half of a run of 8 words, queued whole, and with one word missing. -/
def tailBurst : Burst := ⟨16, 4, none, true, true⟩

theorem test_forwardedBursts_met :
    (∃ i, i < tailBurst.n ∧ newest [(16, 1), (20, 2), (24, 3)] (tailBurst.off + 4 * i) = none) ∧
    (∀ i, i < tailBurst.n → newest [(16, 1), (20, 2), (24, 3), (28, 4)] (tailBurst.off + 4 * i) =
      ([1, 2, 3, 4] : List Word)[i]?) ∧ tailBurst.data = none ∧
    { asking none with dev := { (asking none).dev with engineQ := [{ tailBurst with off := 0, last := false }, tailBurst] } }.dev.engineQ
      = { tailBurst with off := 0, last := false } :: [tailBurst] :=
  ⟨⟨3, by decide⟩, by decide, rfl, rfl⟩

/-! ## Soft resets in the middle of accesses -/

/-- A LEARN's net write in progress behind a status word. -/
def midWrite : List Burst := [⟨0x20, 1, some [1], false, true⟩, ⟨0x400, 4, some [1, 2, 3, 4], true, false⟩, tailBurst]

theorem test_orphans_met : (∃ pre c rest, midWrite = pre ++ c :: rest ∧ (∀ b ∈ pre, b.mine = false) ∧ c.mine = true) ∧
    orphanBursts midWrite = [⟨0x20, 1, some [1], false, true⟩, ⟨0x400, 4, some [1, 2, 3, 4], false, false⟩] :=
  ⟨⟨[⟨0x20, 1, some [1], false, true⟩], _, [tailBurst], rfl, by decide, rfl⟩, by decide⟩

/-- The matrix in the self-check's record, an access of it issued or not. -/
def recording (b : List Burst) : State :=
  onDev fun d =>
    { withMx (fun m => { m with state := .unparking, phase := .recording, drive := true }) d with engineQ := b, wait := .mem }

theorem test_softResetRecord_met :
    (recording []).dev.mx.phase = .recording ∧ (∀ b ∈ (recording []).dev.engineQ, b.mine = false) ∧
    (∃ b ∈ (recording [tailBurst]).dev.engineQ, b.mine = true) ∧ (recording [tailBurst]).dev.mx.state = .unparking ∧
    (recording [tailBurst]).dev.wait = .mem ∧ (recording []).dev.mx.parkPending = false ∧
    (onDev (withMx fun m => { m with state := .held, phase := .heldClosing, parkPending := true })).dev.mx.parkPending = true := by
  decide

/-- The manager in an append of an order's finding, and in the clearing of the table. -/
theorem test_softResetManager_met : ∃ d : Dev, d.mgr.state = .recording ∧ d.wait = .mem ∧ d.mgr.orphan = true ∧
    d.mgr.binding = .bound ∧ managerSteps d.tasks = [.write 0x80 [0], .cleared] ∧ Manager.reset.binding ≠ .bound :=
  ⟨{ State.reset.dev with
      mgr := { Manager.reset with state := .recording, binding := .bound, orphan := true }
      wait := .mem, tasks := [.write 0x80 [0], .cleared, .safe] }, by decide⟩

/-! ## Stops by the wait they meet -/

/-- A taken order of a kind that waits, with the matrix and the HV controller as given. -/
def waitingOrder (kind : Nat) (w : Wait) (ph : MPhase) (hv : HvState) (job : Option JobKind) : State :=
  onDev fun d =>
    { withHv (fun h => { h with state := hv })
        (withMx (fun m => { m with state := .ready, phase := ph, requester := true })
          (withReader (fun r => { r with state := .running, order := some (order kind .taken) }) d)) with
      wait := w, mu := { d.mu with job := job.map fun k => ⟨k, .l, 16, 0, 0, 0, 0, false, true, (0, 0, 0)⟩ } }

theorem test_stopPremises_met : ∀ k ∈ [3, 4, 5, 6, 9, 10],
    (waitingOrder k .parkGate .idle .off none).dev.reader.state = .running ∧
    (waitingOrder k .parkGate .idle .off none).dev.reader.order = some (order k .taken) ∧ (order k .taken).status = .taken ∧
    (waitingOrder k .parkGate .idle .off none).dev.reader.haltPending = false ∧
    (waitingOrder k .parkGate .idle .off none).dev.reader.ending = none ∧
    (waitingOrder k .parkGate .idle .off none).hostWait = none := by decide

theorem test_stopClauses_met :
    (waitingOrder 6 .setup .heldClosing .discharge none).dev.mx.phase = .heldClosing ∧
    (waitingOrder 6 .setup .heldClosing .discharge none).dev.mx.requester = true ∧
    (waitingOrder 3 .forParked .idle .off none).dev.mx.state = .ready ∧ (order 3 .taken).kind = some .park ∧
    (order 4 .taken).kind = some .unpark ∧ (order 5 .taken).kind = some .zero ∧
    (waitingOrder 4 .unparking .unparkSettle .off none).dev.mx.phase = .unparkSettle ∧
    (waitingOrder 4 .unparking .enumerating .off none).dev.mx.phase ≠ .unparkSettle ∧
    (waitingOrder 9 .meas .idle .dwell (some .window)).dev.wait = .meas ∧
    (∃ j, (waitingOrder 9 .meas .idle .dwell (some .window)).dev.mu.job = some j ∧ j.kind = .window) ∧
    (waitingOrder 10 .room .idle .off none).dev.wait = .room ∧
    (waitingOrder 6 .setup .heldRecovery .discharge none).dev.mx.phase ≠ .heldOpening ∧
    (∀ j, (waitingOrder 6 .meas .idle .off (some (.probe 5))).dev.mu.job = some j → j.kind ≠ .window) :=
  ⟨rfl, rfl, rfl, by decide, by decide, by decide, rfl, by decide, rfl, ⟨_, rfl, rfl⟩, rfl, by decide,
    fun j h => by cases h; decide⟩

/-- A pause in progress, which an ABORT turns into the order's end. -/
theorem test_abortInPause_met : (running .paused).dev.reader.state = .running ∧
    (running .paused).dev.reader.order = some (order 2 .paused) ∧ (order 2 .paused).status = .paused ∧
    (running .paused).dev.wait = .mem ∧ (running .paused).dev.Follows ∧ (running .paused).hostWait = none :=
  ⟨by decide +kernel, by decide +kernel, rfl, by decide +kernel, following_follows _, rfl⟩

/-! ## The take of each kind -/

/-- An order of a kind with parameters. -/
def orderOf (kind : Nat) (ps : List Word) : Order := { order kind .taken with params := ps }

theorem test_takeMeasure_met :
    bitAt ((orderOf 6 [0x00010000, 1, 0x4003]).param 1) 0 = true ∧ b0 ((orderOf 6 [0x00010000, 1, 0x4003]).param 2) = 3 ∧
    b1 ((orderOf 6 [0x00010000, 1, 0x4003]).param 2) = 64 ∧ ¬(b0 ((orderOf 6 [0, 1, 0x4004]).param 2) ≤ 3) ∧
    bitAt ((orderOf 6 [0x00010000, 0]).param 1) 0 = false ∧ 4095 < lo ((orderOf 6 [4096, 0]).param 0) ∧
    lo ((orderOf 6 [0x0FFF0FFF, 0]).param 0) = hi ((orderOf 6 [0x0FFF0FFF, 0]).param 0) ∧
    (readyMx .off).mx.state = .ready ∧ (readyMx .off).mx.present (127 / 128) = true ∧
    (readyMx .off).mx.present (128 / 128) = false ∧ State.reset.dev.mx.state ≠ .ready := by decide

theorem test_takeSweep_met :
    bitAt ((orderOf 7 [0x1000, 7]).param 1) 0 = true ∧ max 1 (min 2000000 0) < max 2 (min 2000000 2) ∧
    ¬(max 1 (min 2000000 2000001) < max 2 (min 2000000 2000000)) ∧
    b0 ((orderOf 7 [0x1000, 2, 0x0103]).param (2 + opt (bitAt ((orderOf 7 [0x1000, 2, 0x0103]).param 1) 0) 3)) ≤ 3 ∧
    ¬(b0 ((orderOf 7 [0x1000, 2, 0x0104]).param 2) ≤ 3) ∧ max 1 (min 16 17) = 16 := by decide

theorem test_takeLearn_met :
    (0x200 % 4 = 0 ∧ 16 ≠ 0 ∧ 0x200 + 4 * 16 ≤ (waitingAt .chainHead).dev.memEnd) ∧ ¬(0x202 % 4 = 0) ∧
    ¬(4194300 + 4 * 2 ≤ (waitingAt .chainHead).dev.memEnd) ∧ bitAt ((orderOf 8 [0x200, 16, 3, 0]).param 2) 0 = true := by
  decide

theorem test_takeInsulate_met : ∃ d : Dev, d.nets.mapValid = true ∧ d.hv.lockout = false ∧ d.mx.state = .ready ∧
    d.mx.parkPending = false ∧ State.reset.dev.nets.mapValid = false ∧ State.reset.dev.mx.state ≠ .ready ∧
    hi ((orderOf 9 [500, 100, 0x00FF0032, 1000, 0x00070064, 101, 0x03E90008]).param
      (5 + opt (bitAt ((orderOf 9 [500, 100, 0x00FF0032, 1000, 0x00070064, 101, 0x03E90008]).param 4) 17) 1)) = 1001 :=
  ⟨{ readyMx .off with nets := { Nets.reset with mapValid := true } }, by decide⟩

theorem test_takePrint_met : ∃ d : Dev, d.mgr.binding = .bound ∧ d.cfg.print.portOn = true ∧
    (∃ b, d.reader.bind = some b ∧ b.spoolOff ≠ 0) ∧ lo ((orderOf 10 [0x00010001, 0x0702]).param 0) < d.mgr.used ∧
    b0 ((orderOf 10 [0x00010001, 0x0702]).param 1) = 2 ∧ b0 ((orderOf 10 [0, 3]).param 1) = 3 ∧
    ¬(lo ((orderOf 10 [0x00010002, 1]).param 0) < d.mgr.used) ∧ bound4M.spoolOff = 0 ∧ Manager.reset.binding ≠ .bound :=
  ⟨{ (waitingAt .chainHead).dev with
      mgr := { Manager.reset with binding := .bound, used := 2 }
      reader := { Reader.reset with bind := some { bound4M with spoolOff := 0x1000, spoolCap := 4 } } }, by decide⟩

/-! ## Ends, result sections, CONFIGURE -/

theorem test_pauseEnd_met : ∃ d : Dev, d.reader.order = some (order 9 .taken) ∧ (order 9 .taken).status = .taken ∧
    d.ins.reason = .none ∧ (order 9 .taken).kind = some .insulate ∧ d.kind = some .insulate ∧ d.reader.haltPending = true ∧
    d.reader.ending = none :=
  ⟨withReader (fun r => { r with order := some (order 9 .taken), haltPending := true }) State.reset.dev, by decide⟩

theorem test_resultFields_met : ∃ p : Progress, p.parkMask = some 1 ∧ p.flags = none ∧ p.compare = none ∧ p.zfirst = some .l3 ∧
    p.zres[0]? = some (some (some (-1000))) ∧ p.zres[5]? = some (some none) ∧ p.mres = none ∧
    Progress.reset.mres = none ∧ ({ p with mres := some ⟨none, .l, 0, true, false, 0, 0, 16⟩ } : Progress).mres =
      some ⟨none, .l, 0, true, false, 0, 0, 16⟩ :=
  ⟨{ Progress.reset with
      parkMask := some 1, zfirst := some .l3
      zres := [some (some (-1000)), some (some 1), some (some 2), some (some 3), some (some 4), some none] }, by decide⟩

/-- Settings with one fault each: N of 2, a rate code of 8, a window that ends at the line's width. -/
def printFaults (rate last : Nat) : Settings :=
  { Settings.default with
    print := { Layout.default with rate := rate, windows := [⟨true, 0, 0, last, false⟩] } }

theorem test_configFaults_met :
    configFault (configWords 2 1 2) { Settings.default with n := 2 } = some (.badParameter, 2) ∧
    configFault (configWords 8 1 2) (printFaults 8 5) = some (.badParameter, 4) ∧
    configFault (configWords 8 1 2) (printFaults 7 Layout.default.width) = some (.badLayout, 4) ∧
    configFault (configWords 8 1 2) (printFaults 7 (Layout.default.width - 1)) = none := by decide

/-! ## The matrix -/

theorem test_plainEchoes_met : ∀ ph ∈ [MPhase.parking [], .parking [1], .recovery [1], .checking [], .checking [1]],
    (exchanging .window ph 2).dev.mx.link.state = .window ∧ (exchanging .window ph 2).dev.mx.link.card = 0 ∧
    2 ≤ (exchanging .window ph 2).dev.mx.link.attempt ∧ (exchanging .window ph 2).dev.mx.phase = ph ∧
    (exchanging .window ph 2).dev.mx.stopUnpark = false ∧
    List.replicate 128 Bus.none = (exchanging .window ph 2).dev.mx.link.pattern ∧ ([1] : List Nat).contains 0 = false := by
  decide +kernel

/-- An UNPARK in its self-check that an ABORT has told to stop. -/
theorem test_stoppedEcho_met : ∃ s : State, s.dev.mx.phase = .checking [] ∧ s.dev.mx.stopUnpark = true ∧
    s.dev.wait = .unparking ∧ s.dev.reader.ending = some .aborted ∧ s.dev.mx.link.state = .window :=
  ⟨onDev fun d =>
    { withMx (fun m => { m with phase := .checking [], stopUnpark := true, link := ⟨.window, 0, [], 1⟩ })
        (withReader (fun r => { r with ending := some .aborted }) d) with wait := .unparking }, by decide⟩

theorem test_releaseEnds_met :
    (timed .recoveryWait .setup id .off).dev.mx.phase = .recoveryWait ∧
    (timed .recoveryWait .setup id .off).dev.mx.requester = true ∧
    (timed .recoveryWait .run (fun m => { m with requester := false }) .off).dev.mx.requester = false ∧
    (timed .recoveryWait .setup id .off).dev.mx.parkPending = false ∧
    (timed .recoveryWait .setup id .off).dev.mx.waitReq = none ∧ (timed .failWait .take id .off).dev.wait ≠ .forParked ∧
    (timed .parkWait .forParked id .off).dev.wait = .forParked ∧ (timed .failWait .take id .off).dev.mx.releaseT ≠ none := by
  decide
theorem test_abortedPark_met : ∃ s : State, s.dev.mx.phase = .parkWait ∧ s.dev.mx.releaseT ≠ none ∧ s.dev.wait = .parkRun ∧
    s.dev.reader.ending = some .aborted :=
  ⟨{ timed .parkWait .parkRun id .off with
      dev := withReader (fun r => { r with ending := some .aborted }) (timed .parkWait .parkRun id .off).dev }, by decide⟩

theorem test_parkUnpark_met :
    State.reset.dev.mx.state = .parked ∧ (readyMx .off).mx.presentCards = [0] ∧ (readyMx .discharge).hv.state ≠ .off ∧
    (beforeRamp .off id fun m => { m with parkPending := true }).mx.state = .ready ∧ (beforeRamp .off id id).mx.presentCards = [] ∧
    State.reset.dev.mx.offT ≠ none ∧ (beforeRamp .off id fun m => { m with state := .parked, offT := none }).mx.offT = none ∧
    (beforeRamp .off id fun m => { m with state := .parking }).mx.state = .parking := by decide

theorem test_pairs_met : ∀ k ∈ [0, 2, 3],
    (lastSample (.pair k) .l).dev.mu.job = some ⟨.pair k, .l, 16, 15, 0, 0, 0, false, true, (32768, 32768, 32768)⟩ ∧
    (lastSample (.pair k) .l).dev.mx.stopUnpark = false ∧ (lastSample (.pair k) .l).dev.hv.state = .dwell := by decide

/-- The last sample of a bus pair in DISCHARGE, of an unpark that an ABORT has told to stop. -/
theorem test_stoppedPair_met : ∃ s : State, s.dev.hv.state = .discharge ∧ s.dev.hv.below = 0 ∧ s.dev.mx.stopUnpark = true ∧
    s.dev.mu.job = some ⟨.pair 1, .l, 16, 15, 0, 0, 0, false, true, (1, 1, 1)⟩ ∧ s.dev.reader.order = some (order 4 .taken) ∧
    s.dev.wait = .unparking ∧ s.dev.reader.ending = some .aborted ∧ s.dev.mx.presentCards ≠ [] :=
  ⟨onDev fun d =>
    { withMx (fun m => { m with state := .unparking, phase := .pairing 1, stopUnpark := true, cards := oneCard })
        (withReader (fun r => { r with order := some (order 4 .taken), ending := some .aborted }) d) with
      wait := .unparking, mu := { d.mu with job := some ⟨.pair 1, .l, 16, 15, 0, 0, 0, false, true, (1, 1, 1)⟩ } }, by decide⟩

theorem test_record_met : ∃ d : Dev, d.reader.order = some (order 4 .taken) ∧ d.rbuf = [1, 2, 4, 7] ∧
    d.prog.present = some 1 ∧ d.prog.fault = some 0 ∧ d.prog.flags = some 0 ∧ d.prog.compare = some 1 ∧
    d.mx.presentCards = [0] ∧ State.reset.dev.mx.presentCards = [] ∧ (1 : Word) + 2 + 4 = 7 ∧ ¬((8 : Word) = 0) :=
  ⟨{ withReader (fun r => { r with order := some (order 4 .taken) }) (readyMx .off) with
      rbuf := [1, 2, 4, 7]
      prog := { Progress.reset with present := some 1, fault := some 0, flags := some 0, compare := some 1 } }, by decide +kernel⟩

/-! ## Measurement and high voltage -/

theorem test_collection_met : (lastSample (.zero 5) .l3).dev.wait = .meas ∧ (lastSample (.zero 5) .l3).dev.mu.job =
    some ⟨.zero 5, .l3, 16, 15, 0, 0, 0, false, true, (32768, 32768, 32768)⟩ := by decide

theorem test_pairAnswer_met : (⟨.pair 3, .l, 16, 16, 0, 0, 0, true, true, (0, 0, 0)⟩ : Job).kind = .pair 3 := rfl

/-- The blocks when the discharged report returns. -/
def reported (ph : MPhase) (w : Wait) (f : Matrix → Matrix) : Dev :=
  { withMx (fun m => f { m with state := .held, phase := ph, cards := oneCard }) (beforeRamp .off id id) with wait := w }

theorem test_report_met :
    (reported .heldOpening .setup fun m => { m with cur := [(0, .a)] }).mx.opening ≠ [] ∧
    cardsOf (reported .heldOpening .setup fun m => { m with cur := [(0, .a)] }).mx.opening = [0] ∧
    cardsOf (reported .heldClosing .setup fun m => { m with tgt := [(0, .a)] }).mx.closing = [0] ∧
    (reported .heldRecovery .setup id).mx.presentCards = [0] ∧
    (reported .heldRecovery .setup fun m => { m with cards := [] }).mx.presentCards = [] ∧
    (reported .idle .parkGate fun m => { m with state := .ready, parkPending := true }).mx.parkPending = true ∧
    (reported .idle .unparkGate fun m => { m with state := .parked, offT := none }).mx.offT = none ∧
    (reported .idle .rampHeld fun m => { m with state := .ready }).wait = .rampHeld ∧
    (reported .idle .rampHeld fun m => { m with state := .ready }).hv.state = .off := by decide

theorem test_dwells_met :
    1 ≤ ({ Insul.reset with window := 1, dwell := 1 } : Insul).window ∧
    1 ≤ ({ Insul.reset with locPhase := .dwell, locDwell := 10 } : Insul).locDwell ∧
    ({ Insul.reset with window := 1000, dwell := 1000 } : Insul).window = 1000 ∧
    ({ Insul.reset with window := 1000, dwell := 10 } : Insul).dwell < 1000 := by decide

theorem test_heldRequestFault_met : (energized .discharge .rampHeld .none).dev.wait = .rampHeld ∧
    (energized .discharge .rampHeld .none).dev.hv.dischT ≠ none ∧
    (energized .discharge .rampHeld .none).dev.reader.order = some (order 9 .taken) ∧
    (energized .discharge .rampHeld .none).dev.reader.ending = none := by decide

theorem test_rampRefusals_met : ∃ d : Dev, d.wait = .run ∧ d.hv.lockout = false ∧ d.hv.openRec = true ∧
    d.reader.ending = some .aborted :=
  ⟨withReader (fun r => { r with ending := some .aborted }) (beforeRamp .off (fun h => { h with openRec := true }) id), by decide⟩

/-- A ramp check with one sample to go. -/
theorem test_rampCheck_met : ∃ s : State, s.dev.hv.state = .ramp ∧ s.dev.hv.check = true ∧
    s.dev.mu.job = some ⟨.rampCheck, .l3, 10, 9, 0, 0, 0, false, true, (0, 0, 0)⟩ ∧ s.dev.ins.locPhase = .none :=
  ⟨onDev fun d =>
    { withHv (fun h => { h with state := .ramp, check := true }) d with
      mu := { d.mu with job := some ⟨.rampCheck, .l3, 10, 9, 0, 0, 0, false, true, (0, 0, 0)⟩ } }, by decide⟩

/-- Two groups, of roots 1 and 2, the second of a net that is not to be insulated; point 9 is attached to net 1. -/
def twoGroups : Nets :=
  { Nets.reset with
    mapValid := true, count := 2, fitted := 1, members := [3, 7]
    table := [(1, { Net.none with count := 1, hv := some 300 }), (2, { Net.none with start := 1, count := 1, noInsulate := true })]
    points := [(3, ⟨1, .good, 0⟩), (7, ⟨2, .good, 0⟩), (9, ⟨0, .untested, 1⟩)] }

theorem test_groups_met : Tab.canonFrom Pt.free 0 twoGroups.points = true ∧ twoGroups.groupRoots = [] ++ 1 :: [2] ∧
    twoGroups.skips 1 = false ∧ twoGroups.skips 2 = true ∧ twoGroups.groupPoints 1 = [3, 9] ∧ twoGroups.floating = [7] ∧
    twoGroups.groupVolts 1 500 = 300 ∧ (∀ g ∈ twoGroups.groupRoots, g < 3) ∧ (twoGroups.pt 9).att ≠ 0 := by decide +kernel

/-- An evaluated group of an INSULATE with LOCATE. -/
def evaluated : Dev :=
  { State.reset.dev with
    nets := twoGroups
    ins := { Insul.reset with ev := some ⟨5, .lt, .l2⟩, rmin := 6, locate := true, cursor := 1, cSide := [3], dSide := [4, 5], wRng := .l2 }
    search := { Search.reset with user := .locate, buf := [(4, false), (5, true)], rule := .group } }

theorem test_locate_met :
    evaluated.ins.ev = some ⟨5, .lt, .l2⟩ ∧ evaluated.ins.dSide ≠ [] ∧ Insul.reset.dSide = [] ∧
    evaluated.search.user = .locate ∧ evaluated.search.unmasked 0 ((2 + 1) / 2) = [4] ∧
    evaluated.search.unmasked (0 + (2 + 1) / 2) (2 - (2 + 1) / 2) = [] ∧ evaluated.ins.locCount = 0 ∧
    ({ evaluated.search with cur := some ⟨0, 2, ⟨5, .lt, .l2⟩⟩ } : Search).cur = some ⟨0, 2, ⟨5, .lt, .l2⟩⟩ ∧
    ({ evaluated.search with low := some ⟨6, .none, .l2⟩ } : Search).low = some ⟨6, .none, .l2⟩ ∧
    (PVal.mk 6 .lt .l2).mark = .lt ∧ (PVal.passes ⟨6, .none, .l2⟩ 6) = true ∧ evaluated.wait = .run := by decide

theorem test_windowRanges_met : evaluated.ins.wRng = .l2 ∧ evaluated.mu.ans.sat = false ∧
    ({ evaluated.mu.ans with sat := true } : Answer).sat = true ∧
    (withHv (fun h => { h with state := .dwell, ask := .off }) evaluated).hv.ask = .off ∧
    (withHv (fun h => { h with state := .dwell, ask := .fault }) evaluated).hv.state = .dwell := by decide

/-! ## Netlists, search, findings -/

/-- A validation of a netlist at 0x1000 that ends at 0x1020, with card 0 fitted and point 3 loaded. -/
def validating (rb : List Word) : Dev :=
  { (waitingAt .chainHead).dev with
    rbuf := rb
    nets := { Nets.reset with count := 1, fitted := 1, members := [3], points := [(3, ⟨1, .untested, 0⟩)] }
    sweep := { Sweep.reset with netlistOff := 0x1000, netEnd := 0x1020 } }

theorem test_netlist_met :
    (validating []).sweep.netlistOff % 4 = 0 ∧ (validating []).sweep.netlistOff < (validating []).memEnd ∧
    ¬(0x1002 % 4 = 0) ∧ 1 ≤ lo 0x00080800 ∧ lo 0x00080800 ≤ 2048 ∧ 2048 < lo 0x00080801 ∧
    0x1000 + 4 * hi 0x00080800 ≤ (validating []).memEnd ∧ (validating []).nets.count < 2 ∧ ¬((validating []).nets.count < 1) ∧
    lo 0x001F0100 = 256 ∧ 256 < lo 0x001F0101 ∧ 0x1004 + 4 * (1 + 4 + 2 + 1 + 1 + (1 + 1) / 2) ≤ 0x1030 ∧
    (validating []).nets.isFitted 127 = true ∧ (validating []).nets.isFitted 128 = false ∧
    ((validating []).nets.pt 3).net ≠ 0 ∧ ((validating []).nets.pt 4).net = 0 ∧
    Tab.canonFrom Net.none 0 (validating []).nets.table = true ∧ Tab.canonFrom 0 0 (validating []).nets.comp = true := by
  decide +kernel

theorem test_netlistParts_met :
    bitAt 0x000E0001 17 = true ∧ bitAt 0x000E0001 18 = true ∧ bitAt 0x000E0001 19 = true ∧
    max 1 (min 2000000 0) < max 2 (min 2000000 0) ∧ max 2 (min 2000000 5) ≤ max 1 (min 2000000 5) ∧
    ((validating [5, 6, 3, 1501]).rbuf.getD (opt true 2) 0 = 3) ∧
    ((validating [5, 6, 3, 1501]).rbuf.getD (opt true 2 + opt true 1) 0).toNat = 1501 ∧
    ((validating [1, 2, 3, 4]).rbuf = [1, 2, 3, 4]) ∧ ([1, 2, 3, 4] : List Word).length = 4 ∧
    (validating []).reader.bind = some bound4M ∧ bound4M.compOff = 0 ∧ ({ bound4M with compOff := 0x2000 } : Bind).compOff ≠ 0 ∧
    (orderOf 7 []).kind = some .sweep := by decide

theorem test_located_met : evaluated.search.stack = [] ∧
    ({ evaluated.search with stack := [⟨0, 1, ⟨5, .none, .l⟩⟩] } : Search).stack ≠ [] ∧
    masks .group twoGroups 3 9 = true ∧ masks .net twoGroups 3 9 = false ∧ masks .group twoGroups 3 7 = false ∧
    masks .point twoGroups 3 3 = true := by decide

/-- A merge with a worse value, an absorption, and the key of each kind. -/
theorem test_merge_met :
    worse .opn 5 4 false false = true ∧ worse .insl 5 4 true false = true ∧ worse .insl 3 4 false true = false ∧
    worse .insl 3 4 true true = true ∧ (mergedWords ⟨.misw, 1, 0, some 3, some 5, .l, false, false, false, 2, 0⟩ 0x00010000 4 1).2 =
      [5, 2, 0] ∧ (tableOf 1).lookup ⟨.opn, 1, pointField (some 3)⟩ = some 0 ∧ lo 0x00000003 = pointField (some 3) ∧
    (tableOf 1).lookup ⟨.shrt, min 1 2, max 1 2⟩ = none ∧ pointField none = 0xFFFF ∧ (tableOf 1).orphan = false := by decide

/-! ## Print -/

theorem test_ladder_met :
    ladder 999 'm' 'R' 'k' false = chars ['9', '9', '9', 'm'] ∧ ladder 9994 'm' 'R' 'k' false = chars ['9', '.', '9', '9', 'R'] ∧
    ladder 9995 'm' 'R' 'k' false = chars ['1', '0', '.', '0', 'R'] ∧
    ladder 99950 'm' 'R' 'k' false = chars ['1', '0', '0', 'R'] ∧
    ladder 999500 'm' 'R' 'k' false = chars ['1', '.', '0', '0', 'k'] ∧
    ladder 9995000 'M' 'G' 'T' true = chars ['1', '0', '.', '0', 'T'] ∧ b0 0x00000108 = DKind.arc.code ∧ 8 < b0 0x00000009 := by
  decide
theorem test_labels_met : ∃ d : Dev, d.reader.bind = some { bound4M with labelOff := 0x2000 } ∧ d.nets.tablesValid = true ∧
    2 ≤ d.nets.count ∧ 4095 ≤ 4095 ∧ ¬(4096 ≤ 4095) ∧ (9999 : Nat) < 10000 ∧
    ([0x41, 0x07, 0x00] : Text).takeWhile (fun c => decide (c ≠ 0)) = [0x41, 0x07] :=
  ⟨{ withReader (fun r => { r with bind := some { bound4M with labelOff := 0x2000 } }) State.reset.dev with
      nets := { twoGroups with tablesValid := true } }, by decide⟩
theorem test_windows_met : (⟨true, 0, 3, 5, true⟩ : Window).last - (⟨true, 0, 3, 5, true⟩ : Window).first + 1 = 3 ∧
    3 < ([65, 66, 67, 68] : Text).length ∧ ([65, 66, 67] : Text).length ≤ 3 ∧ 24 ≤ Layout.default.width ∧
    5 + 1 + (hex8 0 ++ [0x20, 0x4C, 0x49, 0x56, 0x45, 0x20] ++ decimal 1024).length = 24 ∧
    (List.replicate 64 (65 : Byte)).length = 64 := by decide

/-- A formatter at a part of a PRINT, its destination and the queue as given. -/
def formatting (p : FmtPart) (spool : Bool) (lines : Nat) (queued : Nat) (halt : Bool) : Dev :=
  { withReader (fun r =>
      { r with bind := some { bound4M with spoolOff := 0x1000, spoolCap := 4 }, order := some (order 10 .taken), haltPending := halt })
      State.reset.dev with
    fmt := { Fmt.reset with part := p, title := true, footer := true, stop := 2, toSpool := spool, lines := lines }
    tx := { Tx.reset with queue := List.replicate queued [65], state := .hold }
    rbuf := [bytes4 1 2 0 0] }

theorem test_formatter_met :
    (formatting .title false 0 0 false).fmt.normal.part = .title ∧ (formatting .footer false 0 0 false).fmt.normal.part = .footer ∧
    (formatting .entries false 0 0 false).fmt.normal.part = .entries ∧ (formatting .over false 0 0 false).fmt.normal.part = .over ∧
    ((formatting .title true 4 0 false).fmt.toSpool = true ∧ 4 ≤ (formatting .title true 4 0 false).fmt.lines) ∧
    (formatting .title false 0 3 false).tx.fill < 4 ∧ ¬((formatting .title false 0 4 false).tx.fill < 4) ∧
    (formatting .title false 0 4 true).reader.haltPending = true ∧ b1 ((formatting .entries false 0 0 false).rbuf.getD 0 0) = 2 ∧
    (formatting .entries false 0 0 false).fmt.withAbsorbed = false ∧ (formatting .entries false 0 0 false).fmt.line = 0 ∧
    (formatting .entries false 0 0 false).fmt.layout.lines ≤ 0 + 1 ∧
    ({ Layout.default with windows := [⟨true, 1, 0, 5, false⟩] } : Layout).lines = 2 := by decide

theorem test_lineLeaves_met : (sending [[65], [66]] 2).dev.tx.pos + 1 = ([65] : Text).length + 2 ∧
    ([[66]] : List Text).length < 4 ∧
    { sending [[65], [66]] 2 with dev := { (sending [[65], [66]] 2).dev with wait := .room } }.dev.wait = .room ∧
    (marked 0).dev.tx.discard = 1 ∧ (marked 0).dev.tx.queue = [65] :: [] ∧ (marked 0).dev.wait ≠ .room ∧
    (marked 1).dev.tx.queue = [65] :: [[66]] ∧ (marked 1).dev.tx.state = .sending ∧
    4 ≤ (List.replicate 4 ([66] : Text)).length ∧ (marked 3).dev.tx.fill < 4 ∧
    ({ Tx.reset with queue := [] } : Tx).state = .idle := by decide

/-- The formatter WAITING while a frame ends: in mid line 4 lines are left, at the end of a line 3. -/
def waitingForRoom (pos : Nat) : State :=
  let s := sending (List.replicate 4 [65]) pos
  { s with dev := { s.dev with wait := .room } }

theorem test_waitingFrame_met :
    (waitingForRoom 1).dev.tx.state = .sending ∧ (waitingForRoom 1).dev.wait = .room ∧ (waitingForRoom 1).dev.tx.discard = 0 ∧
    (waitingForRoom 1).dev.tx.pos + 1 < ([65] : Text).length + 2 ∧ 4 ≤ (waitingForRoom 1).dev.tx.queue.length ∧
    (waitingForRoom 2).dev.tx.pos + 1 = ([65] : Text).length + 2 ∧ (waitingForRoom 2).dev.tx.queue.length - 1 < 4 := by decide

/-- A CONFIGURE with its PRINT section that turns the port on while the transmitter is in HOLD, its line width below 24. -/
theorem test_portTurnedOn_met :
    ∃ o : Order, bitAt (o.param 0) 3 = true ∧ b0 (o.param (1 + opt (bitAt (o.param 0) 0) 1 + opt (bitAt (o.param 0) 1) 5 +
        opt (bitAt (o.param 0) 2) 1)) < 24 ∧ (configured o.param .default).print.portOn = true ∧
      configFault o.param (configured o.param .default) = none ∧ (formatting .over false 0 1 false).tx.state = .hold :=
  ⟨{ order 1 .taken with params := [8, bytes4 23 7 1 0] }, by decide⟩

/-- An order that has ended: the section's write, the owner's return to IDLE, the status (log 66). -/
theorem test_ownerIdle :
    (runTask [] (.endOrder .done .done) (formatting .over false 0 0 false)).tasks.map
      (fun t => match t with | .write .. => 0 | .ownerIdle => 1 | .finish => 2 | _ => 3) = [0, 1, 0, 2] ∧
    (runTask [] .ownerIdle { formatting .over false 0 0 false with
      fmt := { Fmt.reset with state := .formatting } }).fmt.state = .idle := by decide

/-- A part write to the control block that is still issued, as an abandoned LEARN may leave one, is what START reads. -/
theorem test_startIssued_met :
    (∀ b ∈ withTable.dev.engineQ, 0x20 ≤ b.off) ∧
    (controlWords { onDev (fun d => d.post 0 [3]) with hostQ := [(8, 0x80), (12, 1024)] }).getD 0 0 = 3 ∧
    startFault (controlWords { onDev (fun d => d.post 0 [3]) with hostQ := [(8, 0x80), (12, 1024)] }) = none :=
  ⟨by decide, by decide, by decide⟩

/-! ## The sweep engine's questions and answers -/

/-- The net of `sweeping` in an order of a kind, its second member in a state, card 0 or no card fitted, and an answer given. -/
def asked (kind : Nat) (st : MemberSt) (cards : Word) (ans : Bool) : Dev :=
  { sweeping with
    reader := { sweeping.reader with order := some (order kind .taken), bind := some bound4M }
    nets := { sweeping.nets with fitted := cards, points := [(3, ⟨1, .good, 0⟩), (7, ⟨1, st, 0⟩)] }
    mu := { sweeping.mu with ans := { sweeping.mu.ans with r := some 5, connected := ans } } }

/-- The clauses on what is asked: a member, the last member, an OPEN member with and without candidates, ISOLATE. -/
theorem test_asks_met :
    (asked 7 .opn 1 false).sweep.cursor = 1 ∧ Tab.canonFrom Pt.free 0 (asked 7 .opn 1 false).nets.points = true ∧
    (asked 7 .opn 1 false).curMembers[1]? = some 7 ∧ (asked 7 .opn 1 false).curMembers[2]? = none ∧
    (asked 7 .opn 1 false).curMembers.headD 0 = 3 ∧ (asked 7 .opn 1 false).sweep.refMark = false ∧
    1 < (asked 7 .opn 1 false).curMembers.length ∧ ((asked 7 .opn 1 false).nets.pt 7).st = .opn ∧
    ((asked 7 .good 1 false).nets.pt 7).st ≠ .opn ∧ (asked 7 .opn 1 false).nets.isFitted 127 = true ∧
    ((asked 7 .opn 1 false).nets.pt 127).net ≠ 1 ∧ (asked 7 .opn 1 false).kind = some .sweep ∧
    (asked 7 .opn 1 false).mu.ans.connected = false ∧ (asked 7 .opn 1 true).mu.ans.connected = true ∧
    (asked 7 .opn 1 true).mu.ans.r.getD 0 = 5 ∧
    (asked 7 .opn 1 false).curMembers.filter (fun p => decide (((asked 7 .opn 1 false).nets.pt p).st = .good)) = [3] ∧
    Nets.reset.membersOf 1 = [] := by decide +kernel

/-- With no card fitted nothing is a candidate. -/
theorem test_noCandidates_met : (asked 7 .opn 0 false).nets.fittedPoints = [] ∧ (asked 8 .opn 0 false).nets.fittedPoints = [] := by
  decide

/-- The clauses on LEARN: no free point left, a free point with none free below it, the last point of all, what is kept. -/
theorem test_learn_met :
    (asked 8 .good 1 false).kind = some .learn ∧ (asked 8 .good 1 false).nets.isFitted 0 = true ∧
    ((asked 8 .good 1 false).nets.pt 0).net = 0 ∧ ((asked 8 .good 1 false).nets.pt 3).net ≠ 0 ∧
    (asked 8 .good 1 false).nets.isFitted 128 = false ∧ Learn.reset.kept.length ≤ 1 ∧
    1 < ({ Learn.reset with kept := [3, 9], keep := true } : Learn).kept.length ∧ Learn.reset.keep = false ∧
    Tab.canonFrom Net.none 0 (asked 8 .good 1 false).nets.table = true := by decide +kernel

/-- R62, R97: a learned net takes the next index, its points in order, and nothing of the optional parts. -/
theorem test_learnedNet_loaded :
    (Nets.loadNet [4, 9] sweeping.nets).membersOf 2 = [4, 9] ∧ (Nets.loadNet [4, 9] sweeping.nets).pt 9 = ⟨2, .untested, 0⟩ ∧
    (Nets.loadNet [4, 9] sweeping.nets).count = 2 ∧ (Nets.loadNet [4, 9] sweeping.nets).pt 7 = ⟨1, .untested, 0⟩ := by decide

/-- The halves of a range: one with an unmasked point, one all masked; the stack empty; each user of the sweep engine. -/
theorem test_halves_met :
    ((([(116, false), (117, true)] : List (Nat × Bool)).drop 0).take ((2 + 1) / 2)).filter (fun y => !y.2) = [(116, false)] ∧
    ((([(116, false), (117, true)] : List (Nat × Bool)).drop (0 + (2 + 1) / 2)).take (2 - (2 + 1) / 2)).filter
      (fun y => !y.2) = [] ∧
    Search.reset.stack = [] ∧ splitting.dev.search.cur = some ⟨0, 2, ⟨5, .none, .l⟩⟩ ∧ splitting.dev.search.user = .isolate ∧
    ({ Search.reset with user := .learn } : Search).user = .learn := by decide

/-! ## The end of a setup with a park or a request waiting, and the clear of a table -/

theorem test_setupEndWaiting_met :
    (timed .settleWait .run (fun m => { m with requester := false, parkPending := true }) .off).dev.mx.parkPending = true ∧
    (timed .settleWait .run (fun m => { m with requester := false, parkPending := true }) .off).dev.mx.waitReq = none ∧
    (timed .settleWait .run (fun m => { m with requester := false }) .off).dev.mx.parkPending = false ∧
    (timed .releaseWait .setup (fun m => { m with requester := false, parkPending := true, waitReq := some [] })
      .discharge).dev.mx.waitReq ≠ none ∧
    (timed .releaseWait .setup (fun m => { m with requester := false, waitReq := some [(5, .b)] }) .off).dev.mx.closing = [] ∧
    (timed .releaseWait .setup (fun m => { m with requester := false, waitReq := some [(5, .b)] }) .off).dev.mx.requester = false := by
  decide

/-- A setup in its settle wait with a park pending or a request waiting, and the status area being written. -/
def settlingLive (park : Bool) (r : Option (Tab Bus)) : Dev :=
  { (timed .settleWait .run (fun m => { m with requester := false, parkPending := park, waitReq := r }) .off).dev with
    reader := { Reader.reset with state := .waiting, imageLive := true } }.sync

/-- R4, R24, R174: READY (2) is written before PARKING (5). -/
theorem test_setupEnd_writesReady :
    (settlingLive true none).ImageFollows ∧ (settlingLive true none).mx.state = .setting ∧
    (settlingLive true none).reader.imageLive = true ∧ (settlingLive true none).mx.parkPending = true ∧
    ({ settlingLive true none with engineQ := [] }.settleExpired.sync).engineQ =
      [⟨0x3C, 1, some [0x02000000], false, true⟩, ⟨0x3C, 1, some [0x05000000], false, true⟩] :=
  ⟨(Dev.sync_follows _).2.2, by decide +kernel, by decide +kernel, by decide +kernel, by decide +kernel⟩

/-- R5, R174: READY is written before the request that waited is taken up. -/
theorem test_waitingRequest_writesReady :
    (settlingLive false (some [])).ImageFollows ∧ (settlingLive false (some [])).mx.state = .setting ∧
    (settlingLive false (some [])).mx.waitReq = some [] ∧ (settlingLive false (some [])).mx.parkPending = false ∧
    ({ settlingLive false (some []) with engineQ := [] }.settleExpired).engineQ =
      [⟨0x3C, 1, some [0x02000000], false, true⟩] :=
  ⟨(Dev.sync_follows _).2.2, by decide +kernel, by decide +kernel, by decide +kernel, by decide +kernel⟩

/-- R150, R151: a clear of an empty table has the counts written, once, while the status area is written at all. -/
theorem test_clear_writesCounts :
    (tableOf 0).binding = .bound ∧ (tableOf 0).orphan = false ∧ Manager.reset.binding ≠ .bound ∧
    ∀ d : Dev, d.mgr = tableOf 0 → d.reader.imageLive = true → d.reader.state = .running → d.statusImg = d.statusWords →
      d.engineQ = [] → (runTask [] .cleared d).engineQ = [⟨0x34, 1, some [0], false, true⟩] ∧
        (runTask [] .cleared d).statusImg = d.statusImg := by
  refine ⟨by decide, by decide, by decide, fun d h1 h2 h3 h4 h5 => ?_⟩
  have hw : d.statusWords.set 5 0 = d.statusWords := by
    simp only [Dev.statusWords, Manager.shownUsed, Manager.shownLive, h1, List.set]
    rfl
  have hg : ({ d with mgr := tableOf 0 } : Dev).statusWords.getD 5 0 = 0 := by
    simp only [Dev.statusWords, Manager.shownUsed, Manager.shownLive]
    rfl
  simp only [runTask, Dev.cleared, h1]
  rw [if_neg (by decide), Dev.writeStatus_eq]
  simp only [Dev.onMgr, h1, h4, Dev.statusLive, h2, h3, h5, countsAt]
  exact ⟨congrArg (fun w => [(⟨0x34, 1, some [w], false, true⟩ : Burst)]) hg, (congrArg (d.statusWords.set 5) hg).trans hw⟩

/-! ## Stops at a setup's end, unfinished sweeps, the tie, keys read back -/

/-- A setup in its settle wait, asked for by an INSULATE in a state of its engine, with a HALT pending. -/
def settlingHalted (st : InsState) : State :=
  let s := timed .settleWait .setup id .off
  { s with
    dev := { s.dev with
      reader := { s.dev.reader with order := some (order 9 .taken), haltPending := true }, ins := { s.dev.ins with state := st } } }

theorem test_stopAfterSetup_met :
    (settlingHalted .setup).dev.kind = some .insulate ∧ (settlingHalted .setup).dev.ins.state = .setup ∧
    (settlingHalted .locate).dev.ins.state ≠ .setup ∧ (settlingHalted .setup).dev.reader.haltPending = true ∧
    (settlingHalted .setup).dev.mx.parkPending = false ∧ (settlingHalted .setup).dev.mx.waitReq = none ∧
    (settlingHalted .setup).dev.mx.requester = true ∧ (settlingHalted .setup).dev.wait = .setup ∧
    (settlingHalted .setup).dev.mx.settleT ≠ none ∧ (settlingHalted .setup).dev.mx.phase = .settleWait := by decide

theorem test_unfinishedSweep_met : (order 7 .taken).kind = some .sweep ∧ (order 6 .taken).kind = some .measure ∧
    ∃ d : Dev, d.reader.order = some (order 7 .taken) ∧ d.nets.mapValid = true :=
  ⟨by decide, by decide,
    { withReader (fun r => { r with order := some (order 7 .taken) }) State.reset.dev with
      nets := { Nets.reset with mapValid := true } }, rfl, rfl⟩

/-- R105: a sample before the expiry does not count in LOCKOUT; R112: but in the tie it does. -/
theorem test_lockOutRestartsCount (h : Hv) : (h.lockOut false).below = 0 ∧ (h.lockOut true).below = h.below :=
  ⟨Hv.lockOut_below false h, Hv.lockOut_below true h⟩

/-- R144: the key of a SHRT read back names the lower net first, and not the point. -/
theorem test_storedKey_sorts : storedKey .shrt 5 3 600 = storedKey .shrt 3 5 612 ∧ storedKey .shrt 3 5 600 = ⟨.shrt, 3, 5⟩ ∧
    storedKey .insl 5 3 600 = ⟨.insl, 5, 3⟩ ∧ storedKey .opn 5 0 77 = ⟨.opn, 5, 77⟩ := by decide

/-! ## The binding of the table, a MEASURE and a ZERO under way -/

/-- A manager that rebuilds a table of capacity 4, its read words, its index, and a HALT or a notice of START as given. -/
def binding (rb : List Word) (index : List KeyRec) (halt early : Bool) : Dev :=
  { withReader (fun r =>
      { r with state := .running, bind := some { bound4M with defOff := 0x80, defCap := 4 }, haltPending := halt, earlyNotice := early })
      State.reset.dev with
    rbuf := rb
    mgr := { Manager.reset with
      off := 0x80, cap := 4, state := .rebuilding, binding := .bound, back := ⟨1, 1, 0, 0, index⟩ } }

theorem test_bindTable_met :
    bound4M.defOff = 0 ∧ (binding [] [] false false).reader.bind = some { bound4M with defOff := 0x80, defCap := 4 } ∧
    ({ bound4M with defOff := 0x80, defCap := 4 } : Bind).defOff ≠ 0 ∧ State.reset.dev.mgr.binding = .none ∧
    (binding [] [] false false).mgr.binding ≠ .none ∧ State.reset.dev.reader.haltPending = false ∧
    (binding [] [] true false).reader.haltPending = true ∧ (binding [] [] false true).reader.earlyNotice = true := by decide

/-- The header: full, one entry too many, and counts that do not add up. -/
theorem test_rebuildHead_met :
    (4 : Word).toNat ≤ (binding [4, 3, 1, 0] [] false false).mgr.cap ∧ (3 : Word).toNat + (1 : Word).toNat = (4 : Word).toNat ∧
    (binding [5, 4, 1, 0] [] false false).mgr.cap < (5 : Word).toNat ∧ (3 : Word).toNat + (0 : Word).toNat ≠ (4 : Word).toNat := by
  decide

/-- The entries: one to read, none left with the LIVE count met and missed; a kind and a state that are none, a LIVE key
already there and not there, an absorbed entry. -/
theorem test_rebuildEntry_met :
    0 < (binding [] [] false false).mgr.back.used ∧ (binding [] [] false false).mgr.back.used ≤ 1 ∧
    ((binding [] [⟨⟨.opn, 1, 3⟩, true⟩] false false).mgr.back.index.filter (·.live)).length = 1 ∧
    (binding [] [⟨⟨.opn, 1, 3⟩, true⟩] false false).mgr.back.index.length = 1 ∧
    ((binding [] [] false false).mgr.back.index.filter (·.live)).length ≠ 1 ∧
    (∀ k : DKind, b0 0x00000109 ≠ k.code) ∧ b1 0x00000301 ≠ 1 ∧ b1 0x00000301 ≠ 2 ∧ b0 0x00000101 = DKind.opn.code ∧
    b1 0x00000101 = 1 ∧ b1 0x00000201 = 2 ∧
    (∃ r ∈ (binding [] [⟨⟨.opn, lo 0x00000001, lo 0x00000003⟩, true⟩] false false).mgr.back.index,
      r.live = true ∧ r.key = ⟨.opn, lo 0x00000001, lo 0x00000003⟩) ∧
    (∀ r ∈ (binding [] [⟨⟨.opn, 1, 3⟩, false⟩] false false).mgr.back.index, ¬(r.live = true ∧ r.key = ⟨.opn, 1, 3⟩)) :=
  ⟨by decide, by decide, by decide, by decide, by decide, fun k => by cases k <;> decide, by decide, by decide, by decide, by decide,
    by decide, by decide, by decide⟩

/-- A MEASURE of points 3 and 8 whose two compensation words have been read, the values at the clamp and past it. -/
def measuring (comp : Nat) (r : Rng) : Dev :=
  { withReader (fun x => { x with bind := some { bound4M with compOff := comp } }) State.reset.dev with
    prog := { State.reset.dev.prog with ptA := 3, ptB := 8, mrng := r }, rbuf := [0x270F0000, 0x00002710] }

theorem test_measure_met :
    (measuring 0 .none).reader.bind = some { bound4M with compOff := 0 } ∧ bound4M.compOff = 0 ∧
    ({ bound4M with compOff := 0x2000 } : Bind).compOff ≠ 0 ∧ (measuring 0 .none).rbuf = [0x270F0000, 0x00002710] ∧
    hi 0x270F0000 = 9999 ∧ lo 0x00002710 = 10000 ∧ (measuring 0 .none).prog.mrng = .none ∧
    (measuring 0 .h).prog.mrng ≠ .none ∧ Tab.get .none (Tab.set .none [(3, Bus.a)] 8 .b) 8 = .b := by decide

/-- A reader that may write the spool lines at a take, and one that may not. -/
theorem test_spoolWord_met : State.reset.dev.reader.imageLive = false ∧
    (withReader (fun r => { r with imageLive := true, state := .running }) State.reset.dev).reader.imageLive = true ∧
    (withReader (fun r => { r with imageLive := true, state := .running }) State.reset.dev).reader.state ≠ .stopped ∧
    b0 0x00000002 = 2 := by decide

/-- Zero-valid set and clear; the collections at both sides of the middle. -/
theorem test_measurementStart_met : (energized .ramp .ramp .none).dev.mu.zeroValid = true ∧
    State.reset.dev.mu.zeroValid = false ∧ [Rng.h, .m, .l, .l1, .l2, .l3][2]? = some .l ∧
    [Rng.h, .m, .l, .l1, .l2, .l3][3]? = some .l1 ∧ (2 : Nat) < 3 := by decide

theorem test_zero_met :
    (readyMx .off).mx.state = .ready ∧ (readyMx .off).mx.parkPending = false ∧ State.reset.dev.mx.state = .parked ∧
    (withMx (fun m => { m with parkPending := true }) (readyMx .off)).mx.parkPending = true ∧
    (exchanging .window (.parking []) 1).dev.mx.state ≠ .parked ∧ (readyMx .off).hv.state = .off ∧
    (readyMx .discharge).hv.state ≠ .off ∧ (running .taken).dev.reader.order = some (order 2 .taken) ∧
    (lastSample (.zero 0) .h).dev.mu.ans.sat = false ∧ lo 0x0000FFFD = ((BitVec.ofInt 16 (zeroCodeOf (-192))).toNat) ∧
    hi 0x0000FFFD = 0 ∧ ({ State.reset.dev.mu.ans with sat := true } : Answer).sat = true := by decide +kernel

/-- A HALT and an ABORT pending, and neither, at a safe point of a ZERO or after EVALUATE. -/
theorem test_safePoints_met :
    (withReader (fun r => { r with ending := some .aborted }) State.reset.dev).reader.ending = some .aborted ∧
    (binding [] [] true false).reader.ending = none ∧ (binding [] [] true false).reader.haltPending = true ∧
    State.reset.dev.reader.ending = none ∧ State.reset.dev.reader.haltPending = false := by decide

/-- A card that is PRESENT in a recovery, in a self-check, at the end of a park: each clears the map-valid flag (R60). -/
theorem test_mapClears_met :
    (exchanging .window (.recovery []) 2).dev.mx.present 0 = true ∧ (exchanging .window (.checking []) 2).dev.mx.present 0 = true ∧
    (exchanging .window (.opening []) 2).dev.mx.present 0 = true ∧ (exchanging .window (.checking []) 2).dev.mx.presentCards ≠ [] ∧
    (timed .parkWait .parkRun (fun m => { m with cards := oneCard }) .off).dev.mx.presentCards ≠ [] ∧
    (timed .parkWait .forParked (fun m => { m with cards := oneCard }) .off).dev.mx.presentCards ≠ [] := by decide +kernel

end Sys2Proof.Tests
end

/-! # The switch matrix: what its operations do -/

namespace Sys2Proof.Machine

/-! ## Commands as changes of the blocks -/

/-- A command that changes the blocks alone, once what the change comes to is known. -/
theorem State.withDev_eq {f : Dev → Dev} {s : State} {d : Dev} (h : f s.dev = d) :
    s.withDev f = { s with dev := d.settle s.hostQ } := by
  rw [State.withDev, h]

theorem exec_cardFrameEnd (s : State) : exec .cardFrameEnd s = .next (s.withDev Dev.frameEnd) := rfl

theorem exec_cardEcho (pat : List Bus) (s : State) : exec (.cardEcho pat) s = .next (s.withDev (Dev.echo pat)) :=
  rfl

theorem exec_echoWindowExpiry (s : State) : exec .echoWindowExpiry s = .next (s.withDev Dev.echoMissing) := rfl

theorem exec_converterSample (diff hvv hvi : BitVec 16) (s : State) :
    exec (.converterSample diff hvv hvi) s = .next (s.withDev (Dev.sample diff.toInt hvv.toInt hvi.toInt)) := rfl

/-- A timer that runs expires at the matrix (log 5). -/
theorem exec_releaseTimerExpiry {s : State} (h : s.dev.mx.releaseT ≠ none) :
    exec .releaseTimerExpiry s = .next (s.withDev Dev.releaseExpired) := by
  have hs : s.dev.mx.releaseT.isSome = true := Option.isSome_iff_ne_none.2 h
  show Host.Outcome.next _ = _
  rw [if_pos hs]

theorem exec_settleTimerExpiry {s : State} (h : s.dev.mx.settleT ≠ none) :
    exec .settleTimerExpiry s = .next (s.withDev Dev.settleExpired) := by
  have hs : s.dev.mx.settleT.isSome = true := Option.isSome_iff_ne_none.2 h
  show Host.Outcome.next _ = _
  rw [if_pos hs]

theorem exec_offTimerExpiry {s : State} (h : s.dev.mx.offT ≠ none) :
    exec .offTimerExpiry s = .next (s.withDev Dev.offExpired) := by
  have hs : s.dev.mx.offT.isSome = true := Option.isSome_iff_ne_none.2 h
  show Host.Outcome.next _ = _
  rw [if_pos hs]

theorem exec_unparkSettleExpiry {s : State} (h : s.dev.mx.unparkT ≠ none) :
    exec .unparkSettleExpiry s = .next (s.withDev Dev.unparkSettled) := by
  have hs : s.dev.mx.unparkT.isSome = true := Option.isSome_iff_ne_none.2 h
  show Host.Outcome.next _ = _
  rw [if_pos hs]

/-- A timer that is not running cannot expire (log 5). -/
theorem exec_releaseTimerExpiry_stopped {s : State} (h : s.dev.mx.releaseT = none) :
    exec .releaseTimerExpiry s = .next s := by
  show Host.Outcome.next _ = _
  rw [h]; rfl

theorem exec_settleTimerExpiry_stopped {s : State} (h : s.dev.mx.settleT = none) :
    exec .settleTimerExpiry s = .next s := by
  show Host.Outcome.next _ = _
  rw [h]; rfl

theorem exec_offTimerExpiry_stopped {s : State} (h : s.dev.mx.offT = none) :
    exec .offTimerExpiry s = .next s := by
  show Host.Outcome.next _ = _
  rw [h]; rfl

theorem exec_unparkSettleExpiry_stopped {s : State} (h : s.dev.mx.unparkT = none) :
    exec .unparkSettleExpiry s = .next s := by
  show Host.Outcome.next _ = _
  rw [h]; rfl

/-! ## Frames -/

/-- A frame to card `c` is in transmission for the first time, with the card's echo-failure count at 0 (R3, R12). -/
def Matrix.sendFrame (ph : MPhase) (c : Nat) (pat : List Bus) (m : Matrix) : Matrix :=
  { m with
    cards := Tab.set Card.absent m.cards c { m.card c with fails := 0 }, phase := ph, link := ⟨.sending, c, pat, 1⟩ }

@[simp] theorem Matrix.sendFrame_phase (ph : MPhase) (c : Nat) (pat : List Bus) (m : Matrix) :
    (m.sendFrame ph c pat).phase = ph := rfl
@[simp] theorem Matrix.sendFrame_link (ph : MPhase) (c : Nat) (pat : List Bus) (m : Matrix) :
    (m.sendFrame ph c pat).link = ⟨.sending, c, pat, 1⟩ := rfl
@[simp] theorem Matrix.sendFrame_state (ph : MPhase) (c : Nat) (pat : List Bus) (m : Matrix) :
    (m.sendFrame ph c pat).state = m.state := rfl
@[simp] theorem Matrix.sendFrame_cur (ph : MPhase) (c : Nat) (pat : List Bus) (m : Matrix) :
    (m.sendFrame ph c pat).cur = m.cur := rfl
@[simp] theorem Matrix.sendFrame_tgt (ph : MPhase) (c : Nat) (pat : List Bus) (m : Matrix) :
    (m.sendFrame ph c pat).tgt = m.tgt := rfl
@[simp] theorem Matrix.sendFrame_parkPending (ph : MPhase) (c : Nat) (pat : List Bus) (m : Matrix) :
    (m.sendFrame ph c pat).parkPending = m.parkPending := rfl
@[simp] theorem Matrix.sendFrame_waitReq (ph : MPhase) (c : Nat) (pat : List Bus) (m : Matrix) :
    (m.sendFrame ph c pat).waitReq = m.waitReq := rfl
@[simp] theorem Matrix.sendFrame_parkFault (ph : MPhase) (c : Nat) (pat : List Bus) (m : Matrix) :
    (m.sendFrame ph c pat).parkFault = m.parkFault := rfl
@[simp] theorem Matrix.sendFrame_parkRaised (ph : MPhase) (c : Nat) (pat : List Bus) (m : Matrix) :
    (m.sendFrame ph c pat).parkRaised = m.parkRaised := rfl

/-- The release timer starts for the wait `ph`, with no frame in exchange (R9, R14, R16, R21). -/
def Matrix.startRelease (ph : MPhase) (time : Nat) (m : Matrix) : Matrix :=
  { m with phase := ph, releaseT := some time, link := .idle }

@[simp] theorem Matrix.startRelease_phase (ph : MPhase) (t : Nat) (m : Matrix) : (m.startRelease ph t).phase = ph := rfl
@[simp] theorem Matrix.startRelease_releaseT (ph : MPhase) (t : Nat) (m : Matrix) :
    (m.startRelease ph t).releaseT = some t := rfl
@[simp] theorem Matrix.startRelease_link (ph : MPhase) (t : Nat) (m : Matrix) : (m.startRelease ph t).link = .idle := rfl
@[simp] theorem Matrix.startRelease_state (ph : MPhase) (t : Nat) (m : Matrix) :
    (m.startRelease ph t).state = m.state := rfl
@[simp] theorem Matrix.startRelease_cur (ph : MPhase) (t : Nat) (m : Matrix) : (m.startRelease ph t).cur = m.cur := rfl
@[simp] theorem Matrix.startRelease_tgt (ph : MPhase) (t : Nat) (m : Matrix) : (m.startRelease ph t).tgt = m.tgt := rfl
@[simp] theorem Matrix.startRelease_parkPending (ph : MPhase) (t : Nat) (m : Matrix) :
    (m.startRelease ph t).parkPending = m.parkPending := rfl
@[simp] theorem Matrix.startRelease_waitReq (ph : MPhase) (t : Nat) (m : Matrix) :
    (m.startRelease ph t).waitReq = m.waitReq := rfl
@[simp] theorem Matrix.startRelease_parkFault (ph : MPhase) (t : Nat) (m : Matrix) :
    (m.startRelease ph t).parkFault = m.parkFault := rfl
@[simp] theorem Matrix.startRelease_parkRaised (ph : MPhase) (t : Nat) (m : Matrix) :
    (m.startRelease ph t).parkRaised = m.parkRaised := rfl

/-- An exchange writes the card's entry with the state it had, so the map-valid flag stays (R60). -/
theorem Dev.exchange_eq (c : Nat) (pat : List Bus) (d : Dev) :
    d.exchange c pat = d.onMx (Matrix.sendFrame d.mx.phase c pat) := by
  have hp : (d.mx.present c && decide ((d.mx.card c).state ≠ .present)) = false := by simp [Matrix.present]
  simp only [Dev.exchange, Dev.setCard, hp, Bool.not_false, Bool.and_true]
  rfl

/-- A frame of a new phase. -/
theorem Dev.exchange_onMx_phase (ph : MPhase) (c : Nat) (pat : List Bus) (d : Dev) :
    (d.onMx fun m => { m with phase := ph }).exchange c pat = d.onMx (Matrix.sendFrame ph c pat) := by
  rw [Dev.exchange_eq]; rfl

theorem Dev.sendOpening_cons (c : Nat) (rest : List Nat) (d : Dev) :
    d.sendOpening (c :: rest) = d.onMx (Matrix.sendFrame (.opening rest) c (d.mx.openFrame c)) :=
  Dev.exchange_onMx_phase _ _ _ d
theorem Dev.sendClosing_cons (c : Nat) (rest : List Nat) (d : Dev) :
    d.sendClosing (c :: rest) = d.onMx (Matrix.sendFrame (.closing rest) c (d.mx.closeFrame c)) :=
  Dev.exchange_onMx_phase _ _ _ d
theorem Dev.sendRecovery_nil (d : Dev) :
    d.sendRecovery [] = d.onMx (Matrix.startRelease .recoveryWait d.cfg.release) := rfl
theorem Dev.sendRecovery_cons (c : Nat) (rest : List Nat) (d : Dev) :
    d.sendRecovery (c :: rest) = d.onMx (Matrix.sendFrame (.recovery rest) c allOpen) :=
  Dev.exchange_onMx_phase _ _ _ d
theorem Dev.sendParking_nil (d : Dev) : d.sendParking [] = d.onMx (Matrix.startRelease .parkWait d.cfg.release) := rfl
theorem Dev.sendParking_cons (c : Nat) (rest : List Nat) (d : Dev) :
    d.sendParking (c :: rest) = d.onMx (Matrix.sendFrame (.parking rest) c allOpen) :=
  Dev.exchange_onMx_phase _ _ _ d
theorem Dev.sendChecking_cons (c : Nat) (rest : List Nat) (d : Dev) :
    d.sendChecking (c :: rest) = d.onMx (Matrix.sendFrame (.checking rest) c allOpen) :=
  Dev.exchange_onMx_phase _ _ _ d

/-! ## The gate (R8) -/

theorem Dev.beginClosing_off {d : Dev} (h : d.hv.state = .off) :
    d.beginClosing = (d.onMx fun m => { m with state := .setting }).sendClosing (cardsOf d.mx.closing) := by
  simp [Dev.beginClosing, Dev.discharged, h]

theorem Dev.beginClosing_held {d : Dev} (h : d.hv.state ≠ .off) :
    d.beginClosing = d.onMx fun m => { m with state := .held, phase := .heldClosing } := by
  simp [Dev.beginClosing, Dev.discharged, h]

theorem Dev.beginOpening_skipped {d : Dev} (h : d.mx.opening = []) : d.beginOpening = d.beginClosing := by
  simp [Dev.beginOpening, h]

theorem Dev.beginOpening_off {d : Dev} (ho : d.mx.opening ≠ []) (h : d.hv.state = .off) :
    d.beginOpening = (d.onMx fun m => { m with state := .setting }).sendOpening (cardsOf d.mx.opening) := by
  simp [Dev.beginOpening, Dev.discharged, h, ho]

theorem Dev.beginOpening_held {d : Dev} (ho : d.mx.opening ≠ []) (h : d.hv.state ≠ .off) :
    d.beginOpening = d.onMx fun m => { m with state := .held, phase := .heldOpening } := by
  simp [Dev.beginOpening, Dev.discharged, h, ho]

theorem Dev.beginRecovery_off {d : Dev} (h : d.hv.state = .off) :
    d.beginRecovery = (d.onMx fun m => { m with tgt := [], state := .setting }).sendRecovery d.mx.presentCards := by
  simp only [Dev.beginRecovery, Dev.discharged, h, decide_true, if_true]
  rfl

theorem Dev.beginRecovery_held {d : Dev} (h : d.hv.state ≠ .off) :
    d.beginRecovery = d.onMx fun m => { m with tgt := [], state := .held, phase := .heldRecovery, link := .idle } := by
  simp only [Dev.beginRecovery, Dev.discharged, h, decide_false, Bool.false_eq_true, if_false]
  rfl

theorem Dev.tryPark_begins {d : Dev} (hp : d.mx.parkPending = true) (hr : d.mx.state = .ready) (h : d.hv.state = .off) :
    d.tryPark = d.beginParking := by
  simp [Dev.tryPark, Dev.discharged, hp, hr, h]

theorem Dev.tryPark_none {d : Dev} (h : d.mx.parkPending = false ∨ d.mx.state ≠ .ready ∨ d.hv.state ≠ .off) :
    d.tryPark = d := by
  have hc : ¬(d.mx.parkPending && decide (d.mx.state = .ready) && d.discharged) = true := by
    simp only [Dev.discharged, Bool.and_eq_true, decide_eq_true_eq]
    rintro ⟨⟨hp, hr⟩, ho⟩
    obtain h | h | h := h
    · simp [hp] at h
    · exact h hr
    · exact h ho
  rw [Dev.tryPark, if_neg hc]

/-- Sending the frames of an activity changes the matrix alone. -/
theorem Dev.sendOpening_frame (cs : List Nat) (d : Dev) : d.sendOpening cs = { d with mx := (d.sendOpening cs).mx } := by
  cases cs with
  | nil => rfl
  | cons c rest => rw [Dev.sendOpening_cons]; rfl

theorem Dev.sendClosing_frame (cs : List Nat) (d : Dev) : d.sendClosing cs = { d with mx := (d.sendClosing cs).mx } := by
  cases cs with
  | nil => rfl
  | cons c rest => rw [Dev.sendClosing_cons]; rfl

theorem Dev.sendRecovery_frame (cs : List Nat) (d : Dev) : d.sendRecovery cs = { d with mx := (d.sendRecovery cs).mx } := by
  cases cs with
  | nil => rfl
  | cons c rest => rw [Dev.sendRecovery_cons]; rfl

theorem Dev.sendParking_frame (cs : List Nat) (d : Dev) : d.sendParking cs = { d with mx := (d.sendParking cs).mx } := by
  cases cs with
  | nil => rfl
  | cons c rest => rw [Dev.sendParking_cons]; rfl

/-- Sending frames is no change of the matrix state (R4). -/
@[simp] theorem Dev.sendOpening_mx_state (cs : List Nat) (d : Dev) : (d.sendOpening cs).mx.state = d.mx.state := by
  cases cs with
  | nil => rfl
  | cons c rest => rw [Dev.sendOpening_cons]; rfl

@[simp] theorem Dev.sendClosing_mx_state (cs : List Nat) (d : Dev) : (d.sendClosing cs).mx.state = d.mx.state := by
  cases cs with
  | nil => rfl
  | cons c rest => rw [Dev.sendClosing_cons]; rfl

/-- Parking begins (R16): the matrix is PARKING with no park pending, and the frames or the release wait follow. -/
theorem Dev.beginParking_eq (d : Dev) :
    d.beginParking = { d with
      mx := ((d.onMx fun m => { m with parkPending := false, state := .parking, parkFault := 0, parkRaised := false }).sendParking
        d.mx.presentCards).mx
      wait := if d.wait = .parkGate then .parkRun else d.wait } := by
  simp only [Dev.beginParking]
  rw [Dev.sendParking_frame]
  rfl

end Sys2Proof.Machine

namespace Sys2Proof.Machine

/-! ## What the gate, a park and the drive supply change -/

theorem Dev.beginClosing_frame (d : Dev) : d.beginClosing = { d with mx := d.beginClosing.mx } := by
  by_cases h : d.hv.state = .off
  · rw [Dev.beginClosing_off h, Dev.sendClosing_frame]; rfl
  · rw [Dev.beginClosing_held h]; rfl

theorem Dev.beginOpening_frame (d : Dev) : d.beginOpening = { d with mx := d.beginOpening.mx } := by
  by_cases ho : d.mx.opening = []
  · rw [Dev.beginOpening_skipped ho]; exact Dev.beginClosing_frame d
  · by_cases h : d.hv.state = .off
    · rw [Dev.beginOpening_off ho h, Dev.sendOpening_frame]; rfl
    · rw [Dev.beginOpening_held ho h]; rfl

theorem Dev.beginRecovery_frame (d : Dev) : d.beginRecovery = { d with mx := d.beginRecovery.mx } := by
  by_cases h : d.hv.state = .off
  · rw [Dev.beginRecovery_off h, Dev.sendRecovery_frame]; rfl
  · rw [Dev.beginRecovery_held h]; rfl

theorem Dev.tryPark_frame (d : Dev) : d.tryPark = { d with mx := d.tryPark.mx, wait := d.tryPark.wait } := by
  unfold Dev.tryPark
  split
  · rw [Dev.beginParking_eq]
  · rfl

theorem Dev.tryDriveOn_frame (d : Dev) : d.tryDriveOn = { d with mx := d.tryDriveOn.mx, wait := d.tryDriveOn.wait } := by
  unfold Dev.tryDriveOn
  split <;> rfl

theorem Dev.tryDriveOn_on {d : Dev} (hw : d.wait = .unparkGate) (hs : d.mx.state = .parked) (ho : d.mx.offT = none)
    (hv : d.hv.state = .off) :
    d.tryDriveOn = { d with
      mx := { d.mx with
        drive := true, state := .unparking, phase := .unparkSettle, unparkT := some 200, pairFlags := 0, stopUnpark := false }
      wait := .unparking } := by
  rw [Dev.tryDriveOn, if_pos ⟨hw, hs, ho, hv⟩]
  rfl

theorem Dev.tryDriveOn_none {d : Dev}
    (h : d.wait ≠ .unparkGate ∨ d.mx.state ≠ .parked ∨ d.mx.offT ≠ none ∨ d.hv.state ≠ .off) : d.tryDriveOn = d := by
  rw [Dev.tryDriveOn, if_neg]
  rintro ⟨hw, hs, ho, hv⟩
  simp [hw, hs, ho, hv] at h

/-- A pending park that begins with the matrix READY: the frames of the PRESENT cards, or the release wait (R15, R16). -/
theorem Dev.beginParking_mx (d : Dev) :
    d.beginParking.mx.state = .parking ∧ d.beginParking.mx.parkPending = false ∧ d.beginParking.mx.parkFault = 0 ∧
    d.beginParking.mx.cur = d.mx.cur ∧ d.beginParking.mx.waitReq = d.mx.waitReq ∧
    (d.mx.presentCards = [] →
      d.beginParking.mx.phase = .parkWait ∧ d.beginParking.mx.releaseT = some d.cfg.release) ∧
    ∀ c rest, d.mx.presentCards = c :: rest →
      d.beginParking.mx.phase = .parking rest ∧ d.beginParking.mx.link = ⟨.sending, c, List.replicate 128 .none, 1⟩ := by
  rw [Dev.beginParking_eq]
  cases hc : d.mx.presentCards with
  | nil => simp [Dev.sendParking_nil]
  | cons c rest => simp [Dev.sendParking_cons, allOpen]

@[simp] theorem Dev.beginParking_wait (d : Dev) :
    d.beginParking.wait = if d.wait = .parkGate then .parkRun else d.wait := by rw [Dev.beginParking_eq]

/-- The recovery setup at the gate with discharged reported: SETTING, the frames of the PRESENT cards or the release wait
(R14). -/
theorem Dev.beginRecovery_mx {d : Dev} (h : d.hv.state = .off) :
    d.beginRecovery.mx.state = .setting ∧ d.beginRecovery.mx.cur = d.mx.cur ∧ d.beginRecovery.mx.tgt = [] ∧
    (d.mx.presentCards = [] →
      d.beginRecovery.mx.phase = .recoveryWait ∧ d.beginRecovery.mx.releaseT = some d.cfg.release) ∧
    ∀ c rest, d.mx.presentCards = c :: rest →
      d.beginRecovery.mx.phase = .recovery rest ∧
        d.beginRecovery.mx.link = ⟨.sending, c, List.replicate 128 .none, 1⟩ := by
  rw [Dev.beginRecovery_off h]
  cases hc : d.mx.presentCards with
  | nil => simp [Dev.sendRecovery_nil]
  | cons c rest => simp [Dev.sendRecovery_cons, allOpen]

/-- The opening phase with discharged reported (R9). -/
theorem Dev.beginOpening_mx {d : Dev} (ho : d.mx.opening ≠ []) (h : d.hv.state = .off) :
    d.beginOpening.mx.state = .setting ∧
    ∀ c rest, cardsOf d.mx.opening = c :: rest →
      d.beginOpening.mx.phase = .opening rest ∧ d.beginOpening.mx.link = ⟨.sending, c, d.mx.openFrame c, 1⟩ := by
  rw [Dev.beginOpening_off ho h]
  refine ⟨by simp, fun c rest hc => ?_⟩
  rw [hc, Dev.sendOpening_cons]
  exact ⟨rfl, rfl⟩

/-- The closing phase with discharged reported (R10). -/
theorem Dev.beginClosing_mx {d : Dev} (h : d.hv.state = .off) :
    d.beginClosing.mx.state = .setting ∧
    ∀ c rest, cardsOf d.mx.closing = c :: rest →
      d.beginClosing.mx.phase = .closing rest ∧ d.beginClosing.mx.link = ⟨.sending, c, d.mx.closeFrame c, 1⟩ ∧
        d.beginClosing.mx.cur = d.mx.cur ∧ d.beginClosing.mx.releaseT = d.mx.releaseT := by
  rw [Dev.beginClosing_off h]
  refine ⟨by simp, fun c rest hc => ?_⟩
  rw [hc, Dev.sendClosing_cons]
  exact ⟨rfl, rfl, rfl, rfl⟩

end Sys2Proof.Machine

namespace Sys2Proof.Machine

/-! ## The card table -/

/-- The echo-failure count of card `c` is written, its state kept. -/
def Matrix.setFails (c n : Nat) (m : Matrix) : Matrix :=
  { m with cards := Tab.set Card.absent m.cards c { m.card c with fails := n } }

/-- An entry written with the state it had leaves the map-valid flag (R60). -/
theorem Dev.setCard_fails (c n : Nat) (d : Dev) :
    d.setCard c { d.mx.card c with fails := n } = d.onMx (Matrix.setFails c n) := by
  have hp : (d.mx.present c && decide ((d.mx.card c).state ≠ .present)) = false := by simp [Matrix.present]
  simp only [Dev.setCard, hp, Bool.not_false, Bool.and_true]
  rfl

theorem Matrix.card_of_set {m : Matrix} {cards : Tab Card} {c : Nat} {k : Card}
    (h : Tab.canonFrom Card.absent 0 cards = true) (hm : m.cards = Tab.set Card.absent cards c k) (x : Nat) :
    m.card x = if x = c then k else Tab.get Card.absent cards x := by
  rw [Matrix.card, hm]
  exact Tab.get_set cards 0 c k x h

theorem Matrix.card_setFails {m : Matrix} (h : Tab.canonFrom Card.absent 0 m.cards = true) (c n x : Nat) :
    (m.setFails c n).card x = if x = c then { m.card c with fails := n } else m.card x :=
  Matrix.card_of_set h rfl x

theorem Matrix.card_setFails_state {m : Matrix} (h : Tab.canonFrom Card.absent 0 m.cards = true) (c n x : Nat) :
    ((m.setFails c n).card x).state = (m.card x).state := by
  rw [Matrix.card_setFails h]
  split
  · rename_i hx; rw [hx]
  · rfl

theorem Matrix.present_setFails {m : Matrix} (h : Tab.canonFrom Card.absent 0 m.cards = true) (c n : Nat) :
    (m.setFails c n).present = m.present := by
  funext x
  simp only [Matrix.present, Matrix.card_setFails_state h]

theorem Matrix.canon_setFails {m : Matrix} (h : Tab.canonFrom Card.absent 0 m.cards = true) (c n : Nat) :
    Tab.canonFrom Card.absent 0 (m.setFails c n).cards = true :=
  Tab.canonFrom_set _ _ _ _ h (Nat.zero_le _)

theorem Matrix.card_sendFrame {m : Matrix} (h : Tab.canonFrom Card.absent 0 m.cards = true) (ph : MPhase) (c : Nat)
    (pat : List Bus) (x : Nat) :
    (m.sendFrame ph c pat).card x = if x = c then { m.card c with fails := 0 } else m.card x :=
  Matrix.card_of_set h rfl x

theorem Dev.setCard_card {d : Dev} (h : Tab.canonFrom Card.absent 0 d.mx.cards = true) (c : Nat) (k : Card) (x : Nat) :
    (d.setCard c k).mx.card x = if x = c then k else d.mx.card x :=
  Matrix.card_of_set h rfl x

/-- A PRESENT card that leaves PRESENT clears the map-valid flag (R60). -/
theorem Dev.setCard_mapValid {d : Dev} {c : Nat} {k : Card} (hp : d.mx.present c = true) (hk : k.state ≠ .present) :
    (d.setCard c k).nets.mapValid = false := by
  simp [Dev.setCard, hp, hk]

/-- Where a card was PRESENT, an entry written leaves one PRESENT or clears the map-valid flag (R60). -/
theorem Dev.setCard_presentCards {d : Dev} (h : Tab.canonFrom Card.absent 0 d.mx.cards = true) (c : Nat) (k : Card)
    (hp : d.mx.presentCards ≠ []) :
    (d.setCard c k).nets.mapValid = false ∨ (d.setCard c k).mx.presentCards ≠ [] := by
  obtain ⟨x, hx⟩ := List.exists_mem_of_ne_nil _ hp
  obtain ⟨hx1, hx2⟩ := List.mem_filter.1 hx
  by_cases hk : x = c ∧ k.state ≠ .present
  · exact .inl (Dev.setCard_mapValid (hk.1 ▸ hx2) hk.2)
  · refine .inr (List.ne_nil_of_mem (a := x) (List.mem_filter.2 ⟨hx1, ?_⟩))
    rw [Matrix.present, Dev.setCard_card h]
    by_cases hc : x = c
    · simpa [hc] using hk
    · simpa [hc, Matrix.present] using hx2

/-! ## The end of an exchange (R12) -/

theorem Dev.echo_correct {d : Dev} {pat : List Bus} (hw : d.mx.link.state = .window) (hp : pat = d.mx.link.pattern) :
    d.echo pat = d.echoCorrect := by
  rw [Dev.echo, if_pos hw, if_pos hp]

theorem Dev.echo_wrong {d : Dev} {pat : List Bus} (hw : d.mx.link.state = .window) (hp : pat ≠ d.mx.link.pattern) :
    d.echo pat = d.attemptFailed false := by
  rw [Dev.echo, if_pos hw, if_neg hp]

theorem Dev.echo_outside {d : Dev} (pat : List Bus) (hw : d.mx.link.state ≠ .window) : d.echo pat = d := by
  rw [Dev.echo, if_neg hw]

theorem Dev.echoMissing_window {d : Dev} (hw : d.mx.link.state = .window) : d.echoMissing = d.attemptFailed true := by
  rw [Dev.echoMissing, if_pos hw]

theorem Dev.echoMissing_outside {d : Dev} (hw : d.mx.link.state ≠ .window) : d.echoMissing = d := by
  rw [Dev.echoMissing, if_neg hw]

/-- The card's count after a failed attempt: one higher, unless an enumeration frame's echo is missing (R12, R19). -/
def Dev.failsAfter (missing : Bool) (d : Dev) : Nat :=
  if missing = true ∧ d.mx.phase = .enumerating then (d.mx.card d.mx.link.card).fails
  else (d.mx.card d.mx.link.card).fails + 1

theorem Dev.failsAfter_wrong (d : Dev) : d.failsAfter false = (d.mx.card d.mx.link.card).fails + 1 := by
  simp [Dev.failsAfter]

theorem Dev.failsAfter_missing {d : Dev} (h : d.mx.phase ≠ .enumerating) :
    d.failsAfter true = (d.mx.card d.mx.link.card).fails + 1 := by
  simp [Dev.failsAfter, h]

theorem Dev.failsAfter_enumerating {d : Dev} (h : d.mx.phase = .enumerating) :
    d.failsAfter true = (d.mx.card d.mx.link.card).fails := by
  simp [Dev.failsAfter, h]

/-- A failed attempt counts, and the frame is sent once more or the exchange has failed (R12). -/
theorem Dev.attemptFailed_eq (missing : Bool) (d : Dev) :
    d.attemptFailed missing =
      if d.mx.link.attempt < 2 then
        (d.onMx (Matrix.setFails d.mx.link.card (d.failsAfter missing))).onMx fun m =>
          { m with link := { d.mx.link with state := .sending, attempt := 2 } }
      else (d.onMx (Matrix.setFails d.mx.link.card (d.failsAfter missing))).exchangeFailed := by
  have hn : (if !(missing && decide (d.mx.phase = .enumerating)) then (d.mx.card d.mx.link.card).fails + 1
      else (d.mx.card d.mx.link.card).fails) = d.failsAfter missing := by
    unfold Dev.failsAfter
    cases missing <;> by_cases h : d.mx.phase = .enumerating <;> simp [h]
  rw [← Dev.setCard_fails, ← hn]
  rfl

/-- The first failed attempt. -/
theorem Dev.attemptFailed_again {d : Dev} (missing : Bool) (h : d.mx.link.attempt < 2) :
    d.attemptFailed missing = { d with
      mx := { d.mx with
        cards := Tab.set Card.absent d.mx.cards d.mx.link.card { d.mx.card d.mx.link.card with fails := d.failsAfter missing }
        link := { d.mx.link with state := .sending, attempt := 2 } } } := by
  rw [Dev.attemptFailed_eq, if_pos h]
  rfl

theorem Dev.attemptFailed_second {d : Dev} (missing : Bool) (h : 2 ≤ d.mx.link.attempt) :
    d.attemptFailed missing = (d.onMx (Matrix.setFails d.mx.link.card (d.failsAfter missing))).exchangeFailed := by
  rw [Dev.attemptFailed_eq, if_neg (by omega)]

/-- A second attempt that brings no correct echo, by either command: the exchange fails, the count written first. -/
theorem exec_secondFailure {s : State} {pat : List Bus} {cmd : Instr} (hw : s.dev.mx.link.state = .window)
    (ha : 2 ≤ s.dev.mx.link.attempt)
    (hc : cmd = .cardEcho pat ∧ pat ≠ s.dev.mx.link.pattern ∨ cmd = .echoWindowExpiry) :
    ∃ n, exec cmd s = .next { s with
      dev := Dev.settle s.hostQ (s.dev.onMx (Matrix.setFails s.dev.mx.link.card n)).exchangeFailed } := by
  obtain ⟨rfl, hp⟩ | rfl := hc
  · refine ⟨s.dev.failsAfter false, ?_⟩
    rw [exec_cardEcho, State.withDev_eq ((Dev.echo_wrong hw hp).trans (Dev.attemptFailed_second _ ha))]
  · refine ⟨s.dev.failsAfter true, ?_⟩
    rw [exec_echoWindowExpiry, State.withDev_eq ((Dev.echoMissing_window hw).trans (Dev.attemptFailed_second _ ha))]

theorem exec_correctEcho {s : State} {pat : List Bus} (hw : s.dev.mx.link.state = .window)
    (hp : pat = s.dev.mx.link.pattern) :
    exec (.cardEcho pat) s = .next { s with dev := Dev.settle s.hostQ s.dev.echoCorrect } := by
  rw [exec_cardEcho, State.withDev_eq (Dev.echo_correct hw hp)]

end Sys2Proof.Machine

namespace Sys2Proof.Machine

/-! ## The unpark told to stop (R22) -/

/-- The matrix is PARKED, and of the rest only the thread goes on or ends (R22). -/
theorem Dev.unparkStop_frame (d : Dev) :
    d.unparkStop = { d.clearCards.onMx Matrix.toParked with tasks := d.unparkStop.tasks, wait := d.unparkStop.wait } := by
  by_cases hw : d.wait = .unparking
  · cases he : d.reader.ending with
    | none => simp only [Dev.unparkStop, if_pos hw, he]
    | some c => simp only [Dev.unparkStop, if_pos hw, he]; rfl
  · simp only [Dev.unparkStop, if_neg hw, Dev.wakeParked]
    split <;> rfl

/-- The matrix of an unpark that stopped: PARKED with the drive off, every card ABSENT, the off timer at 50 ms (R22). -/
theorem Dev.unparkStop_mx (d : Dev) :
    d.unparkStop.mx = { d.mx with
      state := .parked, phase := .idle, cards := [], cur := [], tgt := [], link := .idle, drive := false, offT := some 500
      releaseT := none, unparkT := none, stopUnpark := false } := by
  rw [Dev.unparkStop_frame]; rfl

theorem Dev.unparkStop_mu (d : Dev) : d.unparkStop.mu = d.mu := by
  rw [Dev.unparkStop_frame]; rfl

/-- Every card ABSENT: the map goes with a card that was PRESENT (R60). -/
theorem Dev.unparkStop_nets (d : Dev) :
    d.unparkStop.nets = { d.nets with mapValid := d.nets.mapValid && d.mx.presentCards.isEmpty } := by
  rw [Dev.unparkStop_frame]; rfl

theorem Dev.unparkStop_mapValid {d : Dev} (h : d.nets.mapValid = false ∨ d.mx.presentCards ≠ []) :
    d.unparkStop.nets.mapValid = false := by
  rw [Dev.unparkStop_nets]
  obtain h | h := h <;> simp [h]

/-- The order that an ABORT or a discharge fault ends goes to its end. -/
theorem Dev.unparkStop_ends {d : Dev} {e : Code} (hw : d.wait = .unparking) (he : d.reader.ending = some e) :
    d.unparkStop.tasks = [.endOrder .failed e] ∧ d.unparkStop.wait = .run := by
  simp only [Dev.unparkStop, if_pos hw, he]
  exact ⟨rfl, rfl⟩

/-- With no UNPARK waiting the thread stays, but one that waits for PARKED goes on. -/
theorem Dev.unparkStop_elsewhere {d : Dev} (hw : d.wait ≠ .unparking) :
    d.unparkStop.tasks = d.tasks ∧ d.unparkStop.wait = if d.wait = .forParked then .run else d.wait := by
  have hd : d.unparkStop = (d.clearCards.onMx Matrix.toParked).wakeParked := by simp only [Dev.unparkStop, if_neg hw]
  have hw1 : (d.clearCards.onMx Matrix.toParked).wait = d.wait := rfl
  rw [hd, Dev.wakeParked, hw1]
  by_cases hp : d.wait = .forParked
  · rw [if_pos hp, if_pos hp]; exact ⟨rfl, rfl⟩
  · rw [if_neg hp, if_neg hp]; exact ⟨rfl, rfl⟩

theorem Dev.unlessStopped_stop {d : Dev} (f : Dev → Dev) (h : d.mx.stopUnpark = true) :
    d.unlessStopped f = d.unparkStop := by
  rw [Dev.unlessStopped, if_pos h]

theorem Dev.unlessStopped_goes {d : Dev} (f : Dev → Dev) (h : d.mx.stopUnpark = false) : d.unlessStopped f = f d := by
  rw [Dev.unlessStopped, h]; rfl

/-! ## The frames of an activity, or the wait after its last one -/

theorem Dev.sendParking_mx (cs : List Nat) (d : Dev) :
    (d.sendParking cs).mx.cur = d.mx.cur ∧ (d.sendParking cs).mx.tgt = d.mx.tgt ∧
    (d.sendParking cs).mx.parkFault = d.mx.parkFault ∧ (d.sendParking cs).mx.parkRaised = d.mx.parkRaised ∧
    (cs = [] → (d.sendParking cs).mx.phase = .parkWait ∧ (d.sendParking cs).mx.releaseT = some d.cfg.release ∧
      (d.sendParking cs).mx.link.state = .idle) ∧
    ∀ c rest, cs = c :: rest → (d.sendParking cs).mx.phase = .parking rest ∧
      (d.sendParking cs).mx.link = ⟨.sending, c, List.replicate 128 .none, 1⟩ := by
  cases cs with
  | nil => simp [Dev.sendParking_nil, Link.idle]
  | cons c rest => simp [Dev.sendParking_cons, allOpen]

theorem Dev.sendRecovery_mx (cs : List Nat) (d : Dev) :
    (d.sendRecovery cs).mx.cur = d.mx.cur ∧
    (cs = [] → (d.sendRecovery cs).mx.phase = .recoveryWait ∧ (d.sendRecovery cs).mx.releaseT = some d.cfg.release) ∧
    ∀ c rest, cs = c :: rest → (d.sendRecovery cs).mx.phase = .recovery rest ∧
      (d.sendRecovery cs).mx.link = ⟨.sending, c, List.replicate 128 .none, 1⟩ := by
  cases cs with
  | nil => simp [Dev.sendRecovery_nil]
  | cons c rest => simp [Dev.sendRecovery_cons, allOpen]

/-- A bus-pair probe begins at range L with the configured N, its frames done (R20). -/
theorem Dev.startPair_begins (k : Nat) (d : Dev) :
    (d.startPair k).mx.phase = .pairing k ∧ (d.startPair k).mu.stim = .l ∧ (d.startPair k).mu.route = .pair k ∧
    ∃ j, (d.startPair k).mu.job = some j ∧ j.kind = .pair k ∧ j.rng = .l ∧ j.n = d.cfg.n ∧ j.got = 0 :=
  ⟨rfl, rfl, rfl, _, rfl, rfl, rfl, rfl, rfl⟩

/-- The self-check's frames, or its first bus pair: the matrix and the measurement unit alone (R20). -/
theorem Dev.sendChecking_frame (cs : List Nat) (d : Dev) :
    d.sendChecking cs = { d with mx := (d.sendChecking cs).mx, mu := (d.sendChecking cs).mu } := by
  cases cs with
  | nil => rfl
  | cons c rest => rw [Dev.sendChecking_cons]; rfl

theorem Dev.sendChecking_begins (cs : List Nat) (d : Dev) :
    (cs = [] → (d.sendChecking cs).mx.phase = .pairing 0 ∧ (d.sendChecking cs).mu.stim = .l ∧
      (d.sendChecking cs).mu.route = .pair 0 ∧
      ∃ j, (d.sendChecking cs).mu.job = some j ∧ j.kind = .pair 0 ∧ j.rng = .l ∧ j.n = d.cfg.n ∧ j.got = 0) ∧
    ∀ c rest, cs = c :: rest → (d.sendChecking cs).mx.phase = .checking rest ∧
      (d.sendChecking cs).mx.link = ⟨.sending, c, List.replicate 128 .none, 1⟩ := by
  cases cs with
  | nil => exact ⟨fun _ => Dev.startPair_begins 0 d, fun c rest h => nomatch h⟩
  | cons c rest => simp [Dev.sendChecking_cons, allOpen]

/-- A frame keeps the state of the card it goes to and the entry of every other (R3). -/
theorem Dev.sendParking_card_state {d : Dev} (h : Tab.canonFrom Card.absent 0 d.mx.cards = true) (cs : List Nat) (x : Nat) :
    ((d.sendParking cs).mx.card x).state = (d.mx.card x).state := by
  cases cs with
  | nil => rfl
  | cons c rest =>
    rw [Dev.sendParking_cons, Dev.onMx_mx, Matrix.card_sendFrame h]
    split
    · rename_i hx; rw [hx]
    · rfl

theorem Dev.sendRecovery_card {d : Dev} (h : Tab.canonFrom Card.absent 0 d.mx.cards = true) {cs : List Nat} {x : Nat}
    (hx : cs.contains x = false) : (d.sendRecovery cs).mx.card x = d.mx.card x := by
  cases cs with
  | nil => rfl
  | cons c rest =>
    have hne : x ≠ c := fun e => by simp [e] at hx
    rw [Dev.sendRecovery_cons, Dev.onMx_mx, Matrix.card_sendFrame h, if_neg hne]

theorem Dev.sendChecking_card {d : Dev} (h : Tab.canonFrom Card.absent 0 d.mx.cards = true) {cs : List Nat} {x : Nat}
    (hx : cs.contains x = false) : (d.sendChecking cs).mx.card x = d.mx.card x := by
  cases cs with
  | nil => rfl
  | cons c rest =>
    have hne : x ≠ c := fun e => by simp [e] at hx
    rw [Dev.sendChecking_cons, Dev.onMx_mx, Matrix.card_sendFrame h, if_neg hne]

end Sys2Proof.Machine

namespace Sys2Proof.Machine

/-! ## The answers of measurements (R33 to R41) -/

theorem Job.answer_twoPoint {j : Job} {auto : Bool} {ca cb : Nat} (z : ZeroCodes) (hk : j.kind = .twoPoint auto ca cb) :
    (j.answer z).rng = j.rng ∧ (j.sat = true → (j.answer z).r = none ∧ (j.answer z).sat = true) ∧
    (j.sat = false → (j.answer z).sat = false ∧ (j.answer z).sum = j.sum ∧ (j.answer z).r =
      some (compensated (rawResistance (j.sum - j.n * z.at j.rng) j.rng.k (gainAt j.gain j.rng) j.n) ca cb)) := by
  cases hs : j.sat <;> simp [Job.answer, hk, hs]

theorem Job.answer_probe {j : Job} {t : Nat} (z : ZeroCodes) (hk : j.kind = .probe t) :
    (j.sat = true → (j.answer z).connected = false) ∧
    (j.sat = false →
      (j.answer z).r = some (rawResistance (j.sum - j.n * z.at j.rng) j.rng.k (gainAt j.gain j.rng) j.n) ∧
      (j.answer z).connected =
        decide (rawResistance (j.sum - j.n * z.at j.rng) j.rng.k (gainAt j.gain j.rng) j.n ≤ t)) := by
  cases hs : j.sat <;> simp [Job.answer, hk, hs]

theorem Job.answer_pair {j : Job} {k : Nat} (z : ZeroCodes) (hk : j.kind = .pair k) :
    (j.answer z).connected = !j.allSat := by
  simp [Job.answer, hk]

/-- Subtraction that stops at 0 is the difference, or 0 where it is negative (R35). -/
theorem compensated_eq (raw ca cb : Nat) : compensated raw ca cb = (max 0 ((raw : Int) - ca - cb)).toNat := by
  simp only [compensated]; omega

/-- The millivolts of a window: 50 for each code of its average, 0 where that is negative (R41). -/
theorem windowMillivolts_eq {sumV : Int} {n mv : Nat} (hneg : sumV.tdiv n < 0 → mv = 0)
    (hpos : 0 ≤ sumV.tdiv n → (mv : Int) = sumV.tdiv n * 50) : (windowAverage sumV n * 50).toNat = mv := by
  unfold windowAverage
  by_cases h : sumV.tdiv n < 0
  · rw [hneg h]; omega
  · have := hpos (by omega); omega

/-- The insulation resistance case by case (R41): saturated at the highest current; no current; past the bound; else the
quotient. -/
theorem insulationResistance_cases {sumV sumI : Int} {n mv : Nat} {r : Rng} {z pa : Int}
    (hmv : (windowAverage sumV n * 50).toNat = mv) (hpa : (windowAverage sumI n - z) * r.lsb = pa) :
    (r = .l3 → insulationResistance sumV sumI n true r z = ⟨mv * 1000 / 163835000, .lt, r⟩) ∧
    (pa ≤ 0 → insulationResistance sumV sumI n false r z = ⟨9999999, .gt, r⟩) ∧
    (0 < pa → mv * 1000 / pa.toNat > 9999999 → insulationResistance sumV sumI n false r z = ⟨9999999, .gt, r⟩) ∧
    (0 < pa → mv * 1000 / pa.toNat ≤ 9999999 →
      insulationResistance sumV sumI n false r z = ⟨mv * 1000 / pa.toNat, .none, r⟩) := by
  simp only [insulationResistance, hmv, hpa, Config.maxMegohms]
  refine ⟨fun h => ?_, fun h => ?_, fun h hb => ?_, fun h hb => ?_⟩
  · simp [h]
  · simp [h]
  · simp [show ¬ pa ≤ 0 by omega, hb]
  · simp [show ¬ pa ≤ 0 by omega, show ¬ 9999999 < mv * 1000 / pa.toNat by omega]

/-- Settles O44: each answer by the kind of its measurement, the classes by their limits, the insulation resistance by its
cases. -/
theorem measurementAnswers : Obligations.MeasurementAnswers := by
  refine ⟨fun j z raw hraw => ?_, fun p o hpo => ⟨rfl, fun r => ?_⟩, ?_⟩
  · have hr : raw = rawResistance (j.sum - j.n * z.at j.rng) j.rng.k (gainAt j.gain j.rng) j.n := by
      rw [hraw]
      cases j.rng <;> rfl
    refine ⟨fun auto ca cb hk => ?_, fun t hk => ?_, fun k hk => ?_⟩
    · obtain ⟨hrng, hsat, hnot⟩ := Job.answer_twoPoint z hk
      refine ⟨hsat, fun hs => ?_, hrng⟩
      obtain ⟨h1, h2, h3⟩ := hnot hs
      rw [← hr, compensated_eq] at h3
      exact ⟨h3, h1, h2⟩
    · obtain ⟨hsat, hnot⟩ := Job.answer_probe z hk
      rw [← hr] at hnot
      refine ⟨?_, fun hs => (hnot hs).1⟩
      cases hs : j.sat with
      | true => simp [hsat hs]
      | false => simp [(hnot hs).2]
    · rw [Job.answer_pair z hk]
      cases j.allSat <;> simp
  · refine ⟨fun h => ?_, fun h1 h2 => ?_, fun h => ?_⟩
    · simp [classify, h]
    · simp [classify, h1, show ¬ o < r by omega]
    · simp [classify, show ¬ o < r by omega, show ¬ p < r by omega]
  · intro sumV sumI n sat r lsb z hr hn hsat mv pa hneg hpos hpa
    have hlsb : r.lsb = lsb := by obtain ⟨rfl, rfl⟩ | ⟨rfl, rfl⟩ | ⟨rfl, rfl⟩ := hr <;> rfl
    have hmv := windowMillivolts_eq hneg hpos
    obtain ⟨hlt, hnone, hgt, hquot⟩ :=
      insulationResistance_cases (z := z) hmv (show (windowAverage sumI n - z) * r.lsb = pa by rw [hpa, hlsb]; rfl)
    refine ⟨fun h => ?_, fun h => ?_, fun h => ?_, fun h => ?_, fun rmin => ?_⟩
    · rw [h, hlt (hsat h)]
    · rw [h]; exact hnone
    · rw [h]; exact hgt
    · rw [h]; exact hquot
    · cases sat with
      | true => simp [hlt (hsat rfl), PVal.passes]
      | false =>
        have hmark : (insulationResistance sumV sumI n false r z).mark ≠ .lt := by
          by_cases h0 : pa ≤ 0
          · simp [hnone h0]
          · by_cases hb : mv * 1000 / pa.toNat > 9999999
            · simp [hgt (by omega) hb]
            · simp [hquot (by omega) (by omega)]
        simp [PVal.passes, hmark]

end Sys2Proof.Machine

namespace Sys2Proof.Machine

/-! ## Setup requests (R5 to R8) -/

theorem Dev.takeSetup_refused {t : Tab Bus} {d : Dev} (h : ∃ x ∈ t, d.mx.present (x.1 / 128) = false) :
    d.takeSetup t = d.failOrder .matrixFault := by
  have hr : d.mx.refuses t = true := by simpa [Matrix.refuses, cardOf] using h
  rw [Dev.takeSetup, if_pos hr]

/-- A request for PRESENT cards with nothing to open or close is ready at once (R7). -/
theorem Dev.takeSetup_ready {t : Tab Bus} {d : Dev} {m : Matrix} (h : ∀ x ∈ t, d.mx.present (x.1 / 128) = true)
    (hm : m = { d.mx with tgt := t }) (ho : m.opening = []) (hc : m.closing = []) :
    d.takeSetup t = { d with mx := m, wait := .run } := by
  have hr : ¬ d.mx.refuses t = true := by simpa [Matrix.refuses, cardOf] using h
  have hb : (m.opening.isEmpty && m.closing.isEmpty) = true := by simp [ho, hc]
  subst hm
  rw [Dev.takeSetup, if_neg hr]
  exact if_pos hb

/-- Any other request for PRESENT cards begins the opening at the gate (R7, R8). -/
theorem Dev.takeSetup_begins {t : Tab Bus} {d : Dev} {m : Matrix} (h : ∀ x ∈ t, d.mx.present (x.1 / 128) = true)
    (hm : m = { d.mx with tgt := t }) (hoc : m.opening ≠ [] ∨ m.closing ≠ []) :
    d.takeSetup t =
      { (d.onMx fun _ => { m with requester := true, reqTarget := t }).beginOpening with wait := .setup } := by
  have hr : ¬ d.mx.refuses t = true := by simpa [Matrix.refuses, cardOf] using h
  have hc : ¬ (m.opening.isEmpty && m.closing.isEmpty) = true := by
    simpa [List.isEmpty_iff, ← not_and_or] using hoc
  subst hm
  rw [Dev.takeSetup, if_neg hr]
  exact if_neg hc

/-- What a request for PRESENT cards does at the gate, by what there is to open (R8 to R10). -/
theorem Dev.takeSetup_gate {t : Tab Bus} {d d1 : Dev} {m : Matrix} (h : ∀ x ∈ t, d.mx.present (x.1 / 128) = true)
    (hm : m = { d.mx with tgt := t }) (hd : d1 = d.onMx fun _ => { m with requester := true, reqTarget := t }) :
    (m.opening ≠ [] → d.takeSetup t = { d1.beginOpening with wait := .setup }) ∧
    (m.opening = [] → m.closing ≠ [] → d.takeSetup t = { d1.beginClosing with wait := .setup }) := by
  have hb : d1.mx.opening = m.opening := by rw [hd]; rfl
  constructor
  · intro ho
    rw [Dev.takeSetup_begins h hm (.inl ho), hd]
  · intro ho hc
    rw [Dev.takeSetup_begins h hm (.inr hc), ← hd, Dev.beginOpening_skipped (hb.trans ho)]

/-- Settles O39, by the matrix state and then by what there is to open and to close. -/
theorem setupRequestsAct : Obligations.SetupRequestsAct := by
  intro q t d e hw he
  have hreq : e = d.requestSetup t := he
  clear he
  refine ⟨?_, ?_, ?_⟩
  · intro h
    subst hreq
    obtain h | h | h | ⟨h, hp⟩ := h
    · simp [Dev.requestSetup, h, Dev.failOrder, Dev.goto, hw]
    · simp [Dev.requestSetup, h, Dev.failOrder, Dev.goto, hw]
    · simp [Dev.requestSetup, h, Dev.failOrder, Dev.goto, hw]
    · simp [Dev.requestSetup, h, hp, Dev.failOrder, Dev.goto, hw]
  · intro h
    subst hreq
    obtain h | h := h <;> simp [Dev.requestSetup, h, Dev.onMx]
  · intro hr hp
    have htake : e = d.takeSetup t := by rw [hreq]; simp [Dev.requestSetup, hr, hp]
    clear hreq
    refine ⟨fun hx => ?_, fun hx m hm => ?_⟩
    · rw [htake, Dev.takeSetup_refused hx, Dev.failOrder, Dev.goto, ← hw]
    · obtain ⟨d1, hd⟩ : ∃ d1, d1 = d.onMx fun _ => { m with requester := true, reqTarget := t } := ⟨_, rfl⟩
      obtain ⟨hopen, hclose⟩ := Dev.takeSetup_gate hx hm hd
      have hv1 : d1.hv = d.hv := by rw [hd]; rfl
      have ho1 : d1.mx.opening = m.opening := by rw [hd]; rfl
      have hc1 : d1.mx.closing = m.closing := by rw [hd]; rfl
      refine ⟨fun ho hc => ?_, fun ho hv => ?_, fun ho hc hv => ?_, fun ho hv => ?_, fun ho hc hv => ?_⟩
      · rw [htake, Dev.takeSetup_ready hx hm ho hc, ← hw]
      · rw [htake, hopen ho, Dev.beginOpening_held (by rwa [ho1]) (by rwa [hv1]), hd]
        rfl
      · rw [htake, hclose ho hc, Dev.beginClosing_held (by rwa [hv1]), hd]
        rfl
      · rw [htake, hopen ho, Dev.beginOpening_off (by rwa [ho1]) (by rwa [hv1]), ho1, Dev.sendOpening_frame]
        refine ⟨rfl, by rw [hd]; rfl, by simp, fun c rest hcs => ?_⟩
        rw [hcs, Dev.sendOpening_cons, hd]
        exact ⟨rfl, rfl⟩
      · rw [htake, hclose ho hc, Dev.beginClosing_off (by rwa [hv1]), hc1, Dev.sendClosing_frame]
        refine ⟨rfl, by rw [hd]; rfl, by simp, fun c rest hcs => ?_⟩
        rw [hcs, Dev.sendClosing_cons, hd]
        exact ⟨rfl, rfl⟩

end Sys2Proof.Machine

namespace Sys2Proof.Machine

/-! ## The discharged report (R8, R14, R15, R18) -/

/-- Outside a HELD setup the report lets a pending park begin, or brings the drive on for an UNPARK (R15, R18). -/
theorem Dev.matrixDischarged_other {d : Dev} (h1 : d.mx.phase ≠ .heldOpening) (h2 : d.mx.phase ≠ .heldClosing)
    (h3 : d.mx.phase ≠ .heldRecovery) : d.matrixDischarged = d.tryPark.tryDriveOn := by
  unfold Dev.matrixDischarged
  split
  · exact absurd ‹_› h1
  · exact absurd ‹_› h2
  · exact absurd ‹_› h3
  · rfl

theorem Dev.matrixDischarged_frame (d : Dev) :
    d.matrixDischarged = { d with mx := d.matrixDischarged.mx, wait := d.matrixDischarged.wait } := by
  unfold Dev.matrixDischarged
  split
  · rw [Dev.beginOpening_frame]
  · rw [Dev.beginClosing_frame]
  · rw [Dev.beginRecovery_frame]
  · rw [Dev.tryDriveOn_frame, Dev.tryPark_frame]

/-- The waits that the report alone ends. -/
theorem Dev.offReached_eq (d : Dev) :
    d.offReached = { d.matrixDischarged with
      wait := if d.matrixDischarged.wait = .zeroOff ∨ d.matrixDischarged.wait = .rampHeld ∨ d.matrixDischarged.wait = .hvOff
        then .run else d.matrixDischarged.wait } := by
  obtain ⟨x, hx⟩ : ∃ x, x = d.matrixDischarged := ⟨_, rfl⟩
  simp only [Dev.offReached, ← hx, Dev.wake, Dev.proceed]
  by_cases h1 : x.wait = .zeroOff
  · simp [h1]
  · by_cases h2 : x.wait = .rampHeld
    · simp [h2]
    · by_cases h3 : x.wait = .hvOff
      · simp [h3]
      · simp [h1, h2, h3]

/-- Settles O47, by the phase in which the report meets the matrix. -/
theorem dischargedReportActs : Obligations.DischargedReportActs := by
  intro d e w hv he hw
  rw [Dev.offReached_eq] at he
  have hf := Dev.matrixDischarged_frame d
  refine ⟨?_, ?_, ?_, ?_, ?_, ?_, ?_, ?_, ?_⟩
  · rw [he, hf]
  · rw [he, hf]
  · rw [he, hf]
  · rw [he, hf]
  · rw [he, hf]
  · intro hph ho
    have hm : d.matrixDischarged = d.beginOpening := by simp [Dev.matrixDischarged, hph]
    have hwait : d.beginOpening.wait = d.wait := by rw [Dev.beginOpening_frame]
    obtain ⟨hs, hc⟩ := Dev.beginOpening_mx ho hv
    rw [he, hm, hwait]
    exact ⟨hw.symm, hs, hc⟩
  · intro hph
    have hm : d.matrixDischarged = d.beginClosing := by simp [Dev.matrixDischarged, hph]
    have hwait : d.beginClosing.wait = d.wait := by rw [Dev.beginClosing_frame]
    obtain ⟨hs, hc⟩ := Dev.beginClosing_mx hv
    rw [he, hm, hwait]
    refine ⟨hw.symm, hs, fun c rest hcs => ?_⟩
    obtain ⟨h1, h2, -, -⟩ := hc c rest hcs
    exact ⟨h1, h2⟩
  · intro hph
    have hm : d.matrixDischarged = d.beginRecovery := by simp [Dev.matrixDischarged, hph]
    have hwait : d.beginRecovery.wait = d.wait := by rw [Dev.beginRecovery_frame]
    obtain ⟨hs, -, -, hnil, hcons⟩ := Dev.beginRecovery_mx hv
    rw [he, hm, hwait]
    exact ⟨hw.symm, hs, hnil, hcons⟩
  · intro h1 h2 h3
    have hm := Dev.matrixDischarged_other h1 h2 h3
    refine ⟨fun hp hr => ?_, fun hnp => ?_⟩
    · obtain ⟨hs, hpp, -, -, -, hnil, hcons⟩ := Dev.beginParking_mx d
      have hpark : d.matrixDischarged = d.beginParking := by
        rw [hm, Dev.tryPark_begins hp hr hv, Dev.tryDriveOn_none (.inr (.inl (by simp [hs])))]
      rw [he, hpark, Dev.beginParking_wait, hw]
      refine ⟨?_, hs, hpp, hnil, hcons⟩
      by_cases hg : d.wait = .parkGate <;> simp [hg]
    · have hpark : d.tryPark = d := Dev.tryPark_none (hnp.imp_right .inl)
      rw [hpark] at hm
      refine ⟨fun hg hs ho => ?_, fun hg => ?_⟩
      · rw [he, hm, Dev.tryDriveOn_on hg hs ho hv]
        rfl
      · rw [he, hm, Dev.tryDriveOn_none, hw]
        obtain hg | hg | hg := hg
        · exact .inl hg
        · exact .inr (.inl hg)
        · exact .inr (.inr (.inl hg))

end Sys2Proof.Machine

namespace Sys2Proof.Machine

/-! ## Sparse tables as lists of entries -/

/-- The canonical form: the keys rise, none lies below `low`, and no entry holds the default. -/
theorem Tab.canonFrom_iff {α : Type} [DecidableEq α] {d : α} {low : Nat} {t : Tab α} :
    Tab.canonFrom d low t = true ↔ t.Pairwise (fun a b => a.1 < b.1) ∧ ∀ e ∈ t, low ≤ e.1 ∧ e.2 ≠ d := by
  induction t generalizing low with
  | nil => simp [Tab.canonFrom]
  | cons e t ih =>
    obtain ⟨k, v⟩ := e
    simp only [Tab.canonFrom, Bool.and_eq_true, decide_eq_true_eq, ih, List.pairwise_cons, List.forall_mem_cons]
    constructor
    · rintro ⟨⟨hk, hv⟩, hp, ht⟩
      exact ⟨⟨fun b hb => (ht b hb).1, hp⟩, ⟨hk, hv⟩, fun b hb => ⟨by have := (ht b hb).1; omega, (ht b hb).2⟩⟩
    · rintro ⟨⟨hlt, hp⟩, ⟨hk, hv⟩, ht⟩
      exact ⟨⟨hk, hv⟩, hp, fun b hb => ⟨hlt b hb, (ht b hb).2⟩⟩

/-- What a key of a canonical table reads: its entry's value. -/
theorem Tab.get_of_mem {α : Type} [DecidableEq α] {d v : α} {low n : Nat} {t : Tab α} (h : Tab.canonFrom d low t = true)
    (hm : (n, v) ∈ t) : Tab.get d t n = v := by
  induction t generalizing low with
  | nil => simp at hm
  | cons e t ih =>
    obtain ⟨k, w⟩ := e
    simp only [Tab.canonFrom, Bool.and_eq_true, decide_eq_true_eq] at h
    obtain ⟨-, ht⟩ := h
    obtain heq | hm := List.mem_cons.1 hm
    · obtain ⟨rfl, rfl⟩ := Prod.mk.inj heq
      simp [Tab.get]
    · have hk : k + 1 ≤ n := ((Tab.canonFrom_iff.1 ht).2 _ hm).1
      simp [Tab.get, show ¬ n < k by omega, show n ≠ k by omega, ih ht hm]

/-- A key with no entry reads the default. -/
theorem Tab.get_of_not_mem {α : Type} {d : α} {n : Nat} {t : Tab α} (hm : ∀ v, (n, v) ∉ t) : Tab.get d t n = d := by
  induction t with
  | nil => rfl
  | cons e t ih =>
    obtain ⟨k, w⟩ := e
    have hk : n ≠ k := fun hc => hm w (by rw [hc]; exact List.mem_cons_self)
    have ht := ih fun v hv => hm v (List.mem_cons_of_mem _ hv)
    by_cases hlt : n < k <;> simp [Tab.get, hlt, hk, ht]

/-- The entry of a key that does not read the default. -/
theorem Tab.mem_of_get {α : Type} {d : α} {n : Nat} {t : Tab α} (h : Tab.get d t n ≠ d) : (n, Tab.get d t n) ∈ t := by
  induction t with
  | nil => exact absurd rfl h
  | cons e t ih =>
    obtain ⟨k, w⟩ := e
    by_cases hlt : n < k
    · simp [Tab.get, hlt] at h
    · by_cases hk : n = k
      · simp [Tab.get, hk]
      · simp only [Tab.get, hlt, hk, if_false] at h ⊢
        exact List.mem_cons_of_mem _ (ih h)

/-- What is left of a canonical table when some entries go. -/
theorem Tab.canonFrom_filter {α : Type} [DecidableEq α] {d : α} {low : Nat} {t : Tab α} (p : Nat × α → Bool)
    (h : Tab.canonFrom d low t = true) : Tab.canonFrom d low (t.filter p) = true := by
  obtain ⟨hp, ht⟩ := Tab.canonFrom_iff.1 h
  exact Tab.canonFrom_iff.2 ⟨hp.filter _, fun e he => ht e (List.mem_filter.1 he).1⟩

theorem Tab.get_filter {α : Type} [DecidableEq α] {d : α} {t : Tab α} (p : Nat × α → Bool)
    (h : Tab.canonFrom d 0 t = true) (n : Nat) :
    Tab.get d (t.filter p) n = if p (n, Tab.get d t n) = true then Tab.get d t n else d := by
  by_cases hd : Tab.get d t n = d
  · have hnone : ∀ v, (n, v) ∉ t.filter p := fun v hv => by
      have hv' := (List.mem_filter.1 hv).1
      exact ((Tab.canonFrom_iff.1 h).2 _ hv').2 ((Tab.get_of_mem h hv').symm.trans hd)
    rw [Tab.get_of_not_mem hnone, hd, ite_self]
  · have hm := Tab.mem_of_get hd
    by_cases hp : p (n, Tab.get d t n) = true
    · rw [if_pos hp, Tab.get_of_mem (Tab.canonFrom_filter p h) (List.mem_filter.2 ⟨hm, hp⟩)]
    · rw [if_neg hp]
      refine Tab.get_of_not_mem fun v hv => hp ?_
      obtain ⟨hv1, hv2⟩ := List.mem_filter.1 hv
      rw [Tab.get_of_mem h hv1]
      exact hv2

/-- Two tables with all keys of the first below those of the second. -/
theorem Tab.canonFrom_append {α : Type} [DecidableEq α] {d : α} {low : Nat} {t u : Tab α}
    (ht : Tab.canonFrom d low t = true) (hu : Tab.canonFrom d low u = true) (h : ∀ a ∈ t, ∀ b ∈ u, a.1 < b.1) :
    Tab.canonFrom d low (t ++ u) = true := by
  obtain ⟨h1, h2⟩ := Tab.canonFrom_iff.1 ht
  obtain ⟨h3, h4⟩ := Tab.canonFrom_iff.1 hu
  refine Tab.canonFrom_iff.2 ⟨List.pairwise_append.2 ⟨h1, h3, h⟩, fun e he => ?_⟩
  obtain he | he := List.mem_append.1 he
  · exact h2 e he
  · exact h4 e he

/-! ## The image after a closing frame (R10) -/

theorem mem_spliceCard {c : Nat} {src t : Tab Bus} {e : Nat × Bus} :
    e ∈ spliceCard c src t ↔ (cardOf e.1 = c ∧ e ∈ src) ∨ (cardOf e.1 ≠ c ∧ e ∈ t) := by
  simp only [spliceCard, List.mem_append, List.mem_filter, decide_eq_true_eq]
  constructor
  · rintro ((⟨hm, h⟩ | ⟨hm, h⟩) | ⟨hm, h⟩)
    · exact .inr ⟨by omega, hm⟩
    · exact .inl ⟨h, hm⟩
    · exact .inr ⟨by omega, hm⟩
  · rintro (⟨h, hm⟩ | ⟨h, hm⟩)
    · exact .inl (.inr ⟨hm, h⟩)
    · obtain hlt | hgt := Nat.lt_or_gt_of_ne h
      · exact .inl (.inl ⟨hm, hlt⟩)
      · exact .inr ⟨hm, hgt⟩

theorem spliceCard_canon {c : Nat} {src t : Tab Bus} (hs : Tab.canonFrom .none 0 src = true)
    (ht : Tab.canonFrom .none 0 t = true) : Tab.canonFrom .none 0 (spliceCard c src t) = true := by
  have hmono : ∀ a b : Nat, cardOf a < cardOf b → a < b := fun a b h => by unfold cardOf at h; omega
  refine Tab.canonFrom_append (Tab.canonFrom_append (Tab.canonFrom_filter _ ht) (Tab.canonFrom_filter _ hs) ?_)
    (Tab.canonFrom_filter _ ht) ?_
  · intro a ha b hb
    simp only [List.mem_filter, decide_eq_true_eq] at ha hb
    exact hmono _ _ (by omega)
  · intro a ha b hb
    simp only [List.mem_append, List.mem_filter, decide_eq_true_eq] at ha hb
    exact hmono _ _ (by omega)

/-- A closing frame brings the card's points to their target and leaves every other point (R10). -/
theorem get_spliceCard {c : Nat} {src t : Tab Bus} (hs : Tab.canonFrom .none 0 src = true)
    (ht : Tab.canonFrom .none 0 t = true) (p : Nat) :
    Tab.get .none (spliceCard c src t) p = if cardOf p = c then Tab.get .none src p else Tab.get .none t p := by
  have key : ∀ u : Tab Bus, Tab.canonFrom .none 0 u = true → (∀ v, (p, v) ∈ spliceCard c src t ↔ (p, v) ∈ u) →
      Tab.get .none (spliceCard c src t) p = Tab.get .none u p := by
    intro u hu hmem
    by_cases hd : Tab.get .none u p = .none
    · rw [hd]
      refine Tab.get_of_not_mem fun v hv => ?_
      have hv' := (hmem v).1 hv
      exact ((Tab.canonFrom_iff.1 hu).2 _ hv').2 ((Tab.get_of_mem hu hv').symm.trans hd)
    · exact Tab.get_of_mem (spliceCard_canon hs ht) ((hmem _).2 (Tab.mem_of_get hd))
  by_cases h : cardOf p = c
  · rw [if_pos h]
    exact key src hs fun v => by simp [mem_spliceCard, h]
  · rw [if_neg h]
    exact key t ht fun v => by simp [mem_spliceCard, h]

/-! ## Correct echoes of a setup (R9, R10) -/

theorem Dev.echoCorrect_opening {d : Dev} {rest : List Nat} (h : d.mx.phase = .opening rest) :
    d.echoCorrect = (d.onMx fun m =>
      { m with
        cur := m.cur.filter fun e =>
          !(decide (cardOf e.1 = d.mx.link.card) && decide (m.target e.1 ≠ e.2)) }).sendOpening rest := by
  simp [Dev.echoCorrect, h]

theorem Dev.echoCorrect_closing {d : Dev} {rest : List Nat} (h : d.mx.phase = .closing rest) :
    d.echoCorrect = (d.onMx fun m => { m with cur := spliceCard d.mx.link.card m.tgt m.cur }).sendClosing rest := by
  simp [Dev.echoCorrect, h]

/-- Settles O37: the echo by its phase and the cards that follow; the image by the tables' entries. -/
theorem setupFollowsCorrectEchoes : Obligations.SetupFollowsCorrectEchoes := by
  refine ⟨fun s pat c hw hc hp => ?_, fun cur tgt c p hcur htgt => ?_⟩
  · have hex := exec_correctEcho hw hp.symm
    rw [hex]
    refine ⟨fun h => ?_, fun c' rest h => ?_, fun h => ?_, fun c' rest h => ?_⟩
    · rw [Dev.echoCorrect_opening h, hc]; rfl
    · refine ⟨_, rfl, rfl, rfl, fun hr => ?_⟩
      rw [Dev.echoCorrect_opening h, hc, Dev.sendOpening_cons]
      rw [Dev.settle_resting _ (by simpa [Dev.Resting] using hr), Dev.sync_mx]
      exact ⟨rfl, rfl, rfl, rfl⟩
    · rw [Dev.echoCorrect_closing h, hc]; rfl
    · refine ⟨_, rfl, rfl, rfl, fun hr => ?_⟩
      rw [Dev.echoCorrect_closing h, hc, Dev.sendClosing_cons]
      rw [Dev.settle_resting _ (by simpa [Dev.Resting] using hr), Dev.sync_mx]
      exact ⟨rfl, rfl, rfl, rfl, rfl⟩
  · refine ⟨get_spliceCard htgt hcur p, ?_, spliceCard_canon htgt hcur, Tab.canonFrom_filter _ hcur⟩
    rw [Tab.get_filter _ hcur]
    by_cases h : cardOf p = c ∧ Tab.get .none tgt p ≠ Tab.get .none cur p
    · rw [if_pos h, if_neg (by simpa using h)]
    · rw [if_neg h, if_pos (by simpa [imp_iff_not_or] using h)]

end Sys2Proof.Machine

namespace Sys2Proof.Machine

/-! ## Card faults and the recovery setup (R13, R14) -/

/-- Every other card keeps its state, the faulted one leaves the PRESENT cards (R13). -/
theorem Dev.faultCard_card {d : Dev} (h : Tab.canonFrom Card.absent 0 d.mx.cards = true) (c x : Nat) :
    (d.faultCard c).mx.card x = if x = c then ⟨.faulted, 2⟩ else d.mx.card x :=
  Dev.setCard_card h c ⟨.faulted, 2⟩ x

theorem Dev.faultCard_present {d : Dev} (h : Tab.canonFrom Card.absent 0 d.mx.cards = true) (c : Nat) :
    (d.faultCard c).mx.present = fun x => decide (x ≠ c) && d.mx.present x := by
  funext x
  rw [Matrix.present, Dev.faultCard_card h]
  by_cases hx : x = c
  · simp [hx]
  · simp [hx, Matrix.present]

theorem Dev.faultCard_canon {d : Dev} (h : Tab.canonFrom Card.absent 0 d.mx.cards = true) (c : Nat) :
    Tab.canonFrom Card.absent 0 (d.faultCard c).mx.cards = true :=
  Tab.canonFrom_set _ _ _ _ h (Nat.zero_le _)

theorem Dev.faultCard_mapValid {d : Dev} {c : Nat} (hp : d.mx.present c = true) :
    (d.faultCard c).nets.mapValid = false :=
  Dev.setCard_mapValid (k := ⟨.faulted, 2⟩) hp (by simp)

/-- The recovery setup sends no frame to a card that is not PRESENT, so such a card's entry stays (R14). -/
theorem Dev.beginRecovery_card {d : Dev} {c : Nat} (h : Tab.canonFrom Card.absent 0 d.mx.cards = true)
    (hp : d.mx.present c = false) : d.beginRecovery.mx.card c = d.mx.card c := by
  by_cases hv : d.hv.state = .off
  · rw [Dev.beginRecovery_off hv]
    cases hc : d.mx.presentCards with
    | nil => rfl
    | cons c' rest =>
      have hp' : d.mx.present c' = true := (List.mem_filter.1 (hc ▸ List.mem_cons_self : c' ∈ d.mx.presentCards)).2
      have hne : c ≠ c' := fun e => by rw [e, hp'] at hp; cases hp
      rw [Dev.sendRecovery_cons, Dev.onMx_mx, Matrix.card_sendFrame (by simpa using h), if_neg hne]
      rfl
  · rw [Dev.beginRecovery_held hv]; rfl

theorem Dev.beginRecovery_image (d : Dev) : d.beginRecovery.mx.cur = d.mx.cur ∧ d.beginRecovery.mx.tgt = [] := by
  by_cases hv : d.hv.state = .off
  · obtain ⟨-, hcur, htgt, -⟩ := Dev.beginRecovery_mx hv
    exact ⟨hcur, htgt⟩
  · rw [Dev.beginRecovery_held hv]; exact ⟨rfl, rfl⟩

/-- In a setup, two failed attempts fault the card, raise MATRIX and begin the recovery setup (R13). -/
theorem Dev.exchangeFailed_setup {d : Dev} (h : ∃ rest, d.mx.phase = .opening rest ∨ d.mx.phase = .closing rest) :
    d.exchangeFailed = ((d.faultCard d.mx.link.card).raise srcMatrix).beginRecovery := by
  obtain ⟨rest, h | h⟩ := h <;> simp [Dev.exchangeFailed, h]

/-- Settles O38: the count is written, the card faulted, MATRIX raised and the recovery setup begun, and the requester's wait
leaves all of it to the end of the command. -/
theorem secondMismatchFaultsCard : Obligations.SecondMismatchFaultsCard := by
  intro s pat c cmd hw hc ha hcmd hph hwait hcan
  obtain ⟨n, hex⟩ := exec_secondFailure hw ha hcmd
  obtain ⟨d0, hd0⟩ : ∃ d0, d0 = s.dev.onMx (Matrix.setFails c n) := ⟨_, rfl⟩
  obtain ⟨d1, hd1⟩ : ∃ d1, d1 = (d0.faultCard c).raise srcMatrix := ⟨_, rfl⟩
  have hcan0 : Tab.canonFrom Card.absent 0 d0.mx.cards = true := by rw [hd0]; exact Matrix.canon_setFails hcan c n
  have hpres0 : d0.mx.present = s.dev.mx.present := by rw [hd0]; exact Matrix.present_setFails hcan c n
  have hpres1 : d1.mx.present = fun x => decide (x ≠ c) && s.dev.mx.present x := by
    rw [hd1, ← hpres0]; exact Dev.faultCard_present hcan0 c
  have hcan1 : Tab.canonFrom Card.absent 0 d1.mx.cards = true := by rw [hd1]; exact Dev.faultCard_canon hcan0 c
  have hcard1 : d1.mx.card c = ⟨.faulted, 2⟩ := by
    rw [hd1]; exact (Dev.faultCard_card hcan0 c c).trans (if_pos rfl)
  have hv1 : d1.hv = s.dev.hv := by rw [hd1, hd0]; rfl
  have hfail : d0.exchangeFailed = d1.beginRecovery := by
    have hl : d0.mx.link.card = c := by rw [hd0]; exact hc
    have hph0 : ∃ rest, d0.mx.phase = .opening rest ∨ d0.mx.phase = .closing rest := by rw [hd0]; exact hph
    rw [Dev.exchangeFailed_setup hph0, hl, hd1]
  rw [hc, ← hd0, hfail] at hex
  have hframe := Dev.beginRecovery_frame d1
  have hwait1 : d1.beginRecovery.wait = .setup := by rw [hframe, hd1, hd0]; exact hwait
  have hsettle : d1.beginRecovery.settle s.hostQ = d1.beginRecovery.sync :=
    Dev.settle_resting _ (.inl (by rw [hwait1]; decide))
  obtain ⟨hcur, htgt⟩ := Dev.beginRecovery_image d1
  have hcard : d1.beginRecovery.mx.card c = ⟨.faulted, 2⟩ := by
    rw [Dev.beginRecovery_card hcan1 (by simp [hpres1]), hcard1]
  refine ⟨_, hex, rfl, rfl, ?_⟩
  simp only [hsettle, Dev.sync_wait, Dev.sync_tasks, Dev.sync_mx, Dev.sync_nets, Dev.sync_attn]
  refine ⟨hwait1, ?_, ?_, htgt, ?_, fun hp => ?_, fun hv => ?_, fun hv => ?_⟩
  · rw [hframe, hd1, hd0]; rfl
  · rw [hcur, hd1, hd0]; rfl
  · have hreq : hasSrc d1.attn.req 1 = true := by
      rw [hd1, Dev.raise_attn, hasSrc_or, hasSrc_bit, srcMatrix, decide_eq_true rfl, Bool.or_true]
    rw [Dev.hasSrc_syncAttn, hframe]
    simpa using hreq
  · rw [hframe, hd1]
    exact Dev.faultCard_mapValid (by rw [hpres0]; exact hp)
  · refine ⟨hcard, ?_⟩
    rw [Dev.beginRecovery_held (by rwa [hv1])]
    exact ⟨rfl, rfl⟩
  · obtain ⟨hs, -, -, hnil, hcons⟩ := Dev.beginRecovery_mx (d := d1) (by rwa [hv1])
    refine ⟨hcard, hs, ?_⟩
    have hfind : cardNumbers.find? d1.mx.present = d1.mx.presentCards.head? := List.head?_filter.symm
    rw [← hpres1, hfind]
    cases hcs : d1.mx.presentCards with
    | nil =>
      obtain ⟨h1, h2⟩ := hnil hcs
      exact ⟨fun c' h => (nomatch h), fun _ => ⟨h1, h2.trans (by rw [hd1, hd0]; rfl)⟩⟩
    | cons c1 rest =>
      refine ⟨fun c' h => ?_, fun h => nomatch h⟩
      rw [← Option.some.inj h]
      exact (hcons c1 rest hcs).2

end Sys2Proof.Machine

namespace Sys2Proof.Machine

/-! ## The end of a frame (R12, R21, R22) -/

theorem Dev.frameEnd_opens {d : Dev} (hl : d.mx.link.state = .sending) (hp : ∀ rest, d.mx.phase ≠ .failing rest) :
    d.frameEnd = { d with mx := { d.mx with link := { d.mx.link with state := .window } } } := by
  rw [Dev.frameEnd, if_pos hl]
  split
  · exact absurd ‹_› (hp _)
  · rfl

theorem Dev.frameEnd_failing {d : Dev} {rest : List Nat} (hl : d.mx.link.state = .sending) (hp : d.mx.phase = .failing rest) :
    d.frameEnd = d.unlessStopped (Dev.sendFailing rest) := by
  simp [Dev.frameEnd, hl, hp]

/-! ## An echo, by what the matrix does -/

theorem Dev.echoCorrect_recovery {d : Dev} {rest : List Nat} (h : d.mx.phase = .recovery rest) :
    d.echoCorrect = (d.onMx fun m => { m with cur := dropCard d.mx.link.card m.cur }).sendRecovery rest := by
  simp [Dev.echoCorrect, h]

theorem Dev.echoCorrect_parking {d : Dev} {rest : List Nat} (h : d.mx.phase = .parking rest) :
    d.echoCorrect = (d.onMx fun m =>
      { m with cur := dropCard d.mx.link.card m.cur, tgt := dropCard d.mx.link.card m.tgt }).sendParking rest := by
  simp [Dev.echoCorrect, h]

theorem Dev.echoCorrect_enumerating {d : Dev} (h : d.mx.phase = .enumerating) :
    d.echoCorrect = (d.setCard d.mx.link.card { d.mx.card d.mx.link.card with state := .present }).unlessStopped
      (Dev.sendEnumeration (d.mx.link.card + 1)) := by
  simp [Dev.echoCorrect, h]

theorem Dev.echoCorrect_checking {d : Dev} {rest : List Nat} (h : d.mx.phase = .checking rest) :
    d.echoCorrect = d.unlessStopped (Dev.sendChecking rest) := by
  simp [Dev.echoCorrect, h]

theorem Dev.exchangeFailed_recovery {d : Dev} {rest : List Nat} (h : d.mx.phase = .recovery rest) :
    d.exchangeFailed = (d.faultCard d.mx.link.card).sendRecovery rest := by
  simp [Dev.exchangeFailed, h]

theorem Dev.exchangeFailed_parking {d : Dev} {rest : List Nat} (h : d.mx.phase = .parking rest) :
    d.exchangeFailed = ((if d.mx.parkRaised then d else d.raise srcMatrix).onMx fun m =>
      { m with parkFault := m.parkFault ||| cardBit d.mx.link.card, parkRaised := true }).sendParking rest := by
  simp [Dev.exchangeFailed, h]

theorem Dev.exchangeFailed_enumerating {d : Dev} (h : d.mx.phase = .enumerating) :
    d.exchangeFailed = (d.setCard d.mx.link.card { d.mx.card d.mx.link.card with
      state := if (d.mx.card d.mx.link.card).fails = 0 then .absent else .faulted }).unlessStopped
        (Dev.sendEnumeration (d.mx.link.card + 1)) := by
  simp [Dev.exchangeFailed, h]

theorem Dev.exchangeFailed_checking {d : Dev} {rest : List Nat} (h : d.mx.phase = .checking rest) :
    d.exchangeFailed = (d.faultCard d.mx.link.card).unlessStopped (Dev.sendChecking rest) := by
  simp [Dev.exchangeFailed, h]

/-- The second failed attempt of an enumeration frame whose card then has `n` failures: ABSENT without any, else FAULTED, and
the next card (R19). -/
theorem Dev.enumeration_secondFailure {d : Dev} (n : Nat) (h : d.mx.phase = .enumerating) (hs : d.mx.stopUnpark = false) :
    ∃ x : Dev, (d.onMx (Matrix.setFails d.mx.link.card n)).exchangeFailed = Dev.sendEnumeration (d.mx.link.card + 1) x ∧
      (Tab.canonFrom Card.absent 0 d.mx.cards = true →
        x.mx.card d.mx.link.card = ⟨if n = 0 then .absent else .faulted, n⟩) := by
  obtain ⟨d0, hd0⟩ : ∃ d0, d0 = d.onMx (Matrix.setFails d.mx.link.card n) := ⟨_, rfl⟩
  have hph : d0.mx.phase = .enumerating := by rw [hd0]; exact h
  have hst : d0.mx.stopUnpark = false := by rw [hd0]; exact hs
  have hl : d0.mx.link.card = d.mx.link.card := by rw [hd0]; rfl
  refine ⟨d0.setCard d.mx.link.card { d0.mx.card d.mx.link.card with
    state := if (d0.mx.card d.mx.link.card).fails = 0 then .absent else .faulted }, ?_, fun hcan => ?_⟩
  · rw [← hd0, Dev.exchangeFailed_enumerating hph, hl]
    exact Dev.unlessStopped_goes _ hst
  · have hcard : d0.mx.card d.mx.link.card = { d.mx.card d.mx.link.card with fails := n } := by
      rw [hd0]; exact (Matrix.card_setFails hcan _ n _).trans (if_pos rfl)
    have hcan0 : Tab.canonFrom Card.absent 0 d0.mx.cards = true := by rw [hd0]; exact Matrix.canon_setFails hcan _ n
    rw [Dev.setCard_card hcan0, if_pos rfl, hcard]

/-! ## The end of an exchange, good or bad -/

/-- An exchange ends with a correct echo, or without one after its second attempt, the card's failures then `n` (R12). -/
def Dev.exchangeEnds (good : Bool) (n : Nat) (d : Dev) : Dev :=
  if good then d.echoCorrect else (d.onMx (Matrix.setFails d.mx.link.card n)).exchangeFailed

theorem exec_exchangeEnds {s : State} {pat : List Bus} {cmd : Instr} {good : Bool} (hw : s.dev.mx.link.state = .window)
    (hc : good = true ∧ cmd = .cardEcho pat ∧ pat = s.dev.mx.link.pattern ∨
      good = false ∧ 2 ≤ s.dev.mx.link.attempt ∧
        (cmd = .cardEcho pat ∧ pat ≠ s.dev.mx.link.pattern ∨ cmd = .echoWindowExpiry)) :
    ∃ n, exec cmd s = .next { s with dev := Dev.settle s.hostQ (s.dev.exchangeEnds good n) } := by
  obtain ⟨rfl, rfl, hp⟩ | ⟨rfl, ha, hcmd⟩ := hc
  · exact ⟨0, exec_correctEcho hw hp⟩
  · exact exec_secondFailure hw ha hcmd

/-- Enumeration and the self-check, told to stop, stop at the end of the exchange; a card that was PRESENT still is, or has
cleared the map-valid flag (R22, R60). -/
theorem Dev.exchangeEnds_stopped {d : Dev} (good : Bool) (n : Nat)
    (hph : ∃ rest, d.mx.phase = .enumerating ∨ d.mx.phase = .checking rest) (hs : d.mx.stopUnpark = true)
    (hcan : Tab.canonFrom Card.absent 0 d.mx.cards = true) :
    ∃ x : Dev, d.exchangeEnds good n = x.unparkStop ∧ x.wait = d.wait ∧ x.reader = d.reader ∧
      (d.mx.presentCards ≠ [] → x.nets.mapValid = false ∨ x.mx.presentCards ≠ []) := by
  obtain ⟨d0, hd0⟩ : ∃ d0, d0 = d.onMx (Matrix.setFails d.mx.link.card n) := ⟨_, rfl⟩
  have hcan0 : Tab.canonFrom Card.absent 0 d0.mx.cards = true := by rw [hd0]; exact Matrix.canon_setFails hcan _ n
  have hpres0 : d0.mx.presentCards = d.mx.presentCards := by
    rw [hd0, Matrix.presentCards, Dev.onMx_mx, Matrix.present_setFails hcan]; rfl
  have hs0 : d0.mx.stopUnpark = true := by rw [hd0]; exact hs
  have hph0 : d0.mx.phase = d.mx.phase := by rw [hd0]; rfl
  have hwait0 : d0.wait = d.wait := by rw [hd0]; rfl
  have hreader0 : d0.reader = d.reader := by rw [hd0]; rfl
  obtain ⟨rest, hph | hph⟩ := hph
  · cases good with
    | true =>
      exact ⟨_, (Dev.echoCorrect_enumerating hph).trans (Dev.unlessStopped_stop _ hs), rfl, rfl,
        Dev.setCard_presentCards hcan _ _⟩
    | false =>
      refine ⟨_, (congrArg Dev.exchangeFailed hd0.symm).trans ((Dev.exchangeFailed_enumerating (hph0.trans hph)).trans
        (Dev.unlessStopped_stop _ hs0)), hwait0, hreader0, ?_⟩
      rw [← hpres0]
      exact Dev.setCard_presentCards hcan0 _ _
  · cases good with
    | true => exact ⟨d, (Dev.echoCorrect_checking hph).trans (Dev.unlessStopped_stop _ hs), rfl, rfl, .inr⟩
    | false =>
      refine ⟨_, (congrArg Dev.exchangeFailed hd0.symm).trans ((Dev.exchangeFailed_checking (hph0.trans hph)).trans
        (Dev.unlessStopped_stop _ hs0)), hwait0, hreader0, ?_⟩
      rw [← hpres0]
      exact Dev.setCard_presentCards hcan0 _ ⟨.faulted, 2⟩

/-- A park: the card's points leave the image, or its bit joins the park-fault mask, MATRIX raised once (R16). -/
theorem Dev.exchangeEnds_parking {d : Dev} {rest : List Nat} (good : Bool) (n : Nat) (hph : d.mx.phase = .parking rest)
    (hcan : Tab.canonFrom Card.absent 0 d.mx.cards = true) :
    ∃ x : Dev, d.exchangeEnds good n = x.sendParking rest ∧ x = { d with mx := x.mx, attn := x.attn } ∧
      x.mx.cur = (if good then dropCard d.mx.link.card d.mx.cur else d.mx.cur) ∧
      x.mx.tgt = (if good then dropCard d.mx.link.card d.mx.tgt else d.mx.tgt) ∧
      x.mx.parkFault = (if good then d.mx.parkFault else d.mx.parkFault ||| cardBit d.mx.link.card) ∧
      x.attn.req = (if good ∨ d.mx.parkRaised = true then d.attn.req else d.attn.req ||| srcBit 1) ∧
      x.mx.parkRaised = (d.mx.parkRaised || !good) ∧ Tab.canonFrom Card.absent 0 x.mx.cards = true ∧
      ∀ c, (x.mx.card c).state = (d.mx.card c).state := by
  cases good with
  | true =>
    refine ⟨_, Dev.echoCorrect_parking hph, rfl, rfl, rfl, rfl, by simp, by simp, hcan, fun c => rfl⟩
  | false =>
    obtain ⟨d0, hd0⟩ : ∃ d0, d0 = d.onMx (Matrix.setFails d.mx.link.card n) := ⟨_, rfl⟩
    obtain ⟨d1, hd1⟩ : ∃ d1, d1 = if d.mx.parkRaised then d0 else d0.raise srcMatrix := ⟨_, rfl⟩
    have hmx : d1.mx = d.mx.setFails d.mx.link.card n := by rw [hd1, hd0]; split <;> rfl
    have hframe : d1 = { d with mx := d1.mx, attn := d1.attn } := by rw [hd1, hd0]; split <;> rfl
    have hreq : d1.attn.req = if d.mx.parkRaised = true then d.attn.req else d.attn.req ||| srcBit 1 := by
      rw [hd1, hd0]; split <;> rfl
    have hcan1 : Tab.canonFrom Card.absent 0 d1.mx.cards = true := by rw [hmx]; exact Matrix.canon_setFails hcan _ n
    have hend : d.exchangeEnds false n = (d1.onMx fun m =>
        { m with parkFault := m.parkFault ||| cardBit d.mx.link.card, parkRaised := true }).sendParking rest := by
      rw [hd1, hd0]; exact Dev.exchangeFailed_parking (by exact hph)
    have hstate : ∀ c, (d1.mx.card c).state = (d.mx.card c).state := by
      rw [hmx]; exact Matrix.card_setFails_state hcan _ n
    refine ⟨_, hend, ?_, ?_, ?_, ?_, ?_, by simp, hcan1, hstate⟩
    · rw [hframe]; rfl
    · rw [Dev.onMx_mx, hmx]; rfl
    · rw [Dev.onMx_mx, hmx]; rfl
    · rw [Dev.onMx_mx, hmx]; rfl
    · simpa using hreq

/-- A recovery setup: the card's points leave the image either way; one without a correct echo is FAULTED (R14). -/
theorem Dev.exchangeEnds_recovery {d : Dev} {rest : List Nat} (good : Bool) (n : Nat) (hph : d.mx.phase = .recovery rest)
    (hcan : Tab.canonFrom Card.absent 0 d.mx.cards = true) :
    ∃ x : Dev, d.exchangeEnds good n = x.sendRecovery rest ∧ x = { d with mx := x.mx, nets := x.nets } ∧
      x.mx.cur = dropCard d.mx.link.card d.mx.cur ∧
      (good = false → d.mx.present d.mx.link.card = true → x.nets.mapValid = false) ∧
      (good = false → x.mx.card d.mx.link.card = ⟨.faulted, 2⟩) ∧ Tab.canonFrom Card.absent 0 x.mx.cards = true := by
  cases good with
  | true => exact ⟨_, Dev.echoCorrect_recovery hph, rfl, rfl, nofun, nofun, hcan⟩
  | false =>
    have hcan0 := Matrix.canon_setFails hcan d.mx.link.card n
    exact ⟨_, Dev.exchangeFailed_recovery (by exact hph), rfl, rfl,
      fun _ hp => Dev.faultCard_mapValid (by rw [Dev.onMx_mx, Matrix.present_setFails hcan]; exact hp),
      fun _ => (Dev.faultCard_card (by exact hcan0) _ _).trans (if_pos rfl), Dev.faultCard_canon (by exact hcan0) _⟩

/-- A self-check that is not told to stop: the next card, or the first bus pair; a card without a correct echo is FAULTED
(R20). -/
theorem Dev.exchangeEnds_checking {d : Dev} {rest : List Nat} (good : Bool) (n : Nat) (hph : d.mx.phase = .checking rest)
    (hs : d.mx.stopUnpark = false) (hcan : Tab.canonFrom Card.absent 0 d.mx.cards = true) :
    ∃ x : Dev, d.exchangeEnds good n = x.sendChecking rest ∧ x = { d with mx := x.mx, nets := x.nets } ∧
      (good = false → d.mx.present d.mx.link.card = true → x.nets.mapValid = false) ∧
      (good = false → x.mx.card d.mx.link.card = ⟨.faulted, 2⟩) ∧ Tab.canonFrom Card.absent 0 x.mx.cards = true := by
  cases good with
  | true => exact ⟨d, (Dev.echoCorrect_checking hph).trans (Dev.unlessStopped_goes _ hs), rfl, nofun, nofun, hcan⟩
  | false =>
    have hcan0 := Matrix.canon_setFails hcan d.mx.link.card n
    exact ⟨_, (Dev.exchangeFailed_checking (by exact hph)).trans (Dev.unlessStopped_goes _ (by exact hs)), rfl,
      fun _ hp => Dev.faultCard_mapValid (by rw [Dev.onMx_mx, Matrix.present_setFails hcan]; exact hp),
      fun _ => (Dev.faultCard_card (by exact hcan0) _ _).trans (if_pos rfl), Dev.faultCard_canon (by exact hcan0) _⟩

/-- Settles O36: the end of a frame by the phase; a failed attempt and enumeration by the attempt's number; the end of an
exchange by the activity. -/
theorem framesAndEchoesAct : Obligations.FramesAndEchoesAct := by
  refine ⟨fun s => ?frame, fun s pat c k hc hk => ?attempt, fun s pat c cmd good hw hc hcmd hcan => ?ends⟩
  case frame =>
    rw [exec_cardFrameEnd]
    refine ⟨fun hl hp => ?_, fun c rest hl hp hs => ?_, fun hl hp hs => ?_, fun rest hl hp hs => ?_, fun hl => ?_⟩
    · rw [State.withDev_eq (Dev.frameEnd_opens hl hp)]
    · rw [State.withDev_eq ((Dev.frameEnd_failing hl hp).trans (Dev.unlessStopped_goes _ hs))]
      rfl
    · rw [State.withDev_eq ((Dev.frameEnd_failing hl hp).trans (Dev.unlessStopped_goes _ hs))]
      rfl
    · rw [State.withDev_eq ((Dev.frameEnd_failing hl hp).trans (Dev.unlessStopped_stop _ hs))]
      refine ⟨_, rfl, ?_, ?_, ?_, ?_, ?_, ?_, fun h => Dev.unparkStop_mapValid (.inr h), fun e => Dev.unparkStop_ends,
        Dev.unparkStop_elsewhere⟩ <;> simp [Dev.unparkStop_mx, Link.idle]
    · rw [State.withDev_eq (show s.dev.frameEnd = s.dev from if_neg hl)]
  case attempt =>
    subst hk hc
    rw [exec_cardEcho, exec_echoWindowExpiry]
    refine ⟨fun hw => ⟨?_, ?_⟩, fun hw ha => ⟨fun hp => ?_, fun hph => ?_, fun hph => ?_⟩,
      fun hw hph hs => ⟨fun hp => ?_, fun ha => ?_, fun ha hp => ?_⟩⟩
    · rw [State.withDev_eq (Dev.echo_outside pat hw)]
    · rw [State.withDev_eq (Dev.echoMissing_outside hw)]
    · rw [State.withDev_eq ((Dev.echo_wrong hw hp).trans (Dev.attemptFailed_again _ ha)), Dev.failsAfter_wrong]
    · rw [State.withDev_eq ((Dev.echoMissing_window hw).trans (Dev.attemptFailed_again _ ha)), Dev.failsAfter_missing hph]
    · rw [State.withDev_eq ((Dev.echoMissing_window hw).trans (Dev.attemptFailed_again _ ha)),
        Dev.failsAfter_enumerating hph]
    · rw [State.withDev_eq ((Dev.echo_correct hw hp).trans ((Dev.echoCorrect_enumerating hph).trans
        (Dev.unlessStopped_goes _ hs)))]
    · obtain ⟨x, hx, hcard⟩ := Dev.enumeration_secondFailure (s.dev.failsAfter true) hph hs
      rw [Dev.failsAfter_enumerating hph] at hcard
      rw [State.withDev_eq ((Dev.echoMissing_window hw).trans ((Dev.attemptFailed_second _ ha).trans hx))]
      exact ⟨x, rfl, hcard⟩
    · obtain ⟨x, hx, hcard⟩ := Dev.enumeration_secondFailure (s.dev.failsAfter false) hph hs
      rw [Dev.failsAfter_wrong] at hcard
      rw [State.withDev_eq ((Dev.echo_wrong hw hp).trans ((Dev.attemptFailed_second _ ha).trans hx))]
      exact ⟨x, rfl, hcard⟩
  case ends =>
    obtain ⟨n, hex⟩ := exec_exchangeEnds hw hcmd
    subst hc
    rw [hex]
    refine ⟨fun rest hph hs => ?_, fun ⟨rest, hph⟩ => ?_⟩
    · obtain ⟨x, hx, hwait, hreader, hmap⟩ := Dev.exchangeEnds_stopped good n ⟨rest, hph⟩ hs hcan
      rw [hx]
      refine ⟨_, rfl, ?_, ?_, ?_, ?_, ?_, fun h => Dev.unparkStop_mapValid (hmap h), fun e hw he =>
        Dev.unparkStop_ends (by rwa [hwait]) (by rwa [hreader])⟩ <;> rw [Dev.unparkStop_mx]
    · obtain hph | hph | ⟨hph, hs⟩ := hph
      · obtain ⟨x, hx, hf, hcur, htgt, hfault, hreq, hraised, hcanx, hstate⟩ := Dev.exchangeEnds_parking good n hph hcan
        obtain ⟨hcur', htgt', hfault', hraised', hnil, hcons⟩ := Dev.sendParking_mx rest x
        have hsf := Dev.sendParking_frame rest x
        rw [hx]
        refine ⟨_, rfl, by rw [hsf, hf], by rw [hsf, hf], fun r hr => ?_, fun r hr => ?_, fun r hr => ?_⟩
        · rw [hph] at hr
          obtain rfl := MPhase.parking.inj hr
          refine ⟨hcur'.trans hcur, htgt'.trans htgt, hfault'.trans hfault, ?_, hraised'.trans hraised,
            (Dev.sendParking_card_state hcanx _ _).trans (hstate _), fun h => ?_, hcons⟩
          · rw [hsf]; exact hreq
          · obtain ⟨h1, h2, h3⟩ := hnil h
            exact ⟨h1, h2.trans (by rw [hf]), h3⟩
        · rw [hph] at hr; cases hr
        · rw [hph] at hr; cases hr
      · obtain ⟨x, hx, hf, hcur, hmap, hcard, hcanx⟩ := Dev.exchangeEnds_recovery good n hph hcan
        obtain ⟨hcur', hnil, hcons⟩ := Dev.sendRecovery_mx rest x
        have hsf := Dev.sendRecovery_frame rest x
        rw [hx]
        refine ⟨_, rfl, by rw [hsf, hf], by rw [hsf, hf], fun r hr => ?_, fun r hr => ?_, fun r hr => ?_⟩
        · rw [hph] at hr; cases hr
        · rw [hph] at hr
          obtain rfl := MPhase.recovery.inj hr
          refine ⟨hcur'.trans hcur, by rw [hsf, hf], fun hg hp => ?_, fun hg hn => ?_, fun h => ?_, hcons⟩
          · rw [hsf]; exact hmap hg hp
          · rw [Dev.sendRecovery_card hcanx hn, hcard hg]
          · obtain ⟨h1, h2⟩ := hnil h
            exact ⟨h1, h2.trans (by rw [hf])⟩
        · rw [hph] at hr; cases hr
      · obtain ⟨x, hx, hf, hmap, hcard, hcanx⟩ := Dev.exchangeEnds_checking good n hph hs hcan
        obtain ⟨hnil, hcons⟩ := Dev.sendChecking_begins rest x
        have hsf := Dev.sendChecking_frame rest x
        have hcfg : x.cfg = s.dev.cfg := by rw [hf]
        rw [hx]
        refine ⟨_, rfl, by rw [hsf, hf], by rw [hsf, hf], fun r hr => ?_, fun r hr => ?_, fun r hr => ?_⟩
        · rw [hph] at hr; cases hr
        · rw [hph] at hr; cases hr
        · rw [hph] at hr
          obtain rfl := MPhase.checking.inj hr
          refine ⟨fun hg hp => ?_, fun hg hn => ?_, ?_, hcons⟩
          · rw [hsf]; exact hmap hg hp
          · rw [Dev.sendChecking_card hcanx hn, hcard hg]
          · rw [← hcfg]; exact hnil

end Sys2Proof.Machine

namespace Sys2Proof.Machine

/-! ## The end of a park (R16) -/

/-- The matrix is PARKED, and of the rest only the PARK order's mask is formed and the thread goes on or ends. -/
theorem Dev.parkEnd_frame (d : Dev) :
    d.parkEnd = { d.clearCards.onMx Matrix.toParked with
      prog := d.parkEnd.prog, tasks := d.parkEnd.tasks, wait := d.parkEnd.wait } := by
  by_cases hw : d.wait = .parkRun
  · simp only [Dev.parkEnd, if_pos hw]; rfl
  · simp only [Dev.parkEnd, if_neg hw, Dev.wakeParked]
    split <;> rfl

/-- The matrix of a park that ended, whoever waited for it. -/
theorem Dev.parkEnd_mx (d : Dev) :
    d.parkEnd.mx = { d.mx with
      state := .parked, phase := .idle, cards := [], cur := [], tgt := [], link := .idle, drive := false, offT := some 500
      releaseT := none, unparkT := none, stopUnpark := false } := by
  rw [Dev.parkEnd_frame]; rfl

theorem Dev.parkEnd_mapValid {d : Dev} (h : d.mx.presentCards ≠ []) : d.parkEnd.nets.mapValid = false := by
  have hn : d.parkEnd.nets = { d.nets with mapValid := d.nets.mapValid && d.mx.presentCards.isEmpty } := by
    rw [Dev.parkEnd_frame]; rfl
  rw [hn]
  simp [h]

/-- The PARK that began the park goes to its end, DONE or with the code that an ABORT or a discharge fault asked. -/
theorem Dev.parkEnd_order {d : Dev} (hw : d.wait = .parkRun) :
    d.parkEnd.prog.parkMask = some d.mx.parkFault ∧ d.parkEnd.wait = .run ∧
    (d.reader.ending = none → d.parkEnd.tasks = [.endOrder .done .done]) ∧
    ∀ c, d.reader.ending = some c → d.parkEnd.tasks = [.endOrder .failed c] := by
  simp only [Dev.parkEnd, if_pos hw]
  refine ⟨rfl, rfl, fun h => ?_, fun c h => ?_⟩ <;> simp only [h] <;> rfl

/-- With no PARK order of its own the park leaves the thread, but for an order that waits for PARKED. -/
theorem Dev.parkEnd_elsewhere {d : Dev} (hw : d.wait ≠ .parkRun) :
    d.parkEnd.tasks = d.tasks ∧ d.parkEnd.wait = if d.wait = .forParked then .run else d.wait := by
  have hw1 : (d.clearCards.onMx Matrix.toParked).wait = d.wait := rfl
  simp only [Dev.parkEnd, if_neg hw, Dev.wakeParked, hw1]
  by_cases hp : d.wait = .forParked
  · rw [if_pos hp, if_pos hp]; exact ⟨rfl, rfl⟩
  · rw [if_neg hp, if_neg hp]; exact ⟨rfl, rfl⟩

/-! ## The release timer by the phase (R9, R14, R16, R21) -/

theorem Dev.releaseExpired_closes {d : Dev} (h : d.mx.phase = .releaseWait) (hc : d.mx.closing ≠ []) :
    d.releaseExpired = (d.onMx fun m => { m with releaseT := none }).beginClosing := by
  simp [Dev.releaseExpired, h, hc]

theorem Dev.releaseExpired_ends {d : Dev} (h : d.mx.phase = .releaseWait) (hc : d.mx.closing = []) :
    d.releaseExpired = (d.onMx fun m => { m with releaseT := none }).setupEnd true := by
  simp [Dev.releaseExpired, h, hc]

theorem Dev.releaseExpired_recovery {d : Dev} (h : d.mx.phase = .recoveryWait) :
    d.releaseExpired = (d.onMx fun m => { m with releaseT := none, cur := [] }).setupEnd false := by
  simp only [Dev.releaseExpired, h]; rfl

theorem Dev.releaseExpired_park {d : Dev} (h : d.mx.phase = .parkWait) :
    d.releaseExpired = (d.onMx fun m => { m with releaseT := none }).parkEnd := by
  simp [Dev.releaseExpired, h]

theorem Dev.releaseExpired_fail {d : Dev} (h : d.mx.phase = .failWait) (hw : d.wait ≠ .forParked) :
    d.releaseExpired = { d with
      mx := { d.mx with
        state := .parked, phase := .idle, cur := [], tgt := [], link := ⟨.idle, 0, [], 0⟩, drive := false
        offT := some 500, releaseT := none, unparkT := none, stopUnpark := false } } := by
  simp only [Dev.releaseExpired, h, Dev.wakeParked]
  exact if_neg hw

theorem Dev.settleExpired_ends {d : Dev} (h : d.mx.phase = .settleWait) :
    d.settleExpired = (d.onMx fun m => { m with settleT := none }).setupEnd true := by
  simp [Dev.settleExpired, h]

/-! ## The end of a setup (R4, R5, R9, R10) -/

/-- The matrix READY after a setup, the image its target. -/
def Matrix.setupEnded (m : Matrix) : Matrix :=
  { m with state := .ready, phase := .idle, tgt := m.cur, requester := false, waitReq := none, link := .idle }

/-- The requester's answer when its setup ends (R9, R10, R14). -/
theorem Dev.setupEnd_answers (ok : Bool) {d : Dev} (hp : d.mx.parkPending = false) (hw : d.mx.waitReq = none) :
    d.setupEnd ok =
      if d.mx.requester then (d.onMx Matrix.setupEnded).setupReport ok d.mx.reqTarget else d.onMx Matrix.setupEnded :=
  Dev.setupEnd_idle ok hp hw

theorem Dev.setupReport_ready {d : Dev} (t : Tab Bus) (hw : d.wait = .setup) (hs : d.stopWanted = false) :
    d.setupReport true t = d.proceed := by
  simp [Dev.setupReport, hw, hs]

theorem Dev.setupReport_stops {d : Dev} (t : Tab Bus) (hw : d.wait = .setup) (hs : d.stopWanted = true) :
    d.setupReport true t = d.stopAfterSetup t := by
  simp [Dev.setupReport, hw, hs]

theorem Dev.setupReport_fails {d : Dev} (t : Tab Bus) (hw : d.wait = .setup) :
    d.setupReport false t = d.failOrder .matrixFault := by
  simp [Dev.setupReport, hw]

theorem Dev.setupReport_unawaited {d : Dev} (ok : Bool) (t : Tab Bus) (hw : d.wait ≠ .setup) : d.setupReport ok t = d := by
  simp [Dev.setupReport, hw]

theorem Dev.groupSettingUp_iff (d : Dev) : d.groupSettingUp = true ↔ d.kind = some .insulate ∧ d.ins.state = .setup := by
  simp [Dev.groupSettingUp]

/-- With no requester a pending park begins, or a request that waited is met, after READY has been reported (R4, R174). -/
theorem Dev.setupEnd_unrequested {d : Dev} (ok : Bool) (hr : d.mx.requester = false)
    (hb : d.mx.parkPending = true ∨ d.mx.waitReq ≠ none) :
    (d.mx.waitReq = none → d.setupEnd ok = (d.onMx Matrix.setupEnded).syncStatus.tryPark) ∧
    ∀ t, d.mx.waitReq = some t →
      d.setupEnd ok = ((d.onMx Matrix.setupEnded).syncStatus.tryPark).requestSetup t := by
  refine ⟨fun h => ?_, fun t h => ?_⟩
  · have hp : d.mx.parkPending = true := hb.resolve_right (by simp [h])
    simp only [Dev.setupEnd, hr, h, hp, Bool.true_or, if_true]
    rfl
  · simp only [Dev.setupEnd, hr, h, Option.isSome_some, Bool.or_true, if_true]
    rfl

/-- Of two lists that differ in one word that word is written. -/
theorem changedPosts_one {w o : Word} (off : Nat) (pre post : List Word) (h : w ≠ o) :
    changedPosts off (pre ++ w :: post) (pre ++ o :: post) = [⟨off + 4 * pre.length, 1, some [w], false, true⟩] := by
  induction pre generalizing off with
  | nil => simp [changedPosts, h, changedPosts_self]
  | cons x pre ih => simp [changedPosts, ih]; omega

/-- A setup that ends in SETTING reports READY in one write of the word that holds the matrix state (R4, R174, log 59). -/
theorem Dev.setupEnded_posts {d : Dev} (hl : d.reader.imageLive = true) (hs : d.reader.state ≠ .stopped)
    (hi : d.ImageFollows) (hm : d.mx.state = .setting) :
    ∃ x : Word, b3 x = 2 ∧ (d.onMx Matrix.setupEnded).syncPosts = [⟨0x3C, 1, some [x], false, true⟩] := by
  have hlive : (d.onMx Matrix.setupEnded).statusLive = true := by simp [Dev.statusLive, hl, hs]
  have hnew : (d.onMx Matrix.setupEnded).statusWords = d.statusWords.take 7 ++
      bytes4 d.tx.fill (if d.hv.openRec then 1 else 0) (if d.hv.lockout then 1 else 0) 2 :: d.statusWords.drop 8 := rfl
  have himg : (d.onMx Matrix.setupEnded).statusImg = d.statusWords.take 7 ++
      bytes4 d.tx.fill (if d.hv.openRec then 1 else 0) (if d.hv.lockout then 1 else 0) d.mx.state.code ::
        d.statusWords.drop 8 := hi
  have hne : ∀ a b c : Nat, bytes4 a b c 2 ≠ bytes4 a b c 3 := fun a b c h => by
    have := congrArg b3 h
    simp at this
  refine ⟨bytes4 d.tx.fill (if d.hv.openRec then 1 else 0) (if d.hv.lockout then 1 else 0) 2, by simp, ?_⟩
  rw [Dev.syncPosts, if_pos hlive, himg, hnew, changedPosts_one _ _ _ (by rw [hm]; exact hne _ _ _)]
  rfl

/-- The two timers that end a setup: the settle timer, and the release timer with nothing to close (R9, R10). -/
theorem exec_setupEnds {s : State} {cmd : Instr} {m : Matrix}
    (h : cmd = .releaseTimerExpiry ∧ s.dev.mx.releaseT ≠ none ∧ s.dev.mx.phase = .releaseWait ∧ s.dev.mx.closing = [] ∧
          m = { s.dev.mx with releaseT := none } ∨
        cmd = .settleTimerExpiry ∧ s.dev.mx.settleT ≠ none ∧ s.dev.mx.phase = .settleWait ∧
          m = { s.dev.mx with settleT := none }) :
    exec cmd s = .next { s with dev := Dev.settle s.hostQ ((s.dev.onMx fun _ => m).setupEnd true) } ∧
      m = { s.dev.mx with releaseT := m.releaseT, settleT := m.settleT } := by
  obtain ⟨rfl, ht, hph, hc, rfl⟩ | ⟨rfl, ht, hph, rfl⟩ := h
  · rw [exec_releaseTimerExpiry ht, State.withDev_eq (Dev.releaseExpired_ends hph hc)]
    exact ⟨rfl, rfl⟩
  · rw [exec_settleTimerExpiry ht, State.withDev_eq (Dev.settleExpired_ends hph)]
    exact ⟨rfl, rfl⟩

/-- With a park pending the end of an unrequested setup begins it, with discharged reported, and refuses a request that
waited (R5, R15, R24). -/
theorem Dev.setupEnd_park {d : Dev} (hr : d.mx.requester = false) (hp : d.mx.parkPending = true) :
    (d.hv.state = .off → (d.setupEnd true).mx.state = .parking ∧ (d.setupEnd true).mx.parkPending = false) ∧
    (d.hv.state ≠ .off → (d.setupEnd true).mx.state = .ready ∧ (d.setupEnd true).mx.parkPending = true) ∧
    (d.setupEnd true).mx.waitReq = none ∧
    (d.setupEnd true).engineQ = d.engineQ ++ (d.onMx Matrix.setupEnded).syncPosts ∧
    (d.mx.waitReq = none → d.wait ≠ .parkGate → (d.setupEnd true).tasks = d.tasks ∧ (d.setupEnd true).wait = d.wait) ∧
    (d.mx.waitReq ≠ none → (d.setupEnd true).tasks = [.endOrder .failed .matrixParked] ∧ (d.setupEnd true).wait = .run) := by
  obtain ⟨e, he⟩ : ∃ e, e = (d.onMx Matrix.setupEnded).syncStatus := ⟨_, rfl⟩
  have hep : e.mx.parkPending = true := by rw [he, Dev.syncStatus_eq]; exact hp
  have hes : e.mx.state = .ready := by rw [he, Dev.syncStatus_eq]; rfl
  have hew : e.mx.waitReq = none := by rw [he, Dev.syncStatus_eq]; rfl
  have heq : e.engineQ = d.engineQ ++ (d.onMx Matrix.setupEnded).syncPosts := by rw [he, Dev.syncStatus_eq]; rfl
  have het : e.tasks = d.tasks := by rw [he, Dev.syncStatus_eq]; rfl
  have hewt : e.wait = d.wait := by rw [he, Dev.syncStatus_eq]; rfl
  have hev : e.hv = d.hv := by rw [he, Dev.syncStatus_eq]; rfl
  have hoff : d.hv.state = .off → e.tryPark.mx.state = .parking ∧ e.tryPark.mx.parkPending = false := fun h => by
    rw [Dev.tryPark_begins hep hes (by rw [hev]; exact h)]
    exact ⟨(Dev.beginParking_mx e).1, (Dev.beginParking_mx e).2.1⟩
  have hon : d.hv.state ≠ .off → e.tryPark = e := fun h => Dev.tryPark_none (.inr (.inr (by rw [hev]; exact h)))
  have hreq : e.tryPark.mx.waitReq = none := by
    by_cases h : d.hv.state = .off
    · rw [Dev.tryPark_begins hep hes (by rw [hev]; exact h)]
      obtain ⟨-, -, -, -, hw, -⟩ := Dev.beginParking_mx e
      rw [hw, hew]
    · rw [hon h, hew]
  have hframe := Dev.tryPark_frame e
  obtain ⟨hnone, hsome⟩ := Dev.setupEnd_unrequested true hr (.inl hp)
  rw [← he] at hnone hsome
  cases hw : d.mx.waitReq with
  | none =>
    rw [hnone hw]
    simp only [ne_eq, not_true_eq_false, false_implies, true_implies, and_true]
    refine ⟨hoff, fun h => by rw [hon h]; exact ⟨hes, hep⟩, hreq, by rw [hframe]; exact heq, fun hg => ?_⟩
    rw [hframe]
    refine ⟨het, ?_⟩
    by_cases h : d.hv.state = .off
    · rw [Dev.tryPark_begins hep hes (by rw [hev]; exact h), Dev.beginParking_wait, hewt, if_neg hg]
    · rw [hon h]; exact hewt
  | some t =>
    have hfail : e.tryPark.requestSetup t = e.tryPark.failOrder .matrixParked := by
      by_cases h : d.hv.state = .off
      · simp [Dev.requestSetup, (hoff h).1]
      · simp [Dev.requestSetup, hon h, hes, hep]
    rw [hsome t hw]
    simp only [hfail, reduceCtorEq, false_implies, true_and, ne_eq, not_false_eq_true, true_implies]
    exact ⟨hoff, fun h => by rw [hon h]; exact ⟨hes, hep⟩, hreq, by rw [hframe]; exact heq, rfl, rfl⟩

/-- The answer to the requester of a setup that ends with nothing else waiting: its thread goes on, or with a HALT or an ABORT
pending comes to its safe point (R45, R88, R124, R137). -/
theorem Dev.setupEnd_requested {d : Dev} (hp : d.mx.parkPending = false) (hw : d.mx.waitReq = none)
    (hr : d.mx.requester = true) (hwait : d.wait = .setup) :
    (d.stopWanted = false → d.setupEnd true = (d.onMx Matrix.setupEnded).proceed) ∧
    (d.stopWanted = true → d.kind = some .insulate ∧ d.ins.state = .setup → d.setupEnd true =
      ((d.onMx Matrix.setupEnded).onIns fun i => { i with state := .check, step := 2 }).goto (.safe :: d.tasks)) ∧
    (d.stopWanted = true → ¬(d.kind = some .insulate ∧ d.ins.state = .setup) → d.setupEnd true =
      (d.onMx Matrix.setupEnded).goto (.safe :: .setup d.mx.reqTarget :: d.tasks)) := by
  rw [Dev.setupEnd_answers true hp hw, if_pos hr]
  refine ⟨fun hs => ?_, fun hs hg => ?_, fun hs hg => ?_⟩
  · exact Dev.setupReport_ready _ hwait hs
  · rw [Dev.setupReport_stops _ (by exact hwait) (by exact hs), Dev.stopAfterSetup]
    exact if_pos ((Dev.groupSettingUp_iff d).2 hg)
  · rw [Dev.setupReport_stops _ (by exact hwait) (by exact hs), Dev.stopAfterSetup]
    exact if_neg fun h => hg ((Dev.groupSettingUp_iff d).1 h)

theorem Dev.stopWanted_false {d : Dev} (hh : d.reader.haltPending = false) (he : d.reader.ending = none) :
    d.stopWanted = false := by
  simp [Dev.stopWanted, hh, he]

theorem Dev.stopWanted_true {d : Dev} (h : d.reader.haltPending = true ∨ d.reader.ending ≠ none) :
    d.stopWanted = true := by
  obtain h | h := h
  · simp [Dev.stopWanted, h]
  · simp [Dev.stopWanted, Option.isSome_iff_ne_none.2 h]

/-- Settles O40: each timer by the phase in which it expires, the end of a setup by its requester and what waits behind it. -/
theorem matrixTimersAct : Obligations.MatrixTimersAct := by
  intro s
  refine ⟨exec_releaseTimerExpiry_stopped, exec_settleTimerExpiry_stopped, exec_offTimerExpiry_stopped,
    exec_unparkSettleExpiry_stopped, ?held, ?closing, ?ready, ?stops, ?unrequested, ?parkLeft, ?parkDone, ?recovery, ?fail,
    ?parkAborted, ?parkWaited, ?offWaits, ?offOn, ?settled⟩
  case held =>
    intro ht hph hc hv
    rw [exec_releaseTimerExpiry ht, State.withDev_eq ((Dev.releaseExpired_closes hph hc).trans
      (Dev.beginClosing_held (by exact hv)))]
    rfl
  case closing =>
    intro c rest ht hph hc hv hcs hrest
    obtain ⟨d1, hd1⟩ : ∃ d1, d1 = s.dev.onMx fun m => { m with releaseT := none } := ⟨_, rfl⟩
    obtain ⟨hst, hcons⟩ := Dev.beginClosing_mx (d := d1) (by rw [hd1]; exact hv)
    obtain ⟨h1, h2, h3, h4⟩ := hcons c rest (by rw [hd1]; exact hcs)
    have hr : d1.beginClosing.Resting := by rw [Dev.beginClosing_frame, hd1]; exact hrest
    rw [exec_releaseTimerExpiry ht, State.withDev_eq ((Dev.releaseExpired_closes hph hc).trans
      (congrArg Dev.beginClosing hd1.symm)), Dev.settle_resting _ hr]
    refine ⟨_, rfl, ?_⟩
    simp only [Dev.sync_mx]
    exact ⟨h4.trans (by rw [hd1]; rfl), hst, h1, h2.trans (by rw [hd1]; rfl), h3.trans (by rw [hd1]; rfl)⟩
  case ready =>
    intro hp hw hr hwait hh he cmd m hcm
    obtain ⟨hex, hm⟩ := exec_setupEnds hcm
    obtain ⟨hgo, -, -⟩ := Dev.setupEnd_requested (d := s.dev.onMx fun _ => m) (by rw [hm]; exact hp) (by rw [hm]; exact hw)
      (by rw [hm]; exact hr) hwait
    have hm' : m.setupEnded =
        { m with state := .ready, phase := .idle, tgt := s.dev.mx.cur, requester := false, link := .idle } := by
      rw [hm, Matrix.setupEnded, hw]
    rw [hex, hgo (Dev.stopWanted_false hh he), ← hm']
    rfl
  case stops =>
    intro hp hw hr hwait hstop cmd m hcm
    obtain ⟨hex, hm⟩ := exec_setupEnds hcm
    obtain ⟨-, hgroup, hother⟩ := Dev.setupEnd_requested (d := s.dev.onMx fun _ => m) (by rw [hm]; exact hp)
      (by rw [hm]; exact hw) (by rw [hm]; exact hr) hwait
    have hm' : m.setupEnded =
        { m with state := .ready, phase := .idle, tgt := s.dev.mx.cur, requester := false, link := .idle } := by
      rw [hm, Matrix.setupEnded, hw]
    have ht : m.reqTarget = s.dev.mx.reqTarget := by rw [hm]
    have hs : (s.dev.onMx fun _ => m).stopWanted = true := Dev.stopWanted_true hstop
    rw [hex, ← hm', ← ht]
    refine ⟨fun hk hi => ?_, fun hg => ?_⟩
    · rw [hgroup hs ⟨hk, hi⟩]; rfl
    · rw [hother hs (by rintro ⟨hk, hi⟩; exact hg.elim (absurd hk) (absurd hi))]; rfl
  case unrequested =>
    intro hr cmd m hcm
    obtain ⟨hex, hm⟩ := exec_setupEnds hcm
    obtain ⟨d, hd⟩ : ∃ d, d = s.dev.onMx fun _ => m := ⟨_, rfl⟩
    have hrd : d.mx.requester = false := by rw [hd, Dev.onMx_mx, hm]; exact hr
    have hposts : s.dev.reader.imageLive = true → s.dev.reader.state ≠ .stopped → s.dev.ImageFollows →
        s.dev.mx.state = .setting →
        ∃ x : Word, b3 x = 2 ∧ (d.onMx Matrix.setupEnded).syncPosts = [⟨0x3C, 1, some [x], false, true⟩] := by
      intro h1 h2 h3 h4
      refine Dev.setupEnded_posts (by rw [hd]; exact h1) (by rw [hd]; exact h2) ?_ (by rw [hd, Dev.onMx_mx, hm]; exact h4)
      rw [hd, hm]; exact h3
    rw [← hd] at hex
    refine ⟨fun hp e he => ?_, fun hp => ?_⟩
    · have hpd : d.mx.parkPending = false := by rw [hd, Dev.onMx_mx, hm]; exact hp
      have hend : d.onMx Matrix.setupEnded = e := by
        rw [he, hd, hm]
        simp only [Dev.onMx, Matrix.setupEnded, hr]
      refine ⟨fun hw => ?_, fun r hw => ⟨e.syncPosts, ?_, by rw [← hend]; exact hposts⟩⟩
      · have hwd : d.mx.waitReq = none := by rw [hd, Dev.onMx_mx, hm]; exact hw
        rw [hex, Dev.setupEnd_answers true hpd hwd, hrd, if_neg (by simp), hend]
      · have hwd : d.mx.waitReq = some r := by rw [hd, Dev.onMx_mx, hm]; exact hw
        rw [hex, (Dev.setupEnd_unrequested true hrd (.inr (by simp [hwd]))).2 r hwd, hend, Dev.syncStatus_eq]
        rw [Dev.tryPark_none (.inl (by rw [he]; exact hm ▸ hp))]
    · obtain ⟨hoff, hon, hreq, hq, hgo, href⟩ := Dev.setupEnd_park hrd (by rw [hd, Dev.onMx_mx, hm]; exact hp)
      have hwr : d.mx.waitReq = s.dev.mx.waitReq := by rw [hd, Dev.onMx_mx, hm]
      have hv : d.hv = s.dev.hv := by rw [hd]; rfl
      have hwt : d.wait = s.dev.wait := by rw [hd]; rfl
      have hts : d.tasks = s.dev.tasks := by rw [hd]; rfl
      have heq : d.engineQ = s.dev.engineQ := by rw [hd]; rfl
      rw [hv] at hoff hon
      rw [hwr, hwt, hts] at hgo
      rw [hwr] at href
      refine ⟨_, hex, hoff, hon, hreq, fun h1 h2 h3 h4 => ?_, hgo, href⟩
      obtain ⟨x, hx, hpx⟩ := hposts h1 h2 h3 h4
      exact ⟨x, hx, by rw [hq, hpx, heq]⟩
  case parkLeft =>
    intro ht hph hrest hw1 hw2
    obtain ⟨htasks, hwait⟩ := Dev.parkEnd_elsewhere (d := s.dev.onMx fun m => { m with releaseT := none }) hw1
    have hr : (Dev.parkEnd (s.dev.onMx fun m => { m with releaseT := none })).Resting := by
      rw [Dev.Resting, htasks, hwait, Dev.onMx_wait, if_neg hw2]; exact hrest
    rw [exec_releaseTimerExpiry ht, State.withDev_eq (Dev.releaseExpired_park hph), Dev.settle_resting _ hr]
    refine ⟨_, rfl, ?_⟩
    simp only [Dev.sync_mx, Dev.sync_nets, Dev.parkEnd_mx, true_and]
    exact fun h => Dev.parkEnd_mapValid (by exact h)
  case parkDone =>
    intro ht hph hw he
    obtain ⟨hmask, hrun, hdone, -⟩ := Dev.parkEnd_order (d := s.dev.onMx fun m => { m with releaseT := none }) hw
    rw [exec_releaseTimerExpiry ht, State.withDev_eq (Dev.releaseExpired_park hph)]
    refine ⟨_, rfl, ?_⟩
    simp only [Dev.parkEnd_mx, true_and]
    exact ⟨hmask, hdone he, hrun, fun h => Dev.parkEnd_mapValid (by exact h)⟩
  case recovery =>
    intro ht hph hp hw
    obtain ⟨d, hd⟩ : ∃ d, d = s.dev.onMx fun m => { m with releaseT := none, cur := [] } := ⟨_, rfl⟩
    have hend : d.setupEnd false =
        if d.mx.requester then (d.onMx Matrix.setupEnded).setupReport false d.mx.reqTarget
        else d.onMx Matrix.setupEnded := Dev.setupEnd_answers false (by rw [hd]; exact hp) (by rw [hd]; exact hw)
    have hmx : d.mx.setupEnded = { s.dev.mx with
        releaseT := none, state := .ready, phase := .idle, cur := [], tgt := [], requester := false, link := .idle } := by
      simp only [hd, Dev.onMx_mx, Matrix.setupEnded, hw]
    have hrq : d.mx.requester = s.dev.mx.requester := by rw [hd]; rfl
    rw [exec_releaseTimerExpiry ht, State.withDev_eq ((Dev.releaseExpired_recovery hph).trans
      (congrArg (Dev.setupEnd false) hd.symm)), hend, hrq, ← hmx]
    refine ⟨_, rfl, ?_⟩
    cases hreq : s.dev.mx.requester with
    | false =>
      simp only [Bool.false_eq_true, if_false, false_implies, true_and, true_or, true_implies]
      exact ⟨rfl, by rw [hd]; rfl, by rw [hd]; rfl⟩
    | true =>
      by_cases hwait : s.dev.wait = .setup
      · rw [if_pos rfl, Dev.setupReport_fails _ (by rw [hd]; exact hwait)]
        refine ⟨rfl, fun _ _ => ⟨rfl, rfl⟩, fun h => ?_⟩
        obtain h | h := h
        · cases h
        · exact absurd hwait h
      · rw [if_pos rfl, Dev.setupReport_unawaited _ _ (by rw [hd]; exact hwait)]
        exact ⟨rfl, fun _ h => absurd h hwait, fun _ => ⟨by rw [hd]; rfl, by rw [hd]; rfl⟩⟩
  case fail =>
    intro ht hph hw
    rw [exec_releaseTimerExpiry ht, State.withDev_eq (Dev.releaseExpired_fail hph hw)]
  case parkAborted =>
    intro c ht hph hw he
    obtain ⟨hmask, hrun, -, hfail⟩ := Dev.parkEnd_order (d := s.dev.onMx fun m => { m with releaseT := none }) hw
    rw [exec_releaseTimerExpiry ht, State.withDev_eq (Dev.releaseExpired_park hph)]
    refine ⟨_, rfl, ?_⟩
    simp only [Dev.parkEnd_mx, true_and]
    exact ⟨hmask, hfail c he, hrun, fun h => Dev.parkEnd_mapValid (by exact h)⟩
  case parkWaited =>
    intro ht hph hw
    obtain ⟨htasks, hwait⟩ := Dev.parkEnd_elsewhere (d := s.dev.onMx fun m => { m with releaseT := none })
      (by rw [Dev.onMx_wait, hw]; decide)
    rw [exec_releaseTimerExpiry ht, State.withDev_eq (Dev.releaseExpired_park hph)]
    refine ⟨_, rfl, ?_⟩
    simp only [Dev.parkEnd_mx, true_and]
    exact ⟨htasks, hwait.trans (if_pos hw), fun h => Dev.parkEnd_mapValid (by exact h)⟩
  case offWaits =>
    intro ht h
    rw [exec_offTimerExpiry ht, State.withDev_eq (show s.dev.offExpired = _ from
      Dev.tryDriveOn_none (h.imp_right (Or.imp_right .inr)))]
    rfl
  case offOn =>
    intro ht hw hst hv
    rw [exec_offTimerExpiry ht, State.withDev_eq (show s.dev.offExpired = _ from Dev.tryDriveOn_on hw hst rfl hv)]
    rfl
  case settled =>
    intro ht hrest
    have hd : s.dev.unparkSettled = s.dev.onMx fun m => { m with unparkT := none }.sendFrame .enumerating 0 allOpen :=
      Dev.exchange_onMx_phase _ _ _ _
    rw [exec_unparkSettleExpiry ht, State.withDev_eq hd, Dev.settle_resting _ (by exact hrest)]
    refine ⟨_, rfl, ?_⟩
    rw [Dev.sync_mx]
    exact ⟨rfl, rfl, rfl⟩

end Sys2Proof.Machine

namespace Sys2Proof.Machine

/-! ## Card masks (R21) -/

theorem bitAt_cardBit {c i : Nat} (hi : i < 32) : bitAt (cardBit c) i = decide (i = c) := by
  rw [bitAt, BitVec.testBit_toNat, cardBit, BitVec.getLsbD_ofNat, Nat.testBit_two_pow]
  simp [hi, eq_comm]

theorem bitAt_or (a b : Word) (i : Nat) : bitAt (a ||| b) i = (bitAt a i || bitAt b i) := by
  simp [bitAt]

/-- The bits of a mask gathered over a list of cards. -/
theorem bitAt_maskFold (f : Nat → Bool) (l : List Nat) (w : Word) {i : Nat} (hi : i < 32) :
    bitAt (l.foldl (fun w c => if f c then w ||| cardBit c else w) w) i = (bitAt w i || (f i && l.contains i)) := by
  induction l generalizing w with
  | nil => simp
  | cons c l ih =>
    rw [List.foldl_cons, ih]
    by_cases hf : f c = true
    · rw [if_pos hf, bitAt_or, bitAt_cardBit hi]
      by_cases hc : i = c
      · simp [hc, hf]
      · simp [hc]
    · rw [if_neg hf]
      by_cases hc : i = c
      · simp [hc, hf]
      · simp [hc]

/-- Bit `c` of a card mask is what the mask is of, for each card slot. -/
theorem bitAt_maskOf (f : Nat → Bool) {c : Nat} (hc : c < 32) : bitAt (maskOf f) c = f c := by
  rw [maskOf, bitAt_maskFold f _ _ hc]
  simp [cardNumbers, hc, bitAt]

/-! ## A sample that changes nothing at the HV controller -/

/-- The samples that the HV controller answers with no report (R105, R107). -/
theorem Hv.sample_unreported {h : Hv} {code : Int}
    (hs : h.state = .dwell ∨ (h.state = .off ∧ code < 600) ∨
      ((h.state = .discharge ∨ h.state = .lockout) ∧ (600 ≤ code ∨ h.below = 0))) : (h.sample code).2 = .none := by
  have hdrain : 600 ≤ code ∨ h.below = 0 → (Hv.drain code { h with lastHvv := code }).2 = .none := by
    rintro (hc | hb)
    · have : ¬ code < Config.safeCode := by simpa [Config.safeCode] using hc
      simp [Hv.drain, this]
    · simp only [Hv.drain, hb]
      split <;> rfl
  obtain hd | ⟨ho, hc⟩ | ⟨hd | hl, hb⟩ := hs
  · simp [Hv.sample, hd]
  · have : code < Config.safeCode := by simpa [Config.safeCode] using hc
    simp [Hv.sample, ho, this]
  · simpa [Hv.sample, hd] using hdrain hb
  · simpa [Hv.sample, hl] using hdrain hb

/-- The last sample of a bus-pair probe: the source is off, the unit IDLE, and the answer says whether the pair conducts
(R20). -/
theorem MeasUnit.sample_pairEnds {u : MeasUnit} {j : Job} {k : Nat} {diff hvv hvi : Int} {conducts : Bool}
    (hj : u.job = some j) (hk : j.kind = .pair k) (hn : j.n ≤ j.got + 1)
    (hc : conducts = false ↔ j.allSat = true ∧ (diff = 32767 ∨ diff = -32768)) :
    (u.sample diff hvv hvi).2 = some (.pair k) ∧ (u.sample diff hvv hvi).1.ans.connected = conducts ∧
    (u.sample diff hvv hvi).1.job = none ∧ (u.sample diff hvv hvi).1.stim = .none ∧
    (u.sample diff hvv hvi).1.state = .idle := by
  obtain ⟨a, ha⟩ : ∃ a, a = j.add diff hvv hvi := ⟨_, rfl⟩
  have hak : a.kind = .pair k := by rw [ha]; exact hk
  have hgot : ¬ a.got < a.n := by
    have h1 : a.got = j.got + 1 := by rw [ha]; rfl
    have h2 : a.n = j.n := by rw [ha]; rfl
    omega
  have hnext : a.nextRange = none := by simp [Job.nextRange, hak]
  have hsat : (!a.allSat) = conducts := by
    have h1 : a.allSat = (j.allSat && diffSaturated diff) := by
      rw [ha]; simp [Job.add, hk, JobKind.usesDiff]
    have h2 : a.allSat = true ↔ conducts = false := by
      rw [hc, h1]; simp [diffSaturated]
    cases conducts <;> simpa using h2
  have hsample : u.sample diff hvv hvi =
      ({ u with state := .idle, stim := .none, route := .buses, job := none, ans := a.answer u.zero }, some (.pair k)) := by
    simp only [MeasUnit.sample, hj, ← ha, if_neg hgot, hnext, hak, JobKind.state]
    rfl
  rw [hsample]
  exact ⟨rfl, (Job.answer_pair _ hak).trans hsat, rfl, rfl, rfl⟩

/-- What such a sample brings about: the end of the pair, on blocks of which only the measurement unit and the HV controller
have taken the sample. -/
theorem Dev.sample_pairEnds {d : Dev} {j : Job} {k : Nat} {diff hvv hvi : Int} {conducts : Bool}
    (hs : d.hv.state = .dwell ∨ (d.hv.state = .off ∧ hvv < 600) ∨
      ((d.hv.state = .discharge ∨ d.hv.state = .lockout) ∧ (600 ≤ hvv ∨ d.hv.below = 0)))
    (hj : d.mu.job = some j) (hk : j.kind = .pair k) (hn : j.n ≤ j.got + 1)
    (hc : conducts = false ↔ j.allSat = true ∧ (diff = 32767 ∨ diff = -32768)) :
    ∃ x : Dev, d.sample diff hvv hvi = x.pairEnd k conducts ∧ x = { d with mu := x.mu, hv := x.hv } ∧
      x.mu.job = none ∧ x.mu.stim = .none ∧ x.mu.state = .idle := by
  obtain ⟨hkind, hconn, hjob, hstim, hstate⟩ := MeasUnit.sample_pairEnds (hvv := hvv) (hvi := hvi) hj hk hn hc
  refine ⟨{ d with mu := (d.mu.sample diff hvv hvi).1, hv := (d.hv.sample hvv).1 }, ?_, rfl, hjob, hstim, hstate⟩
  simp only [Dev.sample, Hv.sample_unreported hs, hkind, Dev.hvReport, Dev.measured, hconn]

/-! ## The self-check's record (R21) -/

theorem Dev.pairEnd_stops {d : Dev} (k : Nat) (conducts : Bool) (h : d.mx.stopUnpark = true) :
    d.pairEnd k conducts = (d.onMx fun m => { m with pairFlags := m.pairFlags + flagAt conducts k }).unparkStop := by
  simp [Dev.pairEnd, h]

theorem Dev.pairEnd_next {d : Dev} {k : Nat} (conducts : Bool) (h : d.mx.stopUnpark = false) (hk : k < 3) :
    d.pairEnd k conducts = (d.onMx fun m => { m with pairFlags := m.pairFlags + flagAt conducts k }).startPair (k + 1) := by
  simp [Dev.pairEnd, h, hk]

theorem Dev.pairEnd_records {d : Dev} {k : Nat} (conducts : Bool) (h : d.mx.stopUnpark = false) (hk : 3 ≤ k) :
    d.pairEnd k conducts = (d.onMx fun m => { m with pairFlags := m.pairFlags + flagAt conducts k }).beginRecord := by
  simp [Dev.pairEnd, h, show ¬ k < 3 by omega]

/-- The four fields of the record, each written in an access of one word, then read back (R21, log 63). -/
theorem Dev.beginRecord_eq {d : Dev} {o : Order} (ho : d.reader.order = some o) :
    d.beginRecord =
      ((d.onMx fun m => { m with phase := .recording }).onProg fun p =>
        { p with
          present := some (maskOf d.mx.present), fault := some (maskOf d.mx.faulted)
          flags := some (wordOf d.mx.pairFlags)
          check := some (maskOf d.mx.present + maskOf d.mx.faulted + wordOf d.mx.pairFlags) }).goto
        [.write (o.resultOff + 8) [maskOf d.mx.present], .write (o.resultOff + 12) [maskOf d.mx.faulted],
          .write (o.resultOff + 16) [wordOf d.mx.pairFlags],
          .write (o.resultOff + 20) [maskOf d.mx.present + maskOf d.mx.faulted + wordOf d.mx.pairFlags], .recordRead] := by
  simp [Dev.beginRecord, ho]

theorem Dev.recordEnd_passes {d : Dev} {p : Word} (hp : d.prog.present = some p) (hf : d.prog.fault = some 0)
    (hg : d.prog.flags = some 0) (hc : d.prog.compare = some 1) :
    d.recordEnd = { d with
      reader := { d.reader with sum := ⟨p, 0, 0, 1⟩ }, mx := { d.mx with state := .ready, phase := .idle }
      tasks := .endOrder .done .done :: d.tasks } := by
  simp only [Dev.recordEnd, hp, hf, hg, hc]
  rfl

theorem Dev.recordEnd_fails {d : Dev} {p f g c : Word} (hp : d.prog.present = some p) (hf : d.prog.fault = some f)
    (hg : d.prog.flags = some g) (hc : d.prog.compare = some c) (h : ¬(f = 0 ∧ g = 0 ∧ c = 1)) :
    d.recordEnd = (((d.onReader fun r => { r with sum := ⟨p, f, g.toNat, 2⟩ }).raise srcMatrix).push
      [.endOrder .failed .selfcheckFail]).sendFailing d.mx.presentCards := by
  have hpass : (decide (some f = some (0 : Word)) && decide (some g = some (0 : Word)) && decide (some c = some (1 : Word))) =
      false := by
    simpa [and_assoc, imp_iff_not_or, or_assoc] using h
  simp only [Dev.recordEnd, hp, hf, hg, hc, hpass]
  rfl

/-! ## PARK and UNPARK at the take (R15, R17, R18) -/

theorem Dev.parkStart_waits {d : Dev} (h : (d.mx.state = .ready ∧ d.mx.parkPending = true) ∨ d.mx.state = .parking) :
    d.parkStart = { d with wait := .forParked, tasks := .parkWaited :: d.tasks } := by
  obtain ⟨h, hp⟩ | h := h
  · simp [Dev.parkStart, h, hp, Dev.push]
  · simp [Dev.parkStart, h, Dev.push]

/-- A park asked for in READY: pending at its gate, from which it begins with discharged reported (R15). -/
theorem Dev.parkStart_asks {d : Dev} (h : d.mx.state = .ready) (hp : d.mx.parkPending = false) :
    d.parkStart = Dev.tryPark { d with mx := { d.mx with parkPending := true }, wait := .parkGate } := by
  simp [Dev.parkStart, h, hp, Dev.onMx]

theorem Dev.unparkStart_waits {d : Dev} (h : (d.mx.state = .ready ∧ d.mx.parkPending = true) ∨ d.mx.state = .parking) :
    d.unparkStart = { d with wait := .forParked, tasks := .unparkStart :: d.tasks } := by
  obtain ⟨h, hp⟩ | h := h
  · simp [Dev.unparkStart, h, hp, Dev.push]
  · simp [Dev.unparkStart, h, Dev.push]

theorem Dev.unparkStart_parked {d : Dev} (h : d.mx.state = .parked) :
    d.unparkStart = Dev.tryDriveOn { d with wait := .unparkGate } := by
  simp [Dev.unparkStart, h]

/-- Settles O41: PARK and UNPARK by the matrix state, a bus pair by its number, the record step by step. -/
theorem parkAndUnparkAct : Obligations.ParkAndUnparkAct := by
  refine ⟨fun q d e hw he => ?park, fun q d => ?waited, fun q d e hw he => ?unpark,
    fun s diff hvv hvi j k conducts o hs hj hk hn ho hc => ?pair, fun q d o ho => ?record⟩
  case park =>
    have hstart : e = d.parkStart := he
    clear he
    refine ⟨fun h => ?_, fun h => ?_, fun h hp hv => ?_, fun h hp hv => ?_⟩
    · rw [hstart]; simp [Dev.parkStart, h, Dev.push, Dev.onProg]
    · rw [hstart, Dev.parkStart_waits h]
    · rw [hstart, Dev.parkStart_asks h hp]
      exact Dev.tryPark_none (.inr (.inr hv))
    · obtain ⟨x, hx⟩ : ∃ x : Dev, x = { d with mx := { d.mx with parkPending := true }, wait := .parkGate } := ⟨_, rfl⟩
      obtain ⟨h1, h2, h3, -, -, hnil, hcons⟩ := Dev.beginParking_mx x
      have hbegin : e = x.beginParking := by
        rw [hstart, Dev.parkStart_asks h hp, ← hx,
          Dev.tryPark_begins (by rw [hx]) (by rw [hx]; exact h) (by rw [hx]; exact hv)]
      have hcards : x.mx.presentCards = d.mx.presentCards := by rw [hx]; rfl
      have hcfg : x.cfg = d.cfg := by rw [hx]
      rw [hcards, hcfg] at hnil
      rw [hcards] at hcons
      rw [hbegin]
      refine ⟨?_, ?_, h1, h2, h3, hnil, hcons⟩
      · rw [Dev.beginParking_wait, hx, if_pos rfl]
      · rw [Dev.beginParking_eq, hx]
  case waited =>
    refine ⟨fun h => ?_, fun c h => ?_⟩
    · show d.parkWaited = _
      simp [Dev.parkWaited, h, Dev.push, Dev.onProg]
    · show d.parkWaited = _
      simp [Dev.parkWaited, h, Dev.push]
  case unpark =>
    have hstart : e = d.unparkStart := he
    clear he
    refine ⟨fun h hp => ?_, fun h => ?_, fun h hg => ?_, fun h ho hv => ?_⟩
    · rw [hstart]; simp [Dev.unparkStart, h, hp, Dev.push, Dev.onProg]
    · rw [hstart, Dev.unparkStart_waits h]
    · rw [hstart, Dev.unparkStart_parked h]
      exact Dev.tryDriveOn_none (.inr (.inr hg))
    · rw [hstart, Dev.unparkStart_parked h]
      exact Dev.tryDriveOn_on rfl h ho hv
  case pair =>
    obtain ⟨x, hx, hf, hjob, hstim, hstate⟩ := Dev.sample_pairEnds (hvi := hvi.toInt) hs hj hk hn hc
    have hmx : x.mx = s.dev.mx := by rw [hf]
    have hwait : x.wait = s.dev.wait := by rw [hf]
    have hreader : x.reader = s.dev.reader := by rw [hf]
    have htasks : x.tasks = s.dev.tasks := by rw [hf]
    have hcfg : x.cfg = s.dev.cfg := by rw [hf]
    have hflag : flagAt conducts k = if conducts then 2 ^ k else 0 := rfl
    rw [exec_converterSample, State.withDev_eq hx]
    refine ⟨_, rfl, ?_⟩
    cases hstop : s.dev.mx.stopUnpark with
    | true =>
      rw [Dev.pairEnd_stops k conducts (by rw [hmx]; exact hstop), Dev.unparkStop_mx, Dev.unparkStop_mu]
      simp only [Bool.true_eq_false, false_implies, true_implies, and_true, true_and]
      refine ⟨?_, hjob, hstim, hstate, fun h => ?_, fun e hw he => ?_, fun hw => ?_⟩
      · rw [Dev.onMx_mx, hmx, hflag]
      · exact Dev.unparkStop_mapValid (.inr (by rw [Dev.onMx_mx, hmx]; exact h))
      · exact Dev.unparkStop_ends (hwait.trans hw) (by rw [Dev.onMx_reader, hreader]; exact he)
      · rw [← htasks]
        exact (Dev.unparkStop_elsewhere (by rw [Dev.onMx_wait, hwait]; exact hw)).1
    | false =>
      simp only [Bool.false_eq_true, false_implies, true_implies, true_and]
      by_cases hk3 : k < 3
      · obtain ⟨h1, h2, h3, hjob'⟩ :=
          Dev.startPair_begins (k + 1) (x.onMx fun m => { m with pairFlags := m.pairFlags + flagAt conducts k })
        rw [Dev.pairEnd_next conducts (by rw [hmx]; exact hstop) hk3]
        refine ⟨?_, fun _ => ⟨h1, hwait, htasks, h2, h3, ?_⟩, fun h => absurd hk3 (by omega)⟩
        · rw [← hmx, ← hflag]; rfl
        · rw [← hcfg]; exact hjob'
      · have hrec : (x.onMx fun m => { m with pairFlags := m.pairFlags + flagAt conducts k }).reader.order = some o := by
          rw [Dev.onMx_reader, hreader]; exact ho
        rw [Dev.pairEnd_records conducts (by rw [hmx]; exact hstop) (by omega), Dev.beginRecord_eq hrec]
        refine ⟨?_, fun h => absurd h hk3, fun _ => ⟨rfl, hjob, hstim, hstate, rfl, _, _,
          fun c hc32 => ⟨bitAt_maskOf _ hc32, bitAt_maskOf _ hc32⟩, ?_, ?_, rfl, ?_⟩⟩
        · rw [← hmx, ← hflag]; rfl
        · rw [← hmx]; rfl
        · rw [← hmx]; rfl
        · rw [← hmx]; rfl
  case record =>
    refine ⟨?_, fun x y z c bit hb hbit => ?_, fun p f g c e hp hf hg hc he => ?_⟩
    · show d.recordRead.tasks = _
      simp [Dev.recordRead, ho, Dev.push, Dev.clearBuf]
    · have hflag : flagAt (decide (d.word 0 + d.word 1 + d.word 2 = d.word 3)) 0 = bit := by
        rw [hbit]
        by_cases h : x + y + z = c <;> simp [Dev.word, hb, h, flagAt]
      have hcheck : runTask q .recordCheck d =
          (d.onProg fun p => { p with compare := some (wordOf bit) }).clearBuf.push
            [.write (o.resultOff + 24) [wordOf bit], .recordEnd] := by
        show d.recordCheck = _
        simp only [Dev.recordCheck, hflag]
        simp only [ho]
      rw [hcheck]
      exact ⟨rfl, rfl⟩
    · have hend : e = d.recordEnd := he
      clear he
      refine ⟨?_, fun h => ?_⟩
      · rintro ⟨rfl, rfl, rfl⟩
        rw [hend, Dev.recordEnd_passes hp hf hg hc]
        exact ⟨rfl, rfl, rfl, rfl⟩
      · rw [hend, Dev.recordEnd_fails hp hf hg hc h]
        have hreq : hasSrc (d.attn.req ||| srcBit srcMatrix) 1 = true := by
          rw [hasSrc_or, hasSrc_bit, srcMatrix, decide_eq_true rfl, Bool.or_true]
        cases hcs : d.mx.presentCards with
        | nil => exact ⟨rfl, rfl, hreq, rfl, fun _ => ⟨rfl, rfl⟩, fun c' rest h => nomatch h⟩
        | cons c1 rest1 =>
          refine ⟨rfl, rfl, hreq, rfl, fun h => (nomatch h), fun c' rest h => ?_⟩
          obtain ⟨rfl, rfl⟩ := List.cons.inj h
          exact ⟨rfl, rfl⟩

end Sys2Proof.Machine

namespace Sys2Proof.Machine

/-! ## The hardware reset (R189) -/

/-- With no host access held off the reset is the reset of the blocks and of the port (R195). -/
theorem exec_hardwareReset {s : State} (h : s.hostWait = none) :
    exec .hardwareReset s = .next { s with
      hostQ := [], lastGrant := .engine, dev := s.dev.hardwareReset.settle [] } := by
  show Host.Outcome.next s.hardwareReset = _
  rw [State.hardwareReset, State.serveHeld]
  simp only [h]

/-- The reader is STOPPED, so that nothing of the status area is written (R174). -/
theorem Dev.hardwareReset_syncPosts (d : Dev) : d.hardwareReset.syncPosts = [] := rfl

theorem Dev.hardwareReset_settle (d : Dev) : d.hardwareReset.settle [] = d.hardwareReset.sync :=
  Dev.settle_resting [] (.inr rfl)

/-- Settles O20: the reset leaves the thread nothing to do, so that the blocks are the reset values that follow one another. -/
theorem hardwareResetValues : Obligations.HardwareResetValues := by
  intro s hw
  refine ⟨_, exec_hardwareReset hw, ?_⟩
  rw [Dev.hardwareReset_settle]
  refine ⟨rfl, rfl, hw, rfl, ?pins, ?engineQ, ?tasks, ?reader, ?cfg, ?mx, ?mu, ?nets, ?search, ?hv, ?mgr, ?fmt⟩
  case pins => rw [Dev.sync_pins]; rfl
  case engineQ => rw [Dev.sync_engineQ, Dev.hardwareReset_syncPosts]; rfl
  case tasks => rw [Dev.sync_tasks]; rfl
  case reader => simp [Dev.hardwareReset, Dev.reset, Reader.reset]
  case cfg => simp [Dev.hardwareReset, Dev.reset, Settings.default]
  case mx => simp [Dev.hardwareReset, Dev.reset, Matrix.reset, Config.offTime, Link.idle]
  case mu => simp [Dev.hardwareReset, Dev.reset, MeasUnit.reset]
  case nets => simp [Dev.hardwareReset, Dev.reset, Nets.reset, Nets.pt, Nets.compAt, Nets.root, Tab.get, Pt.free]
  case search => simp [Dev.hardwareReset, Dev.reset, Search.reset, Sweep.reset, Insul.reset]
  case hv => simp [Dev.hardwareReset, Dev.reset, Hv.reset]
  case mgr => simp [Dev.hardwareReset, Dev.reset, Manager.reset]
  case fmt => simp [Dev.hardwareReset, Dev.reset, Fmt.reset, Tx.reset]

end Sys2Proof.Machine

namespace Sys2Proof.Machine

/-! ## What the soft reset of a block leaves alone -/

theorem Dev.hvSoftReset_frame (d : Dev) : d.hvSoftReset = { d with hv := d.hvSoftReset.hv, mu := d.hvSoftReset.mu } := by
  simp only [Dev.hvSoftReset, Dev.dropSource]
  split <;> rfl

/-- Only a source that was on leaves its state, and that is not OFF (R104, R119). -/
theorem Dev.hvSoftReset_off (d : Dev) : d.hvSoftReset.hv.state = .off ↔ d.hv.state = .off := by
  simp only [Dev.hvSoftReset, Dev.dropSource]
  by_cases h : d.hv.sourceOn = true
  · rw [if_pos h]
    have : d.hv.state ≠ .off := fun ho => by simp [Hv.sourceOn, ho] at h
    simp [Dev.enterDischarge, this]
  · rw [if_neg h, Dev.onHv_hv]

/-- The thread does not wait for the matrix, so that nothing that happens at the matrix wakes it. -/
def Dev.OffMatrix (d : Dev) : Prop := d.wait = .run ∨ d.wait = .mem

theorem Dev.tryPark_offMatrix {d : Dev} (h : d.OffMatrix) : d.tryPark = { d with mx := d.tryPark.mx } := by
  have hg : d.wait ≠ .parkGate := by obtain h | h := h <;> simp [h]
  have hw : d.tryPark.wait = d.wait := by
    unfold Dev.tryPark
    split
    · rw [Dev.beginParking_wait, if_neg hg]
    · rfl
  have hf := Dev.tryPark_frame d
  rw [hw] at hf
  exact hf

theorem Dev.unparkStop_offMatrix {d : Dev} (h : d.OffMatrix) :
    d.unparkStop = { d with mx := d.unparkStop.mx, nets := d.unparkStop.nets } := by
  have hu : d.wait ≠ .unparking := by obtain h | h := h <;> simp [h]
  have hp : (d.clearCards.onMx Matrix.toParked).wait ≠ .forParked := by
    obtain h | h := h <;> simp [Dev.clearCards, h]
  simp only [Dev.unparkStop, if_neg hu, Dev.wakeParked, if_neg hp]
  rfl

/-- The soft reset at the matrix changes the matrix and the map-valid flag alone, the thread having been dropped before. -/
theorem Dev.matrixSoftReset_frame {d : Dev} (h : d.OffMatrix) :
    d.matrixSoftReset = { d with mx := d.matrixSoftReset.mx, nets := d.matrixSoftReset.nets } := by
  unfold Dev.matrixSoftReset
  split
  · rfl
  · cases d.mx.state with
    | parked => rfl
    | ready =>
      show Dev.tryPark _ = _
      rw [Dev.tryPark_offMatrix (by exact h)]
      rfl
    | setting => rfl
    | held =>
      dsimp only
      split
      · rfl
      · rw [Dev.tryPark_offMatrix (by exact h)]
        rfl
    | unparking =>
      dsimp only
      split
      · rfl
      · rfl
      · rfl
      · split
        · rfl
        · exact Dev.unparkStop_offMatrix h
      · exact Dev.unparkStop_offMatrix h
    | parking => rfl

/-- The blocks as the soft reset at the matrix finds them. -/
def Dev.beforeMatrixReset (d : Dev) : Dev :=
  Dev.hvSoftReset { d.threadSoftReset with
    reader := d.threadSoftReset.reader.softReset
    mu := d.threadSoftReset.mu.softReset
    nets := .reset
    search := .reset
    sweep := .reset
    learn := .reset
    ins := .reset
    fmt := .reset
    tx := d.threadSoftReset.tx.softReset
    prog := .reset
    attn := d.threadSoftReset.attn.softReset }

theorem Dev.softReset_eq (d : Dev) : d.softReset = d.beforeMatrixReset.matrixSoftReset := rfl

theorem Dev.threadSoftReset_blocks_kept (d : Dev) :
    d.threadSoftReset.mx = d.mx ∧ d.threadSoftReset.cfg = d.cfg ∧ d.threadSoftReset.hv = d.hv := by
  unfold Dev.threadSoftReset
  split
  · exact ⟨rfl, rfl, rfl⟩
  · split <;> exact ⟨rfl, rfl, rfl⟩

theorem Dev.beforeMatrixReset_kept (d : Dev) :
    d.beforeMatrixReset.mx = d.mx ∧ d.beforeMatrixReset.cfg = d.cfg ∧
    (d.beforeMatrixReset.hv.state = .off ↔ d.hv.state = .off) ∧
    d.beforeMatrixReset.tasks = d.threadSoftReset.tasks ∧ d.beforeMatrixReset.wait = d.threadSoftReset.wait ∧
    d.beforeMatrixReset.engineQ = d.threadSoftReset.engineQ ∧ d.beforeMatrixReset.mgr = d.threadSoftReset.mgr ∧
    d.beforeMatrixReset.rbuf = d.threadSoftReset.rbuf ∧
    d.beforeMatrixReset.reader = d.threadSoftReset.reader.softReset := by
  obtain ⟨h1, h2, h3⟩ := Dev.threadSoftReset_blocks_kept d
  unfold Dev.beforeMatrixReset
  refine ⟨?_, ?_, ?_, ?_, ?_, ?_, ?_, ?_, ?_⟩
  · rw [Dev.hvSoftReset_frame]; exact h1
  · rw [Dev.hvSoftReset_frame]; exact h2
  · rw [Dev.hvSoftReset_off, h3]
  all_goals rw [Dev.hvSoftReset_frame]

/-! ## The thread at a soft reset (R22, R148, R186) -/

theorem Dev.threadSoftReset_manager {d : Dev} (h : d.mgr.state = .recording ∨ d.mgr.state = .clearing) :
    d.threadSoftReset =
      { d with tasks := managerSteps d.tasks, saved := [], mgr := { d.mgr with orphan := true } } := by
  rw [Dev.threadSoftReset, if_pos h]

theorem Dev.threadSoftReset_record {d : Dev} (h1 : d.mgr.state ≠ .recording) (h2 : d.mgr.state ≠ .clearing)
    (hr : d.recordsNow = true) :
    d.threadSoftReset = { d with tasks := [.recordStop], saved := [] }.onMgr Manager.softReset := by
  rw [Dev.threadSoftReset, if_neg (by simp [h1, h2]), if_pos hr]

theorem Dev.threadSoftReset_dropped {d : Dev} (h1 : d.mgr.state ≠ .recording) (h2 : d.mgr.state ≠ .clearing)
    (hr : d.recordsNow = false) : d.threadSoftReset = d.dropThread.onMgr Manager.softReset := by
  rw [Dev.threadSoftReset, if_neg (by simp [h1, h2]), if_neg (by simp [hr])]

theorem Dev.recordsNow_iff (d : Dev) :
    d.recordsNow = true ↔ d.mx.state = .unparking ∧ d.mx.phase = .recording ∧ d.wait = .mem ∧
      ∃ b ∈ d.engineQ, b.mine = true := by
  simp [Dev.recordsNow, and_assoc]

/-- Without a recording or clearing of the defect table the thread is dropped, or waits for the one access of a self-check
record; either way it does nothing within the command. -/
theorem Dev.beforeMatrixReset_thread {d : Dev} (h1 : d.mgr.state ≠ .recording) (h2 : d.mgr.state ≠ .clearing) :
    (d.recordsNow = true → d.beforeMatrixReset.wait = .mem ∧ d.beforeMatrixReset.tasks = [.recordStop] ∧
      d.beforeMatrixReset.engineQ = d.engineQ) ∧
    (d.recordsNow = false → d.beforeMatrixReset.wait = .run ∧ d.beforeMatrixReset.tasks = []) := by
  obtain ⟨-, -, -, ht, hw, hq, -⟩ := Dev.beforeMatrixReset_kept d
  rw [ht, hw, hq]
  refine ⟨fun hr => ?_, fun hr => ?_⟩
  · rw [Dev.threadSoftReset_record h1 h2 hr]
    obtain ⟨-, -, hm, -⟩ := (Dev.recordsNow_iff d).1 hr
    exact ⟨hm, rfl, rfl⟩
  · rw [Dev.threadSoftReset_dropped h1 h2 hr]
    exact ⟨rfl, rfl⟩

theorem Dev.beforeMatrixReset_rests {d : Dev} (h1 : d.mgr.state ≠ .recording) (h2 : d.mgr.state ≠ .clearing) :
    d.beforeMatrixReset.OffMatrix ∧ d.beforeMatrixReset.Resting := by
  obtain ⟨hrec, hdrop⟩ := Dev.beforeMatrixReset_thread h1 h2
  cases hr : d.recordsNow with
  | true =>
    obtain ⟨hw, -, -⟩ := hrec hr
    exact ⟨.inr hw, .inl (by simp [hw])⟩
  | false =>
    obtain ⟨hw, ht⟩ := hdrop hr
    exact ⟨.inl hw, .inr ht⟩

/-- A soft reset that acts at once (R195). -/
theorem exec_softReset {s : State} (hw : s.hostWait = none) (hq : s.hostQ = []) :
    exec .softReset s = .next s.actSoftReset := by
  show Host.Outcome.next _ = _
  simp [State.busFree, hw, hq]

/-- The blocks after a soft reset that leaves the thread at rest. -/
theorem State.actSoftReset_dev_resting {s : State} (hm : s.dev.beforeMatrixReset.OffMatrix)
    (hr : s.dev.beforeMatrixReset.Resting) : s.actSoftReset.dev = s.dev.beforeMatrixReset.matrixSoftReset.sync := by
  have hrest : s.dev.beforeMatrixReset.matrixSoftReset.Resting := by
    rw [Dev.matrixSoftReset_frame hm]; exact hr
  rw [State.actSoftReset_dev, Dev.softReset_eq, Dev.settle_resting _ hrest]

/-- A STOPPED reader writes no word of the status area (R174). -/
theorem Dev.syncPosts_stopped {d : Dev} (h : d.reader.state = .stopped) : d.syncPosts = [] := by
  simp [Dev.syncPosts, Dev.statusLive, h]

/-! ## The soft reset by the matrix state (R22, R24) -/

theorem Dev.matrixSoftReset_nothing {d : Dev}
    (h : d.mx.state = .parked ∨ d.mx.state = .parking ∨ d.mx.parkPending = true) : d.matrixSoftReset = d := by
  unfold Dev.matrixSoftReset
  split
  · rfl
  · rename_i hp
    obtain h | h | h := h
    · simp [h]
    · simp [h]
    · exact absurd h hp

theorem Dev.matrixSoftReset_ready {d : Dev} (hp : d.mx.parkPending = false) (h : d.mx.state = .ready) :
    (d.hv.state = .off → d.matrixSoftReset = (d.onMx fun m => { m with parkPending := true }).beginParking) ∧
    (d.hv.state ≠ .off → d.matrixSoftReset = d.onMx fun m => { m with parkPending := true }) := by
  have hr : d.matrixSoftReset = (d.onMx fun m => { m with parkPending := true }).tryPark := by
    simp [Dev.matrixSoftReset, hp, h]
  exact ⟨fun hv => hr.trans (Dev.tryPark_begins rfl h hv), fun hv => hr.trans (Dev.tryPark_none (.inr (.inr hv)))⟩

theorem Dev.matrixSoftReset_setting {d : Dev} (hp : d.mx.parkPending = false)
    (h : d.mx.state = .setting ∨ (d.mx.state = .held ∧ d.mx.phase = .heldRecovery)) :
    d.matrixSoftReset = d.onMx fun m => { m with parkPending := true, requester := false, waitReq := none } := by
  obtain h | ⟨h, hph⟩ := h
  · simp [Dev.matrixSoftReset, hp, h]
  · simp [Dev.matrixSoftReset, hp, h, hph]

theorem Dev.matrixSoftReset_held {d : Dev} (hp : d.mx.parkPending = false) (h : d.mx.state = .held)
    (hph : d.mx.phase ≠ .heldRecovery) (hv : d.hv.state ≠ .off) :
    d.matrixSoftReset = d.dropSetup.onMx fun m => { m with parkPending := true, waitReq := none } := by
  simp only [Dev.matrixSoftReset, hp, h, Bool.false_eq_true, if_false, if_neg hph]
  exact Dev.tryPark_none (.inr (.inr hv))

/-- With an exchange in progress, or the access of a record, the unpark stops at its end (R22). -/
theorem Dev.matrixSoftReset_marks {d : Dev} (hp : d.mx.parkPending = false) (h : d.mx.state = .unparking)
    (hph : (d.mx.phase = .enumerating ∨ ∃ cs, d.mx.phase = .checking cs ∨ d.mx.phase = .failing cs) ∨
      (d.mx.phase = .recording ∧ d.wait = .mem)) :
    d.matrixSoftReset = d.onMx fun m => { m with stopUnpark := true } := by
  obtain (hph | ⟨cs, hph | hph⟩) | ⟨hph, hw⟩ := hph
  · simp [Dev.matrixSoftReset, hp, h, hph]
  · simp [Dev.matrixSoftReset, hp, h, hph]
  · simp [Dev.matrixSoftReset, hp, h, hph]
  · simp [Dev.matrixSoftReset, hp, h, hph, hw]

/-- Elsewhere the unpark stops at once (R22). -/
theorem Dev.matrixSoftReset_stops {d : Dev} (hp : d.mx.parkPending = false) (h : d.mx.state = .unparking)
    (hph : d.mx.phase = .unparkSettle ∨ (∃ k, d.mx.phase = .pairing k) ∨ d.mx.phase = .failWait ∨
      (d.mx.phase = .recording ∧ d.wait ≠ .mem)) : d.matrixSoftReset = d.unparkStop := by
  obtain hph | ⟨k, hph⟩ | hph | ⟨hph, hw⟩ := hph
  · simp [Dev.matrixSoftReset, hp, h, hph]
  · simp [Dev.matrixSoftReset, hp, h, hph]
  · simp [Dev.matrixSoftReset, hp, h, hph]
  · simp [Dev.matrixSoftReset, hp, h, hph, hw]

/-! ## The manager's steps that finish (R148) -/

theorem managerSteps_last {x : Task} (xs : List Task)
    (h : ∃ f a i, x = .mergeGot f i ∨ x = .appended f ∨ x = .findingEnd f a ∨ x = .cleared) : managerSteps (x :: xs) = [x] := by
  obtain ⟨f, a, i, rfl | rfl | rfl | rfl⟩ := h <;> rfl

theorem managerSteps_more {x : Task} (xs : List Task)
    (h : ∀ f a i, x ≠ .mergeGot f i ∧ x ≠ .appended f ∧ x ≠ .findingEnd f a ∧ x ≠ .cleared) :
    managerSteps (x :: xs) = x :: managerSteps xs := by
  have hmerge : ∀ f i, x ≠ .mergeGot f i := fun f i => (h f .appended i).1
  have happended : ∀ f, x ≠ .appended f := fun f => (h f .appended 0).2.1
  have hend : ∀ f a, x ≠ .findingEnd f a := fun f a => (h f a 0).2.2.1
  have hcleared : x ≠ .cleared :=
    (h ⟨.opn, 0, 0, none, none, .none, false, false, false, 0, 0⟩ .appended 0).2.2.2
  rw [managerSteps]
  · exact hmerge
  · exact happended
  · exact hend
  · exact hcleared

/-- Settles O22: the reset leaves the thread at rest, so that the matrix is as its own soft reset leaves it, state by state;
the manager's work goes on as it was. -/
theorem softResetActsOnMatrix : Obligations.SoftResetActsOnMatrix := by
  refine ⟨fun s hw hq h1 h2 => ⟨_, exec_softReset hw hq, ?matrix⟩, fun q d e hw he => ?stop, fun s hw hq hmgr hmem => ?manager,
    fun x xs => ⟨rfl, managerSteps_last xs, managerSteps_more xs⟩, fun q d f a ho => ?orphan⟩
  case matrix =>
    obtain ⟨d, hd⟩ : ∃ d, d = s.dev.beforeMatrixReset := ⟨_, rfl⟩
    obtain ⟨hmx, hcfg, hoff, -, -, -, -, -, hreader⟩ := Dev.beforeMatrixReset_kept s.dev
    obtain ⟨hom, hrest⟩ := Dev.beforeMatrixReset_rests h1 h2
    obtain ⟨hrec, hdrop⟩ := Dev.beforeMatrixReset_thread h1 h2
    rw [State.actSoftReset_dev_resting hom hrest]
    simp only [Dev.sync_mx, Dev.sync_tasks, Dev.sync_wait, Dev.sync_engineQ]
    rw [← hd] at hmx hcfg hoff hom hrec hdrop hreader ⊢
    rw [← hmx, ← hcfg]
    refine ⟨fun h => by rw [Dev.matrixSoftReset_nothing h], fun hp => ⟨fun h hv => ?ready, fun h hv => ?parks,
      fun h => ?setting, fun h hph hv => ?held, fun h hph => ?recovery, fun h hph => ?stops, fun h hph => ?marks,
      fun h hph hwait hmine => ?record⟩⟩
    case ready => rw [(Dev.matrixSoftReset_ready hp h).2 (mt hoff.1 hv)]; rfl
    case parks =>
      obtain ⟨hs, hpp, -, hcur, -, hnil, hcons⟩ := Dev.beginParking_mx (d.onMx fun m => { m with parkPending := true })
      rw [(Dev.matrixSoftReset_ready hp h).1 (hoff.2 hv)]
      refine ⟨hs, hpp, hcur, fun hn => (hnil hn).2, fun c rest hc => ?_⟩
      obtain ⟨hph, hl⟩ := hcons c rest hc
      exact ⟨hl, hph⟩
    case setting => rw [Dev.matrixSoftReset_setting hp (.inl h)]; rfl
    case held => rw [Dev.matrixSoftReset_held hp h hph (mt hoff.1 hv)]; exact ⟨rfl, rfl, rfl, rfl, rfl⟩
    case recovery => rw [Dev.matrixSoftReset_setting hp (.inr ⟨h, hph⟩)]; rfl
    case stops =>
      have hph' : d.mx.phase = .unparkSettle ∨ (∃ k, d.mx.phase = .pairing k) ∨ d.mx.phase = .failWait ∨
          (d.mx.phase = .recording ∧ d.wait ≠ .mem) := by
        refine hph.imp_right (Or.imp_right (Or.imp_right ?_))
        rintro ⟨hrp, hnone⟩
        have hr : s.dev.recordsNow = false := by
          rw [← Bool.not_eq_true, Dev.recordsNow_iff]
          rintro ⟨-, -, -, b, hb, hbm⟩
          rw [hnone b hb] at hbm
          cases hbm
        exact ⟨hrp, by rw [(hdrop hr).1]; decide⟩
      rw [Dev.matrixSoftReset_stops hp h hph', Dev.unparkStop_mx]
      exact ⟨rfl, rfl, rfl, rfl, rfl, rfl, rfl⟩
    case marks => rw [Dev.matrixSoftReset_marks hp h (.inl hph)]; rfl
    case record =>
      have hr : s.dev.recordsNow = true := (Dev.recordsNow_iff _).2 ⟨hmx ▸ h, hmx ▸ hph, hwait, hmine⟩
      obtain ⟨hdw, hdt, hdq⟩ := hrec hr
      have hstopped : d.reader.state = .stopped := by rw [hreader]; rfl
      rw [Dev.matrixSoftReset_marks hp h (.inr ⟨hph, hdw⟩), Dev.syncPosts_stopped (by exact hstopped)]
      exact ⟨rfl, by rw [Dev.onMx_engineQ, hdq, List.append_nil], hdt, hdw⟩
  case stop =>
    have hstop : e = d.clearBuf.unparkStop := he
    have hne : d.clearBuf.wait ≠ .unparking := by show d.wait ≠ _; rw [hw]; decide
    rw [hstop, Dev.unparkStop_mx]
    exact ⟨rfl, rfl, rfl, rfl, rfl, (Dev.unparkStop_elsewhere hne).1⟩
  case manager =>
    obtain ⟨-, -, -, ht, hwt, hq', hm, hb, hreader⟩ := Dev.beforeMatrixReset_kept s.dev
    rw [Dev.threadSoftReset_manager hmgr] at ht hwt hq' hm hb hreader
    have hwait : s.dev.beforeMatrixReset.wait = .mem := hwt.trans hmem
    have hstopped : s.dev.beforeMatrixReset.reader.state = .stopped := by rw [hreader]; rfl
    refine ⟨_, exec_softReset hw hq, ?_⟩
    rw [State.actSoftReset_dev_resting (.inr hwait) (.inl (by rw [hwait]; decide))]
    simp only [Dev.sync_mgr, Dev.sync_tasks, Dev.sync_wait, Dev.sync_engineQ, Dev.sync_rbuf, Dev.sync_reader]
    rw [Dev.matrixSoftReset_frame (.inr hwait), Dev.syncPosts_stopped (by exact hstopped), List.append_nil]
    exact ⟨hm, hq', hwait, ht, hb, hstopped⟩
  case orphan =>
    refine ⟨?_, fun m hm => ⟨?_, ?_⟩⟩
    · show (d.raiseDefect f).attn = _
      simp [Dev.raiseDefect, ho]
    · show d.findingEnd f a = _
      simp only [Dev.findingEnd, ho, if_true, hm]
      rfl
    · show d.cleared = _
      simp only [Dev.cleared, ho, if_true, hm]
      rfl

end Sys2Proof.Machine

namespace Sys2Proof.Machine

/-! ## A HALT or an ABORT of an order in flight (R183, R185) -/

/-- Either command sets its mark and reaches the order where it waits. -/
theorem exec_stop {s : State} {cmd : Instr} {o : Order} {r : Reader} (hw : s.hostWait = none)
    (hs : s.dev.reader.state = .running) (ho : s.dev.reader.order = some o) (ht : o.status = .taken)
    (hh : s.dev.reader.haltPending = false) (he : s.dev.reader.ending = none)
    (hc : cmd = .halt ∧ r = { s.dev.reader with haltPending := true } ∨
      cmd = .abort ∧ r = { s.dev.reader with ending := some .aborted }) :
    exec cmd s = .next { s with dev := Dev.settle s.hostQ (Dev.stopArrives false { s.dev with reader := r }) } := by
  have hbus : s.busFree = true := by simp [State.busFree, hw]
  obtain ⟨rfl, rfl⟩ | ⟨rfl, rfl⟩ := hc
  · have hhalt : s.dev.halt = Dev.stopArrives false { s.dev with reader := { s.dev.reader with haltPending := true } } := by
      simp [Dev.halt, hs, hh, Dev.inFlight, ho, ht, Dev.onReader]
    show Host.Outcome.next (State.command Dev.halt s) = _
    rw [State.command, if_pos hbus, State.withDev_eq hhalt]
  · have habort : s.dev.abort =
        Dev.stopArrives false { s.dev with reader := { s.dev.reader with ending := some .aborted } } := by
      simp [Dev.abort, hs, Dev.orderIs, ho, ht, he, Dev.onReader]
    show Host.Outcome.next (State.command Dev.abort s) = _
    rw [State.command, if_pos hbus, State.withDev_eq habort]

/-! ## What a stop does, by what the order waits for -/

theorem Dev.stopArrives_heldSetup {d : Dev} (hw : d.wait = .setup)
    (hp : d.mx.phase = .heldOpening ∨ d.mx.phase = .heldClosing) (hr : d.mx.requester = true) :
    d.stopArrives false = d.dropSetup.goto (.safe :: .setup d.mx.reqTarget :: d.tasks) := by
  simp [Dev.stopArrives, hw, hp, hr]

theorem Dev.stopArrives_park {d : Dev}
    (h : d.wait = .parkGate ∨ (d.wait = .forParked ∧ d.kind = some .park ∧ d.mx.state = .ready)) :
    d.stopArrives false = (d.onMx fun m => { m with parkPending := false }).goto [.safe, .parkStart] := by
  obtain hw | ⟨hw, hk, hm⟩ := h
  · simp [Dev.stopArrives, hw]
  · simp [Dev.stopArrives, hw, hk, hm]

theorem Dev.stopArrives_unpark {d : Dev} (h : d.wait = .unparkGate ∨ (d.wait = .forParked ∧ d.kind = some .unpark)) :
    d.stopArrives false = d.goto [.safe, .unparkStart] := by
  obtain hw | ⟨hw, hk⟩ := h
  · simp [Dev.stopArrives, hw]
  · simp [Dev.stopArrives, hw, hk]

theorem Dev.stopArrives_unparking {d : Dev} {c : Code} (hw : d.wait = .unparking) (he : d.reader.ending = some c) :
    d.stopArrives false =
      if d.mx.phase = .unparkSettle then d.unparkStop else d.onMx fun m => { m with stopUnpark := true } := by
  simp [Dev.stopArrives, hw, he]

theorem Dev.stopArrives_room {d : Dev} (hw : d.wait = .room) :
    d.stopArrives false = (d.onFmt fun f => { f with buf := [] }).goto [.safe, .fmtNext] := by
  simp [Dev.stopArrives, hw]

theorem Dev.stopArrives_energized {d : Dev}
    (h : d.wait = .ramp ∨ d.wait = .dwell ∨ (d.wait = .meas ∧ ∃ j, d.mu.job = some j ∧ j.kind = .window)) :
    d.stopArrives false = d.abandonStep := by
  obtain hw | hw | ⟨hw, j, hj, hk⟩ := h
  · simp [Dev.stopArrives, hw]
  · simp [Dev.stopArrives, hw]
  · simp [Dev.stopArrives, hw, Dev.energized, hj, hk]

/-- Anywhere else the next safe point sees the mark (R183). -/
theorem Dev.stopArrives_marks {d : Dev}
    (h : (d.wait = .setup ∧ d.mx.phase ≠ .heldOpening ∧ d.mx.phase ≠ .heldClosing) ∨ d.wait = .parkRun ∨ d.wait = .zeroOff ∨
      d.wait = .rampHeld ∨ d.wait = .hvOff ∨ d.wait = .mem ∨ d.wait = .format ∨
      (d.reader.ending = none ∧ d.wait = .unparking) ∨ (d.wait = .meas ∧ ∀ j, d.mu.job = some j → j.kind ≠ .window) ∨
      (d.wait = .forParked ∧ d.kind ≠ some .unpark ∧ (d.kind ≠ some .park ∨ d.mx.state ≠ .ready))) :
    d.stopArrives false = d := by
  obtain ⟨hw, h1, h2⟩ | hw | hw | hw | hw | hw | hw | ⟨he, hw⟩ | ⟨hw, hj⟩ | ⟨hw, h1, h2⟩ := h
  · simp [Dev.stopArrives, hw, h1, h2]
  · simp [Dev.stopArrives, hw]
  · simp [Dev.stopArrives, hw]
  · simp [Dev.stopArrives, hw]
  · simp [Dev.stopArrives, hw]
  · simp [Dev.stopArrives, hw]
  · simp [Dev.stopArrives, hw]
  · simp [Dev.stopArrives, hw, he]
  · have hn : d.energized = false := by
      cases hjob : d.mu.job with
      | none => simp [Dev.energized, hw, hjob]
      | some j => simp [Dev.energized, hw, hjob, hj j hjob]
    simp [Dev.stopArrives, hw, hn]
  · have hp : ¬(d.kind = some .park ∧ d.mx.state = .ready) := by
      rintro ⟨hk, hm⟩
      exact h2.elim (absurd hk) (absurd hm)
    simp [Dev.stopArrives, hw, h1, if_neg hp]

/-! ## An energized step abandoned (R117, R137) -/

theorem MeasUnit.cancelWindow_job {u : MeasUnit} {j : Job} (h : u.cancelWindow.job = some j) :
    j.kind ≠ .window ∧ j.kind ≠ .rampCheck := by
  unfold MeasUnit.cancelWindow at h
  split at h
  · rename_i j' hj
    split at h
    · cases h
    · rename_i hk
      rw [hj] at h
      obtain rfl := Option.some.inj h
      exact not_or.1 hk
  · rename_i hn
    rw [hn] at h
    cases h

theorem Dev.askDischarge_sourceOn {d : Dev} (h : d.hv.sourceOn = true) :
    d.askDischarge = d.enterDischarge.onHv fun h => { h with ask := .waiting } := by
  simp only [Dev.askDischarge, Dev.dropSource, if_pos h]
  rfl

/-- The source on in RAMP and DWELL is dropped, a window of the step ends with it, and the step is to be made again. -/
theorem Dev.abandonStep_sourceOn {d : Dev} (h : d.hv.state = .ramp ∨ d.hv.state = .dwell) :
    d.abandonStep.wait = .run ∧ d.abandonStep.reader = d.reader ∧ d.abandonStep.hv.state = .discharge ∧
    d.abandonStep.hv.dischT = some d.cfg.dischTimeout ∧ d.abandonStep.hv.ask = .waiting ∧
    d.abandonStep.ins.dwellT = none ∧
    (∀ j, d.abandonStep.mu.job = some j → j.kind ≠ .window ∧ j.kind ≠ .rampCheck) ∧
    d.abandonStep.tasks = .waitOff false :: .safe ::
      (if d.ins.locPhase = .none then .groupSetup else .locProbe d.ins.subset) :: afterStepEnd d.tasks := by
  have hon : d.hv.sourceOn = true := by obtain h | h := h <;> simp [Hv.sourceOn, h]
  simp only [Dev.abandonStep, Dev.askDischarge_sourceOn hon]
  refine ⟨rfl, rfl, rfl, rfl, rfl, rfl, fun j hj => MeasUnit.cancelWindow_job (u := d.mu) hj, ?_⟩
  by_cases hl : d.ins.locPhase = .none <;> simp [Dev.goto, Insul.locating, hl]

/-- Settles O28, wait by wait: the command sets its mark, and what it does at once follows from what the order waits for. -/
theorem stopsActByWait : Obligations.StopsActByWait := by
  intro s cmd o r hbus hrun ho hst hh he hcmd
  obtain ⟨d, hd⟩ : ∃ d : Dev, d = { s.dev with reader := r } := ⟨_, rfl⟩
  have hex := exec_stop hbus hrun ho hst hh he hcmd
  have hkind : d.kind = o.kind := by
    obtain ⟨-, hr⟩ | ⟨-, hr⟩ := hcmd <;> simp [hd, hr, Dev.kind, ho]
  have hmx : d.mx = s.dev.mx := by rw [hd]
  have hwait : d.wait = s.dev.wait := by rw [hd]
  have hmu : d.mu = s.dev.mu := by rw [hd]
  have habort : cmd = .abort → d.reader.ending = some .aborted := fun hc => by
    obtain ⟨h, -⟩ | ⟨-, hr⟩ := hcmd
    · rw [hc] at h; cases h
    · rw [hd, hr]
  have hhalt : cmd = .halt → d.reader.ending = none := fun hc => by
    obtain ⟨-, hr⟩ | ⟨h, -⟩ := hcmd
    · rw [hd, hr]; exact he
    · rw [hc] at h; cases h
  rw [← hd] at hex
  rw [hex]
  refine ⟨?setup, ?park, ?unpark, ?settling, ?exchanging, ?energized, ?room, ?elsewhere⟩
  case setup =>
    intro hw hp hr
    rw [Dev.stopArrives_heldSetup (hwait.trans hw) (by rwa [hmx]) (by rwa [hmx]), hd]
    rfl
  case park =>
    intro h
    rw [Dev.stopArrives_park (by rwa [hwait, hkind, hmx]), hd]
    rfl
  case unpark =>
    intro h
    rw [Dev.stopArrives_unpark (by rwa [hwait, hkind]), hd]
    rfl
  case settling =>
    intro hc hw hp
    have hends : d.unparkStop = (d.clearCards.onMx Matrix.toParked).failOrder .aborted := by
      simp only [Dev.unparkStop, if_pos (hwait.trans hw), habort hc]
    rw [Dev.stopArrives_unparking (hwait.trans hw) (habort hc), if_pos (by rw [hmx]; exact hp), hends, hd]
    exact ⟨_, rfl, rfl, rfl, rfl, rfl, rfl, rfl, rfl, rfl, rfl⟩
  case exchanging =>
    intro hc hw hp
    rw [Dev.stopArrives_unparking (hwait.trans hw) (habort hc), if_neg (by rw [hmx]; exact hp), hd]
    rfl
  case energized =>
    intro hv h
    have hstep := Dev.abandonStep_sourceOn (d := d) (by rw [hd]; exact hv)
    rw [Dev.stopArrives_energized (by rwa [hwait, hmu])]
    rw [hd] at hstep ⊢
    exact ⟨_, rfl, hstep⟩
  case room =>
    intro hw
    rw [Dev.stopArrives_room (hwait.trans hw), hd]
    rfl
  case elsewhere =>
    intro h
    rw [Dev.stopArrives_marks, hd]
    rw [hwait, hkind, hmx, hmu]
    exact h.imp_right (Or.imp_right (Or.imp_right (Or.imp_right (Or.imp_right (Or.imp_right (Or.imp_right
      (Or.imp_left (And.imp_left hhalt))))))))

end Sys2Proof.Machine

/-! # The measurement unit and its arithmetic, and the orders that use it: what its operations do -/

namespace Sys2Proof.Machine

/-! ## The raw resistance (R34) -/

/-- The raw resistance of a positive D, from the product X (R34). -/
theorem rawResistance_pos {d : Int} {k g n x : Nat} (hx : (x : Int) = d * k * g) (hd : 0 < d) :
    rawResistance d k g n = (x + 16 * n * 32768 / 2) / (16 * n * 32768) := by
  have hX : d.toNat * k * g = x := by
    have h := Int.toNat_of_nonneg hd.le
    zify
    rw [h, hx]
  have hQ : 524288 * n = 16 * n * 32768 := by omega
  rw [rawResistance, if_neg (by omega), hX, hQ]

/-- A quotient rounded half up by adding half the divisor lies within half of the exact one. -/
theorem roundHalfUp_bounds {q : Nat} (x : Nat) (hq : 0 < q) (heven : q % 2 = 0) :
    2 * x < (2 * ((x + q / 2) / q) + 1) * q ∧ 2 * ((x + q / 2) / q) * q ≤ 2 * x + q := by
  have hdm := Nat.div_add_mod (x + q / 2) q
  have hlt := Nat.mod_lt (x + q / 2) hq
  generalize (x + q / 2) % q = m at hdm hlt
  generalize (x + q / 2) / q = r at hdm ⊢
  have hcomm : r * q = q * r := Nat.mul_comm r q
  rw [Nat.add_mul, Nat.one_mul, Nat.mul_assoc, hcomm]
  omega

/-- The product X of a collection whose D is at most 33766 codes a sample. -/
theorem rawProduct_le {d : Int} {k g n x : Nat} (hx : (x : Int) = d * k * g) (hd : 0 < d) (hdn : d ≤ n * 33766)
    (hk : k ≤ 1000) (hg : g ≤ 49151) : x ≤ n * 1659632666000 := by
  lift d to Nat using hd.le
  have hX : x = d * k * g := by exact_mod_cast hx
  have hdn' : d ≤ n * 33766 := by exact_mod_cast hdn
  calc x = d * k * g := hX
    _ ≤ n * 33766 * 1000 * 49151 := Nat.mul_le_mul (Nat.mul_le_mul hdn' hk) hg
    _ = n * 1659632666000 := by ring

/-- The largest raw resistance (R35), whatever the sample count. -/
theorem roundHalfUp_le {n x : Nat} (hn : 0 < n) (hx : x ≤ n * 1659632666000) :
    (x + 16 * n * 32768 / 2) / (16 * n * 32768) ≤ 3165498 := by
  rw [← Nat.lt_succ_iff, Nat.div_lt_iff_lt_mul (by omega)]
  omega

/-- Settles O43: from the product X by the rounding's two bounds, and from the largest X for a unit's collection. -/
theorem rawResistanceRoundsHalfUp : Obligations.RawResistanceRoundsHalfUp := by
  intro d g n r k hr hn
  have hk : r.k = k ∧ k ≤ 1000 := by
    obtain ⟨rfl, rfl⟩ | ⟨rfl, rfl⟩ | ⟨rfl, rfl⟩ := hr <;> exact ⟨rfl, by decide⟩
  obtain ⟨hrk, hk⟩ := hk
  rw [hrk]
  refine ⟨fun hd => by simp [rawResistance, hd], fun x hx hd => ?_⟩
  obtain ⟨hupper, hlower⟩ := roundHalfUp_bounds (q := 16 * n * 32768) x (by omega) (by omega)
  rw [rawResistance_pos hx hd]
  refine ⟨rfl, by exact_mod_cast hupper, ?_, fun hdn hn64 hg => ?_⟩
  · zify at hlower
    push_cast at hlower ⊢
    linarith
  · have hxn := rawProduct_le hx hd hdn hk hg
    exact ⟨by omega, roundHalfUp_le hn hxn⟩

end Sys2Proof.Machine

namespace Sys2Proof.Machine

/-! ## What begins a measurement (R27 to R30, R33, R39, R42) -/

/-- While zero-valid is clear a measurement marks the order, else it leaves the reader (R29). -/
theorem Dev.noteUnzeroed_eq {d : Dev} {r : Reader} (hv : d.mu.zeroValid = true → r = d.reader)
    (hn : d.mu.zeroValid = false →
      r = { d.reader with order := d.reader.order.map fun o => { o with unzeroed := true } }) :
    d.noteUnzeroed = { d with reader := r } := by
  cases hz : d.mu.zeroValid with
  | true => rw [hv hz, Dev.noteUnzeroed, hz]; rfl
  | false => rw [hn hz, Dev.noteUnzeroed, hz]; rfl

/-- The collections of a ZERO on the stimulus ranges go to the zero path, those on the leakage ranges have the source off
(R42). -/
theorem Dev.zeroCollect_stimulus {i : Nat} (d : Dev) (h : i < 3) :
    d.zeroCollect i = { d with
      mu := { d.mu with
        state := .zeroing, stim := zeroRange i, route := .zeroPath
        job := some ⟨.zero i, zeroRange i, 64, 0, 0, 0, 0, false, true, (d.cfg.gH, d.cfg.gM, d.cfg.gL)⟩ }
      wait := .meas } := by
  simp [Dev.zeroCollect, Dev.measure, Dev.startJob, Dev.onMu, JobKind.usesDiff, JobKind.route, JobKind.state, h]

theorem Dev.zeroCollect_leakage {i : Nat} (d : Dev) (h : 3 ≤ i) :
    d.zeroCollect i = { d with
      mu := { d.mu with
        state := .zeroing, stim := .none, leak := zeroRange i, route := .buses
        job := some ⟨.zero i, zeroRange i, 64, 0, 0, 0, 0, false, true, (d.cfg.gH, d.cfg.gM, d.cfg.gL)⟩ }
      wait := .meas } := by
  simp [Dev.zeroCollect, Dev.measure, Dev.startJob, Dev.onMu, JobKind.usesDiff, JobKind.route, JobKind.state,
    show ¬ i < 3 by omega]

/-- The six ranges of a ZERO, in the order of its collections (R42). -/
theorem zeroRange_of_getElem {i : Nat} {r : Rng} (h : [Rng.h, .m, .l, .l1, .l2, .l3][i]? = some r) :
    zeroRange i = r ∧ i < 6 := by
  obtain ⟨hi, -⟩ := List.getElem?_eq_some_iff.1 h
  change i < 6 at hi
  interval_cases i <;> exact ⟨Option.some.inj h, by decide⟩

/-! ## One sample at the measurement unit (R25, R26, R32, R36) -/

/-- The sums and saturation marks that grow by a sample of the job's channel, DIFF saturated at either end code, HVI at the
upper one alone (R26). -/
theorem Job.add_eq (j : Job) (diff hvv hvi : Int) :
    j.add diff hvv hvi = { j with
      got := j.got + 1
      sum := j.sum + (if j.kind.usesDiff then diff else hvi)
      sumV := j.sumV + hvv
      sumI := j.sumI + hvi
      sat := j.sat || (if j.kind.usesDiff then decide (diff = 32767 ∨ diff = -32768) else decide (hvi = 32767))
      allSat := j.allSat &&
        (if j.kind.usesDiff then decide (diff = 32767 ∨ diff = -32768) else decide (hvi = 32767)) } := by
  simp [Job.add, diffSaturated, hviSaturated]

@[simp] theorem Job.add_kind (j : Job) (diff hvv hvi : Int) : (j.add diff hvv hvi).kind = j.kind := rfl

/-- A job with its collection started afresh at range `r` (R36). -/
def Job.restart (r : Rng) (j : Job) : Job :=
  { j with rng := r, got := 0, sum := 0, sumV := 0, sumI := 0, sat := false, allSat := true }

/-- Only an over-range autoranged measurement at H or M has a next range (R36). -/
theorem Job.nextRange_lower {j : Job} {ca cb : Nat} {r : Rng} (hk : j.kind = .twoPoint true ca cb) (hs : j.sat = true)
    (hr : j.rng = .h ∧ r = .m ∨ j.rng = .m ∧ r = .l) : j.nextRange = some r := by
  obtain ⟨hr, rfl⟩ | ⟨hr, rfl⟩ := hr <;> simp [Job.nextRange, hk, hs, hr]

theorem Job.nextRange_of_not_auto {j : Job} (h : ∀ ca cb, j.kind ≠ .twoPoint true ca cb) : j.nextRange = none := by
  unfold Job.nextRange
  split
  · rename_i ca cb hk; exact absurd hk (h ca cb)
  · rfl

theorem Job.nextRange_last {j : Job} (h : j.sat = false ∨ j.rng = .l) : j.nextRange = none := by
  unfold Job.nextRange
  split
  · obtain h | h := h <;> simp [h]
  · rfl

/-- The unit after the answer of a finished job: the source off (R32). -/
def MeasUnit.answered (st : MUState) (a : Answer) (u : MeasUnit) : MeasUnit :=
  { u with state := st, stim := .none, route := .buses, job := none, ans := a }

theorem MeasUnit.sample_idle {u : MeasUnit} (diff hvv hvi : Int) (h : u.job = none) : u.sample diff hvv hvi = (u, none) := by
  simp only [MeasUnit.sample, h]

section
variable {u : MeasUnit} {j : Job} {diff hvv hvi : Int} (hj : u.job = some j)
include hj

theorem MeasUnit.sample_grows (hn : j.got + 1 < j.n) :
    u.sample diff hvv hvi = ({ u with job := some (j.add diff hvv hvi) }, none) := by
  have hlt : (j.add diff hvv hvi).got < (j.add diff hvv hvi).n := hn
  simp only [MeasUnit.sample, hj, if_pos hlt]

theorem MeasUnit.sample_repeats {r : Rng} (hn : j.n ≤ j.got + 1) (hr : (j.add diff hvv hvi).nextRange = some r) :
    u.sample diff hvv hvi = ({ u with stim := r, job := some (j.restart r) }, none) := by
  have hge : ¬(j.add diff hvv hvi).got < (j.add diff hvv hvi).n := Nat.not_lt.2 hn
  simp only [MeasUnit.sample, hj, if_neg hge, hr]
  rfl

theorem MeasUnit.sample_ends {st : MUState} (hn : j.n ≤ j.got + 1) (hr : (j.add diff hvv hvi).nextRange = none)
    (hst : st = if j.kind.state = .zeroing then .zeroing else .idle) :
    u.sample diff hvv hvi = (u.answered st ((j.add diff hvv hvi).answer u.zero), some j.kind) := by
  have hge : ¬(j.add diff hvv hvi).got < (j.add diff hvv hvi).n := Nat.not_lt.2 hn
  simp only [MeasUnit.sample, hj, if_neg hge, hr, hst]
  rfl

end

/-! ## One sample at the HV controller (R105, R107) -/

/-- The samples the HV controller notes in its own state: the last code, the count of samples below the safe level, the
setpoint of a ramp that has not ended (R105, R107). -/
theorem Hv.sample_notes {h h' : Hv} {code : Int}
    (hs : ((h.state = .dwell ∨ (h.state = .off ∧ code < 600)) ∧ h' = { h with lastHvv := code }) ∨
      ((h.state = .discharge ∨ h.state = .lockout) ∧
        ((600 ≤ code ∧ h' = { h with lastHvv := code, below := 0 }) ∨
          (code < 600 ∧ h.below = 0 ∧ h' = { h with lastHvv := code, below := 1 }))) ∨
      (h.state = .ramp ∧ (h.check = true ∨ 5 * code < 98 * (h.volts : Int)) ∧
        h' = { h with
          lastHvv := code, rampN := h.rampN + 1
          setpoint := min (h.rate * (h.rampN + 1)) (h.volts * 10000) })) :
    h.sample code = (h', .none) := by
  have hdrain : ∀ x : Hv, (600 ≤ code → x.drain code = ({ x with below := 0 }, .none)) ∧
      (code < 600 → x.below = 0 → x.drain code = ({ x with below := 1 }, .none)) := fun x =>
    ⟨fun hc => by simp [Hv.drain, Config.safeCode, Int.not_lt.2 hc], fun hc hb => by simp [Hv.drain, Config.safeCode, hc, hb]⟩
  obtain ⟨hd | ⟨ho, hc⟩, rfl⟩ | ⟨hst, hb⟩ | ⟨hr, hend, rfl⟩ := hs
  · simp [Hv.sample, hd]
  · simp [Hv.sample, ho, Config.safeCode, hc]
  · have hdr : h.sample code = Hv.drain code { h with lastHvv := code } := by
      obtain hst | hst := hst <;> simp [Hv.sample, hst]
    obtain ⟨hc, rfl⟩ | ⟨hc, hb, rfl⟩ := hb
    · rw [hdr, (hdrain _).1 hc]
    · rw [hdr, (hdrain { h with lastHvv := code }).2 hc hb]
  · have hgo : (!h.check && rampEnds code h.volts) = false := by
      obtain hk | hlt := hend
      · simp [hk]
      · simp [rampEnds, hlt]
    simp [Hv.sample, hr, hgo, rampSetpoint]

/-! ## One sample at both (R25) -/

section
variable {d : Dev} {h : Hv} {m : MeasUnit} {diff hvv hvi : Int} (hh : d.hv.sample hvv = (h, .none))
include hh

/-- A sample with which no measurement ends and of which the HV controller reports nothing. -/
theorem Dev.sample_goes_on (hm : d.mu.sample diff hvv hvi = (m, none)) :
    d.sample diff hvv hvi = { d with mu := m, hv := h } := by
  simp only [Dev.sample, hh, hm, Dev.hvReport]

/-- The last sample of a measurement that the thread waits for: the thread goes on. -/
theorem Dev.sample_answers {k : JobKind} (hm : d.mu.sample diff hvv hvi = (m, some k)) (hw : d.wait = .meas)
    (hk : (∀ n, k ≠ .pair n) ∧ k ≠ .rampCheck) :
    d.sample diff hvv hvi = { d with mu := m, hv := h, wait := .run } := by
  obtain ⟨hpair, hcheck⟩ := hk
  have hwake : ({ d with mu := m, hv := h } : Dev).measured k = Dev.wake .meas { d with mu := m, hv := h } := by
    cases k with
    | pair n => exact absurd rfl (hpair n)
    | rampCheck => exact absurd rfl hcheck
    | twoPoint a ca cb => rfl
    | probe t => rfl
    | window => rfl
    | zero i => rfl
  simp only [Dev.sample, hh, hm, Dev.hvReport]
  rw [hwake, Dev.wake, if_pos (by exact hw)]
  rfl

end

/-- Settles O42: what begins is each step's own measurement; a sample goes to the unit, by the job's count and range, and to
the HV controller, which notes it. -/
theorem samplesJoinMeasurement : Obligations.SamplesJoinMeasurement := by
  refine ⟨fun q d r g hg hv hn => ⟨fun rng auto n ca cb => ?twoPoint, fun n t => ?probe, fun i rng hi => ?zero⟩,
    fun s diff hvv hvi h hh => ?sample⟩
  case twoPoint =>
    show (d.noteUnzeroed).measure _ _ _ = _
    rw [Dev.noteUnzeroed_eq hv hn, hg]
    rfl
  case probe =>
    show (d.noteUnzeroed).measure _ _ _ = _
    rw [Dev.noteUnzeroed_eq hv hn, hg]
    rfl
  case zero =>
    obtain ⟨rfl, -⟩ := zeroRange_of_getElem hi
    rw [hg]
    exact ⟨Dev.zeroCollect_stimulus d, Dev.zeroCollect_leakage d⟩
  case sample =>
    have hnote := Hv.sample_notes hh
    refine ⟨fun hj => ?none, fun j j' hj hj' => ?some⟩
    case none =>
      rw [exec_converterSample, State.withDev_eq (Dev.sample_goes_on hnote (MeasUnit.sample_idle _ _ _ hj))]
    case some =>
      rw [← Job.add_eq j diff.toInt hvv.toInt hvi.toInt] at hj'
      subst hj'
      refine ⟨fun hn => ?grows, fun ca cb r hn hk hs hr => ?repeats, fun i hn hw hk => ?zeroEnds, fun hn hw hk => ?ends⟩
      case grows => rw [exec_converterSample, State.withDev_eq (Dev.sample_goes_on hnote (MeasUnit.sample_grows hj hn))]
      case repeats =>
        have hr := Job.nextRange_lower (j := j.add diff.toInt hvv.toInt hvi.toInt) hk hs hr
        rw [exec_converterSample, State.withDev_eq (Dev.sample_goes_on hnote (MeasUnit.sample_repeats hj hn hr))]
        rfl
      case zeroEnds =>
        have hr : (j.add diff.toInt hvv.toInt hvi.toInt).nextRange = none :=
          Job.nextRange_of_not_auto fun ca cb => by simp [hk]
        have hm := MeasUnit.sample_ends (st := .zeroing) hj hn hr (by simp [hk, JobKind.state])
        rw [exec_converterSample, State.withDev_eq (Dev.sample_answers hnote hm hw (by simp [hk]))]
        rfl
      case ends =>
        have hr : (j.add diff.toInt hvv.toInt hvi.toInt).nextRange = none := by
          obtain ⟨t, hk⟩ | hk | ⟨ca, cb, hk⟩ | ⟨ca, cb, hk, hlast⟩ := hk
          · exact Job.nextRange_of_not_auto fun ca cb => by simp [hk]
          · exact Job.nextRange_of_not_auto fun ca cb => by simp [hk]
          · exact Job.nextRange_of_not_auto fun ca cb => by simp [hk]
          · exact Job.nextRange_last hlast
        have hkind : j.kind.state ≠ .zeroing ∧ (∀ n, j.kind ≠ .pair n) ∧ j.kind ≠ .rampCheck := by
          obtain ⟨t, hk⟩ | hk | ⟨ca, cb, hk⟩ | ⟨ca, cb, hk, -⟩ := hk <;> simp [hk, JobKind.state]
        obtain ⟨hst, hthread⟩ := hkind
        have hm := MeasUnit.sample_ends (st := .idle) hj hn hr (by rw [if_neg hst])
        rw [exec_converterSample, State.withDev_eq (Dev.sample_answers hnote hm hw hthread)]
        rfl

end Sys2Proof.Machine

namespace Sys2Proof.Machine


/-! ## Words from their halves -/

/-- A word is its two halves (R202). -/
theorem word_eq_of_halves {w v : Word} (hl : lo w = lo v) (hh : hi w = hi v) : w = v := by
  apply BitVec.eq_of_toNat_eq
  simp only [lo, hi] at hl hh
  omega

/-! ## The steps of a ZERO (R42, R43) -/

theorem Matrix.usable_iff (m : Matrix) : m.usable = true ↔ m.state = .ready ∧ m.parkPending = false := by
  simp [Matrix.usable]

theorem Dev.zeroStart_usable {d : Dev} (h : d.mx.usable = true) : d.zeroStart = d.push [.setup [], .zeroRun] := by
  rw [Dev.zeroStart, if_pos h]

theorem Dev.zeroStart_parked {d : Dev} (h : d.mx.state = .parked) : d.zeroStart = d.push [.zeroRun] := by
  have hu : ¬d.mx.usable = true := fun hu => by rw [Matrix.usable_iff, h] at hu; cases hu.1
  rw [Dev.zeroStart, if_neg hu, if_pos h]

theorem Dev.zeroStart_waits {d : Dev} (hp : d.mx.state ≠ .parked) (hu : d.mx.state ≠ .ready ∨ d.mx.parkPending = true) :
    d.zeroStart = { d.push [.zeroSafe, .zeroStart] with wait := .forParked } := by
  have hu : ¬d.mx.usable = true := fun h => by
    obtain ⟨hr, hpp⟩ := (Matrix.usable_iff _).1 h
    simp [hr, hpp] at hu
  rw [Dev.zeroStart, if_neg hu, if_neg hp]

theorem Dev.zeroOff_discharged {d : Dev} (h : d.hv.state = .off) : d.zeroOff = d := by
  simp [Dev.zeroOff, Dev.discharged, h]

theorem Dev.zeroOff_waits {d : Dev} (h : d.hv.state ≠ .off) : d.zeroOff = { d with wait := .zeroOff } := by
  simp [Dev.zeroOff, Dev.discharged, h]

theorem Dev.zeroSafe_ends {d : Dev} {c : Code} (h : d.reader.ending = some c) : d.zeroSafe = d.failOrder c := by
  simp only [Dev.zeroSafe, h]

theorem Dev.zeroSafe_halts {d : Dev} (he : d.reader.ending = none) (hh : d.reader.haltPending = true) :
    d.zeroSafe = d.goto [.pause, .zeroRun] := by
  simp only [Dev.zeroSafe, he, if_pos hh]

theorem Dev.zeroSafe_goes_on {d : Dev} (he : d.reader.ending = none) (hh : d.reader.haltPending = false) :
    d.zeroSafe = d := by
  simp [Dev.zeroSafe, he, hh]

/-- A collection's code joins the result fields and its word is issued (R42). -/
theorem Dev.zeroGot_eq {d : Dev} {o : Order} (i : Nat) (ho : d.reader.order = some o) (r : Option Int)
    (hr : r = if d.mu.ans.sat then none else some (zeroCodeOf d.mu.ans.sum)) :
    d.zeroGot i = { d with
      prog := { d.prog with zres := d.prog.zres.set i (some r) }
      engineQ := d.engineQ ++
        [⟨o.resultOff + 4 + 4 * i, 1, some [zeroWord o.freeBase (i + 1) (some r)], false, true⟩] } := by
  simp only [Dev.zeroGot, ho, ← hr]
  rfl

theorem zeroWord_formed {base i : Nat} {c : Int} {w : Word} (hl : lo w = (BitVec.ofInt 16 c).toNat) (hh : hi w = 0) :
    zeroWord base i (some (some c)) = w := by
  have hlt := (BitVec.ofInt 16 c).isLt
  refine (word_eq_of_halves ?_ ?_).symm
  · rw [hl, zeroWord, lo_loHi, Nat.mod_eq_of_lt hlt]
  · rw [hh, zeroWord, hi_loHi]

/-- The code of a sum of 64 samples is rounded half up where it is not negative (R42). -/
theorem zeroCodeOf_bounds {sum : Int} (h : 0 ≤ sum) :
    64 * zeroCodeOf sum ≤ sum + 32 ∧ sum + 32 < 64 * zeroCodeOf sum + 64 := by
  rw [zeroCodeOf, if_pos h]
  omega

/-- The rounding is the same on either side of 0 (R42). -/
theorem zeroCodeOf_neg (sum : Int) : zeroCodeOf (-sum) = -zeroCodeOf sum := by
  obtain h | rfl | h := lt_trichotomy sum 0
  · rw [zeroCodeOf, zeroCodeOf, if_pos (by omega), if_neg (by omega), neg_neg]
  · rfl
  · rw [zeroCodeOf, zeroCodeOf, if_neg (by omega), if_pos h.le, neg_neg]

/-! ## ZERO decides (R43) -/

theorem zeroOk_formed (c : Int) : zeroOk (some (some c)) = true ↔ -1000 ≤ c ∧ c ≤ 1000 := by simp [zeroOk]

theorem firstBad_none {zs : List (Option (Option Int))} (k : Nat) (h : ∀ z ∈ zs, zeroOk z = true) :
    firstBad k zs = none := by
  induction zs generalizing k with
  | nil => rfl
  | cons z zs ih =>
    rw [firstBad, if_pos (h z (by simp))]
    exact ih (k + 1) fun y hy => h y (by simp [hy])

/-- The first collection that failed, those before it being good. -/
theorem firstBad_some {zs : List (Option (Option Int))} {i : Nat} {z : Option (Option Int)} (k : Nat) (hz : zs[i]? = some z)
    (hbad : zeroOk z = false) (hgood : ∀ j, j < i → ∃ y, zs[j]? = some y ∧ zeroOk y = true) :
    firstBad k zs = some (k + i) := by
  induction zs generalizing i k with
  | nil => simp at hz
  | cons y ys ih =>
    cases i with
    | zero =>
      obtain rfl : y = z := by simpa using hz
      simp [firstBad, hbad]
    | succ i =>
      obtain ⟨x, hx, hok⟩ := hgood 0 (by omega)
      obtain rfl : y = x := by simpa using hx
      rw [firstBad, if_pos hok, ih (k + 1) (by simpa using hz) fun j hj => by simpa using hgood (j + 1) (by omega)]
      congr 1
      omega

theorem Dev.zeroEnd_fails {d : Dev} {i : Nat} (h : firstBad 0 d.prog.zres = some i) :
    d.zeroEnd = { d with
      mu := d.mu.cancel, prog := { d.prog with zfirst := some (zeroRange i) }
      tasks := .endOrder .failed .zeroRange :: d.tasks } := by
  simp only [Dev.zeroEnd, h]
  rfl

theorem Dev.zeroEnd_stores {d : Dev} {h m l l1 l2 l3 : Int}
    (hz : d.prog.zres = [some (some h), some (some m), some (some l), some (some l1), some (some l2), some (some l3)])
    (hb : firstBad 0 d.prog.zres = none) :
    d.zeroEnd = { d with
      mu := { d.mu.cancel with zero := ⟨h, m, l, l1, l2, l3⟩, zeroValid := true }
      prog := { d.prog with zfirst := some .none }
      tasks := .endOrder .done .done :: d.tasks } := by
  have hcodes : (⟨zeroCodeAt d.prog.zres 0, zeroCodeAt d.prog.zres 1, zeroCodeAt d.prog.zres 2, zeroCodeAt d.prog.zres 3,
      zeroCodeAt d.prog.zres 4, zeroCodeAt d.prog.zres 5⟩ : ZeroCodes) = ⟨h, m, l, l1, l2, l3⟩ := by rw [hz]; rfl
  simp only [Dev.zeroEnd, hb, hcodes]
  rfl

/-- Settles O45: the steps of a ZERO one by one, the rounding on each side of 0, and the decision by the first result that is
not good. -/
theorem zeroStoresSixCodesOrNone : Obligations.ZeroStoresSixCodesOrNone := by
  refine ⟨fun q d => ⟨fun hr hp => ?ready, fun h => Dev.zeroStart_parked h, fun hp hu => Dev.zeroStart_waits hp hu, rfl,
    fun h => Dev.zeroOff_discharged h, fun h => Dev.zeroOff_waits h, fun c h => Dev.zeroSafe_ends h,
    fun he hh => Dev.zeroSafe_halts he hh, fun he hh => Dev.zeroSafe_goes_on he hh, fun i o ho => ⟨fun hs w hl hh => ?code,
      fun hs => ?saturated⟩⟩, fun sum => ⟨zeroCodeOf_bounds, zeroCodeOf_neg sum⟩,
    fun q d h m l l1 l2 l3 hc hz => ?stores, fun q d i r hi hlen hbad hgood => ?fails⟩
  case ready => exact Dev.zeroStart_usable ((Matrix.usable_iff _).2 ⟨hr, hp⟩)
  case code =>
    rw [← zeroWord_formed (base := o.freeBase) (i := i + 1) hl hh]
    exact Dev.zeroGot_eq i ho _ (by rw [hs]; rfl)
  case saturated => exact ⟨_, by rw [zeroWord, hi_loHi], Dev.zeroGot_eq i ho none (by rw [hs]; rfl)⟩
  case stores =>
    have hb : firstBad 0 d.prog.zres = none := by
      refine firstBad_none 0 fun z hzm => ?_
      have hmap : d.prog.zres = [h, m, l, l1, l2, l3].map fun c => some (some c) := hz
      obtain ⟨c, hcm, rfl⟩ := List.mem_map.1 (hmap ▸ hzm)
      exact (zeroOk_formed c).2 (hc c hcm)
    have hend : runTask q .zeroEnd d = _ := Dev.zeroEnd_stores hz hb
    rw [hend]
    exact ⟨rfl, rfl, rfl, rfl⟩
  case fails =>
    obtain ⟨hr, -⟩ := zeroRange_of_getElem hi
    obtain ⟨z, hz, hzbad⟩ : ∃ z, d.prog.zres[i]? = some z ∧ zeroOk z = false := by
      obtain hn | ⟨c, hcz, hout⟩ := hbad
      · exact ⟨_, hn, rfl⟩
      · refine ⟨_, hcz, Bool.eq_false_iff.2 fun hok => ?_⟩
        have := (zeroOk_formed c).1 hok
        omega
    have hfirst := firstBad_some 0 hz hzbad fun k hk => by
      obtain ⟨c, hcz, hin⟩ := hgood k hk
      exact ⟨_, hcz, (zeroOk_formed c).2 hin⟩
    rw [Nat.zero_add] at hfirst
    have hend : runTask q .zeroEnd d = _ := Dev.zeroEnd_fails hfirst
    rw [hend, hr]
    exact ⟨rfl, rfl, rfl, rfl, rfl⟩

end Sys2Proof.Machine

namespace Sys2Proof.Machine

/-! ## The soft reset, block by block (R46, R119, R154, R172, R186) -/

theorem MeasUnit.cancelWindow_of_no_job {u : MeasUnit} (h : u.job = none) : u.cancelWindow = u := by
  simp only [MeasUnit.cancelWindow, h]

/-- The HV controller after a soft reset: a source that was on is dropped, its discharge timer started (R104, R119). -/
def Hv.softReset (timeout : Nat) (h : Hv) : Hv :=
  let h1 := if h.sourceOn then
      { h with
        state := .discharge, setpoint := 0, rampT := none, check := false, armed := false, dischT := some timeout, below := 0 }
    else h
  { h1 with pauseMark := false, armed := false, ask := .none }

theorem Hv.softReset_sourceOn {h : Hv} (timeout : Nat) (hs : h.sourceOn = true) :
    (h.softReset timeout).state = .discharge ∧ (h.softReset timeout).dischT = some timeout := by
  simp [Hv.softReset, hs]

theorem Hv.softReset_sourceOff {h : Hv} (timeout : Nat) (hs : h.sourceOn = false) :
    (h.softReset timeout).state = h.state ∧ (h.softReset timeout).dischT = h.dischT := by
  simp [Hv.softReset, hs]

theorem Hv.softReset_kept (timeout : Nat) (h : Hv) :
    (h.softReset timeout).lockout = h.lockout ∧ (h.softReset timeout).arcs = h.arcs ∧
    (h.softReset timeout).armed = false ∧ (h.softReset timeout).pauseMark = false ∧
    (h.softReset timeout).openRec = h.openRec := by
  cases hs : h.sourceOn <;> simp [Hv.softReset, hs]

/-- With no measurement in progress the soft reset at the controller is its own alone. -/
theorem Dev.hvSoftReset_eq {d : Dev} (hj : d.mu.job = none) :
    d.hvSoftReset = { d with hv := d.hv.softReset d.cfg.dischTimeout } := by
  cases hs : d.hv.sourceOn with
  | true =>
    simp only [Dev.hvSoftReset, Dev.dropSource, hs, if_true, Dev.enterDischarge, MeasUnit.cancelWindow_of_no_job hj,
      Hv.softReset, Dev.onHv]
  | false => simp [Dev.hvSoftReset, Dev.dropSource, hs, Hv.softReset, Dev.onHv]

theorem Tx.softReset_fill (t : Tx) : t.softReset.fill = 0 := by
  unfold Tx.softReset
  split <;> simp [Tx.fill]

/-- The line of a character in transmission stays, marked to leave at its end (R172, log 24). -/
theorem Tx.softReset_sending {t : Tx} (h : t.state = .sending) :
    t.softReset = { t with queue := t.queue.take 1, discard := (t.queue.take 1).length } := by
  rw [Tx.softReset, if_pos h]

theorem Tx.softReset_silent {t : Tx} (h : t.state ≠ .sending) :
    t.softReset = { t with queue := [], state := .idle, pos := 0, discard := 0 } := by
  rw [Tx.softReset, if_neg h]

/-- The table bound before, or being rebuilt, is to be rebuilt (R154). -/
theorem Manager.softReset_binding (m : Manager) :
    m.softReset.binding = if m.binding = .bound ∨ m.state = .rebuilding then .rebuild else .none := rfl

/-- With the map-valid flag clear the soft reset at the matrix changes the matrix alone. -/
theorem Dev.matrixSoftReset_matrix {d : Dev} (h : d.OffMatrix) (hm : d.nets.mapValid = false) :
    d.matrixSoftReset = { d with mx := d.matrixSoftReset.mx } := by
  have hstop : d.unparkStop.nets = d.nets := by
    rw [Dev.unparkStop_nets, hm, Bool.false_and, ← hm]
  have hnets : d.matrixSoftReset.nets = d.nets := by
    unfold Dev.matrixSoftReset
    split
    · rfl
    · cases d.mx.state with
      | parked => rfl
      | ready => exact (congrArg Dev.nets (Dev.tryPark_frame _)).trans rfl
      | setting => rfl
      | held =>
        dsimp only
        split
        · rfl
        · exact (congrArg Dev.nets (Dev.tryPark_frame _)).trans rfl
      | unparking =>
        dsimp only
        split
        · rfl
        · rfl
        · rfl
        · split
          · rfl
          · exact hstop
        · exact hstop
      | parking => rfl
  have hframe := Dev.matrixSoftReset_frame h
  rw [hnets] at hframe
  exact hframe

/-- The blocks after a soft reset whose thread is dropped, but for the matrix. -/
theorem Dev.softReset_dropped {d : Dev} (h1 : d.mgr.state ≠ .recording) (h2 : d.mgr.state ≠ .clearing)
    (hr : d.recordsNow = false) : ∃ m : Matrix, d.softReset = { d with
      reader := d.reader.softReset, mx := m, mu := d.mu.softReset, nets := .reset, search := .reset, sweep := .reset
      learn := .reset, hv := d.hv.softReset d.cfg.dischTimeout, ins := .reset, mgr := d.mgr.softReset, fmt := .reset
      tx := d.tx.softReset, attn := d.attn.softReset, prog := .reset, engineQ := orphanBursts d.engineQ, tasks := []
      wait := .run, rbuf := [], saved := [] } := by
  have hbefore : d.beforeMatrixReset = { d with
      reader := d.reader.softReset, mu := d.mu.softReset, nets := .reset, search := .reset, sweep := .reset
      learn := .reset, hv := d.hv.softReset d.cfg.dischTimeout, ins := .reset, mgr := d.mgr.softReset, fmt := .reset
      tx := d.tx.softReset, attn := d.attn.softReset, prog := .reset, engineQ := orphanBursts d.engineQ, tasks := []
      wait := .run, rbuf := [], saved := [] } := by
    rw [Dev.beforeMatrixReset, Dev.threadSoftReset_dropped h1 h2 hr, Dev.hvSoftReset_eq rfl]
    rfl
  have hmatrix := Dev.matrixSoftReset_matrix (d := d.beforeMatrixReset) (by rw [hbefore]; exact .inl rfl)
    (by rw [hbefore]; rfl)
  rw [← Dev.softReset_eq] at hmatrix
  exact ⟨d.softReset.mx, hmatrix.trans (by rw [hbefore])⟩

/-- Settles O21: with its thread dropped every block but the matrix is as its own soft reset leaves it, and a STOPPED reader
writes no status word. -/
theorem softResetValues : Obligations.SoftResetValues := by
  intro s hw hq h1 h2 hnorec
  have hr : s.dev.recordsNow = false := by
    rw [← Bool.not_eq_true, Dev.recordsNow_iff]
    rintro ⟨hu, hp, -, -⟩
    exact hnorec hu hp
  obtain ⟨m, hm⟩ := Dev.softReset_dropped h1 h2 hr
  have hrest : s.dev.softReset.Resting := .inr (by rw [hm])
  have hposts : s.dev.softReset.syncPosts = [] := Dev.syncPosts_stopped (by rw [hm]; rfl)
  have hqueue : s.dev.softReset.sync.engineQ = orphanBursts s.dev.engineQ := by
    rw [Dev.sync_engineQ, hposts, List.append_nil, hm]
  refine ⟨_, exec_softReset hw hq, ?_⟩
  rw [State.actSoftReset_dev, Dev.settle_resting _ hrest]
  refine ⟨rfl, hq, rfl, rfl, ?pins, ?cfg, ?tasks, fun h => ?noRun, fun pre c rest hs hpre hc => ?run, ?reader, ?mu, ?nets,
    ?engines, ?hv, ?mgr, ?fill, fun h => ?sending, fun h => ?silent⟩
  case noRun => rw [hqueue, orphanBursts_none h]
  case run => rw [hqueue, hs, orphanBursts_some hpre hc]
  case pins => rw [Dev.sync_pins, hm]
  case cfg => rw [Dev.sync_cfg, hm]
  case tasks => rw [Dev.sync_tasks, hm]
  case reader => simp [hm, Reader.softReset, Reader.reset]
  case mu => simp [hm, MeasUnit.softReset, MeasUnit.cancel]
  case nets => simp [hm, Nets.reset, Nets.pt, Nets.compAt, Nets.root, Tab.get, Pt.free]
  case engines => simp [hm, Search.reset, Sweep.reset, Insul.reset, Fmt.reset]
  case hv =>
    rw [Dev.sync_hv, hm]
    exact ⟨Hv.softReset_sourceOn _, Hv.softReset_sourceOff _, Hv.softReset_kept _ _⟩
  case mgr =>
    rw [Dev.sync_mgr, hm]
    refine ⟨rfl, rfl, rfl, fun h => ?_, fun hb hs => ?_⟩
    · rw [Manager.softReset_binding, if_pos h]
    · rw [Manager.softReset_binding, if_neg (not_or.2 ⟨hb, hs⟩)]
  case fill => rw [Dev.sync_tx, hm]; exact Tx.softReset_fill _
  case sending =>
    rw [Dev.sync_tx, hm]
    dsimp only
    rw [Tx.softReset_sending h]
    exact ⟨h, rfl, rfl, rfl⟩
  case silent =>
    rw [Dev.sync_tx, hm]
    dsimp only
    rw [Tx.softReset_silent h]
    exact ⟨rfl, rfl⟩

end Sys2Proof.Machine

namespace Sys2Proof.Machine


/-! ## Clamps and codes of parameters -/

theorem clampTo_eq {low high : Nat} (n : Nat) (h : low ≤ high) : clampTo low high n = max low (min high n) := by
  unfold clampTo
  split
  · omega
  · split <;> omega

theorem clamps_iff (low high n : Nat) : clamps low high n = true ↔ n < low ∨ high < n := by simp [clamps]

theorem countOk_iff (n : Nat) : countOk n = true ↔ n = 0 ∨ n = 1 ∨ n = 4 ∨ n = 16 ∨ n = 64 := by
  simp [countOk, or_assoc]

/-- The codes of the stimulus ranges and their ranges (R202). -/
theorem stimRange_isSome_iff (n : Nat) : (stimRange n).isSome = true ↔ n ≤ 3 := by
  match n with
  | 0 | 1 | 2 | 3 => simp [stimRange]
  | n + 4 => simp [stimRange]

theorem stimRange_getD {n : Nat} (h : n ≤ 3) :
    (stimRange n).getD .none = if n = 1 then .h else if n = 2 then .m else if n = 3 then .l else .none := by
  interval_cases n <;> rfl

theorem stimRange_code {n : Nat} (h : n ≤ 3) : ((stimRange n).getD .none).code = n := by
  interval_cases n <;> rfl

theorem Dev.setClamped_eq (c : Bool) (d : Dev) :
    d.setClamped c = { d with
      reader := { d.reader with order := d.reader.order.map fun o => { o with clamped := o.clamped || c } } } := rfl

theorem Dev.setClamped_setClamped (a b : Bool) (d : Dev) : (d.setClamped a).setClamped b = d.setClamped (a || b) := by
  simp only [Dev.setClamped_eq, Option.map_map]
  congr 3
  funext o
  simp [Bool.or_assoc]

/-! ## MEASURE (R44, R45) -/

theorem Dev.startMeasure_refused {o : Order} {d : Dev} {c : Code} (h : d.measureFault o = some c) :
    d.startMeasure o = d.push [.endOrder .refused c] := by
  simp only [Dev.startMeasure, h]

theorem Dev.startMeasure_passes {o : Order} {d : Dev} {r n : Nat} (hm : measureRange o = (r, n)) (hr : r ≤ 3)
    (h : d.measureFault o = none) :
    d.startMeasure o = { d with
      prog := { d.prog with
        ptA := lo (o.param 0), ptB := hi (o.param 0), ca := 0, cb := 0
        mrng := if r = 1 then .h else if r = 2 then .m else if r = 3 then .l else .none
        mn := if n = 0 then d.cfg.n else n }
      tasks := .measA :: d.tasks } := by
  rw [← stimRange_getD hr]
  simp only [Dev.startMeasure, h, hm]
  rfl

section
variable {o : Order} {d : Dev} {a b r n : Nat} (ha : a = lo (o.param 0)) (hb : b = hi (o.param 0))
  (hm : measureRange o = (r, n))
include ha hb hm

/-- The checks of a MEASURE, in their order (R44). -/
theorem Dev.measureFault_eq :
    d.measureFault o =
      if ¬(r ≤ 3 ∧ countOk n = true) then some .badParameter
      else if 4095 < a ∨ 4095 < b then some .pointUnfitted
      else if a = b then some .samePoint
      else if ¬d.mx.usable = true then some .matrixParked
      else if ¬(d.mx.present (a / 128) = true ∧ d.mx.present (b / 128) = true) then some .pointUnfitted
      else none := by
  have hcodes : ((stimRange r).isNone = true ∨ countOk n = false) ↔ ¬(r ≤ 3 ∧ countOk n = true) := by
    rw [← stimRange_isSome_iff, not_and_or, Bool.not_eq_true, Bool.not_eq_true, Option.isSome_eq_false_iff]
  have hfit : (d.mx.present (cardOf a) = false ∨ d.mx.present (cardOf b) = false) ↔
      ¬(d.mx.present (a / 128) = true ∧ d.mx.present (b / 128) = true) := by
    rw [not_and_or, Bool.not_eq_true, Bool.not_eq_true, cardOf, cardOf]
  simp only [Dev.measureFault, hm, ← ha, ← hb, hcodes, hfit, Bool.not_eq_true]

end

/-- MEASURE's two compensation values, from the words read and the points' places in them (R31). -/
theorem Dev.measGotB_eq {d : Dev} {w v : Word} (h : d.rbuf = [w, v]) :
    d.measGotB = { d with
      prog := { d.prog with ca := min (compOf w d.prog.ptA) 9999, cb := min (compOf v d.prog.ptB) 9999 }
      reader := { d.reader with order := d.reader.order.map fun o =>
        { o with clamped := o.clamped || decide (9999 < compOf w d.prog.ptA ∨ 9999 < compOf v d.prog.ptB) } }
      rbuf := [], tasks := .safe :: .measB :: d.tasks } := by
  have hw : d.word 0 = w ∧ d.word 1 = v := by rw [Dev.word, Dev.word, h]; exact ⟨rfl, rfl⟩
  obtain ⟨hw0, hw1⟩ := hw
  simp only [Dev.measGotB, hw0, hw1, Dev.setClamped_eq, Bool.decide_or]
  rfl

/-- The setup of a MEASURE: point b on B, point a on A (R45). -/
theorem get_measureSetup (a b x : Nat) :
    Tab.get .none (Tab.set .none (Tab.set .none [] a Bus.a) b .b) x = if x = b then .b else if x = a then .a else .none := by
  rw [Tab.get_set _ 0 _ _ _ (Tab.canonFrom_set _ _ _ _ rfl (Nat.zero_le _)), Tab.get_set _ 0 _ _ _ rfl]
  rfl

/-! ## SWEEP (R64 to R66) -/

section
variable {o : Order} {f : Word} {i j : Nat} (hf : f = o.param 1) (hi : i = 2 + opt (bitAt f 0) 3)
  (hj : j = i + opt (bitAt f 1) 1)
include hf hi hj

/-- Where the parts of a SWEEP's parameters lie (R205). -/
theorem sweepParams_eq :
    sweepParams o =
      { netlist := (o.param 0).toNat
        limits := if bitAt f 0 then some (o.param 2, o.param 3, o.param 4) else none
        range := if bitAt f 1 then some (o.param i) else none
        shorts := if bitAt f 2 then some (o.param j) else none } := by
  subst hf hi hj
  rfl

theorem rangePartOk_iff : rangePartOk (sweepParams o).range = true ↔
    (bitAt f 1 = true → b0 (o.param i) ≤ 3 ∧ (b1 (o.param i) = 0 ∨ b1 (o.param i) = 1 ∨ b1 (o.param i) = 4 ∨
      b1 (o.param i) = 16 ∨ b1 (o.param i) = 64)) := by
  rw [sweepParams_eq hf hi hj]
  cases hb : bitAt f 1 <;> simp [rangePartOk, stimRange_isSome_iff, countOk_iff]

theorem sweepLimitClamps_iff : sweepLimitClamps (sweepParams o) = true ↔
    bitAt f 0 = true ∧ ((o.param 2).toNat < 1 ∨ 2000000 < (o.param 2).toNat ∨ (o.param 3).toNat < 2 ∨
      2000000 < (o.param 3).toNat ∨ (o.param 4).toNat < 1 ∨ 2000000 < (o.param 4).toNat) := by
  rw [sweepParams_eq hf hi hj]
  cases hb : bitAt f 0 <;> simp [sweepLimitClamps, clamps_iff, Config.maxMilliohms, or_assoc]

theorem sweepShortsClamps_iff : sweepShortsClamps (sweepParams o) = true ↔
    bitAt f 2 = true ∧ ((o.param j).toNat < 1 ∨ 16 < (o.param j).toNat) := by
  rw [sweepParams_eq hf hi hj]
  cases hb : bitAt f 2 <;> simp [sweepShortsClamps, clamps_iff]

theorem sweepLimitsBad_iff (c : Settings) : (sweepContext (sweepParams o) c).limitsBad = false ↔
    (bitAt f 0 = true → max 1 (min 2000000 (o.param 2).toNat) < max 2 (min 2000000 (o.param 3).toNat)) := by
  rw [sweepParams_eq hf hi hj]
  cases hb : bitAt f 0
  · simp [Sweep.limitsBad, sweepContext]
  · have hbad : ∀ p q : Nat, decide (clampTo 2 2000000 q ≤ clampTo 1 2000000 p) = false ↔
        (true = true → max 1 (min 2000000 p) < max 2 (min 2000000 q)) := fun p q => by
      rw [clampTo_eq p (by decide), clampTo_eq q (by decide), decide_eq_false_iff_not, Nat.not_le]
      exact ⟨fun h _ => h, fun h => h rfl⟩
    exact hbad _ _

/-- The effective parameters of a SWEEP: each optional one as given and clamped, or its default (R64). -/
theorem sweepContext_values (c : Settings) (hcodes : rangePartOk (sweepParams o).range = true) :
    ∃ s, s = sweepContext (sweepParams o) c ∧
      s.pLim.getD s.cfgP = (if bitAt f 0 = true then max 1 (min 2000000 (o.param 2).toNat) else c.pLim) ∧
      s.oLim.getD s.cfgO = (if bitAt f 0 = true then max 2 (min 2000000 (o.param 3).toNat) else c.oLim) ∧
      s.t = (if bitAt f 0 = true then max 1 (min 2000000 (o.param 4).toNat) else c.tLim) ∧
      (s.rng.code = if bitAt f 1 = true then b0 (o.param i) else 0) ∧
      s.n = (if bitAt f 1 = true ∧ b1 (o.param i) ≠ 0 then b1 (o.param i) else c.n) ∧
      s.shorts = (if bitAt f 2 = true then max 1 (min 16 (o.param j).toNat) else 8) := by
  have hcode := (rangePartOk_iff hf hi hj).1 hcodes
  refine ⟨_, rfl, ?_, ?_, ?_, ?_, ?_, ?_⟩ <;> rw [sweepParams_eq hf hi hj] <;> dsimp only [sweepContext]
  · cases hb : bitAt f 0 <;> simp [clampTo_eq, Config.maxMilliohms]
  · cases hb : bitAt f 0 <;> simp [clampTo_eq, Config.maxMilliohms]
  · cases hb : bitAt f 0 <;> simp [clampTo_eq, Config.maxMilliohms]
  · cases hb : bitAt f 1
    · rfl
    · obtain ⟨hle, -⟩ := hcode hb
      simp [stimRange_code hle]
  · cases hb : bitAt f 1
    · rfl
    · by_cases hz : b1 (o.param i) = 0 <;> simp [hz]
  · cases hb : bitAt f 2 <;> simp [clampTo_eq]

end

/-- The answer of a SWEEP that its take refuses: no context is left (R65). -/
def Dev.sweepRefused (c : Code) (d : Dev) : Dev :=
  { d with sweep := .reset, tasks := .endOrder .refused c :: d.tasks }

theorem Dev.startSweep_badParameter {o : Order} {d : Dev} (hr : rangePartOk (sweepParams o).range = false) :
    d.startSweep o = d.sweepRefused .badParameter := by
  simp only [Dev.startSweep, hr, Bool.not_false, if_true]
  rfl

section
variable {o : Order} {d : Dev} (hr : rangePartOk (sweepParams o).range = true)
include hr

theorem Dev.startSweep_limitOrder (hl : (sweepContext (sweepParams o) d.cfg).limitsBad = true) :
    d.startSweep o = (d.setClamped (sweepLimitClamps (sweepParams o))).sweepRefused .limitOrder := by
  simp only [Dev.startSweep, hr, Bool.not_true, Bool.false_eq_true, if_false, hl, if_true]
  rfl

variable (hl : (sweepContext (sweepParams o) d.cfg).limitsBad = false)
include hl

theorem Dev.startSweep_matrixParked (hu : d.mx.usable = false) :
    d.startSweep o = (d.setClamped (sweepLimitClamps (sweepParams o) || sweepShortsClamps (sweepParams o))).sweepRefused
      .matrixParked := by
  rw [← Dev.setClamped_setClamped]
  simp only [Dev.startSweep, hr, Bool.not_true, Bool.false_eq_true, if_false, hl, hu, Bool.not_false, if_true]
  rfl

theorem Dev.startSweep_starts (hu : d.mx.usable = true) :
    d.startSweep o = { d.setClamped (sweepLimitClamps (sweepParams o) || sweepShortsClamps (sweepParams o)) with
      sweep := sweepContext (sweepParams o) d.cfg
      tasks := (if o.clearDefects then [.clear, .safe] else []) ++ .valBegin :: d.tasks } := by
  rw [← Dev.setClamped_setClamped]
  simp only [Dev.startSweep, hr, Bool.not_true, Bool.false_eq_true, if_false, hl, hu]
  simp only [Dev.push, List.append_assoc]
  rfl

end

/-! ## LEARN (R93, R94) -/

/-- The region that a LEARN may write its netlist to (R93). -/
theorem learnRegion_iff (out cap last : Nat) :
    ¬(out % 4 ≠ 0 ∨ cap = 0 ∨ last < out + 4 * cap) ↔ out % 4 = 0 ∧ cap ≠ 0 ∧ out + 4 * cap ≤ last := by
  omega

/-- The answer of a LEARN that its take refuses: no context is left (R93). -/
def Dev.learnRefused (c : Code) (d : Dev) : Dev :=
  { d with learn := .reset, sweep := .reset, tasks := .endOrder .refused c :: d.tasks }

section
variable {o : Order} {d : Dev} {out cap t : Nat} {f : Word} (hout : out = (o.param 0).toNat) (hcap : cap = (o.param 1).toNat)
  (hf : f = o.param 2) (ht : t = (o.param 3).toNat)
include hout hcap

theorem Dev.startLearn_badParameter (hr : ¬(out % 4 = 0 ∧ cap ≠ 0 ∧ out + 4 * cap ≤ d.memEnd)) :
    d.startLearn o = d.learnRefused .badParameter := by
  rw [← learnRegion_iff, not_not, hout, hcap] at hr
  simp only [Dev.startLearn, if_pos hr]
  rfl

variable (hr : out % 4 = 0 ∧ cap ≠ 0 ∧ out + 4 * cap ≤ d.memEnd)
include hf ht hr

theorem Dev.startLearn_matrixParked (hu : d.mx.usable = false) :
    d.startLearn o = (d.setClamped (bitAt f 0 && clamps 1 2000000 t)).learnRefused .matrixParked := by
  rw [← learnRegion_iff, hout, hcap] at hr
  simp only [Dev.startLearn, if_neg hr, hu, Bool.not_false, if_true, hf, ht]
  rfl

theorem Dev.startLearn_starts (hu : d.mx.usable = true) :
    d.startLearn o = { d.setClamped (bitAt f 0 && clamps 1 2000000 t) with
      learn := { Learn.reset with
        outOff := out, cap := cap, t := if bitAt f 0 = true then max 1 (min 2000000 t) else d.cfg.tLim, n := d.cfg.n
        keep := bitAt f 1, used := 1 }
      sweep := { Sweep.reset with state := .validate }
      nets := { d.nets.begin (maskOf d.mx.present) with count := 0 }
      tasks := .write out [0x00010000] :: .safe :: .learnFrom 0 :: d.tasks } := by
  rw [← learnRegion_iff, hout, hcap] at hr
  rw [← clampTo_eq t (by decide : 1 ≤ 2000000)]
  simp only [Dev.startLearn, if_neg hr, hu, Bool.not_true, Bool.false_eq_true, if_false, hf, ht, hout, hcap]
  rfl

end

/-- The fitted flags that validation and LEARN begin with are those of the card table (R49, R56). -/
theorem Nets.isFitted_begin (m : Matrix) (t : Nets) (k : Nat) {y : Nat} (hy : y < 4096) :
    ({ t.begin (maskOf m.present) with count := k } : Nets).isFitted y = m.present (y / 128) := by
  have hb := bitAt_maskOf m.present (c := y / 128) (by omega)
  simp [Nets.isFitted, Nets.begin, cardOf, hy, hb]

/-- Settles O30: each take by its checks in their order, the clamps by their bounds, the steps of a MEASURE one by one. -/
theorem takesOfMeasureSweepLearn : Obligations.TakesOfMeasureSweepLearn := by
  refine ⟨fun o d e a b r n codes fit ready he ha hb hm hcodes hready hfit => ?measure,
    fun q d b p1 p2 hbind h1 h2 => ?steps,
    fun o d e f i j p q t x codes order ready c1 c2 flag he hf hi hj hp hq ht hx hcodes hc1 horder hc2 hready => ?sweep,
    fun o d e out cap t f region ready flag he hout hcap hf ht hregion hready hflag => ?learn⟩
  case measure =>
    have hrange : measureRange o = (r, n) := by
      obtain ⟨h1, rfl, rfl⟩ | ⟨h1, rfl, rfl⟩ := hm <;> simp [measureRange, h1]
    have hfault := Dev.measureFault_eq (d := d) ha hb hrange
    rw [← countOk_iff] at hcodes
    rw [← Matrix.usable_iff] at hready
    obtain rfl := propext hcodes
    obtain rfl := propext hready
    obtain rfl := propext hfit
    have hstart : e = d.startMeasure o := he
    have hrefused : ∀ c, d.measureFault o = some c → e = { d with tasks := .endOrder .refused c :: d.tasks } :=
      fun c hc => hstart.trans (Dev.startMeasure_refused hc)
    have hin : a ≤ 4095 → b ≤ 4095 → ¬(4095 < a ∨ 4095 < b) := by omega
    refine ⟨fun h1 => hrefused _ ?_, fun h1 h2 => hrefused _ ?_, fun h1 h2 h3 h4 => hrefused _ ?_,
      fun h1 h2 h3 h4 h5 => hrefused _ ?_, fun h1 h2 h3 h4 h5 h6 => hrefused _ ?_, fun h1 h2 h3 h4 h5 h6 => ?_⟩
    · rw [hfault, if_pos h1]
    · rw [hfault, if_neg (not_not.2 h1), if_pos h2]
    · rw [hfault, if_neg (not_not.2 h1), if_neg (hin h2 h3), if_pos h4]
    · rw [hfault, if_neg (not_not.2 h1), if_neg (hin h2 h3), if_neg h4, if_pos h5]
    · rw [hfault, if_neg (not_not.2 h1), if_neg (hin h2 h3), if_neg h4, if_neg (not_not.2 h5), if_pos h6]
    · rw [if_neg (not_not.2 h1), if_neg (hin h2 h3), if_neg h4, if_neg (not_not.2 h5), if_neg (not_not.2 h6)] at hfault
      rw [hstart, Dev.startMeasure_passes hrange h1.1 hfault, ha, hb]
  case steps =>
    subst h1 h2
    refine ⟨fun hc => ?_, fun hc => ?_, fun w v x y hw hx hy => ?_, ⟨_, get_measureSetup _ _, fun hr => ?_, fun hr => ?_⟩,
      rfl, rfl⟩
    · show d.measA = _
      simp only [Dev.measA, hbind, if_pos hc]
      rfl
    · show d.measA = _
      simp only [Dev.measA, hbind, if_neg hc]
      rfl
    · subst hx hy
      exact Dev.measGotB_eq hw
    · show d.measB = _
      simp only [Dev.measB, hr, if_true, decide_true]
      rfl
    · show d.measB = _
      simp only [Dev.measB, if_neg hr, decide_eq_false hr]
      rfl
  case sweep =>
    have hstart : e = d.startSweep o := he
    subst hp hq ht hx
    have hok := rangePartOk_iff hf hi hj
    have hlim := sweepLimitClamps_iff hf hi hj
    have hsh := sweepShortsClamps_iff hf hi hj
    have hbad := sweepLimitsBad_iff hf hi hj d.cfg
    have husable := d.mx.usable_iff
    rw [← hcodes] at hok
    rw [← hc1] at hlim
    rw [← hc2] at hsh
    rw [← horder] at hbad
    rw [← hready] at husable
    by_cases h1 : codes
    · by_cases h2 : order
      · have hclamp : (flag = true ↔ c1 ∨ (order ∧ c2)) →
            (sweepLimitClamps (sweepParams o) || sweepShortsClamps (sweepParams o)) = flag := fun hflag => by
          rw [Bool.eq_iff_iff, Bool.or_eq_true, hlim, hsh, hflag]
          simp [h2]
        by_cases h3 : ready
        · rw [Dev.startSweep_starts (hok.2 h1) (hbad.2 h2) (husable.2 h3)] at hstart
          obtain ⟨s, hs, hvalues⟩ := sweepContext_values hf hi hj d.cfg (hok.2 h1)
          rw [hstart]
          refine ⟨rfl, rfl, rfl, rfl, rfl, fun h => absurd h1 h, fun _ h => absurd h2 h, fun _ _ h => absurd h3 h, fun h => ?_,
            fun _ hflag => ?_, fun _ _ _ => ⟨rfl, rfl, rfl, rfl, rfl, rfl, rfl, rfl, rfl, rfl, rfl, rfl, hs ▸ hvalues⟩⟩
          · simp [h1, h2, h3] at h
          · rw [hclamp hflag]; rfl
        · rw [Dev.startSweep_matrixParked (hok.2 h1) (hbad.2 h2) (by simpa [h3] using husable)] at hstart
          rw [hstart]
          refine ⟨rfl, rfl, rfl, rfl, rfl, fun h => absurd h1 h, fun _ h => absurd h2 h, fun _ _ _ => rfl, fun _ => rfl,
            fun _ hflag => ?_, fun _ _ h => absurd h h3⟩
          rw [hclamp hflag]; rfl
      · rw [Dev.startSweep_limitOrder (hok.2 h1) (by simpa [h2] using hbad)] at hstart
        rw [hstart]
        refine ⟨rfl, rfl, rfl, rfl, rfl, fun h => absurd h1 h, fun _ _ => rfl, fun _ h => absurd h h2, fun _ => rfl,
          fun _ hflag => ?_, fun _ h => absurd h h2⟩
        have hclamp : sweepLimitClamps (sweepParams o) = flag := by
          rw [Bool.eq_iff_iff, hlim, hflag]
          simp [h2]
        rw [hclamp]; rfl
    · rw [Dev.startSweep_badParameter (by simpa [h1] using hok)] at hstart
      rw [hstart]
      exact ⟨rfl, rfl, rfl, rfl, rfl, fun _ => ⟨rfl, rfl⟩, fun h => absurd h h1, fun h => absurd h h1, fun _ => rfl,
        fun h => absurd h h1, fun h => absurd h h1⟩
  case learn =>
    have hstart : e = d.startLearn o := he
    have husable := d.mx.usable_iff
    rw [← hready] at husable
    have hclamp : (bitAt f 0 && clamps 1 2000000 t) = flag := by
      rw [Bool.eq_iff_iff, Bool.and_eq_true, clamps_iff, hflag]
    by_cases h1 : region
    · by_cases h2 : ready
      · rw [Dev.startLearn_starts hout hcap hf ht (hregion.1 h1) (husable.2 h2), hclamp] at hstart
        rw [hstart]
        refine ⟨rfl, rfl, rfl, rfl, fun h => absurd h1 h, fun _ h => absurd h2 h, fun h => ?_, fun _ => rfl,
          fun _ _ => ⟨rfl, rfl, rfl, rfl, rfl, rfl, rfl, fun _ => rfl, fun y hy => Nets.isFitted_begin _ _ _ hy⟩⟩
        simp [h1, h2] at h
      · rw [Dev.startLearn_matrixParked hout hcap hf ht (hregion.1 h1) (by simpa [h2] using husable), hclamp] at hstart
        rw [hstart]
        exact ⟨rfl, rfl, rfl, rfl, fun h => absurd h1 h, fun _ _ => rfl, fun _ => ⟨rfl, rfl, rfl⟩, fun _ => rfl,
          fun _ h => absurd h h2⟩
    · rw [Dev.startLearn_badParameter hout hcap (fun h => h1 (hregion.2 h))] at hstart
      rw [hstart]
      exact ⟨rfl, rfl, rfl, rfl, fun _ => ⟨rfl, rfl⟩, fun h => absurd h h1, fun _ => ⟨rfl, rfl, rfl⟩, fun h => absurd h h1,
        fun h => absurd h h1⟩

end Sys2Proof.Machine

namespace Sys2Proof.Machine

/-! ## What the stages of SWEEP and LEARN share -/

theorem Nets.pt_setSt {t : Nets} (h : Tab.canonFrom Pt.free 0 t.points = true) (p : Nat) (st : MemberSt) (x : Nat) :
    (t.setSt p st).pt x = if x = p then { t.pt p with st := st } else t.pt x :=
  Nets.pt_setPt t p _ h x

/-- The candidates of a stage are fitted points in ascending order (R72, R75, R95). -/
theorem Nets.candidates_ascending (t : Nets) (f : Nat → Bool) : (t.fittedPoints.filter f).Pairwise (· < ·) :=
  t.fittedPoints_ascending.filter f

theorem Nets.mem_candidates (t : Nets) (f : Nat → Bool) (x : Nat) :
    x ∈ t.fittedPoints.filter f ↔ t.isFitted x = true ∧ f x = true := by
  rw [List.mem_filter, Nets.mem_fittedPoints]

/-- The first element of an ascending list that satisfies a test is the least that does. -/
theorem find_eq_least {l : List Nat} {f : Nat → Bool} {x : Nat} (hl : l.Pairwise (· < ·)) (hx : x ∈ l) (hf : f x = true)
    (hmin : ∀ y ∈ l, y < x → f y = false) : l.find? f = some x := by
  induction l with
  | nil => simp at hx
  | cons y l ih =>
    obtain ⟨hy, hl⟩ := List.pairwise_cons.1 hl
    obtain rfl | hx := List.mem_cons.1 hx
    · exact List.find?_cons_of_pos hf
    · rw [List.find?_cons_of_neg (by simp [hmin y List.mem_cons_self (hy x hx)])]
      exact ih hl hx fun z hz => hmin z (List.mem_cons_of_mem _ hz)

theorem Answer.val_open {a : Answer} (h : a.connected = false) : a.val = none := by simp [Answer.val, h]

theorem Answer.val_connected {a : Answer} (h : a.connected = true) : a.val = some ⟨a.r.getD 0, .none, .l⟩ := by
  simp [Answer.val, h]

/-- A probe counts for the order it belongs to (R72, R84, R95). -/
theorem Dev.countProbe_sweep {d : Dev} (h : d.kind = some .sweep) :
    d.countProbe = { d with sweep := { d.sweep with probes := d.sweep.probes + 1 } } := by
  rw [Dev.countProbe, if_neg (by rw [h]; decide)]
  rfl

theorem Dev.countProbe_learn {d : Dev} (h : d.kind = some .learn) :
    d.countProbe = { d with learn := { d.learn with probes := d.learn.probes + 1 } } := by
  rw [Dev.countProbe, if_pos h]
  rfl

/-- A finding of the sweep, handed over with the order's tag (R69). -/
theorem Dev.sweepFinding_eq (f : Finding) (d : Dev) :
    d.sweepFinding f = { d with
      sweep := { d.sweep with
        firstFinding := if d.sweep.firstFinding = 0 then d.sweep.cursor else d.sweep.firstFinding }
      tasks := .finding { f with tag := d.tag } :: d.tasks } := rfl

/-! ## MEMBER (R70, R71) -/

theorem Dev.curMembers_getD {d : Dev} {i p : Nat} (h : d.curMembers[i]? = some p) : d.curMembers.getD i 0 = p := by
  rw [List.getD_eq_getElem?_getD, h, Option.getD_some]

theorem Dev.member_checks {d : Dev} {i p : Nat} (h : d.curMembers[i]? = some p) :
    d.member i = { d with
      sweep := { d.sweep with member := i }
      tasks := .setup (targets [d.nets.ref d.sweep.cursor] [p] .a .b) ::
        .twoPoint (memberRange (d.nets.net d.sweep.cursor).rng d.sweep.rng) true d.sweep.n
          (d.nets.compAt (d.nets.ref d.sweep.cursor)) (d.nets.compAt p) ::
        .memberGot i :: .safe :: .member (i + 1) :: d.tasks } := by
  simp only [Dev.member, h]
  rfl

theorem Dev.member_ends {d : Dev} {i : Nat} (h : d.curMembers[i]? = none) :
    d.member i = { d with
      nets := d.nets.setSt (d.nets.ref d.sweep.cursor) (refState d.sweep.refMark d.curMembers.length)
      sweep := { d.sweep with state := .whereis, stage := 2, member := 1 }
      tasks := .whereis 1 :: d.tasks } := by
  simp only [Dev.member, h]
  rfl

/-- A check's limits are the net's own, else the order's, else the configured ones (R37). -/
theorem memberLimits_eq {t : Net} {s : Sweep} {l : Nat × Nat}
    (h : t.limits = some l ∨ (t.limits = none ∧ s.pLim = some l.1 ∧ s.oLim = some l.2) ∨
      (t.limits = none ∧ s.pLim = none ∧ s.oLim = none ∧ l = (s.cfgP, s.cfgO))) : memberLimits t s = l := by
  obtain h | ⟨h, hp, ho⟩ | ⟨h, hp, ho, rfl⟩ := h <;> simp [memberLimits, *]

section
variable {d : Dev} {i p : Nat} {l : Nat × Nat} (hp : d.curMembers[i]? = some p)
  (hl : memberLimits (d.nets.net d.sweep.cursor) d.sweep = l)
include hp hl

theorem Dev.memberGot_pass (h : classify l.1 l.2 d.mu.ans.r = .pass) :
    d.memberGot i = { d with nets := d.nets.setSt p .good, sweep := { d.sweep with refMark := true } } := by
  simp only [Dev.memberGot, hl, h, Dev.curMembers_getD hp]
  rfl

theorem Dev.memberGot_highRes (h : classify l.1 l.2 d.mu.ans.r = .highRes) :
    d.memberGot i = Dev.sweepFinding
      ⟨.hres, d.sweep.cursor, 0, some p, d.mu.ans.r, d.mu.ans.rng, false, false, false, 0, 0⟩
      { d with nets := d.nets.setSt p .good, sweep := { d.sweep with refMark := true } } := by
  simp only [Dev.memberGot, hl, h, Dev.curMembers_getD hp]
  rfl

theorem Dev.memberGot_open (h : classify l.1 l.2 d.mu.ans.r = .opn) :
    d.memberGot i = { d with
      nets := d.nets.setSt p .opn
      sweep := { d.sweep with openVal := Tab.set (none, .none) d.sweep.openVal p (d.mu.ans.r, d.mu.ans.rng) } } := by
  simp only [Dev.memberGot, hl, h, Dev.curMembers_getD hp]
  rfl

end

/-! ## WHEREIS (R72 to R74) -/

theorem Dev.whereis_ends {d : Dev} {i : Nat} (h : d.curMembers[i]? = none) :
    d.whereis i = { d with sweep := { d.sweep with state := .isolate, stage := 3 }, tasks := .isolate :: d.tasks } := by
  simp only [Dev.whereis, h]
  rfl

/-- The candidates of WHEREIS: the fitted points outside the net (R72). -/
def Nets.outside (n : Nat) (t : Nets) : List Nat := t.fittedPoints.filter fun x => decide ((t.pt x).net ≠ n)

/-- The blocks with WHEREIS's candidates loaded and its tally empty (R72). -/
def Dev.whereisBegun (i : Nat) (d : Dev) : Dev :=
  { d with
    search := d.search.load (d.nets.outside d.sweep.cursor)
    sweep := { d.sweep with member := i, tallyNets := 0, tallyFirst := 0, tallyVal := 0, tallyPoints := 0 } }

section
variable {d : Dev} {i p : Nat} (hp : d.curMembers[i]? = some p)
include hp

theorem Dev.whereis_passes (h : (d.nets.pt p).st ≠ .opn) :
    d.whereis i = { d with sweep := { d.sweep with member := i }, tasks := .whereis (i + 1) :: d.tasks } := by
  simp only [Dev.whereis, hp, if_pos h]
  rfl

theorem Dev.whereis_alone (h : (d.nets.pt p).st = .opn) (hc : d.nets.outside d.sweep.cursor = []) :
    d.whereis i = ((d.whereisBegun i).push [.safe, .whereis (i + 1)]).sweepFinding (d.openFinding p false 0) := by
  have hc' : (d.nets.fittedPoints.filter fun x => decide ((d.nets.pt x).net ≠ d.sweep.cursor)) = [] := hc
  simp only [Dev.whereis, hp, if_neg (not_not.2 h), Dev.whereisBegun, hc, hc']
  rfl

theorem Dev.whereis_probes (h : (d.nets.pt p).st = .opn) (hc : d.nets.outside d.sweep.cursor ≠ []) :
    d.whereis i = (d.whereisBegun i).push
      [.setup (targets [p] (d.nets.outside d.sweep.cursor) .a .b), .probe d.sweep.n d.sweep.t, .whereisGot i, .safe,
        .whereis (i + 1)] := by
  have hc' : (d.nets.fittedPoints.filter fun x => decide ((d.nets.pt x).net ≠ d.sweep.cursor)).isEmpty = false :=
    List.isEmpty_eq_false_iff.2 hc
  simp only [Dev.whereis, hp, if_neg (not_not.2 h), hc', Bool.false_eq_true, if_false]
  rfl

theorem Dev.whereisGot_open (h : d.mu.ans.connected = false) :
    d.whereisGot i = d.countProbe.sweepFinding (d.openFinding p false 0) := by
  simp only [Dev.whereisGot, Dev.curMembers_getD hp, Answer.val_open h]

theorem Dev.whereisGot_connected (h : d.mu.ans.connected = true) :
    d.whereisGot i = (d.countProbe.onSearch (Search.start .whereis [p] .net 0 ⟨d.mu.ans.r.getD 0, .none, .l⟩)).push
      [.safe, .searchStep, .whereisEnd i] := by
  simp only [Dev.whereisGot, Dev.curMembers_getD hp, Answer.val_connected h]

theorem Dev.whereisEnd_miswired (h : d.sweep.tallyNets = 1 ∧ d.sweep.tallyPoints = 0) :
    d.whereisEnd i = (d.onNets (Nets.setSt p .miswired)).sweepFinding
      ⟨.misw, d.sweep.cursor, 0, some p, some d.sweep.tallyVal, .l, false, false, false, d.sweep.tallyFirst, 0⟩ := by
  simp only [Dev.whereisEnd, Dev.curMembers_getD hp, if_pos h]

theorem Dev.whereisEnd_stray (h : ¬(d.sweep.tallyNets = 1 ∧ d.sweep.tallyPoints = 0)) :
    d.whereisEnd i = (d.onNets (Nets.setSt p .stray)).sweepFinding
      (d.openFinding p true (d.sweep.tallyNets + d.sweep.tallyPoints)) := by
  simp only [Dev.whereisEnd, Dev.curMembers_getD hp, if_neg h]

end

/-! ## ISOLATE and the end (R75 to R80) -/

/-- The GOOD members of the net in progress (R75). -/
def Dev.goodMembers (d : Dev) : List Nat := d.curMembers.filter fun p => decide ((d.nets.pt p).st = .good)

/-- The candidates of ISOLATE: the fitted points of higher nets and the free ones (R75). -/
def Nets.above (n : Nat) (t : Nets) : List Nat :=
  t.fittedPoints.filter fun x => decide (n < (t.pt x).net) || (decide ((t.pt x).net = 0) && decide ((t.pt x).att = 0))

theorem Nets.mem_above (t : Nets) (n x : Nat) : x ∈ t.above n ↔
    t.isFitted x = true ∧ (n < (t.pt x).net ∨ ((t.pt x).net = 0 ∧ (t.pt x).att = 0)) := by
  rw [Nets.above, Nets.mem_candidates, Bool.or_eq_true, Bool.and_eq_true, decide_eq_true_eq, decide_eq_true_eq,
    decide_eq_true_eq]

theorem Dev.isolate_skips {d : Dev} (h : d.goodMembers = [] ∨ d.nets.above d.sweep.cursor = []) :
    d.isolate = { d with tasks := .netDone :: d.tasks } := by
  have hc : (d.goodMembers.isEmpty || (d.nets.above d.sweep.cursor).isEmpty) = true := by simpa using h
  exact if_pos hc

theorem Dev.isolate_probes {d : Dev} (hg : d.goodMembers ≠ []) (ha : d.nets.above d.sweep.cursor ≠ []) :
    d.isolate = { d with
      search := d.search.load (d.nets.above d.sweep.cursor)
      tasks := .setup (targets d.goodMembers (d.nets.above d.sweep.cursor) .a .b) :: .probe d.sweep.n d.sweep.t ::
        .isolateGot :: .safe :: .netDone :: d.tasks } := by
  have hc : ¬(d.goodMembers.isEmpty || (d.nets.above d.sweep.cursor).isEmpty) = true := by simp [hg, ha]
  exact if_neg hc

theorem Dev.isolateGot_open {d : Dev} (h : d.mu.ans.connected = false) : d.isolateGot = d.countProbe := by
  simp only [Dev.isolateGot, Answer.val_open h]

theorem Dev.isolateGot_connected {d : Dev} (h : d.mu.ans.connected = true) :
    d.isolateGot = (d.countProbe.onSearch
      (Search.start .isolate d.goodMembers .net d.sweep.shorts ⟨d.mu.ans.r.getD 0, .none, .l⟩)).push
        [.safe, .searchStep] := by
  simp only [Dev.isolateGot, Answer.val_connected h]
  rfl

theorem Dev.netDone_eq (d : Dev) :
    d.netDone = { d with
      sweep := { d.sweep with tested := d.sweep.tested + 1 }
      tasks :=
        (if d.nets.count ≤ d.sweep.cursor then .sweepClose
        else if d.stopOnDefect = true ∧ d.sweep.firstFinding ≠ 0 then .endOrder .doneDefects .doneDefects
        else .netBegin (d.sweep.cursor + 1)) :: d.tasks } := by
  unfold Dev.netDone
  by_cases h1 : d.nets.count ≤ d.sweep.cursor
  · simp [h1, Dev.onSweep, Dev.push]
  · by_cases h2 : d.stopOnDefect = true ∧ d.sweep.firstFinding ≠ 0
    · simp [h1, h2, Dev.onSweep, Dev.push]
    · simp [h1, h2, Dev.onSweep, Dev.push]

/-! ## Locations (R73, R76, R96) -/

section
variable {d : Dev} (i : Nat) (v : PVal) (trunc last : Bool)

theorem Dev.location_whereis (h : d.search.user = .whereis) :
    d.location i v trunc last = (d.push [.located i last]).whereisLocation (d.search.pointAt i) v := by
  simp only [Dev.location, h]

theorem Dev.location_isolate (h : d.search.user = .isolate) :
    d.location i v trunc last = (d.push [.located i last]).isolateLocation (d.search.pointAt i) v trunc := by
  simp only [Dev.location, h]

theorem Dev.location_learn (h : d.search.user = .learn) :
    d.location i v trunc last = (d.push [.located i last]).learnLocation (d.search.pointAt i) := by
  simp only [Dev.location, h]

end

/-! ## LEARN (R95 to R99) -/

/-- The points a LEARN may take: fitted and of no net (R95). -/
def Nets.firstFree (p : Nat) (t : Nets) : Option Nat :=
  t.fittedPoints.find? fun x => decide (p ≤ x) && decide ((t.pt x).net = 0)

theorem Nets.firstFree_none {t : Nets} {p : Nat} (h : ∀ x, p ≤ x → t.isFitted x = true → (t.pt x).net ≠ 0) :
    t.firstFree p = none := by
  refine List.find?_eq_none.2 fun x hx => ?_
  simpa using fun hp => h x hp ((t.mem_fittedPoints x).1 hx)

theorem Nets.firstFree_some {t : Nets} {p x : Nat} (hp : p ≤ x) (hx : t.isFitted x = true) (hn : (t.pt x).net = 0)
    (h : ∀ y, p ≤ y → y < x → t.isFitted y = true → (t.pt y).net ≠ 0) : t.firstFree p = some x := by
  refine find_eq_least t.fittedPoints_ascending ((t.mem_fittedPoints x).2 hx) (by simp [hp, hn]) fun y hy hlt => ?_
  simpa using fun hpy => h y hpy hlt ((t.mem_fittedPoints y).1 hy)

/-- The candidates of LEARN: the free fitted points above the one taken (R95). -/
def Nets.freeAbove (x : Nat) (t : Nets) : List Nat :=
  t.fittedPoints.filter fun y => decide (x < y) && decide ((t.pt y).net = 0)

theorem Nets.mem_freeAbove (t : Nets) (x y : Nat) :
    y ∈ t.freeAbove x ↔ t.isFitted y = true ∧ x < y ∧ (t.pt y).net = 0 := by
  rw [Nets.freeAbove, Nets.mem_candidates, Bool.and_eq_true, decide_eq_true_eq, decide_eq_true_eq]

theorem Dev.learnFrom_closes {d : Dev} {p : Nat} (h : d.nets.firstFree p = none) :
    d.learnFrom p = { d with tasks := .learnClose :: d.tasks } := by
  have h' : (d.nets.fittedPoints.find? fun q => decide (p ≤ q) && decide ((d.nets.pt q).net = 0)) = none := h
  simp only [Dev.learnFrom, h']
  rfl

theorem Dev.learnFrom_takes {d : Dev} {p x : Nat} (h : d.nets.firstFree p = some x) :
    d.learnFrom p = { d with
      sweep := { d.sweep with state := .isolate, stage := 3 }
      learn := { d.learn with cursor := x, kept := [x], surplus := 0 }
      search := d.search.load (d.nets.freeAbove x)
      tasks :=
        (if d.nets.freeAbove x = [] then [.learnAlone x, .safe, .learnFrom (x + 1)]
        else
          [.setup (targets [x] (d.nets.freeAbove x) .a .b), .probe d.learn.n d.learn.t, .learnGot x, .safe,
            .learnFrom (x + 1)]) ++ d.tasks } := by
  have h' : (d.nets.fittedPoints.find? fun q => decide (p ≤ q) && decide ((d.nets.pt q).net = 0)) = some x := h
  have hc : (d.nets.fittedPoints.filter fun y => decide (x < y) && decide ((d.nets.pt y).net = 0)) = d.nets.freeAbove x := rfl
  simp only [Dev.learnFrom, h', hc]
  by_cases he : d.nets.freeAbove x = []
  · simp only [he, List.isEmpty_nil, if_true]
    rfl
  · simp only [if_neg he, List.isEmpty_eq_false_iff.2 he, Bool.false_eq_true, if_false]
    rfl

theorem Dev.learnGot_open {d : Dev} (p : Nat) (h : d.mu.ans.connected = false) :
    d.learnGot p = d.countProbe.push [.learnAlone p] := by
  simp only [Dev.learnGot, Answer.val_open h]

theorem Dev.learnGot_connected {d : Dev} (p : Nat) (h : d.mu.ans.connected = true) :
    d.learnGot p = (d.countProbe.onSearch (Search.start .learn [p] .point 0 ⟨d.mu.ans.r.getD 0, .none, .l⟩)).push
      [.safe, .searchStep, .learnFormed p] := by
  simp only [Dev.learnGot, Answer.val_connected h]

theorem Dev.learnFormed_eq (p : Nat) (d : Dev) :
    (1 < d.learn.kept.length → d.learnFormed p = { d with tasks := .learnNet false :: d.tasks }) ∧
    (d.learn.kept.length ≤ 1 → d.learnFormed p = { d with
      learn := { d.learn with unresolved := d.learn.unresolved + 1 }, tasks := .learnAlone p :: d.tasks }) :=
  ⟨fun h => if_pos h, fun h => if_neg (Nat.not_lt.2 h)⟩

theorem Dev.learnAlone_eq (p : Nat) (d : Dev) :
    (d.learn.keep = true → d.learnAlone p = { d with
      learn := { d.learn with kept := [p], surplus := 0 }, tasks := .learnNet true :: d.tasks }) ∧
    (d.learn.keep = false → d.learnAlone p = { d with
      learn := { d.learn with kept := [p], surplus := 0, singles := d.learn.singles + 1 } }) :=
  ⟨fun h => if_pos h, fun h => if_neg (by simp [h])⟩

/-- The header word of a learned netlist whose net count fits its half (R47, R99). -/
theorem learnHeaderWord_eq {nets : Nat} (words : Nat) (h : nets < 65536) :
    learnHeaderWord nets words = wordOf (nets + 65536 * (words % 65536)) := by
  rw [learnHeaderWord, loHi, Nat.mod_eq_of_lt h]
  rfl

/-- Settles O57, stage by stage: each step by the case of the answer or of the tables it acts on. -/
theorem sweepAndLearnActOnAnswers : Obligations.SweepAndLearnActOnAnswers := by
  intro q d n hn hcan
  refine ⟨fun m => rfl, fun i p0 e hp0 he => ?member, fun i p e l hp he hl => ?memberGot, fun i e he => ?whereis,
    fun i p e hp hk he => ?whereisGot, fun i p e hp he => ?whereisEnd, fun e good hg => ?isolate,
    fun i x m v trunc last e hx hm he => ?location, fun e he => ?netDone, fun e he => ?sweepClose, fun p e he => ?learnFrom,
    fun p e hk he => ?learnGot, fun p => ?learnFormed, fun single m hm hnet => ?learnLoad,
    fun single e k hlen he => ?learnNet⟩
  case member =>
    have hstep : e = d.member i := he
    have href : p0 = d.nets.ref d.sweep.cursor := hp0
    refine ⟨fun p r hp hr => ?checks, fun hp => ?ends⟩
    case checks =>
      have hrange : r = memberRange (d.nets.net d.sweep.cursor).rng d.sweep.rng := by rw [hr, ← hn]; rfl
      rw [hstep, Dev.member_checks hp, href, hrange]
    case ends =>
      rw [hstep, Dev.member_ends hp, ← href]
      refine ⟨rfl, rfl, fun h => ?_, fun hm hl => ?_, fun x hx => ?_⟩
      · exact (Nets.pt_setSt hcan _ _ _).trans (by rw [if_pos rfl, refState, if_pos h])
      · have hopen : ¬(d.sweep.refMark = true ∨ d.curMembers.length ≤ 1) := by simp [hm, hl]
        exact (Nets.pt_setSt hcan _ _ _).trans (by rw [if_pos rfl, refState, if_neg hopen])
      · exact (Nets.pt_setSt hcan _ _ _).trans (if_neg hx)
  case memberGot =>
    have hstep : e = d.memberGot i := he
    have hlim : memberLimits (d.nets.net d.sweep.cursor) d.sweep = l := memberLimits_eq (by rw [hn]; exact hl)
    have hpt : ∀ st, (d.nets.setSt p st).pt p = { d.nets.pt p with st := st } := fun st =>
      (Nets.pt_setSt hcan p st p).trans (if_pos rfl)
    refine ⟨fun h => ?_, fun h => ?_, fun h => ?_⟩
    · rw [hstep, Dev.memberGot_pass hp hlim h]
      exact ⟨hpt _, rfl, rfl⟩
    · rw [hstep, Dev.memberGot_highRes hp hlim h, Dev.sweepFinding_eq, hn]
      exact ⟨hpt _, rfl, rfl, rfl⟩
    · rw [hstep, Dev.memberGot_open hp hlim h]
      exact ⟨hpt _, rfl, rfl⟩
  case whereis =>
    have hstep : e = d.whereis i := he
    refine ⟨fun hp => hstep.trans (Dev.whereis_ends hp), fun p hp => ⟨fun h => hstep.trans (Dev.whereis_passes hp h),
      fun h => ⟨d.nets.outside d.sweep.cursor, Nets.candidates_ascending _ _, fun x => ?_, ?_⟩⟩⟩
    · rw [Nets.outside, Nets.mem_candidates, hn, decide_eq_true_eq]
    · by_cases hc : d.nets.outside d.sweep.cursor = []
      · rw [hstep, Dev.whereis_alone hp h hc, Dev.sweepFinding_eq]
        refine ⟨rfl, rfl, rfl, rfl, rfl, fun _ => ⟨?_, fun v hv => ?_⟩, fun hne => absurd hc hne⟩
        · rw [← hn]; rfl
        · rw [hv, ← hn]; rfl
      · rw [hstep, Dev.whereis_probes hp h hc]
        exact ⟨rfl, rfl, rfl, rfl, rfl, fun hnil => absurd hnil hc, fun _ => ⟨rfl, rfl⟩⟩
  case whereisGot =>
    have hstep : e = d.whereisGot i := he
    refine ⟨fun h => ?_, fun v h hv => ?_⟩
    · rw [hstep, Dev.whereisGot_open hp h, Dev.countProbe_sweep hk, Dev.sweepFinding_eq, ← hn]
      exact ⟨rfl, rfl, rfl, fun v hv => by rw [hv]; rfl⟩
    · rw [hstep, Dev.whereisGot_connected hp h, Dev.countProbe_sweep hk, hv]
      rfl
  case whereisEnd =>
    have hstep : e = d.whereisEnd i := he
    have hpt : ∀ st, (d.nets.setSt p st).pt p = { d.nets.pt p with st := st } := fun st =>
      (Nets.pt_setSt hcan p st p).trans (if_pos rfl)
    by_cases h : d.sweep.tallyNets = 1 ∧ d.sweep.tallyPoints = 0
    · rw [hstep, Dev.whereisEnd_miswired hp h, Dev.sweepFinding_eq, ← hn]
      exact ⟨rfl, fun _ => ⟨hpt _, rfl⟩, fun hne => absurd h hne⟩
    · rw [hstep, Dev.whereisEnd_stray hp h, Dev.sweepFinding_eq, ← hn]
      exact ⟨rfl, fun h' => absurd h' h, fun _ => ⟨hpt _, fun v hv => by rw [hv]; rfl⟩⟩
  case isolate =>
    have hgood : good = d.goodMembers := hg
    refine ⟨fun he => ⟨d.nets.above d.sweep.cursor, Nets.candidates_ascending _ _, fun x => ?_, fun h => ?_, fun h1 h2 => ?_⟩,
      fun hk he => ⟨fun h => ?_, fun v h hv => ?_⟩⟩
    · rw [Nets.mem_above, hn]
    · exact he.trans (Dev.isolate_skips (hgood ▸ h))
    · rw [hgood]
      exact he.trans (Dev.isolate_probes (hgood ▸ h1) h2)
    · exact he.trans ((Dev.isolateGot_open h).trans (Dev.countProbe_sweep hk))
    · have hstep : e = d.isolateGot := he
      rw [hstep, Dev.isolateGot_connected h, Dev.countProbe_sweep hk, hv, hgood]
      rfl
  case location =>
    have hstep : e = d.location i v trunc last := he
    have hpoint : d.search.pointAt i = x := hx.symm
    refine ⟨fun hu => ?whereis, fun hu => ?isolate, fun hu => ?learn⟩
    case whereis =>
      rw [hstep, Dev.location_whereis _ _ _ _ hu, hpoint, ← hn]
      refine ⟨rfl, rfl, fun h0 => ?_, fun h0 => ?_⟩
      · rw [hm] at h0
        exact if_pos h0
      · have hs : ((d.push [.located i last]).whereisLocation x v).sweep = _ := if_neg (hm ▸ h0)
        rw [hs]
        refine ⟨rfl, rfl, fun ht => ⟨?_, if_pos ht⟩, fun ht => ⟨if_neg ht, if_neg ht⟩⟩
        rw [hm]
        exact if_pos ht
    case isolate =>
      rw [hstep, Dev.location_isolate _ _ _ _ hu, hpoint, ← hn, Dev.isolateLocation, Dev.sweepFinding_eq]
      refine ⟨fun h0 => ?_, fun h0 => ?_, rfl, rfl⟩
      · rw [hm] at h0
        have hf : ∀ k, isolateFinding k (d.nets.pt x).net x v trunc = _ := fun k => if_pos h0
        simp only [Dev.push_nets, hf]
        rfl
      · have hf : ∀ k, isolateFinding k (d.nets.pt x).net x v trunc = _ := fun k => if_neg (hm ▸ h0)
        simp only [Dev.push_nets, hf, hm]
        rfl
    case learn =>
      rw [hstep, Dev.location_learn _ _ _ _ hu, hpoint]
      exact ⟨rfl, fun h => if_pos h, fun h => if_neg (Nat.not_lt.2 h)⟩
  case netDone =>
    have hstep : e = d.netDone := he
    rw [hstep, Dev.netDone_eq, hn]
    refine ⟨rfl, fun h => ?_, fun h h1 h2 => ?_, fun h h1 => ?_⟩
    · simp only [if_pos h]
    · simp only [if_neg (Nat.not_le.2 h), if_pos (And.intro h1 h2)]
    · have hgo : ¬(d.stopOnDefect = true ∧ d.sweep.firstFinding ≠ 0) := by
        obtain h1 | h1 := h1 <;> simp [h1]
      simp only [if_neg (Nat.not_le.2 h), if_neg hgo]
  case sweepClose =>
    have hstep : e = d.sweepClose := he
    rw [hstep]
    exact ⟨rfl, rfl, fun h => congrArg (· :: d.tasks) (if_pos h), fun h => congrArg (· :: d.tasks) (if_neg h)⟩
  case learnFrom =>
    have hstep : e = d.learnFrom p := he
    refine ⟨fun h => hstep.trans (Dev.learnFrom_closes (Nets.firstFree_none h)), fun x hpx hx h0 hmin => ?_⟩
    rw [hstep, Dev.learnFrom_takes (Nets.firstFree_some hpx hx h0 hmin)]
    refine ⟨rfl, rfl, rfl, d.nets.freeAbove x, Nets.candidates_ascending _ _, Nets.mem_freeAbove _ _, rfl, fun h => ?_,
      fun h => ?_⟩
    · rw [if_pos h]; rfl
    · rw [if_neg h]; rfl
  case learnGot =>
    have hstep : e = d.learnGot p := he
    refine ⟨fun h => ?_, fun v h hv => ?_⟩
    · rw [hstep, Dev.learnGot_open p h, Dev.countProbe_learn hk]
      rfl
    · rw [hstep, Dev.learnGot_connected p h, Dev.countProbe_learn hk, hv]
      rfl
  case learnFormed =>
    obtain ⟨hnet, hnone⟩ := Dev.learnFormed_eq p d
    obtain ⟨hkeep, hdrop⟩ := Dev.learnAlone_eq p d
    exact ⟨hnet, hnone, hkeep, hdrop⟩
  case learnLoad =>
    subst hm
    obtain ⟨hload, hkept, hother⟩ := Nets.loadNet_eq d.learn.kept d.nets hcan
    have hentry : ∀ k, (d.nets.loadNet d.learn.kept).net k = if k = d.nets.count + 1 then
        { Net.none with start := d.nets.members.length, count := d.learn.kept.length } else d.nets.net k := fun k => by
      rw [hload]
      exact Tab.get_set _ 0 _ _ _ hnet
    refine ⟨d.nets.loadNet d.learn.kept, rfl, ?_, (hentry _).trans (if_pos rfl), fun k hk => (hentry k).trans (if_neg hk),
      hkept, hother⟩
    have htable := congrArg Nets.table hload
    rw [htable]
    exact hload
  case learnNet =>
    have hstep : e = d.learnNet single := he
    subst hlen
    rw [hstep]
    refine ⟨fun h => ?_, fun h1 h2 => ?_, fun h1 h2 => ⟨?_, rfl, ?_⟩⟩
    · have hf : d.learnNet single = d.failOrder .netlistSize := if_pos h
      rw [hf]; rfl
    · have hf : d.learnNet single = d.failOrder .learnCapacity := (if_neg (Nat.not_le.2 h1)).trans (if_pos h2)
      rw [hf]; rfl
    · have hf : d.learnNet single = _ := (if_neg (Nat.not_le.2 h1)).trans (if_neg (Nat.not_lt.2 h2))
      rw [hf]; rfl
    · show Task.write _ [learnHeaderWord _ _] :: _ = _
      rw [learnHeaderWord_eq _ (by omega)]
      rfl

end Sys2Proof.Machine

namespace Sys2Proof.Machine

/-! # Net tables, the group map and the split search unit: what their operations do -/

/-! ## Tables read with another default, and tables with their values changed -/

/-- A canonical table read with another default differs only where it lists nothing. -/
theorem Tab.get_default {α : Type} [DecidableEq α] {d e : α} {t : Tab α} {low n : Nat} (h : Tab.canonFrom d low t = true) :
    Tab.get e t n = if Tab.get d t n = d then e else Tab.get d t n := by
  induction t generalizing low with
  | nil => simp [Tab.get]
  | cons x t ih =>
    obtain ⟨k, v⟩ := x
    simp only [Tab.canonFrom, Bool.and_eq_true, decide_eq_true_eq] at h
    obtain ⟨⟨-, hv⟩, ht⟩ := h
    by_cases hlt : n < k
    · simp [Tab.get, hlt]
    · by_cases heq : n = k
      · simp [Tab.get, heq, hv]
      · simpa only [Tab.get, hlt, heq, if_false] using ih ht

theorem Tab.get_map {α : Type} {d : α} {f : α → α} (hf : f d = d) (t : Tab α) (n : Nat) :
    Tab.get d (t.map fun e => (e.1, f e.2)) n = f (Tab.get d t n) := by
  induction t with
  | nil => exact hf.symm
  | cons x t ih =>
    obtain ⟨k, v⟩ := x
    simp only [List.map_cons, Tab.get, ih]
    split
    · exact hf.symm
    · split <;> rfl

/-- The values of a canonical table may change, as long as none becomes the default. -/
theorem Tab.canonFrom_map {α : Type} [DecidableEq α] {d : α} {f : α → α} (hf : ∀ v, v ≠ d → f v ≠ d) {t : Tab α} {low : Nat}
    (h : Tab.canonFrom d low t = true) : Tab.canonFrom d low (t.map fun e => (e.1, f e.2)) = true := by
  obtain ⟨hkeys, hvals⟩ := Tab.canonFrom_iff.1 h
  refine Tab.canonFrom_iff.2 ⟨List.pairwise_map.2 hkeys, List.forall_mem_map.2 fun e he => ?_⟩
  exact ⟨(hvals e he).1, hf _ (hvals e he).2⟩

/-! ## Union and attach (R58, R59) -/

/-- A root read from the map: an entry, or the net itself where none is listed. -/
theorem Nets.root_eq {t : Nets} (h : Tab.canonFrom 0 0 t.roots = true) (n : Nat) :
    t.root n = if Tab.get 0 t.roots n = 0 then n else Tab.get 0 t.roots n := Tab.get_default h

/-- A union writes the group map alone. -/
theorem Nets.union_eq (t : Nets) (n m : Nat) : t.union n m = { t with roots := (t.union n m).roots } := by
  unfold Nets.union
  dsimp only
  split <;> rfl

/-- What an entry of the map with root `s` becomes when `s` is united with the lower root `r` (R58). -/
def reroot (s r v : Nat) : Nat := if v = s then r else v

/-- The map after a union of two groups with different roots: the entries changed, and the higher root entered. -/
theorem Nets.union_roots {t : Nets} {n m r s : Nat} (hr : r = min (t.root n) (t.root m)) (hs : s = max (t.root n) (t.root m))
    (h : r ≠ s) : (t.union n m).roots = Tab.set 0 (t.roots.map fun e => (e.1, reroot s r e.2)) s r := by
  have hentry : (fun e : Nat × Nat => if e.2 = s then (e.1, r) else e) = fun e => (e.1, reroot s r e.2) := by
    funext e
    unfold reroot
    split <;> rfl
  subst hr hs
  simp only [Nets.union, if_neg h, hentry]

section
variable {t : Nets} {n m : Nat} (ht : t.MapOk) (hn : 1 ≤ n) (hm : 1 ≤ m)
include ht hn hm

/-- The two roots that a union takes each name themselves. -/
theorem Nets.MapOk.root_bounds {r s : Nat} (hr : r = min (t.root n) (t.root m)) (hs : s = max (t.root n) (t.root m)) :
    1 ≤ r ∧ r ≤ s ∧ t.root r = r ∧ t.root s = s := by
  obtain ⟨-, hroot⟩ := ht
  obtain ⟨hn1, -, hn2⟩ := hroot n hn
  obtain ⟨hm1, -, hm2⟩ := hroot m hm
  obtain hle | hle := Nat.le_total (t.root n) (t.root m)
  · rw [min_eq_left hle] at hr
    rw [max_eq_right hle] at hs
    subst hr hs
    exact ⟨hn1, hle, hn2, hm2⟩
  · rw [min_eq_right hle] at hr
    rw [max_eq_left hle] at hs
    subst hr hs
    exact ⟨hm1, hle, hm2, hn2⟩

theorem Nets.union_roots_canon : Tab.canonFrom 0 0 (t.union n m).roots = true := by
  obtain ⟨hr1, -, -, -⟩ := Nets.MapOk.root_bounds ht hn hm rfl rfl
  by_cases h : min (t.root n) (t.root m) = max (t.root n) (t.root m)
  · simpa only [Nets.union, if_pos h] using ht.1
  · rw [Nets.union_roots rfl rfl h]
    refine Tab.canonFrom_set _ _ _ _ (Tab.canonFrom_map (fun v hv => ?_) ht.1) (Nat.zero_le _)
    unfold reroot
    split <;> omega

/-- A union rewrites each entry with the higher root, that root's own included, and no other (R58). -/
theorem Nets.root_union (x : Nat) : (t.union n m).root x =
    if t.root x = max (t.root n) (t.root m) then min (t.root n) (t.root m) else t.root x := by
  obtain ⟨r, hr⟩ : ∃ r, r = min (t.root n) (t.root m) := ⟨_, rfl⟩
  obtain ⟨s, hs⟩ : ∃ s, s = max (t.root n) (t.root m) := ⟨_, rfl⟩
  obtain ⟨hr1, hrs, -, hss⟩ := Nets.MapOk.root_bounds ht hn hm hr hs
  rw [← hr, ← hs]
  by_cases h : r = s
  · have hsame : t.union n m = t := if_pos (hr ▸ hs ▸ h)
    rw [hsame, h]
    split
    · assumption
    · rfl
  · have hzero : reroot s r 0 = 0 := if_neg (by omega)
    rw [Nets.root_eq (Nets.union_roots_canon ht hn hm), Nets.union_roots hr hs h,
      Tab.get_set _ 0 _ _ _ (Tab.canonFrom_map (fun v hv => by unfold reroot; split <;> omega) ht.1), Tab.get_map hzero]
    by_cases hx : x = s
    · subst hx
      rw [if_pos rfl, if_neg (by omega), if_pos hss]
    · rw [if_neg hx, Nets.root_eq ht.1]
      unfold reroot
      split_ifs <;> omega

theorem Nets.MapOk.union : (t.union n m).MapOk := by
  refine ⟨Nets.union_roots_canon ht hn hm, fun x hx => ?_⟩
  obtain ⟨hr1, hrs, hrr, -⟩ := Nets.MapOk.root_bounds ht hn hm rfl rfl
  obtain ⟨hx1, hx2, hxx⟩ := ht.2 x hx
  rw [Nets.root_union ht hn hm, Nets.root_union ht hn hm]
  by_cases h : t.root x = max (t.root n) (t.root m)
  · rw [if_pos h]
    refine ⟨hr1, by omega, ?_⟩
    rw [hrr]
    split <;> rfl
  · rw [if_neg h, hxx, if_neg h]
    exact ⟨hx1, hx2, rfl⟩

end

theorem Nets.attach_first {t : Nets} {q : Nat} (n : Nat) (h : (t.pt q).att = 0) :
    t.attach q n = t.setPt q { t.pt q with att := n } := by
  simp only [Nets.attach, if_pos h]

theorem Nets.attach_within {t : Nets} {q n : Nat} (h : (t.pt q).att ≠ 0) (hr : t.root (t.pt q).att = t.root n) :
    t.attach q n = t := by
  simp only [Nets.attach, if_neg h, if_pos hr]

theorem Nets.attach_unites {t : Nets} {q n : Nat} (h : (t.pt q).att ≠ 0) (hr : t.root (t.pt q).att ≠ t.root n) :
    t.attach q n = t.union n (t.pt q).att := by
  simp only [Nets.attach, if_neg h, if_neg hr]

theorem Nets.pt_union (t : Nets) (n m p : Nat) : (t.union n m).pt p = t.pt p := by rw [Nets.union_eq]; rfl

/-- Settles O54: a union by what it makes of each root, an attach by the net that its point names. -/
theorem groupMapKeepsLowestRoots : Obligations.GroupMapKeepsLowestRoots := by
  refine ⟨⟨rfl, fun n hn => ⟨hn, Nat.le_refl n, rfl⟩⟩, fun t n m ht hn hm => ?union, fun t q n hcan => ?attach,
    fun t q n => rfl⟩
  case union => exact ⟨ht.union hn hm, fun x _ => Nets.root_union ht hn hm x, t.union_eq n m⟩
  case attach =>
    refine ⟨fun h => ?_, Nets.attach_within, fun h hr => ?_⟩
    · rw [Nets.attach_first n h]
      exact ⟨(t.pt_setPt q _ hcan q).trans (if_pos rfl), rfl⟩
    · rw [Nets.attach_unites h hr]
      exact ⟨rfl, congrArg Pt.att (t.pt_union n _ q)⟩

/-! ## Groups (R61, R122) -/

theorem Nets.mem_netNumbers (t : Nets) (n : Nat) : n ∈ t.netNumbers ↔ 1 ≤ n ∧ n ≤ t.count := by
  simp only [Nets.netNumbers, List.mem_map, List.mem_range]
  constructor
  · rintro ⟨k, hk, rfl⟩
    omega
  · intro h
    exact ⟨n - 1, by omega, by omega⟩

theorem Nets.netNumbers_ascending (t : Nets) : t.netNumbers.Pairwise (· < ·) :=
  List.pairwise_map.2 (List.pairwise_lt_range.imp Nat.succ_lt_succ)

theorem Nets.mem_groupNets (t : Nets) (r n : Nat) : n ∈ t.groupNets r ↔ 1 ≤ n ∧ n ≤ t.count ∧ t.root n = r := by
  rw [Nets.groupNets, List.mem_filter, Nets.mem_netNumbers, decide_eq_true_eq, and_assoc]

theorem Nets.mem_groupRoots (t : Nets) (g : Nat) : g ∈ t.groupRoots ↔ 1 ≤ g ∧ g ≤ t.count ∧ t.root g = g := by
  rw [Nets.groupRoots, List.mem_filter, Nets.mem_netNumbers, decide_eq_true_eq, and_assoc]

/-- The unassigned points attached to a net of the group of root r (R61). -/
def Nets.attachedPoints (r : Nat) (t : Nets) : List Nat :=
  (t.points.filter fun e => decide (e.2.net = 0) && decide (e.2.att ≠ 0) && decide (t.root e.2.att = r)).map (·.1)

theorem Nets.groupPoints_eq (t : Nets) (r : Nat) :
    t.groupPoints r = (t.groupNets r).flatMap t.membersOf ++ t.attachedPoints r := rfl

section
variable {t : Nets} (h : Tab.canonFrom Pt.free 0 t.points = true)
include h

theorem Nets.attachedPoints_ascending (r : Nat) : (t.attachedPoints r).Pairwise (· < ·) :=
  List.pairwise_map.2 ((Tab.canonFrom_iff.1 h).1.filter _)

/-- The attached points are those whose table entry says so: a point with no entry is attached to nothing. -/
theorem Nets.mem_attachedPoints (r p : Nat) :
    p ∈ t.attachedPoints r ↔ (t.pt p).net = 0 ∧ (t.pt p).att ≠ 0 ∧ t.root (t.pt p).att = r := by
  simp only [Nets.attachedPoints, List.mem_map, List.mem_filter, Bool.and_eq_true, decide_eq_true_eq, and_assoc]
  constructor
  · rintro ⟨⟨k, x⟩, hmem, hnet, hatt, hroot, rfl⟩
    have hget : t.pt k = x := Tab.get_of_mem h hmem
    rw [hget]
    exact ⟨hnet, hatt, hroot⟩
  · rintro ⟨hnet, hatt, hroot⟩
    have hlisted : t.pt p ≠ Pt.free := fun hfree => hatt (congrArg Pt.att hfree)
    exact ⟨(p, t.pt p), Tab.mem_of_get hlisted, hnet, hatt, hroot, rfl⟩

end

theorem Nets.skips_iff (t : Nets) (r : Nat) : t.skips r = true ↔ ∃ n ∈ t.groupNets r, (t.net n).noInsulate = true :=
  List.any_eq_true

/-- The smaller of a voltage and a net's override, if the net has one (R122). -/
def Nets.lowerVolts (t : Nets) (a n : Nat) : Nat := match (t.net n).hv with | some h => min a h | none => a

/-- The smallest of a voltage and the overrides of some nets is below each of them and is one of them. -/
theorem Nets.lowerVolts_foldl (t : Nets) (ns : List Nat) (v : Nat) :
    ns.foldl t.lowerVolts v ≤ v ∧ (∀ n ∈ ns, ∀ h, (t.net n).hv = some h → ns.foldl t.lowerVolts v ≤ h) ∧
      (ns.foldl t.lowerVolts v = v ∨ ∃ n ∈ ns, (t.net n).hv = some (ns.foldl t.lowerVolts v)) := by
  induction ns generalizing v with
  | nil => simp
  | cons n ns ih =>
    obtain ⟨hle, hall, hone⟩ := ih (t.lowerVolts v n)
    rw [List.foldl_cons]
    cases hv : (t.net n).hv with
    | none =>
      have hstep : t.lowerVolts v n = v := by simp [Nets.lowerVolts, hv]
      rw [hstep] at hle hall hone ⊢
      refine ⟨hle, List.forall_mem_cons.2 ⟨fun h hh => by simp [hv] at hh, hall⟩, hone.imp id ?_⟩
      rintro ⟨k, hk, hkv⟩
      exact ⟨k, List.mem_cons_of_mem _ hk, hkv⟩
    | some u =>
      have hstep : t.lowerVolts v n = min v u := by simp [Nets.lowerVolts, hv]
      rw [hstep] at hle hall hone ⊢
      refine ⟨hle.trans (min_le_left v u), List.forall_mem_cons.2 ⟨fun h hh => ?_, hall⟩, ?_⟩
      · obtain rfl : u = h := Option.some.inj (hv.symm.trans hh)
        exact hle.trans (min_le_right v u)
      · obtain hone | ⟨k, hk, hkv⟩ := hone
        · rw [hone]
          obtain hmin | hmin := min_choice v u
          · exact .inl hmin
          · exact .inr ⟨n, List.mem_cons_self, by rw [hmin, hv]⟩
        · exact .inr ⟨k, List.mem_cons_of_mem _ hk, hkv⟩

theorem Nets.mem_dSide (t : Nets) (c f : List Nat) (p : Nat) : p ∈ t.dSide c f ↔ t.isFitted p = true ∧ p ∉ c ∧ p ∉ f := by
  rw [Nets.dSide, Nets.mem_candidates]
  simp

/-- Settles O55, from what each list of the group listing holds and in which order. -/
theorem groupsAreListed : Obligations.GroupsAreListed := by
  intro t hcan
  refine ⟨t.mem_groupRoots, t.netNumbers_ascending.filter _, t.mem_groupNets, fun r => t.netNumbers_ascending.filter _,
    fun n => rfl, fun r => ⟨t.attachedPoints r, t.groupPoints_eq r, Nets.attachedPoints_ascending hcan r,
      Nets.mem_attachedPoints hcan r⟩,
    t.skips_iff, rfl, fun r v => t.lowerVolts_foldl (t.groupNets r) v, t.mem_dSide, fun c f => t.candidates_ascending _,
    fun q d hd => ?_⟩
  subst hd
  rfl

end Sys2Proof.Machine

namespace Sys2Proof.Machine

/-! ## A step of the split search (R84, R85) -/

theorem Dev.searchStep_ends {d : Dev} (h : d.search.stack = []) :
    d.searchStep = { d with search := { d.search with state := .idle } } := by
  unfold Dev.searchStep
  split
  next => rfl
  next e rest hs => simp [h] at hs

section
variable {d : Dev} {e : SEntry} {rest : List SEntry} (h : d.search.stack = e :: rest)
include h

theorem Dev.searchStep_splits (hc : 1 < e.count) :
    d.searchStep = { d with search := { d.search with stack := rest, cur := some e }, tasks := .lowHalf :: d.tasks } := by
  simp only [Dev.searchStep, h, if_pos hc]
  rfl

theorem Dev.searchStep_discards (hc : e.count ≤ 1) (hm : d.search.maskedAt e.first = true) :
    d.searchStep = { d with search := { d.search with stack := rest }, tasks := .searchStep :: d.tasks } := by
  simp only [Dev.searchStep, h, if_neg (Nat.not_lt.2 hc), if_pos hm]
  rfl

/-- An unmasked single is a location: the last one by the limit ends the search, truncated if entries remain. -/
theorem Dev.searchStep_locates {last : Bool} (hc : e.count ≤ 1) (hm : d.search.maskedAt e.first = false)
    (hl : last = true ↔ d.search.limit ≠ 0 ∧ d.search.limit ≤ d.search.locCount + 1) :
    d.searchStep = { d with
      search := { d.search with stack := rest, locCount := d.search.locCount + 1 }
      tasks := .location e.first e.val (last && decide (rest ≠ [])) last :: d.tasks } := by
  have hlast : (decide (d.search.limit ≠ 0) && decide (d.search.limit ≤ d.search.locCount + 1)) = last := by
    rw [Bool.eq_iff_iff, Bool.and_eq_true, decide_eq_true_eq, decide_eq_true_eq, hl]
  have hrest : (!rest.isEmpty) = decide (rest ≠ []) := by cases rest <;> rfl
  simp only [Dev.searchStep, h, if_neg (Nat.not_lt.2 hc), hm, Bool.false_eq_true, if_false, hlast, hrest]
  rfl

end

/-! ## The halves of a range (R84) -/

theorem Dev.judgeHalf_masked {d : Dev} {pts : List Nat} (next : Task) (h : pts = []) :
    d.judgeHalf pts next = { d with search := { d.search with ans := none }, tasks := next :: d.tasks } := by
  subst h
  rfl

theorem Dev.judgeHalf_probes {d : Dev} {pts : List Nat} (next : Task) (h : pts ≠ []) :
    d.judgeHalf pts next = { d with tasks := d.halfProbe pts ++ next :: d.tasks } := by
  rw [Dev.judgeHalf, if_neg (by simpa using h)]
  simp [Dev.push]

theorem Dev.halfProbe_sweep {d : Dev} (pts : List Nat) (h : d.search.user = .whereis ∨ d.search.user = .isolate) :
    d.halfProbe pts = [.setup (targets d.search.side pts .a .b), .probe d.sweep.n d.sweep.t, .probeGot] := by
  obtain h | h := h <;> simp only [Dev.halfProbe, h]

theorem Dev.halfProbe_learn {d : Dev} (pts : List Nat) (h : d.search.user = .learn) :
    d.halfProbe pts = [.setup (targets d.search.side pts .a .b), .probe d.learn.n d.learn.t, .probeGot] := by
  simp only [Dev.halfProbe, h]

theorem Dev.lowHalf_eq {d : Dev} {e : SEntry} (h : d.search.cur = some e) :
    d.lowHalf = d.judgeHalf (d.search.unmasked e.first ((e.count + 1) / 2)) .lowGot := by
  simp only [Dev.lowHalf, h]
  rfl

theorem Dev.highHalf_eq {d : Dev} {e : SEntry} (h : d.search.cur = some e) :
    d.highHalf = d.judgeHalf (d.search.unmasked (e.first + (e.count + 1) / 2) (e.count - (e.count + 1) / 2)) .highGot := by
  simp only [Dev.highHalf, h]
  rfl

theorem Dev.probeGot_sweep {d : Dev} (h : d.kind = some .sweep) :
    d.probeGot = { d with
      sweep := { d.sweep with probes := d.sweep.probes + 1 }, search := { d.search with ans := d.mu.ans.val } } := by
  rw [Dev.probeGot, Dev.countProbe_sweep h]
  rfl

theorem Dev.probeGot_learn {d : Dev} (h : d.kind = some .learn) :
    d.probeGot = { d with
      learn := { d.learn with probes := d.learn.probes + 1 }, search := { d.search with ans := d.mu.ans.val } } := by
  rw [Dev.probeGot, Dev.countProbe_learn h]
  rfl

theorem Dev.searchNext_ends {d : Dev} (h : d.search.stack = []) :
    d.searchNext = { d with search := { d.search with stack := [], state := .idle } } := by
  rw [← h]
  exact if_pos (by simp [h])

theorem Dev.searchNext_goes {d : Dev} (h : d.search.stack ≠ []) :
    d.searchNext = { d with tasks := .safe :: .searchStep :: d.tasks } :=
  if_neg (by simpa using h)

theorem halfEntry_eq (first count : Nat) (v : Option PVal) :
    halfEntry first count v = match v with | some v => [⟨first, count, v⟩] | none => [] := by
  cases v <;> rfl

/-- Both halves are judged: the stack, the upper half below the lower one. -/
theorem Search.pushHalves_eq {s : Search} {e : SEntry} (h : s.cur = some e) :
    s.pushHalves = { s with
      stack := halfEntry e.first ((e.count + 1) / 2) s.low ++
        halfEntry (e.first + (e.count + 1) / 2) (e.count - (e.count + 1) / 2) s.ans ++ s.stack
      cur := none
      low := none } := by
  simp only [Search.pushHalves, h]
  rfl

/-! ## Locations and mask marks (R83, R85) -/

theorem Dev.located_last {d : Dev} (i : Nat) :
    d.located i true = { d with
      search := { d.search with buf := (d.search.maskAt d.nets i).buf, stack := [], state := .idle } } := rfl

theorem Dev.located_empty {d : Dev} (i : Nat) (h : d.search.stack = []) :
    d.located i false = { d with
      search := { d.search with buf := (d.search.maskAt d.nets i).buf, stack := [], state := .idle } } :=
  Dev.searchNext_ends (d := d.onSearch (Search.maskAt d.nets i)) h

theorem Dev.located_goes {d : Dev} (i : Nat) (h : d.search.stack ≠ []) :
    d.located i false = { d with
      search := { d.search with buf := (d.search.maskAt d.nets i).buf }, tasks := .safe :: .searchStep :: d.tasks } :=
  Dev.searchNext_goes (d := d.onSearch (Search.maskAt d.nets i)) h

theorem masks_point (t : Nets) (p x : Nat) : masks .point t p x = decide (x = p) := by
  by_cases h : x = p <;> simp [masks, h]

theorem masks_net (t : Nets) (p x : Nat) :
    masks .net t p x = true ↔ x = p ∨ ((t.pt p).net ≠ 0 ∧ (t.pt x).net = (t.pt p).net) := by
  by_cases h : x = p <;> simp [masks, h]

theorem masks_group (t : Nets) (p x : Nat) :
    masks .group t p x = true ↔
      x = p ∨ ((t.pt p).net ≠ 0 ∧ t.groupNet x ≠ 0 ∧ t.root (t.groupNet x) = t.root (t.pt p).net) := by
  by_cases h : x = p <;> simp [masks, h, and_assoc]

/-- What holds of the net that places a point in a group: of its own net, or of the net it is attached to (R61). -/
theorem Nets.groupNet_iff (t : Nets) (x : Nat) (good : Nat → Prop) :
    (t.groupNet x ≠ 0 ∧ good (t.groupNet x)) ↔
      ((t.pt x).net ≠ 0 ∧ good (t.pt x).net) ∨ ((t.pt x).net = 0 ∧ (t.pt x).att ≠ 0 ∧ good (t.pt x).att) := by
  by_cases h : (t.pt x).net = 0 <;> simp [Nets.groupNet, h]

/-- Settles O56: each step of the search by the entry, the half or the location it acts on. -/
theorem searchSplitsAndLocates : Obligations.SearchSplitsAndLocates := by
  intro q d
  refine ⟨fun e rest hs => ?step, fun hs => ?empty, fun e t first count half x hcur ht hhalf => ?half, rfl, fun s hs => ?probe,
    fun e hcur => ?highGot, fun i last e buf he hbuf => ?located, fun t p x => ⟨masks_point t p x, masks_net t p x, ?_⟩⟩
  case step =>
    refine ⟨fun hc => ?_, fun hc hm => ?_, fun hc hm last hl => ?_⟩
    · show d.searchStep.tasks = _ ∧ d.searchStep.search = _
      rw [Dev.searchStep_splits hs hc]
      exact ⟨rfl, rfl⟩
    · show d.searchStep.tasks = _ ∧ d.searchStep.search = _
      rw [Dev.searchStep_discards hs hc hm]
      exact ⟨rfl, rfl⟩
    · show d.searchStep.search = _ ∧ d.searchStep.tasks = _
      rw [Dev.searchStep_locates hs hc hm hl]
      exact ⟨rfl, rfl⟩
  case empty => exact Dev.searchStep_ends hs
  case half =>
    have hjudge : t = d.judgeHalf half x := by
      obtain ⟨rfl, rfl, rfl, rfl⟩ | ⟨rfl, rfl, rfl, rfl⟩ := ht
      · exact hhalf ▸ Dev.lowHalf_eq hcur
      · exact hhalf ▸ Dev.highHalf_eq hcur
    refine ⟨fun h => hjudge.trans (Dev.judgeHalf_masked x h), fun h hu => ?_, fun h hu => ?_⟩
    · rw [hjudge, Dev.judgeHalf_probes x h, Dev.halfProbe_sweep half hu]
      rfl
    · rw [hjudge, Dev.judgeHalf_probes x h, Dev.halfProbe_learn half hu]
      rfl
  case probe =>
    subst hs
    exact ⟨Dev.probeGot_sweep, Dev.probeGot_learn⟩
  case highGot =>
    have hpush := Search.pushHalves_eq hcur
    rw [halfEntry_eq, halfEntry_eq] at hpush
    have hstep : runTask q .highGot d = d.highGot := rfl
    have hrest : d.search.pushHalves.cur = none ∧ d.search.pushHalves.buf = d.search.buf ∧
        d.search.pushHalves.state = d.search.state := by
      rw [hpush]
      exact ⟨rfl, rfl, rfl⟩
    obtain ⟨hcleared, hbuf, hstate⟩ := hrest
    rw [hstep]
    refine ⟨_, rfl, ?_⟩
    by_cases hstack : d.search.pushHalves.stack = []
    · have hnext : d.highGot = _ := Dev.searchNext_ends (d := d.onSearch Search.pushHalves) hstack
      rw [hnext]
      refine ⟨hcleared, hbuf, ?_, fun _ => ⟨rfl, rfl⟩, fun hne => absurd rfl hne⟩
      exact hstack.symm.trans (congrArg Search.stack hpush)
    · have hnext : d.highGot = _ := Dev.searchNext_goes (d := d.onSearch Search.pushHalves) hstack
      rw [hnext]
      exact ⟨hcleared, hbuf, congrArg Search.stack hpush, fun hnil => absurd hnil hstack, fun _ => ⟨hstate, rfl⟩⟩
  case located =>
    have hstep : e = d.located i last := he
    have hmask : (d.search.maskAt d.nets i).buf = buf := hbuf.symm
    cases last with
    | true =>
      rw [hstep, Dev.located_last, hmask]
      exact ⟨fun _ => ⟨rfl, rfl⟩, fun h => absurd h (by decide)⟩
    | false =>
      refine ⟨fun h => ?_, fun _ h => ?_⟩
      · have hnil : d.search.stack = [] := h.resolve_left (by decide)
        rw [hstep, Dev.located_empty i hnil, hmask]
        exact ⟨rfl, rfl⟩
      · rw [hstep, Dev.located_goes i h, hmask]
  rw [masks_group, Nets.groupNet_iff t x fun k => t.root k = t.root (t.pt p).net]

end Sys2Proof.Machine

namespace Sys2Proof.Machine

/-! # The end and the pause of an order -/

/-! ## Result sections (R205) -/

/-- A result section shows the progress fields, the GOOD members, and the sweep, learn, insulation and format contexts but for
the owner's state; a machine that has these in common with another writes the same one. -/
theorem Dev.resultTail_congr {d e : Dev} {sw : SwState} {si : InsState} {sf : FmtState} (hprog : e.prog = d.prog)
    (hpoints : e.nets.points = d.nets.points) (hsweep : e.sweep = { d.sweep with state := sw }) (hlearn : e.learn = d.learn)
    (hins : e.ins = { d.ins with state := si }) (hfmt : e.fmt = { d.fmt with state := sf }) (k : Kind) (base : Nat) :
    e.resultTail k base = d.resultTail k base := by
  have hgood : e.nets.goodCount = d.nets.goodCount := by rw [Nets.goodCount, hpoints, Nets.goodCount]
  cases k with
  | configure | mark | park | unpark | zero | measure => simp only [Dev.resultTail, hprog]
  | sweep => simp only [Dev.resultTail, hgood, hsweep]
  | learn => simp only [Dev.resultTail, hlearn, hsweep]
  | insulate => simp only [Dev.resultTail, hins]
  | print => simp only [Dev.resultTail, hfmt]

/-! ## The end (R181) -/

/-- The order that its owner ends or pauses: with the status, and the free values of the section now written. -/
def Order.ended (st : OStatus) (free : Nat) (o : Order) : Order :=
  { o with status := st, freeBase := if o.status = .paused then o.freeBase else free }

theorem Dev.setStatus_eq {d : Dev} {o : Order} (h : d.reader.order = some o) (st : OStatus) :
    d.setStatus st = { d with reader := { d.reader with order := some (o.ended st d.free) }, free := d.free + 1 } := by
  rw [Dev.setStatus, Dev.onOrder, h, Option.map_some]
  rfl

/-- What an ending order's release leaves alone. -/
theorem Dev.releaseOwner_frame (st : OStatus) (d : Dev) :
    (d.releaseOwner st).reader = d.reader ∧ (d.releaseOwner st).sweep = d.sweep ∧ (d.releaseOwner st).learn = d.learn ∧
    (d.releaseOwner st).ins = d.ins ∧ (d.releaseOwner st).fmt = d.fmt ∧ (d.releaseOwner st).prog = d.prog := by
  unfold Dev.releaseOwner
  dsimp only
  split <;> split <;> simp

theorem Dev.releaseOwner_search (st : OStatus) (d : Dev) :
    (d.releaseOwner st).search = if st = .failed then d.search.clear else d.search := by
  unfold Dev.releaseOwner
  dsimp only
  split <;> split <;> simp

theorem Dev.releaseOwner_nets (st : OStatus) (d : Dev) :
    (d.releaseOwner st).nets =
      if d.kind = some .sweep ∧ st = .failed then { d.nets with mapValid := false } else d.nets := by
  have hkind : (d.onSearch Search.clear).kind = d.kind := rfl
  unfold Dev.releaseOwner
  dsimp only
  by_cases hf : st = .failed <;> by_cases hk : d.kind = some .sweep <;> split <;>
    simp [hf, hk, hkind, Dev.mapUnfinished_nets]

theorem Dev.releaseOwner_points (st : OStatus) (d : Dev) : (d.releaseOwner st).nets.points = d.nets.points := by
  rw [Dev.releaseOwner_nets]
  split <;> rfl

/-- The steps that write a section with its completion code, then the status. -/
theorem Dev.statusTasks_eq {d e : Dev} {o : Order} (htail : ∀ k base, e.resultTail k base = d.resultTail k base)
    (code : Nat) (between : List Task) :
    e.statusTasks o code between =
      .write o.resultOff (completionWord code o.unzeroed o.clamped ::
        (match o.kind with | some k => d.resultTail k o.freeBase | none => [])) ::
      between ++ [.write o.off [o.header o.status false]] := by
  unfold Dev.statusTasks Dev.resultWords
  cases o.kind with
  | none => rfl
  | some k => simp only [htail]

theorem Dev.endOrder_eq {d : Dev} {o : Order} (h : d.reader.order = some o) (st : OStatus) (c : Code) :
    d.endOrder st c = ((d.setStatus st).releaseOwner st).goto
      (((d.setStatus st).releaseOwner st).statusTasks (o.ended st d.free) c.toNat [.ownerIdle] ++ [.finish]) := by
  have horder : ((d.setStatus st).releaseOwner st).reader.order = some (o.ended st d.free) := by
    rw [(Dev.releaseOwner_frame st _).1, Dev.setStatus_eq h]
  simp only [Dev.endOrder, horder]

/-! ## The final order and the halt (R181) -/

theorem Dev.hasSrc_raise (d : Dev) (s x : BitVec 3) :
    hasSrc (d.raise s).attn.req x = (hasSrc d.attn.req x || decide (x = s)) := by
  rw [Dev.raise_attn, hasSrc_or, hasSrc_bit]

/-- A halt raises CHAIN and takes back no request. -/
theorem Dev.hasSrc_haltAt (d : Dev) (r : Resume) (x : BitVec 3) :
    hasSrc (d.haltAt r).attn.req x = (hasSrc d.attn.req x || decide (x = 2)) := Dev.hasSrc_raise _ _ _

/-- A final order is the last one, and with NOTIFY it raises ORDER. -/
def Dev.closed (o : Order) (d : Dev) : Dev :=
  let d1 := d.onReader fun r => { r with lastOff := o.off }
  if o.notify then d1.raise srcOrder else d1

theorem Dev.closed_reader (o : Order) (d : Dev) : (d.closed o).reader = { d.reader with lastOff := o.off } := by
  unfold Dev.closed
  dsimp only
  split <;> rfl

theorem Dev.closed_tasks (o : Order) (d : Dev) : (d.closed o).tasks = d.tasks := by
  unfold Dev.closed
  dsimp only
  split <;> rfl

theorem Dev.closed_notifies {o : Order} (d : Dev) (h : o.notify = true) : hasSrc (d.closed o).attn.req 3 = true := by
  simp only [Dev.closed, h, if_true, Dev.hasSrc_raise]
  simp [srcOrder]

section
variable {d : Dev} {o : Order} (h : d.reader.order = some o)
include h

/-- A failure, the first defect under STOP_ON_DEFECT, a HALT or an ABORT halts the reader at the order's link. -/
theorem Dev.finish_halts (hc : o.status = .failed ∨ (o.status = .doneDefects ∧ o.stopOnDefect = true) ∨
      d.reader.haltPending = true ∨ d.reader.ending = some .aborted) :
    d.finish = ((d.closed o).onReader fun r =>
      { r with lastError := if o.status = .failed then .orderFailed else r.lastError }).haltAt (.word (.link (o.off + 4))) := by
  simp only [Dev.finish, h, if_pos hc]
  rfl

theorem Dev.finish_links (hc : ¬(o.status = .failed ∨ (o.status = .doneDefects ∧ o.stopOnDefect = true) ∨
      d.reader.haltPending = true ∨ d.reader.ending = some .aborted)) :
    d.finish = ((d.closed o).onReader fun r => { r with ending := none }).clearBuf.push
      [.read (o.off + 4) 1, .linkGot] := by
  simp only [Dev.finish, h, if_neg hc]
  rfl

end

/-! ## The pause (R181) -/

/-- A free choice among listed values is one of them. -/
theorem freeAmong_mem {vs : List Nat} (h : vs ≠ []) (base i : Nat) : freeAmong vs base i ∈ vs := by
  have hlt : (Config.freeWord base i).toNat % vs.length < vs.length := Nat.mod_lt _ (List.length_pos_of_ne_nil h)
  rw [freeAmong, List.getD_eq_getElem _ _ hlt]
  exact List.getElem_mem hlt

/-- The completion codes that a pause may write, by the order's kind; an order of no kind has the code of DONE (log 13). -/
def pauseCodes (k : Option Kind) : List Nat := match k with | some k => k.codes.map Code.toNat | none => [0]

theorem Order.pauseCode_mem (o : Order) : o.pauseCode ∈ pauseCodes o.kind := by
  unfold Order.pauseCode pauseCodes
  cases o.kind with
  | none => exact List.mem_singleton.2 rfl
  | some k => exact freeAmong_mem (by cases k <;> decide) _ _

/-- What a pausing owner changes beside its own state: the map of a SWEEP is not valid while it pauses (R60). -/
theorem Dev.pauseOwner_frame (d : Dev) :
    d.pauseOwner.reader = d.reader ∧ d.pauseOwner.learn = d.learn ∧ d.pauseOwner.prog = d.prog ∧
    d.pauseOwner.nets = (if d.kind = some .sweep then { d.nets with mapValid := false } else d.nets) ∧
    d.pauseOwner.sweep = { d.sweep with state := d.pauseOwner.sweep.state } ∧
    d.pauseOwner.fmt = { d.fmt with state := d.pauseOwner.fmt.state } := by
  have hkind : ∀ f, (d.onSearch f).kind = d.kind := fun f => rfl
  unfold Dev.pauseOwner
  dsimp only
  split <;> simp [Dev.mapUnfinished_nets, hkind]

/-- A pause that no interlock brought about has the reason HALT (R137). -/
theorem Dev.pauseOwner_ins (d : Dev) : d.pauseOwner.ins =
    if d.kind = some .insulate then
      { d.ins with state := .paused, reason := if d.ins.reason = .none then .halt else d.ins.reason }
    else d.ins := by
  unfold Dev.pauseOwner
  dsimp only
  split
  case h_6 hk _ _ => simp [show ¬d.kind = some .insulate from hk]
  all_goals rename_i hk; simp [hk]

theorem Dev.pause_eq {d : Dev} {o : Order} (h : d.reader.order = some o) :
    d.pause = { (d.setStatus .paused).pauseOwner with saved := d.tasks }.goto
      ((d.setStatus .paused).pauseOwner.statusTasks (o.ended .paused d.free) (o.ended .paused d.free).pauseCode [] ++
        [Task.paused]) := by
  have horder : (d.setStatus .paused).pauseOwner.reader.order = some (o.ended .paused d.free) := by
    rw [(Dev.pauseOwner_frame _).1, Dev.setStatus_eq h]
  simp only [Dev.pause, horder]

/-! ## A safe point (R183, R185, R113) -/

theorem Dev.safe_ends {d : Dev} {c : Code} (h : d.reader.ending = some c) : d.safe = d.failOrder c := by
  simp only [Dev.safe, h]

theorem Dev.safe_pauses {d : Dev} (h : d.reader.ending = none)
    (hp : d.reader.haltPending = true ∨ (d.kind = some .insulate ∧ d.ins.reason = .interlock)) :
    d.safe = d.push [.pause] := by
  have hc : (d.reader.haltPending || (decide (d.kind = some .insulate) && decide (d.ins.reason = .interlock))) = true := by
    simpa using hp
  simp only [Dev.safe, h, if_pos hc]

theorem Dev.safe_goes {d : Dev} (h : d.reader.ending = none) (hp : d.reader.haltPending = false)
    (hi : ¬(d.kind = some .insulate ∧ d.ins.reason = .interlock)) : d.safe = d := by
  have hc : ¬(d.reader.haltPending || (decide (d.kind = some .insulate) && decide (d.ins.reason = .interlock))) = true := by
    simpa [hp] using hi
  simp only [Dev.safe, h, if_neg hc]

/-- Settles O32: the end, the owner's IDLE, the final order, the pause and the safe point, each step by its own equation. -/
theorem orderEndsAndPauses : Obligations.OrderEndsAndPauses := by
  refine ⟨fun q d o o' st c ws ho ho' hws => ?endOrder, fun q d => rfl, fun q d o ho => ?finish,
    fun q d e o ho hst he => ?pause, fun q d => ⟨rfl, rfl, rfl, ?paused⟩,
    fun q d => ⟨fun c hc => ?_, fun hn hp => ?_, fun hn hp hi => Dev.safe_goes hn hp hi⟩⟩
  case endOrder =>
    have ho' : o' = o.ended st d.free := ho'
    subst ho'
    have hstep : runTask q (.endOrder st c) d = _ := Dev.endOrder_eq ho st c
    obtain ⟨hreader, hsweep, hlearn, hins, hfmt, hprog⟩ := Dev.releaseOwner_frame st (d.setStatus st)
    have hsearch := Dev.releaseOwner_search st (d.setStatus st)
    have hnets := Dev.releaseOwner_nets st (d.setStatus st)
    have hpoints := Dev.releaseOwner_points st (d.setStatus st)
    have hkind : (d.setStatus st).kind = o.kind := by rw [Dev.setStatus_eq ho]; rfl
    have htail : ∀ k base, ((d.setStatus st).releaseOwner st).resultTail k base = d.resultTail k base := fun k base =>
      Dev.resultTail_congr hprog hpoints hsweep hlearn hins hfmt k base
    rw [hkind] at hnets
    rw [hstep, Dev.statusTasks_eq htail]
    refine ⟨hws ▸ rfl, ?_, hsweep, hins, hfmt, fun hf => ?_, fun hf => ?_, fun hk hf => ?_, fun hk => ?_⟩
    · exact hreader.trans (by rw [Dev.setStatus_eq ho])
    · rw [if_pos hf] at hsearch
      rw [Dev.goto, hsearch]
      exact ⟨rfl, rfl, rfl⟩
    · rw [if_neg hf] at hsearch
      exact hsearch
    · rw [if_pos ⟨hk, hf⟩] at hnets
      exact hnets
    · rw [if_neg (by tauto)] at hnets
      exact hnets
  case finish =>
    have hstep : runTask q .finish d = d.finish := rfl
    rw [hstep]
    by_cases hc : o.status = .failed ∨ (o.status = .doneDefects ∧ o.stopOnDefect = true) ∨ d.reader.haltPending = true ∨
        d.reader.ending = some .aborted
    · rw [Dev.finish_halts ho hc, Dev.hasSrc_haltAt, Dev.hasSrc_haltAt]
      simp only [Dev.haltAt, Dev.raise_reader, Dev.onReader_reader, Dev.closed_reader, Dev.onReader_attn]
      refine ⟨trivial, ho, fun hn => by rw [Dev.closed_notifies d hn]; rfl,
        fun _ => ⟨trivial, trivial, trivial, by simp, fun hf => if_pos hf, fun hf => if_neg hf⟩, fun h1 h2 h3 h4 => ?_⟩
      obtain h | h | h | h := hc
      · exact absurd h h1
      · exact absurd h h2
      · rw [h3] at h; cases h
      · exact absurd h h4
    · rw [Dev.finish_links ho hc]
      simp only [Dev.push_reader, Dev.push_tasks, Dev.push_attn, Dev.clearBuf_reader, Dev.clearBuf_tasks, Dev.clearBuf_attn,
        Dev.onReader_reader, Dev.onReader_tasks, Dev.onReader_attn, Dev.closed_reader, Dev.closed_tasks]
      exact ⟨trivial, ho, Dev.closed_notifies d, fun h => absurd h hc, fun _ _ _ _ => ⟨rfl, trivial⟩⟩
  case pause =>
    obtain ⟨o', ho'⟩ : ∃ o', o' = { o with status := .paused, freeBase := d.free } := ⟨_, rfl⟩
    have hended : o.ended .paused d.free = o' := by
      rw [Order.ended, if_neg (by rw [hst]; decide), ho']
    have hset := Dev.setStatus_eq ho .paused
    have hstep : runTask q .pause d = _ := Dev.pause_eq ho
    rw [hended] at hset hstep
    have hkind : (d.setStatus .paused).kind = o.kind := by rw [hset, ho']; rfl
    obtain ⟨hreader, hlearn, hprog, hnets, hsweep, hfmt⟩ := Dev.pauseOwner_frame (d.setStatus .paused)
    have hins := Dev.pauseOwner_ins (d.setStatus .paused)
    rw [hkind] at hnets hins
    have hpoints : (d.setStatus .paused).pauseOwner.nets.points = d.nets.points := by
      rw [hnets]
      split <;> rfl
    have hreason : (d.setStatus .paused).pauseOwner.ins =
        { e.ins with state := (d.setStatus .paused).pauseOwner.ins.state } := by
      rw [hins, he]
      by_cases hk : o.kind = some .insulate
      · by_cases hr : d.ins.reason = .none <;> simp [hk, hr, hset]
      · simp [hk, hset]
    generalize (d.setStatus .paused).pauseOwner = x at hstep hreader hlearn hprog hnets hsweep hfmt hpoints hreason
    have htail : ∀ k base, x.resultTail k base = e.resultTail k base := by
      refine fun k base => Dev.resultTail_congr (d := e) (sw := x.sweep.state) (sf := x.fmt.state) (hprog.trans ?_)
        (hpoints.trans ?_) (hsweep.trans ?_) (hlearn.trans ?_) hreason (hfmt.trans ?_) k base <;> rw [he] <;> rfl
    have horder := hreader.trans (congrArg Dev.reader hset)
    rw [hstep, Dev.statusTasks_eq htail]
    refine ⟨o'.pauseCode, ?_, fun ws hws => ?_⟩
    · have hmem := o'.pauseCode_mem
      rw [show o'.kind = o.kind by rw [ho']] at hmem
      revert hmem
      cases o.kind with
      | none => exact id
      | some k => cases k <;> exact id
    · subst ho' hws
      exact ⟨rfl, rfl, hnets, congrArg Reader.order horder⟩
  case paused => exact (Dev.hasSrc_haltAt d .order 2).trans (by simp)
  · have hstep : runTask q .safe d = _ := Dev.safe_ends hc
    rw [hstep]; rfl
  · have hstep : runTask q .safe d = _ := Dev.safe_pauses hn hp
    rw [hstep]; rfl

end Sys2Proof.Machine

namespace Sys2Proof.Machine

/-! # The netlist's validation and the compensation array -/

/-! ## The header and the records (R49 to R51) -/

/-- A netlist that fails a check is refused with the net and the member where the walk stood (R49). -/
theorem Dev.refuseNetlist_eq (c : Code) (n : Nat) (p : Option Nat) (d : Dev) :
    d.refuseNetlist c n p = { d with
      sweep := { d.sweep with refNet := n, refPoint := p }, rbuf := [], tasks := [.endOrder .refused c], wait := .run } := rfl

theorem Dev.valBegin_refused {d : Dev} (h : d.sweep.netlistOff % 4 ≠ 0 ∨ d.memEnd ≤ d.sweep.netlistOff) :
    d.valBegin = (d.onNets fun t => { t.begin (maskOf d.mx.present) with roots := [] }).refuseNetlist .netlistBounds 0 none :=
  if_pos h

theorem Dev.valBegin_reads {d : Dev} (h : ¬(d.sweep.netlistOff % 4 ≠ 0 ∨ d.memEnd ≤ d.sweep.netlistOff)) :
    d.valBegin = (d.onNets fun t => { t.begin (maskOf d.mx.present) with roots := [] }).clearBuf.push
      [.read d.sweep.netlistOff 1, .valHead] := if_neg h

theorem Dev.valBegin_nets (d : Dev) : d.valBegin.nets = { d.nets.begin (maskOf d.mx.present) with roots := [] } := by
  by_cases h : d.sweep.netlistOff % 4 ≠ 0 ∨ d.memEnd ≤ d.sweep.netlistOff
  · rw [Dev.valBegin_refused h]; rfl
  · rw [Dev.valBegin_reads h]; rfl

theorem Dev.word_zero {d : Dev} {w : Word} (h : d.rbuf = [w]) : d.word 0 = w := by
  rw [Dev.word, h]
  rfl

section
variable {d : Dev} {w : Word} (h : d.rbuf = [w])
include h

theorem Dev.valHead_size (hn : lo w = 0 ∨ 2048 < lo w) : d.valHead = d.refuseNetlist .netlistSize 0 none := by
  simp only [Dev.valHead, Dev.word_zero h, if_pos hn]

theorem Dev.valHead_bounds (hn : ¬(lo w = 0 ∨ 2048 < lo w)) (hb : d.memEnd < d.sweep.netlistOff + 4 * hi w) :
    d.valHead = d.refuseNetlist .netlistBounds 0 none := by
  simp only [Dev.valHead, Dev.word_zero h, if_neg hn, if_pos hb]

theorem Dev.valHead_passes (hn : ¬(lo w = 0 ∨ 2048 < lo w)) (hb : ¬d.memEnd < d.sweep.netlistOff + 4 * hi w) :
    d.valHead = { d with
      nets := { d.nets with count := lo w }, sweep := { d.sweep with netEnd := d.sweep.netlistOff + 4 * hi w }, rbuf := []
      tasks := .valNet 1 (d.sweep.netlistOff + 4) :: d.tasks } := by
  simp only [Dev.valHead, Dev.word_zero h, if_neg hn, if_neg hb]
  rfl

theorem Dev.valRecord_empty (n off : Nat) (hk : lo w = 0) : d.valRecord n off = d.refuseNetlist .netEmpty n none := by
  simp only [Dev.valRecord, Dev.word_zero h, if_pos hk]

theorem Dev.valRecord_tooLarge (n off : Nat) (hk : 256 < lo w) :
    d.valRecord n off = d.refuseNetlist .netTooLarge n none := by
  simp only [Dev.valRecord, Dev.word_zero h, if_neg (show ¬lo w = 0 by omega), if_pos hk]

theorem Dev.valRecord_bounds (n : Nat) {off : Nat} (h0 : 1 ≤ lo w) (hk : lo w ≤ 256)
    (hb : d.sweep.netEnd < off + 4 * recordWords w) : d.valRecord n off = d.refuseNetlist .netlistBounds n none := by
  simp only [Dev.valRecord, Dev.word_zero h, if_neg (show ¬lo w = 0 by omega), if_neg (Nat.not_lt.2 hk), if_pos hb]

theorem Dev.valRecord_reads (n : Nat) {off lim rng hv : Nat} (h0 : 1 ≤ lo w) (hk : lo w ≤ 256)
    (hb : off + 4 * recordWords w ≤ d.sweep.netEnd) (hlim : lim = off + 4 + 4 * opt (hasName w) 4)
    (hrng : rng = lim + 4 * opt (hasLimits w) 2) (hhv : hv = rng + 4 * opt (hasRange w) 1) :
    d.valRecord n off = { d with
      rbuf := []
      tasks := (if hasLimits w then [.read lim 1, .read (lim + 4) 1] else []) ++
        (if hasRange w then [.read rng 1] else []) ++ (if hasHv w then [.read hv 1] else []) ++
        .valParts n off w :: d.tasks } := by
  subst hlim hrng hhv
  simp only [Dev.valRecord, Dev.word_zero h, if_neg (show ¬lo w = 0 by omega), if_neg (Nat.not_lt.2 hk),
    if_neg (Nat.not_lt.2 hb), Dev.push, Dev.clearBuf, List.append_assoc, List.singleton_append]

end

theorem Dev.valNet_done {d : Dev} {n : Nat} (off : Nat) (h : d.nets.count < n) : d.valNet n off = d.push [.compBlock 0] :=
  if_pos h

theorem Dev.valNet_bounds {d : Dev} {n off : Nat} (h : n ≤ d.nets.count) (hb : d.sweep.netEnd ≤ off) :
    d.valNet n off = d.refuseNetlist .netlistBounds n none := by
  rw [Dev.valNet, if_neg (Nat.not_lt.2 h), if_pos hb]

theorem Dev.valNet_reads {d : Dev} {n off : Nat} (h : n ≤ d.nets.count) (hb : off < d.sweep.netEnd) :
    d.valNet n off = d.clearBuf.push [.read off 1, .valRecord n off] := by
  rw [Dev.valNet, if_neg (Nat.not_lt.2 h), if_neg (Nat.not_le.2 hb)]

/-! ## The parts of a record (R51) -/

/-- The three range words of a record (R206). -/
theorem netRange_isNone_iff (w : Word) : (netRange w).isNone = true ↔ w ≠ 1 ∧ w ≠ 2 ∧ w ≠ 3 := by
  unfold netRange
  by_cases h1 : w = 1
  · simp [h1]
  · by_cases h2 : w = 2
    · simp [h2]
    · by_cases h3 : w = 3
      · simp [h3]
      · simp only [if_neg h1, if_neg h2, if_neg h3, Option.isNone_none, true_iff]
        exact ⟨h1, h2, h3⟩

theorem netRange_getD {w : Word} (h : w = 1 ∨ w = 2 ∨ w = 3) :
    (netRange w).getD .none = if w = 1 then .h else if w = 2 then .m else .l := by
  obtain rfl | rfl | rfl := h <;> rfl

/-- The limits of a record whose limit words are `a` and `b` (R51). -/
def recordLimits (a b : Nat) : Nat × Nat := (clampTo 1 Config.maxMilliohms a, clampTo 2 Config.maxMilliohms b)

theorem recordLimits_eq (a b : Nat) : recordLimits a b = (max 1 (min 2000000 a), max 2 (min 2000000 b)) :=
  Prod.ext (clampTo_eq a (by decide)) (clampTo_eq b (by decide))

/-- Clamping changes one of the limits, or one of the parts, of a record with header `h` (R51). -/
def limitClamps (h : Word) (a b : Nat) : Bool :=
  hasLimits h && (clamps 1 Config.maxMilliohms a || clamps 2 Config.maxMilliohms b)

def recordClamps (h : Word) (a b v : Nat) : Bool := limitClamps h a b || (hasHv h && clamps 50 1500 v)

theorem limitClamps_iff (h : Word) (a b : Nat) : limitClamps h a b = true ↔
    bitAt h 17 = true ∧ (a < 1 ∨ 2000000 < a ∨ b < 2 ∨ 2000000 < b) := by
  simp only [limitClamps, hasLimits, Bool.and_eq_true, Bool.or_eq_true, clamps_iff, Config.maxMilliohms, or_assoc]

theorem recordClamps_iff (h : Word) (a b v : Nat) : recordClamps h a b v = true ↔
    (bitAt h 17 = true ∧ (a < 1 ∨ 2000000 < a ∨ b < 2 ∨ 2000000 < b)) ∨ (bitAt h 19 = true ∧ (v < 50 ∨ 1500 < v)) := by
  rw [recordClamps, Bool.or_eq_true, limitClamps_iff, Bool.and_eq_true, clamps_iff]
  rfl

/-- Words that are no limits clamp nothing. -/
theorem recordClamps_congr {h : Word} {a b a' b' : Nat} (v : Nat) (hab : hasLimits h = true → a = a' ∧ b = b') :
    recordClamps h a b v = recordClamps h a' b' v := by
  by_cases hl : hasLimits h = true
  · obtain ⟨rfl, rfl⟩ := hab hl
    rfl
  · simp only [recordClamps, limitClamps, hl, Bool.false_and]

/-- The net table entry of a record at `off` whose members start at `start` (R51, R55). -/
def recordNet (start off : Nat) (h r : Word) (a b v : Nat) : Net where
  start := start
  count := lo h
  limits := if hasLimits h then some (recordLimits a b) else none
  rng := if hasRange h then (netRange r).getD .none else .none
  hv := if hasHv h then some (clampTo 50 1500 v) else none
  noInsulate := hasNoInsulate h
  name := if hasName h then some (off + 4) else none

theorem recordNet_congr {h : Word} {a b a' b' : Nat} (start off : Nat) (r : Word) (v : Nat)
    (hab : hasLimits h = true → a = a' ∧ b = b') : recordNet start off h r a b v = recordNet start off h r a' b' v := by
  by_cases hl : hasLimits h = true
  · obtain ⟨rfl, rfl⟩ := hab hl
    rfl
  · simp only [recordNet, if_neg hl]

theorem recordNet_eq (start off a b v : Nat) {h r : Word} (hr : bitAt h 18 = true → r = 1 ∨ r = 2 ∨ r = 3) :
    recordNet start off h r a b v =
      { start := start
        count := lo h
        limits := if bitAt h 17 then some (max 1 (min 2000000 a), max 2 (min 2000000 b)) else none
        rng := if bitAt h 18 then (if r = 1 then .h else if r = 2 then .m else .l) else .none
        hv := if bitAt h 19 then some (max 50 (min 1500 v)) else none
        noInsulate := bitAt h 20
        name := if bitAt h 16 then some (off + 4) else none } := by
  have hrange : (if hasRange h = true then (netRange r).getD .none else .none) =
      if bitAt h 18 = true then (if r = 1 then .h else if r = 2 then .m else .l) else .none :=
    if_congr Iff.rfl rfl rfl |>.trans (ite_congr rfl (fun h18 => netRange_getD (hr h18)) fun _ => rfl)
  rw [recordNet, hrange, recordLimits_eq, clampTo_eq v (by decide)]
  rfl

section
variable {d : Dev} {h r : Word} {a b v : Nat} (n off : Nat)

theorem Dev.valParts_badParameter (hr : r = d.word (opt (hasLimits h) 2))
    (hbad : hasRange h = true ∧ (netRange r).isNone = true) :
    d.valParts n off h = d.refuseNetlist .badParameter n none := by
  subst hr
  have hc : (hasRange h && (netRange (d.word (opt (hasLimits h) 2))).isNone) = true := by rw [hbad.1, hbad.2]; rfl
  simp only [Dev.valParts, if_pos hc]

variable (hab : hasLimits h = true → a = (d.word 0).toNat ∧ b = (d.word 1).toNat)
  (hr : r = d.word (opt (hasLimits h) 2)) (hv : v = (d.word (opt (hasLimits h) 2 + opt (hasRange h) 1)).toNat)
  (hrange : ¬(hasRange h = true ∧ (netRange r).isNone = true))
include hab hr hrange

theorem Dev.valParts_limitOrder (hbad : hasLimits h = true ∧ (recordLimits a b).2 ≤ (recordLimits a b).1) :
    d.valParts n off h = (d.setClamped (limitClamps h a b)).refuseNetlist .limitOrder n none := by
  obtain ⟨rfl, rfl⟩ := hab hbad.1
  subst hr
  have hc1 : ¬(hasRange h && (netRange (d.word (opt (hasLimits h) 2))).isNone) = true := by
    rwa [Bool.and_eq_true]
  have hc2 : (hasLimits h && decide (clampTo 2 Config.maxMilliohms (d.word 1).toNat ≤
      clampTo 1 Config.maxMilliohms (d.word 0).toNat)) = true := by
    rw [Bool.and_eq_true, decide_eq_true_eq]
    exact hbad
  simp only [Dev.valParts, if_neg hc1, if_pos hc2]
  rfl

include hv

theorem Dev.valParts_loads (hok : hasLimits h = true → (recordLimits a b).1 < (recordLimits a b).2) :
    d.valParts n off h = { d.setClamped (recordClamps h a b v) with
      nets := { d.nets with
        table := Tab.set Net.none d.nets.table n (recordNet d.nets.members.length off h r a b v) }
      rbuf := []
      tasks := .valMembers n (off + 4 * memberWord h) (lo h) (off + 4 * recordWords h) :: d.tasks } := by
  rw [recordClamps_congr v hab, recordNet_congr _ off r v hab]
  subst hr hv
  have hc1 : ¬(hasRange h && (netRange (d.word (opt (hasLimits h) 2))).isNone) = true := by
    rwa [Bool.and_eq_true]
  have hc2 : ¬(hasLimits h && decide (clampTo 2 Config.maxMilliohms (d.word 1).toNat ≤
      clampTo 1 Config.maxMilliohms (d.word 0).toNat)) = true := by
    rw [Bool.and_eq_true, decide_eq_true_eq]
    rintro ⟨hl, hle⟩
    obtain ⟨rfl, rfl⟩ := hab hl
    exact Nat.not_le.2 (hok hl) hle
  simp only [Dev.valParts, if_neg hc1, if_neg hc2]
  rfl

end

/-! ## Members (R52) -/

theorem Nets.memberFault_unfitted {t : Nets} {p : Nat} (h : t.isFitted p = false) :
    t.memberFault p = some .pointUnfitted := by
  simp only [Nets.memberFault, h, Bool.not_false, if_true]

theorem Nets.memberFault_duplicate {t : Nets} {p : Nat} (h : t.isFitted p = true) (hn : (t.pt p).net ≠ 0) :
    t.memberFault p = some .pointDuplicate := by
  simp only [Nets.memberFault, h, Bool.not_true, Bool.false_eq_true, if_false, if_pos hn]

theorem Nets.memberFault_none {t : Nets} {p : Nat} (h : t.isFitted p = true) (hn : (t.pt p).net = 0) :
    t.memberFault p = none := by
  simp only [Nets.memberFault, h, Bool.not_true, Bool.false_eq_true, if_false, if_neg (not_not.2 hn)]

section
variable {d : Dev} {w : Word} (h : d.rbuf = [w]) (n at' next : Nat)
include h

theorem Dev.valMemberGot_refused {c : Code} (left : Nat) (hp : d.nets.memberFault (lo w) = some c) :
    d.valMemberGot n at' left next = d.refuseNetlist c n (some (lo w)) := by
  simp only [Dev.valMemberGot, Dev.word_zero h, hp]

theorem Dev.valMemberGot_last (hp : d.nets.memberFault (lo w) = none) :
    d.valMemberGot n at' 1 next = (d.onNets (Nets.load n (lo w))).clearBuf.push [.valNet (n + 1) next] := by
  simp only [Dev.valMemberGot, Dev.word_zero h, hp, if_true]

variable {left : Nat} (hl : left ≠ 1)
include hl

theorem Dev.valMemberGot_secondRefused {c : Code} (hp : d.nets.memberFault (lo w) = none)
    (hr : (d.nets.load n (lo w)).memberFault (hi w) = some c) :
    d.valMemberGot n at' left next = (d.onNets (Nets.load n (lo w))).refuseNetlist c n (some (hi w)) := by
  simp only [Dev.valMemberGot, Dev.word_zero h, hp, if_neg hl, Dev.onNets_nets, hr]

theorem Dev.valMemberGot_both (hp : d.nets.memberFault (lo w) = none)
    (hr : (d.nets.load n (lo w)).memberFault (hi w) = none) :
    d.valMemberGot n at' left next =
      { d with
        nets := (d.nets.load n (lo w)).load n (hi w), rbuf := []
        tasks := .valMembers n (at' + 4) (left - 2) next :: d.tasks } := by
  simp only [Dev.valMemberGot, Dev.word_zero h, hp, if_neg hl, Dev.onNets_nets, hr]
  rfl

end

/-! ## The compensation array (R53) -/

/-- Values stored from a point on: each clamped to 9999, and no other point's changed. -/
theorem get_storeComp {t : Tab Nat} (h : Tab.canonFrom 0 0 t = true) (p : Nat) (vs : List Nat) (x : Nat) :
    Tab.get 0 (storeComp p vs t) x =
      if p ≤ x ∧ x < p + vs.length then min (vs.getD (x - p) 0) 9999 else Tab.get 0 t x := by
  induction vs generalizing p t with
  | nil => simp [storeComp, show ¬(p ≤ x ∧ x < p) by omega]
  | cons v vs ih =>
    rw [storeComp, ih (Tab.canonFrom_set _ _ _ _ h (Nat.zero_le _)), Tab.get_set _ 0 _ _ _ h, List.length_cons]
    obtain hlt | rfl | hgt := Nat.lt_trichotomy x p
    · rw [if_neg (by omega), if_neg (by omega), if_neg (by omega)]
    · rw [if_neg (by omega), if_pos rfl, if_pos (by omega), Nat.sub_self]
      rfl
    · obtain ⟨k, rfl⟩ : ∃ k, x = p + 1 + k := ⟨x - (p + 1), by omega⟩
      have hk : p + 1 + k - p = k + 1 := by omega
      by_cases hin : k < vs.length
      · rw [if_pos (by omega), if_pos (by omega), hk, Nat.add_sub_cancel_left, List.getD_cons_succ]
      · rw [if_neg (by omega), if_neg (by omega), if_neg (by omega)]

/-- The two halves of each word, in order. -/
def halves (ws : List Word) : List Nat := ws.flatMap fun w => [lo w, hi w]

theorem halves_cons (w : Word) (ws : List Word) : halves (w :: ws) = lo w :: hi w :: halves ws := rfl

theorem length_halves (ws : List Word) : (halves ws).length = 2 * ws.length := by
  induction ws with
  | nil => rfl
  | cons w ws ih => rw [halves_cons, List.length_cons, List.length_cons, ih, List.length_cons]; omega

theorem getD_halves (ws : List Word) (k : Nat) :
    (halves ws).getD k 0 = if k % 2 = 0 then lo (ws.getD (k / 2) 0) else hi (ws.getD (k / 2) 0) := by
  induction ws generalizing k with
  | nil => simp [halves, lo, hi]
  | cons w ws ih =>
    match k with
    | 0 => rfl
    | 1 => rfl
    | k + 2 =>
      rw [halves_cons, List.getD_cons_succ, List.getD_cons_succ, ih, Nat.add_mod_right, Nat.add_div_right k (by decide),
        List.getD_cons_succ]

theorem any_halves (ws : List Word) :
    ((halves ws).any fun v => decide (9999 < v)) = ws.any fun w => decide (9999 < lo w ∨ 9999 < hi w) := by
  induction ws with
  | nil => rfl
  | cons w ws ih => rw [halves_cons, List.any_cons, List.any_cons, List.any_cons, ih, ← Bool.or_assoc, Bool.decide_or]

theorem Dev.compBlock_none {d : Dev} {b : Bind} (i : Nat) (hb : d.reader.bind = some b) (h : b.compOff = 0) :
    d.compBlock i = { d with nets := { d.nets with comp := [] }, tasks := d.compEnd :: d.tasks } := by
  simp only [Dev.compBlock, hb, if_pos h]
  rfl

theorem Dev.compBlock_reads {d : Dev} {b : Bind} (i : Nat) (hb : d.reader.bind = some b) (h : b.compOff ≠ 0) :
    d.compBlock i = { d with rbuf := [], tasks := .read (b.compOff + 16 * i) 4 :: .compGot i :: d.tasks } := by
  simp only [Dev.compBlock, hb, if_neg h]
  rfl

theorem Dev.compGot_eq (i : Nat) (d : Dev) :
    d.compGot i = { d.setClamped ((halves d.rbuf).any fun v => decide (9999 < v)) with
      nets := { d.nets with comp := storeComp (8 * i) (halves d.rbuf) d.nets.comp }
      rbuf := []
      tasks := (if i < 511 then .compBlock (i + 1) else d.compEnd) :: d.tasks } := by
  unfold Dev.compGot
  by_cases h : i < 511
  · simp only [if_pos h]; rfl
  · simp only [if_neg h]; rfl

/-- Settles O53: each step of the validation by the check it makes or the words it has read, each refusal with its point. -/
theorem netlistIsValidated : Obligations.NetlistIsValidated := by
  refine ⟨fun q d e off hoff he => ?begins, fun q d f hf => ?walk,
    fun q d e n off a b v h r clamp he hcan hab hr hv => ?parts, fun q d b i done hb hdone => ?comp⟩
  case begins =>
    have hstep : e = d.valBegin := he
    have hnets : e.nets = { d.nets.begin (maskOf d.mx.present) with roots := [] } := hstep ▸ d.valBegin_nets
    subst hoff
    rw [hnets]
    refine ⟨rfl, rfl, rfl, fun p => rfl, fun n => rfl,
      fun p hp => Nets.isFitted_begin d.mx { d.nets with roots := [] } d.nets.count hp, fun h => ?_, fun h1 h2 => ?_⟩
    · rw [hstep, Dev.valBegin_refused h]
      exact ⟨rfl, rfl, rfl⟩
    · rw [hstep, Dev.valBegin_reads (by omega)]
      rfl
  case walk =>
    obtain rfl : f = fun c n p => d.refuseNetlist c n p := by
      funext c n p
      exact hf c n p
    refine ⟨fun w off hw hoff => ?head, fun n off => ⟨Dev.valNet_done off, Dev.valNet_bounds, Dev.valNet_reads⟩,
      fun n off k len lim rng hv h hh hk hlen hlim hrng hhv => ?record,
      fun n at' left next => ⟨fun h => if_pos h, fun h => if_neg h⟩,
      fun n at' left next p r w e t hw hp hr he ht => ?member⟩
    case head =>
      subst hoff
      refine ⟨fun h => ?_, fun h1 h2 hb => ?_, fun h1 h2 hb => ?_⟩
      · exact Dev.valHead_size hw h
      · exact Dev.valHead_bounds hw (by omega) hb
      · exact Dev.valHead_passes hw (by omega) (by omega)
    case record =>
      have hlen : len = recordWords h := by rw [hlen, hk]; rfl
      subst hk hlen
      exact ⟨Dev.valRecord_empty hh n off, Dev.valRecord_tooLarge hh n off, Dev.valRecord_bounds hh n,
        fun h0 hk hb => Dev.valRecord_reads hh n h0 hk hb hlim hrng hhv⟩
    case member =>
      have hstep : e = d.valMemberGot n at' left next := he
      have hfirstLoad : d.nets.load n p = t := ht.symm
      have hsecondLoad : t.load n r = { t with
          points := Tab.set Pt.free t.points r ⟨n, .untested, (t.pt r).att⟩, members := t.members ++ [r] } := rfl
      rw [← hsecondLoad, ← hfirstLoad]
      subst hp hr hstep
      refine ⟨fun h => Dev.valMemberGot_refused hw n at' next left (Nets.memberFault_unfitted h),
        fun h hn => Dev.valMemberGot_refused hw n at' next left (Nets.memberFault_duplicate h hn), fun h hn => ?_⟩
      have hfirst := Nets.memberFault_none h hn
      refine ⟨fun hl => ?_, fun hl hu => ?_, fun hl hf hd => ?_, fun hl hf hd => ?_⟩
      · subst hl
        exact Dev.valMemberGot_last hw n at' next hfirst
      · exact Dev.valMemberGot_secondRefused hw n at' next hl hfirst (Nets.memberFault_unfitted hu)
      · exact Dev.valMemberGot_secondRefused hw n at' next hl hfirst (Nets.memberFault_duplicate hf hd)
      · exact Dev.valMemberGot_both hw n at' next hl hfirst (Nets.memberFault_none hf hd)
  case parts =>
    have hstep : e = d.valParts n off h := he
    have hbad : (hasRange h = true ∧ (netRange r).isNone = true) ↔ ¬(bitAt h 18 = true → r = 1 ∨ r = 2 ∨ r = 3) := by
      rw [netRange_isNone_iff, hasRange]
      tauto
    have hlimits : recordLimits a b = _ := recordLimits_eq a b
    refine ⟨fun h18 h1 h2 h3 => ?_, fun hrange h17 hle => ?_, fun hrange hlt => ?_⟩
    · rw [hstep, Dev.valParts_badParameter n off hr (hbad.2 (by tauto))]
      exact ⟨rfl, rfl, rfl, rfl⟩
    · rw [hstep, Dev.valParts_limitOrder n off hab hr (mt hbad.1 (not_not.2 hrange)) ⟨h17, by rw [hlimits]; exact hle⟩]
      refine ⟨rfl, rfl, rfl, rfl, fun hclamp => ?_⟩
      have heq : limitClamps h a b = clamp := by
        rw [Bool.eq_iff_iff, limitClamps_iff, hclamp]
        exact and_iff_right h17
      rw [← heq]
      rfl
    · rw [hstep, Dev.valParts_loads n off hab hr hv (mt hbad.1 (not_not.2 hrange)) (by rw [hlimits]; exact hlt)]
      refine ⟨rfl, (Tab.get_set _ 0 _ _ _ hcan).trans ?_, fun m hm => (Tab.get_set _ 0 _ _ _ hcan).trans (if_neg hm),
        fun hclamp => ?_⟩
      · rw [if_pos rfl]
        exact recordNet_eq _ _ _ _ _ hrange
      · have heq : recordClamps h a b v = clamp := by
          rw [Bool.eq_iff_iff, recordClamps_iff, hclamp]
        rw [← heq]
        rfl
  case comp =>
    have hend : d.compEnd = done := by
      obtain ⟨hk, rfl⟩ | ⟨hk, rfl⟩ := hdone <;> rw [Dev.compEnd, hk] <;> rfl
    subst hend
    refine ⟨rfl, Dev.compBlock_none i hb, Dev.compBlock_reads i hb, fun ws e hws hlen hcan he => ?got, rfl,
      { d.nets with roots := [], tablesValid := true, mapValid := true }, rfl, fun n => rfl, rfl⟩
    have hstep : e = d.compGot i := he
    subst hws
    have hlength : (halves d.rbuf).length = 8 := by rw [length_halves, hlen]
    rw [hstep, Dev.compGot_eq]
    refine ⟨fun k hk => ?_, fun p hp => ?_, rfl, ?_⟩
    · refine (get_storeComp hcan _ _ _).trans ?_
      rw [if_pos (by omega), Nat.add_sub_cancel_left, getD_halves]
    · exact (get_storeComp hcan _ _ _).trans (if_neg (by omega))
    · rw [any_halves]
      rfl

end Sys2Proof.Machine

namespace Sys2Proof.Machine

/-! # What every step keeps of the split search unit -/

/-- What every event and every run of the thread keeps, every step keeps: it runs the front command or idles (log 4). -/
theorem step_kept {P : Dev → Prop} (hP : Kept P) {s t : State} (hs : step s = .next t) (h : P s.dev) : P t.dev := by
  unfold step at hs
  split at hs
  · cases hs; exact h
  · exact exec_kept hP hs h

/-! ## The stack's bound (R82) -/

theorem stackFits_of_append {l rest : List SEntry} (h : stackFits (l ++ rest)) : stackFits rest := by
  induction l with
  | nil => exact h
  | cons e l ih => exact ih (stackFits_tail h)

theorem length_le_of_stackFits {l : List SEntry} (h : stackFits l) : l.length ≤ 13 := by
  cases l with
  | nil => exact Nat.zero_le _
  | cons e rest => exact Nat.succ_le_succ h.2.1

/-- With `l.length - 1 - i` entries below it, an entry is as long at most as a half of that depth. -/
theorem count_le_of_stackFits {l : List SEntry} (h : stackFits l) {i : Nat} {e : SEntry} (hi : l[i]? = some e) :
    e.count ≤ 2 ^ (13 + i - l.length) := by
  induction l generalizing i with
  | nil => cases hi
  | cons a rest ih =>
    obtain ⟨hcount, _, hrest⟩ := h
    cases i with
    | zero =>
      obtain rfl : a = e := Option.some.inj hi
      rwa [List.length_cons, Nat.add_zero, show 13 - (rest.length + 1) = 12 - rest.length by omega]
    | succ i =>
      rw [List.length_cons, show 13 + (i + 1) - (rest.length + 1) = 13 + i - rest.length by omega]
      exact ih hrest hi

/-- Settles O18: every step keeps what every event and every run of the thread keeps; the bounds of the stack are those of
all the ranges, of which it is the rest behind the popped one. -/
theorem stepsKeepSearchStackBound : Obligations.StepsKeepSearchStackBound := by
  refine ⟨fun s t hs hstep => step_kept kept_searchOk hstep hs, fun d h => ?_⟩
  obtain ⟨⟨hbuf, hfits, hapart, _⟩, _⟩ := h
  have hstack : stackFits d.search.stack := stackFits_of_append hfits
  exact ⟨hbuf, length_le_of_stackFits hstack, (List.pairwise_append.1 hapart).2.1, fun i e => count_le_of_stackFits hstack⟩

end Sys2Proof.Machine

namespace Sys2Proof.Machine

/-! # The fields of result sections and entries (R202, R205) -/

/-! ## Halves, bytes and bits of a word put together -/

/-- A count kept at 65535 fills a half exactly (R203). -/
@[simp] theorem sat16_mod (n : Nat) : sat16 n % 65536 = min n 65535 := by unfold sat16; omega

theorem hi_bytes4 (x0 x1 x2 x3 : Nat) : hi (bytes4 x0 x1 x2 x3) = x2 % 256 + 256 * (x3 % 256) := by
  simp only [hi, bytes4_toNat]; omega

/-- A number in the two upper bytes fills the upper half. -/
@[simp] theorem hi_bytes4_split (x0 x1 n : Nat) : hi (bytes4 x0 x1 (n % 256) (n / 256)) = n % 65536 := by
  rw [hi_bytes4]; omega

theorem Rng.code_le (r : Rng) : r.code ≤ 6 := by cases r <;> decide

/-- The range word of MEASURE: the code in byte 0, the flag in bit 8 (R205). -/
theorem wordOf_codeFlag_toNat {c : Nat} (hc : c ≤ 6) (b : Bool) :
    (wordOf (c + flagAt b 8)).toNat = c + flagAt b 8 := by
  have hflag : flagAt b 8 ≤ 256 := by cases b <;> decide
  exact Nat.mod_eq_of_lt (by omega)

theorem b0_wordOf_codeFlag {c : Nat} (hc : c ≤ 6) (b : Bool) : b0 (wordOf (c + flagAt b 8)) = c := by
  have hflag : flagAt b 8 % 256 = 0 := by cases b <;> decide
  rw [b0, wordOf_codeFlag_toNat hc]
  omega

theorem bitAt_wordOf_codeFlag {c : Nat} (hc : c ≤ 6) (b : Bool) : bitAt (wordOf (c + flagAt b 8)) 8 = b := by
  have hflag : flagAt b 8 = 256 * b.toNat := by cases b <;> decide
  rw [bitAt, wordOf_codeFlag_toNat hc, hflag, Nat.add_comm,
    Nat.testBit_two_pow_mul_add (i := 8) _ (show c < 2 ^ 8 by omega)]
  cases b <;> rfl

/-! ## Fields that are free (log 13) -/

theorem freeMasked_le (mask : Word) (base i : Nat) : (freeMasked mask base i).toNat ≤ mask.toNat := by
  rw [freeMasked, BitVec.toNat_and]
  exact Nat.and_le_right

theorem freeAmong_range_lt {n : Nat} (h : 0 < n) (base i : Nat) : freeAmong (List.range n) base i < n :=
  List.mem_range.1 (freeAmong_mem (mt List.range_eq_nil.1 (by omega)) base i)

/-! ## The section of ZERO -/

/-- The words of the six collections. -/
def Progress.zeroWords (base : Nat) (p : Progress) : List Word :=
  (List.range 6).map fun i => zeroWord base (i + 1) (p.zres.getD i none)

/-- The range word that follows them: the first range that failed, or a range code left free. -/
def Progress.zeroRangeWord (base : Nat) (p : Progress) : Word :=
  match p.zfirst with
  | some r => wordOf r.code
  | none => wordOf (freeAmong (List.range 7) base 7)

theorem Dev.resultTail_zero (base : Nat) (d : Dev) :
    d.resultTail .zero base = d.prog.zeroWords base ++ [d.prog.zeroRangeWord base] := rfl

theorem Progress.zeroRangeWord_first {p : Progress} {r : Rng} (base : Nat) (h : p.zfirst = some r) :
    (p.zeroRangeWord base).toNat = r.code := by
  have hcode := r.code_le
  rw [Progress.zeroRangeWord, h]
  exact Nat.mod_eq_of_lt (by omega)

theorem Progress.zeroRangeWord_le (base : Nat) (p : Progress) : (p.zeroRangeWord base).toNat ≤ 6 := by
  cases hz : p.zfirst with
  | some r => rw [Progress.zeroRangeWord_first base hz]; exact r.code_le
  | none =>
    have hfree := freeAmong_range_lt (n := 7) (by decide) base 7
    rw [Progress.zeroRangeWord, hz]
    exact (Nat.mod_le _ _).trans (by omega)

/-- A collection that has ended shows its result. -/
theorem Progress.zeroWords_get {p : Progress} {base i : Nat} {w : Word} {r : Option Int}
    (hw : (p.zeroWords base)[i]? = some w) (hr : p.zres[i]? = some (some r)) : w = zeroWord base (i + 1) (some r) := by
  have hres : p.zres.getD i none = some r := by rw [List.getD_eq_getElem?_getD, hr]; rfl
  obtain ⟨_, rfl⟩ := List.getElem?_eq_some_iff.1 hw
  simp only [Progress.zeroWords, List.getElem_map, List.getElem_range, hres]

/-- A formed code is a 16-bit number in two's complement. -/
theorem zeroWord_code {base i : Nat} {c : Int} (hl : -32768 ≤ c) (hh : c ≤ 32767) :
    ((zeroWord base i (some (some c))).extractLsb' 0 16).toInt = c := by
  have hlow : (zeroWord base i (some (some c))).extractLsb' 0 16 = BitVec.ofInt 16 c := by
    refine BitVec.eq_of_toNat_eq ?_
    have hlo : lo (zeroWord base i (some (some c))) = (BitVec.ofInt 16 c).toNat := by
      rw [zeroWord, lo_loHi, Nat.mod_eq_of_lt (BitVec.ofInt 16 c).isLt]
    rw [BitVec.extractLsb'_toNat, Nat.shiftRight_zero]
    exact hlo
  rw [hlow]
  exact BitVec.toInt_ofInt_eq_self (by decide) (by simpa using hl) (by simp; omega)

/-! ## The section of MEASURE -/

theorem Dev.resultTail_measure_formed {d : Dev} {a : Answer} (base : Nat) (h : d.prog.mres = some a) :
    d.resultTail .measure base = [valueField a.r, wordOf (a.rng.code + flagAt a.sat 8), BitVec.ofInt 32 a.sum] := by
  simp only [Dev.resultTail, h]

theorem Dev.resultTail_measure_free {d : Dev} (base : Nat) (h : d.prog.mres = none) :
    d.resultTail .measure base =
      [Config.freeWord base 1,
       wordOf (freeAmong (List.range 4) base 2 + flagAt (bitAt (Config.freeWord base 2) 8) 8), Config.freeWord base 3] := by
  simp only [Dev.resultTail, h]
  rfl

theorem wordOf_flag (b : Bool) : wordOf (flagAt b 0) = if b = true then 1 else 0 := by cases b <;> rfl

/-- Settles O33, kind by kind: each word by the halves or bytes that it is put together from; a field of PARK, UNPARK, ZERO
and MEASURE by whether it has been formed. -/
theorem resultSectionsHoldFields : Obligations.ResultSectionsHoldFields := by
  intro d base
  refine ⟨⟨_, rfl, by simp [hi_bytes4]⟩, rfl, ⟨_, _, rfl, wordOf_flag _, fun x h => by rw [h]; rfl⟩, ?unpark, ?zero,
    ?measure, ?sweep, ⟨_, _, _, _, rfl, by simp⟩, ?insulate, ⟨_, _, rfl, by simp⟩⟩
  case unpark =>
    refine ⟨_, _, _, _, _, _, rfl, wordOf_flag _, fun x h => by rw [h]; rfl, fun x h => by rw [h]; rfl,
      fun x h => by rw [h]; rfl, fun x h => by rw [h]; rfl, fun x h => by rw [h]; rfl, fun h => ?_, fun h => ?_⟩
    · rw [h]; exact freeMasked_le 15 base 4
    · rw [h]; exact freeMasked_le 1 base 6
  case zero =>
    refine ⟨_, _, Dev.resultTail_zero base d, by simp [Progress.zeroWords], Progress.zeroRangeWord_le base d.prog,
      fun r => Progress.zeroRangeWord_first base, fun i c w hw hr hl hh => ?_, fun i w hw hr => ?_⟩
    · rw [Progress.zeroWords_get hw hr]; exact ⟨zeroWord_code hl hh, hi_loHi _ _⟩
    · rw [Progress.zeroWords_get hw hr]; exact hi_loHi _ _
  case measure =>
    cases hm : d.prog.mres with
    | some a =>
      refine ⟨_, _, _, Dev.resultTail_measure_formed base hm, fun b hb => ?_, fun h => nomatch h⟩
      obtain rfl : a = b := Option.some.inj hb
      exact ⟨fun h => by rw [h]; rfl, fun n h => by rw [h]; rfl, b0_wordOf_codeFlag a.rng.code_le a.sat,
        bitAt_wordOf_codeFlag a.rng.code_le a.sat, rfl⟩
    | none =>
      have hfree := freeAmong_range_lt (n := 4) (by decide) base 2
      have hflag : flagAt (bitAt (Config.freeWord base 2) 8) 8 ≤ 256 := by
        cases bitAt (Config.freeWord base 2) 8 <;> decide
      refine ⟨_, _, _, Dev.resultTail_measure_free base hm, fun b hb => (nomatch hb), fun _ => ⟨?_, ?_⟩⟩
      · rw [b0_wordOf_codeFlag (by omega)]; omega
      · rw [wordOf_codeFlag_toNat (by omega)]; omega
  case sweep =>
    exact ⟨_, _, _, _, _, _, _, _, _, rfl, by simp, by simp, by simp, by simp,
      fun h => by rw [hi_loHi, h]; rfl, fun p h => by rw [hi_loHi, h]; rfl, by simp, by simp [Nets.goodCount],
      fun a b c e f g h i j k hnew hmerged => by simp [hnew, hmerged], by simp⟩
  case insulate =>
    refine ⟨_, _, _, _, _, _, rfl, by simp, ?_, by simp⟩
    rw [b1_bytes4]
    cases d.ins.reason <;> rfl

end Sys2Proof.Machine

namespace Sys2Proof.Machine

/-! # The defect table manager: what its steps do -/

/-! ## The words of an entry (R206) -/

theorem bitAt_eq_b0_testBit (w : Word) {i : Nat} (h : i < 8) : bitAt w i = (b0 w).testBit i := by
  rw [b0, show 256 = 2 ^ 8 from rfl, Nat.testBit_mod_two_pow, decide_eq_true h, Bool.true_and, bitAt]

section
variable (stray truncated gt lt : Bool) (range count : Nat)

/-- The four flags are the four low bits. -/
theorem entryFlags_bits :
    bitAt (entryFlags stray truncated gt lt range count) 0 = stray ∧
    bitAt (entryFlags stray truncated gt lt range count) 1 = truncated ∧
    bitAt (entryFlags stray truncated gt lt range count) 2 = gt ∧
    bitAt (entryFlags stray truncated gt lt range count) 3 = lt := by
  simp (disch := decide) only [bitAt_eq_b0_testBit, entryFlags, b0_bytes4]
  revert stray truncated gt lt
  decide

theorem b1_entryFlags : b1 (entryFlags stray truncated gt lt range count) = range % 256 := b1_bytes4 _ _ _ _

theorem hi_entryFlags : hi (entryFlags stray truncated gt lt range count) = count % 65536 := hi_bytes4_split _ _ _

end

/-! ## Keys and the key index (R144) -/

/-- The key of each kind. -/
theorem Finding.key_eq (f : Finding) :
    (f.kind = .opn ∨ f.kind = .hres ∨ f.kind = .misw ∨ f.kind = .xtra → f.key = ⟨f.kind, f.netA, pointField f.point⟩) ∧
    (f.kind = .shrt ∨ f.kind = .insl → f.key = ⟨f.kind, f.netA, f.netB⟩) ∧
    (f.kind = .brkd ∨ f.kind = .arc → f.key = ⟨f.kind, f.netA, 0⟩) := by
  unfold Finding.key keyOf
  cases f.kind <;> simp

/-- A lookup that finds a record finds a LIVE one with the key. -/
theorem lookupFrom_eq_some {k : Key} {rs : List KeyRec} {n i : Nat} (h : lookupFrom k n rs = some i) :
    n ≤ i ∧ rs[i - n]? = some ⟨k, true⟩ := by
  induction rs generalizing n with
  | nil => cases h
  | cons r rs ih =>
    unfold lookupFrom at h
    split at h
    next hr =>
      obtain rfl : n = i := Option.some.inj h
      obtain ⟨hlive, hkey⟩ := hr
      exact ⟨le_rfl, by rw [Nat.sub_self, List.getElem?_cons_zero, ← hkey, ← hlive]⟩
    next =>
      obtain ⟨hle, hget⟩ := ih h
      refine ⟨by omega, ?_⟩
      rwa [show i - n = (i - (n + 1)) + 1 by omega, List.getElem?_cons_succ]

theorem Manager.lookup_eq_some {m : Manager} {k : Key} {i : Nat} (h : m.lookup k = some i) :
    m.index[i]? = some ⟨k, true⟩ := (lookupFrom_eq_some h).2

theorem Manager.lookup_eq_none_iff (m : Manager) (k : Key) :
    m.lookup k = none ↔ ∀ r ∈ m.index, ¬(r.live = true ∧ r.key = k) := lookupFrom_eq_none_iff m.index 0

theorem absorbAt_eq_set {rs : List KeyRec} {i : Nat} {r : KeyRec} (h : rs[i]? = some r) :
    absorbAt i rs = rs.set i { r with live := false } := by
  induction rs generalizing i with
  | nil => cases h
  | cons a rs ih =>
    cases i with
    | zero => obtain rfl : a = r := Option.some.inj h; rfl
    | succ i => rw [absorbAt, ih (i := i) h, List.set_cons_succ]

/-- An append into a table with room, of a key that no LIVE record has (R146). -/
theorem Manager.append_eq {m : Manager} {k : Key} (hroom : m.used < m.cap) (hk : m.lookup k = none) :
    m.append k = { m with index := m.index ++ [⟨k, true⟩], used := m.used + 1, live := m.live + 1 } := if_pos ⟨hroom, hk⟩

/-- An absorption of a LIVE record (R149). -/
theorem Manager.absorb_eq {m : Manager} {i : Nat} {key : Key} (h : m.index[i]? = some ⟨key, true⟩) :
    m.absorb i = { m with
      index := m.index.set i ⟨key, false⟩, live := m.live - 1, absorbed := m.absorbed + 1 } := by
  have hlive : (m.index[i]?.any (·.live)) = true := by rw [h]; rfl
  rw [Manager.absorb, if_pos hlive, absorbAt_eq_set h]

/-! ## The counts agree with the index (R144) -/

/-- A table in agreement, with nothing read back. -/
theorem Manager.TableOk.ok {m : Manager} (h : m.TableOk) : ({ m with back := .none } : Manager).Ok :=
  ⟨h, by simp [Manager.BackOk, Readback.none, distinctLive]⟩

theorem Manager.append_back (m : Manager) (b : Readback) (k : Key) :
    ({ m with back := b } : Manager).append k = { m.append k with back := b } := by
  unfold Manager.append Manager.lookup
  split <;> rfl

theorem Manager.absorb_back (m : Manager) (b : Readback) (i : Nat) :
    ({ m with back := b } : Manager).absorb i = { m.absorb i with back := b } := by
  unfold Manager.absorb
  split <;> rfl

theorem Manager.TableOk.append {m : Manager} (h : m.TableOk) (k : Key) : (m.append k).TableOk := by
  have hok := Manager.ok_append h.ok k
  rw [Manager.append_back] at hok
  exact hok.1

theorem Manager.TableOk.absorb {m : Manager} (h : m.TableOk) (i : Nat) : (m.absorb i).TableOk := by
  have hok := Manager.ok_absorb h.ok i
  rw [Manager.absorb_back] at hok
  exact hok.1

/-! ## A finding arrives (R145 to R147) -/

section
variable {d : Dev} (f : Finding)

theorem Dev.finding_unbound (h : d.mgr.binding ≠ .bound) :
    d.finding f = { d with tasks := .findingEnd f .dropped :: d.tasks } := if_pos h

theorem Dev.finding_merges {i : Nat} (hb : d.mgr.binding = .bound) (hk : d.mgr.lookup f.key = some i) :
    d.finding f = { d with
      mgr := { d.mgr with state := .recording }, rbuf := []
      tasks := .read (d.mgr.entryOff i + 4) 1 :: .read (d.mgr.entryOff i + 16) 3 :: .mergeGot f i :: d.tasks } := by
  simp only [Dev.finding, if_neg (not_not.2 hb), hk]
  rfl

theorem Dev.finding_appends (hb : d.mgr.binding = .bound) (hk : d.mgr.lookup f.key = none) (hroom : d.mgr.used < d.mgr.cap) :
    d.finding f = { d with
      mgr := { d.mgr with state := .recording }
      tasks := .write (d.mgr.entryOff d.mgr.used) f.words :: .appended f :: d.tasks } := by
  simp only [Dev.finding, if_neg (not_not.2 hb), hk, if_pos hroom]
  rfl

theorem Dev.finding_drops (hb : d.mgr.binding = .bound) (hk : d.mgr.lookup f.key = none) (hfull : d.mgr.cap ≤ d.mgr.used) :
    d.finding f = { d with
      mgr := { d.mgr with state := .recording, dropped := d.mgr.drop.dropped }
      tasks := .write d.mgr.off d.mgr.drop.header :: .findingEnd f .dropped :: d.tasks } := by
  simp only [Dev.finding, if_neg (not_not.2 hb), hk, if_neg (Nat.not_lt.2 hfull)]
  rfl

/-! ## A finding is answered (R69, R91, R132) -/

theorem bump_eq_modify (i : Nat) (xs : List Nat) : bump i xs = xs.modify i (· + 1) := by
  induction xs generalizing i with
  | nil => cases i <;> rfl
  | cons x xs ih =>
    cases i with
    | zero => rfl
    | succ i => rw [bump, ih, List.modify_succ_cons]

theorem DKind.sweepIndex_eq {k : DKind} {j : Nat} (h : [DKind.opn, .hres, .misw, .shrt, .xtra][j]? = some k) :
    k.sweepIndex = j := by
  obtain ⟨hj, rfl⟩ := List.getElem?_eq_some_iff.1 h
  revert j
  decide

theorem Dev.findingEnd_insulate (a : FindAns) (ho : d.mgr.orphan = false) (hk : d.kind = some .insulate) :
    d.findingEnd f a = { d with mgr := { d.mgr with state := .idle }, ins := d.ins.count a } := by
  rw [Dev.findingEnd, if_neg (by simp [ho])]
  exact if_pos hk

theorem Dev.findingEnd_sweep (a : FindAns) (ho : d.mgr.orphan = false) (hk : d.kind ≠ some .insulate) :
    d.findingEnd f a = { d with mgr := { d.mgr with state := .idle }, sweep := d.sweep.count f.kind a } := by
  rw [Dev.findingEnd, if_neg (by simp [ho])]
  exact if_neg hk

end

/-! ## A merge (R145) -/

theorem worse_insl_iff (new old : Nat) (newLt oldLt : Bool) :
    worse .insl new old newLt oldLt = true ↔ (newLt = true ∧ oldLt = false) ∨ (newLt = oldLt ∧ new < old) := by
  cases newLt <;> cases oldLt <;> simp [worse]

theorem worse_iff {k : DKind} (hk : k ≠ .insl) (new old : Nat) (newLt oldLt : Bool) :
    worse k new old newLt oldLt = true ↔ old < new := by
  cases k
  case insl => exact absurd rfl hk
  all_goals exact decide_eq_true_iff

section
variable {f : Finding} {w1 w4 w5 r1 : Word} {rest : List Word} {wins : Bool} (h : mergedWords f w1 w4 w5 = (r1, rest))
  (hwins : wins = worse f.kind (valueField f.value).toNat w4.toNat f.lt (bitAt w1 3))
include h hwins

/-- Word 1 after a merge. -/
theorem mergedWords_flags : r1 = entryFlags (bitAt w1 0 || f.stray) (bitAt w1 1 || f.truncated)
    (if wins = true ∧ f.kind = .insl then false else bitAt w1 2) (if wins = true ∧ f.kind = .insl then f.lt else bitAt w1 3)
    (if wins = true then f.rng.code else b1 w1) (min 65535 (hi w1 + 1)) := by
  subst hwins
  simpa only [mergedWords, Bool.and_eq_true, decide_eq_true_eq] using (congrArg Prod.fst h).symm

/-- The flags after a merge: those of either value, and for INSL the markers of the worse one. -/
theorem mergedWords_bits : bitAt r1 0 = (bitAt w1 0 || f.stray) ∧ bitAt r1 1 = (bitAt w1 1 || f.truncated) ∧
    bitAt r1 2 = (if wins = true ∧ f.kind = .insl then false else bitAt w1 2) ∧
    bitAt r1 3 = (if wins = true ∧ f.kind = .insl then f.lt else bitAt w1 3) := by
  rw [mergedWords_flags h hwins]
  exact entryFlags_bits _ _ _ _ _ _

/-- Words 4, 5 and 6 after a merge. -/
theorem mergedWords_rest : rest = [if wins then valueField f.value else w4, mergedAux f w5, f.tag] := by
  subst hwins
  exact (congrArg Prod.snd h).symm

/-- The range code of a merge is the one of the worse value. -/
theorem mergedWords_range : b1 r1 = if wins = true then f.rng.code else b1 w1 := by
  have hcode := f.rng.code_le
  have hb1 : b1 w1 < 256 := Nat.mod_lt _ (by decide)
  rw [mergedWords_flags h hwins, b1_entryFlags]
  split <;> omega

theorem mergedWords_count : hi r1 = min 65535 (hi w1 + 1) := by
  rw [mergedWords_flags h hwins, hi_entryFlags]
  omega

end

/-! ## The steps of a merge, an append and an absorption (R145, R146, R149) -/

section
variable {d : Dev} (f : Finding)

theorem Dev.mergeGot_eq {i : Nat} {r1 : Word} {rest : List Word}
    (h : mergedWords f (d.word 0) (d.word 1) (d.word 2) = (r1, rest)) :
    d.mergeGot f i = { d with
      rbuf := []
      tasks := .write (d.mgr.entryOff i + 4) [r1] :: .write (d.mgr.entryOff i + 16) rest :: f.absorbs ++
        .findingEnd f .merged :: d.tasks } := by
  simp only [Dev.mergeGot, h, Dev.push, List.append_assoc, List.cons_append, List.nil_append]
  rfl

theorem Dev.appended_eq : d.appended f = { d with
    tasks := .write d.mgr.off (d.mgr.append f.key).header :: .raiseDefect f :: f.absorbs ++
      .findingEnd f .appended :: d.tasks } := by
  simp only [Dev.appended, Dev.push, List.append_assoc, List.cons_append, List.nil_append]

theorem Dev.raiseDefect_eq (ho : d.mgr.orphan = false) : d.raiseDefect f = { d with
    mgr := d.mgr.append f.key, attn := { d.attn with req := d.attn.req ||| srcBit 4 } } := by
  rw [Dev.raiseDefect, if_neg (by simp [ho])]
  rfl

/-- The writes of an absorption: the entry's state, then the header with the changed counts. -/
theorem Dev.absorbTasks_eq {i : Nat} {key : Key} (k : DKind) (h : d.mgr.index[i]? = some ⟨key, true⟩) :
    d.absorbTasks i k =
      [.write (d.mgr.entryOff i) [wordOf (k.code + 256 * 2)],
       .write d.mgr.off [wordOf d.mgr.used, wordOf (d.mgr.live - 1), wordOf (d.mgr.absorbed + 1), wordOf d.mgr.dropped],
       .absorbDone i] := by
  have hstate : entryState k false = wordOf (k.code + 256 * 2) := by cases k <;> decide
  rw [Dev.absorbTasks, Manager.absorb_eq h, hstate]
  rfl

theorem Dev.absorbOpen_found {i : Nat} (h : d.mgr.lookup ⟨.opn, f.netA, pointField f.point⟩ = some i) :
    d.absorbOpen f = { d with tasks := d.absorbTasks i .opn ++ .absorbShort f :: d.tasks } := by
  have h' : d.mgr.lookup (keyOf .opn f.netA 0 f.point) = some i := h
  simp only [Dev.absorbOpen, h', Dev.push, List.append_assoc, List.cons_append, List.nil_append]

theorem Dev.absorbOpen_none (h : d.mgr.lookup ⟨.opn, f.netA, pointField f.point⟩ = none) :
    d.absorbOpen f = { d with tasks := .absorbShort f :: d.tasks } := by
  have h' : d.mgr.lookup (keyOf .opn f.netA 0 f.point) = none := h
  simp only [Dev.absorbOpen, h']
  rfl

theorem Dev.absorbShort_found {i : Nat} (h : d.mgr.lookup ⟨.shrt, min f.netA f.aux, max f.netA f.aux⟩ = some i) :
    d.absorbShort f = { d with
      rbuf := [], tasks := .read (d.mgr.entryOff i + 12) 1 :: .absorbGot f i :: d.tasks } := by
  have h' : d.mgr.lookup (keyOf .shrt (min f.netA f.aux) (max f.netA f.aux) none) = some i := h
  simp only [Dev.absorbShort, h']
  rfl

theorem Dev.absorbShort_none (h : d.mgr.lookup ⟨.shrt, min f.netA f.aux, max f.netA f.aux⟩ = none) :
    d.absorbShort f = d := by
  have h' : d.mgr.lookup (keyOf .shrt (min f.netA f.aux) (max f.netA f.aux) none) = none := h
  simp only [Dev.absorbShort, h']

/-- The SHRT whose point is the MISW's own is absorbed, another stays (R149). -/
theorem Dev.absorbGot_eq (i : Nat) : d.absorbGot f i = { d with
    rbuf := [], tasks := (if lo (d.word 0) = pointField f.point then d.absorbTasks i .shrt else []) ++ d.tasks } := by
  unfold Dev.absorbGot
  split <;> rfl

end

/-! ## A clear (R150, R151) -/

theorem Dev.clear_bound {d : Dev} (h : d.mgr.binding = .bound) : d.clear = { d with
    mgr := { d.mgr with state := .clearing }
    engineQ := d.engineQ ++ [⟨d.mgr.off, 4, some [0, 0, 0, 0], true, true⟩], tasks := .cleared :: d.tasks, wait := .mem } := by
  rw [Dev.clear, if_neg (not_not.2 h)]
  rfl

/-- The counts' word of an emptied table. -/
theorem Dev.statusWords_empty (d : Dev) (st : MgrState) :
    (d.onMgr fun m => { m.empty with state := st }).statusWords.getD countsAt 0 = 0 := by
  have hused : Manager.shownUsed { d.mgr.empty with state := st } = 0 := ite_self 0
  have hlive : Manager.shownLive { d.mgr.empty with state := st } = 0 := ite_self 0
  change loHi (Manager.shownUsed { d.mgr.empty with state := st }) (Manager.shownLive { d.mgr.empty with state := st }) = 0
  rw [hused, hlive]
  rfl

theorem Dev.cleared_eq {d : Dev} (ho : d.mgr.orphan = false) : d.cleared = { d with
    mgr := { d.mgr.empty with state := .idle }
    engineQ := d.engineQ ++ if d.statusLive then [⟨0x34, 1, some [0], false, true⟩] else []
    statusImg := d.statusImg.set 5 0 } := by
  rw [Dev.cleared, if_neg (by simp [ho]), Dev.writeStatus_eq, Dev.statusWords_empty]
  rfl

theorem Dev.statusLive_iff (d : Dev) :
    d.statusLive = true ↔ d.reader.imageLive = true ∧ d.reader.state ≠ .stopped := by
  simp [Dev.statusLive]

theorem Dev.statusLive_eq_false_iff (d : Dev) :
    d.statusLive = false ↔ d.reader.imageLive = false ∨ d.reader.state = .stopped := by
  rw [Dev.statusLive, Bool.and_eq_false_iff, decide_eq_false_iff_not, not_not]

/-- Settles O58: each step of the manager by its own equation, the entry's words by their fields, the counts by what each
change keeps of the table's agreement. -/
theorem findingsAreRecorded : Obligations.FindingsAreRecorded := by
  refine ⟨fun q d f => ⟨Dev.finding_unbound f, fun hb => ⟨fun i => Dev.finding_merges f hb,
      fun hk hroom => ⟨Dev.finding_appends f hb hk hroom, rfl⟩, fun hk hfull n hn => ?drop⟩⟩,
    fun q d f idle ho hidle => ⟨fun j hk hj => ?sweepEnd, fun hk => ?insulateEnd⟩,
    fun m k => ⟨fun i => Manager.lookup_eq_some, Manager.lookup_eq_none_iff m k⟩,
    fun m h => ⟨h.append, h.absorb, h, (Manager.ok_empty h.ok).1⟩, (Manager.ok_fresh _ _ _ _ _ _).1,
    fun f w1 w4 w5 r1 rest wins hm hwins => ?merge,
    fun k new old newLt oldLt => ⟨fun hk => worse_iff hk new old newLt oldLt, worse_insl_iff new old newLt oldLt⟩, rfl,
    fun a b v aux p value r st tr lt tag x k f hx hf => ?entry,
    fun q d f m ab hab => ⟨fun i r1 rest h => ?mergeGot, fun hk hroom hm => ?append, fun i k steps hk hsteps => ?absorb,
      Dev.absorbOpen_none f, Dev.absorbShort_none f, fun h => if_pos h, Dev.clear_bound,
      fun hb ho counts hlive hdead => ?clear⟩⟩
  case drop => subst hn; exact Dev.finding_drops f hb hk hfull
  case sweepEnd =>
    have hstep : ∀ a, runTask q (.findingEnd f a) d = _ := fun a => Dev.findingEnd_sweep f a ho hk
    simp only [hstep, hidle, Sweep.count, DKind.sweepIndex_eq hj, bump_eq_modify, and_self]
  case insulateEnd =>
    subst hidle
    exact ⟨Dev.findingEnd_insulate f _ ho hk, Dev.findingEnd_insulate f _ ho hk, Dev.findingEnd_insulate f _ ho hk⟩
  case merge =>
    obtain ⟨hstray, htruncated, hgt, hlt⟩ := mergedWords_bits hm hwins
    refine ⟨mergedWords_count hm hwins, ?_, ?_, hgt, hlt, mergedWords_range hm hwins, ?_⟩
    · rw [hstray, Bool.or_eq_true]
    · rw [htruncated, Bool.or_eq_true]
    · rw [mergedWords_rest hm hwins, mergedAux]
      cases f.kind <;> rfl
  case entry =>
    have hx' : x = pointField p := by rw [hx]; cases p <;> rfl
    subst hx' hf
    obtain ⟨hpoint, hnets, hnet⟩ := Finding.key_eq ⟨k, a, b, p, value, r, st, tr, lt, aux, tag⟩
    obtain ⟨hstray, htruncated, hgt, hlt⟩ := entryFlags_bits st tr false lt r.code 1
    refine ⟨hpoint, hnets, hnet, _, _, _, _, _, rfl, ?_, b1_bytes4 _ _ _ _, hi_bytes4 _ _ _ _, hstray, htruncated, hgt, hlt,
      ?_, hi_entryFlags _ _ _ _ _ _, lo_loHi _ _, hi_loHi _ _, lo_loHi _ _, hi_loHi _ _, fun h => by rw [h]; rfl,
      fun h => by rw [h]; rfl⟩
    · rw [entryState, b0_bytes4]
      cases k <;> rfl
    · rw [b1_entryFlags]
      cases r <;> rfl
  case mergeGot => subst hab; exact Dev.mergeGot_eq f h
  case append =>
    have happend : d.mgr.append f.key = m := (Manager.append_eq hroom hk).trans hm.symm
    subst hab
    rw [← happend]
    exact ⟨Dev.appended_eq f, Dev.raiseDefect_eq f⟩
  case absorb =>
    have hsteps' : ∀ key, d.mgr.index[i]? = some ⟨key, true⟩ → d.absorbTasks i k = steps := fun key h =>
      (Dev.absorbTasks_eq k h).trans hsteps.symm
    refine ⟨fun ho hfound => ?_, fun hs hfound => Dev.absorbShort_found f hfound, fun hs hp hkey => ?_, fun hp => ?_,
      fun key h => ?_⟩
    · rw [← hsteps' _ (Manager.lookup_eq_some hfound), ho]
      exact Dev.absorbOpen_found f hfound
    · obtain ⟨key, h⟩ := hkey
      have hstep : runTask q (.absorbGot f i) d = _ := Dev.absorbGot_eq f i
      rw [hstep, if_pos hp, ← hsteps' key h, hs]
    · have hstep : runTask q (.absorbGot f i) d = _ := Dev.absorbGot_eq f i
      rw [hstep, if_neg hp]
      rfl
    · have hstep : runTask q (.absorbDone i) d = d.onMgr (Manager.absorb i) := rfl
      rw [hstep, Dev.onMgr, Manager.absorb_eq h]
  case clear =>
    have hcounts : counts = if d.statusLive = true then [⟨0x34, 1, some [0], false, true⟩] else [] := by
      cases hwritten : d.statusLive with
      | true =>
        obtain ⟨himage, hstate⟩ := (Dev.statusLive_iff d).1 hwritten
        exact hlive himage hstate
      | false => exact hdead ((Dev.statusLive_eq_false_iff d).1 hwritten)
    rw [hcounts]
    exact Dev.cleared_eq ho

end Sys2Proof.Machine

namespace Sys2Proof.Machine

/-! # The high-voltage source, its interlock and its discharge: what the operations do -/

/-! ## Every command but a hardware reset -/

/-- What every event and every run of the thread keeps, whatever the blocks are after a hardware reset. -/
def EventKept (P : Dev → Prop) : Prop :=
  (∀ q d, P d → P (d.settle q)) ∧ ∀ f, DevEvent f → ∀ d, P d → P (f d)

section
variable {P : Dev → Prop} (hP : EventKept P)
include hP

theorem EventKept.withDev {f : Dev → Dev} (hf : DevEvent f) {s : State} (h : P s.dev) : P (s.withDev f).dev :=
  hP.1 _ _ (hP.2 f hf _ h)

theorem EventKept.command {f : Dev → Dev} (hf : DevEvent f) {s : State} (h : P s.dev) : P (s.command f).dev :=
  State.ite_kept (hP.withDev hf h) h

theorem EventKept.attention (f : Attn → Attn) {s : State} (h : P s.dev) : P (s.attention f).dev :=
  State.ite_kept (hP.2 _ (.attention f) _ h) h

theorem EventKept.acceptWrite (off : Nat) (v : Word) {s : State} (h : P s.dev) : P (s.acceptWrite off v).dev :=
  hP.withDev (.notice off) h

theorem EventKept.actSoftReset {s : State} (h : P s.dev) : P s.actSoftReset.dev := hP.withDev .softReset h

/-- A held access is a write, a soft reset or a read, which leaves the blocks alone (R192, R195). -/
theorem EventKept.serveHeld {s : State} (h : P s.dev) : P s.serveHeld.dev := by
  unfold State.serveHeld
  split
  · exact State.ite_kept (hP.acceptWrite _ _ h) h
  · exact State.ite_kept (hP.actSoftReset h) h
  · exact h
  · exact h

theorem EventKept.drain {s : State} (h : P s.dev) : P s.drain.dev := by
  unfold State.drain
  split
  · exact h
  · exact hP.serveHeld h

theorem EventKept.grantEngine {s : State} (h : P s.dev) : P s.grantEngine.dev := by
  unfold State.grantEngine
  split
  · exact h
  · split
    · exact hP.withDev (.granted _ _ _) h
    · exact hP.withDev (.granted _ _ _) h

theorem EventKept.grant {s : State} (h : P s.dev) : P s.grant.dev := by
  refine State.ite_kept ?_ (State.ite_kept (hP.grantEngine h) h)
  unfold State.grantHost
  split
  · exact h
  · exact hP.drain h

/-- A command other than HARDWARE_RESET keeps what every event keeps. -/
theorem EventKept.exec {c : Instr} {s t : State} (hc : c ≠ .hardwareReset) (he : exec c s = .next t) (h : P s.dev) :
    P t.dev := by
  cases c <;> cases he
  case hardwareReset => exact absurd rfl hc
  case softReset => exact State.ite_kept (State.ite_kept (hP.actSoftReset h) h) h
  case start => exact State.ite_kept (hP.withDev (.start _) (State.ite_kept (a := s) h h)) h
  case halt => exact hP.command .halt h
  case resume => exact hP.command .resume h
  case abort => exact hP.command .abort h
  case poll => exact State.ite_kept (hP.attention _ h) h
  case ignoredRegisterWrite => exact h
  case hostWrite addr v => exact State.ite_kept (State.ite_kept (hP.acceptWrite _ _ h) h) h
  case hostRead addr =>
    refine State.ite_kept ?_ h
    split
    · exact h
    · exact h
  case arbiterGrant => exact hP.grant h
  case takeOrder => exact State.ite_kept (hP.withDev (.takeOrder _) (State.ite_kept (a := s) h h)) h
  case cardEcho => exact hP.withDev (.echo _) h
  case echoWindowExpiry => exact hP.withDev .echoMissing h
  case cardFrameEnd => exact hP.withDev .frameEnd h
  case releaseTimerExpiry => exact State.ite_kept (hP.withDev .releaseExpired h) h
  case settleTimerExpiry => exact State.ite_kept (hP.withDev .settleExpired h) h
  case offTimerExpiry => exact State.ite_kept (hP.withDev .offExpired h) h
  case unparkSettleExpiry => exact State.ite_kept (hP.withDev .unparkSettled h) h
  case converterSample => exact hP.withDev (.sample _ _ _) h
  case rampTimerExpiry => exact hP.withDev .rampExpired h
  case dwellTimerExpiry => exact hP.withDev .dwellExpired h
  case locateDwellExpiry => exact hP.withDev .locateDwellExpired h
  case trip => exact hP.withDev .trip h
  case arcPulse => exact hP.withDev .arcPulse h
  case dischargeTimerExpiry => exact hP.withDev .dischargeExpired h
  case interlockOpening => exact State.ite_kept h (hP.withDev .interlockOpens h)
  case interlockClosing => exact State.ite_kept (hP.withDev .interlockCloses h) h
  case formatLine => exact hP.withDev .formatLine h
  case characterFrameEnd => exact hP.withDev .frameOut h
  case printerReadyAsserted => exact hP.withDev (.setReady _) h
  case printerReadyReleased => exact hP.withDev (.setReady _) h
  case paperOutAsserted => exact hP.withDev (.setPaperOut _) h
  case paperOutReleased => exact hP.withDev (.setPaperOut _) h
  all_goals exact hP.attention _ h

end

/-! ## The lockout latch (R113, R114) -/

/-- A sample sets and clears no latch, and turns the source on by itself only where it was on. -/
theorem Hv.sample_latch (h : Hv) (code : Int) :
    (h.sample code).1.lockout = h.lockout ∧ ((h.sample code).1.sourceOn = true → h.sourceOn = true) := by
  unfold Hv.sample Hv.drain Hv.sourceOn
  dsimp only
  repeat' split
  all_goals simp_all

theorem Hv.latchOff_iff (h : Hv) : h.latchOff = true ↔ (h.lockout = true → h.sourceOn = false) := by
  cases hl : h.lockout <;> simp [Hv.latchOff, hl]

theorem Hv.coverOff_iff (h : Hv) : h.coverOff = true ↔ (h.openRec = true → h.sourceOn = false) := by
  cases ho : h.openRec <;> simp [Hv.coverOff, ho]

theorem Hv.sample_latchOff {h : Hv} (code : Int) (hoff : h.latchOff = true) : (h.sample code).1.latchOff = true := by
  obtain ⟨hlock, hon⟩ := h.sample_latch code
  rw [Hv.latchOff_iff] at hoff ⊢
  intro hl
  exact Bool.eq_false_iff.2 fun ht => Bool.eq_false_iff.1 (hoff (hlock ▸ hl)) (hon ht)

/-- No event clears the lockout latch. -/
theorem eventKept_lockout : EventKept fun d => d.hv.lockout = true := by
  refine ⟨fun q d h => Dev.settle_lockout q h, fun f hf d h => ?_⟩
  cases hf
  case sample x y z =>
    have := (d.hv.sample_latch y).1.trans h
    unfold Dev.sample; dsimp only; split <;> simp [this]
  case arcPulse => unfold Dev.arcPulse; dsimp only; (repeat' split) <;> simpa [Hv.countArc] using h
  case dischargeExpired =>
    unfold Dev.dischargeExpired
    split
    · simp [Hv.lockOut]
    · exact h
  all_goals simpa using h

/-- No event leaves the source on with the lockout latch set (R113, R114). -/
theorem kept_latchOff : Kept fun d => d.hv.latchOff = true := by
  refine ⟨fun q d h => Dev.settle_latchOff q h, fun f hf d h => ?_,
    fun d => by simp [Dev.hardwareReset, Dev.reset, Hv.latchOff, Hv.reset]⟩
  cases hf
  case sample x y z =>
    have := Hv.sample_latchOff y h
    unfold Dev.sample; dsimp only; split <;> simp [this]
  case arcPulse => unfold Dev.arcPulse; dsimp only; (repeat' split) <;> simp_all [Hv.latchOff, Hv.sourceOn, Hv.countArc]
  case dischargeExpired =>
    have : d.lockOut.hv.latchOff = true := by simp [Dev.lockOut, Hv.lockOut, Hv.latchOff, Hv.sourceOn]
    unfold Dev.dischargeExpired
    split
    · exact (Dev.wake_keeps _ _).2.2.2.1 ((Dev.wake_keeps _ _).2.2.2.1 ((Dev.faultArrives_keeps _).2.2.2.1 this))
    · exact h
  all_goals simp [h]

theorem Hv.sourceOn_iff (h : Hv) : h.sourceOn = true ↔ h.state = .ramp ∨ h.state = .dwell := by simp [Hv.sourceOn]

/-- Settles O7: no event clears the latch, and every step keeps the source off while the latch is set or the recorded
interlock is open. -/
theorem lockoutStaysUntilHardwareReset : Obligations.LockoutStaysUntilHardwareReset := by
  refine ⟨?stays, ?latchOff, rfl, ?coverOff, ?recorded, Hv.sourceOn_iff, ?refusals⟩
  case stays => exact fun c s t hc hl he => eventKept_lockout.exec hc he hl
  case latchOff =>
    intro s t h hs
    rw [← Hv.latchOff_iff] at h ⊢
    exact step_kept kept_latchOff hs h
  case coverOff =>
    intro s t h hs
    rw [← Hv.coverOff_iff] at h ⊢
    exact step_kept kept_coverOff hs h
  case recorded => exact fun s t h hs => step_kept kept_interlock hs h
  case refusals =>
    intro d hl
    refine ⟨?_, ?_, fun hm => ?_⟩
    · simp [Dev.rampAnswer, hl]
    · simp [Dev.safetyCond, hl]
    · simp [Dev.insulFault, hl, hm]

end Sys2Proof.Machine

namespace Sys2Proof.Machine

/-! ## ABORT by reader state (R185) -/

/-- Where the thread rests and everything follows the blocks, nothing is left to do. -/
theorem Dev.settle_still (q : List (Nat × Word)) {d : Dev} (hr : d.Resting) (hf : d.Follows) : d.settle q = d := by
  rw [Dev.settle_resting q hr, Dev.sync_of_follows hf]

/-- A command that the blocks take while the bus is free, once what it comes to is known. -/
theorem State.command_eq {f : Dev → Dev} {s : State} {d : Dev} (hw : s.hostWait = none) (h : f s.dev = d) :
    s.command f = { s with dev := d.settle s.hostQ } := by
  have hbus : s.busFree = true := by simp [State.busFree, hw]
  rw [State.command, if_pos hbus, State.withDev_eq h]

theorem exec_abort {s : State} {d : Dev} (hw : s.hostWait = none) (h : s.dev.abort = d) :
    exec .abort s = .next { s with dev := d.settle s.hostQ } :=
  congrArg Host.Outcome.next (State.command_eq hw h)

/-- An ABORT that leaves the thread at rest, with nothing of what is shown changed, comes to its own effect. -/
theorem exec_abort_still {s : State} {d : Dev} (hw : s.hostWait = none) (h : s.dev.abort = d) (hr : d.Resting)
    (hf : d.Follows) : exec .abort s = .next { s with dev := d } := by
  rw [exec_abort hw h, Dev.settle_still _ hr hf]

theorem Dev.orderIs_eq {d : Dev} {o : Order} (h : d.reader.order = some o) (st : OStatus) :
    d.orderIs st = decide (o.status = st) := by
  simp only [Dev.orderIs, h]

theorem Dev.orderIs_eq_false {d : Dev} {st : OStatus} (h : ∀ o, d.reader.order = some o → o.status ≠ st) :
    d.orderIs st = false := by
  cases ho : d.reader.order with
  | none => simp only [Dev.orderIs, ho]
  | some o => simp [Dev.orderIs_eq ho, h o ho]

theorem Dev.abort_taken {d : Dev} {o : Order} (hs : d.reader.state = .running) (ho : d.reader.order = some o)
    (ht : o.status = .taken) (he : d.reader.ending ≠ some .aborted) :
    d.abort = (d.onReader fun r => { r with ending := some .aborted }).stopArrives false := by
  have hi : d.orderIs .taken = true := by simp [Dev.orderIs_eq ho, ht]
  simp only [Dev.abort, hs, if_pos hi, if_neg he]

theorem Dev.abort_again {d : Dev} {o : Order} (hs : d.reader.state = .running) (ho : d.reader.order = some o)
    (ht : o.status = .taken) (he : d.reader.ending = some .aborted) : d.abort = d := by
  have hi : d.orderIs .taken = true := by simp [Dev.orderIs_eq ho, ht]
  simp only [Dev.abort, hs, if_pos hi, if_pos he]

/-- The pause being written is left where it is: the order ends instead. -/
theorem Dev.abort_pausing {d : Dev} {o : Order} (hs : d.reader.state = .running) (ho : d.reader.order = some o)
    (hp : o.status = .paused) :
    d.abort =
      { d.onReader fun r => { r with ending := some .aborted } with tasks := [.endOrder .failed .aborted], saved := [] } := by
  have ht : ¬d.orderIs .taken = true := by simp [Dev.orderIs_eq ho, hp]
  have hi : d.orderIs .paused = true := by simp [Dev.orderIs_eq ho, hp]
  simp only [Dev.abort, hs, if_neg ht, if_pos hi]

theorem Dev.abort_paused {d : Dev} {o : Order} (hs : d.reader.state = .halted) (ho : d.reader.order = some o)
    (hp : o.status = .paused) (hr : d.reader.resume = some .order) :
    d.abort = ({ d.onReader fun r => { r with resume := none } with saved := [] } : Dev).goto [.endOrder .failed .aborted] := by
  have hi : (d.orderIs .paused && decide (d.reader.resume = some .order)) = true := by simp [Dev.orderIs_eq ho, hp, hr]
  simp only [Dev.abort, hs, if_pos hi]

theorem Dev.abort_halts {d : Dev} (hs : d.reader.state = .running)
    (ho : ∀ o, d.reader.order = some o → o.status ≠ .taken ∧ o.status ≠ .paused) : d.abort = d.halt := by
  have ht : ¬d.orderIs .taken = true := by simp [Dev.orderIs_eq_false fun o h => (ho o h).1]
  have hp : ¬d.orderIs .paused = true := by simp [Dev.orderIs_eq_false fun o h => (ho o h).2]
  simp only [Dev.abort, hs, if_neg ht, if_neg hp]

theorem Dev.abort_ignored {d : Dev} (h : d.reader.state = .stopped ∨ d.reader.state = .waiting ∨
    (d.reader.state = .halted ∧ ∀ o, d.reader.order = some o → o.status ≠ .paused)) : d.abort = d := by
  obtain hs | hs | ⟨hs, hp⟩ := h
  · simp only [Dev.abort, hs]
  · simp only [Dev.abort, hs]
  · have hi : ¬(d.orderIs .paused && decide (d.reader.resume = some .order)) = true := by
      simp [Dev.orderIs_eq_false hp]
    simp only [Dev.abort, hs, if_neg hi]

/-- A thread that has nothing to do but to end its order issues the section and waits for it: the owner's IDLE and the status
come after (R181). -/
theorem Dev.settle_endOrder (q : List (Nat × Word)) {d e : Dev} {st : OStatus} {c : Code} {off : Nat} {ws : List Word}
    {ts : List Task} (hw : d.wait = .run) (ht : d.tasks = [.endOrder st c])
    (he : e = runTask q (.endOrder st c) { d.sync with tasks := [] }) (hew : e.wait = .run)
    (het : e.tasks = .write off ws :: ts) :
    d.settle q = (Dev.issueWrite off ws { e.sync with tasks := ts }).sync := by
  have hnext : settleFor q 19999 e.sync = settleFor q 19998 (runTask q (.write off ws) { e.sync with tasks := ts }).sync :=
    settleFor_next q 19999 (by decide) (by rwa [Dev.sync_wait]) (by rwa [Dev.sync_tasks])
  rw [Dev.settle_next q hw ht, ← he, hnext]
  exact settleFor_resting q _ (.inl (by simp [runTask]))

/-- An INSULATE that ends gives back the pause mark (R139). -/
theorem Dev.releaseOwner_pauseMark (st : OStatus) {d : Dev} (h : d.kind = some .insulate) :
    (d.releaseOwner st).hv.pauseMark = false := by
  unfold Dev.releaseOwner
  dsimp only
  split <;> split <;> simp [h]

/-- Settles O27, by reader state and by the status of the order it holds. -/
theorem abortActs : Obligations.AbortActs := by
  intro s hbus
  refine ⟨fun o hs ho ht => ⟨fun he hf hw => ?taken, fun he hf hr => ?second⟩, fun o hs ho hp hw hf => ?pausing,
    fun o hs ho hp hr => ?paused, fun hs ho => ?halts, fun h hf hr => ?ignored⟩
  case taken =>
    obtain ⟨d, hd⟩ : ∃ d : Dev, d = s.dev.onReader fun r => { r with ending := some .aborted } := ⟨_, rfl⟩
    have hwd : d.wait = s.dev.wait := by rw [hd]; rfl
    have hmarks : d.stopArrives false = d := by
      rw [← hwd] at hw
      obtain hw | hw | hw | hw := hw <;> simp [Dev.stopArrives, hw]
    have hrest : d.wait ≠ .run := by
      rw [hwd]
      obtain hw | hw | hw | hw := hw <;> simp [hw]
    have habort : s.dev.abort = d := (Dev.abort_taken hs ho ht he).trans (hd ▸ hmarks)
    rw [exec_abort_still hbus habort (.inl hrest) (hd ▸ hf), hd]
    rfl
  case second => exact exec_abort_still hbus (Dev.abort_again hs ho ht he) hr hf
  case pausing => exact exec_abort_still hbus (Dev.abort_pausing hs ho hp) (.inl hw) hf
  case paused =>
    refine ⟨_, exec_abort hbus (Dev.abort_paused hs ho hp hr), ?_⟩
    obtain ⟨d, hd⟩ : ∃ d : Dev, d =
      ({ s.dev.onReader fun r => { r with resume := none } with saved := [] } : Dev).goto [.endOrder .failed .aborted] :=
      ⟨_, rfl⟩
    obtain ⟨e, he⟩ : ∃ e, e = runTask s.hostQ (.endOrder .failed .aborted) { d.sync with tasks := [] } := ⟨_, rfl⟩
    have ho' : ({ d.sync with tasks := [] } : Dev).reader.order = some o := by simpa [hd] using ho
    have hended : { o with status := .failed, freeBase := if o.status = .paused then o.freeBase else d.sync.free } =
        { o with status := .failed } := by rw [if_pos hp]
    have htail : ∀ k base, ({ d.sync with tasks := [] } : Dev).resultTail k base = s.dev.resultTail k base := fun k base =>
      Dev.resultTail_congr (sw := s.dev.sweep.state) (si := s.dev.ins.state) (sf := s.dev.fmt.state)
        (by simp [hd]) (by simp [hd]) (by simp [hd]) (by simp [hd]) (by simp [hd]) (by simp [hd]) k base
    obtain ⟨htasks, hreader, -⟩ := orderEndsAndPauses.1 s.hostQ _ o _ .failed .aborted _ ho' hended.symm rfl
    have hew : e.wait = .run := by
      rw [he]
      show (Dev.endOrder _ _ _).wait = _
      rw [Dev.endOrder_eq ho']
      rfl
    rw [← he] at htasks hreader
    rw [← hd]
    simp only [htail] at htasks
    rw [Dev.settle_endOrder s.hostQ (by rw [hd]; rfl) (by rw [hd]; rfl) he hew htasks]
    refine ⟨?_, ?_, ?_, ?_, ?_⟩
    · simp [hreader]
    · simp
    · simp
    · intro ws hws b hb
      subst hws
      simp only [Dev.sync_engineQ, Dev.issueWrite_engineQ, List.mem_append]
      exact .inl (.inr hb)
    · intro hk
      have hmark : e.hv.pauseMark = false := by
        rw [he]
        show (Dev.endOrder _ _ _).hv.pauseMark = _
        rw [Dev.endOrder_eq ho', Dev.goto_hv]
        exact Dev.releaseOwner_pauseMark _ (by rw [Dev.setStatus_eq ho']; exact hk)
      simp [hmark]
  case halts =>
    have heq : s.command Dev.abort = s.command Dev.halt := by
      rw [State.command_eq hbus (Dev.abort_halts hs ho), State.command_eq hbus rfl]
    exact congrArg Host.Outcome.next heq
  case ignored => exact exec_abort_still hbus (Dev.abort_ignored h) hr hf

end Sys2Proof.Machine

namespace Sys2Proof.Machine

/-! ## What a sample is reported as (R105, R107) -/

theorem Hv.sample_recharged {h : Hv} {code : Int} (hs : h.state = .off) (hc : 600 ≤ code) :
    h.sample code = ({ h with lastHvv := code }, .recharged) := by
  simp [Hv.sample, hs, Config.safeCode, Int.not_lt.2 hc]

theorem Hv.sample_offReached {h : Hv} {code : Int} (hs : h.state = .discharge ∨ h.state = .lockout) (hc : code < 600)
    (hb : h.below ≠ 0) :
    h.sample code = ({ h with
      lastHvv := code, state := .off, dischT := none, below := 0
      ask := if h.ask = .waiting then .off else h.ask }, .offReached) := by
  obtain hs | hs := hs <;> simp [Hv.sample, Hv.drain, hs, Config.safeCode, hc, hb]

theorem Hv.sample_rampEnded {h : Hv} {code : Int} (hs : h.state = .ramp) (hk : h.check = false)
    (hc : 98 * (h.volts : Int) ≤ 5 * code) :
    h.sample code = ({ h with
      lastHvv := code, state := .dwell, setpoint := h.volts * 10000, rampN := h.rampN + 1, rampT := none }, .rampEnded) := by
  simp [Hv.sample, hs, hk, rampEnds, hc]

theorem Dev.wake_eq (w : Wait) (d : Dev) : d.wake w = { d with wait := if d.wait = w then .run else d.wait } := by
  unfold Dev.wake
  split <;> rfl

/-- A window of the step, or of the ramp check, ends without an answer, and no other measurement does (R108). -/
theorem MeasUnit.cancelWindow_eq {m u : MeasUnit}
    (hw : ∀ x, m.job = some x → x.kind = .window ∨ x.kind = .rampCheck →
      u = { m with state := .idle, stim := .none, route := .buses, job := none })
    (ho : (∀ x, m.job = some x → x.kind ≠ .window ∧ x.kind ≠ .rampCheck) → u = m) : m.cancelWindow = u := by
  unfold MeasUnit.cancelWindow
  split
  · rename_i j hj
    by_cases hk : j.kind = .window ∨ j.kind = .rampCheck
    · rw [if_pos hk]; exact (hw j hj hk).symm
    · rw [if_neg hk]
      refine (ho fun x hx => ?_).symm
      obtain rfl := Option.some.inj (hj.symm.trans hx)
      exact not_or.1 hk
  · rename_i hj
    exact (ho fun x hx => by rw [hj] at hx; cases hx).symm

/-! ## The measurement takes the sample (R25, R32) -/

/-- What the requester of a measurement that has ended does; with none ended nothing. -/
def Dev.goOn (k : Option JobKind) (d : Dev) : Dev :=
  match k with
  | none => d
  | some k => d.measured k

theorem Dev.sample_eq (diff hvv hvi : Int) (d : Dev) :
    d.sample diff hvv hvi = Dev.goOn (d.mu.sample diff hvv hvi).2
      (Dev.hvReport (d.hv.sample hvv).2 { d with mu := (d.mu.sample diff hvv hvi).1, hv := (d.hv.sample hvv).1 }) := by
  unfold Dev.sample Dev.goOn
  dsimp only
  split <;> simp [*]

/-- The requester that waits for the answer goes on; a bus pair and the ramp check end (R20, R108). -/
theorem Dev.goOn_some (k : JobKind) :
    Dev.goOn (some k) = (match k with
      | .pair k => fun d => d.pairEnd k d.mu.ans.connected
      | .rampCheck => Dev.rampChecked
      | _ => fun d => if d.wait = .meas then { d with wait := .run } else d) := by
  cases k <;> rfl

theorem JobKind.state_eq (k : JobKind) :
    (if k.state = .zeroing then MUState.zeroing else .idle) = (match k with | .zero _ => .zeroing | _ => .idle) := by
  cases k <;> rfl

/-- An autoranged measurement that is over-range goes to the next lower current, from L to none (R36). -/
theorem Job.nextRange_iff (j : Job) (r : Rng) :
    j.nextRange = some r ↔
      (∃ ca cb, j.kind = .twoPoint true ca cb) ∧ j.sat = true ∧ (j.rng = .h ∧ r = Rng.m ∨ j.rng = .m ∧ r = Rng.l) := by
  constructor
  · intro h
    have hk : ∃ ca cb, j.kind = .twoPoint true ca cb := by
      by_contra hne
      rw [Job.nextRange_of_not_auto fun ca cb hk => hne ⟨ca, cb, hk⟩] at h
      cases h
    obtain ⟨ca, cb, hk⟩ := hk
    have hs : j.sat = true := by
      by_contra hne
      rw [Job.nextRange_last (.inl (Bool.eq_false_iff.2 hne))] at h
      cases h
    refine ⟨⟨ca, cb, hk⟩, hs, ?_⟩
    cases hr : j.rng <;> simp_all [Job.nextRange]
  · rintro ⟨⟨ca, cb, hk⟩, hs, hr⟩
    exact Job.nextRange_lower hk hs hr

theorem Job.nextRange_eq_none_iff (j : Job) :
    j.nextRange = none ↔
      ¬((∃ ca cb, j.kind = .twoPoint true ca cb) ∧ j.sat = true ∧ (j.rng = .h ∨ j.rng = .m)) := by
  rw [Option.eq_none_iff_forall_ne_some]
  simp only [ne_eq, Job.nextRange_iff]
  constructor
  · rintro h ⟨hk, hs, hr | hr⟩
    · exact h .m ⟨hk, hs, .inl ⟨hr, rfl⟩⟩
    · exact h .l ⟨hk, hs, .inr ⟨hr, rfl⟩⟩
  · rintro h r ⟨hk, hs, hr⟩
    exact h ⟨hk, hs, hr.imp And.left And.left⟩

/-- What the unit computes of a sample is what `Takes` says. -/
theorem MeasUnit.takes_sample (u : MeasUnit) (diff hvv hvi : Int) :
    u.Takes diff hvv hvi (u.sample diff hvv hvi).1 (Dev.goOn (u.sample diff hvv hvi).2) := by
  cases hj : u.job with
  | none =>
    rw [MeasUnit.sample_idle _ _ _ hj]
    exact .inl ⟨hj, rfl, rfl⟩
  | some j =>
    refine .inr ⟨j, j.add diff hvv hvi, _, _, hj, rfl, rfl, Job.add_eq j diff hvv hvi, ?_⟩
    by_cases hn : j.got + 1 < j.n
    · rw [MeasUnit.sample_grows hj hn]
      exact .inl ⟨hn, rfl, rfl⟩
    · have hn := Nat.not_lt.1 hn
      cases hr : (j.add diff hvv hvi).nextRange with
      | some r =>
        obtain ⟨⟨ca, cb, hk⟩, hs, hrng⟩ := (Job.nextRange_iff _ r).1 hr
        rw [MeasUnit.sample_repeats hj hn hr]
        exact .inr (.inl ⟨hn, ca, cb, r, hk, hs, hrng, rfl, rfl⟩)
      | none =>
        rw [MeasUnit.sample_ends hj hn hr rfl]
        exact .inr (.inr ⟨hn, (Job.nextRange_eq_none_iff _).1 hr,
          congrArg (fun st => u.answered st _) (JobKind.state_eq j.kind), Dev.goOn_some j.kind⟩)

/-- `Takes` leaves nothing open: it says what the unit computes. -/
theorem MeasUnit.eq_of_takes {u : MeasUnit} {diff hvv hvi : Int} {m : MeasUnit} {go : Dev → Dev}
    (h : u.Takes diff hvv hvi m go) : m = (u.sample diff hvv hvi).1 ∧ go = Dev.goOn (u.sample diff hvv hvi).2 := by
  obtain ⟨hj, rfl, rfl⟩ | ⟨j, j', x, sat, hj, rfl, rfl, hj', hcase⟩ := h
  · rw [MeasUnit.sample_idle _ _ _ hj]
    exact ⟨rfl, rfl⟩
  · rw [← Job.add_eq j diff hvv hvi] at hj'
    subst hj'
    obtain ⟨hn, rfl, rfl⟩ | ⟨hn, ca, cb, r, hk, hs, hr, rfl, rfl⟩ | ⟨hn, hlast, rfl, rfl⟩ := hcase
    · rw [MeasUnit.sample_grows hj hn]
      exact ⟨rfl, rfl⟩
    · rw [MeasUnit.sample_repeats hj hn (Job.nextRange_lower hk hs hr)]
      exact ⟨rfl, rfl⟩
    · rw [MeasUnit.sample_ends hj hn ((Job.nextRange_eq_none_iff _).2 hlast) rfl]
      exact ⟨congrArg (fun st => u.answered st _) (JobKind.state_eq j.kind).symm, (Dev.goOn_some j.kind).symm⟩

/-- A sample at the part: the HV controller's report brings its effect about, then the measurement's requester goes on. -/
theorem exec_sample {s : State} {diff hvv hvi : BitVec 16} {m : MeasUnit} {go : Dev → Dev} {h : Hv} {r : HvReport} {d : Dev}
    (ht : s.dev.mu.Takes diff.toInt hvv.toInt hvi.toInt m go) (hh : s.dev.hv.sample hvv.toInt = (h, r))
    (hd : Dev.hvReport r { s.dev with mu := m, hv := h } = d) :
    exec (.converterSample diff hvv hvi) s = .next { s with dev := Dev.settle s.hostQ (go d) } := by
  obtain ⟨hm, hgo⟩ := MeasUnit.eq_of_takes ht
  rw [exec_converterSample, State.withDev_eq (Dev.sample_eq _ _ _ _), hh, ← hm, ← hgo, hd]

theorem Hv.switchClosed_iff (h : Hv) : h.switchClosed = true ↔ h.sourceOn = false := by simp [Hv.switchClosed]

/-- Settles O46, by the state of the HV controller and the side of its threshold that the sample is on. -/
theorem hvvSamplesDecide : Obligations.HvvSamplesDecide := by
  refine ⟨fun h => ⟨Hv.sourceOn_iff h, Hv.switchClosed_iff h⟩, fun d => by simp [Dev.discharged],
    fun u diff hvv hvi => ⟨_, _, u.takes_sample diff hvv hvi⟩, fun s diff hvv hvi h m go ht hh => ?_⟩
  subst hh
  refine ⟨fun hs => ?quiet, fun hs hc hl u hw ho => ?recharged, fun hs hc hl => ?rechargedLocked,
    fun hs => ⟨fun hc => ?above, fun hc hb => ?firstBelow, fun hc hb => ?secondBelow⟩,
    fun hs => ⟨fun hk hc => ?rampEnded, fun hk => ?ramping⟩⟩
  case quiet => exact exec_sample ht (Hv.sample_notes (.inl ⟨hs, rfl⟩)) rfl
  case recharged =>
    refine exec_sample ht (Hv.sample_recharged hs hc) ?_
    obtain rfl := MeasUnit.cancelWindow_eq hw ho
    exact if_neg (Bool.eq_false_iff.1 hl)
  case rechargedLocked => exact exec_sample ht (Hv.sample_recharged hs hc) (if_pos hl)
  case above => exact exec_sample ht (Hv.sample_notes (.inr (.inl ⟨hs, .inl ⟨hc, rfl⟩⟩))) rfl
  case firstBelow => exact exec_sample ht (Hv.sample_notes (.inr (.inl ⟨hs, .inr ⟨hc, hb, rfl⟩⟩))) rfl
  case secondBelow => exact exec_sample ht (Hv.sample_offReached hs hc hb) rfl
  case rampEnded => exact exec_sample ht (Hv.sample_rampEnded hs hk hc) (Dev.wake_eq _ _)
  case ramping => exact exec_sample ht (Hv.sample_notes (.inr (.inr ⟨hs, hk, rfl⟩))) rfl

end Sys2Proof.Machine

namespace Sys2Proof.Machine

/-! ## The ramp timer (R108) -/

/-- The duration is the quotient rounded up, plus 100 ms. -/
theorem rampTimeout_eq {v rate n : Nat} (hr : 0 < rate) (hlt : n * rate < 2000 * v + rate) (hle : 2000 * v ≤ n * rate) :
    rampTimeout v rate = n + 100 := by
  have hdiv : (2000 * v + rate - 1) / rate = n := by
    rw [Nat.div_eq_iff hr]
    constructor
    · omega
    · omega
  rw [rampTimeout, hdiv]

/-! ## The energized step abandoned, and entered (R106, R107, R134, R137) -/

theorem Hv.sourceOn_of {h : Hv} (hs : h.state = .ramp ∨ h.state = .dwell) : h.sourceOn = true := (Hv.sourceOn_iff h).2 hs

theorem Insul.locating_group {s : Insul} (hl : s.locPhase = .none) : s.locating = false := by simp [Insul.locating, hl]

theorem Insul.locating_probe {s : Insul} (hl : s.locPhase ≠ .none) : s.locating = true := by simp [Insul.locating, hl]

/-- The step that is made again: the group's setup, or the probe's. -/
def Insul.restart (s : Insul) : Task := if s.locPhase = .none then .groupSetup else .locProbe s.subset

theorem Insul.restart_eq (s : Insul) :
    (if s.locating then [Task.locProbe s.subset] else [Task.groupSetup]) = [s.restart] := by
  by_cases hl : s.locPhase = .none <;> simp [Insul.locating, Insul.restart, hl]

/-- The source that is on is dropped and DISCHARGE asked for; the order stops when OFF is reached and makes the step again. -/
theorem Dev.abandonStep_eq {d : Dev} (hs : d.hv.state = .ramp ∨ d.hv.state = .dwell) :
    d.abandonStep = { d with
      hv := { d.hv with
        state := .discharge, setpoint := 0, rampT := none, check := false, armed := false
        dischT := some d.cfg.dischTimeout, below := 0, ask := .waiting }
      mu := d.mu.cancelWindow
      ins := { d.ins with dwellT := none }
      tasks := .waitOff false :: .safe :: d.ins.restart :: afterStepEnd d.tasks
      wait := .run } := by
  rw [Dev.abandonStep, Dev.askDischarge_sourceOn (Hv.sourceOn_of hs), Insul.restart_eq]
  rfl

theorem afterStepEnd_append {pre : List Task} (h : Task.stepEnd ∉ pre) (rest : List Task) :
    afterStepEnd (pre ++ .stepEnd :: rest) = rest := by
  induction pre with
  | nil => rfl
  | cons t pre ih =>
    obtain ⟨ht, hpre⟩ := not_or.1 (mt List.mem_cons.2 h)
    rw [List.cons_append, afterStepEnd]
    · exact ih hpre
    · exact fun he => ht he.symm

/-! ## The checks of a ramp request, in their order (R106) -/

section
variable {d : Dev}

theorem Dev.rampAnswer_lockout (hl : d.hv.lockout = true) : d.rampAnswer = .lockout := by
  simp [Dev.rampAnswer, hl]

theorem Dev.rampAnswer_interlock (hl : d.hv.lockout = false) (ho : d.hv.openRec = true) : d.rampAnswer = .interlock := by
  simp [Dev.rampAnswer, hl, ho]

variable (hl : d.hv.lockout = false) (ho : d.hv.openRec = false)
include hl ho

theorem Dev.rampAnswer_parked (hm : d.mx.usable = false) : d.rampAnswer = .parked := by
  simp [Dev.rampAnswer, hl, ho, hm]

theorem Dev.rampAnswer_held (hm : d.mx.usable = true) (hs : d.hv.state ≠ .off) : d.rampAnswer = .held := by
  simp [Dev.rampAnswer, hl, ho, hm, hs]

theorem Dev.rampAnswer_taken (hm : d.mx.usable = true) (hs : d.hv.state = .off) : d.rampAnswer = .taken := by
  simp [Dev.rampAnswer, hl, ho, hm, hs]

end

/-- The step of the thread that asks for the ramp (R125). -/
def Dev.checking (d : Dev) : Dev := d.onIns (Insul.enter .check 2 .ramp)

/-- The ramp request taken: RAMP with the step's values, which the thread waits for (R107). -/
def Dev.ramping (d : Dev) : Dev :=
  { (d.checking.onHv (Hv.takeRamp d.ins.gVolts d.ins.rate d.ins.trip d.ins.arcLimit)).onIns
      (Insul.enter .ramp 3 .ramp) with wait := .ramp }

section
variable {d : Dev}

theorem Dev.rampReq_lockout (h : d.rampAnswer = .lockout) :
    d.rampReq = d.checking.failOrder (d.reader.ending.getD .hvLockout) := by
  simp only [Dev.rampReq, h]; rfl

theorem Dev.rampReq_parked (h : d.rampAnswer = .parked) :
    d.rampReq = d.checking.failOrder (d.reader.ending.getD .matrixParked) := by
  simp only [Dev.rampReq, h]; rfl

theorem Dev.rampReq_interlockEnds {c : Code} (h : d.rampAnswer = .interlock) (he : d.reader.ending = some c) :
    d.rampReq = d.checking.failOrder c := by
  simp only [Dev.rampReq, h, he]; rfl

theorem Dev.rampReq_interlockPauses (h : d.rampAnswer = .interlock) (he : d.reader.ending = none) :
    d.rampReq = ((d.checking.onHv fun h => { h with pauseMark := true }).onIns fun s => { s with reason := .interlock }).push
      [.safe, .rampReq] := by
  simp only [Dev.rampReq, h, he]; rfl

theorem Dev.rampReq_held (h : d.rampAnswer = .held) :
    d.rampReq = { d.checking.push [.rampReq] with wait := .rampHeld } := by
  simp only [Dev.rampReq, h]; rfl

theorem Dev.rampReq_taken (h : d.rampAnswer = .taken) :
    d.rampReq = if d.stopWanted then d.ramping.abandonStep else d.ramping := by
  simp only [Dev.rampReq, h]; rfl

end

theorem Insul.enter_restart (st : InsState) (n : Nat) {ph : LocPhase} (hph : ph ≠ .none) (s : Insul) :
    (s.enter st n ph).restart = s.restart := by
  by_cases hl : s.locPhase = .none <;> simp [Insul.enter, Insul.locating, Insul.restart, hl, hph]

/-- The step taken with a HALT or an ABORT pending is made again: the group, or the probe. -/
theorem Dev.ramping_restart (d : Dev) : d.ramping.ins.restart = d.ins.restart := by
  show ((d.ins.enter .check 2 .ramp).enter .ramp 3 .ramp).restart = _
  rw [Insul.enter_restart _ _ (by decide), Insul.enter_restart _ _ (by decide)]

/-! ## The timers (R108, R127, R134) -/

theorem exec_rampTimerExpiry (s : State) : exec .rampTimerExpiry s = .next (s.withDev Dev.rampExpired) := rfl
theorem exec_dwellTimerExpiry (s : State) : exec .dwellTimerExpiry s = .next (s.withDev Dev.dwellExpired) := rfl
theorem exec_locateDwellExpiry (s : State) : exec .locateDwellExpiry s = .next (s.withDev Dev.locateDwellExpired) := rfl

/-- The ramp check begins: a window of 10 samples at L3, with the source on. -/
theorem Dev.rampExpired_checks {d : Dev} (hs : d.hv.state = .ramp) (ht : d.hv.rampT ≠ none) :
    d.rampExpired = ((d.onHv fun h => { h with rampT := none, check := true }).noteUnzeroed).startJob .rampCheck .l3 10 :=
  if_pos ⟨hs, Option.isSome_iff_ne_none.2 ht⟩

theorem Dev.rampExpired_ignored {d : Dev} (h : d.hv.state ≠ .ramp ∨ d.hv.rampT = none) : d.rampExpired = d := by
  refine if_neg fun hc => ?_
  obtain ⟨hs, ht⟩ := hc
  exact h.elim (absurd hs) (absurd · (Option.isSome_iff_ne_none.1 ht))

/-- A window that begins before the dwell's end leaves the timer running (R127). -/
theorem Insul.atWindowPoint_group {s : Insul} (hl : s.locPhase = .none) (hw : 1 ≤ s.window) :
    s.atWindowPoint = { s with dwellT := if s.window ≤ s.dwell then s.dwellT else none } := by
  have hloc := Insul.locating_group hl
  by_cases hle : s.window ≤ s.dwell
  · have hpoint : ¬s.dwell - s.window = s.dwell := by omega
    simp [Insul.atWindowPoint, Insul.windowPoint, Insul.dwellTime, hloc, hle, hpoint]
  · simp [Insul.atWindowPoint, Insul.windowPoint, Insul.dwellTime, hloc, hle]

theorem Insul.atWindowPoint_probe {s : Insul} (hl : s.locPhase ≠ .none) (hw : 1 ≤ s.locDwell) : s.atWindowPoint = s := by
  have hloc := Insul.locating_probe hl
  have hpoint : ¬s.windowPoint = s.dwellTime := by
    simp only [Insul.windowPoint, Insul.dwellTime, hloc, if_true]
    omega
  simp [Insul.atWindowPoint, hpoint]

theorem Dev.dwellExpired_ignored {d : Dev} (h : d.wait ≠ .dwell ∨ d.ins.locPhase ≠ .none) : d.dwellExpired = d := by
  refine if_neg fun hc => ?_
  obtain ⟨hw, hl⟩ := hc
  exact h.elim (absurd hw) fun hp => by rw [Insul.locating_probe hp] at hl; cases hl

theorem Dev.locateDwellExpired_ignored {d : Dev} (h : d.wait ≠ .dwell ∨ d.ins.locPhase = .none) :
    d.locateDwellExpired = d := by
  refine if_neg fun hc => ?_
  obtain ⟨hw, hl⟩ := hc
  exact h.elim (absurd hw) fun hp => by rw [Insul.locating_group hp] at hl; cases hl

/-- Settles O48: the request by the answer that its checks give, the timers by the wait they find. -/
theorem rampRequestsAndTimers : Obligations.RampRequestsAndTimers := by
  refine ⟨fun v rate n hr hlt hle => rampTimeout_eq hr hlt hle, fun q d e hw he => ?request, fun s => ?timers⟩
  case request =>
    have he : e = d.rampReq := he
    subst he
    refine ⟨fun hl => ?lockout, fun hl => ⟨fun ho hn => ?pauses, fun c ho hc => ?ends, fun ho =>
      ⟨fun hm => ?parked, fun hr hp => ⟨fun hs => ?held, fun hs hh hn => ?taken, fun pre rest hs hstop ht hpre => ?dropped⟩⟩⟩⟩
    case lockout =>
      rw [Dev.rampReq_lockout (Dev.rampAnswer_lockout hl)]
      exact ⟨rfl, rfl⟩
    case pauses =>
      rw [Dev.rampReq_interlockPauses (Dev.rampAnswer_interlock hl ho) hn]
      exact ⟨rfl, rfl, rfl⟩
    case ends =>
      rw [Dev.rampReq_interlockEnds (Dev.rampAnswer_interlock hl ho) hc]
      exact ⟨rfl, rfl⟩
    case parked =>
      have hu : d.mx.usable = false := Bool.eq_false_iff.2 fun hu => by
        obtain ⟨hr, hp⟩ := (Matrix.usable_iff _).1 hu
        simp [hr, hp] at hm
      rw [Dev.rampReq_parked (Dev.rampAnswer_parked hl ho hu)]
      exact ⟨rfl, rfl⟩
    case held =>
      rw [Dev.rampReq_held (Dev.rampAnswer_held hl ho ((Matrix.usable_iff _).2 ⟨hr, hp⟩) hs)]
      exact ⟨rfl, rfl, rfl⟩
    case taken =>
      rw [Dev.rampReq_taken (Dev.rampAnswer_taken hl ho ((Matrix.usable_iff _).2 ⟨hr, hp⟩) hs),
        if_neg (Bool.eq_false_iff.1 (Dev.stopWanted_false hh hn))]
      exact ⟨rfl, rfl, rfl⟩
    case dropped =>
      rw [Dev.rampReq_taken (Dev.rampAnswer_taken hl ho ((Matrix.usable_iff _).2 ⟨hr, hp⟩) hs),
        if_pos (Dev.stopWanted_true hstop), Dev.abandonStep_eq (.inl rfl), Dev.ramping_restart]
      have hafter : afterStepEnd d.ramping.tasks = rest := by
        show afterStepEnd d.tasks = rest
        rw [ht, afterStepEnd_append hpre]
      rw [hafter]
      exact ⟨rfl, rfl, rfl, rfl⟩
  case timers =>
    refine ⟨fun hs ht hz => ?checks, fun hs ht hz hr => ?unzeroed, fun h => ?noRamp, fun hw hl hwin => ?window,
      fun hw hl hwin => ?probe, fun h => ?noDwell, fun h => ?noProbe⟩
    case checks =>
      rw [exec_rampTimerExpiry, State.withDev_eq (Dev.rampExpired_checks hs ht)]
      have hnote : (s.dev.onHv fun h => { h with rampT := none, check := true }).noteUnzeroed =
          s.dev.onHv fun h => { h with rampT := none, check := true } := if_pos hz
      rw [hnote]
      rfl
    case unzeroed =>
      obtain ⟨d, hd⟩ : ∃ d, d = ((s.dev.onHv fun h => { h with rampT := none, check := true }).onOrder fun o =>
        { o with unzeroed := true }).startJob .rampCheck .l3 10 := ⟨_, rfl⟩
      have hnote : (s.dev.onHv fun h => { h with rampT := none, check := true }).noteUnzeroed =
          (s.dev.onHv fun h => { h with rampT := none, check := true }).onOrder fun o => { o with unzeroed := true } :=
        if_neg (Bool.eq_false_iff.1 hz)
      have hexpired : s.dev.rampExpired = d := by rw [Dev.rampExpired_checks hs ht, hnote, hd]
      have hrest : d.Resting := by rw [hd]; exact hr
      refine ⟨_, by rw [exec_rampTimerExpiry, State.withDev_eq hexpired, Dev.settle_resting _ hrest], ?_⟩
      simp only [Dev.sync_hv, Dev.sync_mu, Dev.sync_reader, hd]
      exact ⟨rfl, rfl, rfl, rfl⟩
    case noRamp => rw [exec_rampTimerExpiry, State.withDev_eq (Dev.rampExpired_ignored h)]
    case window =>
      have hd : s.dev.dwellExpired = (s.dev.onIns Insul.atWindowPoint).proceed :=
        if_pos ⟨hw, Insul.locating_group hl⟩
      rw [exec_dwellTimerExpiry, State.withDev_eq hd, Dev.onIns, Insul.atWindowPoint_group hl hwin]
      rfl
    case probe =>
      have hd : s.dev.locateDwellExpired = (s.dev.onIns Insul.atWindowPoint).proceed :=
        if_pos ⟨hw, Insul.locating_probe hl⟩
      rw [exec_locateDwellExpiry, State.withDev_eq hd, Dev.onIns, Insul.atWindowPoint_probe hl hwin]
      rfl
    case noDwell => rw [exec_dwellTimerExpiry, State.withDev_eq (Dev.dwellExpired_ignored h)]
    case noProbe => rw [exec_locateDwellExpiry, State.withDev_eq (Dev.locateDwellExpired_ignored h)]

end Sys2Proof.Machine

namespace Sys2Proof.Machine

/-! ## A trip and an arc (R110, R111, R129, R135) -/

theorem exec_trip (s : State) : exec .trip s = .next (s.withDev Dev.trip) := rfl
theorem exec_arcPulse (s : State) : exec .arcPulse s = .next (s.withDev Dev.arcPulse) := rfl

/-- The blocks after the energized step has been broken off: the source removed, DISCHARGE entered and its end asked for, a
window of the step ended, and the thread at the wait for OFF. -/
def Dev.broken (d : Dev) : Dev :=
  { d with
    hv := { d.hv with
      state := .discharge, setpoint := 0, rampT := none, check := false, armed := false
      dischT := some d.cfg.dischTimeout, below := 0, ask := .waiting }
    mu := d.mu.cancelWindow
    ins := { d.ins with dwellT := none }
    tasks := fromWaitOff d.tasks
    wait := .run }

theorem Dev.stepBroken_probe {d : Dev} (f : Finding) (hl : d.ins.locPhase ≠ .none) :
    d.enterDischarge.stepBroken f =
      d.broken.locAnswer ⟨0, .lt, if d.ins.windowed then d.ins.wRng else d.evalValue.rng⟩ true :=
  if_pos (Insul.locating_probe hl)

theorem Dev.stepBroken_group {d : Dev} (f : Finding) (hl : d.ins.locPhase = .none) :
    d.enterDischarge.stepBroken f =
      (d.broken.onIns fun s => { s with state := .discharge, step := 8, verdict := some false, toLocate := false }).insFinding f :=
  if_neg (Bool.eq_false_iff.1 (Insul.locating_group hl))

theorem Dev.evalValue_rng (d : Dev) : d.evalValue.rng = (match d.ins.ev with | some v => v.rng | none => .none) := by
  unfold Dev.evalValue
  cases d.ins.ev <;> rfl

theorem voltsAtTrip_eq (code : Int) : voltsAtTrip code = if code < 0 then 0 else code.toNat * 50 / 1000 := by
  unfold voltsAtTrip
  split <;> omega

theorem Dev.trip_breaks {d : Dev} (ha : d.hv.armed = true) (hs : d.hv.state = .ramp ∨ d.hv.state = .dwell) :
    d.trip = d.enterDischarge.stepBroken (d.tripFinding (voltsAtTrip d.hv.lastHvv)) := by
  simp [Dev.trip, ha, Hv.sourceOn_of hs]

theorem Dev.trip_ignored {d : Dev} (h : d.hv.armed = false ∨ (d.hv.state ≠ .ramp ∧ d.hv.state ≠ .dwell)) :
    d.trip = d := by
  refine if_neg fun hc => ?_
  obtain ⟨ha, hon⟩ := Bool.and_eq_true_iff.1 hc
  obtain h | ⟨hr, hd⟩ := h
  · rw [ha] at h; cases h
  · exact ((Hv.sourceOn_iff _).1 hon).elim hr hd

theorem Dev.arcPulse_breaks {d : Dev} (hs : d.hv.state = .dwell) (hn : d.hv.arcLimit ≤ min 255 (d.hv.arcs + 1)) :
    d.arcPulse = (d.onHv Hv.countArc).enterDischarge.stepBroken (d.arcFinding (min 255 (d.hv.arcs + 1))) := by
  simp only [Dev.arcPulse, if_pos hs]
  exact if_pos hn

theorem Dev.arcPulse_counts {d : Dev} (hs : d.hv.state = .dwell) (hn : min 255 (d.hv.arcs + 1) < d.hv.arcLimit) :
    d.arcPulse = d.onHv Hv.countArc := by
  simp only [Dev.arcPulse, if_pos hs]
  exact if_neg (Nat.not_le.2 hn)

theorem Dev.arcPulse_ignored {d : Dev} (hs : d.hv.state ≠ .dwell) : d.arcPulse = d := if_neg hs

/-- Settles O49: either event breaks off the step, whose part decides what becomes of it. -/
theorem tripsAndArcsEndTheStep : Obligations.TripsAndArcsEndTheStep := by
  refine ⟨fun s cmd k v h hcmd => ?breaks, fun s h => ?noTrip, fun s h => ?noArc, fun s hs hn => ?counted⟩
  case breaks =>
    obtain ⟨x, hx⟩ : ∃ x : Dev, x = { s.dev with hv := h } := ⟨_, rfl⟩
    have hcome : exec cmd s = .next { s with
        dev := Dev.settle s.hostQ (x.enterDischarge.stepBroken
          ⟨k, s.dev.ins.cursor, 0, none, some v, s.dev.ins.tripRange, false, false, false, 0, 0⟩) } := by
      obtain ⟨rfl, rfl, ha, hs, rfl, rfl⟩ | ⟨rfl, rfl, hs, rfl, hn, rfl⟩ := hcmd
      · rw [exec_trip, State.withDev_eq (Dev.trip_breaks ha hs), ← voltsAtTrip_eq, hx]
        rfl
      · rw [exec_arcPulse, State.withDev_eq (Dev.arcPulse_breaks hs hn), hx]
        rfl
    refine ⟨_, hcome, ?_⟩
    by_cases hl : s.dev.ins.locPhase = .none
    · rw [Dev.stepBroken_group _ (by rw [hx]; exact hl), hx]
      exact ⟨rfl, rfl, rfl, fun j hj => MeasUnit.cancelWindow_job (u := s.dev.mu) hj,
        fun _ => ⟨rfl, rfl, rfl, rfl, rfl, rfl⟩, fun hne => absurd hl hne⟩
    · rw [Dev.stepBroken_probe _ (by rw [hx]; exact hl), Dev.evalValue_rng, hx]
      exact ⟨rfl, rfl, rfl, fun j hj => MeasUnit.cancelWindow_job (u := s.dev.mu) hj, fun hl' => absurd hl' hl,
        fun _ => ⟨rfl, rfl, rfl⟩⟩
  case noTrip => rw [exec_trip, State.withDev_eq (Dev.trip_ignored h)]
  case noArc => rw [exec_arcPulse, State.withDev_eq (Dev.arcPulse_ignored h)]
  case counted =>
    rw [exec_arcPulse, State.withDev_eq (Dev.arcPulse_counts hs hn)]
    rfl

end Sys2Proof.Machine

namespace Sys2Proof.Machine

/-! ## The discharge timer's expiry (R113) -/

theorem exec_dischargeTimerExpiry (s : State) : exec .dischargeTimerExpiry s = .next (s.withDev Dev.dischargeExpired) := rfl

/-- What a stop that meets a part in LOCKOUT leaves as it was: the reader, and of the HV controller all but the answer to a
request, which is the fault. -/
def Dev.StopsLocked (d e : Dev) : Prop :=
  e.reader = d.reader ∧ (e.hv = d.hv ∨ e.hv = { d.hv with ask := .fault })

theorem Dev.stopsLocked_self (d : Dev) : d.StopsLocked d := ⟨rfl, .inl rfl⟩

theorem Dev.abandonStep_locked {d : Dev} (hs : d.hv.state = .lockout) : d.StopsLocked d.abandonStep := by
  have hoff : ¬d.hv.sourceOn = true := by simp [Hv.sourceOn, hs]
  have hask : d.askDischarge = d.onHv fun h => { h with ask := .fault } := by
    simp [Dev.askDischarge, Dev.dropSource, if_neg hoff, Dev.onHv, hs]
  rw [Dev.abandonStep, hask]
  exact ⟨rfl, .inr rfl⟩

theorem Dev.unparkStop_locked (d : Dev) : d.StopsLocked d.unparkStop := by
  rw [Dev.unparkStop_frame]
  exact ⟨rfl, .inl rfl⟩

theorem Dev.stopsLocked_ite {d e f : Dev} {c : Prop} [Decidable c] (he : d.StopsLocked e) (hf : d.StopsLocked f) :
    d.StopsLocked (if c then e else f) := by
  split
  · exact he
  · exact hf

theorem Dev.stopArrives_locked (fault : Bool) {d : Dev} (hs : d.hv.state = .lockout) : d.StopsLocked (d.stopArrives fault) := by
  have hself := d.stopsLocked_self
  have hstep := Dev.abandonStep_locked hs
  cases hw : d.wait <;> simp only [Dev.stopArrives, hw]
  case setup => exact Dev.stopsLocked_ite (Dev.stopsLocked_ite hself hself) hself
  case forParked => exact Dev.stopsLocked_ite hself (Dev.stopsLocked_ite hself hself)
  case unparking => exact Dev.stopsLocked_ite hself (Dev.stopsLocked_ite d.unparkStop_locked hself)
  case rampHeld => exact Dev.stopsLocked_ite hself hself
  case ramp => exact hstep
  case dwell => exact hstep
  case meas => exact Dev.stopsLocked_ite hstep hself
  all_goals exact hself

theorem Dev.inFlight_iff (d : Dev) : d.inFlight = true ↔ ∃ o, d.reader.order = some o ∧ o.status = .taken := by
  unfold Dev.inFlight
  cases d.reader.order <;> simp

/-- A running order in flight is marked, unless an ending is marked already, and stopped where it waits. -/
theorem Dev.faultArrives_marks {d : Dev} (hr : d.reader.state = .running) (he : d.reader.ending = none)
    (ho : ∃ o, d.reader.order = some o ∧ o.status = .taken) :
    d.faultArrives = (d.onReader fun r => { r with ending := some .dischargeFault }).stopArrives true :=
  if_pos ⟨hr, d.inFlight_iff.2 ho, he⟩

theorem Dev.faultArrives_passes {d : Dev} (h : d.reader.state ≠ .running ∨ d.reader.ending ≠ none ∨
    ∀ o, d.reader.order = some o → o.status ≠ .taken) : d.faultArrives = d := by
  refine if_neg fun hc => ?_
  obtain ⟨hr, hi, he⟩ := hc
  obtain ⟨o, ho, ht⟩ := d.inFlight_iff.1 hi
  exact h.elim (absurd hr) fun h => h.elim (absurd he) fun h => h o ho ht

/-- Of the HV controller the fault changes nothing but the answer to a request, in LOCKOUT. -/
theorem Dev.faultArrives_locked {d : Dev} (hs : d.hv.state = .lockout) :
    d.faultArrives.hv = d.hv ∨ d.faultArrives.hv = { d.hv with ask := .fault } := by
  by_cases hc : d.reader.state = .running ∧ d.inFlight = true ∧ d.reader.ending = none
  · obtain ⟨hr, hi, he⟩ := hc
    rw [Dev.faultArrives_marks hr he (d.inFlight_iff.1 hi)]
    exact (Dev.stopArrives_locked true (d := d.onReader fun r => { r with ending := some .dischargeFault }) hs).2
  · exact .inl (congrArg Dev.hv (if_neg hc))

/-- The expiry: the latch sets, the fault reaches the running order, and the waits for OFF go on. -/
theorem Dev.dischargeExpired_eq {d e : Dev} (hs : d.hv.state = .discharge) (ht : d.hv.dischT ≠ none)
    (he : e = d.lockOut.faultArrives) :
    d.dischargeExpired = { e with wait := if e.wait = .hvOff ∨ e.wait = .rampHeld then .run else e.wait } := by
  have hexp : d.dischargeExpired = (e.wake .hvOff).wake .rampHeld :=
    he ▸ if_pos ⟨hs, Option.isSome_iff_ne_none.2 ht⟩
  rw [hexp, Dev.wake_eq, Dev.wake_eq]
  by_cases h1 : e.wait = .hvOff
  · simp [h1]
  · simp [h1]

theorem Dev.dischargeExpired_ignored {d : Dev} (h : d.hv.state ≠ .discharge ∨ d.hv.dischT = none) :
    d.dischargeExpired = d := by
  refine if_neg fun hc => ?_
  obtain ⟨hs, ht⟩ := hc
  exact h.elim (absurd hs) (absurd · (Option.isSome_iff_ne_none.1 ht))

/-- The two-sample count restarts, or goes on in the tie of R112 (log 36). -/
theorem Hv.lockOut_below_cases (tie : Bool) (h : Hv) : (h.lockOut tie).below = 0 ∨ (h.lockOut tie).below = h.below := by
  rw [Hv.lockOut_below]
  cases tie
  · exact .inl rfl
  · exact .inr rfl

/-! ## The interlock input (R115, R116) -/

theorem exec_interlockOpening_open {s : State} (h : s.dev.pins.interlockOpen = true) :
    exec .interlockOpening s = .next s := congrArg Host.Outcome.next (if_pos h)

theorem exec_interlockOpening_closed {s : State} (h : s.dev.pins.interlockOpen = false) :
    exec .interlockOpening s = .next (s.withDev Dev.interlockOpens) :=
  congrArg Host.Outcome.next (if_neg (Bool.eq_false_iff.1 h))

theorem exec_interlockClosing_open {s : State} (h : s.dev.pins.interlockOpen = true) :
    exec .interlockClosing s = .next (s.withDev Dev.interlockCloses) := congrArg Host.Outcome.next (if_pos h)

theorem exec_interlockClosing_closed {s : State} (h : s.dev.pins.interlockOpen = false) :
    exec .interlockClosing s = .next s := congrArg Host.Outcome.next (if_neg (Bool.eq_false_iff.1 h))

/-- In DISCHARGE an abandoned step asks for the end of the discharge in progress. -/
theorem Dev.abandonStep_discharging {d : Dev} (hs : d.hv.state = .discharge) :
    d.abandonStep = { d with
      hv := { d.hv with ask := .waiting }
      ins := { d.ins with dwellT := none }
      tasks := .waitOff false :: .safe :: d.ins.restart :: afterStepEnd d.tasks
      wait := .run } := by
  have hoff : ¬d.hv.sourceOn = true := by simp [Hv.sourceOn, hs]
  have hask : d.askDischarge = d.onHv fun h => { h with ask := .waiting } := by
    simp [Dev.askDischarge, Dev.dropSource, if_neg hoff, Dev.onHv, hs]
  rw [Dev.abandonStep, hask, Insul.restart_eq]
  rfl

theorem Dev.interlockOpens_sourceOff {d : Dev} (hr : d.hv.state ≠ .ramp) (hd : d.hv.state ≠ .dwell) :
    d.interlockOpens = { d with
      hv := { d.hv with openRec := true }, pins := { d.pins with interlockOpen := true } } := by
  have hoff : ¬d.hv.sourceOn = true := fun hon => ((Hv.sourceOn_iff _).1 hon).elim hr hd
  simp only [Dev.interlockOpens, if_neg hoff]
  rfl

theorem Dev.interlockOpens_sourceOn {d : Dev} (hs : d.hv.state = .ramp ∨ d.hv.state = .dwell) :
    d.interlockOpens = { d with
      pins := { d.pins with interlockOpen := true }
      hv := { d.hv with
        openRec := true, pauseMark := true, state := .discharge, setpoint := 0, rampT := none, check := false
        armed := false, dischT := some d.cfg.dischTimeout, below := 0, ask := .waiting }
      mu := d.mu.cancelWindow
      ins := { d.ins with reason := .interlock, dwellT := none }
      tasks := .waitOff false :: .safe :: d.ins.restart :: afterStepEnd d.tasks
      wait := .run } := by
  simp only [Dev.interlockOpens, if_pos (Hv.sourceOn_of hs)]
  rw [Dev.abandonStep_discharging (by rfl)]
  rfl

/-- Settles O50: the expiry by what the fault finds at the reader, the interlock by its level and the source. -/
theorem dischargeFaultAndInterlock : Obligations.DischargeFaultAndInterlock := by
  intro s
  refine ⟨fun hs ht => ?expires, fun h => ?noTimer, fun h => exec_interlockOpening_open h, fun h hr hd => ?opensOff,
    fun h hs => ?opensOn, fun h => ?closes, fun h => exec_interlockClosing_closed h⟩
  case expires =>
    obtain ⟨e, he⟩ : ∃ e, e = s.dev.lockOut.faultArrives := ⟨_, rfl⟩
    have hhv : e.hv = s.dev.lockOut.hv ∨ e.hv = { s.dev.lockOut.hv with ask := .fault } :=
      he ▸ Dev.faultArrives_locked (d := s.dev.lockOut) rfl
    have hlatch : e.hv.lockout = true := by obtain h | h := hhv <;> rw [h] <;> rfl
    have hexec : exec .dischargeTimerExpiry s = _ :=
      congrArg Host.Outcome.next (State.withDev_eq (Dev.dischargeExpired_eq hs ht he))
    refine ⟨_, hexec, ?_, hlatch, ?_, ?_,
      fun hw => ?_, ?_, fun hr hn ho => ?marked, fun h => ?passes, fun hr hn ho hw => ?held⟩
    · show e.hv.state = _
      obtain h | h := hhv <;> rw [h] <;> rfl
    · show e.hv.dischT = _
      obtain h | h := hhv <;> rw [h] <;> rfl
    · have hbelow := Hv.lockOut_below_cases (Config.freeTie s.dev.free) s.dev.hv
      show e.hv.below = 0 ∨ e.hv.below = _
      obtain h | h := hhv <;> rw [h] <;> exact hbelow
    · have hask : s.dev.lockOut.hv.ask = .fault := if_pos hw
      show e.hv.ask = _
      obtain h | h := hhv <;> rw [h]
      exact hask
    · show (e.hv.lockout || _) = true
      rw [hlatch, Bool.true_or]
    case marked =>
      show e.reader.ending = _
      rw [he, Dev.faultArrives_marks (d := s.dev.lockOut) hr hn ho, (Dev.stopArrives_locked true (by rfl)).1]
      rfl
    case passes =>
      have hpass : e = s.dev.lockOut := he.trans (Dev.faultArrives_passes h)
      rw [hpass]
      exact ⟨rfl, rfl, rfl⟩
    case held =>
      have hstop : e = (s.dev.lockOut.onReader fun r => { r with ending := some .dischargeFault }).goto
          (.safe :: s.dev.tasks) := by
        rw [he, Dev.faultArrives_marks (d := s.dev.lockOut) hr hn ho]
        simp [Dev.stopArrives, hw]
      rw [hstop]
      exact ⟨rfl, rfl⟩
  case noTimer => rw [exec_dischargeTimerExpiry, State.withDev_eq (Dev.dischargeExpired_ignored h)]
  case opensOff => rw [exec_interlockOpening_closed h, State.withDev_eq (Dev.interlockOpens_sourceOff hr hd)]
  case opensOn =>
    have hexec := (exec_interlockOpening_closed h).trans
      (congrArg Host.Outcome.next (State.withDev_eq (Dev.interlockOpens_sourceOn hs)))
    refine ⟨_, hexec, rfl, rfl, rfl, rfl, rfl, Bool.or_true _, fun hl => ?_, fun hl => ?_⟩
    · simp [Insul.restart, hl]
    · simp [Insul.restart, hl]
  case closes =>
    rw [exec_interlockClosing_open h]
    rfl

end Sys2Proof.Machine

namespace Sys2Proof.Machine

/-! # The insulation check: its energized step, EVALUATE, groups and LOCATE -/

/-! ## The step of a group and the phase of a locate probe (R123, R134) -/

theorem Insul.enter_group (st : InsState) (n : Nat) (ph : LocPhase) {s : Insul} (hl : s.locPhase = .none) :
    s.enter st n ph = { s with state := st, step := n } :=
  if_neg (Bool.eq_false_iff.1 (Insul.locating_group hl))

theorem Insul.enter_probe (st : InsState) (n : Nat) (ph : LocPhase) {s : Insul} (hl : s.locPhase ≠ .none) :
    s.enter st n ph = { s with locPhase := ph } :=
  if_pos (Insul.locating_probe hl)

theorem Insul.enter_maxArc (st : InsState) (n : Nat) (ph : LocPhase) (s : Insul) : (s.enter st n ph).maxArc = s.maxArc := by
  unfold Insul.enter
  split <;> rfl

/-! ## The dwell and its window point (R126, R127, R134) -/

/-- A group's window point is reached at once where the window fills the dwell, or there is no dwell (log 31). -/
theorem Insul.windowPoint_group {s : Insul} (hl : s.locPhase = .none) :
    s.windowPoint = 0 ↔ s.window = s.dwell ∨ s.dwell = 0 := by
  have hloc := Insul.locating_group hl
  by_cases hle : s.window ≤ s.dwell
  · simp only [Insul.windowPoint, hloc, Bool.false_eq_true, if_false, if_pos hle]
    omega
  · simp only [Insul.windowPoint, hloc, Bool.false_eq_true, if_false, if_neg hle]
    omega

/-- A probe's window takes the last 10 ms of its dwell. -/
theorem Insul.windowPoint_probe {s : Insul} (hl : s.locPhase ≠ .none) : s.windowPoint = 0 ↔ s.locDwell ≤ 10 := by
  simp only [Insul.windowPoint, Insul.locating_probe hl, if_true]
  omega

theorem Dev.dwellBegin_wait (d : Dev) : d.dwellBegin.wait = if d.ins.windowPoint = 0 then d.wait else .dwell := by
  unfold Dev.dwellBegin
  dsimp only
  split <;> rfl

theorem Dev.dwellBegin_tasks (d : Dev) : d.dwellBegin.tasks = d.tasks := by
  unfold Dev.dwellBegin
  dsimp only
  split <;> rfl

theorem Dev.dwellBegin_ins (d : Dev) :
    d.dwellBegin.ins =
      { d.ins.enter .dwell 4 .dwell with dwellT := some (d.ins.enter .dwell 4 .dwell).dwellTime } := by
  unfold Dev.dwellBegin
  dsimp only
  split <;> rfl

theorem Dev.dwellBegin_group {d : Dev} (hl : d.ins.locPhase = .none) :
    d.dwellBegin.ins = { d.ins with state := .dwell, step := 4, dwellT := some d.ins.dwell } := by
  rw [Dev.dwellBegin_ins, Insul.enter_group _ _ _ hl, Insul.dwellTime, Insul.locating_group (by exact hl)]
  rfl

theorem Dev.dwellBegin_probe {d : Dev} (hl : d.ins.locPhase ≠ .none) :
    d.dwellBegin.ins = { d.ins with locPhase := .dwell, dwellT := some d.ins.locDwell } := by
  rw [Dev.dwellBegin_ins, Insul.enter_probe _ _ _ hl]
  rfl

/-! ## The window (R127, R128, R134, R135) -/

/-- A window is requested: the unit takes its samples at the range, the order is marked while zero-valid is clear, and the
thread waits for the answer. -/
theorem Dev.windowReq_eq (r : Rng) (d : Dev) :
    d.windowReq r = { d with
      ins := { d.ins.enter .window 5 .window with windowed := true, wRng := r }
      reader := if d.mu.zeroValid then d.reader
        else { d.reader with order := d.reader.order.map fun o => { o with unzeroed := true } }
      mu := { d.mu with
        state := .window, stim := .none, leak := r, route := .buses
        job := some ⟨.window, r, d.ins.samples, 0, 0, 0, 0, false, true, (d.cfg.gH, d.cfg.gM, d.cfg.gL)⟩ }
      wait := .meas } := by
  unfold Dev.windowReq
  rw [Dev.noteUnzeroed_eq (d := d.onIns _) (fun h => if_pos h) (fun h => if_neg (Bool.eq_false_iff.1 h))]
  rfl

theorem Insul.samples_group {s : Insul} (hl : s.locPhase = .none) : s.samples = 10 * s.window :=
  if_neg (Bool.eq_false_iff.1 (Insul.locating_group hl))

theorem Insul.samples_probe {s : Insul} (hl : s.locPhase ≠ .none) : s.samples = 100 :=
  if_pos (Insul.locating_probe hl)

/-- The window has answered: the dwell timer ends. -/
def Dev.dwellOver (d : Dev) : Dev := d.onIns fun s => { s with dwellT := none }

/-- The last window of a step: discharge is asked for, and the value goes to EVALUATE, or to the search that a probe belongs
to. -/
def Dev.windowEnds (d : Dev) : Dev :=
  if d.ins.locating then
    d.dwellOver.askDischarge.locAnswer (d.windowValue d.ins.wRng) (!(d.windowValue d.ins.wRng).passes d.ins.rmin)
  else
    (d.dwellOver.askDischarge.onIns fun s => { s with ev := some (d.windowValue d.ins.wRng) }).push [.evaluate, .evalSafe]

theorem Dev.windowGot_eq (d : Dev) :
    d.windowGot = (match if d.mu.ans.sat then nextLeak d.ins.wRng else none with
      | some r => d.dwellOver.push [.windowReq r, .windowGot]
      | none => d.windowEnds) := rfl

/-- A saturated window below L3 is followed by another at the next range. -/
theorem Dev.windowGot_widens {d : Dev} {r : Rng} (hs : d.mu.ans.sat = true)
    (hr : d.ins.wRng = .l1 ∧ r = .l2 ∨ d.ins.wRng = .l2 ∧ r = .l3) :
    d.windowGot = d.dwellOver.push [.windowReq r, .windowGot] := by
  have hnext : (if d.mu.ans.sat = true then nextLeak d.ins.wRng else none) = some r := by
    rw [if_pos hs]
    obtain ⟨hw, rfl⟩ | ⟨hw, rfl⟩ := hr <;> rw [hw] <;> rfl
  rw [Dev.windowGot_eq, hnext]

/-- DISCHARGE is entered from a step with the source on, and its end asked for. -/
def Dev.discharging (d : Dev) : Dev := d.enterDischarge.onHv fun h => { h with ask := .waiting }

section
variable {d : Dev} (h : d.mu.ans.sat = false ∨ d.ins.wRng = .l3) (hs : d.hv.state = .dwell)
include h

theorem Dev.windowGot_ends : d.windowGot = d.windowEnds := by
  have hnext : (if d.mu.ans.sat = true then nextLeak d.ins.wRng else none) = none := by
    obtain h | h := h
    · rw [h]; rfl
    · rw [h]; exact ite_self _
  rw [Dev.windowGot_eq, hnext]

include hs

theorem Dev.windowGot_group (hl : d.ins.locPhase = .none) :
    d.windowGot = (d.dwellOver.discharging.onIns fun s => { s with ev := some (d.windowValue d.ins.wRng) }).push
      [.evaluate, .evalSafe] := by
  have hask : d.dwellOver.askDischarge = d.dwellOver.discharging := Dev.askDischarge_sourceOn (Hv.sourceOn_of (.inr hs))
  rw [Dev.windowGot_ends h, Dev.windowEnds, if_neg (Bool.eq_false_iff.1 (Insul.locating_group hl)), hask]

theorem Dev.windowGot_probe (hl : d.ins.locPhase ≠ .none) :
    d.windowGot = d.dwellOver.discharging.onSearch fun s =>
      { s with
        ans := if (d.windowValue d.ins.wRng).passes d.ins.rmin then none else some (d.windowValue d.ins.wRng) } := by
  have hask : d.dwellOver.askDischarge = d.dwellOver.discharging := Dev.askDischarge_sourceOn (Hv.sourceOn_of (.inr hs))
  rw [Dev.windowGot_ends h, Dev.windowEnds, if_pos (Insul.locating_probe hl), hask, Dev.locAnswer]
  cases (d.windowValue d.ins.wRng).passes d.ins.rmin <;> rfl

end

/-! ## The ramp check (R108, R126, R135) -/

theorem Dev.rampChecked_unsaturated {d : Dev} (hs : d.mu.ans.sat = false) :
    d.rampChecked = d.discharging.goto [.endAfterOff .sourceFault] := by
  simp only [Dev.rampChecked, hs]
  rfl

theorem Dev.rampChecked_group {d : Dev} (hs : d.mu.ans.sat = true) (hl : d.ins.locPhase = .none) :
    d.rampChecked = ((d.discharging.onIns fun s => { s with wRng := .l3, ev := some (d.windowValue .l3) }).goto
      (fromWaitOff d.tasks)).push [.evaluate, .evalSafe] := by
  simp only [Dev.rampChecked, hs, if_true, Insul.locating_group hl, Bool.false_eq_true, if_false]
  rfl

theorem Dev.rampChecked_probe {d : Dev} (hs : d.mu.ans.sat = true) (hl : d.ins.locPhase ≠ .none) :
    d.rampChecked = ((d.discharging.onIns fun s => { s with wRng := .l3 }).goto (fromWaitOff d.tasks)).locAnswer
      (d.windowValue .l3) true := by
  simp only [Dev.rampChecked, hs, if_true, Insul.locating_probe hl]
  rfl

/-- The ramp check's answer holds its sums and its saturation mark (R40). -/
theorem Job.answer_rampCheck {j : Job} (hk : j.kind = .rampCheck) (z : ZeroCodes) :
    j.answer z = ⟨none, j.rng, 0, j.sat, false, j.sumV, j.sumI, j.n⟩ := by
  simp only [Job.answer, hk]

/-- The blocks at the last sample of a ramp check: the unit has answered, and the HV controller in RAMP has noted the
sample. -/
def Dev.checkAnswered (a : Answer) (hvv : Int) (d : Dev) : Dev :=
  { d with
    mu := d.mu.answered .idle a
    hv := { d.hv with
      lastHvv := hvv, rampN := d.hv.rampN + 1, setpoint := min (d.hv.rate * (d.hv.rampN + 1)) (d.hv.volts * 10000) } }

/-- The last sample of a ramp check: the HV controller notes it, and the check answers (R108). -/
theorem exec_rampChecked {s : State} {diff hvv hvi : BitVec 16} {j j' : Job} (hs : s.dev.hv.state = .ramp)
    (hc : s.dev.hv.check = true) (hj : s.dev.mu.job = some j) (hk : j.kind = .rampCheck) (hn : j.n ≤ j.got + 1)
    (hj' : j' = { j with
      got := j.got + 1, sum := j.sum + hvi.toInt, sumV := j.sumV + hvv.toInt, sumI := j.sumI + hvi.toInt
      sat := j.sat || decide (hvi.toInt = 32767), allSat := j.allSat && decide (hvi.toInt = 32767) }) :
    exec (.converterSample diff hvv hvi) s = .next { s with
      dev := Dev.settle s.hostQ
        (s.dev.checkAnswered ⟨none, j.rng, 0, j'.sat, false, j'.sumV, j'.sumI, j.n⟩ hvv.toInt).rampChecked } := by
  have hadd : j.add diff.toInt hvv.toInt hvi.toInt = j' := by
    rw [Job.add_eq, hj', hk]
    rfl
  have hlast : (j.add diff.toInt hvv.toInt hvi.toInt).nextRange = none :=
    Job.nextRange_of_not_auto fun ca cb => by simp [hk]
  have hanswer : j'.answer s.dev.mu.zero = ⟨none, j.rng, 0, j'.sat, false, j'.sumV, j'.sumI, j.n⟩ := by
    rw [Job.answer_rampCheck (hj' ▸ hk), hj']
  have hsample := MeasUnit.sample_ends (st := .idle) hj hn hlast (by rw [hk]; rfl)
  have htakes := s.dev.mu.takes_sample diff.toInt hvv.toInt hvi.toInt
  rw [hsample, hadd, hanswer, hk] at htakes
  exact exec_sample htakes (Hv.sample_notes (.inr (.inr ⟨hs, .inl hc, rfl⟩))) rfl

/-! ## EVALUATE and findings (R128, R131, R137) -/

theorem Dev.evalValue_eq {d : Dev} {v : PVal} (h : d.ins.ev = some v) : d.evalValue = v := by
  rw [Dev.evalValue, h]
  rfl

theorem PVal.passes_iff (v : PVal) (rmin : Nat) : v.passes rmin = true ↔ rmin ≤ v.r ∧ v.mark ≠ .lt := by
  simp [PVal.passes]

/-- The verdict of a group, which goes to LOCATE if it asks for it (R128, R133). -/
def Dev.judged (pass : Bool) (d : Dev) : Dev :=
  d.onIns fun s => { s with state := .evaluate, step := 6, verdict := some pass, toLocate := !pass && s.locate }

section
variable {d : Dev} {v : PVal} {pass : Bool} (hv : d.ins.ev = some v) (hp : v.passes d.ins.rmin = pass)
include hv hp

theorem Dev.evaluate_judges (h : pass = true ∨ d.ins.locate = true) : d.evaluate = d.judged pass := by
  simp only [Dev.evaluate, Dev.evalValue_eq hv, hp, Bool.or_eq_true, if_pos h]
  rfl

theorem Dev.evaluate_finds (h : pass = false) (hl : d.ins.locate = false) :
    d.evaluate = (d.judged pass).insFinding (inslFinding d.ins.cursor 0 none v false) := by
  simp only [Dev.evaluate, Dev.evalValue_eq hv, hp, h, hl]
  rfl

end

theorem Dev.evalSafe_ends {d : Dev} {c : Code} (h : d.reader.ending = some c) :
    d.evalSafe = d.goto [.waitOff true, .endOrder .failed c] := by
  simp only [Dev.evalSafe, h]

theorem Dev.evalSafe_pauses {d : Dev} (h : d.reader.ending = none) (hp : d.reader.haltPending = true) :
    d.evalSafe = d.push [.pause] := by
  simp only [Dev.evalSafe, h, if_pos hp]

theorem Dev.evalSafe_goes {d : Dev} (h : d.reader.ending = none) (hp : d.reader.haltPending = false) : d.evalSafe = d := by
  simp only [Dev.evalSafe, h, hp]
  rfl

/-! ## The wait for OFF and the end of the step (R130, R134) -/

theorem Dev.waitOff_off {d : Dev} (rec : Bool) (h : d.hv.ask = .off) :
    d.waitOff rec = { d with
      hv := { d.hv with ask := .none }
      ins := { d.ins.enter .discharge 8 .discharge with
        maxArc := if rec then max d.ins.maxArc d.hv.arcs else d.ins.maxArc } } := by
  rw [← Insul.enter_maxArc .discharge 8 .discharge d.ins]
  simp only [Dev.waitOff, h]
  rfl

theorem Dev.waitOff_fault {d : Dev} (rec : Bool) (h : d.hv.ask = .fault) :
    d.waitOff rec = ((d.onIns (Insul.enter .discharge 8 .discharge)).onHv fun h => { h with ask := .none }).failOrder
      (d.reader.ending.getD .dischargeFault) := by
  simp only [Dev.waitOff, h]

theorem Dev.waitOff_waiting {d : Dev} (rec : Bool) (h : d.hv.ask = .waiting) :
    d.waitOff rec = { (d.onIns (Insul.enter .discharge 8 .discharge)).push [.waitOff rec] with wait := .hvOff } := by
  simp only [Dev.waitOff, h]

theorem Dev.stepEnd_probe {d : Dev} (hl : d.ins.locPhase ≠ .none) :
    d.stepEnd = { d with ins := { d.ins with probes := d.ins.probes + 1, locPhase := .none } } :=
  if_pos (Insul.locating_probe hl)

theorem Dev.stepEnd_group {d : Dev} (hl : d.ins.locPhase = .none) :
    d.stepEnd = if d.ins.toLocate then d.push [.safe, .locateStart] else d.push [.groupDone] :=
  if_neg (Bool.eq_false_iff.1 (Insul.locating_group hl))

/-! ## Groups (R122, R130, R131) -/

theorem Dev.groupDone_ins (d : Dev) {n : Nat} (hn : n = if d.ins.verdict = some true then 1 else 0) :
    d.groupDone.ins = { d.ins with
      tested := d.ins.tested + 1, passed := d.ins.passed + n, failed := d.ins.failed + (1 - n) } := by
  subst hn
  unfold Dev.groupDone
  by_cases hv : d.ins.verdict = some true <;> split <;> simp [hv]

theorem Dev.groupDone_ends {d : Dev} (hs : d.stopOnDefect = true) (hf : d.ins.firstFinding ≠ 0) :
    d.groupDone.tasks = .endOrder .doneDefects .doneDefects :: d.tasks := by
  have hend : (d.stopOnDefect && decide (d.ins.firstFinding ≠ 0)) = true := by simp [hs, hf]
  simp only [Dev.groupDone, if_pos hend]
  rfl

theorem Dev.groupDone_goes {d : Dev} (h : d.stopOnDefect = false ∨ d.ins.firstFinding = 0) :
    d.groupDone.tasks = .safe :: .groupNext (d.ins.cursor + 1) :: d.tasks := by
  have hgo : ¬(d.stopOnDefect && decide (d.ins.firstFinding ≠ 0)) = true := by
    obtain h | h := h <;> simp [h]
  simp only [Dev.groupDone, if_neg hgo]
  rfl

/-- With no group from `r` on the order ends. -/
theorem Dev.groupNext_last {d : Dev} {r : Nat} (h : ∀ g ∈ d.nets.groupRoots, g < r) :
    d.groupNext r = (d.onIns fun s => { s with step := 9 }).push
      [if d.ins.firstFinding = 0 then .endOrder .done .done else .endOrder .doneDefects .doneDefects] := by
  have hnone : d.nets.groupRoots.find? (fun n => decide (r ≤ n)) = none :=
    List.find?_eq_none.2 fun g hg => by simpa using h g hg
  simp only [Dev.groupNext, hnone]

section
variable {d : Dev} {pre post : List Nat} {g r : Nat} (h : d.nets.groupRoots = pre ++ g :: post) (hpre : ∀ x ∈ pre, x < r)
  (hg : r ≤ g)
include h hpre hg

/-- The group that follows is the first root from `r` on. -/
theorem Dev.groupNext_root : d.nets.groupRoots.find? (fun n => decide (r ≤ n)) = some g :=
  List.find?_eq_some_iff_append.2 ⟨by simpa using hg, pre, post, h, fun x hx => by simpa using hpre x hx⟩

theorem Dev.groupNext_skips (hs : d.nets.skips g = true) :
    d.groupNext r =
      (d.onIns fun s => { s with cursor := g, skipped := s.skipped + 1 }).push [.groupNext (g + 1)] := by
  simp only [Dev.groupNext, Dev.groupNext_root h hpre hg, hs, if_true]

theorem Dev.groupNext_begins (hs : d.nets.skips g = false) :
    d.groupNext r = (d.onIns fun s => { s with
      cursor := g, gVolts := d.nets.groupVolts g s.volts, cSide := d.nets.groupPoints g
      dSide := d.nets.dSide (d.nets.groupPoints g) s.floating }).push [.groupSetup] := by
  simp only [Dev.groupNext, Dev.groupNext_root h hpre hg, hs, Bool.false_eq_true, if_false]

end

/-- Settles O51: the parts of the energized step in their order, each by its own equation, then the groups by their roots. -/
theorem rampChecksAndStepsAct : Obligations.RampChecksAndStepsAct := by
  refine ⟨fun q d e he => ?groupSetup, fun q d e hw he hl => ?dwellBegin, fun q d e r he hl => ?windowReq,
    fun q d e v he hv => ?windowGot, fun s diff hvv hvi j j' hs hc hj hk hn hj' => ?rampCheck,
    fun q d e v pass he hv hpass => ?evaluate,
    fun q d => ⟨fun c h => Dev.evalSafe_ends h, fun h hp => Dev.evalSafe_pauses h hp, fun h hp => Dev.evalSafe_goes h hp⟩,
    fun q d e rec hw he => ?waitOff, fun q d hl => ?stepEnd, fun q d e n he hn => ?groupDone, fun q d e r he => ?groupNext⟩
  case groupSetup =>
    subst he
    exact ⟨rfl, rfl, rfl, rfl, rfl, rfl, rfl⟩
  case dwellBegin =>
    have hpoint := Insul.windowPoint_group hl
    have he : e = d.dwellBegin := he
    rw [he, Dev.dwellBegin_wait, Dev.dwellBegin_tasks]
    refine ⟨Dev.dwellBegin_group hl, rfl, fun h => ?_, fun h => if_neg (hpoint.not.2 (by omega))⟩
    rw [if_pos (hpoint.2 (.inl h)), hw]
  case windowReq =>
    have he : e = d.windowReq r := he
    rw [he, Dev.windowReq_eq, Insul.enter_group _ _ _ hl, Insul.samples_group hl]
    exact ⟨rfl, rfl, rfl, rfl, fun h => if_pos h, fun h => if_neg (Bool.eq_false_iff.1 h)⟩
  case windowGot =>
    have he : e = d.windowGot := he
    have hv : v = d.windowValue d.ins.wRng := hv
    subst hv
    refine ⟨fun r hs hr => he.trans (Dev.windowGot_widens hs hr), fun h hs => ?_⟩
    by_cases hl : d.ins.locPhase = .none
    · rw [he, Dev.windowGot_group h hs hl]
      exact ⟨rfl, rfl, rfl, fun _ => ⟨rfl, rfl, rfl⟩, fun hne => absurd hl hne⟩
    · rw [he, Dev.windowGot_probe h hs hl]
      exact ⟨rfl, rfl, rfl, fun hl' => absurd hl' hl, fun _ => ⟨rfl, rfl, rfl⟩⟩
  case rampCheck =>
    refine ⟨_, exec_rampChecked hs hc hj hk hn hj', ?_⟩
    cases hsat : j'.sat with
    | false =>
      rw [Dev.rampChecked_unsaturated (by rfl)]
      exact ⟨rfl, rfl, rfl, rfl, rfl, fun _ => rfl, fun h => by cases h⟩
    | true =>
      by_cases hl : s.dev.ins.locPhase = .none
      · rw [Dev.rampChecked_group (by rfl) (by exact hl)]
        refine ⟨rfl, rfl, rfl, rfl, rfl, fun h => (by cases h), fun _ v hv => ⟨fun _ => ?_, fun hne => absurd hl hne⟩⟩
        subst hv
        exact ⟨rfl, rfl⟩
      · rw [Dev.rampChecked_probe (by rfl) (by exact hl)]
        refine ⟨rfl, rfl, rfl, rfl, rfl, fun h => (by cases h), fun _ v hv => ⟨fun hl' => absurd hl' hl, fun _ => ?_⟩⟩
        subst hv
        exact ⟨rfl, rfl, rfl⟩
  case evaluate =>
    have he : e = d.evaluate := he
    have hp : v.passes d.ins.rmin = pass := by rw [Bool.eq_iff_iff, PVal.passes_iff, hpass]
    by_cases h : pass = true ∨ d.ins.locate = true
    · rw [he, Dev.evaluate_judges hv hp h]
      refine ⟨rfl, rfl, rfl, hv, rfl, fun _ => ⟨rfl, rfl⟩, fun h1 h2 => ?_⟩
      simp [h1, h2] at h
    · obtain ⟨h1, h2⟩ := not_or.1 h
      rw [he, Dev.evaluate_finds hv hp (Bool.eq_false_iff.2 h1) (Bool.eq_false_iff.2 h2)]
      exact ⟨rfl, rfl, rfl, hv, rfl, fun h' => absurd h' h, fun _ _ => ⟨rfl, rfl⟩⟩
  case waitOff =>
    have he : e = d.waitOff rec := he
    refine ⟨fun h => ?_, fun h => ?_, fun h => ?_⟩
    · rw [he, Dev.waitOff_off rec h]
      exact ⟨rfl, hw, rfl, rfl⟩
    · rw [he, Dev.waitOff_fault rec h]
      exact ⟨rfl, Insul.enter_maxArc _ _ _ d.ins⟩
    · rw [he, Dev.waitOff_waiting rec h]
      exact ⟨rfl, rfl, rfl⟩
  case stepEnd =>
    refine ⟨fun h => ?_, fun h => ?_⟩
    · exact (Dev.stepEnd_group hl).trans (if_pos h)
    · exact (Dev.stepEnd_group hl).trans (if_neg (Bool.eq_false_iff.1 h))
  case groupDone =>
    have he : e = d.groupDone := he
    rw [he]
    exact ⟨Dev.groupDone_ins d hn, Dev.groupDone_ends, Dev.groupDone_goes⟩
  case groupNext =>
    have he : e = d.groupNext r := he
    refine ⟨fun h => ?_, fun pre post g h hpre hg => ⟨fun hs => ?_, fun hs => ?_⟩⟩
    · rw [he, Dev.groupNext_last h]
      exact ⟨rfl, fun hf => congrArg (· :: d.tasks) (if_pos hf), fun hf => congrArg (· :: d.tasks) (if_neg hf)⟩
    · rw [he, Dev.groupNext_skips h hpre hg hs]
      exact ⟨rfl, rfl⟩
    · rw [he, Dev.groupNext_begins h hpre hg hs]
      exact ⟨rfl, rfl⟩

end Sys2Proof.Machine

namespace Sys2Proof.Machine

/-! ## LOCATE (R133 to R136) -/

/-- LOCATE begins: its candidates are the D side, none of them masked. -/
def Dev.locateBegun (d : Dev) : Dev :=
  (d.onIns fun s => { s with state := .locate, step := 7, locCount := 0 }).onSearch (Search.load d.ins.dSide)

theorem Dev.locateStart_empty {d : Dev} (h : d.ins.dSide = []) : d.locateStart = d.locateBegun.push [.locateEnd] :=
  if_pos (List.isEmpty_iff.2 h)

/-- The evaluation stands for the first probe. -/
theorem Dev.locateStart_searches {d : Dev} {v : PVal} (hv : d.ins.ev = some v) (h : d.ins.dSide ≠ []) :
    d.locateStart =
      (d.locateBegun.onSearch (Search.start .locate d.ins.cSide .group d.ins.locLimit v)).push [.searchStep, .locateEnd] := by
  rw [← Dev.evalValue_eq hv]
  exact if_neg (mt List.isEmpty_iff.1 h)

theorem Dev.halfProbe_locate {d : Dev} (pts : List Nat) (h : d.search.user = .locate) : d.halfProbe pts = [.locProbe pts] := by
  simp only [Dev.halfProbe, h]

/-- A locate probe is an energized step of the subset on bus D, its first window at the range the evaluation ended in. -/
theorem Dev.locProbe_eq {d : Dev} {v : PVal} (hv : d.ins.ev = some v) (pts : List Nat) :
    d.locProbe pts = (d.onIns fun s => { s with locPhase := .setup, subset := pts, windowed := false }).push
      (energizedStep (targets d.ins.cSide pts .c .d) v.rng) := by
  simp only [Dev.locProbe, hv]

theorem Dev.location_locate {d : Dev} (i : Nat) (v : PVal) (trunc last : Bool) (h : d.search.user = .locate) :
    d.location i v trunc last = (d.push [.located i last]).locateLocation (d.search.pointAt i) v trunc := by
  simp only [Dev.location, h]

theorem Dev.locateEnd_located {d : Dev} (h : d.ins.locCount ≠ 0) : d.locateEnd = d.push [.groupDone] := if_neg h

/-- A search with no location gives the group's own finding. -/
theorem Dev.locateEnd_none {d : Dev} {v : PVal} (hv : d.ins.ev = some v) (h : d.ins.locCount = 0) :
    d.locateEnd = (d.push [.groupDone]).insFinding (inslFinding d.ins.cursor 0 none v false) := by
  rw [← Dev.evalValue_eq hv]
  exact if_pos h

theorem Dev.endAfterOff_eq (c : Code) (d : Dev) :
    d.endAfterOff c = d.goto
      (.waitOff true :: (if d.ins.locPhase = .none then [] else [.stepEnd]) ++ [.endOrder .failed c]) := by
  by_cases hl : d.ins.locPhase = .none <;> simp [Dev.endAfterOff, Insul.locating, hl]

/-- Settles O52: LOCATE's start and end, the phases of its probes, and its locations, each by its own equation. -/
theorem locateActs : Obligations.LocateActs := by
  refine ⟨fun q d e v he hv => ?start, fun q d e entry half x hu hcur h => ?half, fun s first n => rfl,
    fun q d e pts v he hv => ?probe, fun q d e hl => ⟨fun he hw => ?dwell, fun r he => ?window, fun he => ?stepEnd⟩,
    fun q d e i x m v trunc last hu hx hm he => ?location, fun q d e v he hv => ?locateEnd,
    fun q d c => Dev.endAfterOff_eq c d⟩
  case start =>
    have he : e = d.locateStart := he
    by_cases h : d.ins.dSide = []
    · rw [he, Dev.locateStart_empty h]
      exact ⟨rfl, rfl, rfl, fun _ => rfl, fun hne => absurd h hne⟩
    · rw [he, Dev.locateStart_searches hv h]
      refine ⟨rfl, rfl, rfl, fun h' => absurd h' h, fun _ => ⟨rfl, rfl, ?_, rfl, rfl, rfl, rfl⟩⟩
      simp [Search.start, Dev.locateBegun, Search.load]
  case half =>
    have hjudge : e = d.judgeHalf half x := by
      obtain ⟨he, rfl, rfl⟩ | ⟨he, rfl, rfl⟩ := h
      · exact he.trans (Dev.lowHalf_eq hcur)
      · exact he.trans (Dev.highHalf_eq hcur)
    refine ⟨fun hnil => hjudge.trans (Dev.judgeHalf_masked x hnil), fun hne => ?_⟩
    rw [hjudge, Dev.judgeHalf_probes x hne, Dev.halfProbe_locate half hu]
    rfl
  case probe =>
    have he : e = d.locProbe pts := he
    rw [he, Dev.locProbe_eq hv]
    exact ⟨rfl, rfl⟩
  case dwell =>
    have hpoint := Insul.windowPoint_probe hl
    have he : e = d.dwellBegin := he
    rw [he, Dev.dwellBegin_probe hl, Dev.dwellBegin_wait, hw]
    exact ⟨rfl, rfl, fun h => if_neg (hpoint.not.2 (Nat.not_le.2 h)), fun h => if_pos (hpoint.2 h)⟩
  case window =>
    have he : e = d.windowReq r := he
    rw [he, Dev.windowReq_eq, Insul.samples_probe hl]
    exact ⟨rfl, rfl, _, rfl, rfl, rfl, rfl, rfl⟩
  case stepEnd =>
    have he : e = d.stepEnd := he
    exact he.trans (Dev.stepEnd_probe hl)
  case location =>
    have he : e = d.location i v trunc last := he
    subst hx hm
    rw [he, Dev.location_locate i v trunc last hu]
    exact ⟨rfl, rfl, rfl, rfl⟩
  case locateEnd =>
    have he : e = d.locateEnd := he
    refine ⟨fun h => he.trans (Dev.locateEnd_located h), fun h => ?_⟩
    rw [he, Dev.locateEnd_none hv h]
    exact ⟨rfl, rfl⟩

end Sys2Proof.Machine

namespace Sys2Proof.Machine

/-! ## The take of an INSULATE (R120, R121) -/

section
variable {o : Order} {f l : Word} (hf : f = o.param 4) (hl : l = o.param (5 + opt (bitAt f 17) 1))
include hf hl

theorem insulClamps_iff : insulClamps o = true ↔
    (o.param 0).toNat < 50 ∨ 1500 < (o.param 0).toNat ∨ (o.param 1).toNat < 1 ∨ 9999999 < (o.param 1).toNat ∨
    lo (o.param 2) < 1 ∨ 50 < lo (o.param 2) ∨ hi (o.param 2) < 1 ∨ 255 < hi (o.param 2) ∨ (o.param 3).toNat < 10 ∨
    60000 < (o.param 3).toNat ∨ lo f < 1 ∨ 1000 < lo f ∨
    (bitAt f 17 = true ∧ ((o.param 5).toNat < 10 ∨ 100 < (o.param 5).toNat)) ∨
    (bitAt f 18 = true ∧ (lo l < 1 ∨ 8 < lo l ∨ hi l < 10 ∨ 1000 < hi l)) := by
  subst hf hl
  simp only [insulClamps, Bool.or_eq_true, Bool.and_eq_true, clamps_iff, Config.maxMegohms, or_assoc]

/-- The effective parameters of an INSULATE: each as given and clamped, an absent part its default (R120). -/
theorem insulContext_eq (c : Settings) :
    insulContext o c = { Insul.reset with
      state := .init
      volts := max 50 (min 1500 (o.param 0).toNat)
      rmin := max 1 (min 9999999 (o.param 1).toNat)
      rate := 100 * max 1 (min 50 (lo (o.param 2)))
      arcLimit := max 1 (min 255 (hi (o.param 2)))
      dwell := max 10 (min 60000 (o.param 3).toNat)
      window := max 1 (min 1000 (lo f))
      locate := bitAt f 16
      trip := if bitAt f 17 = true then max 10 (min 100 (o.param 5).toNat) else c.trip
      locLimit := if bitAt f 18 = true then max 1 (min 8 (lo l)) else 4
      locDwell := if bitAt f 18 = true then max 10 (min 1000 (hi l)) else 100 } := by
  subst hf hl
  simp (disch := decide) only [insulContext, Config.maxMegohms, clampTo_eq]

end

/-- The checks of an INSULATE, in their order (R121). -/
theorem Dev.insulFault_eq (d : Dev) :
    d.insulFault =
      if d.nets.mapValid = false then some .noGroupMap
      else if d.hv.lockout = true then some .hvLockout
      else if d.mx.usable = false then some .matrixParked
      else none := by
  simp only [Dev.insulFault, Bool.not_eq_true']

theorem Dev.startInsulate_refused {d : Dev} {c : Code} (o : Order) (h : d.insulFault = some c) :
    d.startInsulate o = { d.setClamped (insulClamps o) with ins := .reset, tasks := .endOrder .refused c :: d.tasks } := by
  simp only [Dev.startInsulate, h]
  rfl

theorem Dev.startInsulate_starts {d : Dev} (o : Order) (h : d.insulFault = none) :
    d.startInsulate o = { d.setClamped (insulClamps o) with
      ins := insulContext o d.cfg
      tasks := (if o.clearDefects then [.clear] else []) ++ .safe :: .insInit :: d.tasks } := by
  simp only [Dev.startInsulate, h, Dev.push, List.append_assoc]
  rfl

/-- Whatever its checks say, the take of an INSULATE marks the order when a parameter is clamped, and leaves the blocks other
than its own context as they were. -/
theorem Dev.startInsulate_frame (o : Order) (d : Dev) :
    (d.startInsulate o).nets = d.nets ∧ (d.startInsulate o).mgr = d.mgr ∧ (d.startInsulate o).mx = d.mx ∧
    (d.startInsulate o).hv = d.hv ∧ (d.startInsulate o).wait = d.wait ∧
    (d.startInsulate o).reader = (d.setClamped (insulClamps o)).reader := by
  cases h : d.insulFault with
  | some c =>
    rw [Dev.startInsulate_refused o h]
    exact ⟨rfl, rfl, rfl, rfl, rfl, rfl⟩
  | none =>
    rw [Dev.startInsulate_starts o h]
    exact ⟨rfl, rfl, rfl, rfl, rfl, rfl⟩

/-! ## The take of a PRINT (R155, R156, R170) -/

/-- No spool region is bound. -/
def Dev.noSpool (d : Dev) : Bool :=
  match d.reader.bind with
  | some b => decide (b.spoolOff = 0)
  | none => true

theorem Dev.noSpool_iff (d : Dev) : d.noSpool = true ↔ ¬∃ b, d.reader.bind = some b ∧ b.spoolOff ≠ 0 := by
  unfold Dev.noSpool
  cases d.reader.bind <;> simp

/-- The blocks after a PRINT has begun: its format context, and for one to SPOOL no spool lines written (R157, R170). -/
def Dev.printing (o : Order) (d : Dev) : Dev :=
  { d with
    fmt := { Fmt.reset with
      state := .formatting, toSpool := decide (b0 (o.param 1) = 2), title := bitAt (o.param 1) 8
      footer := bitAt (o.param 1) 9, withAbsorbed := bitAt (o.param 1) 10, first := lo (o.param 0)
      stop := rangeStop (lo (o.param 0)) (hi (o.param 0)) d.mgr.used, cursor := lo (o.param 0), part := .title
      layout := d.cfg.print }
    reader := { d.reader with spoolLines := if b0 (o.param 1) = 2 then 0 else d.reader.spoolLines } }

section
variable {o : Order} {d : Dev} {first count dest : Nat} (hfirst : first = lo (o.param 0)) (hcount : count = hi (o.param 0))
  (hdest : dest = b0 (o.param 1))
include hfirst hcount hdest

/-- The checks of a PRINT, in their order (R156). -/
theorem Dev.printFault_eq :
    d.printFault o =
      if dest ≠ 1 ∧ dest ≠ 2 then some .badParameter
      else if ¬d.mgr.binding = .bound then some .badParameter
      else if dest = 1 ∧ d.cfg.print.portOn = false then some .portOff
      else if dest = 2 ∧ d.noSpool = true then some .badParameter
      else if count ≠ 0 ∧ d.mgr.used ≤ first then some .badParameter
      else none := by
  subst hfirst hcount hdest
  rfl

end

theorem Dev.startPrint_refused {d : Dev} {o : Order} {c : Code} (h : d.printFault o = some c) :
    d.startPrint o = { d with
      fmt := { Fmt.reset with first := lo (o.param 0), cursor := lo (o.param 0) }
      tasks := .endOrder .refused c :: d.tasks } := by
  simp only [Dev.startPrint, h]
  rfl

section
variable {d : Dev} {o : Order} (h : d.printFault o = none)
include h

theorem Dev.startPrint_port (hd : b0 (o.param 1) ≠ 2) : d.startPrint o = (d.printing o).push [.fmtNext] := by
  simp only [Dev.startPrint, h, Dev.printing, decide_eq_false hd, Bool.false_eq_true, if_false, if_neg hd]

/-- A PRINT to SPOOL has its word of the status area written at once, changed or not (R170, R174). -/
theorem Dev.startPrint_spool (hd : b0 (o.param 1) = 2) :
    d.startPrint o = { d.printing o with
      engineQ := d.engineQ ++ (if d.statusLive then [⟨0x38, 1, some [0], false, true⟩] else [])
      statusImg := d.statusImg.set 6 0
      tasks := .fmtNext :: d.tasks } := by
  have hstart : d.startPrint o = ((d.printing o).writeStatus spoolAt).push [.fmtNext] := by
    simp only [Dev.startPrint, h, Dev.printing, decide_eq_true hd, if_true, if_pos hd]
  have hword : (d.printing o).statusWords.getD spoolAt 0 = 0 := by
    show wordOf (d.printing o).reader.spoolLines = 0
    rw [Dev.printing, if_pos hd]
    rfl
  rw [hstart, Dev.writeStatus_eq, hword]
  rfl

end

/-- Whatever its checks say, the take of a PRINT leaves the blocks other than the formatter and the reader as they were. -/
theorem Dev.startPrint_frame (o : Order) (d : Dev) :
    (d.startPrint o).nets = d.nets ∧ (d.startPrint o).mgr = d.mgr ∧ (d.startPrint o).mx = d.mx ∧
    (d.startPrint o).hv = d.hv ∧ (d.startPrint o).tx = d.tx ∧ (d.startPrint o).wait = d.wait := by
  cases h : d.printFault o with
  | some c =>
    rw [Dev.startPrint_refused h]
    exact ⟨rfl, rfl, rfl, rfl, rfl, rfl⟩
  | none =>
    by_cases hd : b0 (o.param 1) = 2
    · rw [Dev.startPrint_spool h hd]
      exact ⟨rfl, rfl, rfl, rfl, rfl, rfl⟩
    · rw [Dev.startPrint_port h hd]
      exact ⟨rfl, rfl, rfl, rfl, rfl, rfl⟩

/-- Settles O31: each take by its checks in their order, the clamps by their bounds, the spool word by the destination. -/
theorem takesOfInsulateAndPrint : Obligations.TakesOfInsulateAndPrint := by
  refine ⟨fun o d e f l flag he hf hl hflag => ?insulate,
    fun o d e first count dest table port spool range he hfirst hcount hdest htable hport hspool hrange => ?print⟩
  case insulate =>
    have he : e = d.startInsulate o := he
    have hclamp : insulClamps o = flag := by rw [Bool.eq_iff_iff, insulClamps_iff hf hl, hflag]
    obtain ⟨hnets, hmgr, hmx, hhv, hwait, hreader⟩ := Dev.startInsulate_frame o d
    have hfault := d.insulFault_eq
    have hrefused : ∀ c, d.insulFault = some c → e.tasks = .endOrder .refused c :: d.tasks ∧ e.ins = Insul.reset := by
      intro c hc
      rw [he, Dev.startInsulate_refused o hc]
      exact ⟨rfl, rfl⟩
    rw [← he] at hnets hmgr hmx hhv hwait hreader
    rw [hclamp] at hreader
    refine ⟨hnets, hmgr, hmx, hhv, hwait, hreader, fun hm => hrefused _ ?_, fun hm hk => hrefused _ ?_,
      fun hm hk hr => hrefused _ ?_, fun hm hk hr hp => ?starts⟩
    · rw [hfault, if_pos hm]
    · rw [hfault, if_neg (by simp [hm]), if_pos hk]
    · have hu : d.mx.usable = false := by
        rw [← Bool.not_eq_true, d.mx.usable_iff, not_and_or, Bool.not_eq_false]
        exact hr
      rw [hfault, if_neg (by simp [hm]), if_neg (by simp [hk]), if_pos hu]
    case starts =>
      have hu : d.mx.usable = true := d.mx.usable_iff.2 ⟨hr, hp⟩
      rw [if_neg (by simp [hm]), if_neg (by simp [hk]), if_neg (by simp [hu])] at hfault
      rw [he, Dev.startInsulate_starts o hfault, insulContext_eq hf hl]
      exact ⟨rfl, rfl⟩
  case print =>
    have he : e = d.startPrint o := he
    have hfault := Dev.printFault_eq (d := d) hfirst hcount hdest
    have hnoPort : (dest = 1 ∧ d.cfg.print.portOn = false) ↔ ¬port := by simp [hport]
    have hnoSpool : (dest = 2 ∧ d.noSpool = true) ↔ ¬spool := by rw [hspool, d.noSpool_iff, Classical.not_imp]
    have hnoRange : (count ≠ 0 ∧ d.mgr.used ≤ first) ↔ ¬range := by rw [hrange, Classical.not_imp, Nat.not_lt]
    have hrefused : ∀ c, d.printFault o = some c → e.tasks = .endOrder .refused c :: d.tasks := by
      intro c hc
      rw [he, Dev.startPrint_refused hc]
    obtain ⟨hnets, hmgr, hmx, hhv, htx, hwait⟩ := Dev.startPrint_frame o d
    rw [← he] at hnets hmgr hmx hhv htx hwait
    obtain rfl := propext htable
    refine ⟨hnets, hmgr, hmx, hhv, htx, hwait, fun h1 h2 => hrefused _ ?_, fun hd => ?destination, fun h => ?left⟩
    · rw [hfault, if_pos ⟨h1, h2⟩]
    case destination =>
      rw [if_neg (not_and_or.2 (hd.imp not_not.2 not_not.2))] at hfault
      refine ⟨fun ht => hrefused _ ?_, fun ht hp => hrefused _ ?_, fun ht hp hs => hrefused _ ?_,
        fun ht hp hs hr => hrefused _ ?_, fun ht hp hs hr => ?starts⟩
      · rw [hfault, if_pos ht]
      · rw [hfault, if_neg (not_not.2 ht), if_pos (hnoPort.2 hp)]
      · rw [hfault, if_neg (not_not.2 ht), if_neg (hnoPort.not.2 (not_not.2 hp)), if_pos (hnoSpool.2 hs)]
      · rw [hfault, if_neg (not_not.2 ht), if_neg (hnoPort.not.2 (not_not.2 hp)), if_neg (hnoSpool.not.2 (not_not.2 hs)),
          if_pos (hnoRange.2 hr)]
      case starts =>
        rw [if_neg (not_not.2 ht), if_neg (hnoPort.not.2 (not_not.2 hp)), if_neg (hnoSpool.not.2 (not_not.2 hs)),
          if_neg (hnoRange.not.2 (not_not.2 hr))] at hfault
        subst hfirst hcount hdest
        by_cases h2 : b0 (o.param 1) = 2
        · rw [he, Dev.startPrint_spool hfault h2]
          refine ⟨rfl, rfl, fun h1 => ?_, fun _ => ⟨rfl, fun hi hst => ?_, fun hq => ?_⟩, rfl⟩
          · rw [h2] at h1; cases h1
          · have hlive : d.statusLive = true := d.statusLive_iff.2 ⟨hi, hst⟩
            simp only [hlive, if_true]
          · have hlive : d.statusLive = false := d.statusLive_eq_false_iff.2 hq
            simp only [hlive, Bool.false_eq_true, if_false, List.append_nil]
        · rw [he, Dev.startPrint_port hfault h2]
          exact ⟨rfl, rfl, fun _ => ⟨rfl, rfl⟩, fun h => absurd h h2, rfl⟩
    case left =>
      have hfails : d.printFault o ≠ none := by
        intro hc
        rw [hfault] at hc
        split_ifs at hc with h1 h2 h3 h4 h5
        exact h.elim h1 fun h => h.elim (absurd h2) fun h => h.elim (fun hp => h3 (hnoPort.2 hp)) fun h =>
          h.elim (fun hs => h4 (hnoSpool.2 hs)) fun hr => h5 (hnoRange.2 hr)
      obtain ⟨c, hc⟩ := Option.ne_none_iff_exists'.1 hfails
      rw [he, Dev.startPrint_refused hc]
      exact ⟨rfl, rfl, rfl, rfl, rfl⟩

end Sys2Proof.Machine

namespace Sys2Proof.Machine

/-! # What every step keeps of the defect table -/

/-! ## The LIVE keys (R144) -/

/-- No two LIVE records share a key: of any two places, not both hold LIVE records with one key. -/
theorem distinctLive_iff_pairwise (rs : List KeyRec) :
    distinctLive rs ↔ rs.Pairwise fun a b => a.live = true → b.live = true → a.key ≠ b.key := by
  rw [distinctLive, List.Nodup, List.pairwise_map, List.pairwise_filter]

/-- A LIVE key stands at one place of the index. -/
theorem distinctLive_place {rs : List KeyRec} (h : distinctLive rs) {i j : Nat} {a b : KeyRec} (hi : rs[i]? = some a)
    (hj : rs[j]? = some b) (ha : a.live = true) (hb : b.live = true) (hk : a.key = b.key) : i = j := by
  rw [distinctLive_iff_pairwise, List.pairwise_iff_getElem] at h
  obtain ⟨hil, rfl⟩ := List.getElem?_eq_some_iff.1 hi
  obtain ⟨hjl, rfl⟩ := List.getElem?_eq_some_iff.1 hj
  rcases lt_trichotomy i j with hlt | heq | hgt
  · exact absurd hk (h i j hil hjl hlt ha hb)
  · exact heq
  · exact absurd hk.symm (h j i hjl hil hgt hb ha)

/-- Settles O23: what every event and every run of the thread keeps, every step keeps; the rest is the agreement itself,
place by place. -/
theorem stepsKeepDefectTable : Obligations.StepsKeepDefectTable := by
  refine ⟨fun s t hs hstep => step_kept kept_mgrOk hstep hs, fun m h => ?_⟩
  obtain ⟨⟨hused, hlive, hsum, hcap, hdistinct⟩, _⟩ := h
  exact ⟨hused, hlive, hsum, hcap, fun i j a b => distinctLive_place hdistinct⟩

end Sys2Proof.Machine

namespace Sys2Proof.Machine

/-! # START: its checks, the binding of the defect table, and its end -/

/-! ## The checks of START (R175) -/

theorem regionFits_iff (off bytes m : Nat) :
    regionFits off bytes m = true ↔ off % 4 = 0 ∧ 0x80 ≤ off ∧ off + bytes ≤ m := by
  simp [regionFits, and_assoc]

theorem headerFits_iff (w m : Nat) : headerFits w m = true ↔ w % 4 = 0 ∧ 0x80 ≤ w ∧ w + 12 ≤ m := by
  simp [headerFits, and_assoc]

theorem memoryBytes_eq_none {c : Nat} (h : c = 0 ∨ 5 < c) : memoryBytes c = none := by
  obtain rfl | h := h
  · rfl
  · obtain ⟨n, rfl⟩ : ∃ n, c = n + 6 := ⟨c - 6, by omega⟩
    rfl

section
variable {ws : List Word} {w : Nat → Nat} (hw : ∀ i, w i = (ws.getD i 0).toNat)
include hw

theorem startFault_noMemory (h : memoryBytes (w 0) = none) : startFault ws = some 1 := by
  simp only [startFault, ← hw, h, Option.isNone_none, if_true]

/-- The checks behind that of the memory size, in their order: the defect table, the labels, the compensation table, the
spool, the chain head. -/
theorem startFault_eq {m : Nat} (h : memoryBytes (w 0) = some m) : startFault ws =
    if ¬(w 2 ≠ 0 → 1 ≤ w 3 ∧ w 3 ≤ 1024 ∧ w 2 % 4 = 0 ∧ 0x80 ≤ w 2 ∧ w 2 + (16 + 32 * w 3) ≤ m) then some 2
    else if ¬(w 4 ≠ 0 → w 4 % 4 = 0 ∧ 0x80 ≤ w 4 ∧ w 4 + 49152 ≤ m) then some 3
    else if ¬(w 5 ≠ 0 → w 5 % 4 = 0 ∧ 0x80 ≤ w 5 ∧ w 5 + 8192 ≤ m) then some 4
    else if ¬(w 6 ≠ 0 → 1 ≤ w 7 ∧ w 7 ≤ 65535 ∧ w 6 % 4 = 0 ∧ 0x80 ≤ w 6 ∧ w 6 + 64 * w 7 ≤ m) then some 5
    else if ¬(w 1 ≠ 0 → w 1 % 4 = 0 ∧ 0x80 ≤ w 1 ∧ w 1 + 12 ≤ m) then some 6
    else none := by
  simp only [startFault, bindOf, chainHeadOf, ← hw, h, Option.isNone_some, Option.getD_some, Bool.false_eq_true, if_false,
    ← Bool.not_eq_true, regionFits_iff, headerFits_iff, Classical.not_imp]

end

/-! ## What START reads and how it acts (R175, R176, R192) -/

theorem issuedWrite_eq_none {bs : List Burst} {off : Nat} (h : ∀ b ∈ bs, off < b.off) : issuedWrite bs off = none := by
  induction bs with
  | nil => rfl
  | cons b bs ih =>
    have hb : ¬b.off ≤ off := Nat.not_le.2 (h b List.mem_cons_self)
    simp only [issuedWrite, ih fun x hx => h x (List.mem_cons_of_mem b hx), if_neg hb]
    cases b.data <;> rfl

/-- Where no issued write lies at or before a word, it is read from the queue or the RAM. -/
theorem State.peek_eq {s : State} {off : Nat} (h : ∀ b ∈ s.dev.engineQ, off < b.off) :
    s.peek off = (newest s.hostQ off).getD (ramRead s.ramBytes s.mem off) := by
  simp only [State.peek, issuedWrite_eq_none h]
  cases newest s.hostQ off <;> rfl

theorem exec_start_ignored {s : State} (h : s.dev.reader.state ≠ .stopped) : exec .start s = .next s := by
  have hno : ¬(s.busFree && decide (s.dev.reader.state = .stopped)) = true := by simp [h]
  exact congrArg Host.Outcome.next (if_neg hno)

/-- The reader's own reads change the marker of the last grant alone (log 9). -/
theorem State.markReads_eq (offs : List Nat) (s : State) : ∃ g, s.markReads offs = { s with lastGrant := g } := by
  unfold State.markReads
  split
  · exact ⟨s.lastGrant, rfl⟩
  · exact ⟨.engine, rfl⟩

/-- START in STOPPED acts on the control block's eight words. -/
theorem exec_start_stopped {s : State} {ws : List Word} (hbus : s.hostWait = none) (hs : s.dev.reader.state = .stopped)
    (hws : ws = (List.range 8).map fun i => s.peek (4 * i)) :
    ∃ g, exec .start s = .next { s with lastGrant := g, dev := (s.dev.start ws).settle s.hostQ } := by
  have hgo : (s.busFree && decide (s.dev.reader.state = .stopped)) = true := by simp [State.busFree, hbus, hs]
  obtain ⟨g, hg⟩ := s.markReads_eq controlOffs
  have hstart : s.start = (s.markReads controlOffs).withDev (Dev.start (controlOffs.map s.peek)) := if_pos hgo
  refine ⟨g, congrArg Host.Outcome.next (hstart.trans ?_)⟩
  rw [hg, hws]
  rfl

theorem Dev.start_fails {ws : List Word} {n : Nat} (h : startFault ws = some n) (d : Dev) :
    d.start ws = (d.onReader fun r => { r with lastError := .badControlBlock, startCheck := n }).post 0x20
      (d.onReader fun r => { r with lastError := .badControlBlock, startCheck := n }).statusWords := by
  simp only [Dev.start, h]
  rfl

/-- The blocks whose reader has passed START's checks: RUNNING, the locations bound, the defect table's binding, the image
and START's end to do. -/
def Dev.started (ws : List Word) (d : Dev) : Dev :=
  { d with
    reader := { d.reader with
      lastError := .none, startCheck := 0, state := .running, bind := some (bindOf ws), earlyNotice := false }
    tasks := [.bindTable, .image, .startEnd (ws.getD 1 0).toNat] }

theorem Dev.start_passes {ws : List Word} {d : Dev} (h : startFault ws = none) (ht : d.tasks = []) :
    d.start ws = d.started ws := by
  simp only [Dev.start, h, ht]
  rfl

/-! ## The steps of the binding (R152, R153) -/

/-- A table initialized, whatever has been read back of it: it is empty and its header is to be written. -/
theorem Dev.initTable_eq (o : TableStart) (d : Dev) : d.initTable o = { d with
    mgr := { d.mgr with used := 0, live := 0, absorbed := 0, dropped := 0, index := [], back := .none }
    tasks := .write d.mgr.off [0, 0, 0, 0] :: .bindEnd o :: d.tasks } := rfl

section
variable {d : Dev} {b : Bind} (hb : d.reader.bind = some b)
include hb

theorem Dev.bindTable_unbound (h : b.defOff = 0) :
    d.bindTable = { d with mgr := Manager.reset, tasks := .bindEnd .none :: d.tasks } := by
  simp only [Dev.bindTable, hb, if_pos h]
  rfl

theorem Dev.bindTable_initializes (h : b.defOff ≠ 0) (hm : d.mgr.binding = .none) : d.bindTable = { d with
    mgr := { d.mgr with
      off := b.defOff, cap := b.defCap, used := 0, live := 0, absorbed := 0, dropped := 0, index := [], back := .none }
    tasks := .write b.defOff [0, 0, 0, 0] :: .bindEnd .initialized :: d.tasks } := by
  simp only [Dev.bindTable, hb, if_neg h, if_pos hm]
  rfl

theorem Dev.bindTable_rebuilds (h : b.defOff ≠ 0) (hm : d.mgr.binding ≠ .none) : d.bindTable = { d with
    mgr := { d.mgr with
      off := b.defOff, cap := b.defCap, used := 0, live := 0, absorbed := 0, dropped := 0, index := [], back := .none
      state := .rebuilding }
    rbuf := [], tasks := .read b.defOff 4 :: .rebuildHead :: d.tasks } := by
  simp only [Dev.bindTable, hb, if_neg h, if_neg hm]
  rfl

end

/-! ## The checks of a rebuild (R153) -/

section
variable {d : Dev} {u l a x : Word} (hw : d.rbuf = [u, l, a, x])
include hw

theorem Dev.rebuildHead_fails (h : d.mgr.cap < u.toNat ∨ l.toNat + a.toNat ≠ u.toNat) :
    d.rebuildHead = d.clearBuf.initTable .rebuildFailed := by
  simp only [Dev.rebuildHead, Dev.word, hw]
  exact if_pos h

theorem Dev.rebuildHead_passes (hu : u.toNat ≤ d.mgr.cap) (hs : l.toNat + a.toNat = u.toNat) :
    d.rebuildHead = { d with
      mgr := { d.mgr with back := ⟨u.toNat, l.toNat, a.toNat, x.toNat, []⟩ }
      rbuf := [], tasks := .rebuildEntry 0 :: d.tasks } := by
  have h : ¬(d.mgr.cap < u.toNat ∨ l.toNat + a.toNat ≠ u.toNat) := by omega
  simp only [Dev.rebuildHead, Dev.word, hw]
  exact if_neg h

end

theorem Readback.agrees_iff (b : Readback) :
    b.agrees = true ↔ b.index.length = b.used ∧ (b.index.filter (·.live)).length = b.live := by
  rw [Readback.agrees, Bool.and_eq_true, decide_eq_true_eq, decide_eq_true_eq]
  rfl

section
variable {d : Dev} {i : Nat}

theorem Dev.rebuildEntry_reads (h : i < d.mgr.back.used) : d.rebuildEntry i = { d with
    rbuf := []
    tasks := .read (d.mgr.off + 16 + 32 * i) 1 :: .read (d.mgr.off + 16 + 32 * i + 8) 2 :: .rebuildCheck i :: d.tasks } :=
  if_pos h

theorem Dev.rebuildEntry_takes (h : d.mgr.back.used ≤ i) (hb : d.mgr.back.agrees = true) :
    d.rebuildEntry i = { d with mgr := d.mgr.install, tasks := .bindEnd .rebuilt :: d.tasks } :=
  (if_neg (Nat.not_lt.2 h)).trans (if_pos hb)

theorem Dev.rebuildEntry_fails (h : d.mgr.back.used ≤ i) (hb : ¬d.mgr.back.agrees = true) :
    d.rebuildEntry i = d.initTable .rebuildFailed :=
  (if_neg (Nat.not_lt.2 h)).trans (if_neg hb)

end

@[simp] theorem dkindOf_code (k : DKind) : dkindOf k.code = some k := by cases k <;> rfl

theorem eq_code_of_dkindOf {n : Nat} {k : DKind} (h : dkindOf n = some k) : n = k.code := by
  unfold dkindOf at h
  split at h <;> cases h
  all_goals rfl

theorem dkindOf_eq_none {n : Nat} (h : ∀ k : DKind, n ≠ k.code) : dkindOf n = none :=
  Option.eq_none_iff_forall_ne_some.2 fun k hk => h k (eq_code_of_dkindOf hk)

/-- A LIVE record with the key is there, or none is. -/
theorem lookupFrom_isSome_iff {k : Key} (rs : List KeyRec) (n : Nat) :
    (lookupFrom k n rs).isSome = true ↔ ∃ r ∈ rs, r.live = true ∧ r.key = k := by
  rw [Option.isSome_iff_ne_none, ne_eq, lookupFrom_eq_none_iff]
  push Not
  rfl

section
variable {d : Dev} {w0 w1 w2 : Word} (hw : d.rbuf = [w0, w1, w2]) (i : Nat)
include hw

theorem Dev.rebuildCheck_noKind (h : ∀ k : DKind, b0 w0 ≠ k.code) :
    d.rebuildCheck i = d.clearBuf.initTable .rebuildFailed := by
  have hkind : dkindOf (b0 (d.word 0)) = none := dkindOf_eq_none (by simpa [Dev.word, hw] using h)
  simp only [Dev.rebuildCheck, hkind]

theorem Dev.rebuildCheck_badState (h1 : b1 w0 ≠ 1) (h2 : b1 w0 ≠ 2) :
    d.rebuildCheck i = d.clearBuf.initTable .rebuildFailed := by
  have hword : d.word 0 = w0 := by simp [Dev.word, hw]
  unfold Dev.rebuildCheck
  rw [hword]
  cases dkindOf (b0 w0) with
  | none => rfl
  | some k => exact (if_neg h1).trans (if_neg h2)

variable {k : DKind} (hk : b0 w0 = k.code)
include hk

/-- A record of a kind, by its state: LIVE, ABSORBED or neither. -/
theorem Dev.rebuildCheck_kind {key : Key} (hkey : key = storedKey k (lo w1) (hi w1) (lo w2)) : d.rebuildCheck i =
    if b1 w0 = 1 then
      if (lookupFrom key 0 d.mgr.back.index).isSome then d.clearBuf.initTable .rebuildFailed
      else (d.onMgr (Manager.loadRecord ⟨key, true⟩)).clearBuf.push [.rebuildEntry (i + 1)]
    else if b1 w0 = 2 then (d.onMgr (Manager.loadRecord ⟨key, false⟩)).clearBuf.push [.rebuildEntry (i + 1)]
    else d.clearBuf.initTable .rebuildFailed := by
  simp [Dev.rebuildCheck, Dev.word, hw, hk, hkey]

end

/-! ## START's end (R176, R193) -/

section
variable {d : Dev} {head : Nat}

theorem Dev.startEnd_halts (h : d.reader.haltPending = true) : d.startEnd head = d.haltAt (.word .chainHead) := if_pos h

theorem Dev.startEnd_reaches (h : d.reader.haltPending = false) (h0 : head ≠ 0) : d.startEnd head = d.reach head :=
  (if_neg (by simp [h])).trans (if_neg h0)

/-- With the chain head 0 the reader waits there; told of a write to it since it was read, it reads it again. -/
theorem Dev.startEnd_waits (h : d.reader.haltPending = false) : d.startEnd 0 = { d with
    reader := { d.reader with state := .waiting, curOff := 0, watch := some .chainHead, earlyNotice := false }
    tasks := if d.reader.earlyNotice = true then .reread .chainHead :: d.tasks else d.tasks } := by
  cases he : d.reader.earlyNotice <;> simp [Dev.startEnd, Dev.watchWord, Dev.onReader, Dev.push, h, he]

end

/-! ## The thread as far as its first access (R152, R176) -/

/-- A thread whose next step writes issues the run of writes and waits for it. -/
theorem settleFor_write (q : List (Nat × Word)) {n : Nat} {d : Dev} {off : Nat} {ws : List Word} {ts : List Task}
    (hn : 0 < n) (hw : d.wait = .run) (ht : d.tasks = .write off ws :: ts) :
    settleFor q n d = (Dev.issueWrite off ws { d with tasks := ts }).sync := by
  rw [settleFor_next q n hn hw ht]
  exact settleFor_resting q _ (.inl (by simp [runTask]))

/-- A read of one burst whose first word is not queued asks the arbiter (R192, R194). -/
theorem Dev.issueRead_asks {q : List (Nat × Word)} {off : Nat} (h : newest q off = none) (d : Dev) :
    d.issueRead q off 4 = { d with engineQ := d.engineQ ++ [⟨off, 4, none, true, true⟩], wait := .mem } := by
  have hforward : forwarded q off 4 = none := forwarded_eq_none_iff.2 ⟨0, by decide, by rwa [Nat.mul_zero, Nat.add_zero]⟩
  have hasks : answerQueued q (readBursts 4 off 4) = ([], [⟨off, 4, none, true, true⟩], false) :=
    answerQueued_cons_asks (b := ⟨off, 4, none, true, true⟩) [] (.inr hforward)
  simp [Dev.issueRead, hasks]

/-- A thread whose next step writes the image issues all the status words, as they stand after it, and waits for them
(R174). -/
theorem settleFor_image (q : List (Nat × Word)) {n : Nat} {d t : Dev} {ts : List Task} (hn : 1 < n) (hw : d.wait = .run)
    (ht : d.tasks = .image :: ts) (hsettled : t = settleFor q n d) :
    t.mgr = d.mgr ∧ t.reader = { d.reader with imageLive := true } ∧ t.tasks = ts ∧ t.wait = .mem ∧
    ∀ b ∈ writeBursts true 11 0x20 t.statusWords, b ∈ t.engineQ := by
  obtain ⟨e, he⟩ : ∃ e, e = (runTask q .image { d with tasks := ts }).sync := ⟨_, rfl⟩
  have hwords : e.statusWords = d.statusWords := by rw [he, Dev.sync_statusWords]; rfl
  have htasks : e.tasks = .write 0x20 d.statusWords :: ts := by rw [he, Dev.sync_tasks]; rfl
  have hwait : e.wait = .run := by rw [he, Dev.sync_wait]; exact hw
  have hmgr : e.mgr = d.mgr := by rw [he, Dev.sync_mgr]; rfl
  have hreader : e.reader = { d.reader with imageLive := true } := by rw [he, Dev.sync_reader]; rfl
  have ht' : t = (Dev.issueWrite 0x20 d.statusWords { e with tasks := ts }).sync := by
    rw [hsettled, settleFor_next q n (by omega) hw ht, ← he]
    exact settleFor_write q (by omega) hwait htasks
  have htwords : t.statusWords = d.statusWords := by rw [ht', Dev.sync_statusWords, ← hwords]; rfl
  refine ⟨by simp [ht', hmgr], by simp [ht', hreader], by simp [ht'], by simp [ht'], fun b hb => ?_⟩
  rw [htwords] at hb
  rw [ht', Dev.sync_engineQ, Dev.issueWrite_engineQ]
  exact List.mem_append_left _ (List.mem_append_right _ hb)

section
variable {q : List (Nat × Word)} {d t : Dev} {b : Bind} {ts : List Task} (hw : d.wait = .run)
  (hts : d.tasks = .bindTable :: ts) (hb : d.reader.bind = some b) (ht : t = d.settle q)

include hw hts ht in
/-- A thread that begins with the binding goes on from what the binding comes to. -/
theorem Dev.settle_binding {e : Dev} (he : Dev.bindTable { d.sync with tasks := ts } = e) :
    t = settleFor q 19999 e.sync := by
  rw [ht, ← he]
  exact Dev.settle_next q hw hts

include hw hts hb ht

/-- With no table the binding ends at once, and a thread that goes on with the image is to write it. -/
theorem Dev.settle_unbound {rest : List Task} (hrest : ts = .image :: rest) (h : b.defOff = 0) :
    t.mgr = Manager.reset ∧ t.reader = { d.reader with tableStart := .none, imageLive := true } ∧
    t.tasks = rest ∧ t.wait = .mem ∧ ∀ x ∈ writeBursts true 11 0x20 t.statusWords, x ∈ t.engineQ := by
  have hbind := Dev.bindTable_unbound (d := { d.sync with tasks := ts }) (by rwa [Dev.sync_reader]) h
  have hsettled := Dev.settle_binding hw hts ht hbind
  rw [settleFor_next q 19999 (by decide) (by simp [hw]) (Dev.sync_tasks _)] at hsettled
  obtain ⟨hmgr, hreader, hthread⟩ := settleFor_image (ts := rest) q (by decide)
    (by simp [runTask, Dev.bindEnd, hw]) (by simp [runTask, Dev.bindEnd, hrest]) hsettled
  refine ⟨hmgr.trans ?_, hreader.trans ?_, hthread⟩
  · simp [runTask, Dev.bindEnd, Manager.reset]
  · simp [runTask, Dev.bindEnd]

/-- A table bound for the first time is initialized: its header is to be written. -/
theorem Dev.settle_initializes (h : b.defOff ≠ 0) (hm : d.mgr.binding = .none) :
    t.mgr = { d.mgr with
      off := b.defOff, cap := b.defCap, used := 0, live := 0, absorbed := 0, dropped := 0, index := [], back := .none } ∧
    t.reader = d.reader ∧ t.wait = .mem ∧ ⟨b.defOff, 4, some [0, 0, 0, 0], true, true⟩ ∈ t.engineQ := by
  have hbind := Dev.bindTable_initializes (d := { d.sync with tasks := ts }) (by rwa [Dev.sync_reader]) h
    (by rwa [Dev.sync_mgr])
  have hsettled := Dev.settle_binding hw hts ht hbind
  rw [settleFor_write q (by decide) (by simp [hw]) (Dev.sync_tasks _)] at hsettled
  refine ⟨by simp [hsettled], by simp [hsettled], by simp [hsettled], ?_⟩
  rw [hsettled, Dev.sync_engineQ, Dev.issueWrite_engineQ]
  exact List.mem_append_left _ (List.mem_append_right _ List.mem_cons_self)

/-- A table bound before is read back: its header is asked for. -/
theorem Dev.settle_rebuilds (h : b.defOff ≠ 0) (hm : d.mgr.binding ≠ .none) (hq : ∀ e ∈ q, e.1 ≠ b.defOff) :
    t.mgr.state = .rebuilding ∧ t.reader = d.reader ∧ t.wait = .mem ∧
    ⟨b.defOff, 4, none, true, true⟩ ∈ t.engineQ := by
  have hbind := Dev.bindTable_rebuilds (d := { d.sync with tasks := ts }) (by rwa [Dev.sync_reader]) h
    (by rwa [Dev.sync_mgr])
  have hsettled := Dev.settle_binding hw hts ht hbind
  rw [settleFor_next q 19999 (by decide) (by simp [hw]) (Dev.sync_tasks _), runTask,
    Dev.issueRead_asks (newest_eq_none_iff.2 hq), settleFor_resting q _ (.inl (by simp))] at hsettled
  refine ⟨by simp [hsettled], by simp [hsettled], by simp [hsettled], ?_⟩
  rw [hsettled, Dev.sync_engineQ]
  exact List.mem_append_left _ (List.mem_append_right _ List.mem_cons_self)

end

/-- Settles O24: the checks as a chain, START by the state of the reader and by its checks, and each step of the binding by
its own equation. -/
theorem startChecksAndActs : Obligations.StartChecksAndActs := by
  refine ⟨⟨rfl, rfl, rfl, rfl, rfl, fun c => memoryBytes_eq_none⟩,
    fun ws w hw => ⟨startFault_noMemory hw, fun m c2 c3 c4 c5 c6 hm h2 h3 h4 h5 h6 => ?checks⟩,
    fun s hbus => ⟨exec_start_ignored, fun ws hws hstopped => ?start⟩, fun q d empty failed hempty hfailed => ?steps⟩
  case checks =>
    obtain rfl := propext h2
    obtain rfl := propext h3
    obtain rfl := propext h4
    obtain rfl := propext h5
    obtain rfl := propext h6
    rw [startFault_eq hw hm]
    refine ⟨fun n2 => if_pos n2, fun p2 n3 => ?_, fun p2 p3 n4 => ?_, fun p2 p3 p4 n5 => ?_, fun p2 p3 p4 p5 n6 => ?_,
      fun p2 p3 p4 p5 p6 => ?_⟩
    · rw [if_neg (not_not.2 p2), if_pos n3]
    · rw [if_neg (not_not.2 p2), if_neg (not_not.2 p3), if_pos n4]
    · rw [if_neg (not_not.2 p2), if_neg (not_not.2 p3), if_neg (not_not.2 p4), if_pos n5]
    · rw [if_neg (not_not.2 p2), if_neg (not_not.2 p3), if_neg (not_not.2 p4), if_neg (not_not.2 p5), if_pos n6]
    · rw [if_neg (not_not.2 p2), if_neg (not_not.2 p3), if_neg (not_not.2 p4), if_neg (not_not.2 p5), if_neg (not_not.2 p6)]
  case start =>
    obtain ⟨g, hexec⟩ := exec_start_stopped hbus hstopped hws
    refine ⟨fun hq => ?words, fun n hn hrest => ?fails, fun hnone hwait htasks hbuf => ?passes⟩
    case words =>
      rw [hws]
      refine List.map_congr_left fun i hi => State.peek_eq fun b hb => ?_
      have hi := List.mem_range.1 hi
      have hb := hq b hb
      omega
    case fails =>
      have hrest' : (s.dev.start ws).Resting := by rw [Dev.start_fails hn]; exact hrest
      rw [Dev.settle_resting _ hrest', Dev.start_fails hn] at hexec
      refine ⟨_, hexec, rfl, rfl, by simp, by simp, fun b hb => ?_⟩
      rw [Dev.sync_statusWords] at hb
      rw [Dev.sync_engineQ, Dev.post_engineQ]
      exact List.mem_append_left _ (List.mem_append_right _ hb)
    case passes =>
      rw [Dev.start_passes hnone htasks] at hexec
      have hunbound := Dev.settle_unbound (q := s.hostQ) (d := s.dev.started ws) hwait rfl rfl rfl rfl
      have hinit := Dev.settle_initializes (q := s.hostQ) (d := s.dev.started ws) hwait rfl rfl rfl
      have hback := Dev.settle_rebuilds (q := s.hostQ) (d := s.dev.started ws) hwait rfl rfl rfl
      refine ⟨g, _, hexec, rfl, fun h => ?running, fun h0 => ?_, fun h0 hm => ?_, fun h0 hm hq => ?_⟩
      case running =>
        by_cases h0 : (bindOf ws).defOff = 0
        · obtain ⟨-, hreader, -, hmem, -⟩ := hunbound h0
          rw [hreader]
          exact ⟨hmem, rfl, rfl, rfl, rfl⟩
        · by_cases hm : s.dev.mgr.binding = .none
          · obtain ⟨-, hreader, hmem, -⟩ := hinit h0 hm
            rw [hreader]
            exact ⟨hmem, rfl, rfl, rfl, rfl⟩
          · obtain ⟨-, hreader, hmem, -⟩ := hback h0 hm ((h.resolve_left h0).resolve_left hm)
            rw [hreader]
            exact ⟨hmem, rfl, rfl, rfl, rfl⟩
      · obtain ⟨hmgr, hreader, hrest, -, himage⟩ := hunbound h0
        exact ⟨congrArg Manager.binding hmgr, congrArg Reader.tableStart hreader, hrest, himage⟩
      · obtain ⟨hmgr, -, -, hburst⟩ := hinit h0 hm
        exact ⟨hmgr, hburst⟩
      · obtain ⟨hstate, -, -, hburst⟩ := hback h0 hm hq
        exact ⟨hstate, hburst⟩
  case steps =>
    subst hempty hfailed
    refine ⟨fun b hb => ⟨Dev.bindTable_unbound hb, Dev.bindTable_initializes hb, Dev.bindTable_rebuilds hb⟩,
      fun u l a x hw => ⟨Dev.rebuildHead_fails hw, Dev.rebuildHead_passes hw⟩,
      fun i => ⟨Dev.rebuildEntry_reads, fun hi hn hl => Dev.rebuildEntry_takes hi ((Readback.agrees_iff _).2 ⟨hn, hl⟩),
        fun hi h => Dev.rebuildEntry_fails hi fun ha => ?_⟩,
      fun i w0 w1 w2 hw => ⟨fun h => ?_, fun k key hk hkey => ?_⟩, fun o => rfl, rfl,
      fun head => ⟨Dev.startEnd_halts, Dev.startEnd_reaches, fun hh h0 => h0 ▸ Dev.startEnd_waits hh⟩⟩
    · obtain ⟨hn, hl⟩ := (Readback.agrees_iff _).1 ha
      exact h.elim (absurd hn) (absurd hl)
    · exact h.elim (Dev.rebuildCheck_noKind hw i) fun ⟨h1, h2⟩ => Dev.rebuildCheck_badState hw i h1 h2
    · have hstored : key = storedKey k (lo w1) (hi w1) (lo w2) := by rw [hkey]; cases k <;> rfl
      have hcheck := Dev.rebuildCheck_kind hw i hk hstored
      refine ⟨fun h1 hthere => hcheck.trans ?_, fun h1 hnew => hcheck.trans ?_, fun h2 => hcheck.trans ?_⟩
      · rw [if_pos h1, if_pos ((lookupFrom_isSome_iff _ 0).2 hthere)]
        rfl
      · rw [if_pos h1, (lookupFrom_eq_none_iff _ 0).2 hnew]
        rfl
      · rw [if_neg (by omega), if_pos h2]
        rfl

end Sys2Proof.Machine

namespace Sys2Proof.Machine

/-! # What every step keeps of the print queue -/

/-- Settles O8: every step keeps what every event and every run of the thread keeps; with at most one line marked to leave,
the lines behind it are the fill. -/
theorem stepsKeepPrintQueueBound : Obligations.StepsKeepPrintQueueBound := by
  refine ⟨fun s t hs hstep => step_kept kept_txOk hstep hs, fun x => ?_⟩
  constructor
  · intro h
    obtain ⟨-, hfill⟩ := (Tx.ok_iff x).1 h
    obtain ⟨hmarked, hheld⟩ := h
    exact ⟨hmarked, hheld, hfill⟩
  · rintro ⟨hmarked, hheld, -⟩
    exact ⟨hmarked, hheld⟩

end Sys2Proof.Machine

namespace Sys2Proof.Machine

/-! # The print formatter and the printer port: what their operations do -/

/-! ## Characters on the port (R166) -/

/-- The transmitter once its next character may begin at the configured rate, or may not (R166). -/
def Tx.begins (may : Bool) (rate : Nat) (t : Tx) : Tx :=
  { t with state := if may then .sending else .hold, rate := if may then rate else t.rate }

theorem Dev.mayBegin_iff (d : Dev) :
    d.mayBegin = true ↔ d.pins.printerReady = true ∧ d.pins.paperOut = false ∧ d.cfg.print.portOn = true := by
  simp [Dev.mayBegin, and_assoc]

theorem Dev.mayBegin_eq_false_iff (d : Dev) :
    d.mayBegin = false ↔ d.pins.printerReady = false ∨ d.pins.paperOut = true ∨ d.cfg.print.portOn = false := by
  rw [← Bool.not_eq_true, Dev.mayBegin_iff, not_and_or, not_and_or, Bool.not_eq_true, Bool.not_eq_false, Bool.not_eq_true]

theorem Dev.eq_mayBegin {d : Dev} {may : Bool}
    (h : may = true ↔ d.pins.printerReady = true ∧ d.pins.paperOut = false ∧ d.cfg.print.portOn = true) :
    may = d.mayBegin := by
  rw [Bool.eq_iff_iff, h, Dev.mayBegin_iff]

theorem Dev.beginChar_eq (d : Dev) : d.beginChar = { d with tx := d.tx.begins d.mayBegin d.cfg.print.rate } := by
  unfold Dev.beginChar Tx.begins
  cases d.mayBegin <;> rfl

theorem Dev.retryChar_begins {d : Dev} (hs : d.tx.state = .hold) (hm : d.mayBegin = true) :
    d.retryChar = { d with tx := { d.tx with state := .sending, rate := d.cfg.print.rate } } := by
  rw [Dev.retryChar, if_pos ⟨hs, hm⟩, Dev.beginChar_eq, hm]
  rfl

theorem Dev.retryChar_stays {d : Dev} (h : d.tx.state ≠ .hold ∨ d.mayBegin = false) : d.retryChar = d := by
  rw [Dev.retryChar, if_neg]
  rintro ⟨hs, hm⟩
  exact h.elim (absurd hs) fun hno => Bool.false_ne_true (hno.symm.trans hm)

theorem length_portLine (t : Text) : (portLine t).length = t.length + 2 := by simp [portLine]

/-! ## The end of a character (R166, R168, R172) -/

theorem Dev.nextLine_more {d : Dev} (drained : Bool) (h : d.tx.queue ≠ []) :
    d.nextLine drained = { d with tx := { d.tx with pos := 0 }.begins d.mayBegin d.cfg.print.rate } := by
  rw [Dev.nextLine, if_neg (by simpa using h), Dev.beginChar_eq]
  rfl

section
variable {d : Dev} {l l' : Text} {ls : List Text}

theorem Dev.charEnd_within (hm : d.tx.discard = 0) (hq : d.tx.queue = l :: ls) (hp : d.tx.pos + 1 < l.length + 2) :
    d.charEnd = { d with tx := { d.tx with pos := d.tx.pos + 1 }.begins d.mayBegin d.cfg.print.rate } := by
  have hlen : d.tx.pos + 1 < (portLine (d.tx.queue.headD [])).length := by rwa [hq, length_portLine]
  rw [Dev.charEnd, if_neg (not_not_intro hm), if_pos hlen, Dev.beginChar_eq]
  rfl

/-- After the line feed the head line leaves the queue. -/
theorem Dev.charEnd_after (hm : d.tx.discard = 0) (hq : d.tx.queue = l :: ls) (hp : d.tx.pos + 1 = l.length + 2) :
    d.charEnd = (d.onTx fun t => { t with queue := ls }).nextLine true := by
  have hlen : ¬d.tx.pos + 1 < (portLine (d.tx.queue.headD [])).length := by
    rw [hq, List.headD_cons, length_portLine, hp]
    exact Nat.lt_irrefl _
  rw [Dev.charEnd, if_neg (not_not_intro hm), if_neg hlen, Dev.onTx, hq]
  rfl

theorem Dev.charEnd_goesOn (hm : d.tx.discard = 0) (hq : d.tx.queue = l :: l' :: ls) (hp : d.tx.pos + 1 = l.length + 2) :
    d.charEnd = { d with tx := { d.tx with queue := l' :: ls, pos := 0 }.begins d.mayBegin d.cfg.print.rate } := by
  rw [Dev.charEnd_after hm hq hp, Dev.nextLine_more true (List.cons_ne_nil l' ls)]
  rfl

/-- The last line leaves: the transmitter is IDLE and DRAINED is raised (R168). -/
theorem Dev.charEnd_drains (hm : d.tx.discard = 0) (hq : d.tx.queue = [l]) (hp : d.tx.pos + 1 = l.length + 2) :
    d.charEnd = { d with
      tx := { d.tx with queue := [], pos := 0, state := .idle }, attn := { d.attn with req := d.attn.req ||| srcBit 6 } } := by
  rw [Dev.charEnd_after hm hq hp]
  rfl

/-- The line that a soft reset has marked leaves at the end of its character (R172, log 24). -/
theorem Dev.charEnd_marked (hm : d.tx.discard = 1) (hq : d.tx.queue = l :: ls) :
    d.charEnd = (d.onTx fun t => { t with queue := ls, discard := 0 }).nextLine false := by
  rw [Dev.charEnd, if_pos (by rw [hm]; exact Nat.one_ne_zero), Dev.onTx, hm, hq]
  rfl

theorem Dev.charEnd_marked_last (hm : d.tx.discard = 1) (hq : d.tx.queue = [l]) :
    d.charEnd = { d with tx := { d.tx with queue := [], pos := 0, discard := 0, state := .idle } } := by
  rw [Dev.charEnd_marked hm hq]
  rfl

theorem Dev.charEnd_marked_more (hm : d.tx.discard = 1) (hq : d.tx.queue = l :: ls) (hls : ls ≠ []) :
    d.charEnd =
      { d with tx := { d.tx with queue := ls, pos := 0, discard := 0 }.begins d.mayBegin d.cfg.print.rate } := by
  rw [Dev.charEnd_marked hm hq, Dev.nextLine_more false hls]
  rfl

end

/-! ## A formatter that waits (R157, R165) -/

theorem Tx.room_iff (t : Tx) : t.room = true ↔ t.fill < 4 := decide_eq_true_iff

theorem Dev.wakeRoom_goes {d : Dev} (hw : d.wait = .room) (hr : d.tx.fill < 4) :
    d.wakeRoom = { d with wait := .run, fmt := { d.fmt with state := .formatting } } :=
  if_pos ⟨hw, (Tx.room_iff _).2 hr⟩

theorem Dev.wakeRoom_waits {d : Dev} (h : d.wait ≠ .room ∨ 4 ≤ d.tx.fill) : d.wakeRoom = d := by
  refine if_neg ?_
  rintro ⟨hw, hr⟩
  exact h.elim (absurd hw) fun hfull => Nat.not_lt.2 hfull ((Tx.room_iff _).1 hr)

theorem exec_formatLine (s : State) : exec .formatLine s = .next (s.withDev Dev.formatLine) := rfl

theorem exec_characterFrameEnd (s : State) : exec .characterFrameEnd s = .next (s.withDev Dev.frameOut) := rfl

theorem exec_formatLine_waiting {s : State} (h : s.dev.wait = .format) :
    exec .formatLine s = .next { s with dev := Dev.settle s.hostQ { s.dev with wait := .run } } := by
  have hgoes : s.dev.formatLine = { s.dev with wait := .run } := if_pos h
  rw [exec_formatLine, State.withDev_eq hgoes]

/-- A FORMAT_LINE that no formatter waits for brings nothing about (log 5). -/
theorem exec_formatLine_ignored {s : State} (h : s.dev.wait ≠ .format) :
    exec .formatLine s = .next { s with dev := s.dev.settle s.hostQ } := by
  have hstays : s.dev.formatLine = s.dev := if_neg h
  rw [exec_formatLine, State.withDev_eq hstays]

/-- The end of a frame that is not in progress brings nothing about (log 5). -/
theorem exec_characterFrameEnd_ignored {s : State} (h : s.dev.tx.state ≠ .sending) :
    exec .characterFrameEnd s = .next { s with dev := s.dev.settle s.hostQ } := by
  have hstays : s.dev.frameOut = s.dev := if_neg h
  rw [exec_characterFrameEnd, State.withDev_eq hstays]

/-- The end of a character's frame: what it makes of the transmitter, `e`, and then a formatter WAITING goes on if fewer than
4 lines are left (R165). -/
theorem exec_characterFrameEnd_sending {s : State} {e : Dev} {left : Nat} {w : Wait} {f : Fmt}
    (hgo : s.dev.wait = .room ∧ left < 4 → w = .run ∧ f = { s.dev.fmt with state := .formatting })
    (hstay : s.dev.wait ≠ .room ∨ 4 ≤ left → w = s.dev.wait ∧ f = s.dev.fmt)
    (hs : s.dev.tx.state = .sending) (he : s.dev.charEnd = e) (hwait : e.wait = s.dev.wait) (hfmt : e.fmt = s.dev.fmt)
    (hleft : left = e.tx.fill) :
    exec .characterFrameEnd s = .next { s with dev := Dev.settle s.hostQ { e with wait := w, fmt := f } } := by
  have hout : s.dev.frameOut = e.wakeRoom := by rw [Dev.frameOut, if_pos hs, he]
  have hwake : e.wakeRoom = { e with wait := w, fmt := f } := by
    by_cases hgoes : s.dev.wait = .room ∧ left < 4
    · obtain ⟨rfl, rfl⟩ := hgo hgoes
      rw [Dev.wakeRoom_goes (hwait.trans hgoes.1) (hleft ▸ hgoes.2), hfmt]
    · have hstays : s.dev.wait ≠ .room ∨ 4 ≤ left := by rwa [not_and_or, Nat.not_lt] at hgoes
      obtain ⟨rfl, rfl⟩ := hstay hstays
      rw [Dev.wakeRoom_waits (by rwa [hwait, ← hleft]), ← hwait, ← hfmt]
  rw [exec_characterFrameEnd, State.withDev_eq (hout.trans hwake)]

/-- The printer inputs are followed at once: each sets its pin, and a character in HOLD is tried again (R166). -/
theorem exec_printerInput {cmd : Instr} {s : State} {p : Pins}
    (h : cmd = .printerReadyAsserted ∧ p = { s.dev.pins with printerReady := true } ∨
      cmd = .printerReadyReleased ∧ p = { s.dev.pins with printerReady := false } ∨
      cmd = .paperOutAsserted ∧ p = { s.dev.pins with paperOut := true } ∨
      cmd = .paperOutReleased ∧ p = { s.dev.pins with paperOut := false }) :
    exec cmd s = .next { s with dev := Dev.settle s.hostQ ({ s.dev with pins := p } : Dev).retryChar } := by
  obtain ⟨rfl, rfl⟩ | ⟨rfl, rfl⟩ | ⟨rfl, rfl⟩ | ⟨rfl, rfl⟩ := h <;> rfl

/-! ## The parts of a PRINT (R157) -/

theorem Fmt.normal_eq (f : Fmt) :
    f.normal = { f with part :=
      if f.part = .over then .over
      else if f.part = .title ∧ f.title = true then .title
      else if f.part ≠ .footer ∧ f.cursor < f.stop then .entries
      else if f.footer = true then .footer else .over } := by
  obtain ⟨_, _, title, footer, _, _, stop, cursor, _, part, _, _, _, _, _, _, _, _⟩ := f
  by_cases hc : cursor < stop
  all_goals cases part <;> cases title <;> cases footer <;> simp [Fmt.normal, hc]

@[simp] theorem Fmt.normal_toSpool (f : Fmt) : f.normal.toSpool = f.toSpool := by rw [Fmt.normal_eq]
@[simp] theorem Fmt.normal_lines (f : Fmt) : f.normal.lines = f.lines := by rw [Fmt.normal_eq]

theorem Fmt.normal_footer {f : Fmt} (hp : f.part = .footer) (hf : f.footer = true) : f.normal = f := by
  simp [Fmt.normal, hp, hf]

theorem Dev.fmtNext_over {d : Dev} (h : d.fmt.normal.part = .over) :
    d.fmtNext = { d with
      fmt := { d.fmt.normal with state := .formatting }, tasks := .endOrder .done .done :: d.tasks } := if_pos h

theorem Dev.fmtNext_goes {d : Dev} (h : d.fmt.normal.part ≠ .over) :
    d.fmtNext = { d with
      fmt := { d.fmt.normal with state := .formatting }, tasks := .fmtBegin :: d.tasks, wait := .format } := if_neg h

/-! ## A line is begun unless the spool is full (R157, R170, log 23) -/

theorem Dev.spoolFull_iff {d : Dev} {b : Bind} (h : d.reader.bind = some b) :
    d.spoolFull = true ↔ d.fmt.toSpool = true ∧ b.spoolCap ≤ d.fmt.lines := by simp [Dev.spoolFull, h]

theorem Dev.spoolFull_port {d : Dev} (h : d.fmt.toSpool = false) : d.spoolFull = false := by simp [Dev.spoolFull, h]

theorem Dev.unlessFull_full {d : Dev} (f : Dev → Dev) (h : d.spoolFull = true) :
    (d.unlessFull f).tasks = [.endOrder .failed .spoolFull] := by
  rw [Dev.unlessFull, if_pos h]
  rfl

theorem Dev.unlessFull_goes {d : Dev} (f : Dev → Dev) (h : ¬d.spoolFull = true) : d.unlessFull f = f d := if_neg h

theorem Dev.fmtBegin_line {d : Dev} (h : d.fmt.normal.part = .title ∨ d.fmt.normal.part = .footer) :
    d.fmtBegin = (d.onFmt fun _ => d.fmt.normal).unlessFull (Dev.buffer
      (if d.fmt.normal.part = .title then titleLine d.fmt.normal.layout d.tag d.mgr.live
        else footerLine d.fmt.normal.printed)) := by
  obtain h | h := h <;> simp [Dev.fmtBegin, h]

theorem Dev.fmtBegin_entry {d : Dev} (h : d.fmt.normal.part = .entries) :
    d.fmtBegin = { d with
      fmt := d.fmt.normal, rbuf := []
      tasks := .read (d.mgr.off + 16 + 32 * d.fmt.normal.cursor) 8 :: .fmtEntry :: d.tasks } := by
  simp only [Dev.fmtBegin, h]
  rfl

/-- An ABSORBED entry that is not asked for is skipped, whatever the spool holds (R157, log 23). -/
theorem Dev.fmtEntry_skips {d : Dev} (hl : d.fmt.line = 0) (ha : b1 (d.rbuf.getD 0 0) = 2) (hw : d.fmt.withAbsorbed = false) :
    d.fmtEntry = { d with
      fmt := { d.fmt with cursor := d.fmt.cursor + 1, skipped := d.fmt.skipped + 1 }, rbuf := []
      tasks := .fmtBegin :: d.tasks } := if_pos ⟨hl, ha, hw⟩

theorem Dev.fmtEntry_prints {d : Dev} (h : d.fmt.line ≠ 0 ∨ b1 (d.rbuf.getD 0 0) ≠ 2 ∨ d.fmt.withAbsorbed = true) :
    d.fmtEntry = d.clearBuf.unlessFull fun x =>
      (x.onFmt fun f => { f with entry := d.rbuf, textA := [], textB := [] }).push [.fmtLabelA] := by
  refine if_neg ?_
  rintro ⟨hl, ha, hw⟩
  obtain h | h | h := h
  · exact h hl
  · exact h ha
  · exact Bool.false_ne_true (hw.symm.trans h)

theorem Dev.fmtBuild_eq {d : Dev} {o : Order} (h : d.reader.order = some o) :
    d.fmtBuild = { d with
      fmt := { d.fmt with
        buf := entryLine d.fmt.layout d.fmt.line (fieldTexts d.fmt.entry d.fmt.textA d.fmt.textB o.freeBase) }
      tasks := .fmtPlace :: d.tasks } := by
  simp only [Dev.fmtBuild, Dev.freeBase, h]
  rfl

/-! ## A line goes to its destination (R165, R169, R170) -/

theorem Dev.joinQueue_busy {d : Dev} (t : Text) (h : d.tx.state ≠ .idle) :
    d.joinQueue t = { d with tx := { d.tx with queue := d.tx.queue ++ [t] } } := if_neg h

theorem Dev.joinQueue_idle {d : Dev} (t : Text) (h : d.tx.state = .idle) :
    d.joinQueue t =
      { d with tx := { d.tx with queue := d.tx.queue ++ [t], pos := 0 }.begins d.mayBegin d.cfg.print.rate } := by
  rw [Dev.joinQueue, if_pos h, Dev.beginChar_eq]
  rfl

/-- A line that joins changes the transmitter alone. -/
theorem Dev.joinQueue_frame (t : Text) (d : Dev) : d.joinQueue t = { d with tx := (d.joinQueue t).tx } := by
  by_cases h : d.tx.state = .idle
  · rw [Dev.joinQueue_idle t h]
  · rw [Dev.joinQueue_busy t h]

theorem Dev.joinQueue_queue (t : Text) (d : Dev) : (d.joinQueue t).tx.queue = d.tx.queue ++ [t] := by
  by_cases h : d.tx.state = .idle
  · rw [Dev.joinQueue_idle t h]
    rfl
  · rw [Dev.joinQueue_busy t h]

/-- After the last line no safe point comes, after any other one does (R169, log 34). -/
theorem Dev.lineDone_eq (d : Dev) :
    d.lineDone = { d with
      fmt := d.fmt.accept
      tasks := (if d.fmt.accept.normal.part = .over then [.fmtNext] else [.safe, .fmtNext]) ++ d.tasks } := by
  by_cases h : d.fmt.accept.normal.part = .over
  · exact (if_pos h).trans (by rw [if_pos h]; rfl)
  · exact (if_neg h).trans (by rw [if_neg h]; rfl)

theorem Dev.fmtPlace_spool {d : Dev} {b : Bind} (hb : d.reader.bind = some b) (hs : d.fmt.toSpool = true) :
    d.fmtPlace = { d with
      tasks := .write (b.spoolOff + 64 * d.fmt.lines) (spoolRecord d.fmt.buf) :: .fmtSpooled :: d.tasks } := by
  simp only [Dev.fmtPlace, hs, hb, if_true]
  rfl

section
variable {d : Dev} (hs : d.fmt.toSpool = false)
include hs

theorem Dev.fmtPlace_joins (hr : d.tx.fill < 4) :
    d.fmtPlace = { d with
      tx := (d.joinQueue d.fmt.buf).tx, fmt := d.fmt.accept
      tasks := (if d.fmt.accept.normal.part = .over then [.fmtNext] else [.safe, .fmtNext]) ++ d.tasks } := by
  have hjoins : d.fmtPlace = (d.joinQueue d.fmt.buf).lineDone := by
    rw [Dev.fmtPlace, if_neg (by simp [hs]), if_pos ((Tx.room_iff _).2 hr)]
  rw [hjoins, Dev.lineDone_eq, Dev.joinQueue_frame]

theorem Dev.fmtPlace_full (hr : ¬d.tx.fill < 4) :
    d.fmtPlace = if d.stopWanted then (d.onFmt fun f => { f with buf := [] }).push [.safe, .fmtNext]
      else { (d.onFmt fun f => { f with state := .waiting }).push [.fmtPlace] with wait := .room } := by
  rw [Dev.fmtPlace, if_neg (by simp [hs]), if_neg fun h => hr ((Tx.room_iff _).1 h)]

theorem Dev.fmtPlace_waits (hr : ¬d.tx.fill < 4) (hh : d.reader.haltPending = false) (he : d.reader.ending = none) :
    d.fmtPlace = { d with fmt := { d.fmt with state := .waiting }, tasks := .fmtPlace :: d.tasks, wait := .room } := by
  rw [Dev.fmtPlace_full hs hr, if_neg (by simp [Dev.stopWanted, hh, he])]
  rfl

/-- A line that meets a full queue with a HALT or an ABORT pending is discarded (R169, log 70). -/
theorem Dev.fmtPlace_discards (hr : ¬d.tx.fill < 4) (h : d.reader.haltPending = true ∨ d.reader.ending ≠ none) :
    d.fmtPlace = { d with fmt := { d.fmt with buf := [] }, tasks := .safe :: .fmtNext :: d.tasks } := by
  rw [Dev.fmtPlace_full hs hr, if_pos (by simpa [Dev.stopWanted, Option.isSome_iff_ne_none] using h)]
  rfl

end

/-! ## A line has been accepted (R157) -/

@[simp] theorem Fmt.accept_lines (f : Fmt) : f.accept.lines = f.lines + 1 := by
  unfold Fmt.accept
  dsimp only
  split
  · rfl
  · split <;> rfl
  · rfl
  · rfl

@[simp] theorem Fmt.accept_buf (f : Fmt) : f.accept.buf = [] := by
  unfold Fmt.accept
  dsimp only
  split
  · rfl
  · split <;> rfl
  · rfl
  · rfl

theorem Fmt.accept_title {f : Fmt} (h : f.part = .title) :
    f.accept = { f with lines := f.lines + 1, buf := [], state := .formatting, part := .entries } := by
  simp [Fmt.accept, h]

theorem Fmt.accept_footer {f : Fmt} (h : f.part = .footer) :
    f.accept = { f with lines := f.lines + 1, buf := [], state := .formatting, part := .over } := by
  simp [Fmt.accept, h]

/-- An entry counts as printed with its first line, and the next entry follows its last. -/
theorem Fmt.accept_entry {f : Fmt} (h : f.part = .entries) :
    f.accept = { f with
      lines := f.lines + 1, buf := [], state := .formatting, printed := f.printed + (if f.line = 0 then 1 else 0)
      line := if f.line + 1 < f.layout.lines then f.line + 1 else 0
      cursor := if f.line + 1 < f.layout.lines then f.cursor else f.cursor + 1 } := by
  simp only [Fmt.accept, h]
  by_cases hl : f.line + 1 < f.layout.lines
  · simp only [if_pos hl]
  · simp only [if_neg hl]

/-! ## The footer line, through to the end of the PRINT -/

section
variable (q : List (Nat × Word)) {n : Nat} {d : Dev} {rest : List Task}

/-- The next step of a thread that runs, once what it comes to is known. -/
theorem settleFor_task {t : Task} {e : Dev} (hn : 0 < n) (hw : d.wait = .run) (ht : d.tasks = t :: rest)
    (he : runTask q t { d with tasks := rest } = e) : settleFor q n d = settleFor q (n - 1) e.sync := by
  rw [settleFor_next q n hn hw ht, he]

theorem settleFor_write_tx {off : Nat} {ws : List Word} (hn : 0 < n) (hw : d.wait = .run)
    (ht : d.tasks = .write off ws :: rest) : (settleFor q n d).tx = d.tx := by
  rw [settleFor_write q hn hw ht, Dev.sync_tx]
  rfl

/-- The end of an order issues its result section and waits, the transmitter left alone (R181). -/
theorem settleFor_endOrder_tx {st : OStatus} {c : Code} {o : Order} (hn : 2 ≤ n) (hw : d.wait = .run)
    (ht : d.tasks = .endOrder st c :: rest) (ho : d.reader.order = some o) : (settleFor q n d).tx = d.tx := by
  have hend := Dev.endOrder_eq (d := { d with tasks := rest }) ho st c
  have htx := (Dev.endOrder_keeps st c { d with tasks := rest }).2.1
  rw [hend] at htx
  rw [settleFor_task q (by omega) hw ht hend, settleFor_write_tx q (by omega) (Dev.sync_wait _) (Dev.sync_tasks _), Dev.sync_tx]
  exact htx

/-- A PRINT with no line left ends, the transmitter left alone. -/
theorem settleFor_printOver_tx {o : Order} (hn : 3 ≤ n) (hw : d.wait = .run) (ht : d.tasks = .fmtNext :: rest)
    (hp : d.fmt.normal.part = .over) (ho : d.reader.order = some o) : (settleFor q n d).tx = d.tx := by
  rw [settleFor_task q (by omega) hw ht (Dev.fmtNext_over hp)]
  refine (settleFor_endOrder_tx q (o := o) (by omega) ?_ (Dev.sync_tasks _) ?_).trans (Dev.sync_tx _)
  · rw [Dev.sync_wait]
    exact hw
  · rw [Dev.sync_reader]
    exact ho

end

theorem Dev.fmtBegin_footer {d : Dev} (hp : d.fmt.part = .footer) (hf : d.fmt.footer = true) (hs : d.fmt.toSpool = false) :
    d.fmtBegin = { d with
      fmt := { d.fmt with buf := footerLine d.fmt.printed }, tasks := .fmtPlace :: d.tasks } := by
  have hnormal := Fmt.normal_footer hp hf
  have hpart : d.fmt.normal.part = .footer := hnormal.symm ▸ hp
  have hroom : ¬(d.onFmt fun _ => d.fmt).spoolFull = true := by
    rw [Dev.spoolFull_port (d := d.onFmt fun _ => d.fmt) hs]
    exact Bool.false_ne_true
  rw [Dev.fmtBegin_line (.inr hpart), hnormal, Dev.unlessFull_goes _ hroom, if_neg (by rw [hp]; decide)]
  rfl

theorem Fmt.normal_accept_footer {f : Fmt} (h : f.part = .footer) : f.accept.normal.part = .over := by
  rw [Fmt.accept_footer h]
  rfl

theorem Dev.fmtPlace_footer {d : Dev} (hp : d.fmt.part = .footer) (hs : d.fmt.toSpool = false) (hr : d.tx.fill < 4) :
    d.fmtPlace = { d with tx := (d.joinQueue d.fmt.buf).tx, fmt := d.fmt.accept, tasks := .fmtNext :: d.tasks } := by
  rw [Dev.fmtPlace_joins hs hr, if_pos (Fmt.normal_accept_footer hp)]
  rfl

section
variable (q : List (Nat × Word)) {n : Nat} {d : Dev} {rest : List Task} {o : Order} (hw : d.wait = .run)
  (hp : d.fmt.part = .footer) (hs : d.fmt.toSpool = false) (hr : d.tx.fill < 4) (ho : d.reader.order = some o)
include hw hp hs hr ho

/-- The line built last joins the queue, and no other line does before the thread waits at the PRINT's end (R165). -/
theorem settleFor_placed_queue (hn : 4 ≤ n) (ht : d.tasks = .fmtPlace :: rest) :
    (settleFor q n d).tx.queue = d.tx.queue ++ [d.fmt.buf] := by
  rw [settleFor_task q (by omega) hw ht (Dev.fmtPlace_footer hp hs hr)]
  refine (congrArg Tx.queue (settleFor_printOver_tx q (o := o) (by omega) ?wait (Dev.sync_tasks _) ?part ?order)).trans ?_
  case wait =>
    rw [Dev.sync_wait]
    exact hw
  case part =>
    rw [Dev.sync_fmt]
    exact Fmt.normal_accept_footer hp
  case order =>
    rw [Dev.sync_reader]
    exact ho
  rw [Dev.sync_tx]
  exact Dev.joinQueue_queue _ _

theorem settleFor_footer_queue (hn : 5 ≤ n) (ht : d.tasks = .fmtBegin :: rest) (hf : d.fmt.footer = true) :
    (settleFor q n d).tx.queue = d.tx.queue ++ [footerLine d.fmt.printed] := by
  rw [settleFor_task q (by omega) hw ht (Dev.fmtBegin_footer hp hf hs)]
  refine (settleFor_placed_queue q (o := o) ?wait ?part ?port ?room ?order (by omega) (Dev.sync_tasks _)).trans ?_
  case wait =>
    rw [Dev.sync_wait]
    exact hw
  case part =>
    rw [Dev.sync_fmt]
    exact hp
  case port =>
    rw [Dev.sync_fmt]
    exact hs
  case room =>
    rw [Dev.sync_tx]
    exact hr
  case order =>
    rw [Dev.sync_reader]
    exact ho
  rw [Dev.sync_tx, Dev.sync_fmt]

end

theorem Dev.settle_footer_queue (q : List (Nat × Word)) {d : Dev} {rest : List Task} {o : Order} (hw : d.wait = .run)
    (ht : d.tasks = .fmtBegin :: rest) (hp : d.fmt.part = .footer) (hf : d.fmt.footer = true) (hs : d.fmt.toSpool = false)
    (hr : d.tx.fill < 4) (ho : d.reader.order = some o) :
    (d.settle q).tx.queue = d.tx.queue ++ [footerLine d.fmt.printed] := by
  have hfuel : 5 ≤ settleFuel := by unfold settleFuel; decide
  rw [← Dev.sync_tx d, ← Dev.sync_fmt d]
  exact settleFor_footer_queue q ((Dev.sync_wait d).trans hw) (by rwa [Dev.sync_fmt]) (by rwa [Dev.sync_fmt])
    (by rwa [Dev.sync_tx]) ((congrArg Reader.order (Dev.sync_reader d)).trans ho) hfuel ((Dev.sync_tasks d).trans ht)
    (by rwa [Dev.sync_fmt])

section
variable {q : List (Nat × Word)} {d : Dev} {b : Bind} (hb : d.reader.bind = some b)
include hb

/-- A title or footer line meets a full spool, or is built (R157, R170). -/
theorem Dev.fmtBegin_builds (hp : d.fmt.normal.part = .title ∨ d.fmt.normal.part = .footer) :
    (d.fmt.toSpool = true ∧ b.spoolCap ≤ d.fmt.lines → d.fmtBegin.tasks = [.endOrder .failed .spoolFull]) ∧
    (¬(d.fmt.toSpool = true ∧ b.spoolCap ≤ d.fmt.lines) → d.fmtBegin = { d with
      fmt := { d.fmt.normal with
        buf := if d.fmt.normal.part = .title then titleLine d.fmt.normal.layout d.tag d.mgr.live
          else footerLine d.fmt.normal.printed }
      tasks := .fmtPlace :: d.tasks }) := by
  have hfull : (d.onFmt fun _ => d.fmt.normal).spoolFull = true ↔ d.fmt.toSpool = true ∧ b.spoolCap ≤ d.fmt.lines := by
    rw [Dev.spoolFull_iff (d := d.onFmt fun _ => d.fmt.normal) hb, Dev.onFmt_fmt, Fmt.normal_toSpool, Fmt.normal_lines]
  rw [Dev.fmtBegin_line hp]
  refine ⟨fun h => Dev.unlessFull_full _ (hfull.2 h), fun h => ?_⟩
  rw [Dev.unlessFull_goes _ fun hf => h (hfull.1 hf)]
  rfl

/-- An entry's line meets a full spool, or goes on to its labels (R157, R170). -/
theorem Dev.fmtEntry_builds (hp : d.fmt.line ≠ 0 ∨ b1 (d.rbuf.getD 0 0) ≠ 2 ∨ d.fmt.withAbsorbed = true) :
    (d.fmt.toSpool = true ∧ b.spoolCap ≤ d.fmt.lines → d.fmtEntry.tasks = [.endOrder .failed .spoolFull]) ∧
    (¬(d.fmt.toSpool = true ∧ b.spoolCap ≤ d.fmt.lines) → d.fmtEntry = { d with
      fmt := { d.fmt with entry := d.rbuf, textA := [], textB := [] }, rbuf := [], tasks := .fmtLabelA :: d.tasks }) := by
  have hfull := Dev.spoolFull_iff (d := d.clearBuf) hb
  rw [Dev.fmtEntry_prints hp]
  refine ⟨fun h => Dev.unlessFull_full _ (hfull.2 h), fun h => ?_⟩
  rw [Dev.unlessFull_goes _ fun hf => h (hfull.1 hf)]
  rfl

end

/-- Settles O60: the port by the frame's effect on the head line and the formatter that waits for room, the formatter by its
part and by the line's destination. -/
theorem printerPortSendsLines : Obligations.PrinterPortSendsLines := by
  refine ⟨fun s => ?port, Fmt.normal_eq, fun q d b f full room hb hf hfull hroom => ?formatter⟩
  case port =>
    refine ⟨exec_formatLine_waiting, exec_formatLine_ignored, fun rest hw ht hp hfoot hs hr ho => ?footer,
      exec_characterFrameEnd_ignored, fun may left w f hs hmay hgo hstay => ?frame, fun cmd p hcmd => ?inputs⟩
    case footer =>
      obtain ⟨o, ho⟩ := Option.ne_none_iff_exists'.1 ho
      have hjoins := Dev.settle_footer_queue (d := { s.dev with wait := .run }) s.hostQ rfl ht hp hfoot hs hr ho
      exact ⟨_, exec_formatLine_waiting hw, hjoins⟩
    case frame =>
      obtain rfl := Dev.eq_mayBegin hmay
      have hends := fun e => exec_characterFrameEnd_sending (e := e) hgo hstay hs
      refine ⟨fun l ls hm hq hpos hl => ?_, fun l l' ls hm hq hpos hl => ?_, fun l hm hq hpos hl => ?_,
        fun l ls hm hq hl => ⟨fun hls => ?_, fun hls => ?_⟩⟩
      · have hout := hends _ (Dev.charEnd_within hm hq hpos) rfl rfl (by simp [Tx.begins, Tx.fill, hm, hq, hl])
        exact hout
      · have hout := hends _ (Dev.charEnd_goesOn hm hq hpos) rfl rfl (by simp [Tx.begins, Tx.fill, hm, hl])
        exact hout
      · have hout := hends _ (Dev.charEnd_drains hm hq hpos) rfl rfl (by simp [Tx.fill, hl])
        exact hout
      · subst hls
        have hout := hends _ (Dev.charEnd_marked_last hm hq) rfl rfl hl
        exact hout
      · have hout := hends _ (Dev.charEnd_marked_more hm hq hls) rfl rfl hl
        exact hout
    case inputs =>
      refine ⟨fun hs hready hpaper hon => ?_, fun h => ?_⟩
      · have hmay := (Dev.mayBegin_iff { s.dev with pins := p }).2 ⟨hready, hpaper, hon⟩
        rw [exec_printerInput hcmd, Dev.retryChar_begins (d := { s.dev with pins := p }) hs hmay]
      · have hstays := h.imp_right (Dev.mayBegin_eq_false_iff { s.dev with pins := p }).2
        rw [exec_printerInput hcmd, Dev.retryChar_stays (d := { s.dev with pins := p }) hstays]
  case formatter =>
    have hfull : full ↔ d.fmt.toSpool = true ∧ b.spoolCap ≤ d.fmt.lines := hfull
    subst hf
    rw [propext hfull]
    refine ⟨fun hp => congrArg Dev.tasks (Dev.fmtNext_over hp), Dev.fmtNext_goes, Dev.fmtBegin_builds hb,
      Dev.fmtBegin_entry, fun ws hws => ?entry, fun o => Dev.fmtBuild_eq, Dev.fmtPlace_spool hb,
      congrArg Dev.reader (Dev.lineDone_eq _), congrArg Dev.fmt (Dev.lineDone_eq _), rfl, fun hs hr => ?place,
      fun hs hr => Dev.fmtPlace_waits hs fun h => hr (hroom.2 h), fun hs hr => Dev.fmtPlace_discards hs fun h => hr (hroom.2 h),
      Fmt.accept_lines _, Fmt.accept_buf _, fun hp => ?_, fun hp => ?_, fun hp => ?_⟩
    case entry =>
      subst hws
      exact ⟨Dev.fmtEntry_skips, Dev.fmtEntry_builds hb⟩
    case place =>
      have hjoins : runTask q .fmtPlace d = _ := Dev.fmtPlace_joins hs (hroom.1 hr)
      rw [hjoins]
      refine ⟨Dev.joinQueue_queue _ _, fun hi => ?_, fun hi may hmay => ?_, rfl, rfl⟩
      · rw [Dev.joinQueue_busy _ hi]
      · obtain rfl := Dev.eq_mayBegin hmay
        rw [Dev.joinQueue_idle _ hi]
        rfl
    · rw [Fmt.accept_title hp]
      exact ⟨rfl, rfl⟩
    · rw [Fmt.accept_footer hp]
    · rw [Fmt.accept_entry hp]
      exact ⟨hp, rfl, fun hl => ⟨if_pos hl, if_pos hl⟩, fun hl => ⟨if_neg (Nat.not_lt.2 hl), if_neg (Nat.not_lt.2 hl)⟩⟩

end Sys2Proof.Machine

namespace Sys2Proof.Machine

/-! # The texts of a line -/

/-! ## Decimal digits (R160) -/

theorem digit_toNat {n : Nat} (h : n < 10) : (digit n).toNat = 0x30 + n := by
  rw [digit, if_pos h, BitVec.toNat_ofNat]
  omega

theorem decimalFrom_small {f n : Nat} (h : n < 10) : decimalFrom (f + 1) n = [digit (n % 10)] := by
  rw [decimalFrom, if_pos h, List.nil_append]

theorem decimalFrom_large {f n : Nat} (h : 10 ≤ n) :
    decimalFrom (f + 1) n = decimalFrom f (n / 10) ++ [digit (n % 10)] := by
  rw [decimalFrom, if_neg (Nat.not_lt.2 h)]

theorem decimalFrom_digits (f n : Nat) : ∀ c ∈ decimalFrom f n, 0x30 ≤ c.toNat ∧ c.toNat ≤ 0x39 := by
  induction f generalizing n with
  | zero => exact fun c hc => absurd hc List.not_mem_nil
  | succ f ih =>
    have hlast : ∀ c ∈ [digit (n % 10)], 0x30 ≤ c.toNat ∧ c.toNat ≤ 0x39 := by
      intro c hc
      rw [List.mem_singleton.1 hc, digit_toNat (by omega)]
      omega
    by_cases h : n < 10
    · rwa [decimalFrom_small h]
    · rw [decimalFrom_large (Nat.not_lt.1 h)]
      intro c hc
      exact (List.mem_append.1 hc).elim (ih _ c) (hlast c)

/-- The digits' value is the number, as long as there are digits for it. -/
theorem decimalFrom_value {f n : Nat} (h : n < 10 ^ f) :
    (decimalFrom f n).foldl (fun a c => 10 * a + (c.toNat - 0x30)) 0 = n := by
  induction f generalizing n with
  | zero => rw [Nat.lt_one_iff.1 h]; rfl
  | succ f ih =>
    have hdigit : (digit (n % 10)).toNat - 0x30 = n % 10 := by rw [digit_toNat (by omega)]; omega
    by_cases hn : n < 10
    · rw [decimalFrom_small hn, List.foldl_cons, List.foldl_nil, hdigit]
      omega
    · rw [decimalFrom_large (Nat.not_lt.1 hn), List.foldl_append, ih (by rw [Nat.pow_succ] at h; omega), List.foldl_cons,
        List.foldl_nil, hdigit]
      omega

theorem decimalFrom_ne_nil (f n : Nat) : decimalFrom (f + 1) n ≠ [] := by
  rw [decimalFrom]
  exact List.append_ne_nil_of_right_ne_nil _ (List.cons_ne_nil _ _)

/-- No leading zeros. -/
theorem decimalFrom_head {f n : Nat} (h : n < 10 ^ f) (h0 : 1 ≤ n) : (decimalFrom f n).head? ≠ some 0x30 := by
  induction f generalizing n with
  | zero => omega
  | succ f ih =>
    by_cases hn : n < 10
    · rw [decimalFrom_small hn, List.head?_cons]
      intro he
      have hzero : (digit (n % 10)).toNat = 0x30 := congrArg BitVec.toNat (Option.some.inj he)
      rw [digit_toNat (by omega)] at hzero
      omega
    · have hlt : n / 10 < 10 ^ f := by rw [Nat.pow_succ] at h; omega
      obtain ⟨g, rfl⟩ : ∃ g, f = g + 1 := ⟨f - 1, by cases f with | zero => omega | succ g => rfl⟩
      rw [decimalFrom_large (Nat.not_lt.1 hn), List.head?_append_of_ne_nil _ (decimalFrom_ne_nil g _)]
      exact ih hlt (by omega)

theorem length_decimalFrom {f k n : Nat} (h : n < 10 ^ (k + 1)) : (decimalFrom f n).length ≤ k + 1 := by
  induction f generalizing k n with
  | zero => exact Nat.zero_le _
  | succ f ih =>
    by_cases hn : n < 10
    · rw [decimalFrom_small hn, List.length_singleton]
      omega
    · obtain ⟨j, rfl⟩ : ∃ j, k = j + 1 := ⟨k - 1, by cases k with | zero => omega | succ j => rfl⟩
      rw [decimalFrom_large (Nat.not_lt.1 hn), List.length_append, List.length_singleton]
      exact Nat.succ_le_succ (ih (by rw [Nat.pow_succ] at h; omega))

theorem length_decimal {k n : Nat} (h : n < 10 ^ (k + 1)) : (decimal n).length ≤ k + 1 := length_decimalFrom h

theorem decimal_ne_nil (n : Nat) : decimal n ≠ [] := decimalFrom_ne_nil 9 n

/-! ## The ladder (R162) -/

theorem two_eq (d : Nat) (u : Char) :
    two d u = decimal (d / 100) ++ [0x2E, digit (d / 10 % 10), digit (d % 10), BitVec.ofNat 8 u.toNat] := by
  have htens : d % 100 / 10 % 10 = d / 10 % 10 := by omega
  have hones : d % 100 % 10 = d % 10 := by omega
  simp only [two, decimal2, htens, hones, List.append_assoc]
  rfl

theorem one_eq (d : Nat) (u : Char) :
    one d u = decimal (d / 10) ++ [0x2E, digit (d % 10), BitVec.ofNat 8 u.toNat] := by
  simp only [one, List.append_assoc]
  rfl

theorem length_two {d : Nat} (u : Char) (h : d < 1000) : 1 ≤ (two d u).length ∧ (two d u).length ≤ 5 := by
  have hwhole : (decimal (d / 100)).length ≤ 1 := length_decimal (k := 0) (by omega)
  rw [two_eq, List.length_append]
  simp only [List.length_cons, List.length_nil]
  omega

theorem length_one {d : Nat} (u : Char) (h : d < 1000) : 1 ≤ (one d u).length ∧ (one d u).length ≤ 5 := by
  have hwhole : (decimal (d / 10)).length ≤ 2 := length_decimal (k := 1) (by omega)
  rw [one_eq, List.length_append]
  simp only [List.length_cons, List.length_nil]
  omega

theorem length_whole {d : Nat} (b : Byte) (h : d < 1000) : 1 ≤ (decimal d ++ [b]).length ∧ (decimal d ++ [b]).length ≤ 5 := by
  have hwhole : (decimal d).length ≤ 3 := length_decimal (k := 2) h
  rw [List.length_append, List.length_singleton]
  omega

section
variable (u1 u2 u3 : Char) (sixth : Bool) {v : Nat}

theorem ladder_step1 (h : v < 1000) : ladder v u1 u2 u3 sixth = decimal v ++ [BitVec.ofNat 8 u1.toNat] := if_pos h

theorem ladder5_hundredths (h : sixth = false ∨ v < 9995000) : ladder5 v u3 sixth = two ((v + 5000) / 10000) u3 := by
  refine if_neg ?_
  simp only [Bool.and_eq_true, decide_eq_true_eq]
  rintro ⟨hs, hd⟩
  obtain h | h := h
  · exact Bool.false_ne_true (h.symm.trans hs)
  · omega

theorem ladder5_tenths (h : 9995000 ≤ v) (hs : sixth = true) : ladder5 v u3 sixth = one ((v + 50000) / 100000) u3 := by
  refine if_pos ?_
  simp only [Bool.and_eq_true, decide_eq_true_eq]
  exact ⟨hs, by omega⟩

/-- A value past the steps of the second unit is a step of the third, whichever range it is found in. -/
theorem ladder_third (h : 999500 ≤ v) : ladder v u1 u2 u3 sixth = ladder5 v u3 sixth := by
  by_cases hm : v < 1000000
  · rw [ladder, if_neg (by omega), if_neg (by omega), if_neg (by omega), if_pos hm, ladder4]
    exact if_neg (by omega)
  · rw [ladder, if_neg (by omega), if_neg (by omega), if_neg (by omega), if_neg hm]

theorem ladder4_whole (h : v < 999500) : ladder4 v u2 u3 sixth = decimal ((v + 500) / 1000) ++ [BitVec.ofNat 8 u2.toNat] :=
  if_pos (by omega)

theorem ladder3_tenths (h : v < 99950) : ladder3 v u2 u3 sixth = one ((v + 50) / 100) u2 := if_pos (by omega)

theorem ladder_step2 (h1 : 1000 ≤ v) (h2 : v < 9995) : ladder v u1 u2 u3 sixth = two ((v + 5) / 10) u2 := by
  rw [ladder, if_neg (by omega), if_pos (by omega)]
  exact if_pos (by omega)

theorem ladder_step3 (h1 : 9995 ≤ v) (h2 : v < 99950) : ladder v u1 u2 u3 sixth = one ((v + 50) / 100) u2 := by
  rw [← ladder3_tenths u2 u3 sixth h2, ladder, if_neg (by omega)]
  by_cases hr : v < 10000
  · rw [if_pos hr]
    exact if_neg (by omega)
  · rw [if_neg hr, if_pos (by omega)]

theorem ladder_step4 (h1 : 99950 ≤ v) (h2 : v < 999500) :
    ladder v u1 u2 u3 sixth = decimal ((v + 500) / 1000) ++ [BitVec.ofNat 8 u2.toNat] := by
  rw [← ladder4_whole u2 u3 sixth h2, ladder, if_neg (by omega), if_neg (by omega)]
  by_cases hr : v < 100000
  · rw [if_pos hr]
    exact if_neg (by omega)
  · rw [if_neg hr, if_pos (by omega)]

/-- A ladder's text is a few digits and a unit letter: at most five characters, up to the bound of its last step. -/
theorem length_ladder (h : v < 9995000 ∨ (sixth = true ∧ v < 99950000)) :
    1 ≤ (ladder v u1 u2 u3 sixth).length ∧ (ladder v u1 u2 u3 sixth).length ≤ 5 := by
  by_cases h1 : v < 1000
  · rw [ladder_step1 _ _ _ _ h1]
    exact length_whole _ h1
  by_cases h2 : v < 9995
  · rw [ladder_step2 _ _ _ _ (by omega) h2]
    exact length_two _ (by omega)
  by_cases h3 : v < 99950
  · rw [ladder_step3 _ _ _ _ (by omega) h3]
    exact length_one _ (by omega)
  by_cases h4 : v < 999500
  · rw [ladder_step4 _ _ _ _ (by omega) h4]
    exact length_whole _ (by omega)
  rw [ladder_third _ _ _ _ (by omega)]
  by_cases h5 : v < 9995000
  · rw [ladder5_hundredths _ _ (.inr h5)]
    exact length_two _ (by omega)
  · obtain ⟨hs, h6⟩ := h.resolve_left h5
    rw [ladder5_tenths _ _ (by omega) hs]
    exact length_one _ (by omega)

end

/-! ## Values (R162, R163) -/

theorem ohmText_within {v : Nat} (h : v ≤ 3200000) : ohmText v = ladder v 'm' 'R' 'k' false := if_neg (Nat.not_lt.2 h)

theorem ohmText_over {v : Nat} (h : 3200000 < v) : ohmText v = 0x3E :: ladder 3200000 'm' 'R' 'k' false := if_pos h

theorem marker_eq {gt lt : Bool} (base : Nat) (h : gt = false ∨ lt = false) :
    marker gt lt base = if gt then [0x3E] else if lt then [0x3C] else [] := by
  cases gt <;> cases lt
  · rfl
  · rfl
  · rfl
  · simp at h

theorem length_marker {gt lt : Bool} (base : Nat) (h : gt = false ∨ lt = false) : (marker gt lt base).length ≤ 1 := by
  rw [marker_eq base h]
  cases gt <;> cases lt <;> decide

theorem megText_within {v : Nat} (gt lt : Bool) (base : Nat) (h : v ≤ 9999999) :
    megText v gt lt base = marker gt lt base ++ ladder v 'M' 'G' 'T' true := if_neg (Nat.not_lt.2 h)

theorem megText_over {v : Nat} (gt lt : Bool) (base : Nat) (h : 9999999 < v) :
    megText v gt lt base = 0x3E :: ladder 9999999 'M' 'G' 'T' true := if_pos h

theorem length_ohmText {v : Nat} (h : v ≤ 3200000) : 1 ≤ (ohmText v).length ∧ (ohmText v).length ≤ 6 := by
  have := length_ladder 'm' 'R' 'k' false (v := v) (.inl (by omega))
  rw [ohmText_within h]
  omega

theorem length_megText {v : Nat} {gt lt : Bool} (base : Nat) (h : v ≤ 9999999) (hm : gt = false ∨ lt = false) :
    1 ≤ (megText v gt lt base).length ∧ (megText v gt lt base).length ≤ 6 := by
  have := length_ladder 'M' 'G' 'T' true (v := v) (.inr ⟨rfl, by omega⟩)
  have := length_marker base hm
  rw [megText_within gt lt base h, List.length_append]
  omega

/-! ## The texts of fields (R160, R161) -/

theorem fieldTexts_kind {ws : List Word} {k : DKind} (ta tb : Text) (base : Nat) (h : b0 (ws.getD 0 0) = k.code) :
    fieldTexts ws ta tb base =
      [k.text, ta, tb, valueText k (ws.getD 1 0) (ws.getD 4 0) base, decimal (hi (ws.getD 1 0)), hex8 (ws.getD 6 0)] := by
  simp only [fieldTexts, h, dkindOf_code]

theorem dkindOf_none {n : Nat} (h : n = 0 ∨ 8 < n) : dkindOf n = none := by
  unfold dkindOf
  split <;> first | omega | rfl

theorem fieldTexts_none {ws : List Word} (ta tb : Text) (base : Nat) (h : b0 (ws.getD 0 0) = 0 ∨ 8 < b0 (ws.getD 0 0)) :
    fieldTexts ws ta tb base = [[0x3F, 0x3F, 0x3F, 0x3F], [], [], [], [], []] := by
  simp only [fieldTexts, dkindOf_none h]
  rfl

theorem hex8_eq (w : Word) : hex8 w = (List.range 8).map fun i => digit (w.toNat / 16 ^ (7 - i) % 16) := rfl

theorem length_hex8 (w : Word) : (hex8 w).length = 8 := rfl

theorem hex8_get (w : Word) {i : Nat} (h : i < 8) : (hex8 w)[i]? = some (digit (w.toNat / 16 ^ (7 - i) % 16)) := by
  rw [hex8_eq, List.getElem?_map, List.getElem?_range h]
  rfl

theorem untilNul_eq (bs : List Byte) : untilNul bs = bs.takeWhile fun c => decide (c ≠ 0) := by
  induction bs with
  | nil => rfl
  | cons c bs ih =>
    by_cases h : c = 0
    · rw [untilNul, if_pos h, List.takeWhile_cons_of_neg (by simpa using h)]
    · rw [untilNul, if_neg h, List.takeWhile_cons_of_pos (by simpa using h), ih]

theorem textOf_eq (bs : List Byte) : textOf bs = (bs.takeWhile fun c => decide (c ≠ 0)).map printable := by
  rw [textOf, untilNul_eq]

theorem LabelOf.read_eq (l : LabelOf) (ws : List Word) :
    l.read ws = if textOf (ws.flatMap wordBytes) = [] then l.plain else textOf (ws.flatMap wordBytes) := by
  simp only [LabelOf.read, List.isEmpty_iff]

theorem LabelOf.plain_four {n : Nat} (h : n < 10000) :
    LabelOf.plain (.point n) = 0x50 :: [digit (n / 1000), digit (n / 100 % 10), digit (n / 10 % 10), digit (n % 10)] ∧
    LabelOf.plain (.net n) = 0x4E :: [digit (n / 1000), digit (n / 100 % 10), digit (n / 10 % 10), digit (n % 10)] := by
  simp only [LabelOf.plain, decimal4, if_pos h]
  exact ⟨rfl, rfl⟩

/-- Past 9999 all digits are printed (R161, log 48). -/
theorem LabelOf.plain_all {n : Nat} (h : 10000 ≤ n) :
    LabelOf.plain (.point n) = 0x50 :: decimal n ∧ LabelOf.plain (.net n) = 0x4E :: decimal n := by
  simp only [LabelOf.plain, decimal4, if_neg (Nat.not_lt.2 h)]
  exact ⟨rfl, rfl⟩

theorem Dev.labelPlace_point {d : Dev} {b : Bind} (h : d.reader.bind = some b) (p : Nat) :
    d.labelPlace (.point p) = if b.labelOff ≠ 0 ∧ p ≤ 4095 then some (b.labelOff + 12 * p, 3) else none := by
  simp only [Dev.labelPlace, h]
  exact if_congr (and_congr_right fun _ => Nat.lt_succ_iff) rfl rfl

theorem Dev.labelPlace_net (d : Dev) (n : Nat) :
    d.labelPlace (.net n) = if d.nets.tablesValid = true ∧ n ≤ d.nets.count then
      (d.nets.net n).name.map (fun off => (off, 4)) else none := by
  simp only [Dev.labelPlace, Bool.and_eq_true, decide_eq_true_eq]
  cases (d.nets.net n).name <;> rfl

/-! ## Characters that show (R159) -/

/-- A text of printing characters alone. -/
abbrev Shows (t : Text) : Prop := ∀ c ∈ t, 0x20 ≤ c.toNat ∧ c.toNat ≤ 0x7E

theorem shows_nil : Shows [] := fun _ hc => absurd hc List.not_mem_nil

theorem shows_cons {c : Byte} {t : Text} (hc : 0x20 ≤ c.toNat ∧ c.toNat ≤ 0x7E) (ht : Shows t) : Shows (c :: t) :=
  List.forall_mem_cons.2 ⟨hc, ht⟩

theorem shows_append {s t : Text} (hs : Shows s) (ht : Shows t) : Shows (s ++ t) := List.forall_mem_append.2 ⟨hs, ht⟩

theorem shows_chars {cs : List Char} (h : ∀ c ∈ cs, 0x20 ≤ c.toNat ∧ c.toNat ≤ 0x7E) : Shows (chars cs) := by
  intro b hb
  obtain ⟨c, hc, rfl⟩ := List.mem_map.1 hb
  have := h c hc
  rw [BitVec.toNat_ofNat]
  omega

theorem shows_spaces (n : Nat) : Shows (List.replicate n space) := by
  intro c hc
  rw [List.eq_of_mem_replicate hc]
  decide

theorem shows_digit {n : Nat} (h : n < 16) : 0x20 ≤ (digit n).toNat ∧ (digit n).toNat ≤ 0x7E := by
  unfold digit
  split <;> rw [BitVec.toNat_ofNat] <;> omega

theorem shows_decimal (n : Nat) : Shows (decimal n) := fun c hc => by
  have := decimalFrom_digits 10 n c hc
  omega

theorem printable_shows (b : Byte) : 0x20 ≤ (printable b).toNat ∧ (printable b).toNat ≤ 0x7E := by
  unfold printable
  split
  · assumption
  · decide

theorem shows_map_printable (bs : List Byte) : Shows (bs.map printable) := by
  intro c hc
  obtain ⟨b, -, rfl⟩ := List.mem_map.1 hc
  exact printable_shows b

theorem shows_textOf (bs : List Byte) : Shows (textOf bs) := shows_map_printable _

theorem shows_hex8 (w : Word) : Shows (hex8 w) := by
  intro c hc
  obtain ⟨i, -, rfl⟩ := List.mem_map.1 hc
  exact shows_digit (Nat.mod_lt _ (by decide))

section
variable {u1 u2 u3 : Char} (v : Nat) (sixth : Bool)

theorem shows_two (d : Nat) (hu : Shows (chars [u1])) : Shows (two d u1) := by
  rw [two_eq]
  exact shows_append (shows_decimal _) (shows_cons (by decide) (shows_cons (shows_digit (by omega))
    (shows_cons (shows_digit (by omega)) hu)))

theorem shows_one (d : Nat) (hu : Shows (chars [u1])) : Shows (one d u1) := by
  rw [one_eq]
  exact shows_append (shows_decimal _) (shows_cons (by decide) (shows_cons (shows_digit (by omega)) hu))

theorem shows_ladder5 (h3 : Shows (chars [u3])) : Shows (ladder5 v u3 sixth) := by
  unfold ladder5
  dsimp only
  split
  · exact shows_one _ h3
  · exact shows_two _ h3

theorem shows_ladder4 (h2 : Shows (chars [u2])) (h3 : Shows (chars [u3])) : Shows (ladder4 v u2 u3 sixth) := by
  unfold ladder4
  dsimp only
  split
  · exact shows_append (shows_decimal _) h2
  · exact shows_ladder5 v sixth h3

theorem shows_ladder3 (h2 : Shows (chars [u2])) (h3 : Shows (chars [u3])) : Shows (ladder3 v u2 u3 sixth) := by
  unfold ladder3
  dsimp only
  split
  · exact shows_one _ h2
  · exact shows_ladder4 v sixth h2 h3

theorem shows_ladder (h1 : Shows (chars [u1])) (h2 : Shows (chars [u2])) (h3 : Shows (chars [u3])) :
    Shows (ladder v u1 u2 u3 sixth) := by
  unfold ladder
  dsimp only
  repeat' split
  · exact shows_append (shows_decimal _) h1
  · exact shows_two _ h2
  · exact shows_ladder3 v sixth h2 h3
  · exact shows_ladder3 v sixth h2 h3
  · exact shows_ladder4 v sixth h2 h3
  · exact shows_ladder5 v sixth h3

end

theorem shows_ohmText (v : Nat) : Shows (ohmText v) := by
  have hladder (n : Nat) : Shows (ladder n 'm' 'R' 'k' false) :=
    shows_ladder n false (shows_chars (by simp)) (shows_chars (by simp)) (shows_chars (by simp))
  unfold ohmText
  split
  · exact shows_append (shows_chars (by simp)) (hladder _)
  · exact hladder v

theorem shows_marker (gt lt : Bool) (base : Nat) : Shows (marker gt lt base) := by
  cases gt <;> cases lt
  · exact shows_nil
  · exact shows_chars (cs := ['<']) (by simp)
  · exact shows_chars (cs := ['>']) (by simp)
  · exact shows_map_printable _

theorem shows_megText (v : Nat) (gt lt : Bool) (base : Nat) : Shows (megText v gt lt base) := by
  have hladder (n : Nat) : Shows (ladder n 'M' 'G' 'T' true) :=
    shows_ladder n true (shows_chars (by simp)) (shows_chars (by simp)) (shows_chars (by simp))
  unfold megText
  split
  · exact shows_append (shows_chars (by simp)) (hladder _)
  · exact shows_append (shows_marker gt lt base) (hladder v)

theorem shows_valueText (k : DKind) (w1 v : Word) (base : Nat) : Shows (valueText k w1 v base) := by
  cases k with
  | opn =>
    unfold valueText
    dsimp only
    split
    · exact shows_chars (by simp)
    · exact shows_ohmText _
  | hres | misw | shrt | xtra => exact shows_ohmText _
  | insl => exact shows_megText _ _ _ _
  | brkd | arc => exact shows_append (shows_decimal _) (shows_chars (by simp))

theorem shows_decimal4 (n : Nat) : Shows (decimal4 n) := by
  unfold decimal4
  split
  · exact shows_cons (shows_digit (by omega)) (shows_cons (shows_digit (by omega)) (shows_cons (shows_digit (by omega))
      (shows_cons (shows_digit (by omega)) shows_nil)))
  · exact shows_decimal n

theorem LabelOf.shows_plain (l : LabelOf) : Shows l.plain := by
  cases l with
  | nothing => exact shows_nil
  | net n => exact shows_append (shows_chars (by simp)) (shows_decimal4 n)
  | point n => exact shows_append (shows_chars (by simp)) (shows_decimal4 n)

theorem LabelOf.shows_read (l : LabelOf) (ws : List Word) : Shows (l.read ws) := by
  rw [LabelOf.read_eq]
  split
  · exact l.shows_plain
  · exact shows_textOf _

theorem DKind.shows_text (k : DKind) : Shows k.text := by
  cases k <;> exact shows_chars (by simp)

theorem shows_fieldTexts (ws : List Word) {ta tb : Text} (base : Nat) (ha : Shows ta) (hb : Shows tb) :
    ∀ t ∈ fieldTexts ws ta tb base, Shows t := by
  unfold fieldTexts
  dsimp only
  split
  · have hunknown : Shows (chars ['?', '?', '?', '?']) := shows_chars (by simp)
    simpa only [List.forall_mem_cons] using ⟨hunknown, shows_nil, shows_nil, shows_nil, shows_nil, shows_nil,
      fun _ h => absurd h List.not_mem_nil⟩
  · rename_i k _
    simpa only [List.forall_mem_cons] using ⟨k.shows_text, ha, hb, shows_valueText _ _ _ _, shows_decimal _, shows_hex8 _,
      fun _ h => absurd h List.not_mem_nil⟩

/-! ## A field in its window (R159) -/

theorem cut_long {w : Nat} {t : Text} (h : w < t.length) : cut w t = t.take (w - 1) ++ [tilde] := if_pos h

theorem cut_fits {w : Nat} {t : Text} (h : t.length ≤ w) : cut w t = t := if_neg (Nat.not_lt.2 h)

theorem length_cut_le {w : Nat} (t : Text) (h : 1 ≤ w) : (cut w t).length ≤ w := by
  by_cases ht : w < t.length
  · rw [cut_long ht, List.length_append, List.length_take, List.length_singleton]
    omega
  · rw [cut_fits (Nat.not_lt.1 ht)]
    omega

theorem shows_cut {t : Text} (w : Nat) (h : Shows t) : Shows (cut w t) := by
  unfold cut
  split
  · exact shows_append (fun c hc => h c (List.mem_of_mem_take hc)) (shows_cons (by decide) shows_nil)
  · exact h

/-- The characters a field's text takes in its window. -/
def Window.body (x : Window) (t : Text) : Text :=
  if x.right then
    List.replicate (x.last - x.first + 1 - (cut (x.last - x.first + 1) t).length) space ++ cut (x.last - x.first + 1) t
  else cut (x.last - x.first + 1) t ++ List.replicate (x.last - x.first + 1 - (cut (x.last - x.first + 1) t).length) space

theorem putField_eq (x : Window) (t cells : Text) :
    putField x t cells = cells.take x.first ++ x.body t ++ cells.drop (x.last + 1) := rfl

theorem Window.length_body (x : Window) (t : Text) : (x.body t).length = x.last - x.first + 1 := by
  have := length_cut_le (w := x.last - x.first + 1) t (by omega)
  unfold Window.body
  split <;> rw [List.length_append, List.length_replicate] <;> omega

theorem Window.body_long {x : Window} {t : Text} (h : x.last - x.first + 1 < t.length) :
    x.body t = t.take (x.last - x.first) ++ [tilde] := by
  have hcut : cut (x.last - x.first + 1) t = t.take (x.last - x.first) ++ [tilde] := cut_long h
  have hpad : x.last - x.first + 1 - (t.take (x.last - x.first) ++ [tilde]).length = 0 := by
    rw [List.length_append, List.length_take, List.length_singleton]
    omega
  unfold Window.body
  rw [hcut, hpad, List.replicate_zero, List.nil_append, List.append_nil, ite_self]

theorem Window.body_fits {x : Window} {t : Text} (h : t.length ≤ x.last - x.first + 1) :
    x.body t = if x.right then List.replicate (x.last - x.first + 1 - t.length) space ++ t
      else t ++ List.replicate (x.last - x.first + 1 - t.length) space := by
  unfold Window.body
  rw [cut_fits h]

theorem length_putField {x : Window} (t : Text) {cells : Text} (h1 : x.first ≤ x.last) (h2 : x.last < cells.length) :
    (putField x t cells).length = cells.length := by
  rw [putField_eq, List.length_append, List.length_append, List.length_take, List.length_drop, Window.length_body]
  omega

theorem shows_putField (x : Window) {t cells : Text} (ht : Shows t) (hc : Shows cells) : Shows (putField x t cells) := by
  have hbody : Shows (x.body t) := by
    unfold Window.body
    split
    · exact shows_append (shows_spaces _) (shows_cut _ ht)
    · exact shows_append (shows_cut _ ht) (shows_spaces _)
  rw [putField_eq]
  exact shows_append (shows_append (fun c h => hc c (List.mem_of_mem_take h)) hbody) fun c h => hc c (List.mem_of_mem_drop h)

/-! ## Lines (R159, R164) -/

theorem Window.on_iff (x : Window) (line : Nat) : x.on line = true ↔ x.shown = true ∧ x.line = line := by simp [Window.on]

theorem putFields_eq (xs : List Window) (ts : List Text) (line : Nat) (cells : Text) :
    putFields xs ts line cells = (xs.zip ts).foldl (fun cells x =>
      if x.1.shown = true ∧ x.1.line = line then putField x.1 x.2 cells else cells) cells := by
  induction xs generalizing ts cells with
  | nil => rfl
  | cons x xs ih =>
    cases ts with
    | nil => rfl
    | cons t ts =>
      rw [putFields, ih, List.zip_cons_cons, List.foldl_cons]
      simp only [Window.on_iff]

theorem length_putFields {xs : List Window} (ts : List Text) (line : Nat) {cells : Text}
    (h : ∀ x ∈ xs, x.shown = true → x.first ≤ x.last ∧ x.last < cells.length) :
    (putFields xs ts line cells).length = cells.length := by
  induction xs generalizing ts cells with
  | nil => rfl
  | cons x xs ih =>
    cases ts with
    | nil => rfl
    | cons t ts =>
      obtain ⟨hx, hxs⟩ := List.forall_mem_cons.1 h
      rw [putFields]
      by_cases hon : x.on line = true
      · obtain ⟨h1, h2⟩ := hx ((Window.on_iff x line).1 hon).1
        have hlen := length_putField t h1 h2
        rw [if_pos hon, ih ts (by rwa [hlen]), hlen]
      · rw [if_neg hon, ih ts hxs]

theorem shows_putFields (xs : List Window) {ts : List Text} (line : Nat) {cells : Text} (ht : ∀ t ∈ ts, Shows t)
    (hc : Shows cells) : Shows (putFields xs ts line cells) := by
  induction xs generalizing ts cells with
  | nil => exact hc
  | cons x xs ih =>
    cases ts with
    | nil => exact hc
    | cons t ts =>
      obtain ⟨hx, hxs⟩ := List.forall_mem_cons.1 ht
      rw [putFields]
      refine ih hxs ?_
      split
      · exact shows_putField x hx hc
      · exact hc

theorem trimEnd_cons (c : Byte) (cs : Text) :
    trimEnd (c :: cs) = if trimEnd cs = [] then (if c = space then [] else [c]) else c :: trimEnd cs := by
  rw [trimEnd]
  split
  · rename_i h
    rw [if_pos h]
  · rename_i h
    rw [if_neg (by simp [h]), h]

/-- What is dropped at the end of a line is spaces. -/
theorem exists_append_trimEnd (t : Text) : ∃ n, t = trimEnd t ++ List.replicate n space := by
  induction t with
  | nil => exact ⟨0, rfl⟩
  | cons c cs ih =>
    obtain ⟨n, hn⟩ := ih
    rw [trimEnd_cons]
    by_cases h : trimEnd cs = []
    · rw [h, List.nil_append] at hn
      rw [if_pos h]
      by_cases hc : c = space
      · exact ⟨n + 1, by rw [if_pos hc, hc, hn]; rfl⟩
      · exact ⟨n, by rw [if_neg hc, ← hn]; rfl⟩
    · exact ⟨n, by rw [if_neg h, List.cons_append, ← hn]⟩

theorem getLast?_trimEnd (t : Text) : (trimEnd t).getLast? ≠ some space := by
  induction t with
  | nil => exact (Option.some_ne_none _).symm
  | cons c cs ih =>
    rw [trimEnd_cons]
    by_cases h : trimEnd cs = []
    · rw [if_pos h]
      by_cases hc : c = space
      · rw [if_pos hc]
        exact (Option.some_ne_none _).symm
      · rw [if_neg hc]
        exact fun he => hc (Option.some.inj he)
    · rw [if_neg h, List.getLast?_cons_of_ne_nil h]
      exact ih

/-- An entry line's cells: its fields in their windows, in order. -/
theorem entryLine_cells (l : Layout) (line : Nat) (ts : List Text) : ∃ n,
    putFields l.windows ts line (List.replicate l.width space) = entryLine l line ts ++ List.replicate n space :=
  exists_append_trimEnd _

theorem length_entryLine {l : Layout} (line : Nat) (ts : List Text)
    (h : ∀ x ∈ l.windows, x.shown = true → x.first ≤ x.last ∧ x.last < l.width) : (entryLine l line ts).length ≤ l.width := by
  obtain ⟨n, hn⟩ := entryLine_cells l line ts
  have hcells := length_putFields (cells := List.replicate l.width space) ts line (by rwa [List.length_replicate])
  simp only [hn, List.length_append, List.length_replicate] at hcells
  omega

theorem shows_entryLine (l : Layout) (line : Nat) {ts : List Text} (h : ∀ t ∈ ts, Shows t) : Shows (entryLine l line ts) := by
  obtain ⟨n, hn⟩ := entryLine_cells l line ts
  have hcells := shows_putFields l.windows line h (shows_spaces l.width)
  rw [hn] at hcells
  exact fun c hc => hcells c (List.mem_append_left _ hc)

/-- The right part of a title line: the table's tag and the LIVE count (R164). -/
def titleRight (tag : Word) (live : Nat) : Text := hex8 tag ++ [0x20, 0x4C, 0x49, 0x56, 0x45, 0x20] ++ decimal live

theorem length_titleRight (tag : Word) {live : Nat} (h : live ≤ 1024) : (titleRight tag live).length ≤ 18 := by
  have hlive : (decimal live).length ≤ 4 := length_decimal (k := 3) (by omega)
  rw [titleRight, List.length_append, List.length_append, length_hex8]
  simp only [List.length_cons, List.length_nil]
  omega

/-- The title is cut where a space is left before the right part. -/
theorem titleLine_eq {l : Layout} {tag : Word} {live room : Nat} (h : room + 1 + (titleRight tag live).length = l.width) :
    titleLine l tag live = cut room (l.title.map printable) ++
      List.replicate (room + 1 - (cut room (l.title.map printable)).length) space ++ titleRight tag live := by
  have hstart : l.width - (titleRight tag live).length = room + 1 := by omega
  have hline : titleLine l tag live =
      cut (l.width - (titleRight tag live).length - 1) (l.title.map printable) ++
        List.replicate (l.width - (titleRight tag live).length -
          (cut (l.width - (titleRight tag live).length - 1) (l.title.map printable)).length) space ++ titleRight tag live := rfl
  rw [hline, hstart, Nat.add_sub_cancel]

/-! ## Spool records (R170) -/

theorem wordBytes_bytes4 (x y z w : Byte) : wordBytes (bytes4 x.toNat y.toNat z.toNat w.toNat) = [x, y, z, w] := by
  have hw := bytes4_toNat x.toNat y.toNat z.toNat w.toNat
  have hx := x.isLt
  have hy := y.isLt
  have hz := z.isLt
  have hw' := w.isLt
  have hbyte (i : Nat) (b : Byte) (h : (bytes4 x.toNat y.toNat z.toNat w.toNat).toNat / 2 ^ i % 256 = b.toNat) :
      (bytes4 x.toNat y.toNat z.toNat w.toNat).extractLsb' i 8 = b := by
    apply BitVec.eq_of_toNat_eq
    rw [BitVec.extractLsb'_toNat, Nat.shiftRight_eq_div_pow]
    exact h
  unfold wordBytes
  rw [hbyte 0 x, hbyte 8 y, hbyte 16 z, hbyte 24 w]
  all_goals omega

/-- Whole words hold their bytes, four each. -/
theorem packBytes_whole (k : Nat) {bs : List Byte} (h : bs.length = 4 * k) :
    (packBytes bs).length = k ∧ (packBytes bs).flatMap wordBytes = bs := by
  induction k generalizing bs with
  | zero =>
    obtain rfl : bs = [] := List.length_eq_zero_iff.1 h
    exact ⟨rfl, rfl⟩
  | succ k ih =>
    match bs, h with
    | x :: y :: z :: w :: t, h =>
      obtain ⟨hlen, hbytes⟩ := ih (bs := t) (by simp only [List.length_cons] at h; omega)
      rw [packBytes, List.length_cons, hlen, List.flatMap_cons, wordBytes_bytes4, hbytes]
      exact ⟨rfl, rfl⟩

/-- A line of more than 63 characters is cut to 62 and a tilde. -/
theorem spoolRecord_eq {t s : Text} (ht : t.length ≤ 64) (hs : s = if t.length = 64 then t.take 62 ++ [0x7E] else t) :
    s.length ≤ 63 ∧ spoolRecord t = packBytes (BitVec.ofNat 8 s.length :: s ++ List.replicate (63 - s.length) 0) := by
  by_cases hl : t.length = 64
  · rw [if_pos hl] at hs
    have hlong : 63 < t.length := by omega
    refine ⟨by rw [hs, List.length_append, List.length_take, List.length_singleton]; omega, ?_⟩
    rw [spoolRecord, if_pos hlong, hs]
    rfl
  · rw [if_neg hl] at hs
    have hshort : ¬63 < t.length := by omega
    refine ⟨by rw [hs]; omega, ?_⟩
    rw [spoolRecord, if_neg hshort, hs]

/-- Settles O59: the ladder by its steps, the values and labels by kind, a line by its cells, a spool record by its bytes. -/
theorem printTextsFit : Obligations.PrintTextsFit := by
  refine ⟨fun n hn => ⟨decimal_ne_nil n, decimalFrom_digits 10 n, decimalFrom_value hn,
      fun h => decimalFrom_head hn (by omega)⟩,
    fun v d u1 u2 u3 sixth unit r hr hunit => ?ladder,
    fun v => ⟨fun h => ⟨ohmText_within h, length_ohmText h⟩, ohmText_over⟩,
    fun v gt lt base => ⟨fun h hm => ⟨?meg, length_megText base h hm⟩, megText_over gt lt base⟩,
    fun w1 v base => ⟨rfl, fun hv => if_neg hv, fun k hk => ?ohms, rfl, rfl, rfl⟩,
    fun k ws ta tb base w hw => ⟨fun h => ?kind, fun h => ?unknown⟩, ⟨rfl, rfl, rfl, rfl, rfl, rfl, rfl, rfl⟩,
    fun w i x => ⟨length_hex8 w, fun hi hx => ?digits⟩,
    fun k a b p aux point net hpoint hnet => ?labels, fun n => ⟨rfl, fun hn ds hds => ?four, LabelOf.plain_all⟩,
    fun l ws t ht => ?read, fun d p n b hb => ?place, fun x t cells w hw => ?window, fun l line ts => ?line,
    fun l line base ws wa wb a b => ?shows, fun l tag live room r t hwidth hlive hr ht hroom => ?title, shows_textOf,
    fun n => rfl, fun t s ht hs => ?record⟩
  case ladder =>
    obtain rfl : unit = fun c => BitVec.ofNat 8 c.toNat := funext hunit
    subst hr
    refine ⟨ladder_step1 _ _ _ _, fun h1 h2 hd => ?_, fun h1 h2 hd => ?_, fun h1 h2 hd => ?_, fun h1 h2 hd => ?_,
      fun h1 h2 hd => ?_⟩
    · rw [ladder_step2 _ _ _ _ h1 h2, ← hd, two_eq]
    · rw [ladder_step3 _ _ _ _ h1 h2, ← hd, one_eq]
    · rw [ladder_step4 _ _ _ _ h1 h2, ← hd]
    · rw [ladder_third _ _ _ _ h1, ladder5_hundredths _ _ h2, ← hd, two_eq]
    · rw [ladder_third _ _ _ _ (by omega), ladder5_tenths _ _ h1 h2, ← hd, one_eq]
  case meg => rw [megText_within gt lt base h, marker_eq base hm]
  case ohms => obtain rfl | rfl | rfl | rfl := hk <;> rfl
  case kind =>
    simp only [hw] at h ⊢
    exact fieldTexts_kind ta tb base h
  case unknown => exact fieldTexts_none ta tb base (by rwa [hw] at h)
  case digits => rw [hex8_get w hi, ← hx]; rfl
  case labels =>
    obtain rfl : point = pointLabel := funext hpoint
    obtain rfl : net = netLabel := funext hnet
    exact ⟨by cases k <;> rfl, by cases k <;> rfl⟩
  case four =>
    rw [hds]
    exact LabelOf.plain_four hn
  case read =>
    obtain rfl : t = textOf (ws.flatMap wordBytes) := ht.trans (textOf_eq _).symm
    exact l.read_eq ws
  case place => exact ⟨rfl, Dev.labelPlace_point hb p, d.labelPlace_net n⟩
  case window =>
    subst hw
    exact ⟨x.body t, putField_eq x t cells, x.length_body t, Window.body_long, Window.body_fits, length_putField t⟩
  case line =>
    obtain ⟨n, hn⟩ := entryLine_cells l line ts
    exact ⟨_, n, rfl, (putFields_eq _ _ _ _).symm.trans hn, getLast?_trimEnd _, length_entryLine line ts⟩
  case shows => exact shows_entryLine l line (shows_fieldTexts ws base (a.shows_read wa) (b.shows_read wb))
  case title =>
    obtain rfl : r = titleRight tag live := hr
    obtain rfl : t = l.title.map printable := ht
    have hright := length_titleRight tag hlive
    have hcut := length_cut_le (w := room) (l.title.map printable) (by omega)
    refine ⟨_, titleLine_eq hroom, by omega, ?_⟩
    rw [titleLine_eq hroom, List.length_append, List.length_append, List.length_replicate]
    omega
  case record =>
    obtain ⟨hlen, hrecord⟩ := spoolRecord_eq ht hs
    have hbytes : (BitVec.ofNat 8 s.length :: s ++ List.replicate (63 - s.length) 0).length = 4 * 16 := by
      rw [List.length_append, List.length_cons, List.length_replicate]
      omega
    obtain ⟨hwords, hpacked⟩ := packBytes_whole 16 hbytes
    rw [hrecord]
    exact ⟨hwords, hlen, hpacked⟩

end Sys2Proof.Machine

namespace Sys2Proof.Machine

/-! # The state after a hardware reset, and what follows the blocks -/

/-! ## The state after reset (R82, R144, R165, R189, R195, R201) -/

/-- The sets of the attention unit, the level conditions and the status words are all clear after reset, as the request set, the
line and the image are. -/
theorem State.reset_follows : State.reset.dev.Follows :=
  ⟨rfl, ⟨fun _ => rfl, fun _ => rfl, fun _ => rfl⟩, rfl⟩

theorem Search.reset_ok : Search.reset.Ok :=
  ⟨Nat.zero_le _, trivial, List.Pairwise.nil, fun _ h => nomatch h⟩

/-- Settles O6, invariant by invariant. -/
theorem resetMeetsInvariants : Obligations.ResetMeetsInvariants :=
  ⟨rfl, ⟨Nat.zero_le _, trivial⟩, State.reset_follows, ⟨Nat.zero_le _, Nat.zero_le _⟩,
    ⟨Search.reset_ok, Nat.zero_le _⟩, Manager.ok_fresh _ _ _ _ _ _, rfl, rfl⟩

/-! ## Following the blocks (R174, R197, R198) -/

/-- An event source's request stays as it is: only the level sources follow a condition (R197). -/
theorem Dev.hasSrc_sync_event (d : Dev) {x : BitVec 3} (h0 : x ≠ 0) (h5 : x ≠ 5) (h7 : x ≠ 7) :
    hasSrc d.sync.attn.req x = hasSrc d.attn.req x := by
  rw [Dev.sync_attn, Dev.hasSrc_syncAttn, if_neg fun h => h0 h.1, if_neg fun h => h5 h.1, if_neg fun h => h7 h.1]

theorem Dev.sync_frame (d : Dev) :
    d.sync = { d with
      attn := { d.attn with req := d.sync.attn.req, line := d.sync.attn.line }
      engineQ := d.engineQ ++ d.syncPosts
      statusImg := d.statusWords } := by
  rw [Dev.sync_attn, ← Dev.syncAttn_attn_frame]
  exact d.sync_eq

/-- A reader that is STOPPED, or has not yet written the image, writes no word of the status area (R174). -/
theorem Dev.syncPosts_silent {d : Dev} (h : d.reader.state = .stopped ∨ d.reader.imageLive = false) : d.syncPosts = [] := by
  have hlive : ¬d.statusLive = true := by
    rw [Dev.statusLive_iff]
    rintro ⟨hi, hs⟩
    exact h.elim hs fun hn => Bool.false_ne_true (hn.symm.trans hi)
  exact if_neg hlive

/-- Each post is one word of the status area, as the blocks stand. -/
theorem Dev.syncPosts_word {d : Dev} {b : Burst} (h : b ∈ d.syncPosts) :
    ∃ i w, d.statusWords[i]? = some w ∧ b = ⟨0x20 + 4 * i, 1, some [w], false, true⟩ := by
  unfold Dev.syncPosts at h
  split at h
  · obtain ⟨i, w, v, hw, -, -, hb⟩ := mem_changedPosts.1 h
    exact ⟨i, w, hw, hb⟩
  · cases h

/-- A word of the status area is posted exactly when it differs from the image's: the offset of a post names the word. -/
theorem Dev.mem_syncPosts {d : Dev} {i : Nat} {w v : Word} (hs : d.reader.state ≠ .stopped) (hi : d.reader.imageLive = true)
    (hw : d.statusWords[i]? = some w) (hv : d.statusImg[i]? = some v) :
    (⟨0x20 + 4 * i, 1, some [w], false, true⟩ : Burst) ∈ d.syncPosts ↔ w ≠ v := by
  have hlive : d.statusLive = true := d.statusLive_iff.2 ⟨hi, hs⟩
  rw [Dev.syncPosts, if_pos hlive, mem_changedPosts]
  refine ⟨fun ⟨j, w', v', hw', hv', hne, hb⟩ => ?_, fun hne => ⟨i, w, v, hw, hv, hne, rfl⟩⟩
  have hoff : statusBase + 4 * i = statusBase + 4 * j := congrArg Burst.off hb
  obtain rfl : i = j := by omega
  obtain rfl := Option.some.inj (hw.symm.trans hw')
  obtain rfl := Option.some.inj (hv.symm.trans hv')
  exact hne

theorem RState.code_mod (s : RState) : s.code % 256 = s.code := by cases s <;> rfl

theorem LastError.code_mod (e : LastError) : e.code % 256 = e.code := by cases e <;> rfl

/-- Settles O9: the frame of following, the status area's words field by field, and a thread that rests. -/
theorem followingChangesOnlyRequestsAndStatus : Obligations.FollowingChangesOnlyRequestsAndStatus := by
  refine ⟨fun d => ⟨d.syncPosts, d.sync_frame, fun x => d.hasSrc_sync_event, fun b => Dev.syncPosts_word, Dev.syncPosts_silent,
    fun hs hi i w v => Dev.mem_syncPosts hs hi⟩, fun d => ⟨_, _, _, _, rfl, ?words⟩,
    fun q d hr => ⟨Dev.settle_resting q hr, Dev.settle_still q hr⟩⟩
  simp only [b0_bytes4, b1_bytes4, b2_bytes4, b3_bytes4, lo_loHi, hi_loHi, RState.code_mod, LastError.code_mod]
  refine ⟨trivial, trivial, trivial, ?tableStart, rfl, rfl, trivial, ?cover, ?latch, ?matrix, trivial, trivial, ?zero, trivial⟩
  case tableStart => cases d.reader.tableStart <;> rfl
  case cover => cases d.hv.openRec <;> rfl
  case latch => cases d.hv.lockout <;> rfl
  case matrix => cases d.mx.state <;> rfl
  case zero => cases d.mu.zeroValid <;> rfl

end Sys2Proof.Machine

namespace Sys2Proof.Machine

/-! # Links, HALT and RESUME -/

/-! ## A link (R182, R183) -/

section
variable {d : Dev} {o : Order} (ho : d.reader.order = some o)
include ho

theorem Dev.linkGot_halts (hh : d.reader.haltPending = true) :
    d.linkGot = d.clearBuf.haltAt (.word (.link (o.off + 4))) := by
  simp only [Dev.linkGot, ho, if_pos hh]

theorem Dev.linkGot_follows {v : Word} (hv : d.rbuf = [v]) (hh : d.reader.haltPending = false) :
    d.linkGot = d.clearBuf.followLink v (.link (o.off + 4)) := by
  have hword : d.word 0 = v := by rw [Dev.word, hv]; rfl
  simp only [Dev.linkGot, ho, hh, Bool.false_eq_true, if_false, hword]

end

section
variable {d : Dev} {v : Word} {src : Watch}

theorem Dev.followLink_watches : d.followLink 0 src = d.watchWord src := if_pos rfl

theorem Dev.followLink_bad (h0 : v ≠ 0) (h : ¬headerFits v.toNat d.memEnd = true) :
    d.followLink v src = (d.onReader fun r => { r with lastError := .badLink }).haltAt (.word src) :=
  (if_neg h0).trans (if_neg h)

theorem Dev.followLink_reaches (h0 : v ≠ 0) (h : headerFits v.toNat d.memEnd = true) :
    d.followLink v src = d.release.reach v.toNat :=
  (if_neg h0).trans (if_pos h)

/-- A write of one word for which no block waits is one burst. -/
theorem Dev.post_one (off : Nat) (w : Word) (d : Dev) :
    d.post off [w] = { d with engineQ := d.engineQ ++ [⟨off, 1, some [w], false, true⟩] } := rfl

theorem Dev.release_eq {o : Order} (ho : d.reader.order = some o) :
    d.release = { d with
      reader := { d.reader with order := none }
      engineQ := d.engineQ ++ [⟨o.off, 1, some [o.header o.status true], false, true⟩] } := by
  simp only [Dev.release, ho]
  rfl

end

/-- A reader that halts is HALTED, with CHAIN requested. -/
theorem Dev.haltAt_chain (d : Dev) (r : Resume) : hasSrc (d.haltAt r).attn.req 2 = true := by
  simp [Dev.hasSrc_haltAt]

/-- Settles O34, by the halt-pending mark and by the link word. -/
theorem linkIsFollowed : Obligations.LinkIsFollowed := by
  intro q d o v e ho hv he
  have he : e = d.linkGot := he
  refine ⟨fun hh => ?halts, fun hh => ?follows⟩
  case halts =>
    rw [he, Dev.linkGot_halts ho hh]
    exact ⟨rfl, rfl, rfl, ho, Dev.haltAt_chain _ _⟩
  case follows =>
    rw [Dev.linkGot_follows ho hv hh] at he
    refine ⟨fun h0 => ?zero, fun h0 hbad => ?bad, fun h0 h4 hlow hend => ?good⟩
    case zero =>
      rw [he, h0, Dev.followLink_watches]
      exact ⟨rfl, rfl, ho⟩
    case bad =>
      have hno : ¬headerFits v.toNat d.clearBuf.memEnd = true := mt (headerFits_iff _ _).1 hbad
      rw [he, Dev.followLink_bad h0 hno]
      exact ⟨rfl, rfl, rfl, ho, Dev.haltAt_chain _ _⟩
    case good =>
      have hfits : headerFits v.toNat d.clearBuf.memEnd = true := (headerFits_iff _ _).2 ⟨h4, hlow, hend⟩
      rw [he, Dev.followLink_reaches h0 hfits, Dev.release_eq (d := d.clearBuf) ho]
      exact ⟨rfl, rfl, rfl, rfl, rfl⟩

/-! ## HALT (R183) -/

theorem exec_halt {s : State} {d : Dev} (hw : s.hostWait = none) (h : s.dev.halt = d) :
    exec .halt s = .next { s with dev := d.settle s.hostQ } :=
  congrArg Host.Outcome.next (State.command_eq hw h)

section
variable {d : Dev}

theorem Dev.halt_waiting {w : Watch} (hs : d.reader.state = .waiting) (hw : d.reader.watch = some w) :
    d.halt = d.dropThread.haltAt (.word w) := by
  simp only [Dev.halt, hs, hw]

/-- Where the thread waits for a unit of work, a HALT leaves its mark for the next safe point, or for the reader. -/
theorem Dev.halt_marks (hs : d.reader.state = .running) (hh : d.reader.haltPending = false)
    (hw : d.wait = .mem ∨ d.wait = .take ∨ d.wait = .format ∨ d.wait = .parkRun) :
    d.halt = d.onReader fun r => { r with haltPending := true } := by
  have hstop : (d.onReader fun r => { r with haltPending := true }).stopArrives false =
      d.onReader fun r => { r with haltPending := true } := by
    obtain hw | hw | hw | hw := hw <;> simp [Dev.stopArrives, hw]
  simp only [Dev.halt, hs, hh, Bool.false_eq_true, if_false, hstop, ite_self]

theorem Dev.halt_ignored (h : d.reader.state = .stopped ∨ d.reader.state = .halted ∨
    (d.reader.state = .running ∧ d.reader.haltPending = true)) : d.halt = d := by
  obtain hs | hs | ⟨hs, hh⟩ := h
  · simp only [Dev.halt, hs]
  · simp only [Dev.halt, hs]
  · simp only [Dev.halt, hs, if_pos hh]

end

/-- Settles O25, by the state of the reader. -/
theorem haltActs : Obligations.HaltActs := by
  intro s hbus
  refine ⟨fun w hs hw => ?waiting, fun hs hh hf hw => ?running, fun hf hr h => ?ignored⟩
  case waiting =>
    have hrest : (s.dev.dropThread.haltAt (.word w)).Resting := .inr rfl
    refine ⟨_, exec_halt hbus (Dev.halt_waiting hs hw), rfl, rfl, ?_⟩
    rw [Dev.settle_resting _ hrest, Dev.hasSrc_sync_event _ (by decide) (by decide) (by decide), Dev.sync_settings,
      Dev.sync_reader, Dev.sync_mx, Dev.sync_hv]
    exact ⟨rfl, rfl, rfl, rfl, rfl, Dev.haltAt_chain _ _, rfl, rfl, rfl⟩
  case running =>
    have hrest : (s.dev.onReader fun r => { r with haltPending := true }).Resting := by
      refine .inl fun hrun => ?_
      have hrun : s.dev.wait = .run := hrun
      simp [hrun] at hw
    rw [exec_halt hbus (Dev.halt_marks hs hh hw), Dev.settle_still _ hrest hf]
    rfl
  case ignored => rw [exec_halt hbus (Dev.halt_ignored h), Dev.settle_still _ hr hf]

/-! ## RESUME (R184) -/

theorem exec_resume {s : State} {d : Dev} (hw : s.hostWait = none) (h : s.dev.resume = d) :
    exec .resume s = .next { s with dev := d.settle s.hostQ } :=
  congrArg Host.Outcome.next (State.command_eq hw h)

theorem Dev.resume_ignored {d : Dev} (hs : d.reader.state ≠ .halted) : d.resume = d := if_pos hs

theorem Dev.resumeRefused_iff {d : Dev} {o : Order} (ho : d.reader.order = some o) : d.resumeRefused = true ↔
    o.kind = some .insulate ∧ d.ins.reason = .interlock ∧ d.hv.openRec = true := by
  simp [Dev.resumeRefused, Dev.kind, ho, and_assoc]

/-- The blocks whose reader runs again with the order TAKEN, its header posted, before the owner returns to its step. -/
def Dev.retaken (o : Order) (d : Dev) : Dev :=
  { d with
    reader := { d.reader with
      state := .running, lastError := .none, resume := none, order := some { o with status := .taken } }
    engineQ := d.engineQ ++ [⟨o.off, 1, some [o.header .taken false], false, true⟩] }

section
variable {d : Dev} (hs : d.reader.state = .halted)
include hs

theorem Dev.resume_word {w : Watch} (hr : d.reader.resume = some (.word w)) :
    d.resume = d.running.goto [.reread w] := by
  simp only [Dev.resume, hs, hr, ne_eq, not_true_eq_false, if_false]

theorem Dev.resume_reading {off : Nat} (hr : d.reader.resume = some (.reading off)) :
    d.resume = d.running.reach off := by
  simp only [Dev.resume, hs, hr, ne_eq, not_true_eq_false, if_false]

variable {o : Order} (hr : d.reader.resume = some .order) (ho : d.reader.order = some o)
include hr ho

theorem Dev.resume_refused (h : o.kind = some .insulate ∧ d.ins.reason = .interlock ∧ d.hv.openRec = true) :
    d.resume = d.onReader fun r => { r with lastError := .interlockOpen } := by
  simp only [Dev.resume, hs, hr, ne_eq, not_true_eq_false, if_false, if_pos ((Dev.resumeRefused_iff ho).2 h)]

theorem Dev.resume_order (h : ¬(o.kind = some .insulate ∧ d.ins.reason = .interlock ∧ d.hv.openRec = true)) :
    d.resume = { (d.retaken o).resumeOwner with tasks := d.saved, saved := [], wait := .run } := by
  have hretaken : (d.running.onOrder fun x => { x with status := .taken }).post o.off [o.header .taken false] =
      d.retaken o := by
    rw [Dev.post_one, Dev.retaken, Dev.onOrder_reader, Dev.running, Dev.onReader_reader, ho]
    rfl
  simp only [Dev.resume, hs, hr, ne_eq, not_true_eq_false, if_false, if_neg (mt (Dev.resumeRefused_iff ho).1 h), ho, hretaken]

end

/-- An owner that returns to its step changes its own state, the search's, and for an INSULATE what the pause had marked. -/
theorem Dev.resumeOwner_frame (d : Dev) :
    d.resumeOwner.reader = d.reader ∧ d.resumeOwner.engineQ = d.engineQ ∧ d.resumeOwner.mx = d.mx ∧
    d.resumeOwner.mu = d.mu ∧
    (d.kind = some .insulate → d.resumeOwner.hv.pauseMark = false ∧ d.resumeOwner.ins.reason = .none) ∧
    (d.kind = some .print → d.resumeOwner.fmt.state = .formatting) := by
  unfold Dev.resumeOwner
  dsimp only
  split <;> simp_all

/-- Settles O26, by the resume point. -/
theorem resumeActs : Obligations.ResumeActs := by
  intro s hbus
  refine ⟨fun hs hf hr => ?ignored, fun o hs hr ho => ⟨fun h hrest => ?refused, fun h => ?order⟩, fun w hs hr => ?word,
    fun off hs hr => ?reading⟩
  case ignored => rw [exec_resume hbus (Dev.resume_ignored hs), Dev.settle_still _ hr hf]
  case refused =>
    have hrest' : (s.dev.onReader fun r => { r with lastError := .interlockOpen }).Resting := hrest
    rw [exec_resume hbus (Dev.resume_refused hs hr ho h), Dev.settle_resting _ hrest']
    rfl
  case order =>
    obtain ⟨hreader, hqueue, hmx, hmu, hins, hfmt⟩ := Dev.resumeOwner_frame (s.dev.retaken o)
    exact ⟨_, exec_resume hbus (Dev.resume_order hs hr ho h), hreader, hqueue, rfl, rfl, hins, hfmt, hmx, hmu⟩
  case word =>
    rw [exec_resume hbus (Dev.resume_word hs hr)]
    rfl
  case reading =>
    have hrest : (s.dev.running.reach off).Resting := .inl nofun
    rw [exec_resume hbus (Dev.resume_reading hs hr), Dev.settle_resting _ hrest]
    rfl

end Sys2Proof.Machine

namespace Sys2Proof.Machine

/-! # The take of an order -/

/-! ## The words the reader reads (R178, R192) -/

theorem State.peek_queued {s : State} {off : Nat} {w : Word} (h : newest s.hostQ off = some w) : s.peek off = w := by
  simp only [State.peek, h]

/-- A word that no queued write and no issued one is for is the RAM's. -/
theorem State.peek_ram {s : State} {off : Nat} (hq : newest s.hostQ off = none) (he : s.dev.engineQ = [])
    (h : off < s.ramBytes) : s.peek off = s.mem.word off := by
  have hnone : ∀ b ∈ s.dev.engineQ, off < b.off := by simp [he]
  rw [State.peek_eq hnone, hq, Option.getD_none, ramRead_inside _ h]

/-- The status field of a header word, as four bits of it (R205). -/
theorem isPosted_iff (w : Word) : isPosted w = true ↔ w.extractLsb' 16 4 = 1 := by
  have hfield : (w.extractLsb' 16 4).toNat = b2 w % 16 := by
    rw [BitVec.extractLsb'_toNat, Nat.shiftRight_eq_div_pow, b2]
    omega
  rw [isPosted, decide_eq_true_eq, ← hfield, ← BitVec.toNat_inj]
  rfl

/-! ## The check of an order (R178) -/

section
variable {peek : Nat → Word} {off m : Nat} {hdr : Word}

theorem orderCheck_unknown (h : kindOf (b0 hdr) = none) : orderCheck peek off m hdr = .error .unknownKind := by
  simp only [orderCheck, h]

variable {k : Kind} (hk : kindOf (b0 hdr) = some k)
include hk

/-- The fixed part must lie within test memory before the whole parameter section can be known (R205). -/
theorem orderCheck_kind {n : Nat} (hn : n = k.paramWords ((List.range k.fixedWords).map fun i => peek (off + 12 + 4 * i))) :
    orderCheck peek off m hdr =
      if m < off + 12 + 4 * k.fixedWords then .error .orderBounds
      else if m < off + 12 + 4 * (n + k.resultWords) then .error .orderBounds
      else .ok (k, (List.range n).map fun i => peek (off + 12 + 4 * i)) := by
  subst hn
  simp only [orderCheck, hk]

theorem orderCheck_bounds (h : m < off + 12 + 4 * k.fixedWords ∨
      m < off + 12 + 4 * (k.paramWords ((List.range k.fixedWords).map fun i => peek (off + 12 + 4 * i)) + k.resultWords)) :
    orderCheck peek off m hdr = .error .orderBounds := by
  rw [orderCheck_kind hk rfl]
  by_cases hf : m < off + 12 + 4 * k.fixedWords
  · rw [if_pos hf]
  · rw [if_neg hf, if_pos (h.resolve_left hf)]

theorem orderCheck_fits {n : Nat} (hn : n = k.paramWords ((List.range k.fixedWords).map fun i => peek (off + 12 + 4 * i)))
    (hf : off + 12 + 4 * k.fixedWords ≤ m) (hw : off + 12 + 4 * (n + k.resultWords) ≤ m) :
    orderCheck peek off m hdr = .ok (k, (List.range n).map fun i => peek (off + 12 + 4 * i)) := by
  rw [orderCheck_kind hk hn, if_neg (Nat.not_lt.2 hf), if_neg (Nat.not_lt.2 hw)]

end

/-! ## The take by what the header says (R178, R183) -/

theorem exec_takeOrder {s : State} {d : Dev} (hw : s.dev.wait = .take) (h : s.dev.takeOrder s.peek = d) :
    ∃ g, exec .takeOrder s = .next { s with lastGrant := g, dev := d.settle s.hostQ } := by
  obtain ⟨g, hg⟩ := s.markReads_eq (s.dev.takeReads s.peek)
  have htake : s.takeOrder = (s.markReads (s.dev.takeReads s.peek)).withDev (Dev.takeOrder s.peek) := if_pos hw
  refine ⟨g, congrArg Host.Outcome.next (htake.trans ?_)⟩
  rw [hg]
  exact State.withDev_eq h

/-- The blocks whose order at `off` the reader refuses itself, its status to be written, with no result section. -/
def Dev.refusing (c : Code) (off : Nat) (o : Order) (d : Dev) : Dev :=
  { d with
    reader := { d.reader with refCode := c.toNat, refOff := off, order := some o }
    tasks := .write off [o.header .refused false] :: .finish :: d.tasks
    wait := .run }

/-- The blocks whose order has been taken, TAKEN issued, as its owner has it. -/
def Dev.taking (o : Order) (d : Dev) : Dev :=
  { d with
    reader := { d.reader with order := some o, ending := none }
    engineQ := d.engineQ ++ [⟨o.off, 1, some [o.header .taken false], false, true⟩]
    prog := .reset
    wait := .run
    free := d.free + 1 }

section
variable {d : Dev} {peek : Nat → Word} {off : Nat} {hdr : Word} (hoff : d.reader.curOff = off)
include hoff

theorem Dev.takeOrder_halts (hh : d.reader.haltPending = true) : d.takeOrder peek = d.proceed.haltAt (.reading off) := by
  subst hoff
  exact if_pos hh

variable (hh : d.reader.haltPending = false) (hhdr : peek off = hdr)
include hh hhdr

theorem Dev.takeOrder_watches (hp : ¬isPosted hdr = true) : d.takeOrder peek = d.proceed.watchWord (.header off) := by
  subst hoff hhdr
  simp only [Dev.takeOrder, Dev.proceed_reader, hh, hp, Bool.false_eq_true, if_false, Bool.not_false, if_true]

variable (hp : isPosted hdr = true)
include hp

theorem Dev.takeOrder_refuses {c : Code} (hc : orderCheck peek off d.memEnd hdr = .error c) :
    d.takeOrder peek = d.refusing c off (contextOf off hdr 0 [] .refused true d.free) := by
  have hc : orderCheck peek off d.proceed.memEnd hdr = .error c := hc
  subst hoff hhdr
  simp only [Dev.takeOrder, Dev.proceed_reader, hh, hp, Bool.false_eq_true, if_false, Bool.not_true, hc]
  rfl

theorem Dev.takeOrder_takes {k : Kind} {ps : List Word} (hc : orderCheck peek off d.memEnd hdr = .ok (k, ps)) {o : Order}
    (ho : o = contextOf off hdr (peek (off + 8)) ps .taken false d.free) : d.takeOrder peek = (d.taking o).startOwner k o := by
  have hc : orderCheck peek off d.proceed.memEnd hdr = .ok (k, ps) := hc
  subst hoff hhdr ho
  simp only [Dev.takeOrder, Dev.proceed_reader, hh, hp, Bool.false_eq_true, if_false, Bool.not_true, hc]
  rfl

end

/-! ## A MARK, through to its section (R181, R188) -/

/-- A thread whose first step writes issues the run of writes and waits for it. -/
theorem Dev.settle_write (q : List (Nat × Word)) {d : Dev} {off : Nat} {ws : List Word} {ts : List Task} (hw : d.wait = .run)
    (ht : d.tasks = .write off ws :: ts) : d.settle q = (Dev.issueWrite off ws { d.sync with tasks := ts }).sync := by
  unfold Dev.settle settleFuel
  exact settleFor_write q (by decide) (by rwa [Dev.sync_wait]) (by rwa [Dev.sync_tasks])

/-- A MARK holds nothing of another block but the HV controller's ask, and its section is the completion code alone. -/
theorem Dev.endOrder_mark {d : Dev} {o o' : Order} (ho : d.reader.order = some o) (hk : o.kind = some .mark)
    (ho' : o' = o.ended .done d.free) : d.endOrder .done .done = { d with
      reader := { d.reader with order := some o' }
      hv := { d.hv with ask := .none }
      tasks := [.write o.resultOff [completionWord 0 o.unzeroed o.clamped], .ownerIdle, .write o.off [o'.header .done false],
        .finish]
      wait := .run
      free := d.free + 1 } := by
  have hkind : (d.setStatus .done).kind = some .mark := by rw [Dev.setStatus_eq ho]; exact hk
  have hrelease : (d.setStatus .done).releaseOwner .done = (d.setStatus .done).onHv fun h => { h with ask := .none } := by
    simp [Dev.releaseOwner, hkind]
  have hk' : (o.ended .done d.free).kind = some .mark := hk
  rw [Dev.endOrder_eq ho, hrelease, Dev.statusTasks, Dev.resultWords, Dev.setStatus_eq ho, hk', ho']
  rfl

/-- A thread that has nothing to do but to end its MARK issues the section and waits for it. -/
theorem Dev.settle_mark (q : List (Nat × Word)) {d : Dev} {o o' : Order} (ho : d.reader.order = some o)
    (hk : o.kind = some .mark) (hw : d.wait = .run) (ht : d.tasks = [.endOrder .done .done])
    (ho' : o' = o.ended .done d.free) :
    (d.settle q).reader.order = some o' ∧ (d.settle q).wait = .mem ∧
    (d.settle q).tasks = [.ownerIdle, .write o.off [o'.header .done false], .finish] ∧
    ⟨o.resultOff, 1, some [completionWord 0 o.unzeroed o.clamped], true, true⟩ ∈ (d.settle q).engineQ ∧
    (d.settle q).mx = d.mx ∧ (d.settle q).mgr = d.mgr ∧ (d.settle q).nets = d.nets ∧
    (d.settle q).hv.state = d.hv.state := by
  obtain ⟨e, he⟩ : ∃ e, e = runTask q (.endOrder .done .done) { d.sync with tasks := [] } := ⟨_, rfl⟩
  have hend : e = _ := he.trans (Dev.endOrder_mark (d := { d.sync with tasks := [] }) (by simpa using ho) hk
    (by simpa using ho'))
  rw [Dev.settle_endOrder q hw ht he (by rw [hend]) (by rw [hend]), hend]
  refine ⟨by simp, by simp, by simp, ?_, by simp, by simp, by simp, by simp⟩
  rw [Dev.sync_engineQ, Dev.issueWrite_engineQ]
  exact List.mem_append_left _ (List.mem_append_right _ List.mem_cons_self)

/-- Settles O29: the words read, the take by the header and by the check of the order, and a MARK through to its section. -/
theorem takeOrderActs : Obligations.TakeOrderActs := by
  refine ⟨fun s off => ⟨fun w => State.peek_queued, State.peek_ram⟩,
    fun s off hdr hw ht hoff hhdr => ⟨fun hh => ?halts, fun hh hp => ?watches, fun k hk hh hp =>
      ⟨fun c hc => ?refuses, fun j n hj hf hn hb => ?takes⟩⟩,
    fun s off hdr hw ht hoff hh hhdr hmark hp hb => ?mark⟩
  case halts =>
    obtain ⟨g, hexec⟩ := exec_takeOrder hw (Dev.takeOrder_halts hoff hh)
    have hrest : (s.dev.proceed.haltAt (.reading off)).Resting := .inr ht
    rw [Dev.settle_resting _ hrest] at hexec
    refine ⟨_, hexec, ?_⟩
    rw [Dev.hasSrc_sync_event _ (by decide) (by decide) (by decide), Dev.sync_reader]
    exact ⟨rfl, rfl, Dev.haltAt_chain _ _⟩
  case watches =>
    obtain ⟨g, hexec⟩ := exec_takeOrder hw (Dev.takeOrder_watches hoff hh hhdr (mt (isPosted_iff hdr).1 hp))
    have hrest : (s.dev.proceed.watchWord (.header off)).Resting := .inr ht
    rw [Dev.settle_resting _ hrest] at hexec
    refine ⟨_, hexec, ?_⟩
    rw [Dev.sync_reader, ← hoff]
    rfl
  case refuses =>
    have hcheck : orderCheck s.peek off s.dev.memEnd hdr = .error c := by
      obtain ⟨rfl, rfl⟩ | ⟨j, rfl, rfl, hout⟩ := hc
      · exact orderCheck_unknown hk
      · exact orderCheck_bounds hk hout
    obtain ⟨g, hexec⟩ := exec_takeOrder hw (Dev.takeOrder_refuses hoff hh hhdr ((isPosted_iff hdr).2 hp) hcheck)
    rw [Dev.settle_write _ rfl rfl] at hexec
    refine ⟨_, _, hexec, rfl, by rw [Dev.sync_reader, Dev.issueWrite_reader, Dev.sync_reader]; rfl, rfl, rfl, ?_, ?_, ?_, ?_,
      _, ?_, rfl⟩
    · simp [Dev.refusing]
    · simp [Dev.refusing]
    · simp [ht]
    · simp
    · rw [Dev.sync_engineQ, Dev.issueWrite_engineQ]
      exact List.mem_append_left _ (List.mem_append_right _ List.mem_cons_self)
  case takes =>
    have hcheck := orderCheck_fits (hk.trans hj) hn hf hb
    obtain ⟨g, hexec⟩ := exec_takeOrder hw (Dev.takeOrder_takes hoff hh hhdr ((isPosted_iff hdr).2 hp) hcheck rfl)
    exact ⟨_, _, g, hexec, rfl, hk.trans hj, rfl, rfl, rfl, rfl, rfl, rfl, rfl, rfl, rfl, ht, rfl, rfl, rfl, rfl⟩
  case mark =>
    have hk : kindOf (b0 hdr) = some .mark := by rw [hmark]; rfl
    have hcheck : orderCheck s.peek off s.dev.memEnd hdr = .ok (.mark, []) :=
      orderCheck_fits hk rfl (show off + 12 ≤ s.dev.memEnd by omega) hb
    obtain ⟨o, ho⟩ : ∃ o, o = contextOf off hdr (s.peek (off + 8)) [] .taken false s.dev.free := ⟨_, rfl⟩
    obtain ⟨g, hexec⟩ := exec_takeOrder hw (Dev.takeOrder_takes hoff hh hhdr ((isPosted_iff hdr).2 hp) hcheck ho)
    have hko : o.kind = some .mark := by rw [ho]; exact hk
    have hts : ((s.dev.taking o).startOwner .mark o).tasks = [.endOrder .done .done] := by
      show _ :: s.dev.tasks = _
      rw [ht]
    obtain ⟨horder, hwait, htasks, hburst, hmx, hmgr, hnets, hhv⟩ :=
      Dev.settle_mark s.hostQ (d := (s.dev.taking o).startOwner .mark o) (o := o) rfl hko rfl hts rfl
    have hoff' : o.off = off := by rw [ho]; rfl
    refine ⟨_, _, hexec, rfl, rfl, horder, rfl, hoff', hwait, ?_, ?_, hmx, hmgr, hnets, hhv⟩
    · rw [← hoff']; exact htasks
    · have hsection : (⟨o.resultOff, 1, some [completionWord 0 o.unzeroed o.clamped], true, true⟩ : Burst) =
          ⟨off + 12, 1, some [0], true, true⟩ := by rw [ho]; rfl
      rw [hsection] at hburst
      exact hburst

end Sys2Proof.Machine

namespace Sys2Proof.Machine

/-! # CONFIGURE -/

/-! ## Bytes of consecutive words (R202) -/

theorem wordBytes_eq (w : Word) : wordBytes w = (List.range 4).map fun j => BitVec.ofNat 8 (w.toNat / 256 ^ j) := by
  have hbyte (i : Nat) : w.extractLsb' i 8 = BitVec.ofNat 8 (w.toNat / 2 ^ i) := by
    rw [BitVec.extractLsb', Nat.shiftRight_eq_div_pow]
  unfold wordBytes
  rw [hbyte 0, hbyte 8, hbyte 16, hbyte 24]
  rfl

/-- The bytes of n words: the i-th is byte i % 4 of word i / 4. -/
theorem flatMap_wordBytes (w : Nat → Word) (n : Nat) :
    (List.range n).flatMap (fun i => wordBytes (w i)) =
      (List.range (4 * n)).map fun i => BitVec.ofNat 8 ((w (i / 4)).toNat / 256 ^ (i % 4)) := by
  induction n with
  | zero => rfl
  | succ n ih =>
    have hlast : (List.range 4).map (fun j => BitVec.ofNat 8 ((w n).toNat / 256 ^ j)) =
        (List.range 4).map fun j => BitVec.ofNat 8 ((w ((4 * n + j) / 4)).toNat / 256 ^ ((4 * n + j) % 4)) := by
      refine List.map_congr_left fun j hj => ?_
      have hj := List.mem_range.1 hj
      rw [show (4 * n + j) / 4 = n by omega, show (4 * n + j) % 4 = j by omega]
    rw [List.range_succ, List.flatMap_append, ih, List.flatMap_singleton, wordBytes_eq, hlast, Nat.mul_succ, List.range_add,
      List.map_append, List.map_map]
    rfl

/-! ## The sections present, their values and their checks (R187, R205) -/

section
variable {ps : Nat → Word} {im ih ip : Nat} (him : im = 1 + opt (bitAt (ps 0) 0) 1)
  (hih : ih = im + opt (bitAt (ps 0) 1) 5) (hip : ip = ih + opt (bitAt (ps 0) 2) 1)
include him hih hip

/-- Each section lies behind those present before it. -/
theorem sectionsOf_eq : sectionsOf (ps 0) =
    { timing := if bitAt (ps 0) 0 then some 1 else none
      measure := if bitAt (ps 0) 1 then some im else none
      hv := if bitAt (ps 0) 2 then some ih else none
      print := if bitAt (ps 0) 3 then some ip else none } := by
  subst him hih hip
  rfl

/-- A present section gives all its values, each clamped to its range, and an absent one leaves those there are. -/
theorem configured_eq (c : Settings) : configured ps c =
    { release := if bitAt (ps 0) 0 then clampTo 5 200 (lo (ps 1)) else c.release
      settle := if bitAt (ps 0) 0 then clampTo 5 200 (hi (ps 1)) else c.settle
      gH := if bitAt (ps 0) 1 then clampTo 16384 49151 (lo (ps im)) else c.gH
      gM := if bitAt (ps 0) 1 then clampTo 16384 49151 (hi (ps im)) else c.gM
      gL := if bitAt (ps 0) 1 then clampTo 16384 49151 (lo (ps (im + 1))) else c.gL
      n := if bitAt (ps 0) 1 then hi (ps (im + 1)) else c.n
      pLim := if bitAt (ps 0) 1 then clampTo 1 2000000 (ps (im + 2)).toNat else c.pLim
      oLim := if bitAt (ps 0) 1 then clampTo 2 2000000 (ps (im + 3)).toNat else c.oLim
      tLim := if bitAt (ps 0) 1 then clampTo 1 2000000 (ps (im + 4)).toNat else c.tLim
      dischTimeout := if bitAt (ps 0) 2 then clampTo 100 10000 (lo (ps ih)) else c.dischTimeout
      trip := if bitAt (ps 0) 2 then clampTo 10 100 (hi (ps ih)) else c.trip
      print := if bitAt (ps 0) 3 then (setPrint (fun j => ps (ip + j)) c).print else c.print } := by
  rw [configured, sectionsOf_eq him hih hip]
  split_ifs <;> rfl

/-- Whether a value of a present section lies outside its range. -/
theorem configClamps_iff : configClamps ps = true ↔
    (bitAt (ps 0) 0 = true ∧ timingClamps (ps 1) = true) ∨
    (bitAt (ps 0) 1 = true ∧ measureClamps (fun j => ps (im + j)) = true) ∨
    (bitAt (ps 0) 2 = true ∧ hvClamps (ps ih) = true) ∨
    (bitAt (ps 0) 3 = true ∧ printClamps (fun j => ps (ip + j)) = true) := by
  have hsections : configClamps ps = ((if bitAt (ps 0) 0 then timingClamps (ps 1) else false) ||
      (if bitAt (ps 0) 1 then measureClamps (fun j => ps (im + j)) else false) ||
      (if bitAt (ps 0) 2 then hvClamps (ps ih) else false) ||
      (if bitAt (ps 0) 3 then printClamps (fun j => ps (ip + j)) else false)) := by
    rw [configClamps, sectionsOf_eq him hih hip]
    split_ifs <;> rfl
  simp only [hsections, Bool.or_eq_true, Bool.if_false_right, Bool.and_eq_true, decide_eq_true_eq, or_assoc]

end

/-- The print section's values: the title ends before its first NUL (R158). -/
theorem setPrint_eq (w : Nat → Word) (c : Settings) : (setPrint w c).print =
    { width := max 24 (min 64 (b0 (w 0)))
      rate := b1 (w 0)
      portOn := bitAt (w 0) 16
      title := ((List.range 32).map fun i => BitVec.ofNat 8 ((w (1 + i / 4)).toNat / 256 ^ (i % 4))).takeWhile
        fun x => decide (x ≠ 0)
      windows := (List.range 6).map fun i => windowOf (w (9 + i)) } := by
  rw [← clampTo_eq _ (by decide), ← untilNul_eq, ← flatMap_wordBytes (fun i => w (1 + i)) 8]
  rfl

/-- The checks of CONFIGURE, in their order, with the number of the section each speaks of (R187). -/
theorem configFault_eq (ps : Nat → Word) (r : Settings) : configFault ps r =
    if bitAt (ps 0) 1 = true ∧ r.oLim ≤ r.pLim then some (.limitOrder, 2)
    else if bitAt (ps 0) 1 = true ∧ r.n ≠ 1 ∧ r.n ≠ 4 ∧ r.n ≠ 16 ∧ r.n ≠ 64 then some (.badParameter, 2)
    else if bitAt (ps 0) 3 = true ∧ 7 < r.print.rate then some (.badParameter, 4)
    else if bitAt (ps 0) 3 = true ∧ ∃ x ∈ r.print.windows, x.shown = true ∧
      (1 < x.line ∨ x.last < x.first ∨ r.print.width ≤ x.last) then some (.badLayout, 4)
    else none := by
  have hmeasure : (sectionsOf (ps 0)).measure.isSome = bitAt (ps 0) 1 := by
    unfold sectionsOf; cases bitAt (ps 0) 1 <;> rfl
  have hprint : (sectionsOf (ps 0)).print.isSome = bitAt (ps 0) 3 := by
    unfold sectionsOf; cases bitAt (ps 0) 3 <;> rfl
  have hcount : (!(countOk r.n && decide (r.n ≠ 0))) = true ↔ r.n ≠ 1 ∧ r.n ≠ 4 ∧ r.n ≠ 16 ∧ r.n ≠ 64 := by
    rw [Bool.not_eq_true', ← Bool.not_eq_true, Bool.and_eq_true, countOk_iff, decide_eq_true_eq]
    omega
  have hwindows : r.print.windows.any (Window.bad r.print.width) = true ↔ ∃ x ∈ r.print.windows, x.shown = true ∧
      (1 < x.line ∨ x.last < x.first ∨ r.print.width ≤ x.last) := by
    simp [List.any_eq_true, Window.bad, or_assoc]
  simp only [configFault, hmeasure, hprint, Bool.and_eq_true, decide_eq_true_eq, hcount, hwindows]

/-! ## The take of a CONFIGURE (R166, R187) -/

/-- A character that may begin now changes the transmitter alone. -/
theorem Dev.retryChar_frame (d : Dev) : d.retryChar = { d with tx := d.retryChar.tx } := by
  unfold Dev.retryChar
  split
  · rw [Dev.beginChar_eq]
  · rfl

/-- The blocks once a CONFIGURE that passes its checks has its settings in force. -/
def Dev.reconfigured (o : Order) (d : Dev) : Dev :=
  { d.setClamped (configClamps o.param) with
    cfg := configured o.param d.cfg, prog := { d.prog with applied := b0 (o.param 0) % 16 } }

theorem Dev.startConfigure_refused {o : Order} {d : Dev} {c : Code} {n : Nat}
    (h : configFault o.param (configured o.param d.cfg) = some (c, n)) :
    d.startConfigure o = { d.setClamped (configClamps o.param) with
      prog := { d.prog with failing := n }, tasks := .endOrder .refused c :: d.tasks } := by
  simp only [Dev.startConfigure, h]
  rfl

theorem Dev.startConfigure_applies {o : Order} {d : Dev} (h : configFault o.param (configured o.param d.cfg) = none) :
    d.startConfigure o = { d.reconfigured o with
      tx := (d.reconfigured o).retryChar.tx, tasks := .endOrder .done .done :: d.tasks } := by
  have hretry : d.startConfigure o = (d.reconfigured o).retryChar.push [.endOrder .done .done] := by
    simp only [Dev.startConfigure, h]
    rfl
  rw [hretry, Dev.retryChar_frame]
  rfl

/-- Applied or refused, a value outside its range sets the order's clamped flag (log 30). -/
theorem Dev.startConfigure_reader (o : Order) (d : Dev) :
    (d.startConfigure o).reader = (d.setClamped (configClamps o.param)).reader := by
  cases h : configFault o.param (configured o.param d.cfg) with
  | some fault => rw [Dev.startConfigure_refused h]
  | none => rw [Dev.startConfigure_applies h]; rfl

/-- Settles O35: the take by the checks, the clamped flag by the ranges, the checks in their order, the values by section. -/
theorem configureAppliesOrRefuses : Obligations.ConfigureAppliesOrRefuses := by
  refine ⟨fun o d c n h => ?refuses, fun o d h => ?applies,
    fun o x d im ih ip outside hx him hih hip houtside => ⟨x.clamped || configClamps o.param, ?_, ?_⟩,
    fun ps c r limits count rate window hr hlimits hcount hrate hwindow => ?checks,
    fun ps c im ih ip him hih hip => ?values⟩
  case refuses =>
    rw [Dev.startConfigure_refused h]
    exact ⟨rfl, rfl, rfl, rfl⟩
  case applies =>
    rw [Dev.startConfigure_applies h]
    refine ⟨rfl, ?_, rfl, fun may hmay => ?_⟩
    · show (o.param 0).toNat % 256 % 16 = (o.param 0).toNat % 16
      omega
    · have hmay : may = (d.reconfigured o).mayBegin := Dev.eq_mayBegin hmay
      rw [hmay]
      refine ⟨fun hs hbegin => ?_, fun hstays => ?_⟩
      · rw [Dev.retryChar_begins (d := d.reconfigured o) hs hbegin]
        rfl
      · rw [Dev.retryChar_stays (d := d.reconfigured o) hstays]
        rfl
  · rw [Bool.or_eq_true, configClamps_iff him hih hip, houtside]
    simp only [timingClamps, measureClamps, hvClamps, printClamps, Bool.or_eq_true, clamps_iff, Config.maxMilliohms, or_assoc,
      Nat.add_zero]
  · rw [Dev.startConfigure_reader, Dev.setClamped_eq, hx]
    rfl
  case checks =>
    obtain rfl := propext hlimits
    obtain rfl := propext hcount
    obtain rfl := propext hrate
    obtain rfl := propext hwindow
    rw [configFault_eq]
    refine ⟨fun h1 => if_pos h1, fun h1 h2 => ?_, fun h1 h2 h3 => ?_, fun h1 h2 h3 h4 => ?_, fun h1 h2 h3 h4 => ?_⟩
    · rw [if_neg h1, if_pos h2]
    · rw [if_neg h1, if_neg h2, if_pos h3]
    · rw [if_neg h1, if_neg h2, if_neg h3, if_pos h4]
    · rw [if_neg h1, if_neg h2, if_neg h3, if_neg h4]
  case values =>
    have hvalues := configured_eq him hih hip c
    simp (disch := decide) only [clampTo_eq, setPrint_eq, ← Nat.add_assoc, Nat.add_zero] at hvalues
    have hno : ∀ {b : Bool}, b = false → ¬b = true := ne_true_of_eq_false
    rw [hvalues]
    refine ⟨fun h => ⟨if_pos h, if_pos h⟩, fun h => ⟨if_neg (hno h), if_neg (hno h)⟩,
      fun h => ⟨if_pos h, if_pos h, if_pos h, if_pos h, if_pos h, if_pos h, if_pos h⟩,
      fun h => ⟨if_neg (hno h), if_neg (hno h), if_neg (hno h), if_neg (hno h), if_neg (hno h), if_neg (hno h), if_neg (hno h)⟩,
      fun h => ⟨if_pos h, if_pos h⟩, fun h => ⟨if_neg (hno h), if_neg (hno h)⟩, fun h => ?print, fun w => rfl,
      fun h => if_neg (hno h)⟩
    case print =>
      rw [if_pos h]
      exact ⟨rfl, rfl, rfl, rfl, rfl⟩

end Sys2Proof.Machine

namespace Sys2Proof.Machine

/-! # What every command keeps: the blocks, the host port and test memory -/

/-! ## Commands that do nothing at the host port -/

/-- What becomes of the blocks: nothing, or an event after which the thread has run on, or a change of the attention unit that
the level requests and the line have followed (R191, R197, R198). -/
inductive Dev.Moves (d : Dev) : Dev → Prop
  | still : Dev.Moves d d
  | settled (q : List (Nat × Word)) (e : Dev) : Dev.Moves d (e.settle q)
  | attends (f : Attn → Attn) : Dev.Moves d (d.onAttn f).syncAttn

/-- From one machine to the other only the blocks, the word that a host read gives, and the marker of the last grant change. -/
def State.MovesBlocks (s t : State) : Prop :=
  ∃ d data g, s.dev.Moves d ∧ t = { s with dev := d, hostData := data, lastGrant := g }

theorem State.movesBlocks_refl (s : State) : s.MovesBlocks s := ⟨_, _, _, .still, rfl⟩

theorem State.movesBlocks_withDev (f : Dev → Dev) (s : State) : s.MovesBlocks (s.withDev f) := ⟨_, _, _, .settled _ _, rfl⟩

theorem State.movesBlocks_ite {s a b : State} {c : Prop} [Decidable c] (ha : s.MovesBlocks a) (hb : s.MovesBlocks b) :
    s.MovesBlocks (if c then a else b) := by
  split <;> assumption

theorem State.movesBlocks_command (f : Dev → Dev) (s : State) : s.MovesBlocks (s.command f) :=
  State.movesBlocks_ite (s.movesBlocks_withDev f) s.movesBlocks_refl

theorem State.movesBlocks_attention (f : Attn → Attn) (s : State) : s.MovesBlocks (s.attention f) :=
  State.movesBlocks_ite ⟨_, _, _, .attends f, rfl⟩ s.movesBlocks_refl

/-- The reader's own reads move the marker of the last grant, then the blocks change (log 9). -/
theorem State.movesBlocks_reads (offs : List Nat) (f : Dev → Dev) (s : State) :
    s.MovesBlocks ((s.markReads offs).withDev f) := by
  obtain ⟨g, hg⟩ := s.markReads_eq offs
  rw [hg]
  exact ⟨_, _, g, .settled _ _, rfl⟩

theorem State.movesBlocks_readRegister (r : BitVec 2) (s : State) : s.MovesBlocks (s.readRegister r) := by
  obtain ⟨d, data, g, hd, ht⟩ := State.movesBlocks_ite (c := r = 2) (s.movesBlocks_attention Attn.poll) s.movesBlocks_refl
  refine State.movesBlocks_ite ?_ s.movesBlocks_refl
  rw [ht]
  exact ⟨d, _, g, hd, rfl⟩

/-- The commands that the host port or the arbiter carries out: the resets, the memory window's accesses and the grant. -/
def atHostPort : Instr → Bool
  | .hardwareReset | .softReset | .hostWrite _ _ | .hostRead _ | .arbiterGrant => true
  | _ => false

/-- Every other command meets the blocks alone. -/
theorem exec_movesBlocks {c : Instr} (hc : atHostPort c = false) (s : State) :
    ∃ t, exec c s = .next t ∧ s.MovesBlocks t := by
  cases c
  case hardwareReset | softReset | hostWrite | hostRead | arbiterGrant => cases hc
  case ignoredRegisterWrite => exact ⟨_, rfl, s.movesBlocks_refl⟩
  case poll => exact ⟨_, rfl, s.movesBlocks_readRegister 2⟩
  case start | takeOrder => exact ⟨_, rfl, State.movesBlocks_ite (s.movesBlocks_reads _ _) s.movesBlocks_refl⟩
  case halt | resume | abort => exact ⟨_, rfl, s.movesBlocks_command _⟩
  case interlockOpening => exact ⟨_, rfl, State.movesBlocks_ite s.movesBlocks_refl (s.movesBlocks_withDev _)⟩
  case releaseTimerExpiry | settleTimerExpiry | offTimerExpiry | unparkSettleExpiry | interlockClosing =>
    exact ⟨_, rfl, State.movesBlocks_ite (s.movesBlocks_withDev _) s.movesBlocks_refl⟩
  case cardEcho | echoWindowExpiry | cardFrameEnd | converterSample | rampTimerExpiry | dwellTimerExpiry | locateDwellExpiry
    | trip | arcPulse | dischargeTimerExpiry | formatLine | characterFrameEnd | printerReadyAsserted | printerReadyReleased
    | paperOutAsserted | paperOutReleased =>
    exact ⟨_, rfl, s.movesBlocks_withDev _⟩
  all_goals exact ⟨_, rfl, s.movesBlocks_attention _⟩

/-! ## Commands of the host port -/

theorem State.busFree_of_none {s : State} (hw : s.hostWait = none) : s.busFree = true := Option.isNone_iff_eq_none.2 hw

/-- SOFT_RESET at the host port: it acts, or waits for the queue to drain, or meets a bus that carries another access
(R186, R195, log 6). -/
def State.askSoftReset (s : State) : State :=
  if s.busFree then (if s.hostQ.isEmpty then s.actSoftReset else { s with hostWait := some .softReset }) else s

theorem exec_askSoftReset (s : State) : exec .softReset s = .next s.askSoftReset := rfl

/-- A property of the machine that each command of the host port keeps, and any change of the blocks alone. -/
structure PortKeeps (P : State → Prop) : Prop where
  blocks : ∀ {s t : State}, s.MovesBlocks t → P s → P t
  hardwareReset : ∀ {s : State}, P s → P s.hardwareReset
  softReset : ∀ {s : State}, P s → P s.askSoftReset
  write : ∀ (off : Nat) (v : Word) {s : State}, P s → P (s.hostWrite off v)
  read : ∀ (off : Nat) {s : State}, P s → P (s.hostRead off)
  grantHost : ∀ {s : State}, s.hostAsks = true → P s → P s.grantHost
  grantEngine : ∀ {s : State}, P s → P s.grantEngine

theorem State.grant_cases {P : State → Prop} {s : State} (hhost : s.hostAsks = true → P s.grantHost)
    (hengine : P s.grantEngine) (hnone : P s) : P s.grant := by
  unfold State.grant
  split
  · rename_i h
    exact hhost (Bool.and_eq_true_iff.1 h).1
  · split <;> assumption

/-- Such a property every command keeps. -/
theorem exec_portKeeps {P : State → Prop} (hP : PortKeeps P) {c : Instr} {s t : State} (he : exec c s = .next t) (h : P s) :
    P t := by
  by_cases hc : atHostPort c = false
  · obtain ⟨u, hu, hm⟩ := exec_movesBlocks hc s
    obtain rfl : u = t := Host.Outcome.next.inj (hu.symm.trans he)
    exact hP.blocks hm h
  · cases c
    case hardwareReset => cases he; exact hP.hardwareReset h
    case softReset => cases he; exact hP.softReset h
    case hostWrite addr v => cases he; exact hP.write _ v h
    case hostRead addr => cases he; exact hP.read _ h
    case arbiterGrant => cases he; exact State.grant_cases (fun ha => hP.grantHost ha h) (hP.grantEngine h) h
    all_goals exact absurd rfl hc

/-- And every step, if it does not speak of the commands that wait. -/
theorem step_portKeeps {P : State → Prop} (hP : PortKeeps P)
    (hp : ∀ (s : State) (cs : List Instr), P s → P { s with pending := cs }) {s t : State} (hs : step s = .next t) (h : P s) :
    P t := by
  unfold step at hs
  split at hs
  · cases hs; exact h
  · exact exec_portKeeps hP hs (hp s _ h)

/-! ## What serving a held-off access changes -/

/-- A held-off write that finds room joins the queue, a held-off soft reset that finds it empty acts; nothing else is served
(R192, R195). -/
theorem State.serveHeld_cases {P : State → Prop} {s : State}
    (hwrite : ∀ off v, s.hostWait = some (.write off v) → s.hostQ.length < 8 → P (s.acceptWrite off v))
    (hreset : s.hostWait = some .softReset → s.hostQ = [] → P s.actSoftReset)
    (hstays : (∀ off v, s.hostWait = some (.write off v) → 8 ≤ s.hostQ.length) →
      (s.hostWait = some .softReset → s.hostQ ≠ []) → P s) : P s.serveHeld := by
  unfold State.serveHeld
  cases hw : s.hostWait with
  | none => exact hstays (by simp [hw]) (by simp [hw])
  | some a =>
    cases a with
    | read off => exact hstays (by simp [hw]) (by simp [hw])
    | write off v =>
      by_cases hroom : s.hostQ.length < 8
      · simpa [Config.hostQueueSize, hroom] using hwrite off v hw hroom
      · simpa [Config.hostQueueSize, hroom] using hstays (fun _ _ _ => Nat.not_lt.1 hroom) (by simp [hw])
    | softReset =>
      by_cases hempty : s.hostQ = []
      · simpa [hempty] using hreset hw hempty
      · simpa [hempty] using hstays (by simp [hw]) fun _ => hempty

@[simp] theorem State.serveHeld_mem (s : State) : s.serveHeld.mem = s.mem :=
  State.serveHeld_cases (P := fun t => t.mem = s.mem) (fun _ _ _ _ => rfl) (fun _ _ => rfl) fun _ _ => rfl

@[simp] theorem State.serveHeld_ramBytes (s : State) : s.serveHeld.ramBytes = s.ramBytes :=
  State.serveHeld_cases (P := fun t => t.ramBytes = s.ramBytes) (fun _ _ _ _ => rfl) (fun _ _ => rfl) fun _ _ => rfl

@[simp] theorem State.serveHeld_pending (s : State) : s.serveHeld.pending = s.pending :=
  State.serveHeld_cases (P := fun t => t.pending = s.pending) (fun _ _ _ _ => rfl) (fun _ _ => rfl) fun _ _ => rfl

@[simp] theorem State.serveHeld_lastGrant (s : State) : s.serveHeld.lastGrant = s.lastGrant :=
  State.serveHeld_cases (P := fun t => t.lastGrant = s.lastGrant) (fun _ _ _ _ => rfl) (fun _ _ => rfl) fun _ _ => rfl

/-! ## What an access of the memory window changes -/

/-- A write is accepted, is held off by a full queue, or meets a bus that carries another access (R192, log 6). -/
theorem State.hostWrite_cases {P : State → Prop} {s : State} {off : Nat} {v : Word}
    (haccept : s.hostWait = none → s.hostQ.length < 8 → P (s.acceptWrite off v))
    (hhold : s.hostWait = none → 8 ≤ s.hostQ.length → P { s with hostWait := some (.write off v) }) (hbusy : P s) :
    P (s.hostWrite off v) := by
  unfold State.hostWrite
  split
  · rename_i hbus
    have hfree : s.hostWait = none := Option.isNone_iff_eq_none.1 hbus
    split
    · exact haccept hfree ‹_›
    · exact hhold hfree (Nat.not_lt.1 ‹_›)
  · exact hbusy

/-- A read is forwarded from the queue, waits for a grant, or meets a bus that carries another access (R192, log 6). -/
theorem State.hostRead_cases {P : State → Prop} {s : State} {off : Nat}
    (hforward : ∀ w, newest s.hostQ off = some w → P { s with hostData := some w })
    (hhold : newest s.hostQ off = none → P { s with hostWait := some (.read off) }) (hbusy : P s) : P (s.hostRead off) := by
  unfold State.hostRead
  split
  · cases hn : newest s.hostQ off with
    | some w => exact hforward w hn
    | none => exact hhold hn
  · exact hbusy

theorem State.askSoftReset_cases {P : State → Prop} {s : State} (hact : P s.actSoftReset)
    (hhold : s.hostQ ≠ [] → P { s with hostWait := some .softReset }) (hbusy : P s) : P s.askSoftReset := by
  unfold State.askSoftReset
  split
  · split
    · exact hact
    · exact hhold (mt List.isEmpty_iff.2 ‹_›)
  · exact hbusy

/-! ## What a grant changes -/

/-- The machine whose queue's head entry has been written, before the access held off is served (R192). -/
def State.drained (off : Nat) (v : Word) (q : List (Nat × Word)) (s : State) : State :=
  { s with mem := ramWrite s.ramBytes s.mem off v, hostQ := q, lastGrant := .host }

theorem State.drain_cons {s : State} {off : Nat} {v : Word} {q : List (Nat × Word)} (h : s.hostQ = (off, v) :: q) :
    s.drain = (s.drained off v q).serveHeld := by
  simp only [State.drain, h]
  rfl

theorem State.grantHost_read {s : State} {off : Nat} (h : s.hostWait = some (.read off)) : s.grantHost = s.grantRead off := by
  simp only [State.grantHost, h]

theorem State.grantHost_drain {s : State} (h : ∀ off, s.hostWait ≠ some (.read off)) : s.grantHost = s.drain := by
  unfold State.grantHost
  split
  · exact absurd ‹_› (h _)
  · rfl

/-- A grant to the host port serves its read, or writes the queue's head entry, or finds nothing to do (R194). -/
theorem State.grantHost_cases {P : State → Prop} {s : State}
    (hread : ∀ off, s.hostWait = some (.read off) → P (s.grantRead off))
    (hdrain : ∀ off v q, s.hostQ = (off, v) :: q → (∀ off, s.hostWait ≠ some (.read off)) → P (s.drained off v q).serveHeld)
    (hnone : P s) : P s.grantHost := by
  by_cases hr : ∃ off, s.hostWait = some (.read off)
  · obtain ⟨off, hr⟩ := hr
    rw [State.grantHost_read hr]
    exact hread off hr
  · have hno : ∀ off, s.hostWait ≠ some (.read off) := fun off h => hr ⟨off, h⟩
    rw [State.grantHost_drain hno]
    cases hq : s.hostQ with
    | nil => simpa only [State.drain, hq] using hnone
    | cons e q =>
      obtain ⟨off, v⟩ := e
      rw [State.drain_cons hq]
      exact hdrain off v q hq hno

theorem State.grantEngine_write {s : State} {b : Burst} {bs : List Burst} {ws : List Word} (h : s.dev.engineQ = b :: bs)
    (hd : b.data = some ws) :
    s.grantEngine = State.withDev (Dev.granted s.hostQ b [])
      { s with mem := ramWrites s.ramBytes s.mem b.off ws, lastGrant := .engine } := by
  simp only [State.grantEngine, h, hd]

theorem State.grantEngine_read {s : State} {b : Burst} {bs : List Burst} (h : s.dev.engineQ = b :: bs) (hd : b.data = none) :
    s.grantEngine = State.withDev (Dev.granted s.hostQ b (s.readWords b.off b.n)) { s with lastGrant := .engine } := by
  simp only [State.grantEngine, h, hd]

/-- A grant to the engine side makes the first burst, a write or a read, or finds none (R194). -/
theorem State.grantEngine_cases {P : State → Prop} {s : State}
    (hwrite : ∀ (b : Burst) (ws : List Word) (f : Dev → Dev), b.data = some ws →
      P (State.withDev f { s with mem := ramWrites s.ramBytes s.mem b.off ws, lastGrant := .engine }))
    (hread : ∀ f : Dev → Dev, P (State.withDev f { s with lastGrant := .engine })) (hnone : P s) : P s.grantEngine := by
  cases hq : s.dev.engineQ with
  | nil => simpa only [State.grantEngine, hq] using hnone
  | cons b bs =>
    cases hd : b.data with
    | some ws =>
      rw [State.grantEngine_write hq hd]
      exact hwrite b ws _ hd
    | none =>
      rw [State.grantEngine_read hq hd]
      exact hread _

/-! ## The canonical form of test memory -/

theorem portKeeps_memWf : PortKeeps fun s => s.mem.wf = true where
  blocks := by rintro s t ⟨d, data, g, -, rfl⟩ h; exact h
  hardwareReset h := by rw [State.hardwareReset, State.serveHeld_mem]; exact h
  softReset h := State.askSoftReset_cases (P := fun t => t.mem.wf = true) h (fun _ => h) h
  write off v s h := State.hostWrite_cases (P := fun t => t.mem.wf = true) (fun _ _ => h) (fun _ _ => h) h
  read off s h := State.hostRead_cases (P := fun t => t.mem.wf = true) (fun _ _ => h) (fun _ => h) h
  grantHost _ h := State.grantHost_cases (P := fun t => t.mem.wf = true) (fun _ _ => h)
    (fun off v q _ _ => by rw [State.serveHeld_mem]; exact ramWrite_wf h _ off v) h
  grantEngine h := State.grantEngine_cases (P := fun t => t.mem.wf = true) (fun b ws _ _ => ramWrites_wf h _ b.off ws)
    (fun _ => h) h

/-- Settles O3: a write to the RAM keeps the canonical form, and nothing else writes it. -/
theorem stepsKeepMemoryCanonical : Obligations.StepsKeepMemoryCanonical :=
  fun _ _ h hs => step_portKeeps portKeeps_memWf (fun _ _ h => h) hs h

/-! ## The host port's invariant (R192, R195) -/

theorem State.hostPortOk_of_none {s : State} (hq : s.hostQ.length ≤ 8) (hw : s.hostWait = none) : s.HostPortOk :=
  ⟨hq, by rw [hw]; trivial⟩

theorem State.acceptWrite_hostPortOk {s : State} (off : Nat) (v : Word) (hq : s.hostQ.length < 8) :
    (s.acceptWrite off v).HostPortOk :=
  State.hostPortOk_of_none (by simpa using hq) rfl

theorem State.actSoftReset_hostPortOk {s : State} (h : s.hostQ.length ≤ 8) : s.actSoftReset.HostPortOk :=
  State.hostPortOk_of_none h rfl

/-- The invariant after entries have left the queue, once what was held off has been served: the write of a full queue has found
room, and the soft reset an empty queue, where there is. -/
theorem State.serveHeld_hostPortOk {s : State} (hq : s.hostQ.length < 8)
    (hread : ∀ off, s.hostWait = some (.read off) → newest s.hostQ off = none) : s.serveHeld.HostPortOk := by
  refine State.serveHeld_cases (P := State.HostPortOk) (fun off v _ _ => s.acceptWrite_hostPortOk off v hq)
    (fun _ _ => State.actSoftReset_hostPortOk hq.le) fun hwrite hreset => ⟨hq.le, ?_⟩
  cases hw : s.hostWait with
  | none => trivial
  | some a =>
    cases a with
    | write off v => exact absurd (hwrite off v hw) (Nat.not_le.2 hq)
    | read off => exact hread off hw
    | softReset => exact hreset hw

theorem portKeeps_hostPortOk : PortKeeps State.HostPortOk where
  blocks := by rintro s t ⟨d, data, g, -, rfl⟩ h; exact h
  hardwareReset _ := State.serveHeld_hostPortOk (Nat.zero_lt_succ 7) fun _ _ => rfl
  softReset h := State.askSoftReset_cases (State.actSoftReset_hostPortOk h.1) (fun hq => ⟨h.1, hq⟩) h
  write off v s h := State.hostWrite_cases (fun _ hroom => s.acceptWrite_hostPortOk off v hroom)
    (fun _ hfull => ⟨h.1, Nat.le_antisymm h.1 hfull⟩) h
  read off s h := State.hostRead_cases (fun _ _ => h) (fun hn => ⟨h.1, hn⟩) h
  grantHost _ h := State.grantHost_cases (fun _ _ => State.hostPortOk_of_none h.1 rfl)
    (fun off v q hq hno => by
      have hlen : q.length < 8 := by simpa [hq] using h.1
      exact State.serveHeld_hostPortOk hlen fun off hw => absurd hw (hno off)) h
  grantEngine h := State.grantEngine_cases (fun _ _ _ _ => h) (fun _ => h) h

/-- Settles O4: an entry that leaves the queue lets the write behind it join, and nothing else joins a full queue. -/
theorem stepsKeepHostPort : Obligations.StepsKeepHostPort :=
  fun _ _ h hs => step_portKeeps portKeeps_hostPortOk (fun _ _ h => h) hs h

/-! ## The line, the level requests and the image (R174, R197, R198) -/

/-- The image shows nothing of the attention unit, so that a change there leaves it as it was. -/
theorem Dev.syncAttn_onAttn_follows {d : Dev} (h : d.ImageFollows) (f : Attn → Attn) : (d.onAttn f).syncAttn.Follows := by
  obtain ⟨hline, hlevels⟩ := (d.onAttn f).syncAttn_follows
  exact ⟨hline, hlevels, h⟩

theorem Dev.Moves.follows {d e : Dev} (h : d.Moves e) (hd : d.Follows) : e.Follows := by
  cases h with
  | still => exact hd
  | settled q e => exact Dev.settle_follows q e
  | attends f => exact Dev.syncAttn_onAttn_follows hd.2.2 f

theorem State.serveHeld_follows {s : State} (h : s.dev.Follows) : s.serveHeld.dev.Follows :=
  State.serveHeld_cases (P := fun t => t.dev.Follows) (fun _ _ _ _ => Dev.settle_follows _ _)
    (fun _ _ => Dev.settle_follows _ _) fun _ _ => h

theorem portKeeps_follows : PortKeeps fun s => s.dev.Follows where
  blocks := by rintro s t ⟨d, data, g, hd, rfl⟩ h; exact hd.follows h
  hardwareReset _ := State.serveHeld_follows (Dev.settle_follows _ _)
  softReset h := State.askSoftReset_cases (P := fun t => t.dev.Follows) (Dev.settle_follows _ _) (fun _ => h) h
  write off v s h := State.hostWrite_cases (P := fun t => t.dev.Follows) (fun _ _ => Dev.settle_follows _ _) (fun _ _ => h) h
  read off s h := State.hostRead_cases (P := fun t => t.dev.Follows) (fun _ _ => h) (fun _ => h) h
  grantHost _ h := State.grantHost_cases (P := fun t => t.dev.Follows) (fun _ _ => h)
    (fun _ _ _ _ _ => State.serveHeld_follows h) h
  grantEngine h := State.grantEngine_cases (P := fun t => t.dev.Follows) (fun _ _ _ _ => Dev.settle_follows _ _)
    (fun _ => Dev.settle_follows _ _) h

/-- Settles O5: after every event the attention unit and the image follow the blocks, and a command to the attention unit alone
changes nothing that the image shows. -/
theorem stepsKeepLineLevelsAndImage : Obligations.StepsKeepLineLevelsAndImage :=
  fun _ _ h hs => step_portKeeps portKeeps_follows (fun _ _ h => h) hs h

/-! ## The queue of commands, the fitted RAM, and who writes test memory (R192, R194) -/

theorem portKeeps_fixed (p : List Instr) (n : Nat) : PortKeeps fun s => s.pending = p ∧ s.ramBytes = n where
  blocks := by rintro s t ⟨d, data, g, -, rfl⟩ h; exact h
  hardwareReset h := by rw [State.hardwareReset, State.serveHeld_pending, State.serveHeld_ramBytes]; exact h
  softReset h := State.askSoftReset_cases (P := fun t => t.pending = p ∧ t.ramBytes = n) h (fun _ => h) h
  write off v s h := State.hostWrite_cases (P := fun t => t.pending = p ∧ t.ramBytes = n) (fun _ _ => h) (fun _ _ => h) h
  read off s h := State.hostRead_cases (P := fun t => t.pending = p ∧ t.ramBytes = n) (fun _ _ => h) (fun _ => h) h
  grantHost _ h := State.grantHost_cases (P := fun t => t.pending = p ∧ t.ramBytes = n) (fun _ _ => h)
    (fun _ _ _ _ _ => by rw [State.serveHeld_pending, State.serveHeld_ramBytes]; exact h) h
  grantEngine h := State.grantEngine_cases (P := fun t => t.pending = p ∧ t.ramBytes = n) (fun _ _ _ _ => h) (fun _ => h) h

/-- No command but a grant writes test memory. -/
theorem exec_mem {c : Instr} {s t : State} (hc : c ≠ .arbiterGrant) (he : exec c s = .next t) : t.mem = s.mem := by
  by_cases hport : atHostPort c = false
  · obtain ⟨u, hu, d, data, g, -, rfl⟩ := exec_movesBlocks hport s
    cases hu.symm.trans he
    rfl
  · cases c
    case hardwareReset => cases he; exact State.serveHeld_mem _
    case softReset => cases he; exact State.askSoftReset_cases (P := fun t => t.mem = s.mem) rfl (fun _ => rfl) rfl
    case hostWrite addr v =>
      cases he
      exact State.hostWrite_cases (P := fun t => t.mem = s.mem) (fun _ _ => rfl) (fun _ _ => rfl) rfl
    case hostRead addr => cases he; exact State.hostRead_cases (P := fun t => t.mem = s.mem) (fun _ _ => rfl) (fun _ => rfl) rfl
    case arbiterGrant => exact absurd rfl hc
    all_goals exact absurd rfl hport

theorem exec_next (c : Instr) (s : State) : ∃ t, exec c s = .next t := by
  cases c <;> exact ⟨_, rfl⟩

/-- Settles O2: the commands of the host port one by one, the others by what they change of the blocks. -/
theorem everyCommandAnswersNextState : Obligations.EveryCommandAnswersNextState := by
  intro c s
  obtain ⟨t, ht⟩ := exec_next c s
  obtain ⟨hpending, hram⟩ := exec_portKeeps (portKeeps_fixed s.pending s.ramBytes) ht ⟨rfl, rfl⟩
  exact ⟨t, ht, hpending, hram, fun hc a => by rw [exec_mem hc ht]⟩

end Sys2Proof.Machine

namespace Sys2Proof.Machine

/-! # The attention unit's poll, commands and resets -/

/-! ## The eligible request of each mode (R198) -/

theorem Attn.rank_circle (a : Attn) :
    a.rank (a.lowest + 1) = 0 ∧ a.rank a.lowest = 7 ∧ ∀ x, x ≠ a.lowest → a.rank (x + 1) = a.rank x + 1 := by
  have hcircle : ∀ b : BitVec 3, (b + 1 - b - 1).toNat = 0 ∧ (b - b - 1).toNat = 7 ∧
      ∀ x, x ≠ b → (x + 1 - b - 1).toNat = (x - b - 1).toNat + 1 := by decide
  exact hcircle a.lowest

/-- In the fully nested mode the highest unmasked request is eligible if it outranks every source in service. -/
theorem Attn.eligible_nested {a : Attn} (hs : a.selective = false) (h : BitVec 3) :
    a.eligible = some h ↔ a.highest (a.req &&& ~~~a.msk) = some h ∧ ∀ y, hasSrc a.svc y = true → a.rank h < a.rank y := by
  have heq : a.eligible = match a.highest (a.req &&& ~~~a.msk) with
      | none => none
      | some h => match a.highest a.svc with
        | none => some h
        | some t => if a.rank h < a.rank t then some h else none := by
    rw [Attn.eligible, hs]
    rfl
  rw [heq]
  cases hreq : a.highest (a.req &&& ~~~a.msk) with
  | none => simp
  | some k =>
    cases hsvc : a.highest a.svc with
    | none => simp [Attn.highest_none hsvc]
    | some t =>
      obtain ⟨ht, hmin⟩ := Attn.highest_some hsvc
      by_cases hkt : a.rank k < a.rank t
      · simp only [if_pos hkt, Option.some.injEq]
        refine ⟨fun hk => ⟨hk, fun y hy => hk ▸ Nat.lt_of_lt_of_le hkt (hmin y hy)⟩, fun hk => hk.1⟩
      · simp only [if_neg hkt, reduceCtorEq, Option.some.injEq, false_iff, not_and]
        rintro rfl hout
        exact hkt (hout t ht)

/-- In the selective mode the highest request that is neither masked nor in service is eligible. -/
theorem Attn.eligible_selective {a : Attn} (hs : a.selective = true) :
    a.eligible = a.highest (a.req &&& ~~~a.msk &&& ~~~a.svc) := by
  rw [Attn.eligible, if_pos hs]

/-- A masked request is not eligible in either mode. -/
theorem Attn.eligible_unmasked {a : Attn} {x : BitVec 3} (h : a.eligible = some x) : hasSrc a.msk x = false := by
  have hreq : hasSrc (a.req &&& ~~~a.msk) x = true := by
    cases hs : a.selective with
    | false => exact (Attn.highest_some ((Attn.eligible_nested hs x).1 h).1).1
    | true =>
      rw [Attn.eligible_selective hs] at h
      have hall := (Attn.highest_some h).1
      rw [hasSrc_and, Bool.and_eq_true] at hall
      exact hall.1
  rw [hasSrc_and, hasSrc_not, Bool.and_eq_true, Bool.not_eq_true'] at hreq
  exact hreq.2

/-- What SET_BOTTOM, and every other command of the attention unit, makes of the blocks while the bus is free (R200). -/
theorem State.attention_eq {s : State} (hw : s.hostWait = none) (f : Attn → Attn) :
    s.attention f = { s with dev := (s.dev.onAttn f).syncAttn } :=
  if_pos (State.busFree_of_none hw)

/-- Settles O10: the ranks by cases on the lowest source, eligibility by the highest of the sets it is chosen from, the line by
what every step keeps. -/
theorem lineAssertedExactlyWhenEligible : Obligations.LineAssertedExactlyWhenEligible := by
  refine ⟨rfl, Attn.rank_circle, fun a h hs => ?nested, fun a h hs => ?selective, fun s x hw => ?bottom,
    fun s t hf hstep => ?line⟩
  case nested =>
    rw [Attn.eligible_nested hs, Attn.highest_eq_some]
    simp only [hasSrc_and, hasSrc_not, Bool.and_eq_true, Bool.not_eq_true', and_assoc, and_imp]
  case selective =>
    rw [Attn.eligible_selective hs, Attn.highest_eq_some]
    simp only [hasSrc_and, hasSrc_not, Bool.and_eq_true, Bool.not_eq_true', and_assoc, and_imp]
  case bottom =>
    refine ⟨_, congrArg Host.Outcome.next (State.attention_eq hw _), ?_⟩
    show (s.dev.onAttn fun a => { a with lowest := x }).syncAttn.attn.lowest = x
    rw [Dev.syncAttn_attn_frame]
    rfl
  case line =>
    have hline : t.dev.attn.line = t.dev.attn.eligible.isSome := (stepsKeepLineLevelsAndImage s t hf hstep).1
    rw [hline, Option.isSome_iff_exists]

/-! ## Commands of the attention unit (R197, R200) -/

/-- After a command the requests of what is in service and of the event sources are as the command leaves them; the other level
sources follow their conditions, and the line is judged again. -/
theorem Dev.attnAfter_syncAttn (d : Dev) (f : Attn → Attn) : d.AttnAfter (f d.attn) (d.onAttn f).syncAttn.attn := by
  obtain ⟨hline, hlevels⟩ := (d.onAttn f).syncAttn_follows
  refine ⟨Dev.syncAttn_attn_frame _, fun x hx => ?_, hlevels, hline⟩
  rw [Dev.hasSrc_syncAttn]
  have hkept : ∀ y : BitVec 3, (y = 0 ∨ y = 5 ∨ y = 7) → ¬(x = y ∧ hasSrc (f d.attn).svc y = false) := by
    rintro y hy ⟨rfl, hout⟩
    rcases hx with hin | ⟨h0, h5, h7⟩
    · rw [hin] at hout; cases hout
    · rcases hy with rfl | rfl | rfl <;> contradiction
  exact (if_neg (hkept 0 (by decide))).trans ((if_neg (hkept 5 (by decide))).trans (if_neg (hkept 7 (by decide))))

/-- A command of the attention unit changes the attention unit alone. -/
theorem State.attention_after {s : State} (hw : s.hostWait = none) (f : Attn → Attn) {a : Attn} (ha : f s.dev.attn = a) :
    ∃ t, s.dev.AttnAfter a t ∧ s.attention f = { s with dev := { s.dev with attn := t } } := by
  subst ha
  exact ⟨_, s.dev.attnAfter_syncAttn f, State.attention_eq hw f⟩

/-- Where everything follows the blocks, a command that leaves the attention unit as it is changes nothing. -/
theorem State.attention_still {s : State} (hw : s.hostWait = none) (hf : s.dev.Follows) {f : Attn → Attn}
    (h : f s.dev.attn = s.dev.attn) : s.attention f = s := by
  have hon : s.dev.onAttn f = s.dev := by rw [Dev.onAttn, h]
  have hattn : s.dev.syncAttn.attn = s.dev.attn := by
    have hsync := congrArg Dev.attn (Dev.sync_of_follows hf)
    rwa [Dev.sync_attn] at hsync
  have hsame : s.dev.syncAttn = s.dev := congrArg (fun a => { s.dev with attn := a }) hattn
  rw [State.attention_eq hw, hon, hsame]

theorem Attn.poll_eligible {a : Attn} {x : BitVec 3} (h : a.eligible = some x) : a.poll = { a with
    req := a.req &&& ~~~srcBit x
    svc := if a.autoclose then a.svc else a.svc ||| srcBit x
    lowest := if a.autoclose = true ∧ a.autorotate = true then x else a.lowest } := by
  simp only [Attn.poll, h, Bool.and_eq_true]

theorem Attn.poll_none {a : Attn} (h : a.eligible = none) : a.poll = a := by
  simp only [Attn.poll, h]

theorem exec_poll {s : State} (hw : s.hostWait = none) :
    exec .poll s = .next { s.attention Attn.poll with hostData := some (pollWord s.dev.attn.eligible) } :=
  congrArg Host.Outcome.next (if_pos (State.busFree_of_none hw))

/-- Settles O11, by what is eligible. -/
theorem pollReturnsHighestEligible : Obligations.PollReturnsHighestEligible := by
  refine fun s hw => ⟨fun x hx => ?_, fun hf hnone => ?_⟩
  · obtain ⟨t, ht, hs⟩ := State.attention_after hw Attn.poll (Attn.poll_eligible hx)
    refine ⟨t, ht, ?_⟩
    rw [exec_poll hw, hs, hx]
    rfl
  · rw [exec_poll hw, State.attention_still hw hf (Attn.poll_none hnone), hnone]
    rfl

/-! ## CLOSE_TOP and CLOSE_TOP_ROTATE (R200) -/

/-- The sources that CLOSE_TOP chooses from. -/
theorem Attn.hasSrc_closable (a : Attn) (x : BitVec 3) :
    hasSrc (if a.selective then a.svc &&& ~~~a.msk else a.svc) x = true ↔
      hasSrc a.svc x = true ∧ (a.selective = true → hasSrc a.msk x = false) := by
  cases a.selective <;> simp [hasSrc_and, hasSrc_not]

theorem Attn.top_eq_some_iff {a : Attn} {x : BitVec 3} : a.top = some x ↔ a.IsTop x := by
  rw [Attn.top, Attn.highest_eq_some, Attn.IsTop, Attn.hasSrc_closable, and_assoc]
  simp only [Attn.hasSrc_closable, and_imp]

theorem Attn.top_eq_none {a : Attn} (h : ∀ x, ¬a.IsTop x) : a.top = none := by
  cases htop : a.top with
  | none => rfl
  | some x => exact absurd (Attn.top_eq_some_iff.1 htop) (h x)

theorem Attn.closeTop_top {a : Attn} {x : BitVec 3} (h : a.IsTop x) : a.closeTop = a.close x := by
  simp only [Attn.closeTop, Attn.top_eq_some_iff.2 h]

theorem Attn.closeTopRotate_top {a : Attn} {x : BitVec 3} (h : a.IsTop x) :
    a.closeTopRotate = { a.close x with lowest := x } := by
  simp only [Attn.closeTopRotate, Attn.top_eq_some_iff.2 h]

theorem Attn.closeTop_none {a : Attn} (h : ∀ x, ¬a.IsTop x) : a.closeTop = a ∧ a.closeTopRotate = a := by
  simp only [Attn.closeTop, Attn.closeTopRotate, Attn.top_eq_none h, and_self]

theorem Attn.close_outside {a : Attn} {x : BitVec 3} (h : hasSrc a.svc x = false) : a.close x = a := by
  have hsvc : a.svc &&& ~~~srcBit x = a.svc := by
    refine srcSet_ext fun y => ?_
    by_cases hy : y = x
    · rw [hasSrc_and, hy, h, Bool.false_and]
    · simp [hasSrc_and, hasSrc_not, hasSrc_bit, hy]
  rw [Attn.close, hsvc]

/-- A command of the attention unit that makes it `a` does what the rules say that follows such a change, and nothing more. -/
theorem exec_attention {s : State} (hw : s.hostWait = none) {c : Instr} {f : Attn → Attn} {a : Attn}
    (hc : exec c s = .next (s.attention f)) (ha : f s.dev.attn = a) :
    ∃ t, s.dev.AttnAfter a t ∧ exec c s = .next { s with dev := { s.dev with attn := t } } := by
  obtain ⟨t, ht, hs⟩ := State.attention_after hw f ha
  exact ⟨t, ht, hc.trans (congrArg _ hs)⟩

theorem exec_attention_still {s : State} (hw : s.hostWait = none) (hf : s.dev.Follows) {c : Instr} {f : Attn → Attn}
    (hc : exec c s = .next (s.attention f)) (h : f s.dev.attn = s.dev.attn) : exec c s = .next s :=
  hc.trans (congrArg _ (State.attention_still hw hf h))

/-- Settles O12, command by command: each makes its change of the attention unit, which the level requests and the line
follow. -/
theorem attentionCommandsAct : Obligations.AttentionCommandsAct :=
  fun _ hw => ⟨fun _ hx => ⟨exec_attention hw rfl (Attn.closeTop_top hx), exec_attention hw rfl (Attn.closeTopRotate_top hx)⟩,
    fun hf hno => ⟨exec_attention_still hw hf rfl (Attn.closeTop_none hno).1,
      exec_attention_still hw hf rfl (Attn.closeTop_none hno).2⟩,
    fun _ => exec_attention hw rfl rfl, fun _ hf hx => exec_attention_still hw hf rfl (Attn.close_outside hx),
    fun _ => exec_attention hw rfl rfl, exec_attention hw rfl rfl, exec_attention hw rfl rfl, exec_attention hw rfl rfl,
    exec_attention hw rfl rfl, exec_attention hw rfl rfl, exec_attention hw rfl rfl, fun _ => exec_attention hw rfl rfl,
    fun _ _ => rfl⟩

/-! ## The resets (R201) -/

theorem Dev.beforeMatrixReset_attn (d : Dev) : d.beforeMatrixReset.attn = d.threadSoftReset.attn.softReset := by
  rw [Dev.beforeMatrixReset, Dev.hvSoftReset_frame]

/-- The soft reset empties the service set and keeps the mask, the order and the modes, whatever the thread and the
matrix do. -/
theorem Dev.softReset_settings (d : Dev) : d.softReset.attn.settings =
    (0, d.attn.msk, d.attn.lowest, d.attn.autoclose, d.attn.autorotate, d.attn.selective) := by
  have hmatrix : d.softReset.attn.settings = d.beforeMatrixReset.attn.settings := by
    rw [Dev.softReset_eq]
    exact (Dev.matrixSoftReset_keeps d.beforeMatrixReset).2.2.1
  have hthread : d.threadSoftReset.attn = d.attn := by
    unfold Dev.threadSoftReset
    split
    · rfl
    · split <;> rfl
  rw [hmatrix, Dev.beforeMatrixReset_attn, hthread]
  rfl

theorem hasSrc_all (x : BitVec 3) : hasSrc 0xFF x = true := by
  revert x
  decide

/-- Settles O13: a hardware reset gives the attention unit its reset values, of which no request is eligible; a soft reset
clears the sets, and with no work of the manager left to finish raises nothing. -/
theorem resetsActOnAttention : Obligations.ResetsActOnAttention := by
  refine ⟨fun s hw => ⟨_, exec_hardwareReset hw, ?_⟩, fun s hw hq => ⟨_, exec_softReset hw hq, ?_⟩⟩
  · rw [Dev.hardwareReset_settle]
    obtain ⟨hline, hlevels, -⟩ := s.dev.hardwareReset.sync_follows
    have hsettings : s.dev.hardwareReset.sync.attn.settings = (0, 0xFF, 7, false, false, false) :=
      Dev.sync_settings s.dev.hardwareReset
    have hmask : s.dev.hardwareReset.sync.attn.msk = 0xFF := congrArg (fun p => p.2.1) hsettings
    have hnone : s.dev.hardwareReset.sync.attn.eligible = none := by
      rw [Option.eq_none_iff_forall_not_mem]
      intro x hx
      have hout := Attn.eligible_unmasked (Option.mem_def.1 hx)
      rw [hmask] at hout
      exact Bool.false_ne_true (hout.symm.trans (hasSrc_all x))
    refine ⟨hsettings, ?_, hlevels, fun x h0 h5 h7 => ?_⟩
    · rw [hline, hnone]
      rfl
    · rw [Dev.hasSrc_sync_event _ h0 h5 h7]
      exact BitVec.getLsbD_zero
  · obtain ⟨hline, hlevels, -⟩ := Dev.settle_follows s.hostQ s.dev.softReset
    rw [State.actSoftReset_dev]
    refine ⟨?_, hline, hlevels, fun h1 h2 x h0 h5 h7 => ?_⟩
    · rw [Dev.settle_settings, Dev.softReset_settings]
    · obtain ⟨hom, hrest⟩ := Dev.beforeMatrixReset_rests h1 h2
      rw [← State.actSoftReset_dev, State.actSoftReset_dev_resting hom hrest, Dev.hasSrc_sync_event _ h0 h5 h7,
        Dev.matrixSoftReset_frame hom]
      dsimp only
      rw [Dev.beforeMatrixReset_attn]
      exact BitVec.getLsbD_zero

end Sys2Proof.Machine

namespace Sys2Proof.Machine

/-! # The registers -/

/-! ## Reads (R191, R207) -/

theorem State.readRegister_free {s : State} (hw : s.hostWait = none) (r : BitVec 2) :
    s.readRegister r =
      { (if r = 2 then s.attention Attn.poll else s) with hostData := some (s.dev.registerWord r) } :=
  if_pos (State.busFree_of_none hw)

/-- The first three bytes of a read of ATTN_VIEW. -/
theorem Dev.viewRead_bytes (d : Dev) :
    b0 d.viewRead = d.attn.req.toNat ∧ b1 d.viewRead = d.attn.svc.toNat ∧ b2 d.viewRead = d.attn.msk.toNat := by
  have hreq := d.attn.req.isLt
  have hsvc := d.attn.svc.isLt
  have hmsk := d.attn.msk.isLt
  simp only [Dev.viewRead, b0_bytes4, b1_bytes4, b2_bytes4]
  omega

/-- Bits 24 and up of a word are those of its last byte. -/
theorem bitAt_byte3 (x0 x1 x2 x3 : Nat) {i : Nat} (hi : 24 ≤ i) :
    bitAt (bytes4 x0 x1 x2 x3) i = (x3 % 256).testBit (i - 24) := by
  rw [bitAt, bytes4_toNat, Nat.testBit_eq_decide_div_mod_eq, Nat.testBit_eq_decide_div_mod_eq]
  obtain ⟨k, rfl⟩ : ∃ k, i = 24 + k := ⟨i - 24, by omega⟩
  rw [Nat.pow_add, ← Nat.div_div_eq_div_mul, Nat.add_sub_cancel_left]
  have hlow : (x0 % 256 + 256 * (x1 % 256) + 65536 * (x2 % 256) + 16777216 * (x3 % 256)) / 2 ^ 24 = x3 % 256 := by omega
  rw [hlow]

/-- The order and the modes as a byte. -/
def Attn.orderByte (a : Attn) : Nat :=
  a.lowest.toNat + flagAt a.autoclose 3 + flagAt a.autorotate 4 + flagAt a.selective 5

theorem Attn.orderByte_bits (a : Attn) :
    a.orderByte < 64 ∧ a.orderByte % 8 = a.lowest.toNat ∧ a.orderByte.testBit 3 = a.autoclose ∧
    a.orderByte.testBit 4 = a.autorotate ∧ a.orderByte.testBit 5 = a.selective ∧ a.orderByte.testBit 6 = false ∧
    a.orderByte.testBit 7 = false := by
  have hbits : ∀ (b : BitVec 3) (x y z : Bool),
      let n := b.toNat + flagAt x 3 + flagAt y 4 + flagAt z 5
      n < 64 ∧ n % 8 = b.toNat ∧ n.testBit 3 = x ∧ n.testBit 4 = y ∧ n.testBit 5 = z ∧ n.testBit 6 = false ∧
        n.testBit 7 = false := by decide
  exact hbits a.lowest a.autoclose a.autorotate a.selective

theorem Dev.bitAt_viewRead (d : Dev) {i : Nat} (hi : 24 ≤ i) : bitAt d.viewRead i = d.attn.orderByte.testBit (i - 24) := by
  have hlt := d.attn.orderByte_bits.1
  have hview : d.viewRead = bytes4 d.attn.req.toNat d.attn.svc.toNat d.attn.msk.toNat d.attn.orderByte := rfl
  rw [hview, bitAt_byte3 _ _ _ _ hi, Nat.mod_eq_of_lt (by omega)]

theorem Dev.viewRead_lowest (d : Dev) : d.viewRead.extractLsb' 24 3 = d.attn.lowest := by
  obtain ⟨hlt, hlow, -⟩ := d.attn.orderByte_bits
  have hview : d.viewRead = bytes4 d.attn.req.toNat d.attn.svc.toNat d.attn.msk.toNat d.attn.orderByte := rfl
  apply BitVec.eq_of_toNat_eq
  rw [BitVec.extractLsb'_toNat, Nat.shiftRight_eq_div_pow, hview, bytes4_toNat, ← hlow]
  omega

/-- The word of a poll that returns a source: the source, nothing between, and bit 31. -/
theorem pollWord_fields (x : BitVec 3) :
    (pollWord (some x)).extractLsb' 0 3 = x ∧ bitAt (pollWord (some x)) 31 = true ∧
    (pollWord (some x)).extractLsb' 3 28 = 0 := by
  revert x
  decide

/-! ## Writes (R191, R207) -/

/-- Codes 1 to 5 of RUN and 1 to 10 of ATTN_CMD are commands; a write that is none of them is ignored. -/
theorem ignoredWrite_iff (v : Word) :
    ignoredWrite 0 v = true ∧ (ignoredWrite 1 v = true ↔ b0 v = 0 ∨ 5 < b0 v) ∧
    (ignoredWrite 2 v = true ↔ b0 v = 0 ∨ 10 < b0 v) ∧ ignoredWrite 3 v = false := by
  simp [ignoredWrite, b0]

theorem registerCommand_run (v : Word) : registerCommand 1 v = match b0 v with
    | 1 => .start
    | 2 => .halt
    | 3 => .resume
    | 4 => .abort
    | 5 => .softReset
    | _ => .ignoredRegisterWrite 1 v := rfl

theorem registerCommand_attention (v : Word) : registerCommand 2 v = match b0 v with
    | 1 => .closeTop
    | 2 => .closeSource (v.extractLsb' 8 3)
    | 3 => .closeTopRotate
    | 4 => .setBottom (v.extractLsb' 8 3)
    | 5 => .autocloseOn
    | 6 => .autocloseOff
    | 7 => .autorotateOn
    | 8 => .autorotateOff
    | 9 => .selectiveOn
    | 10 => .selectiveOff
    | _ => .ignoredRegisterWrite 2 v := rfl

theorem registerCommand_ignored (r : BitVec 2) (v : Word) (h : ignoredWrite r v = true) :
    registerCommand r v = .ignoredRegisterWrite r v := by
  obtain ⟨-, hrun, hattention, hmask⟩ := ignoredWrite_iff v
  have hregs : ∀ r : BitVec 2, r = 0 ∨ r = 1 ∨ r = 2 ∨ r = 3 := by decide
  rcases hregs r with rfl | rfl | rfl | rfl
  · rfl
  · have hcode := hrun.1 h
    rw [registerCommand_run]
    split
    case h_6 => rfl
    all_goals omega
  · have hcode := hattention.1 h
    rw [registerCommand_attention]
    split
    case h_11 => rfl
    all_goals omega
  · rw [hmask] at h; cases h

/-- Settles O19: the words read by their fields, the commands by the code in the word's first byte. -/
theorem registerFieldsAndCommands : Obligations.RegisterFieldsAndCommands := by
  refine ⟨fun s r hw => ⟨?data, fun hr => ?still, rfl⟩, fun d => ⟨rfl, rfl, rfl, rfl⟩, by decide, fun d => ?run,
    ⟨rfl, rfl, rfl, rfl⟩, ⟨rfl, rfl, rfl, rfl, rfl⟩, fun d => ?view, pollWord_fields, rfl,
    ?_, ?_, ?_, ?_, ?_, ?_, ?_, ?_, ?_, ?_, ?_, ?_, ?_, ?_, ?_, fun v => rfl, ignoredWrite_iff, registerCommand_ignored⟩
  case data => rw [State.readRegister_free hw]
  case still => rw [State.readRegister_free hw, if_neg hr]
  case run =>
    simp only [Dev.runRead, b0_bytes4, b1_bytes4, hi_bytes4, RState.code_mod, LastError.code_mod, true_and]
  case view =>
    obtain ⟨hreq, hsvc, hmsk⟩ := d.viewRead_bytes
    obtain ⟨-, -, h3, h4, h5, h6, h7⟩ := d.attn.orderByte_bits
    refine ⟨hreq, hsvc, hmsk, d.viewRead_lowest, ?_, ?_, ?_, ?_, ?_⟩
    · rw [d.bitAt_viewRead (by decide)]; exact h3
    · rw [d.bitAt_viewRead (by decide)]; exact h4
    · rw [d.bitAt_viewRead (by decide)]; exact h5
    · rw [d.bitAt_viewRead (by decide)]; exact h6
    · rw [d.bitAt_viewRead (by decide)]; exact h7
  all_goals
    intro v hv
    simp only [registerCommand_run, registerCommand_attention, hv]

end Sys2Proof.Machine

namespace Sys2Proof.Machine

/-! # The host port and the arbiter -/

/-! ## Accesses of the memory window (R192, R193) -/

theorem exec_hostWrite_accepts {s : State} (hw : s.hostWait = none) (hq : s.hostQ.length < 8) (addr : BitVec 20) (v : Word) :
    exec (.hostWrite addr v) s = .next (s.acceptWrite (4 * addr.toNat) v) :=
  congrArg Host.Outcome.next ((if_pos (State.busFree_of_none hw)).trans (if_pos hq))

theorem exec_hostWrite_held {s : State} (hw : s.hostWait = none) (hq : s.hostQ.length = 8) (addr : BitVec 20) (v : Word) :
    exec (.hostWrite addr v) s = .next { s with hostWait := some (.write (4 * addr.toNat) v) } := by
  have hfull : ¬s.hostQ.length < Config.hostQueueSize := Nat.not_lt.2 hq.ge
  exact congrArg Host.Outcome.next ((if_pos (State.busFree_of_none hw)).trans (if_neg hfull))

theorem exec_hostRead {s : State} (hw : s.hostWait = none) (addr : BitVec 20) :
    exec (.hostRead addr) s = .next (match newest s.hostQ (4 * addr.toNat) with
      | some w => { s with hostData := some w }
      | none => { s with hostWait := some (.read (4 * addr.toNat)) }) :=
  congrArg Host.Outcome.next (if_pos (State.busFree_of_none hw))

/-- A write that the reader does not watch is no notice to it (R193). -/
theorem Dev.notice_unwatched {d : Dev} {off : Nat} (h : ¬d.NoticesWrite off) : d.notice off = d := by
  rw [Dev.NoticesWrite, not_or] at h
  obtain ⟨hwatch, hhead⟩ := h
  unfold Dev.notice
  split
  · rename_i hs
    cases hw : d.reader.watch with
    | none => rfl
    | some w => exact if_neg fun ho => hwatch ⟨hs, w, hw, ho⟩
  · refine if_neg fun ho => hhead ⟨ho.1, ?_⟩
    simpa using ho.2

/-- A write to the word that a WAITING reader watches has it read the word again (R180, R193). -/
theorem Dev.notice_watched {d : Dev} {w : Watch} (hs : d.reader.state = .waiting) (hw : d.reader.watch = some w) :
    d.notice w.off = d.dropThread.goto [.reread w] := by
  simp only [Dev.notice, hs, hw, if_true]

theorem State.acceptWrite_unwatched {s : State} {off : Nat} (v : Word) (hw : s.hostWait = none) (hf : s.dev.Follows)
    (hr : s.dev.Resting) (hn : ¬s.dev.NoticesWrite off) : s.acceptWrite off v = { s with hostQ := s.hostQ ++ [(off, v)] } := by
  have hdev : (s.acceptWrite off v).dev = s.dev := by
    rw [State.acceptWrite_dev, Dev.notice_unwatched hn, Dev.settle_still _ hr hf]
  have hframe : s.acceptWrite off v =
      { s with hostQ := s.hostQ ++ [(off, v)], hostWait := none, dev := (s.acceptWrite off v).dev } := rfl
  rw [hframe, hdev, hw]

/-! ## Who is granted (R194) -/

theorem State.hostAsks_iff (s : State) : s.hostAsks = true ↔ s.hostQ ≠ [] ∨ ∃ off, s.hostWait = some (.read off) := by
  rw [State.hostAsks, Bool.or_eq_true, Bool.not_eq_true', List.isEmpty_eq_false_iff]
  refine or_congr Iff.rfl ?_
  cases hw : s.hostWait with
  | none => simp
  | some a => cases a <;> simp

theorem State.hostAsks_eq_false_iff (s : State) : s.hostAsks = false ↔ s.hostQ = [] ∧ ∀ off, s.hostWait ≠ some (.read off) := by
  rw [← Bool.not_eq_true, State.hostAsks_iff, not_or, not_not, not_exists]

theorem State.engineAsks_iff (s : State) : s.engineAsks = true ↔ s.dev.engineQ ≠ [] := by
  rw [State.engineAsks, Bool.not_eq_true', List.isEmpty_eq_false_iff]

theorem State.engineAsks_eq_false_iff (s : State) : s.engineAsks = false ↔ s.dev.engineQ = [] := by
  rw [← Bool.not_eq_true, State.engineAsks_iff, not_not]

theorem exec_grant_host {s : State} (ha : s.hostAsks = true) (hg : s.engineAsks = false ∨ s.lastGrant = .engine) :
    exec .arbiterGrant s = .next s.grantHost := by
  have hchoice : (s.hostAsks && (!s.engineAsks || decide (s.lastGrant = .engine))) = true := by simpa [ha] using hg
  exact congrArg Host.Outcome.next (if_pos hchoice)

theorem exec_grant_engine {s : State} (ha : s.engineAsks = true) (hg : s.hostAsks = false ∨ s.lastGrant = .host) :
    exec .arbiterGrant s = .next s.grantEngine := by
  have hchoice : ¬(s.hostAsks && (!s.engineAsks || decide (s.lastGrant = .engine))) = true := by
    rcases hg with h | h <;> simp [ha, h]
  exact congrArg Host.Outcome.next ((if_neg hchoice).trans (if_pos ha))

/-- The marker names the requester that was granted. -/
theorem State.grantHost_lastGrant {s : State} (ha : s.hostAsks = true) : s.grantHost.lastGrant = .host := by
  by_cases hr : ∃ off, s.hostWait = some (.read off)
  · obtain ⟨off, hr⟩ := hr
    rw [State.grantHost_read hr]
    rfl
  · obtain ⟨e, q, hq⟩ := List.exists_cons_of_ne_nil ((s.hostAsks_iff.1 ha).resolve_right hr)
    rw [State.grantHost_drain (not_exists.1 hr), State.drain_cons hq, State.serveHeld_lastGrant]
    rfl

theorem State.grantEngine_lastGrant {s : State} (ha : s.engineAsks = true) : s.grantEngine.lastGrant = .engine := by
  obtain ⟨b, bs, hq⟩ := List.exists_cons_of_ne_nil (s.engineAsks_iff.1 ha)
  cases hd : b.data with
  | some ws => rw [State.grantEngine_write hq hd]; rfl
  | none => rw [State.grantEngine_read hq hd]; rfl

/-- With no requester nothing changes (log 5). -/
theorem exec_grant_none {s : State} (hh : s.hostAsks = false) (he : s.engineAsks = false) :
    exec .arbiterGrant s = .next s := by
  simp [exec, execArbiterGrant, State.grant, hh, he]

/-! ## A grant to the host port (R192, R194, R195) -/

section
variable {s : State} (hg : s.dev.engineQ = [] ∨ s.lastGrant = .engine)
include hg

/-- The host port's read is served before its drain. -/
theorem exec_grant_read {off : Nat} (hw : s.hostWait = some (.read off)) :
    exec .arbiterGrant s = .next
      { s with hostData := some (ramRead s.ramBytes s.mem off), hostWait := none, lastGrant := .host } := by
  rw [exec_grant_host (s.hostAsks_iff.2 (.inr ⟨off, hw⟩)) (hg.imp_left s.engineAsks_eq_false_iff.2), State.grantHost_read hw]
  rfl

theorem exec_grant_drain {off : Nat} {v : Word} {q : List (Nat × Word)} (hq : s.hostQ = (off, v) :: q)
    (hw : ∀ off, s.hostWait ≠ some (.read off)) : exec .arbiterGrant s = .next (s.drained off v q).serveHeld := by
  have ha : s.hostAsks = true := s.hostAsks_iff.2 (.inl (hq ▸ List.cons_ne_nil _ _))
  rw [exec_grant_host ha (hg.imp_left s.engineAsks_eq_false_iff.2), State.grantHost_drain hw, State.drain_cons hq]

end

theorem State.serveHeld_none {s : State} (h : s.hostWait = none) : s.serveHeld = s := by
  simp only [State.serveHeld, h]

theorem State.serveHeld_write {s : State} {off : Nat} {v : Word} (h : s.hostWait = some (.write off v))
    (hq : s.hostQ.length < 8) : s.serveHeld = s.acceptWrite off v := by
  simp only [State.serveHeld, h]
  exact if_pos hq

theorem State.serveHeld_softReset {s : State} (h : s.hostWait = some .softReset) :
    s.serveHeld = if s.hostQ.isEmpty then s.actSoftReset else s := by
  simp only [State.serveHeld, h]

/-- Settles O14: a write by the room in the queue, a read by the newest entry for its word, a soft reset by what the queue still
holds. -/
theorem hostAccessesMeetQueue : Obligations.HostAccessesMeetQueue := by
  refine ⟨fun s addr v hw => ⟨fun hq hf hr hn => ?unwatched, fun hq => ?joins, fun hq => exec_hostWrite_held hw hq addr v⟩,
    fun s addr hw => ⟨fun q1 q2 v hq hlast => ?forwarded, fun hno => ?waits⟩, fun s hw hq => ?held,
    fun s off v hw hq hg => ?acts, fun s off v e q hw hq hg => ?drains⟩
  case unwatched => rw [exec_hostWrite_accepts hw hq, State.acceptWrite_unwatched v hw hf hr hn]
  case joins => exact ⟨_, exec_hostWrite_accepts hw hq addr v, rfl, rfl⟩
  case forwarded => rw [exec_hostRead hw, hq, newest_append_cons hlast]
  case waits => rw [exec_hostRead hw, newest_eq_none_iff.2 hno]
  case held =>
    have hwaits : ¬s.hostQ.isEmpty = true := mt List.isEmpty_iff.1 hq
    rw [exec_askSoftReset, State.askSoftReset, if_pos (State.busFree_of_none hw), if_neg hwaits]
  case acts =>
    rw [exec_grant_drain hg hq (by simp [hw]), State.serveHeld_softReset (by exact hw), exec_softReset rfl rfl]
    rfl
  case drains =>
    rw [exec_grant_drain hg hq (by simp [hw]), State.serveHeld_softReset (by exact hw)]
    rfl

/-! ## What a drain leaves of every word (R192) -/

/-- What a read of a word finds: the newest queued value, or the word in memory. -/
def State.found (s : State) (off : Nat) : Word := (newest s.hostQ off).getD (s.mem.word off)

/-- The head entry passes from the queue to memory, so that no word changes as a read finds it. -/
theorem State.found_drained {s : State} {o : Nat} {v : Word} {q : List (Nat × Word)} (hwf : s.mem.wf = true)
    (hq : s.hostQ = (o, v) :: q) (ho : o % 4 = 0) (hr : o < s.ramBytes) {off : Nat} (hoff : off % 4 = 0) :
    (s.drained o v q).found off = s.found off := by
  have hmem : (s.drained o v q).mem = s.mem.setWord o v := ramWrite_inside _ _ hr
  have hqueue : (s.drained o v q).hostQ = q := rfl
  rw [State.found, State.found, hmem, hqueue, hq, newest]
  cases newest q off with
  | some w => rfl
  | none =>
    by_cases h : o = off
    · subst h
      simp [Memory.word_setWord_same hwf]
    · simp [h, Memory.word_setWord_apart hwf o off v (by omega)]

/-- Settles O16: the host port's read before its drain, the drain by the head entry, the write held off by the room it leaves,
the alternation by who asks. -/
theorem grantServesHostPort : Obligations.GrantServesHostPort := by
  refine ⟨fun s off hw hg => ⟨fun hr => ?reads, _, exec_grant_read hg hw⟩, fun s off v q hwf hw hq hg hr => ?drains,
    fun s off off' v v' q hok hw hq hg => ?joins, fun s t hwf hw hq hg hin he off hoff => ?found,
    fun s => ⟨s.hostAsks_iff, s.engineAsks_iff, exec_grant_none, fun t he => ⟨fun ha hg => ?host, fun ha hg => ?engine⟩⟩⟩
  case reads => rw [exec_grant_read hg hw, ramRead_inside _ hr]
  case drains =>
    refine ⟨s.mem.setWord off v, ?_, Memory.wf_setWord hwf off v, Memory.word_setWord_same hwf off v, fun a ha => ?_⟩
    · rw [exec_grant_drain hg hq (by simp [hw]), State.serveHeld_none (by exact hw), State.drained, ramWrite_inside _ _ hr]
    · exact Memory.byte_setWords_outside hwf off [v] a ha
  case joins =>
    obtain ⟨hlen, hfull⟩ := hok
    have hseven : q.length = 7 := by simpa [hw, hq] using hfull
    have hroom : (s.drained off v q).hostQ.length < 8 := hseven.trans_lt (by decide)
    refine ⟨_, exec_grant_drain hg hq (by simp [hw]), ?_⟩
    rw [State.serveHeld_write (by exact hw) hroom]
    exact ⟨rfl, by simp [State.drained, hseven], rfl, rfl, rfl⟩
  case found =>
    obtain ⟨⟨o, v⟩, q, hcons⟩ := List.exists_cons_of_ne_nil hq
    obtain ⟨ho, hr⟩ := hin (o, v) (hcons ▸ List.mem_cons_self)
    rw [exec_grant_drain hg hcons (by simp [hw]), State.serveHeld_none (by exact hw)] at he
    cases he
    exact State.found_drained hwf hcons ho hr hoff
  case host =>
    rw [exec_grant_host ha hg] at he
    cases he
    exact State.grantHost_lastGrant ha
  case engine =>
    rw [exec_grant_engine ha hg] at he
    cases he
    exact State.grantEngine_lastGrant ha

end Sys2Proof.Machine

namespace Sys2Proof.Machine

/-! # The engine side's bursts (R192, R194) -/

/-! ## The words of a burst -/

/-- Consecutive words read back where they were written. -/
theorem Memory.word_setWords {m : Memory} (h : m.wf = true) (off : Nat) (ws : List Word) {i : Nat} (hi : i < ws.length) :
    some ((m.setWords off ws).word (off + 4 * i)) = ws[i]? := by
  induction ws generalizing m off i with
  | nil => exact absurd hi (Nat.not_lt_zero i)
  | cons w ws ih =>
    have hwf := Memory.wf_setWord h off w
    rw [Memory.setWords]
    cases i with
    | zero =>
      have hbyte : ∀ a, a < off + 4 → ((m.setWord off w).setWords (off + 4) ws).byte a = (m.setWord off w).byte a :=
        fun a ha => Memory.byte_setWords_outside hwf (off + 4) ws a (.inl ha)
      have hword : ((m.setWord off w).setWords (off + 4) ws).word off = (m.setWord off w).word off := by
        simp only [Memory.word]
        rw [hbyte _ (by omega), hbyte _ (by omega), hbyte _ (by omega), hbyte _ (by omega)]
      exact congrArg some (hword.trans (Memory.word_setWord_same h off w))
    | succ i =>
      have hnext := ih hwf (off + 4) (Nat.lt_of_succ_lt_succ hi)
      rwa [show off + 4 + 4 * i = off + 4 * (i + 1) by omega] at hnext

/-- A granted read gives for each word the newest queued write or the RAM's word. -/
theorem State.readWords_get (s : State) (off n : Nat) : (s.readWords off n).length = n ∧
    ∀ i, i < n → (s.readWords off n)[i]? =
      some ((newest s.hostQ (off + 4 * i)).getD (ramRead s.ramBytes s.mem (off + 4 * i))) := by
  induction n generalizing off with
  | zero => exact ⟨rfl, fun i hi => absurd hi (Nat.not_lt_zero i)⟩
  | succ n ih =>
    obtain ⟨hlen, hget⟩ := ih (off + 4)
    refine ⟨by simp [State.readWords, hlen], fun i hi => ?_⟩
    cases i with
    | zero =>
      rw [Nat.mul_zero, Nat.add_zero]
      show some _ = some _
      cases newest s.hostQ off <;> rfl
    | succ i =>
      have hnext := hget i (Nat.lt_of_succ_lt_succ hi)
      rwa [show off + 4 + 4 * i = off + 4 * (i + 1) by omega] at hnext

/-! ## The thread that waits for a burst -/

/-- The last burst of the run of writes that the thread waits for lets it go on; any other burst of a write goes,
and no more. -/
theorem Dev.granted_write {d : Dev} {b : Burst} {bs : List Burst} {ws : List Word} (hq : d.engineQ = b :: bs)
    (hd : b.data = some ws) (q : List (Nat × Word)) : d.granted q b [] =
      if b.mine = true ∧ b.last = true ∧ d.wait = .mem then { d with engineQ := bs, wait := .run }
      else { d with engineQ := bs } := by
  cases hm : b.mine with
  | false => simp [Dev.granted, hq, hm]
  | true =>
    cases hl : b.last with
    | false => simp [Dev.granted, hq, hd, hm, hl]
    | true => simp [Dev.granted, Dev.wake, Dev.proceed, hq, hd, hm, hl]

/-- A thread that waits for its access goes on when it is woken, another stays as it is. -/
theorem Dev.wake_mem (d : Dev) : d.wake .mem = { d with wait := if d.wait = .mem then .run else d.wait } := by
  by_cases hw : d.wait = .mem
  · simp [Dev.wake, Dev.proceed, hw]
  · simp [Dev.wake, hw]

/-- A burst of a run of reads gives its words, and what the queue then answers; the run's end lets the thread go on. -/
theorem Dev.granted_read {d : Dev} {b : Burst} {bs : List Burst} (hq : d.engineQ = b :: bs) (hd : b.data = none)
    (hm : b.mine = true) (q : List (Nat × Word)) (ws : List Word) {r : List Word × List Burst × Bool}
    (hr : r = if b.last then ([], bs, true) else answerQueued q bs) : d.granted q b ws = { d with
      engineQ := r.2.1, rbuf := d.rbuf ++ ws ++ r.1
      wait := if r.2.2 = true ∧ d.wait = .mem then .run else d.wait } := by
  subst hr
  cases hl : b.last with
  | true => simp [Dev.granted, Dev.wake_mem, hq, hd, hm, hl]
  | false =>
    cases hend : (answerQueued q bs).2.2 with
    | true => simp [Dev.granted, Dev.wake_mem, hq, hd, hm, hl, hend]
    | false => simp [Dev.granted, hq, hd, hm, hl, hend]

/-! ## Runs of reads as bursts -/

theorem readBursts_one {n : Nat} (off : Nat) (h1 : 1 ≤ n) (h4 : n ≤ 4) : readBursts n off n = [⟨off, n, none, true, true⟩] := by
  obtain ⟨k, rfl⟩ : ∃ k, n = k + 1 := ⟨n - 1, by omega⟩
  exact if_pos h4

theorem readBursts_eight (off : Nat) :
    readBursts 8 off 8 = [⟨off, 4, none, true, false⟩, ⟨off + 16, 4, none, true, true⟩] := rfl

/-- The engine side is granted when it asks alone or the host port had the last grant. -/
theorem exec_grant_burst {s : State} {b : Burst} {bs : List Burst} (hq : s.dev.engineQ = b :: bs)
    (hg : (s.hostQ = [] ∧ ∀ off, s.hostWait ≠ some (.read off)) ∨ s.lastGrant = .host) :
    exec .arbiterGrant s = .next s.grantEngine :=
  exec_grant_engine (s.engineAsks_iff.2 (hq ▸ List.cons_ne_nil _ _)) (hg.imp_left s.hostAsks_eq_false_iff.2)

/-- Settles O17: the grant by what the burst is, the forwarding by the words queued, the run by its length. -/
theorem grantMakesEngineBurst : Obligations.GrantMakesEngineBurst := by
  refine ⟨fun s b bs hwf hq hg hr => ⟨fun ws hd hlen => ?write, fun hd hm r hr' => ?read⟩,
    fun q b bs => ⟨fun h => ?asks, fun ws hd hlen hw => ?forwards⟩, fun q off n d bs r hn hr => ?run⟩
  case write =>
    have hin : b.off + 4 * ws.length ≤ s.ramBytes := hlen ▸ hr
    refine ⟨s.mem.setWords b.off ws, Memory.wf_setWords hwf b.off ws, fun i hi => Memory.word_setWords hwf b.off ws (hlen ▸ hi),
      fun a ha => Memory.byte_setWords_outside hwf b.off ws a (hlen ▸ ha), ?_⟩
    rw [exec_grant_burst hq hg, State.grantEngine_write hq hd, ramWrites_inside _ _ _ hin,
      State.withDev_eq (Dev.granted_write (by exact hq) hd s.hostQ)]
  case read =>
    obtain ⟨hlen, hget⟩ := s.readWords_get b.off b.n
    refine ⟨_, hlen, fun i hi => ?_, ?_⟩
    · rw [hget i hi, ramRead_inside _ (by omega)]
    · rw [exec_grant_burst hq hg, State.grantEngine_read hq hd,
        State.withDev_eq (Dev.granted_read (by exact hq) hd hm s.hostQ _ hr')]
  case asks => exact answerQueued_cons_asks bs (h.imp_right forwarded_eq_none_iff.2)
  case forwards => exact answerQueued_cons_forwards bs hd (forwarded_eq_some_iff.2 ⟨hlen, hw⟩)
  case run =>
    have hbursts : readBursts n off n = bs := by
      rcases hn with ⟨h1, h4, rfl⟩ | ⟨rfl, rfl⟩
      · exact readBursts_one off h1 h4
      · exact readBursts_eight off
    rw [hr, ← hbursts]
    rfl

end Sys2Proof.Machine

namespace Sys2Proof.Machine

/-! # A write to the watched word -/

/-! ## The reread of the word, forwarded from the queue (R180, R192) -/

/-- The blocks of a reader that has been told of a write to its watched word and has read it again. -/
def Dev.rereading (w : Watch) (v : Word) (d : Dev) : Dev :=
  { (d.dropThread.goto [.reread w]).sync with tasks := [.rereadGot w], rbuf := [v] }

theorem Dev.rereading_follows (w : Watch) (v : Word) (d : Dev) : (d.rereading w v).Follows :=
  Dev.sync_follows (d.dropThread.goto [.reread w])

theorem Dev.rereading_reader (w : Watch) (v : Word) (d : Dev) : (d.rereading w v).reader = d.reader :=
  Dev.sync_reader (d.dropThread.goto [.reread w])

theorem Dev.rereading_wait (w : Watch) (v : Word) (d : Dev) : (d.rereading w v).wait = .run :=
  Dev.sync_wait (d.dropThread.goto [.reread w])

/-- A read of one queued word is answered at once. -/
theorem Dev.issueRead_queued {q : List (Nat × Word)} {off : Nat} {v : Word} (h : newest q off = some v) (d : Dev) :
    d.issueRead q off 1 = { d with rbuf := d.rbuf ++ [v] } := by
  have hforward : forwarded q off 1 = some [v] := forwarded_eq_some_iff.2 ⟨rfl, fun i hi => by
    obtain rfl : i = 0 := by omega
    simpa using h⟩
  have hanswer : answerQueued q [⟨off, 1, none, true, true⟩] = ([v], [], true) :=
    answerQueued_cons_forwards [] rfl hforward
  rw [Dev.issueRead, readBursts_one off (by decide) (by decide), hanswer]
  simp

/-- The value just written is queued, so that the word is read again without a grant. -/
theorem Dev.settle_notice {q : List (Nat × Word)} {w : Watch} {v : Word} {d : Dev} (hs : d.reader.state = .waiting)
    (hw : d.reader.watch = some w) (hq : newest q w.off = some v) :
    ∃ n, 1 < n ∧ (d.notice w.off).settle q = settleFor q n (d.rereading w v) := by
  obtain ⟨e, he⟩ : ∃ e, e = (d.dropThread.goto [.reread w]).sync := ⟨_, rfl⟩
  have hfollows : e.Follows := he ▸ Dev.sync_follows _
  have hwait : e.wait = .run := by rw [he, Dev.sync_wait]; rfl
  have hreread : (runTask q (.reread w) { e with tasks := [] }).sync =
      { e with tasks := [.read w.off 1, .rereadGot w], rbuf := [] } :=
    Dev.sync_of_follows (d := { e with tasks := [.read w.off 1, .rereadGot w], rbuf := [] }) hfollows
  have hread : (runTask q (.read w.off 1) { e with tasks := [.rereadGot w], rbuf := [] }).sync =
      { e with tasks := [.rereadGot w], rbuf := [v] } :=
    (congrArg Dev.sync (Dev.issueRead_queued hq _)).trans
      (Dev.sync_of_follows (d := { e with tasks := [.rereadGot w], rbuf := [v] }) hfollows)
  refine ⟨19998, by decide, ?_⟩
  rw [Dev.notice_watched hs hw, Dev.settle_next q (t := .reread w) (ts := []) rfl rfl, ← he, hreread,
    settleFor_next q 19999 (d := { e with tasks := [.read w.off 1, .rereadGot w], rbuf := [] }) (t := .read w.off 1)
      (ts := [.rereadGot w]) (by decide) hwait rfl, hread, Dev.rereading, ← he]

/-! ## What the value brings about (R180, R182) -/

section
variable {q : List (Nat × Word)} {w : Watch} {v : Word} {d : Dev} {n : Nat}

/-- A value that does not wake the reader leaves it WAITING there. -/
theorem settleFor_sleeps (hn : 1 < n) (hs : d.reader.state = .waiting) (hv : w.wakes v = false) :
    settleFor q n (d.rereading w v) = (Dev.watchWord w { d.rereading w v with tasks := [], rbuf := [] }).sync := by
  have hstep : runTask q (.rereadGot w) { d.rereading w v with tasks := [] } =
      Dev.watchWord w { d.rereading w v with tasks := [], rbuf := [] } :=
    Dev.rereadGot_sleeps (d := { d.rereading w v with tasks := [] }) ((congrArg _ (d.rereading_reader w v)).trans hs) hv
  rw [settleFor_task q (by omega) (d.rereading_wait w v) rfl hstep]
  exact settleFor_resting q _ (.inr (Dev.sync_tasks _))

/-- The blocks of a reader that has woken: RUNNING, and that written, before it acts on the word (R174). -/
def Dev.awake (w : Watch) (v : Word) (d : Dev) : Dev :=
  Dev.sync { d.rereading w v with
    reader := { (d.rereading w v).reader with state := .running, watch := none }
    tasks := [.woken w] }

theorem Dev.awake_reader (w : Watch) (v : Word) (d : Dev) :
    (d.awake w v).reader = { d.reader with state := .running, watch := none } := by
  rw [Dev.awake, Dev.sync_reader, Dev.rereading_reader]

theorem Dev.awake_wait (w : Watch) (v : Word) (d : Dev) : (d.awake w v).wait = .run :=
  (Dev.sync_wait _).trans (d.rereading_wait w v)

theorem Dev.release_tasks (d : Dev) : d.release.tasks = d.tasks := by
  unfold Dev.release
  split <;> rfl

theorem Dev.followLink_tasks (v : Word) (src : Watch) (d : Dev) : (d.followLink v src).tasks = d.tasks := by
  by_cases h0 : v = 0
  · subst h0
    rw [Dev.followLink_watches]
    rfl
  · by_cases h : headerFits v.toNat d.memEnd = true
    · rw [Dev.followLink_reaches h0 h]
      exact d.release_tasks
    · rw [Dev.followLink_bad h0 h]
      rfl

theorem Dev.followWord_tasks (w : Watch) (d : Dev) : (d.followWord w).tasks = d.tasks := by
  cases w with
  | header off =>
    unfold Dev.followWord
    dsimp only
    split <;> rfl
  | link off => exact Dev.followLink_tasks _ _ d.clearBuf
  | chainHead => exact Dev.followLink_tasks _ _ d.clearBuf

/-- A reader that wakes acts on the word in its next step, and then has nothing to do before the next event. -/
theorem settleFor_wakes (hn : 1 < n) (hs : d.reader.state = .waiting) (hv : w.wakes v = true) :
    settleFor q n (d.rereading w v) = (Dev.followWord w { d.awake w v with tasks := [] }).sync := by
  have hstep : runTask q (.rereadGot w) { d.rereading w v with tasks := [] } =
      { d.rereading w v with
        reader := { (d.rereading w v).reader with state := .running, watch := none }
        tasks := [.woken w] } :=
    Dev.rereadGot_wakes (d := { d.rereading w v with tasks := [] }) ((congrArg _ (d.rereading_reader w v)).trans hs) hv
  rw [settleFor_task q (by omega) (d.rereading_wait w v) rfl hstep]
  have hnext : settleFor q (n - 1) (d.awake w v) =
      settleFor q (n - 1 - 1) (Dev.followWord w { d.awake w v with tasks := [] }).sync :=
    settleFor_next q (n - 1) (t := .woken w) (ts := []) (by omega) (d.awake_wait w v) (Dev.sync_tasks _)
  refine hnext.trans (settleFor_resting q _ (.inr ?_))
  rw [Dev.sync_tasks, Dev.followWord_tasks]

end

/-! ## The action on the word, link by link (R182) -/

/-- What a WAITING reader that has been told of a write comes to. -/
theorem Dev.settle_watched {q : List (Nat × Word)} {w : Watch} {v : Word} {d : Dev} (hs : d.reader.state = .waiting)
    (hw : d.reader.watch = some w) (hq : newest q w.off = some v) :
    (w.wakes v = false → (d.notice w.off).settle q = (Dev.watchWord w { d.rereading w v with tasks := [], rbuf := [] }).sync) ∧
    (w.wakes v = true → (d.notice w.off).settle q = (Dev.followWord w { d.awake w v with tasks := [] }).sync) := by
  obtain ⟨n, hn, hsettle⟩ := Dev.settle_notice hs hw hq
  exact ⟨fun hv => hsettle.trans (settleFor_sleeps hn hs hv), fun hv => hsettle.trans (settleFor_wakes hn hs hv)⟩

theorem Dev.awake_word (w : Watch) (v : Word) (d : Dev) : ({ d.awake w v with tasks := [] } : Dev).word 0 = v := by
  have hbuf : (d.awake w v).rbuf = [v] := Dev.sync_rbuf _
  rw [Dev.word, hbuf]
  rfl

section
variable {w : Watch} (hl : ∀ off, w ≠ .header off) {v : Word} (d : Dev)
include hl

theorem Watch.wakes_link (v : Word) : w.wakes v = decide (v ≠ 0) := by
  cases w with
  | header off => exact absurd rfl (hl off)
  | link off => rfl
  | chainHead => rfl

theorem Watch.wakes_of_ne {v : Word} (h0 : v ≠ 0) : w.wakes v = true := by
  rw [Watch.wakes_link hl]
  exact decide_eq_true h0

/-- An awake reader at a link follows the value read. -/
theorem Dev.awake_followLink : (Dev.followWord w { d.awake w v with tasks := [] }) =
    Dev.followLink v w { d.awake w v with tasks := [], rbuf := [] } := by
  have hword := d.awake_word w v
  cases w with
  | header off => exact absurd rfl (hl off)
  | link off => exact congrArg (fun x => Dev.followLink x _ _) hword
  | chainHead => exact congrArg (fun x => Dev.followLink x _ _) hword

end

/-- An awake reader at a header that is POSTED goes to it. -/
theorem Dev.awake_followHeader {off : Nat} {v : Word} (hv : isPosted v = true) (d : Dev) :
    Dev.followWord (.header off) { d.awake (.header off) v with tasks := [] } =
      Dev.reach off { d.awake (.header off) v with tasks := [], rbuf := [] } := by
  unfold Dev.followWord
  dsimp only
  rw [d.awake_word, if_pos hv]
  rfl

/-! ## The words written to the status area (R174) -/

/-- The status area's first word: reader state, last error, START's check, and the table start (R204). -/
def Dev.readerWord (d : Dev) : Word :=
  bytes4 d.reader.state.code d.reader.lastError.code d.reader.startCheck d.reader.tableStart.code

theorem Dev.readerWord_bytes (d : Dev) : b0 d.readerWord = d.reader.state.code ∧ b1 d.readerWord = d.reader.lastError.code := by
  rw [Dev.readerWord, b0_bytes4, b1_bytes4, RState.code_mod, LastError.code_mod]
  exact ⟨rfl, rfl⟩

/-- Of a reader that has changed its state and shows the rest as it did, the first word alone is written. -/
theorem Dev.syncPosts_readerWord {d e : Dev} (hd : d.ImageFollows) (hlive : d.reader.imageLive = true)
    (hreader : e.reader.imageLive = d.reader.imageLive) (himg : e.statusImg = d.statusImg)
    (hwords : e.statusWords = e.readerWord :: d.statusWords.tail) (hstops : e.reader.state ≠ .stopped)
    (hstate : e.reader.state.code ≠ d.reader.state.code) :
    e.syncPosts = [⟨0x20, 1, some [e.readerWord], false, true⟩] := by
  have hne : e.readerWord ≠ d.readerWord := by
    intro heq
    refine hstate ?_
    rw [← e.readerWord_bytes.1, ← d.readerWord_bytes.1, heq]
  have hold : d.statusImg = d.readerWord :: d.statusWords.tail := hd
  rw [Dev.syncPosts, if_pos (e.statusLive_iff.2 ⟨hreader.trans hlive, hstops⟩), hwords, himg, hold, changedPosts,
    changedPosts_self, if_neg hne]
  rfl

/-- Giving up the thread leaves the status area as it is written. -/
theorem Dev.rereading_engineQ {d : Dev} (hf : d.ImageFollows) (w : Watch) (v : Word) :
    (d.rereading w v).engineQ = orphanBursts d.engineQ := by
  have hwords : (d.dropThread.goto [.reread w]).statusWords = (d.dropThread.goto [.reread w]).statusImg := hf.symm
  have hposts : (d.dropThread.goto [.reread w]).syncPosts = [] := by
    rw [Dev.syncPosts, hwords, changedPosts_self, ite_self]
  have hqueue : (d.rereading w v).engineQ = (d.dropThread.goto [.reread w]).sync.engineQ := rfl
  rw [hqueue, Dev.sync_engineQ, hposts, List.append_nil]
  rfl

/-- RUNNING is written for the reader that wakes, and nothing else. -/
theorem Dev.awake_engineQ {d : Dev} (hs : d.reader.state = .waiting) (hlive : d.reader.imageLive = true) (hf : d.ImageFollows)
    (w : Watch) (v : Word) :
    ∃ x : Word, b0 x = 1 ∧ b1 x = d.reader.lastError.code ∧
      (d.awake w v).engineQ = orphanBursts d.engineQ ++ [⟨0x20, 1, some [x], false, true⟩] := by
  obtain ⟨g, hg⟩ : ∃ g, g = d.rereading w v := ⟨_, rfl⟩
  obtain ⟨e, he⟩ : ∃ e : Dev,
      e = { g with reader := { g.reader with state := .running, watch := none }, tasks := [.woken w] } := ⟨_, rfl⟩
  have hgreader : g.reader = d.reader := by rw [hg, Dev.rereading_reader]
  have hstate : e.reader.state = .running := by rw [he]
  have hposts : e.syncPosts = [⟨0x20, 1, some [e.readerWord], false, true⟩] := by
    refine Dev.syncPosts_readerWord (d := g) ?_ ?_ ?_ ?_ ?_ ?_ ?_
    · rw [hg]; exact (d.rereading_follows w v).2.2
    · rw [hgreader]; exact hlive
    · rw [he]
    · rw [he]
    · rw [he]; rfl
    · rw [hstate]; exact nofun
    · rw [hstate, hgreader, hs]; decide
  have hqueue : e.engineQ = orphanBursts d.engineQ := by rw [he, hg]; exact Dev.rereading_engineQ hf w v
  have hawake : (d.awake w v).engineQ = e.sync.engineQ := by rw [he, hg]; rfl
  refine ⟨e.readerWord, ?_, ?_, by rw [hawake, Dev.sync_engineQ, hposts, hqueue]⟩
  · rw [e.readerWord_bytes.1, hstate]; rfl
  · rw [e.readerWord_bytes.2, he, ← hgreader]

/-! ## What an awake reader comes to -/

/-- At a link that may hold a header the order left is released, its mark behind the RUNNING, and the reader goes to the header
(R182). -/
theorem Dev.awake_reaches {w : Watch} {v : Word} {d t : Dev} (hl : ∀ off, w ≠ .header off) (h0 : v ≠ 0)
    (hfit : headerFits v.toNat d.memEnd = true) (ht : t = (Dev.followWord w { d.awake w v with tasks := [] }).sync) :
    t.reader = { d.reader with state := .running, curOff := v.toNat, watch := none, order := none } ∧ t.wait = .take ∧
    ∃ bs, t.engineQ = (d.awake w v).engineQ ++ bs ∧
      ∀ o, d.reader.order = some o → ⟨o.off, 1, some [o.header o.status true], false, true⟩ ∈ bs := by
  have hreader := d.awake_reader w v
  obtain ⟨g, hg⟩ : ∃ g : Dev, g = { d.awake w v with tasks := [], rbuf := [] } := ⟨_, rfl⟩
  have hgreader : g.reader = { d.reader with state := .running, watch := none } := by rw [hg]; exact hreader
  have hmem : g.memEnd = d.memEnd := by rw [Dev.memEnd, hgreader, Dev.memEnd]
  have hgq : g.engineQ = (d.awake w v).engineQ := by rw [hg]
  rw [Dev.awake_followLink hl, ← hg, Dev.followLink_reaches h0 (hmem ▸ hfit)] at ht
  have horder : g.reader.order = d.reader.order := by rw [hgreader]
  have hwait : t.wait = .take := by rw [ht, Dev.sync_wait]; rfl
  have hqueue : t.engineQ = g.release.engineQ ++ (g.release.reach v.toNat).syncPosts := by rw [ht, Dev.sync_engineQ]; rfl
  have hread : t.reader = { g.release.reader with state := .running, curOff := v.toNat, watch := none } := by
    rw [ht, Dev.sync_reader]; rfl
  cases ho : d.reader.order with
  | none =>
    have hrel : g.release = g := by simp only [Dev.release, horder, ho]
    rw [hrel, hgq] at hqueue
    rw [hrel, hgreader] at hread
    refine ⟨?_, hwait, _, hqueue, fun o h => absurd h (Option.some_ne_none o).symm⟩
    rw [hread, ← ho]
  | some o =>
    have hrel := Dev.release_eq (d := g) (horder.trans ho)
    refine ⟨?_, hwait, ⟨o.off, 1, some [o.header o.status true], false, true⟩ :: (g.release.reach v.toNat).syncPosts, ?_, ?_⟩
    · rw [hread, hrel, hgreader]
    · rw [hqueue, ← hgq, congrArg Dev.engineQ hrel, List.append_assoc]
      rfl
    · rintro o' ho'
      cases ho'
      exact List.mem_cons_self

/-- At any other link but 0 the reader is HALTED with BAD_LINK, one write of their one word behind the RUNNING (R182,
log 59). -/
theorem Dev.awake_badLink {w : Watch} {v : Word} {d t : Dev} (hl : ∀ off, w ≠ .header off) (h0 : v ≠ 0)
    (hbad : headerFits v.toNat d.memEnd = false) (ht : t = (Dev.followWord w { d.awake w v with tasks := [] }).sync) :
    (t.reader.state = .halted ∧ t.reader.resume = some (.word w) ∧ t.reader.lastError = .badLink ∧
      t.reader.order = d.reader.order) ∧ hasSrc t.attn.req 2 = true ∧
    (d.reader.imageLive = true → ∃ y : Word, b0 y = 3 ∧ b1 y = 3 ∧
      t.engineQ = (d.awake w v).engineQ ++ [⟨0x20, 1, some [y], false, true⟩]) := by
  have hreader := d.awake_reader w v
  obtain ⟨g, hg⟩ : ∃ g : Dev, g = { d.awake w v with tasks := [], rbuf := [] } := ⟨_, rfl⟩
  have hgreader : g.reader = { d.reader with state := .running, watch := none } := by rw [hg]; exact hreader
  have hmem : g.memEnd = d.memEnd := by rw [Dev.memEnd, hgreader, Dev.memEnd]
  have hno : ¬headerFits v.toNat g.memEnd = true := by rw [hmem, hbad]; decide
  obtain ⟨e, he⟩ : ∃ e, e = (g.onReader fun r => { r with lastError := .badLink }).haltAt (.word w) := ⟨_, rfl⟩
  rw [Dev.awake_followLink hl, ← hg, Dev.followLink_bad h0 hno, ← he] at ht
  have hstate : e.reader.state = .halted := by rw [he]; rfl
  have herror : e.reader.lastError = .badLink := by rw [he]; rfl
  refine ⟨?_, ?_, fun hlive => ⟨e.readerWord, ?_, ?_, ?_⟩⟩
  · rw [ht, Dev.sync_reader]
    refine ⟨hstate, by rw [he]; rfl, herror, ?_⟩
    have horder : e.reader.order = g.reader.order := by rw [he]; rfl
    rw [horder, hgreader]
  · rw [ht, Dev.hasSrc_sync_event e (by decide) (by decide) (by decide), he]
    exact Dev.haltAt_chain _ _
  · rw [e.readerWord_bytes.1, hstate]; rfl
  · rw [e.readerWord_bytes.2, herror]; rfl
  · have hposts : e.syncPosts = [⟨0x20, 1, some [e.readerWord], false, true⟩] := by
      refine Dev.syncPosts_readerWord (d := g) ?_ ?_ ?_ ?_ ?_ ?_ ?_
      · rw [hg]; exact (Dev.sync_follows _).2.2
      · rw [hgreader]; exact hlive
      · rw [he]; rfl
      · rw [he]; rfl
      · rw [he]; rfl
      · rw [hstate]; exact nofun
      · rw [hstate, hgreader]; exact (by decide : RState.halted.code ≠ RState.running.code)
    have hqueue : e.engineQ = (d.awake w v).engineQ := by rw [he, hg]; rfl
    rw [ht, Dev.sync_engineQ, hposts, hqueue]

/-- At a POSTED header the reader takes up that order (R180). -/
theorem Dev.awake_takesUp {off : Nat} {v : Word} {d t : Dev} (hv : isPosted v = true)
    (ht : t = (Dev.followWord (.header off) { d.awake (.header off) v with tasks := [] }).sync) :
    t.reader = { d.reader with state := .running, curOff := off, watch := none } ∧ t.wait = .take ∧
    ∃ bs, t.engineQ = (d.awake (.header off) v).engineQ ++ bs := by
  have hreader := d.awake_reader (.header off) v
  obtain ⟨g, hg⟩ : ∃ g : Dev, g = { d.awake (.header off) v with tasks := [], rbuf := [] } := ⟨_, rfl⟩
  have hgreader : g.reader = { d.reader with state := .running, watch := none } := by rw [hg]; exact hreader
  rw [Dev.awake_followHeader hv, ← hg] at ht
  refine ⟨?_, by rw [ht, Dev.sync_wait]; rfl, (g.reach off).syncPosts, ?_⟩
  · rw [ht, Dev.sync_reader]
    show ({ g.reader with state := .running, curOff := off, watch := none } : Reader) = _
    rw [hgreader]
  · have hqueue : (g.reach off).engineQ = (d.awake (.header off) v).engineQ := by rw [hg]; rfl
    rw [ht, Dev.sync_engineQ, hqueue]

/-- A reader that does not wake stays WAITING at its word, with the order it holds. -/
theorem Dev.rereading_stays {w : Watch} {v : Word} {d t : Dev}
    (ht : t = (Dev.watchWord w { d.rereading w v with tasks := [], rbuf := [] }).sync) :
    t.reader.state = .waiting ∧ t.reader.watch = some w ∧ t.reader.order = d.reader.order := by
  have horder : t.reader.order = (d.rereading w v).reader.order := by rw [ht, Dev.sync_reader]; rfl
  rw [d.rereading_reader] at horder
  exact ⟨by rw [ht, Dev.sync_reader]; rfl, by rw [ht, Dev.sync_reader]; rfl, horder⟩

/-- Settles O15: the word is read again from the queue; the value decides whether the reader wakes, and what it then
comes to. -/
theorem hostWriteWakesReader : Obligations.HostWriteWakesReader := by
  intro s addr v w hw hq hs hwatch hoff
  obtain ⟨t, ht⟩ : ∃ t, t = s.acceptWrite (4 * addr.toNat) v := ⟨_, rfl⟩
  have hdev : t.dev = (s.dev.notice w.off).settle (s.hostQ ++ [(w.off, v)]) := by rw [ht, State.acceptWrite_dev, hoff]
  have hnewest : newest (s.hostQ ++ [(w.off, v)]) w.off = some v := newest_append_cons (by simp)
  obtain ⟨hsleeps, hwakes⟩ := Dev.settle_watched hs hwatch hnewest
  rw [← hdev] at hsleeps hwakes
  refine ⟨t, by rw [ht]; exact exec_hostWrite_accepts hw hq addr v, by rw [ht]; rfl, by rw [ht]; rfl,
    fun hl => ⟨fun h0 => ?zero, fun h0 hfit => ?reaches, fun h0 hbad => ?bad⟩,
    fun off hh => ⟨fun hv => ?posted, fun hv => ?other⟩,
    fun hlive himg hposted hlink => ?written⟩
  case zero => exact Dev.rereading_stays (hsleeps (by rw [Watch.wakes_link hl, h0]; decide))
  case reaches =>
    obtain ⟨hreader, hwait, bs, hqueue, hmark⟩ := Dev.awake_reaches hl h0 hfit (hwakes (Watch.wakes_of_ne hl h0))
    rw [hreader]
    refine ⟨rfl, rfl, hwait, rfl, rfl, fun o ho => ?_⟩
    rw [hqueue]
    exact List.mem_append_right _ (hmark o ho)
  case bad =>
    obtain ⟨⟨hstate, hresume, herror, horder⟩, hchain, -⟩ := Dev.awake_badLink hl h0 hbad (hwakes (Watch.wakes_of_ne hl h0))
    exact ⟨hstate, hresume, herror, horder, hchain⟩
  case posted =>
    subst hh
    obtain ⟨hreader, hwait, -⟩ := Dev.awake_takesUp hv (hwakes hv)
    rw [hreader]
    exact ⟨rfl, rfl, hwait, rfl⟩
  case other =>
    subst hh
    obtain ⟨hstate, hstays, -⟩ := Dev.rereading_stays (hsleeps hv)
    exact ⟨hstate, hstays⟩
  case written =>
    obtain ⟨x, hx0, hx1, hx⟩ := Dev.awake_engineQ hs hlive himg w v
    by_cases hh : ∃ off, w = .header off
    · obtain ⟨off, rfl⟩ := hh
      obtain ⟨-, -, bs, hqueue⟩ := Dev.awake_takesUp (hposted off rfl) (hwakes (hposted off rfl))
      refine ⟨x, bs, hx0, hx1, ?_, fun hno => absurd rfl (hno off)⟩
      rw [hqueue, hx, List.append_assoc]
      rfl
    · have hl : ∀ off, w ≠ .header off := not_exists.1 hh
      have h0 := hlink hl
      have hwake := hwakes (by rw [Watch.wakes_link hl]; simpa using h0)
      cases hfit : headerFits v.toNat s.dev.memEnd with
      | true =>
        obtain ⟨-, -, bs, hqueue, hmark⟩ := Dev.awake_reaches hl h0 hfit hwake
        refine ⟨x, bs, hx0, hx1, ?_, fun _ => ⟨fun _ => hmark, fun h => absurd h (by decide)⟩⟩
        rw [hqueue, hx, List.append_assoc]
        rfl
      | false =>
        obtain ⟨-, -, hwrites⟩ := Dev.awake_badLink hl h0 hfit hwake
        obtain ⟨y, hy0, hy1, hqueue⟩ := hwrites hlive
        refine ⟨x, _, hx0, hx1, ?_, fun _ => ⟨fun h => absurd h (by decide), fun _ => ⟨y, hy0, hy1, rfl⟩⟩⟩
        rw [hqueue, hx, List.append_assoc]
        rfl

end Sys2Proof.Machine

namespace Sys2Proof.Machine

/-! # One step (log 4) -/

theorem step_of_pending_cons {s : State} {c : Instr} {rest : List Instr} (h : s.pending = c :: rest) :
    step s = exec c { s with pending := rest } := by
  simp only [step, h]

theorem step_of_pending_nil {s : State} (h : s.pending = []) : step s = .next s := by
  simp only [step, h]

/-- Settles O1, by the two cases of the queue of commands. -/
theorem stepRunsFrontCommand : Obligations.StepRunsFrontCommand := by
  refine ⟨fun c rest s => ?front, fun s hidle => ?idles⟩
  case front => exact step_of_pending_cons (s := { s with pending := c :: rest }) rfl
  case idles => exact step_of_pending_nil hidle

end Sys2Proof.Machine
